-- ==== Sys2Proof/Word.lean ====
section
/-! DEFINITION. The byte, and nothing else: every field of the manual that is a range of whole numbers is a `Nat` (or an
`Int` where it may be negative); frame data, request bodies and response bodies are lists of bytes. -/

namespace Sys2Proof

/-- One byte of a frame, a request body, a response body or a firmware image. -/
abbrev Byte := BitVec 8

end Sys2Proof
end

