-- ==== Sys2Proof/Config.lean ====
section
/-! DEFINITION. What is fixed for the part: capacities, times and limits of the manual, and the free values, which the
manual leaves open (opaque: no proof can see what they are). -/

namespace Sys2Proof.Config

/-- R182: the site clock saturates here. -/
def maxClock : Nat := 4294967295
/-- R184: the largest value CLOCK_SET takes. -/
def maxClockSet : Nat := 4000000000
/-- R2: places of the inbound buffer. -/
def inboundPlaces : Nat := 16
/-- Section 1.5: capacities of the four outbound queues. -/
def urgentPlaces : Nat := 8
def answerPlaces : Nat := 16
def bulkPlaces : Nat := 32
def imagePlaces : Nat := 16
/-- R8: most queued frames of one transfer, or of one relay channel. -/
def streamPlaces : Nat := 8
/-- R24: places of the barred-serial list. -/
def barredPlaces : Nat := 8
/-- R22, R23: the hold deadline. -/
def holdSeconds : Nat := 600
/-- R25, R26: the reply deadline of ASSIGN. -/
def assignReplySeconds : Nat := 5
/-- R27: the profile deadline. -/
def profileSeconds : Nat := 30
/-- R30: the test deadline. -/
def testSeconds : Nat := 3600
/-- R36: the silence deadline. -/
def silenceSeconds : Nat := 10
/-- R38: the gathering deadline. -/
def gatheringSeconds : Nat := 30
/-- R49: places of the recipe table. -/
def recipePlaces : Nat := 256
/-- R68: most entries of a loaded set, and the bound of the effective recipe capacity. -/
def loadedPlaces : Nat := 64
/-- R73, R78, R79: the REPLY, PROGRESS and UNLOAD deadlines. -/
def distributionSeconds : Nat := 5
/-- R133, R141: places of the ticket table. -/
def ticketPlaces : Nat := 64
/-- R145: the verification deadline. -/
def verificationSeconds : Nat := 14400
/-- R162: bytes of a relay channel's buffer. -/
def channelBytes : Nat := 2048
/-- R156: largest image. -/
def maxImage : Nat := 1048576
/-- R164: the acknowledgement timeout. -/
def ackSeconds : Nat := 2
/-- R168: the check deadline. -/
def checkSeconds : Nat := 30
/-- R158: the HOLD deadline of a SUSPENDED entry. -/
def entryHoldSeconds : Nat := 600
/-- R158: the APPLY deadline. -/
def applySeconds : Nat := 900
/-- R195: most ordinary entries of the notice set. -/
def ordinaryNotices : Nat := 63

/-- Free value (A14): how a yes/no byte that is neither 0 nor 1 is read. The Conventions of 00_scope give only 0 and 1. -/
opaque oddFlag : Nat → Bool
/- The four below are applied to the count of free values taken so far, `State.draws` (A49): each use is a value of its own. -/

/-- Free value (A15): byte 4, the programme, of the HYGIENE detail raised by MANUAL_CLEAN, among the codes 0 to 3 that R195 gives
it; R116 and R127 do not state which. -/
opaque manualCleanProgramme : Nat → Fin 4
/-- Free value (A58): the cleaning state a refused CLEAN_ANSWER shows for an oven without a hygiene part. -/
opaque absentCleaningState : Nat → Nat
/-- Free value (A16): bytes 3..5, the offset, of a RELAY detail with cause RELEASED; R163 names no offset. -/
opaque releasedOffset : Nat → Nat
/-- Free value (A17): the version carried by a DISCARD with recipe number 0; R178 names only the number. -/
opaque imageDropVersion : Nat → Nat

end Sys2Proof.Config
end

