-- ==== Sys2Proof/Syntax.lean ====
section
/-! DEFINITION. The commands of the KC32: one constructor for each row of spec/opcode_table.json, in the table's order, and
the types of their operands. A row that takes a frame off the inbound buffer has no operand of its own: its operands are the
frame at the head of the buffer (A1). A request row carries the fields its rule names; codes that the rule itself checks
(a mode, an action, a severity) are carried as the numbers given. -/

namespace Sys2Proof

/-- A frame on the bus addressed to node 0: identifier fields and data (section 1.1; the destination is 0 by R2). -/
structure InFrame where
  priority : Nat
  kind : Nat
  source : Nat
  tag : Nat
  data : List Byte
  deriving DecidableEq, Repr

/-- A firmware version (section 2.1): major, minor, build. -/
structure Firmware where
  major : Nat
  minor : Nat
  build : Nat
  deriving DecidableEq, Repr

/-- The three hygiene settings of a request, each optional (R30, R41, R112). -/
structure Thresholds where
  advise : Option Nat
  lock : Option Nat
  interval : Option Nat
  deriving DecidableEq, Repr

/-- The record of an OVEN_RESTORE (R44), in the order R44 names its fields. -/
structure RestoreRecord where
  model : Nat
  firmware : Firmware
  maxTemp : Nat
  steam : Bool
  probe : Bool
  cleaning : Nat
  capacity : Nat
  cavity : Int
  humidity : Int
  group : Nat
  manualLock : Bool
  cooks : Nat
  soil : Nat
  advise : Nat
  lock : Nat
  interval : Nat
  lastFull : Nat
  residue : Bool
  order : Option Nat
  completed : Nat
  aborted : Nat
  deriving DecidableEq, Repr

/-- A step as RECIPE_STEP gives it (section 3.2), before the checks of R50: mode and end kind by code, `seconds` the
duration of a TIME step or the time limit of a CORE step. -/
structure RawStep where
  mode : Nat
  setpoint : Nat
  humidity : Nat
  fan : Nat
  endKind : Nat
  seconds : Nat
  target : Nat
  prompt : Bool
  deriving DecidableEq, Repr

/-- The fields of CLASS_SET after the class number (R134). -/
structure ClassArgs where
  severity : Nat
  blocksCleaning : Bool
  blocksUpdates : Bool
  autoClear : Bool
  e1 : Nat
  e2 : Nat
  e3 : Nat
  cap : Nat
  deriving DecidableEq, Repr

/-- The fields of ROUTE_PUT after the entry number (R135). -/
structure RouteArgs where
  codePattern : Nat
  codeMask : Nat
  modelPattern : Nat
  modelMask : Nat
  target : Nat
  action : Nat
  deriving DecidableEq, Repr

/-- The fields of CAMPAIGN_PUT after the slot (R157). -/
structure CampaignArgs where
  model : Nat
  fromVersions : List Firmware
  toVersion : Firmware
  imageSize : Nat
  imageCrc : Nat
  windowStart : Nat
  windowEnd : Nat
  concurrency : Nat
  deriving DecidableEq, Repr

/-- R188: what caused a warm reset. -/
inductive ResetCause where
  | resetPin
  | supply
  | oscillator
  deriving DecidableEq, Repr

/-- The commands: one constructor for each row of the opcode table. -/
inductive Instr where
  -- frames on and off the bus
  | frameReceive (frame : InFrame)
  | frameDiscard
  | claim
  | rejoin
  | assignAck
  | capability
  | status
  | testReport
  | lookup
  | pull
  | have_
  | decline
  | loadDone
  | unloadDone
  | startRequest
  | stageSummary
  | cookEnd
  | cleanStart
  | cleanPhase
  | cleanEnd
  | fault
  | imageReady
  | imageRefuse
  | imageAck
  | imageCheck
  | frameSent
  | arbitrationLost
  | transmitError (noAcknowledge : Bool)
  | receiveError (dominantAfterFlag : Bool)
  | busOffRecovery
  -- deadlines
  | holdDeadlineExpiry (slot : Nat)
  | assignReplyDeadline (slot : Nat)
  | profileDeadline (slot : Nat)
  | testDeadline (slot : Nat)
  | silenceDeadline (slot : Nat)
  | gatheringDeadline (slot : Nat)
  | offerReplyDeadline (slot : Nat)
  | progressDeadline (slot : Nat)
  | unloadDeadline (slot number version : Nat)
  | permitDeadline (slot : Nat)
  | hygieneDeadline (slot : Nat)
  | advancePoint (slot : Nat)
  | cleanDeadline (slot : Nat)
  | escalationDeadline (ticket : Nat)
  | verificationDeadline (ticket : Nat)
  | entryHoldDeadline (campaign slot : Nat)
  | applyDeadline (campaign slot : Nat)
  | acknowledgementTimeout (channel : Nat)
  | checkDeadline (channel : Nat)
  | windowStart (campaign : Nat)
  -- the management port
  | spiWrite (bytes : List Byte)
  | spiRead (count : Nat)
  | voidTransaction (command count : Nat)
  -- requests
  | busLevels (urgent answer bulk image : Nat)
  | busStatus (clear : Bool)
  | ovenAdmit (slot group : Nat)
  | ovenCommission (slot : Nat) (cavity humidity : Int) (group : Nat) (thresholds : Thresholds)
  | ovenDismiss (slot : Nat) (bar : Bool)
  | ovenRetire (slot : Nat) (bar : Bool)
  | ovenSet (slot : Nat) (group : Option Nat) (cavity humidity : Option Int) (thresholds : Thresholds)
  | ovenLock (slot : Nat)
  | ovenUnlock (slot : Nat)
  | ovenRestore (slot serial : Nat) (record : RestoreRecord)
  | siteOpen
  | ovenRead (slot : Nat)
  | ovenList
  | bar (serial : Nat)
  | unbar (serial : Nat)
  | barList
  | recipeDraft (number : Nat) (name : List Byte) (fat : Nat) (version : Option Nat)
  | recipeStep (number index : Nat) (step : RawStep)
  | recipeTrim (number count : Nat)
  | recipeDiscardDraft (number : Nat)
  | recipePublish (number : Nat)
  | recipeWithdraw (number : Nat)
  | recipeGroups (number groups : Nat)
  | recipeRead (number version : Nat)
  | recipeList (number version : Nat)
  | recipeResend (slot number : Nat)
  | loadedSetRead (slot start : Nat)
  | distStatus
  | permitRevoke (slot : Nat)
  | permitRead (slot : Nat)
  | permitList
  | cleanOrder (slot programme : Nat)
  | manualClean (slot : Nat)
  | classSet (cls : Nat) (args : ClassArgs)
  | classRead
  | routePut (entry : Nat) (args : RouteArgs)
  | routeEnable (entry : Nat)
  | routeDisable (entry : Nat)
  | routeRead (clear : Bool)
  | ticketOpen (oven cls : Nat) (code : Option Nat)
  | ticketAck (ticket : Nat) (reference : Option (List Byte))
  | ticketResolve (ticket : Nat)
  | ticketClose (ticket : Nat)
  | ticketRead (ticket : Nat)
  | ticketList (start : Nat) (oven : Option Nat)
  | campaignPut (slot : Nat) (args : CampaignArgs)
  | campaignStart (slot : Nat)
  | campaignPause (slot : Nat)
  | campaignResume (slot : Nat)
  | campaignCancel (slot : Nat)
  | campaignClear (slot : Nat)
  | campaignRead (slot : Nat)
  | imageBlock (channel offset : Nat) (bytes : List Byte)
  | relayStatus
  | clockSet (value : Nat)
  | clockRead
  | noticeRead
  | noticeEnable (kinds : Nat)
  -- power and resets
  | coldStart (brsel : Bool)
  | warmReset (cause : ResetCause)
  | warmResetEnd (brsel : Bool)
  | retentionDomainLoss
  | filteredFrame
  deriving DecidableEq, Repr

end Sys2Proof
end

