-- ==== Sys2Proof/WellFormed.lean ====
section
/-! DEFINITION. Which commands can be given at all: every operand lies in the range its place on the bus, in a request body
or in a record can carry (section 1.1, the Named-field layouts of 00_scope). A value inside its place but outside its rule's
range is well-formed: the rule refuses or clamps it. -/

namespace Sys2Proof

/-- A number that fits in k bytes. -/
abbrev FitsBytes (k n : Nat) : Prop := n < 256 ^ k

/-- A signed number that fits in one byte in two's complement. -/
abbrev FitsSigned (i : Int) : Prop := -128 ≤ i ∧ i ≤ 127

/-- An optional number that, when given, fits in k bytes. -/
abbrev OptFits (k : Nat) (o : Option Nat) : Prop := ∀ n ∈ o, FitsBytes k n

/-- An optional signed number that, when given, fits in one byte. -/
abbrev OptSigned (o : Option Int) : Prop := ∀ i ∈ o, FitsSigned i

/-- Section 1.1: 3-bit priority class, 7-bit kind, 6-bit source, 7-bit tag, at most 8 data bytes. -/
abbrev InFrame.WellFormed (f : InFrame) : Prop :=
  f.priority < 8 ∧ f.kind < 128 ∧ f.source < 64 ∧ f.tag < 128 ∧ f.data.length ≤ 8

/-- Section 2.1: two bytes of one part each and a two-byte build. -/
abbrev Firmware.WellFormed (v : Firmware) : Prop :=
  FitsBytes 1 v.major ∧ FitsBytes 1 v.minor ∧ FitsBytes 2 v.build

/-- Section 6.4: three two-byte settings. -/
abbrev Thresholds.WellFormed (t : Thresholds) : Prop :=
  OptFits 2 t.advise ∧ OptFits 2 t.lock ∧ OptFits 2 t.interval

/-- R44: each field in the width its range needs. -/
abbrev RestoreRecord.WellFormed (r : RestoreRecord) : Prop :=
  FitsBytes 1 r.model ∧ r.firmware.WellFormed ∧ FitsBytes 2 r.maxTemp ∧ FitsBytes 1 r.cleaning ∧
  FitsBytes 1 r.capacity ∧ FitsSigned r.cavity ∧ FitsSigned r.humidity ∧ FitsBytes 1 r.group ∧
  FitsBytes 2 r.cooks ∧ FitsBytes 2 r.soil ∧ FitsBytes 2 r.advise ∧ FitsBytes 2 r.lock ∧
  FitsBytes 2 r.interval ∧ FitsBytes 4 r.lastFull ∧ OptFits 1 r.order ∧ FitsBytes 2 r.completed ∧
  FitsBytes 2 r.aborted

/-- Section 3.2: each field in the width its range needs. -/
abbrev RawStep.WellFormed (t : RawStep) : Prop :=
  FitsBytes 1 t.mode ∧ FitsBytes 2 t.setpoint ∧ FitsBytes 1 t.humidity ∧ FitsBytes 1 t.fan ∧
  FitsBytes 1 t.endKind ∧ FitsBytes 2 t.seconds ∧ FitsBytes 1 t.target

/-- R134: each field in the width its range needs. -/
abbrev ClassArgs.WellFormed (a : ClassArgs) : Prop :=
  FitsBytes 1 a.severity ∧ FitsBytes 2 a.e1 ∧ FitsBytes 2 a.e2 ∧ FitsBytes 2 a.e3 ∧ FitsBytes 1 a.cap

/-- R135: 16-bit code pattern and mask, 8-bit model-class pattern and mask. -/
abbrev RouteArgs.WellFormed (a : RouteArgs) : Prop :=
  FitsBytes 2 a.codePattern ∧ FitsBytes 2 a.codeMask ∧ FitsBytes 1 a.modelPattern ∧
  FitsBytes 1 a.modelMask ∧ FitsBytes 1 a.target ∧ FitsBytes 1 a.action

/-- R157: a counted list of versions, a 3-byte size, a 4-byte CRC, 2-byte minutes. -/
abbrev CampaignArgs.WellFormed (a : CampaignArgs) : Prop :=
  FitsBytes 1 a.model ∧ a.fromVersions.length < 256 ∧ (∀ v ∈ a.fromVersions, v.WellFormed) ∧
  a.toVersion.WellFormed ∧ FitsBytes 3 a.imageSize ∧ FitsBytes 4 a.imageCrc ∧
  FitsBytes 2 a.windowStart ∧ FitsBytes 2 a.windowEnd ∧ FitsBytes 1 a.concurrency

/-- Every operand in the range its place can carry. -/
abbrev Instr.WellFormed : Instr → Prop
  | .frameReceive f => f.WellFormed
  | .holdDeadlineExpiry n | .assignReplyDeadline n | .profileDeadline n | .testDeadline n
  | .silenceDeadline n | .gatheringDeadline n | .offerReplyDeadline n | .progressDeadline n
  | .permitDeadline n | .hygieneDeadline n | .advancePoint n | .cleanDeadline n => 1 ≤ n ∧ n ≤ 32
  | .unloadDeadline n r v => (1 ≤ n ∧ n ≤ 32) ∧ FitsBytes 2 r ∧ FitsBytes 1 v
  | .escalationDeadline t | .verificationDeadline t => 1 ≤ t ∧ t ≤ 65535
  | .entryHoldDeadline c n | .applyDeadline c n => (1 ≤ c ∧ c ≤ 4) ∧ 1 ≤ n ∧ n ≤ 32
  | .acknowledgementTimeout c | .checkDeadline c => 1 ≤ c ∧ c ≤ 2
  | .windowStart c => 1 ≤ c ∧ c ≤ 4
  | .voidTransaction c _ => FitsBytes 1 c ∧ c ≠ 0x57 ∧ c ≠ 0x52
  | .busLevels u a b i => FitsBytes 1 u ∧ FitsBytes 1 a ∧ FitsBytes 1 b ∧ FitsBytes 1 i
  | .ovenAdmit n g => FitsBytes 1 n ∧ FitsBytes 1 g
  | .ovenCommission n c h g t =>
      FitsBytes 1 n ∧ FitsSigned c ∧ FitsSigned h ∧ FitsBytes 1 g ∧ t.WellFormed
  | .ovenSet n g c h t => FitsBytes 1 n ∧ OptFits 1 g ∧ OptSigned c ∧ OptSigned h ∧ t.WellFormed
  | .ovenDismiss n _ | .ovenRetire n _ | .ovenLock n | .ovenUnlock n | .ovenRead n | .permitRevoke n
  | .permitRead n | .manualClean n | .routeEnable n | .routeDisable n | .campaignStart n
  | .campaignPause n | .campaignResume n | .campaignCancel n | .campaignClear n
  | .campaignRead n => FitsBytes 1 n
  | .ovenRestore n serial r => FitsBytes 1 n ∧ FitsBytes 6 serial ∧ r.WellFormed
  | .bar serial | .unbar serial => FitsBytes 6 serial
  | .recipeDraft n name f v => FitsBytes 2 n ∧ name.length < 256 ∧ FitsBytes 1 f ∧ OptFits 1 v
  | .recipeStep n i t => FitsBytes 2 n ∧ FitsBytes 1 i ∧ t.WellFormed
  | .recipeTrim n c => FitsBytes 2 n ∧ FitsBytes 1 c
  | .recipeDiscardDraft n | .recipePublish n | .recipeWithdraw n => FitsBytes 2 n
  | .recipeGroups n g => FitsBytes 2 n ∧ FitsBytes 1 g
  | .recipeRead n v | .recipeList n v => FitsBytes 2 n ∧ FitsBytes 1 v
  | .recipeResend n r => FitsBytes 1 n ∧ FitsBytes 2 r
  | .loadedSetRead n i => FitsBytes 1 n ∧ FitsBytes 1 i
  | .cleanOrder n p => FitsBytes 1 n ∧ FitsBytes 1 p
  | .classSet c a => FitsBytes 1 c ∧ a.WellFormed
  | .routePut e a => FitsBytes 1 e ∧ a.WellFormed
  | .ticketOpen o c code => FitsBytes 1 o ∧ FitsBytes 1 c ∧ OptFits 2 code
  | .ticketAck t ref => FitsBytes 2 t ∧ ∀ r ∈ ref, r.length < 256
  | .ticketResolve t | .ticketClose t | .ticketRead t => FitsBytes 2 t
  | .ticketList t o => FitsBytes 2 t ∧ OptFits 1 o
  | .campaignPut n a => FitsBytes 1 n ∧ a.WellFormed
  | .imageBlock c o bytes => FitsBytes 1 c ∧ FitsBytes 3 o ∧ bytes.length ≤ 508
  | .clockSet v => FitsBytes 4 v
  | .noticeEnable k => FitsBytes 2 k
  | .frameDiscard | .claim | .rejoin | .assignAck | .capability | .status | .testReport | .lookup
  | .pull | .have_ | .decline | .loadDone | .unloadDone | .startRequest | .stageSummary | .cookEnd
  | .cleanStart | .cleanPhase | .cleanEnd | .fault | .imageReady | .imageRefuse | .imageAck
  | .imageCheck | .frameSent | .arbitrationLost | .transmitError _ | .receiveError _
  | .busOffRecovery | .spiWrite _ | .spiRead _ | .busStatus _ | .siteOpen | .ovenList | .barList
  | .distStatus | .permitList | .classRead | .routeRead _ | .relayStatus | .clockRead | .noticeRead
  | .coldStart _ | .warmReset _ | .warmResetEnd _ | .retentionDomainLoss | .filteredFrame => True

end Sys2Proof
end

