-- ==== Sys2Proof/Decode.lean ====
section
/-! DEFINITION. The opcode table gives no row any bits: no word spells a command. (The bytes of a request frame on the
management port are read by Machine/Requests.lean, the bytes of a bus frame by the block that takes it.) -/

namespace Sys2Proof

/-- The command a word spells by the table's bits: the table gives none of its 116 rows any, so there is none. -/
def decodeTableWord (_nbits _w : Nat) : Option Instr := none

end Sys2Proof
end

