-- ==== Sys2Proof/Machine/State.lean ====
section
/-! DEFINITION. The state of the KC32 as plain data, block by block, and the state right after reset. Every field names the
rule of spec/ that gives it. Slots, channels and campaigns are numbered from 1; place k - 1 of a vector holds number k. -/

namespace Sys2Proof.Machine

/-! ### Names of the manual -/

/-- Section 2.1: the states of an oven record. -/
inductive OvenState where
  | vacant | discovered | assigning | profiling | awaitingSetup | testing | inService | retiring
  deriving DecidableEq, Repr

/-- Section 2.1: the cleaning system of a capability profile. -/
inductive CleaningSystem where
  | none | rinseOnly | full
  deriving DecidableEq, Repr

/-- Section 2.1: the kinds of commissioning deadline. -/
inductive CommKind where
  | hold | reply | profile | test
  deriving DecidableEq, Repr

/-- Section 3.2: the mode of a step or stage. -/
inductive Mode where
  | dry | steam | combi
  deriving DecidableEq, Repr

/-- Section 3.1: the states of a recipe record. -/
inductive RecipeState where
  | draft | active | withdrawing
  deriving DecidableEq, Repr

/-- R68: the states of a loaded-set entry. -/
inductive EntryState where
  | pending | offered | sending | loaded | stale | unloading | failed
  deriving DecidableEq, Repr

/-- R68: the kinds of a loaded-set entry's deadline. -/
inductive EntryTimer where
  | reply | progress | unload
  deriving DecidableEq, Repr

/-- R108, R114: the cleaning states, in the order R114 tries them from the end. -/
inductive CleaningState where
  | ok | advised | due | residue | cleaning
  deriving DecidableEq, Repr

/-- R117: the cleaning programmes, from weakest to strongest. -/
inductive Programme where
  | rinse | standard | intensive
  deriving DecidableEq, Repr

/-- R121: the phases of a programme, in their order. -/
inductive Phase where
  | soak | detergent | rinse | dry
  deriving DecidableEq, Repr

/-- R133: the severity of a ticket class. -/
inductive Severity where
  | info | service | urgent | lockout
  deriving DecidableEq, Repr

/-- R141: the origin of a ticket. -/
inductive Origin where
  | fault | part | site
  deriving DecidableEq, Repr

/-- R141: the states of a ticket. -/
inductive TicketState where
  | open | acknowledged | verifying
  deriving DecidableEq, Repr

/-- R156: the states of a campaign. -/
inductive CampaignState where
  | defined | running | paused | finished | cancelling
  deriving DecidableEq, Repr

/-- R158: the states of a campaign entry. -/
inductive CEntryState where
  | waiting | transferring | suspended | staged | applying | done | failed | skipped
  deriving DecidableEq, Repr

/-- R162: the stream of a bound channel. -/
inductive Stream where
  | opening | streaming | held
  deriving DecidableEq, Repr

/-- R193: the status codes. -/
inductive Status where
  | ok | clamped | unknownRequest | badLength | noRecord | wrongState | tableFull | inUse | range
  | siteState | offset | full
  deriving DecidableEq, Repr

/-- R195: the kinds of notice. -/
inductive NoticeKind where
  | siteRestarted | ovenDiscovered | ovenPresence | commissionResult | recipeEntry | permitLapsed
  | hygiene | ticket | routeOverflow | relay | update | campaign | bus | resync
  deriving DecidableEq, Repr

/-- R6: the block that placed a queued frame. -/
inductive Producer where
  | siteBus | registry | distribution | permitUnit | hygieneMonitor | updateRelay
  deriving DecidableEq, Repr

/-- R6: the transfer mark of a queued frame. -/
inductive Mark where
  | distSlot (k : Nat)
  | channel (c : Nat)
  | oven (n : Nat)
  deriving DecidableEq, Repr

/-- Section 1.5: the four outbound queues, in their natural order. -/
inductive QueueName where
  | urgent | answer | bulk | image
  deriving DecidableEq, Repr

/-! ### Frames -/

/-- R42: a set of lock reasons. -/
structure Locks where
  manual : Bool := false
  ticket : Bool := false
  update : Bool := false
  deriving DecidableEq, Repr

/-- Section 3.2: the end of a step. -/
inductive StepEnd where
  | time (seconds : Nat)
  | core (target limit : Nat)
  deriving DecidableEq, Repr

/-- Section 3.2: one step of a recipe, as written. The same shape carries a step as sent (R74). -/
structure Step where
  mode : Mode
  setpoint : Nat
  humidity : Nat
  fan : Nat
  ending : StepEnd
  prompt : Bool
  deriving DecidableEq, Repr

/-- The payloads of the KC32's frames, one constructor for each frame layout (section 1.3 and the rules that send them). -/
inductive Payload where
  | assign (serial slot : Nat)
  | barred (serial : Nat) (siteFull : Bool)
  | testOrder (cavity humidity : Int)
  | lookupAnswer (number version : Nat) (loaded draftPending withdrawn notInService : Bool)
  | offer (number version steps crc : Nat)
  | segHeader (number version steps fat nameLength crc : Nat)
  | segName (index : Nat) (chars : List Byte)
  | segStep (index stepIndex : Nat) (step : Step)
  | discard (number version : Nat)
  | unload (number version : Nat)
  | permitGranted (number : Nat) (lastBeforeClean : Bool) (locks : Locks)
  | permitRefused (reason : Nat) (locks : Locks)
  | stop (number : Nat)
  | cleanAllow (programme : Programme)
  | cleanRefuse (programmeCode reason : Nat) (state : CleaningState)
  | hygieneState (state : CleaningState) (order : Option Programme) (residue : Bool) (soil lock minutes : Nat)
  | lockState (locks : Locks)
  | imageBegin0 (size resume : Nat)
  | imageBegin1 (crc : Nat) (toVersion : Firmware)
  | imageData (index : Nat) (bytes : List Byte)
  | imageAbort
  | apply (toVersion : Firmware)
  deriving DecidableEq, Repr

/-- R6: a queued frame with its producer, its transfer mark and its destination node (R1). -/
structure OutFrame where
  payload : Payload
  producer : Producer
  mark : Mark
  dest : Nat
  deriving DecidableEq, Repr

/-- R9: the priority levels of the four queues. -/
structure Levels where
  urgent : Nat := 3
  answer : Nat := 2
  bulk : Nat := 1
  image : Nat := 0
  deriving DecidableEq, Repr

/-! ### The Oven Registry and the Hygiene Monitor -/

/-- Section 2.1: a capability profile. -/
structure Profile where
  maxTemp : Nat
  steam : Bool
  probe : Bool
  cleaning : CleaningSystem
  capacity : Nat
  deriving DecidableEq, Repr

/-- R36: the latest STATUS report, its codes as reported. -/
structure LastStatus where
  mode : Nat
  door : Nat
  temperature : Nat
  deriving DecidableEq, Repr

/-- R112: three formed hygiene settings. -/
structure Settings where
  advise : Nat := 24000
  lock : Nat := 40000
  interval : Nat := 1440
  deriving DecidableEq, Repr

/-- R108: a deadline of the hygiene interval, armed or marked passed. -/
inductive Point where
  | armed (t : Nat)
  | passed
  deriving DecidableEq, Repr

/-- R108: a clean in progress. -/
structure Clean where
  programme : Programme
  startedAt : Nat
  phase : Option Phase
  deadline : Nat
  deriving DecidableEq, Repr

/-- R108: the hygiene part. -/
structure Hygiene where
  soil : Nat
  settings : Settings
  lastFull : Nat
  deadline : Point
  advance : Point
  state : CleaningState
  residue : Bool
  clean : Option Clean
  order : Option Programme
  completed : Nat
  aborted : Nat
  deriving DecidableEq, Repr

/-- Section 2.1: the oven record. -/
structure Oven where
  state : OvenState := .vacant
  serial : Option Nat := none
  model : Nat := 0
  firmware : Option Firmware := none
  profile : Option Profile := none
  cavity : Int := 0
  humidity : Int := 0
  group : Nat := 0
  manualLock : Bool := false
  present : Bool := false
  lastHeard : Nat := 0
  lastStatus : Option LastStatus := none
  hint : Option Nat := none
  cooks : Nat := 0
  comm : Option (CommKind × Nat) := none
  tries : Nat := 0
  setup : Option Settings := none
  cap0 : Option Profile := none
  cap1 : Option (Nat × Firmware) := none
  gathering : Option Nat := none
  refreshPending : Bool := false
  silence : Option Nat := none
  locks : Locks := {}
  hygiene : Option Hygiene := none
  deriving DecidableEq, Repr

/-- R37: what frame 0 of a REJOIN carries. -/
structure Rejoin0 where
  serial : Nat
  believed : Nat
  storeEmpty : Bool
  imageStaged : Bool
  deriving DecidableEq, Repr

/-! ### The Recipe Library and the Distribution Engine -/

/-- R57, R58: the figures of a published version. -/
structure Figures where
  needsSteam : Bool
  needsProbe : Bool
  highest : Nat
  duration : Nat
  stepSoil : List Nat
  totalSoil : Nat
  deriving DecidableEq, Repr

/-- Section 3.1: a recipe record. The group set is eight flags, bit g for group g. -/
structure Recipe where
  number : Nat
  version : Nat
  state : RecipeState
  superseded : Bool
  name : List Byte
  fat : Nat
  groups : BitVec 8
  steps : List Step
  figures : Option Figures
  refs : Nat
  deriving DecidableEq, Repr

/-- R68: a loaded-set entry. -/
structure Entry where
  number : Nat
  version : Nat
  state : EntryState := .pending
  retries : Nat := 0
  noRoom : Bool := false
  clamped : Bool := false
  deferred : Bool := false
  crc : Option Nat := none
  deadline : Option (EntryTimer × Nat) := none
  sends : Nat := 0
  deriving DecidableEq, Repr

/-- Section 4.6: a bound distribution slot. -/
structure DistSlot where
  oven : Nat
  number : Nat
  version : Nat
  next : Nat
  total : Nat
  deriving DecidableEq, Repr

/-! ### The Permit Unit -/

/-- R98: a stage summary with its index. -/
structure Summary where
  index : Nat
  mode : Mode
  temperature : Nat
  humidity : Nat
  seconds : Nat
  deriving DecidableEq, Repr

/-- R90: a permit; its oven is the slot it stands in. -/
structure Permit where
  number : Nat
  recipe : Nat
  version : Nat
  stopping : Bool
  grantedAt : Nat
  deadline : Nat
  lastBeforeClean : Bool
  target : Bool
  summaries : List Summary
  deriving DecidableEq, Repr

/-! ### The Ticket Table and Fault Router -/

/-- R133: a ticket class. -/
structure TicketClass where
  severity : Severity := .service
  blocksCleaning : Bool := false
  blocksUpdates : Bool := false
  autoClear : Bool := false
  e1 : Nat := 60
  e2 : Nat := 240
  e3 : Nat := 1440
  cap : Nat := 0
  deriving DecidableEq, Repr

/-- R135: a routing entry. -/
structure Route where
  enabled : Bool := false
  codePattern : Nat := 0
  codeMask : Nat := 0
  modelPattern : Nat := 0
  modelMask : Nat := 0
  target : Nat := 0
  absorb : Bool := false
  hits : Nat := 0
  deriving DecidableEq, Repr

/-- R141: a ticket; oven 0 is a site-level ticket. -/
structure Ticket where
  number : Nat
  oven : Nat
  origin : Origin
  code : Option Nat
  cls : Nat
  state : TicketState
  level : Nat
  escalation : Option Nat
  reference : Option (List Byte)
  occurrences : Nat
  reopens : Nat
  active : Bool
  firstSeen : Nat
  lastSeen : Nat
  verification : Option Nat
  permit : Option Nat
  deriving DecidableEq, Repr

/-! ### The Update Relay -/

/-- R158: a campaign entry; its deadline is HOLD in SUSPENDED and APPLY in APPLYING. -/
structure CEntry where
  oven : Nat
  serial : Nat
  state : CEntryState
  attempts : Nat := 0
  channel : Option Nat := none
  timeouts : Nat := 0
  deadline : Option Nat := none
  deriving DecidableEq, Repr

/-- R156: a campaign record. -/
structure Campaign where
  model : Nat
  fromVersions : List Firmware
  toVersion : Firmware
  imageSize : Nat
  imageCrc : Nat
  windowStart : Nat
  windowEnd : Nat
  concurrency : Nat
  state : CampaignState
  entries : List CEntry
  deriving DecidableEq, Repr

/-- R162: a bound relay channel. -/
structure Binding where
  campaign : Nat
  oven : Nat
  stream : Stream
  taken : Nat
  sent : Nat
  acked : Nat
  timeout : Option Nat
  check : Option Nat
  buffer : List Byte
  deriving DecidableEq, Repr

/-! ### The management port and the notice set -/

/-- R190, R191: a response before it is framed: its status and its body. -/
structure Reply where
  status : Status
  body : List Byte
  deriving DecidableEq, Repr

/-- Section 10.1: the port, with the request being carried out or the unread response. -/
inductive Port where
  | idle
  | executing (request : Instr)
  | ready (reply : Reply)
  deriving DecidableEq, Repr

/-- R195: a notice set entry. -/
structure Notice where
  kind : NoticeKind
  subject : Nat
  first : Nat
  last : Nat
  count : Nat
  detail : List Byte
  deriving DecidableEq, Repr

/-- R181, R187, R188: what the main domain is doing. -/
inductive Power where
  | running
  | warmReset (cause : ResetCause) (since : Nat)
  | coldHeld
  deriving DecidableEq, Repr

/-! ### The state -/

/-- Everything the manual gives the KC32, and the queue of waiting commands. -/
structure State where
  /-- The commands that wait, first in, first out (the model's own field). -/
  pending : List Instr
  /-- How many free values have been taken (the model's own field, A49). -/
  draws : Nat
  power : Power
  clock : Nat
  clockUnset : Bool
  bitRate500 : Bool
  -- Site Bus Controller
  tec : Nat
  rec_ : Nat
  busOff : Bool
  inbound : List InFrame
  urgent : List OutFrame
  answer : List OutFrame
  bulk : List OutFrame
  image : List OutFrame
  transmitter : Option OutFrame
  levels : Levels
  overruns : Nat
  discarded : Nat
  droppedAnswers : Nat
  droppedFrames : Nat
  lastDropped : Nat × Nat
  -- Oven Registry
  ovens : Vector Oven 32
  barred : List Nat
  siteOpen : Bool
  permitCounter : Nat
  ticketCounter : Nat
  rejoinHeld : List (Nat × Rejoin0)
  -- Recipe Library
  recipes : List Recipe
  -- Distribution Engine
  loaded : Vector (List Entry) 32
  slots : Vector (Option DistSlot) 4
  pointer : Nat
  -- Permit Unit
  permits : Vector (Option Permit) 32
  -- Ticket Table and Fault Router
  classes : Vector TicketClass 8
  routes : Vector Route 32
  tickets : List Ticket
  -- Update Relay
  campaigns : Vector (Option Campaign) 4
  channels : Vector (Option Binding) 2
  -- Management Port and Notice Set
  port : Port
  overrun : Bool
  miso : List Byte
  notices : List Notice
  enables : BitVec 16
  deriving DecidableEq, Repr

/-- Why the machine would stop with a fault. There is no constructor: no rule of the spec stops the KC32, and no command of
this model ends in a fault. -/
inductive Fault where
  deriving DecidableEq, Repr

/-- Why a command has no meaning. -/
inductive Refusal where
  /-- Raised by `exec` alone, for a row whose meaning is not written; safe: the model stops where the part goes on. No row
  is left so. -/
  | notModelled (mnemonic : String)
  deriving DecidableEq, Repr

/-- R203: the one entry the notice set holds after a cold start. -/
def coldNotice : Notice :=
  { kind := .siteRestarted, subject := 0, first := 0, last := 0, count := 1, detail := List.replicate 8 0 }

/-- The machine right after reset: the state a cold start leaves (R187, with R19, R47, R66, R89, R107, R132, R133, R135,
R154, R180, R194, R203), the main domain running and the BRSEL strap low (A5). -/
def State.reset : State where
  pending := []
  draws := 0
  power := .running
  clock := 0
  clockUnset := true
  bitRate500 := false
  tec := 0
  rec_ := 0
  busOff := false
  inbound := []
  urgent := []
  answer := []
  bulk := []
  image := []
  transmitter := none
  levels := {}
  overruns := 0
  discarded := 0
  droppedAnswers := 0
  droppedFrames := 0
  lastDropped := (0, 0)
  ovens := Vector.replicate 32 {}
  barred := []
  siteOpen := false
  permitCounter := 1
  ticketCounter := 1
  rejoinHeld := []
  recipes := []
  loaded := Vector.replicate 32 []
  slots := Vector.replicate 4 none
  pointer := 0
  permits := Vector.replicate 32 none
  classes := (Vector.replicate 8 ({} : TicketClass)).set 0 { cap := 64 }
  routes := Vector.replicate 32 {}
  tickets := []
  campaigns := Vector.replicate 4 none
  channels := Vector.replicate 2 none
  port := .idle
  overrun := false
  miso := []
  notices := [coldNotice]
  enables := BitVec.allOnes 16

end Sys2Proof.Machine
end

