-- ==== Sys2Proof/Machine/Bytes.lean ====
section
/-! DEFINITION. Byte order, optional fields, flags and ranges (00_scope, Byte order and Named-field layouts), and the CRC of
R75. -/

namespace Sys2Proof.Machine

/-- A number clamped into low..high. -/
def clampNat (low high n : Nat) : Nat := max low (min high n)

/-- A signed number clamped into low..high. -/
def clampInt (low high n : Int) : Int := max low (min high n)

/-- A sum that stops at its maximum (00_scope, Saturation). -/
def satAdd (top a b : Nat) : Nat := min top (a + b)

/-- A number in k bytes, little-endian. -/
def le : Nat → Nat → List Byte
  | 0, _ => []
  | k + 1, n => BitVec.ofNat 8 n :: le k (n / 256)

/-- The number that bytes hold, little-endian. -/
def unle : List Byte → Nat
  | [] => 0
  | b :: bs => b.toNat + 256 * unle bs

/-- R5: the k-byte number at byte i of a data field, each missing byte read as 0. -/
def numAt (data : List Byte) (i k : Nat) : Nat := unle ((data.drop i).take k)

/-- A signed number in one byte, in two's complement. -/
def signedByte (i : Int) : Byte := BitVec.ofInt 8 i

/-- The signed number of one byte in two's complement. -/
def signedOf (n : Nat) : Int := (BitVec.ofNat 8 n).toInt

/-- Yes or no, set or clear: one byte, 1 for yes. -/
def flagByte (b : Bool) : Byte := if b then 1 else 0

/-- A yes/no byte: 0 is no, 1 is yes, and any other value is a free value (A14). -/
def readFlag (n : Nat) : Bool :=
  match n with
  | 0 => false
  | 1 => true
  | k => Config.oddFlag k

/-- An optional field of k bytes: a presence byte, then the field or zeros of its width. -/
def optBytes (k : Nat) : Option (List Byte) → List Byte
  | some bs => 1 :: bs
  | none => 0 :: List.replicate k 0

/-- A text: its length in one byte, then its characters. -/
def textBytes (t : List Byte) : List Byte := BitVec.ofNat 8 t.length :: t

/-- A list: its count in one byte, then its items. -/
def listBytes (items : List (List Byte)) : List Byte := BitVec.ofNat 8 items.length :: items.flatten

/-- A set of at most eight flags, bit 0 for the first. -/
def flagBits (fs : List Bool) : Nat := fs.foldr (fun b n => b.toNat + 2 * n) 0

/-- A firmware version: its parts in order. -/
def firmwareBytes (v : Firmware) : List Byte := le 1 v.major ++ le 1 v.minor ++ le 2 v.build

/-- Characters 0x20..0x7E (section 3.1, R141). -/
def printable (t : List Byte) : Bool := t.all (fun c => 0x20 ≤ c.toNat && c.toNat ≤ 0x7E)

/-- R75: one step of the CRC register, most significant bit first. -/
def crcShift (r : BitVec 16) : BitVec 16 := if r.msb then (r <<< 1) ^^^ 0x1021#16 else r <<< 1

/-- R75: one input byte into the register. -/
def crcByte (r : BitVec 16) (b : Byte) : BitVec 16 :=
  (List.range 8).foldl (fun r _ => crcShift r) (r ^^^ (b.setWidth 16 <<< 8))

/-- R75: generator x^16 + x^12 + x^5 + 1, register from 0xFFFF, no reversal, no inversion. -/
def crc16 (bytes : List Byte) : Nat := (bytes.foldl crcByte 0xFFFF#16).toNat

/-- A list with x put before the first item that `after` says must follow it: insertion into a sorted list. -/
def insertBefore {α : Type} (after : α → Bool) (x : α) : List α → List α
  | [] => [x]
  | y :: ys => if after y then x :: y :: ys else y :: insertBefore after x ys

/-- A list sorted by ascending key; items of equal key keep their order. -/
def sortByKey {α : Type} (key : α → Nat) (l : List α) : List α :=
  l.foldl (fun acc x => insertBefore (fun y => key x < key y) x acc) []

end Sys2Proof.Machine
end

