-- ==== Sys2Proof/Machine/Wire.lean ====
section
/-! DEFINITION. Codes of the manual's names, the kind table (section 1.2), and the identifier and data bytes of the KC32's
frames (R1, section 1.3 and the rules that name each payload). -/

namespace Sys2Proof.Machine

/-! ### Codes of named values: the place in the list where the chapter first gives the names, from 0 -/

def OvenState.code : OvenState → Nat
  | .vacant => 0 | .discovered => 1 | .assigning => 2 | .profiling => 3 | .awaitingSetup => 4
  | .testing => 5 | .inService => 6 | .retiring => 7

def CleaningSystem.code : CleaningSystem → Nat
  | .none => 0 | .rinseOnly => 1 | .full => 2

/-- R28: a cleaning system code other than the three is read as NONE. -/
def CleaningSystem.ofCode : Nat → CleaningSystem
  | 1 => .rinseOnly | 2 => .full | _ => .none

def CommKind.code : CommKind → Nat
  | .hold => 0 | .reply => 1 | .profile => 2 | .test => 3

/-- Section 1.3: mode 0 DRY, 1 STEAM, 2 COMBI. -/
def Mode.code : Mode → Nat
  | .dry => 0 | .steam => 1 | .combi => 2

def Mode.ofCode : Nat → Option Mode
  | 0 => some .dry | 1 => some .steam | 2 => some .combi | _ => none

def RecipeState.code : RecipeState → Nat
  | .draft => 0 | .active => 1 | .withdrawing => 2

def EntryState.code : EntryState → Nat
  | .pending => 0 | .offered => 1 | .sending => 2 | .loaded => 3 | .stale => 4 | .unloading => 5 | .failed => 6

def EntryTimer.code : EntryTimer → Nat
  | .reply => 0 | .progress => 1 | .unload => 2

def CleaningState.code : CleaningState → Nat
  | .ok => 0 | .advised => 1 | .due => 2 | .residue => 3 | .cleaning => 4

def Programme.code : Programme → Nat
  | .rinse => 0 | .standard => 1 | .intensive => 2

def Programme.ofCode : Nat → Option Programme
  | 0 => some .rinse | 1 => some .standard | 2 => some .intensive | _ => none

/-- R121: SOAK 0, DETERGENT 1, RINSE 2, DRY 3. -/
def Phase.code : Phase → Nat
  | .soak => 0 | .detergent => 1 | .rinse => 2 | .dry => 3

def Phase.ofCode : Nat → Option Phase
  | 0 => some .soak | 1 => some .detergent | 2 => some .rinse | 3 => some .dry | _ => none

def Severity.code : Severity → Nat
  | .info => 0 | .service => 1 | .urgent => 2 | .lockout => 3

def Severity.ofCode : Nat → Option Severity
  | 0 => some .info | 1 => some .service | 2 => some .urgent | 3 => some .lockout | _ => none

def Origin.code : Origin → Nat
  | .fault => 0 | .part => 1 | .site => 2

def TicketState.code : TicketState → Nat
  | .open => 0 | .acknowledged => 1 | .verifying => 2

def CampaignState.code : CampaignState → Nat
  | .defined => 0 | .running => 1 | .paused => 2 | .finished => 3 | .cancelling => 4

def CEntryState.code : CEntryState → Nat
  | .waiting => 0 | .transferring => 1 | .suspended => 2 | .staged => 3 | .applying => 4 | .done => 5
  | .failed => 6 | .skipped => 7

def Stream.code : Stream → Nat
  | .opening => 0 | .streaming => 1 | .held => 2

/-- R193: the status codes. -/
def Status.code : Status → Nat
  | .ok => 0 | .clamped => 1 | .unknownRequest => 2 | .badLength => 3 | .noRecord => 4 | .wrongState => 5
  | .tableFull => 6 | .inUse => 7 | .range => 8 | .siteState => 9 | .offset => 10 | .full => 11

/-- R195: the byte codes of the notice kinds. -/
def NoticeKind.code : NoticeKind → Nat
  | .siteRestarted => 1 | .ovenDiscovered => 2 | .ovenPresence => 3 | .commissionResult => 4
  | .recipeEntry => 5 | .permitLapsed => 6 | .hygiene => 7 | .ticket => 8 | .routeOverflow => 9
  | .relay => 10 | .update => 11 | .campaign => 12 | .bus => 13 | .resync => 15

/-- R188, R195: the cause byte of SITE_RESTARTED. -/
def resetCauseCode : ResetCause → Nat
  | .resetPin => 1 | .supply => 2 | .oscillator => 3

/-- R195: programme RINSE 1, STANDARD 2, INTENSIVE 3, or 0 none, as a HYGIENE detail shows it. -/
def noticeProgramme : Option Programme → Nat
  | none => 0 | some p => p.code + 1

/-- R195: last phase SOAK 1 .. DRY 4, or 0 none, as a HYGIENE detail shows it. -/
def noticePhase : Option Phase → Nat
  | none => 0 | some p => p.code + 1

/-- LOCK_STATE's set of flags: MANUAL, TICKET, UPDATE. -/
def Locks.bits (l : Locks) : Nat := flagBits [l.manual, l.ticket, l.update]

/-- R42: no lock reason stands. -/
def Locks.isEmpty (l : Locks) : Bool := !(l.manual || l.ticket || l.update)

/-! ### The kind table -/

/-- Section 1.2: the kinds of the KC32's own frames. -/
inductive OutKind where
  | assign | barred | testOrder | lookupAnswer | offer | segment | discard | unload | permit | stop
  | cleanAnswer | hygieneState | lockState | imageBegin | imageData | imageAbort | apply
  deriving DecidableEq, Repr

/-- Section 1.2: the kind of a payload. -/
def Payload.kind : Payload → OutKind
  | .assign .. => .assign
  | .barred .. => .barred
  | .testOrder .. => .testOrder
  | .lookupAnswer .. => .lookupAnswer
  | .offer .. => .offer
  | .segHeader .. | .segName .. | .segStep .. => .segment
  | .discard .. => .discard
  | .unload .. => .unload
  | .permitGranted .. | .permitRefused .. => .permit
  | .stop .. => .stop
  | .cleanAllow .. | .cleanRefuse .. => .cleanAnswer
  | .hygieneState .. => .hygieneState
  | .lockState .. => .lockState
  | .imageBegin0 .. | .imageBegin1 .. => .imageBegin
  | .imageData .. => .imageData
  | .imageAbort => .imageAbort
  | .apply .. => .apply

/-- Section 1.2: the code of a kind the KC32 sends. -/
def OutKind.code : OutKind → Nat
  | .assign => 0x61 | .barred => 0x62 | .testOrder => 0x63 | .lookupAnswer => 0x64 | .offer => 0x65
  | .segment => 0x66 | .discard => 0x67 | .unload => 0x68 | .permit => 0x70 | .stop => 0x71
  | .cleanAnswer => 0x72 | .hygieneState => 0x73 | .lockState => 0x74 | .imageBegin => 0x75
  | .imageData => 0x76 | .imageAbort => 0x77 | .apply => 0x78

/-- Section 1.2: the priority class of a kind the KC32 sends. -/
def OutKind.priority : OutKind → Nat
  | .assign | .barred => 2
  | .testOrder | .lookupAnswer | .offer | .discard | .unload => 3
  | .segment => 5
  | .permit | .stop => 1
  | .cleanAnswer | .hygieneState | .lockState | .apply => 2
  | .imageBegin | .imageAbort => 6
  | .imageData => 7

/-- Sections 1.2 and 1.5: the queue of a kind the KC32 sends. -/
def OutKind.queue : OutKind → QueueName
  | .assign | .barred | .permit | .stop | .cleanAnswer | .hygieneState | .lockState | .apply => .urgent
  | .testOrder | .lookupAnswer | .offer | .discard | .unload => .answer
  | .segment => .bulk
  | .imageBegin | .imageData | .imageAbort => .image

/-- Section 1.2: the kinds that ovens send. -/
inductive InKind where
  | claim | rejoin | assignAck | capability | status | testReport | lookup | pull | have_ | decline
  | loadDone | unloadDone | startRequest | stageSummary | cookEnd | cleanStart | cleanPhase | cleanEnd
  | fault | imageReady | imageRefuse | imageAck | imageCheck
  deriving DecidableEq, Repr

/-- Section 1.2: the oven-to-KC32 kind of a code, if it is one. -/
def InKind.ofCode : Nat → Option InKind
  | 0x01 => some .claim | 0x02 => some .rejoin | 0x03 => some .assignAck | 0x04 => some .capability
  | 0x05 => some .status | 0x06 => some .testReport | 0x10 => some .lookup | 0x11 => some .pull
  | 0x12 => some .have_ | 0x13 => some .decline | 0x14 => some .loadDone | 0x15 => some .unloadDone
  | 0x20 => some .startRequest | 0x21 => some .stageSummary | 0x22 => some .cookEnd
  | 0x30 => some .cleanStart | 0x31 => some .cleanPhase | 0x32 => some .cleanEnd | 0x40 => some .fault
  | 0x50 => some .imageReady | 0x51 => some .imageRefuse | 0x52 => some .imageAck
  | 0x53 => some .imageCheck | _ => none

/-- R3: what is wrong with a frame as it leaves the inbound buffer, or the kind it is dispatched as. -/
def acceptedKind (f : InFrame) : Option InKind :=
  match InKind.ofCode f.kind with
  | none => none
  | some .claim => if f.tag = numAt f.data 0 6 % 128 then some .claim else none
  | some .stageSummary => if numAt f.data 2 1 / 32 ≤ 2 then some .stageSummary else none
  | some .fault => if numAt f.data 2 1 ≤ 1 ∧ numAt f.data 0 2 < 0xFF00 then some .fault else none
  | some k => some k

/-! ### Identifiers and data of outbound frames -/

/-- R1: the tag of a frame. -/
def Payload.tag : Payload → Nat
  | .assign serial _ => serial % 128
  | .barred serial _ => serial % 128
  | .segName index _ => index
  | .segStep index _ _ => index
  | .imageBegin1 .. => 1
  | .imageData index _ => index % 128
  | _ => 0

/-- R1, section 1.1: the 29-bit identifier: priority class, kind, destination, source 0, tag. -/
def OutFrame.ident (f : OutFrame) : Nat :=
  f.payload.kind.priority * 2 ^ 26 + f.payload.kind.code * 2 ^ 19 + f.dest * 2 ^ 13 + 0 * 2 ^ 7 + f.payload.tag

/-- Section 1.3: the step byte: mode, fan level, end kind, prompt. -/
def stepByte (t : Step) : Nat :=
  t.mode.code + 4 * t.fan + 32 * (match t.ending with | .time _ => 0 | .core _ _ => 1) + 64 * t.prompt.toNat

/-- The seconds of a step: a TIME step's duration, a CORE step's time limit. -/
def Step.seconds (t : Step) : Nat :=
  match t.ending with
  | .time n => n
  | .core _ limit => limit

/-- The core target of a step, 0 for a TIME step. -/
def Step.target (t : Step) : Nat :=
  match t.ending with
  | .time _ => 0
  | .core n _ => n

/-- Section 1.3: the eight bytes of a SEGMENT step frame. -/
def stepFrameBytes (index : Nat) (t : Step) : List Byte :=
  le 1 index ++ le 1 (stepByte t) ++ le 2 t.setpoint ++ le 1 t.humidity ++ le 2 t.seconds ++ le 1 t.target

/-- R1: a frame's data field, as long as its kind's payload. HYGIENE_STATE's named fields are longer than a CAN frame
(A18). -/
def Payload.bytes : Payload → List Byte
  | .assign serial slot => le 6 serial ++ le 1 slot
  | .barred serial full => le 6 serial ++ [flagByte full]
  | .testOrder c h => [signedByte c, signedByte h]
  | .lookupAnswer n v l d w ns => le 2 n ++ le 1 v ++ le 1 (flagBits [l, d, w, ns])
  | .offer n v steps crc => le 2 n ++ le 1 v ++ le 1 steps ++ le 2 crc
  | .segHeader n v steps fat len crc => le 2 n ++ le 1 v ++ le 1 steps ++ le 1 fat ++ le 1 len ++ le 2 crc
  | .segName index chars => le 1 index ++ chars
  | .segStep _ i t => stepFrameBytes i t
  | .discard n v => le 2 n ++ le 1 v
  | .unload n v => le 2 n ++ le 1 v
  | .permitGranted n last locks => [0] ++ le 2 n ++ [0] ++ le 1 (flagBits [last, locks.manual, locks.ticket, locks.update])
  | .permitRefused reason locks =>
      [1] ++ le 2 0 ++ le 1 reason ++ le 1 (flagBits [false, locks.manual, locks.ticket, locks.update])
  | .stop n => le 2 n
  -- the outcome codes and the lengths of CLEAN_ANSWER: A23
  | .cleanAllow p => [0] ++ le 1 p.code
  | .cleanRefuse p reason st => [1] ++ le 1 p ++ le 1 reason ++ le 1 st.code
  | .hygieneState st order residue soil lock minutes =>
      le 1 st.code ++ optBytes 1 (order.map (fun p => le 1 p.code)) ++ [flagByte residue] ++ le 2 soil ++ le 2 lock ++
      le 2 minutes
  | .lockState locks => le 1 locks.bits
  | .imageBegin0 size resume => le 3 size ++ le 3 resume
  | .imageBegin1 crc v => le 4 crc ++ firmwareBytes v
  | .imageData index bytes => le 2 index ++ bytes
  | .imageAbort => []
  | .apply v => firmwareBytes v

/-- R1: the data field of a queued frame. -/
def OutFrame.data (f : OutFrame) : List Byte := f.payload.bytes

end Sys2Proof.Machine
end

