-- ==== Sys2Proof/Machine/Ops.lean ====
section
/-! DEFINITION. The named operations the blocks share: reading and writing numbered records, deadlines, the notice set, the
outbound queues, and the look-ups that other blocks make in a block's records. -/

namespace Sys2Proof.Machine

/-! ### Numbered records (numbers from 1) -/

/-- Record n of a table, or d where the table has no such record. -/
def vget {α : Type} {k : Nat} (v : Vector α k) (n : Nat) (d : α) : α :=
  match n with
  | 0 => d
  | m + 1 => (v[m]?).getD d

/-- The table with record n replaced, unchanged where it has no such record. -/
def vset {α : Type} {k : Nat} (v : Vector α k) (n : Nat) (a : α) : Vector α k :=
  match n with
  | 0 => v
  | m + 1 => v.setIfInBounds m a

/-- The slots of the registry, in ascending order. -/
def allSlots : List Nat := (List.range 32).map (· + 1)
/-- The campaign slots, in ascending order. -/
def allCampaigns : List Nat := [1, 2, 3, 4]
/-- The relay channels, in ascending order. -/
def allChannels : List Nat := [1, 2]
/-- The distribution slots, in ascending order. -/
def allDistSlots : List Nat := [1, 2, 3, 4]

/-- The oven record of a slot (section 2.1). -/
def State.oven (s : State) (n : Nat) : Oven := vget s.ovens n {}
def State.setOven (s : State) (n : Nat) (o : Oven) : State := { s with ovens := vset s.ovens n o }
def State.modOven (s : State) (n : Nat) (f : Oven → Oven) : State := s.setOven n (f (s.oven n))
/-- The loaded set of a slot's oven (R68). -/
def State.loadedOf (s : State) (n : Nat) : List Entry := vget s.loaded n []
def State.setLoaded (s : State) (n : Nat) (l : List Entry) : State := { s with loaded := vset s.loaded n l }
/-- The open permit of a slot's oven (R90). -/
def State.permit (s : State) (n : Nat) : Option Permit := vget s.permits n none
def State.setPermit (s : State) (n : Nat) (p : Option Permit) : State := { s with permits := vset s.permits n p }
/-- A distribution slot (R77). -/
def State.distSlot (s : State) (k : Nat) : Option DistSlot := vget s.slots k none
def State.setDistSlot (s : State) (k : Nat) (b : Option DistSlot) : State := { s with slots := vset s.slots k b }
/-- A ticket class 0..7 (R133). -/
def State.cls (s : State) (c : Nat) : TicketClass := vget s.classes (c + 1) {}
def State.setCls (s : State) (c : Nat) (t : TicketClass) : State := { s with classes := vset s.classes (c + 1) t }
/-- A routing entry 0..31 (R135). -/
def State.route (s : State) (e : Nat) : Route := vget s.routes (e + 1) {}
def State.setRoute (s : State) (e : Nat) (r : Route) : State := { s with routes := vset s.routes (e + 1) r }
/-- A campaign slot (R156). -/
def State.campaign (s : State) (c : Nat) : Option Campaign := vget s.campaigns c none
def State.setCampaign (s : State) (c : Nat) (m : Option Campaign) : State :=
  { s with campaigns := vset s.campaigns c m }
def State.modCampaign (s : State) (c : Nat) (f : Campaign → Campaign) : State :=
  s.setCampaign c ((s.campaign c).map f)
/-- A relay channel (R162). -/
def State.channel (s : State) (c : Nat) : Option Binding := vget s.channels c none
def State.setChannel (s : State) (c : Nat) (b : Option Binding) : State := { s with channels := vset s.channels c b }
def State.modChannel (s : State) (c : Nat) (f : Binding → Binding) : State := s.setChannel c ((s.channel c).map f)

/-- A slot number of the registry. -/
abbrev isSlot (n : Nat) : Prop := 1 ≤ n ∧ n ≤ 32

/-! ### Free values -/

/-- A49: a free value has been taken; the next one is a value of its own. -/
def State.drawn (s : State) : State := { s with draws := s.draws + 1 }

/-! ### The clock -/

/-- R183: the instant of a deadline of n seconds armed now. -/
def State.after (s : State) (n : Nat) : Nat := satAdd Config.maxClock s.clock n

/-- R183: an armed deadline whose instant the clock has reached. -/
def State.due (s : State) : Option Nat → Bool
  | some t => t ≤ s.clock
  | none => false

/-- R183: the seconds remaining to a deadline. -/
def State.remaining (s : State) (t : Nat) : Nat := t - s.clock

/-- R182: the minute of day of a clock value. -/
def minuteOfDay (t : Nat) : Nat := t / 60 % 1440

/-! ### The notice set (10.4) -/

/-- R197: a detail in its eight bytes, those beyond the layout 0. -/
def padDetail (d : List Byte) : List Byte := (d ++ List.replicate 8 0).take 8

/-- R201: SITE_RESTARTED and RESYNC are raised whatever the set holds. -/
def State.enabled (s : State) (k : NoticeKind) : Bool :=
  match k with
  | .siteRestarted | .resync => true
  | _ => s.enables.getLsbD k.code

/-- An entry of the key. -/
def Notice.isOf (e : Notice) (k : NoticeKind) (subject : Nat) : Bool := e.kind = k && e.subject = subject

/-- R196: the entry of a key is brought up to date in its place, or a new one is added at the end of the list. -/
def putNotice (k : NoticeKind) (subject : Nat) (detail : List Byte) (s : State) : State :=
  if s.notices.any (·.isOf k subject) then
    { s with notices := s.notices.map (fun e =>
        if e.isOf k subject then { e with last := s.clock, count := satAdd 255 e.count 1, detail := detail } else e) }
  else
    { s with notices := s.notices ++
        [{ kind := k, subject := subject, first := s.clock, last := s.clock, count := 1, detail := detail }] }

/-- R195: the ordinary entries of the set. -/
def State.ordinaryCount (s : State) : Nat := s.notices.countP (fun e => e.kind ≠ .resync)

/-- R196, R198: a raise is dropped when its kind is disabled, updates or adds its entry, or goes to RESYNC. -/
def raise (k : NoticeKind) (subject : Nat) (detail : List Byte) (s : State) : State :=
  if s.enabled k = false then s
  else if s.notices.any (·.isOf k subject) ∨ s.ordinaryCount < Config.ordinaryNotices then
    putNotice k subject (padDetail detail) s
  else putNotice .resync 0 (padDetail (le 1 k.code ++ le 2 subject)) s

/-- R200: the ATTN pin, low while the main domain is held in reset. -/
def State.attn (s : State) : Bool := s.power = .running && !s.notices.isEmpty

/-- Section 10.1: the RDY pin, low while the main domain is held in reset. -/
def State.rdy (s : State) : Bool :=
  s.power = .running && (match s.port with | .ready _ => true | _ => false)

/-! ### Bus standing -/

/-- R14: the fault confinement state, as the notice detail and BUS_STATUS code it: 0 ERROR_ACTIVE, 1 ERROR_PASSIVE,
2 BUS_OFF. -/
def State.confinement (s : State) : Nat :=
  if s.busOff then 2 else if 128 ≤ s.tec ∨ 128 ≤ s.rec_ then 1 else 0

/-- R195, R197: notice BUS with a cause (STATE_CHANGE 0, OVERRUN 1, QUEUE_FULL 2) and the standing as it is. -/
def raiseBus (cause : Nat) (s : State) : State :=
  raise .bus 0
    (le 1 (cause + 16 * s.confinement) ++ le 1 s.tec ++ le 1 s.rec_ ++ le 1 (min 255 s.overruns) ++
      le 1 (min 255 s.droppedAnswers) ++ le 1 (min 255 s.droppedFrames) ++ le 1 s.lastDropped.1 ++ le 1 s.lastDropped.2) s

/-! ### The outbound queues (1.5, 1.7) -/

def State.queue (s : State) : QueueName → List OutFrame
  | .urgent => s.urgent
  | .answer => s.answer
  | .bulk => s.bulk
  | .image => s.image

def State.setQueue (s : State) (q : QueueName) (l : List OutFrame) : State :=
  match q with
  | .urgent => { s with urgent := l }
  | .answer => { s with answer := l }
  | .bulk => { s with bulk := l }
  | .image => { s with image := l }

/-- Section 1.5: the capacities. -/
def QueueName.capacity : QueueName → Nat
  | .urgent => Config.urgentPlaces
  | .answer => Config.answerPlaces
  | .bulk => Config.bulkPlaces
  | .image => Config.imagePlaces

/-- R7: the kinds of which URGENT holds one unsent frame for an oven at most. -/
def OutKind.standing : OutKind → Bool
  | .lockState | .hygieneState => true
  | _ => false

/-- R6: a frame that finds its queue full is dropped and counted. -/
def dropFrame (f : OutFrame) (s : State) : State :=
  let s := { s with lastDropped := (f.payload.kind.code, f.dest) }
  if f.payload.kind = .lookupAnswer then { s with droppedAnswers := satAdd 65535 s.droppedAnswers 1 }
  else raiseBus 2 { s with droppedFrames := satAdd 65535 s.droppedFrames 1 }

/-- R6, R7: a producer places a frame; the transmitter's choice is not made here (see `place`). -/
def enqueue (f : OutFrame) (s : State) : State :=
  let q := s.queue f.payload.kind.queue
  let same := fun g : OutFrame => g.payload.kind = f.payload.kind && g.dest = f.dest
  if f.payload.kind.standing ∧ q.any same then
    s.setQueue f.payload.kind.queue (q.map (fun g => if same g then { g with payload := f.payload } else g))
  else if q.length < f.payload.kind.queue.capacity then s.setQueue f.payload.kind.queue (q ++ [f])
  else dropFrame f s

/-- R12: a producer withdraws its own queued frames of one queue. -/
def withdraw (q : QueueName) (p : Producer) (sel : OutFrame → Bool) (s : State) : State :=
  s.setQueue q ((s.queue q).filter (fun f => !(f.producer = p && sel f)))

/-- R12: all SEGMENT frames of one distribution slot. -/
def withdrawSegments (k : Nat) (s : State) : State :=
  withdraw .bulk .distribution (fun f => f.mark = .distSlot k) s

/-- R12: all IMAGE frames of one relay channel. -/
def withdrawImage (c : Nat) (s : State) : State := withdraw .image .updateRelay (fun f => f.mark = .channel c) s

/-- R8: a transfer's frames in BULK. -/
def State.segmentsQueued (s : State) (k : Nat) : Nat := s.bulk.countP (fun f => f.mark = .distSlot k)

/-- R8: a relay channel's frames in IMAGE. -/
def State.framesQueued (s : State) (c : Nat) : Nat := s.image.countP (fun f => f.mark = .channel c)

/-! ### Numbers (R46) -/

/-- R46: the first number not in use, counting on from n with 65535 followed by 1. -/
def freeNumber (used : Nat → Bool) : Nat → Nat → Nat
  | 0, n => n
  | fuel + 1, n => if used n then freeNumber used fuel (if 65535 ≤ n then 1 else n + 1) else n

/-- R46: the counter after a number has been issued. -/
def nextNumber (n : Nat) : Nat := if 65535 ≤ n then 1 else n + 1

/-! ### Look-ups in the records -/

/-- The slot whose record, not VACANT, holds a serial. -/
def State.slotOfSerial (s : State) (serial : Nat) : Option Nat :=
  allSlots.find? (fun n => (s.oven n).state ≠ .vacant && (s.oven n).serial = some serial)

/-- The lowest-numbered VACANT slot. -/
def State.lowestVacant (s : State) : Option Nat := allSlots.find? (fun n => (s.oven n).state = .vacant)

/-- R68: the effective recipe capacity. -/
def Oven.effectiveCapacity (o : Oven) : Nat :=
  match o.profile with
  | some p => min p.capacity Config.loadedPlaces
  | none => 0

/-- The library record of a number and version. -/
def State.recipe (s : State) (number version : Nat) : Option Recipe :=
  s.recipes.find? (fun r => r.number = number && r.version = version)

/-- The library record of a number in a state (at most one, R49). -/
def State.recipeIn (s : State) (number : Nat) (st : RecipeState) : Option Recipe :=
  s.recipes.find? (fun r => r.number = number && r.state = st)

def State.modRecipe (s : State) (number version : Nat) (f : Recipe → Recipe) : State :=
  { s with recipes := s.recipes.map (fun r => if r.number = number && r.version = version then f r else r) }

/-- R63: a WITHDRAWING record with no reference is freed. -/
def freeCheck (number version : Nat) (s : State) : State :=
  { s with recipes := s.recipes.filter (fun r =>
      !(r.number = number && r.version = version && r.state = .withdrawing && r.refs = 0)) }

/-- R62: a reference more. -/
def addRef (number version : Nat) (s : State) : State :=
  s.modRecipe number version (fun r => { r with refs := r.refs + 1 })

/-- R62, R63: a reference fewer, and the freeing check. -/
def dropRef (number version : Nat) (s : State) : State :=
  freeCheck number version (s.modRecipe number version (fun r => { r with refs := r.refs - 1 }))

/-- An open ticket by its number. -/
def State.ticket (s : State) (n : Nat) : Option Ticket := s.tickets.find? (fun t => t.number = n)

def State.modTicket (s : State) (n : Nat) (f : Ticket → Ticket) : State :=
  { s with tickets := s.tickets.map (fun t => if t.number = n then f t else t) }

/-- R133: the open count of a class. -/
def State.openCount (s : State) (c : Nat) : Nat := s.tickets.countP (fun t => t.cls = c)

/-- R151, R152: a ticket's effects hold in OPEN and ACKNOWLEDGED. -/
def Ticket.holds (t : Ticket) : Bool := t.state = .open || t.state = .acknowledged

/-- R152: the oven has a ticket of a class that blocks cleaning, in OPEN or ACKNOWLEDGED. -/
def State.cleaningBlocked (s : State) (n : Nat) : Bool :=
  s.tickets.any (fun t => t.oven = n && t.holds && (s.cls t.cls).blocksCleaning)

/-- R152: the oven has a ticket of a class that blocks updates, in OPEN or ACKNOWLEDGED. -/
def State.updatesBlocked (s : State) (n : Nat) : Bool :=
  s.tickets.any (fun t => t.oven = n && t.holds && (s.cls t.cls).blocksUpdates)

/-- The entry of an oven in a campaign. -/
def Campaign.entry (c : Campaign) (n : Nat) : Option CEntry := c.entries.find? (fun e => e.oven = n)

def State.centry (s : State) (c n : Nat) : Option CEntry := (s.campaign c).bind (·.entry n)

def State.modCEntry (s : State) (c n : Nat) (f : CEntry → CEntry) : State :=
  s.modCampaign c (fun m => { m with entries := m.entries.map (fun e => if e.oven = n then f e else e) })

def State.removeCEntry (s : State) (c n : Nat) : State :=
  s.modCampaign c (fun m => { m with entries := m.entries.filter (fun e => e.oven ≠ n) })

/-- The campaign in which an oven has an entry in one of the given states. -/
def State.campaignWhere (s : State) (n : Nat) (p : CEntryState → Bool) : Option Nat :=
  allCampaigns.find? (fun c => match s.centry c n with | some e => p e.state | none => false)

/-- The oven has an entry in APPLYING in some campaign. -/
def State.applying (s : State) (n : Nat) : Bool := (s.campaignWhere n (· = .applying)).isSome

/-- R42: the lock reasons an oven's records give. -/
def State.lockView (s : State) (n : Nat) : Locks where
  manual := (s.oven n).manualLock
  ticket := s.tickets.any (fun t => t.oven = n && t.holds && (s.cls t.cls).severity = .lockout)
  update := s.applying n

end Sys2Proof.Machine
end

