-- ==== Sys2Proof/Machine/Soil.lean ====
section
/-! DEFINITION. The arithmetic of the manual: the stage increment (R109, R110), the figures of a publication (R57, R58), the
per-oven adjustment (R74), the content CRC (R75), the transfer frames (R76), the hygiene settings (R112). -/

namespace Sys2Proof.Machine

/-! ### Soil -/

/-- R109: the temperature weight, the temperature first clamped into 30..300. -/
def weightT (t : Nat) : Nat :=
  let t := clampNat 30 300 t
  if t ≤ 100 then 2 else 2 + (t - 100) / 20

/-- R109: the mode weight. -/
def weightM (m : Mode) (humidity : Nat) : Nat :=
  match m with
  | .steam => 1
  | .dry => 3
  | .combi => if 50 ≤ humidity then 2 else 3

/-- R109: the fat weight. -/
def weightF : Nat → Nat
  | 0 => 1
  | 1 => 2
  | 2 => 3
  | _ => 5

/-- R110: the stage increment. -/
def stageIncrement (m : Mode) (temperature humidity seconds fat : Nat) : Nat :=
  min 65535 ((seconds * weightT temperature * weightM m humidity * weightF fat + 59) / 60)

/-- R58: the nominal soil of a step. -/
def stepSoil (fat : Nat) (t : Step) : Nat := stageIncrement t.mode t.setpoint t.humidity t.seconds fat

/-- R57, R58: the figures of a version, from its steps as written. -/
def figuresOf (fat : Nat) (steps : List Step) : Figures where
  needsSteam := steps.any (fun t => t.mode = .steam || t.mode = .combi)
  needsProbe := steps.any (fun t => match t.ending with | .core _ _ => true | .time _ => false)
  highest := steps.foldl (fun n t => max n t.setpoint) 0
  duration := (steps.map Step.seconds).sum
  stepSoil := steps.map (stepSoil fat)
  totalSoil := min 65535 (steps.map (stepSoil fat)).sum

/-- The total nominal soil of a version, 0 where the library does not hold it published. -/
def State.totalSoil (s : State) (number version : Nat) : Nat :=
  match (s.recipe number version).bind Recipe.figures with
  | some f => f.totalSoil
  | none => 0

/-- R99: what stages i.. of the step figures are charged, while n stages remain to be charged: a stage with a summary by its
increment, a stage without one by its nominal soil. -/
def chargeFrom (fat : Nat) (summaries : List Summary) : Nat → Nat → List Nat → Nat
  | _, 0, _ => 0
  | _, _, [] => 0
  | i, n + 1, nominal :: rest =>
    (match summaries.find? (fun x => x.index = i) with
      | some x => stageIncrement x.mode x.temperature x.humidity x.seconds fat
      | none => nominal) + chargeFrom fat summaries (i + 1) n rest

/-- R99: the charge of a COOK_END with a stage count, clamped into 0..the step count. -/
def cookCharge (r : Recipe) (summaries : List Summary) (stages : Nat) : Nat :=
  match r.figures with
  | some f => chargeFrom r.fat summaries 1 (min stages r.steps.length) f.stepSoil
  | none => 0

/-- R94: the deadline offset of a permit. -/
def permitSeconds (duration : Nat) : Nat := (duration * 5 + 3) / 4 + 600

/-! ### Content (R74 to R76) -/

/-- R74: the sent setpoint. -/
def sentSetpoint (o : Oven) (t : Step) : Nat :=
  (clampInt 30 (match o.profile with | some p => p.maxTemp | none => 0) (t.setpoint + o.cavity)).toNat

/-- R74: the sent humidity. -/
def sentHumidity (o : Oven) (t : Step) : Nat :=
  match t.mode with
  | .combi => (clampInt 1 99 (t.humidity + o.humidity)).toNat
  | _ => t.humidity

/-- R74: a step as sent to an oven. -/
def sentStep (o : Oven) (t : Step) : Step :=
  { t with setpoint := sentSetpoint o t, humidity := sentHumidity o t }

/-- R74: the step needed a clamp. -/
def stepClamped (o : Oven) (t : Step) : Bool :=
  (sentSetpoint o t : Int) ≠ t.setpoint + o.cavity ||
    (t.mode = .combi && (sentHumidity o t : Int) ≠ t.humidity + o.humidity)

/-- R74: the steps of a version as sent to an oven. -/
def contentOf (o : Oven) (r : Recipe) : List Step := r.steps.map (sentStep o)

/-- The step frames of a content, indices from i. -/
def stepBytesFrom : Nat → List Step → List Byte
  | _, [] => []
  | i, t :: ts => stepFrameBytes i t ++ stepBytesFrom (i + 1) ts

/-- R75: the content CRC. -/
def contentCrc (o : Oven) (r : Recipe) : Nat :=
  crc16 (le 2 r.number ++ le 1 r.version ++ le 1 r.steps.length ++ le 1 r.fat ++ stepBytesFrom 1 (contentOf o r))

/-- R76: the name frames of a transfer. -/
def nameFrames (r : Recipe) : Nat := (r.name.length + 6) / 7

/-- R76: the frames of a transfer. -/
def transferTotal (r : Recipe) : Nat := 1 + nameFrames r + r.steps.length

/-- R76: the frame of an index of a transfer. -/
def transferFrame (o : Oven) (r : Recipe) (i : Nat) : Payload :=
  if i = 0 then .segHeader r.number r.version r.steps.length r.fat r.name.length (contentCrc o r)
  else if i ≤ nameFrames r then .segName i ((r.name.drop (7 * (i - 1))).take 7)
  else
    match (contentOf o r)[i - nameFrames r - 1]? with
    | some t => .segStep i (i - nameFrames r) t
    | none => .segName i []

/-! ### Hygiene settings (R112) -/

/-- R112: the three settings formed from what is given and what stands, clamped in order, and whether a clamp was made. -/
def formSettings (given : Thresholds) (standing : Settings) : Settings × Bool :=
  let lock0 := given.lock.getD standing.lock
  let lock := clampNat 1000 65535 lock0
  let advise0 := given.advise.getD standing.advise
  let advise := clampNat 0 (lock - 1) advise0
  let interval0 := given.interval.getD standing.interval
  let interval := clampNat 240 2880 interval0
  ({ advise := advise, lock := lock, interval := interval },
    lock ≠ lock0 || advise ≠ advise0 || interval ≠ interval0)

/-- R117: the removal of a programme, in eighths. -/
def Programme.removal : Programme → Nat
  | .rinse => 3
  | .standard => 7
  | .intensive => 8

/-- R117, R120: the clean deadline offset, the nominal time plus 1,800 s. -/
def Programme.deadlineSeconds : Programme → Nat
  | .rinse => 2700
  | .standard => 9000
  | .intensive => 12600

/-- R117: the programme counts as a full clean. -/
def Programme.isFull : Programme → Bool
  | .rinse => false
  | .standard | .intensive => true

/-- R117: the phases of a programme, in order. -/
def Programme.phases : Programme → List Phase
  | .rinse => [.rinse, .dry]
  | .standard | .intensive => [.soak, .detergent, .rinse, .dry]

/-- R118: what a cleaning system can run. -/
def CleaningSystem.canRun : CleaningSystem → Programme → Bool
  | .full, _ => true
  | .rinseOnly, .rinse => true
  | _, _ => false

end Sys2Proof.Machine
end

