-- ==== Sys2Proof/Machine/Channel.lean ====
section
/-! DEFINITION. The relay channels as far as they concern the Update Relay alone: opening a transfer (R164), placing image
frames (R167), the finish check (R177) and the channel choice (R162). Frames are placed with `enqueue`; the transmitter's own
choice follows in Machine/Transmit.lean. -/

namespace Sys2Proof.Machine

/-- R6: a frame of a relay channel. -/
def imageFrame (c oven : Nat) (p : Payload) : OutFrame :=
  { payload := p, producer := .updateRelay, mark := .channel c, dest := oven }

/-- R195: notice UPDATE: cause STAGED 0, SUSPENDED 1, APPLYING 2, DONE 3, FAILED 4; campaign; failure cause; attempts. -/
def raiseUpdate (cause c n failure attempts : Nat) (s : State) : State :=
  raise .update n (le 1 cause ++ le 1 c ++ le 1 failure ++ le 1 attempts) s

/-- R195: notice RELAY with cause FEED and an offset, its low 24 bits. -/
def raiseFeed (ch c n offset : Nat) (s : State) : State :=
  raise .relay ch (le 1 0 ++ le 1 c ++ le 1 n ++ le 3 offset) s

/-- R195: notice RELAY with cause RELEASED and an outcome STAGED 1, FAILED 2, ABORTED 3; its offset is a free value (A16). -/
def raiseReleased (ch c n outcome : Nat) (s : State) : State :=
  raise .relay ch (le 1 1 ++ le 1 c ++ le 1 n ++ le 3 (Config.releasedOffset s.draws) ++ le 1 outcome) s.drawn

/-- R164: the two frames of an IMAGE_BEGIN, tag 0 then tag 1, with the resume offset at acked. -/
def enqueueBegin (ch : Nat) (s : State) : State :=
  match s.channel ch with
  | none => s
  | some b =>
    match s.campaign b.campaign with
    | none => s
    | some m =>
      enqueue (imageFrame ch b.oven (.imageBegin1 m.imageCrc m.toVersion))
        (enqueue (imageFrame ch b.oven (.imageBegin0 m.imageSize b.acked)) s)

/-- R167: a frame is ready at sent. -/
def frameReady (size : Nat) (b : Binding) : Bool :=
  b.sent + 6 ≤ b.taken || (b.taken = size && b.sent < size)

/-- R167: the bytes of the frame at sent: up to the next multiple of 6 or the end of the image. -/
def frameBytes (size : Nat) (b : Binding) : List Byte :=
  (b.buffer.drop (b.sent - b.acked)).take (min (6 - b.sent % 6) (size - b.sent))

/-- R167: one IMAGE_DATA frame is placed, sent moves on, and the acknowledgement timeout is armed if none was. -/
def placeImageFrame (ch : Nat) (b : Binding) (size : Nat) (s : State) : State :=
  let bytes := frameBytes size b
  let s := enqueue (imageFrame ch b.oven (.imageData (b.sent / 6 % 65536) bytes)) s
  s.modChannel ch (fun b =>
    { b with
      sent := b.sent + bytes.length
      timeout := match b.timeout with
        | some t => some t
        | none => if b.acked < b.sent + bytes.length then some (s.after Config.ackSeconds) else none })

/-- R167: frames are placed while the stream is STREAMING, fewer than 8 are queued and one is ready. -/
def fillImage : Nat → Nat → State → State
  | 0, _, s => s
  | fuel + 1, ch, s =>
    match s.channel ch with
    | none => s
    | some b =>
      match s.campaign b.campaign with
      | none => s
      | some m =>
        if b.stream = .streaming ∧ s.framesQueued ch < Config.streamPlaces ∧ frameReady m.imageSize b then
          fillImage fuel ch (placeImageFrame ch b m.imageSize s)
        else s

/-- R158: the version may be installed over. -/
def Campaign.takesVersion (m : Campaign) (v : Option Firmware) : Bool :=
  v ≠ some m.toVersion && (m.fromVersions.isEmpty || m.fromVersions.any (fun f => v = some f))

/-- R158: DONE, SKIPPED and FAILED are final. -/
def CEntryState.isFinal : CEntryState → Bool
  | .done | .skipped | .failed => true
  | _ => false

/-- R162: the states in which an oven's entry excludes another transfer to it. -/
def CEntryState.isActive : CEntryState → Bool
  | .transferring | .suspended | .staged | .applying => true
  | _ => false

/-- R162: the states that count against a campaign's concurrency. -/
def CEntryState.isTransfer : CEntryState → Bool
  | .transferring | .suspended => true
  | _ => false

/-- The entries of a campaign in a state. -/
def Campaign.count (m : Campaign) (st : CEntryState) : Nat := m.entries.countP (fun e => e.state = st)

/-- R177: the finish check. -/
def finishCheck (c : Nat) (s : State) : State :=
  match s.campaign c with
  | none => s
  | some m =>
    if (m.state = .running ∨ m.state = .paused) ∧ m.entries ≠ [] ∧ m.entries.all (·.state.isFinal) then
      raise .campaign c (le 1 0 ++ le 1 (m.count .done) ++ le 1 (m.count .skipped) ++ le 1 (m.count .failed))
        (s.modCampaign c (fun m => { m with state := .finished }))
    else s

/-- R162: a channel is free for binding when it is unbound and none of its frames remain in IMAGE. -/
def State.channelFree (s : State) (ch : Nat) : Bool := (s.channel ch).isNone && s.framesQueued ch = 0

/-- R162: an oven qualifies for a transfer. -/
def State.transferQualifies (s : State) (n : Nat) : Bool :=
  (s.oven n).state = .inService && (s.oven n).present && !s.updatesBlocked n &&
    (s.campaignWhere n CEntryState.isActive).isNone

/-- R162: the first entry a campaign would serve: that of its lowest-numbered qualifying oven in WAITING. -/
def State.candidateIn (s : State) (c : Nat) : Option CEntry :=
  match s.campaign c with
  | none => none
  | some m =>
    if m.state = .running ∧ m.entries.countP (·.state.isTransfer) < m.concurrency then
      m.entries.find? (fun e => e.state = .waiting && s.transferQualifies e.oven)
    else none

/-- R162: the lowest-numbered RUNNING campaign that has one, with the entry. -/
def State.candidate (s : State) : Option (Nat × CEntry) :=
  allCampaigns.findSome? (fun c => (s.candidateIn c).map (fun e => (c, e)))

/-- R164: an entry is bound to a channel and its transfer opened. -/
def bindChannel (c n ch : Nat) (s : State) : State :=
  let s := s.setChannel ch (some
    { campaign := c, oven := n, stream := .opening, taken := 0, sent := 0, acked := 0
      timeout := some (s.after Config.ackSeconds), check := none, buffer := [] })
  let s := s.modCEntry c n (fun e => { e with state := .transferring, channel := some ch, timeouts := 0 })
  raiseFeed ch c n 0 (enqueueBegin ch s)

/-- R162: before it serves an entry the Relay judges the oven afresh: SKIPPED, DONE (A29), or bound. -/
def serveEntry (c : Nat) (e : CEntry) (ch : Nat) (s : State) : State :=
  match s.campaign c with
  | none => s
  | some m =>
    let o := s.oven e.oven
    if o.model ≠ m.model then
      finishCheck c (s.modCEntry c e.oven (fun e => { e with state := .skipped }))
    else if o.firmware = some m.toVersion then
      finishCheck c (raiseUpdate 3 c e.oven 0 e.attempts (s.modCEntry c e.oven (fun e => { e with state := .done })))
    else if m.takesVersion o.firmware then bindChannel c e.oven ch s
    else finishCheck c (s.modCEntry c e.oven (fun e => { e with state := .skipped }))

/-- R162: choices follow while a channel is free and a campaign qualifies. -/
def chooseChannels : Nat → State → State
  | 0, s => s
  | fuel + 1, s =>
    match allChannels.find? s.channelFree, s.candidate with
    | some ch, some (c, e) => chooseChannels fuel (serveEntry c e ch s)
    | _, _ => s

/-- Each choice binds one of 2 channels or makes one of at most 128 entries final. -/
def choiceFuel : Nat := 131

end Sys2Proof.Machine
end

