-- ==== Sys2Proof/Machine/Transmit.lean ====
section
/-! DEFINITION. The transmitter (R10, R11) and what its taking a frame moves in the producers (R8, R79, R162, R167). A
producer places a frame with `place`: into its queue, and then the transmitter's choice is made. -/

namespace Sys2Proof.Machine

/-- R10: the queue the transmitter would take from: the highest level among the non-empty queues, the first of them in the
natural order. -/
def State.nextQueue (s : State) : Option QueueName :=
  let level : QueueName → Nat := fun q =>
    match q with
    | .urgent => s.levels.urgent
    | .answer => s.levels.answer
    | .bulk => s.levels.bulk
    | .image => s.levels.image
  let better : Option QueueName → QueueName → Option QueueName := fun best q =>
    if (s.queue q).isEmpty then best
    else match best with
      | none => some q
      | some b => if level b < level q then some q else some b
  [QueueName.urgent, .answer, .bulk, .image].foldl better none

/-- R10: the choice: a free transmitter takes the head frame of the chosen queue, unless in BUS_OFF. -/
def takeFrame (s : State) : Option (OutFrame × State) :=
  if s.transmitter.isSome ∨ s.busOff then none
  else
    match s.nextQueue with
    | none => none
    | some q =>
      match s.queue q with
      | [] => none
      | f :: rest => some (f, { s.setQueue q rest with transmitter := some f })

/-- R79: the transfer's frames are placed in index order while fewer than 8 are in BULK and frames remain. -/
def fillSegments : Nat → Nat → State → State
  | 0, _, s => s
  | fuel + 1, k, s =>
    match s.distSlot k with
    | none => s
    | some b =>
      match s.recipe b.number b.version with
      | none => s
      | some r =>
        if b.next < b.total ∧ s.segmentsQueued k < Config.streamPlaces then
          fillSegments fuel k
            (enqueue
              { payload := transferFrame (s.oven b.oven) r b.next, producer := .distribution, mark := .distSlot k
                dest := b.oven }
              (s.setDistSlot k (some { b with next := b.next + 1 })))
        else s

/-- R79: a frame of a transfer has been taken: the next is placed, and after the last the PROGRESS deadline is armed. -/
def segmentTaken (k index : Nat) (s : State) : State :=
  match s.distSlot k with
  | none => s
  | some b =>
    let s := fillSegments Config.streamPlaces k s
    if index + 1 = b.total then
      s.setLoaded b.oven ((s.loadedOf b.oven).map (fun e =>
        if e.number = b.number && e.version = b.version && e.state = .sending then
          { e with deadline := some (.progress, s.after Config.distributionSeconds) }
        else e))
    else s

/-- R162, R167: a frame of a channel has been taken: the next is placed, or a released channel may have become free. -/
def imageTaken (ch : Nat) (s : State) : State :=
  match s.channel ch with
  | some _ => fillImage Config.streamPlaces ch s
  | none => chooseChannels choiceFuel s

/-- R8: what the producer of a taken frame does. -/
def afterTaken (f : OutFrame) (s : State) : State :=
  match f.mark with
  | .distSlot k => segmentTaken k f.payload.tag s
  | .channel ch => imageTaken ch s
  | .oven _ => s

/-- R10: the transmitter's choice, where it is free. -/
def kick (s : State) : State :=
  match takeFrame s with
  | some (f, s') => afterTaken f s'
  | none => s

/-- R10: the transmitter's choice inside a rule that makes the channel choice itself, later: a frame of an unbound channel is
not followed up here. -/
def kickQuiet (s : State) : State :=
  match takeFrame s with
  | none => s
  | some (f, s') =>
    match f.mark with
    | .channel ch => fillImage Config.streamPlaces ch s'
    | _ => afterTaken f s'

/-- R6, R10: a producer places a frame. -/
def place (f : OutFrame) (s : State) : State := kick (enqueue f s)

/-- A frame for an oven that is not part of a stream: its mark is the oven (R6). -/
def placeFor (p : Producer) (n : Nat) (payload : Payload) (s : State) : State :=
  place { payload := payload, producer := p, mark := .oven n, dest := n } s

/-- R162: the channel choice. While the main domain is held in reset none is made: R180 makes it last, as the reset ends. -/
def channelChoice (s : State) : State := kick (if s.power = .running then chooseChannels choiceFuel s else s)

end Sys2Proof.Machine
end

