-- ==== Sys2Proof/Machine/Distribution.lean ====
section
/-! DEFINITION. The Distribution Engine (04) apart from failed tries, which route a fault: loaded sets, membership, unloads,
offers, the slot choice, content and capability changes, rejoin and retirement. -/

namespace Sys2Proof.Machine

/-! ### Entries -/

/-- The entry names this number and version. -/
def Entry.is (e : Entry) (number version : Nat) : Bool := e.number = number && e.version = version

/-- The entry of an oven for a number and version. -/
def State.entry (s : State) (n number version : Nat) : Option Entry := (s.loadedOf n).find? (·.is number version)

def State.modEntry (s : State) (n number version : Nat) (f : Entry → Entry) : State :=
  s.setLoaded n ((s.loadedOf n).map (fun e => if e.is number version then f e else e))

/-- R68: counted against capacity. -/
def EntryState.counted : EntryState → Bool
  | .pending | .failed => false
  | _ => true

/-- R68: holds a distribution slot. -/
def EntryState.inTransfer : EntryState → Bool
  | .offered | .sending => true
  | _ => false

/-- R68: an oven's entries counted against capacity. -/
def State.counted (s : State) (n : Nat) : Nat := (s.loadedOf n).countP (·.state.counted)

/-- The oven's entry in OFFERED or SENDING (at most one, R68). -/
def State.transferEntry (s : State) (n : Nat) : Option Entry := (s.loadedOf n).find? (·.state.inTransfer)

/-- The distribution slot bound to an oven. -/
def State.boundSlot (s : State) (n : Nat) : Option Nat :=
  allDistSlots.find? (fun k => match s.distSlot k with | some b => b.oven = n | none => false)

/-- The oven's open permit names this number and version. -/
def State.permitNames (s : State) (n number version : Nat) : Bool :=
  match s.permit n with
  | some p => p.recipe = number && p.version = version
  | none => false

/-- R195: notice RECIPE_ENTRY with cause CLAMPED 0 or FAILED 1. -/
def raiseRecipeEntry (n number version cause : Nat) (s : State) : State :=
  raise .recipeEntry n (le 2 number ++ le 1 version ++ le 1 cause) s

/-- R80: DISCARD for a version. -/
def placeDiscard (n number version : Nat) (s : State) : State :=
  placeFor .distribution n (.discard number version) s

/-! ### Offers and the slot choice (R77, R78) -/

/-- R78, R74: the entry is offered in a distribution slot. -/
def offer (n number version k : Nat) (s : State) : State :=
  match s.recipe number version, s.entry n number version with
  | some r, some e =>
    let o := s.oven n
    let clamp := r.steps.any (stepClamped o)
    let crc := contentCrc o r
    let s := if clamp && !e.clamped then raiseRecipeEntry n number version 0 s else s
    let s := s.modEntry n number version (fun e =>
      { e with
        crc := some crc, clamped := clamp, state := .offered, deadline := some (.reply, s.after Config.distributionSeconds) })
    let s := s.setDistSlot k (some
      { oven := n, number := number, version := version, next := 0, total := transferTotal r })
    placeFor .distribution n (.offer number version r.steps.length crc) s
  | _, _ => s

/-- R77: the oldest PENDING entry with NO_ROOM clear. -/
def State.oldestPending (s : State) (n : Nat) : Option Entry :=
  (s.loadedOf n).find? (fun e => e.state = .pending && !e.noRoom)

/-- R77: an oven qualifies for a slot. -/
def State.slotQualifies (s : State) (n : Nat) : Bool :=
  (s.oven n).state = .inService && (s.oven n).present && !(s.oven n).locks.update &&
    (s.transferEntry n).isNone && s.counted n < (s.oven n).effectiveCapacity && (s.oldestPending n).isSome

/-- R77: the slots in the order of the round robin, from the one after the pointer, wrapping from 32 to 1. -/
def State.roundRobin (s : State) : List Nat := (List.range 32).map (fun i => (s.pointer + i) % 32 + 1)

/-- R77: one choice after the other while a slot is free and an oven qualifies. -/
def chooseSlots : Nat → State → State
  | 0, s => s
  | fuel + 1, s =>
    match allDistSlots.find? (fun k => (s.distSlot k).isNone), s.roundRobin.find? s.slotQualifies with
    | some k, some n =>
      match s.oldestPending n with
      | some e => chooseSlots fuel (offer n e.number e.version k { s with pointer := n })
      | none => s
    | _, _ => s

/-- R77: the slot choice (four slots, so at most four choices). While the main domain is held in reset none is made: R89 makes
it last, as the reset ends. -/
def slotChoice (s : State) : State := if s.power = .running then chooseSlots 4 s else s

/-! ### Ending transfers, removing and unloading entries -/

/-- R80: the transfer of an oven is ended: frames withdrawn, slot freed, deadline disarmed. The entry's state is the
caller's. -/
def endTransfer (n : Nat) (s : State) : State :=
  let s := match s.boundSlot n with
    | some k => (withdrawSegments k s).setDistSlot k none
    | none => s
  s.setLoaded n ((s.loadedOf n).map (fun e => if e.state.inTransfer then { e with deadline := none } else e))

/-- R81: NO_ROOM is cleared on every entry of the oven. -/
def clearNoRoom (n : Nat) (s : State) : State :=
  s.setLoaded n ((s.loadedOf n).map (fun e => { e with noRoom := false }))

/-- R62, R81: an entry is removed: NO_ROOM cleared on the oven's entries, the library told. -/
def removeEntry (n number version : Nat) (s : State) : State :=
  dropRef number version (clearNoRoom n (s.setLoaded n ((s.loadedOf n).filter (fun e => !e.is number version))))

/-- R73: UNLOAD is placed, sends 1, the UNLOAD deadline armed. -/
def sendUnload (n number version : Nat) (s : State) : State :=
  let s := placeFor .distribution n (.unload number version) s
  s.modEntry n number version (fun e =>
    { e with sends := 1, deadline := some (.unload, s.after Config.distributionSeconds) })

/-- R73: the entry becomes UNLOADING and its unload begins. -/
def beginUnload (n number version : Nat) (s : State) : State :=
  sendUnload n number version
    (s.modEntry n number version (fun e => { e with state := .unloading, deferred := false }))

/-- R72: an entry a rule sends to UNLOADING: deferred behind an open permit that names it. -/
def toUnloading (n number version : Nat) (s : State) : State :=
  if s.permitNames n number version then s.modEntry n number version (fun e => { e with deferred := true })
  else beginUnload n number version s

/-- R72: the older STALE entries of a number go toward UNLOADING when a newer version has become LOADED, in loaded-set order
(A60). -/
def unloadOlder (n number version : Nat) (s : State) : State :=
  ((s.loadedOf n).filter (fun e => e.number = number && e.state = .stale && e.version < version)).foldl
    (fun s e => toUnloading n e.number e.version s) s

/-- R72, R101: the oven's permit is gone: its deferred entries go to UNLOADING, in loaded-set order (A60). One that a content change has put back in
transfer ends its transfer first, and the slot it frees is chosen for again (A53). -/
def unloadDeferred (n : Nat) (s : State) : State :=
  let deferred := (s.loadedOf n).filter (·.deferred)
  if deferred.any (·.state.inTransfer) then
    slotChoice (deferred.foldl (fun s e => beginUnload n e.number e.version s) (endTransfer n s))
  else deferred.foldl (fun s e => beginUnload n e.number e.version s) s

/-! ### Membership (R69, R70) -/

/-- R69: a recipe is wanted by an oven. -/
def wants (o : Oven) (r : Recipe) : Bool :=
  r.state = .active && r.groups.getLsbD o.group &&
    (match r.figures with
      | some f =>
        (!f.needsSteam || (match o.profile with | some p => p.steam | none => false)) &&
        (!f.needsProbe || (match o.profile with | some p => p.probe | none => false))
      | none => false)

/-- R69: the wanted set of an oven, in ascending recipe number. -/
def State.wanted (s : State) (n : Nat) : List Recipe := s.recipes.filter (wants (s.oven n))

/-- R70, first pass: wanted versions without an entry are appended PENDING while the set holds fewer than 64. -/
def appendWanted (n : Nat) (s : State) : State :=
  (s.wanted n).foldl (fun s r =>
    if (s.entry n r.number r.version).isNone ∧ (s.loadedOf n).length < Config.loadedPlaces then
      addRef r.number r.version
        (s.setLoaded n (s.loadedOf n ++ [{ number := r.number, version := r.version }]))
    else s) s

/-- R70, second pass: one entry is judged against the wanted set. -/
def judgeEntry (n : Nat) (wanted : List Recipe) (s : State) (e : Entry) : State :=
  let isWanted := wanted.any (fun r => r.number = e.number && r.version = e.version)
  match e.state with
  | .pending | .failed => if isWanted then s else removeEntry n e.number e.version s
  | .offered | .sending =>
    if isWanted then s
    else removeEntry n e.number e.version (placeDiscard n e.number e.version (endTransfer n s))
  | .loaded =>
    if isWanted then s.modEntry n e.number e.version (fun e => { e with deferred := false })
    else toUnloading n e.number e.version s
  | .stale =>
    if wanted.any (fun r => r.number = e.number && e.version < r.version) then s
    else toUnloading n e.number e.version s
  | .unloading => s

/-- R70: a recompute of one oven's loaded set, without the slot choice; the second pass judges the entries in loaded-set order
(A60). -/
def recompute (n : Nat) (s : State) : State :=
  let s := appendWanted n s
  let wanted := s.wanted n
  let before := (s.loadedOf n).length
  let s := (s.loadedOf n).foldl (judgeEntry n wanted) s
  if (s.loadedOf n).length < before then appendWanted n s else s

/-- R70: a recompute of one oven, then the slot choice. -/
def recomputeOne (n : Nat) (s : State) : State := slotChoice (recompute n s)

/-- R70: a recompute of every oven in service, then the slot choice (A13). -/
def recomputeAll (s : State) : State :=
  slotChoice ((allSlots.filter (fun n => (s.oven n).state = .inService)).foldl (fun s n => recompute n s) s)

/-- R71: every LOADED entry of a superseded version becomes STALE, in every loaded set. -/
def staleAll (number version : Nat) (s : State) : State :=
  { s with loaded := s.loaded.map (fun l => l.map (fun e =>
      if e.is number version && e.state = .loaded then { e with state := .stale } else e)) }

/-- R73: an UNLOADING entry is removed. -/
def unloaded (n number version : Nat) (s : State) : State := recomputeOne n (removeEntry n number version s)

/-! ### Replies of the oven (R78, R79) -/

/-- R78, R79: the entry becomes LOADED, its slot is freed, older STALE entries go toward UNLOADING, the slot choice. -/
def entryLoaded (n number version : Nat) (s : State) : State :=
  slotChoice (unloadOlder n number version
    ((endTransfer n s).modEntry n number version (fun e => { e with state := .loaded })))

/-- R79: the stream begins. -/
def startStream (n number version : Nat) (s : State) : State :=
  let s := s.modEntry n number version (fun e => { e with state := .sending, deadline := none })
  match s.boundSlot n with
  | some k => kick (fillSegments Config.streamPlaces k s)
  | none => s

/-! ### Silence, rejoin, content and capability changes, retirement -/

/-- R82: a transfer ends without counting a try and without DISCARD; the entry returns to PENDING. -/
def transferToPending (n : Nat) (s : State) : State :=
  match s.transferEntry n with
  | some e => (endTransfer n s).modEntry n e.number e.version (fun e => { e with state := .pending })
  | none => s

/-- R82: the oven has fallen SILENT. -/
def distributionSilent (n : Nat) (s : State) : State := slotChoice (transferToPending n s)

/-- R82 step 4: store-empty: every entry returns to PENDING; `sends`, which the step does not name, is left as it was, at 1 in
an entry that was UNLOADING (A70). -/
def emptyStore (n : Nat) (s : State) : State :=
  recompute n (s.setLoaded n ((s.loadedOf n).map (fun e =>
    { e with state := .pending, retries := 0, clamped := false, deferred := false, deadline := none, crc := none })))

/-- R82: a REJOIN of an oven in service; the UNLOADs are placed in loaded-set order (A60). -/
def distributionRejoin (n : Nat) (storeEmpty : Bool) (s : State) : State :=
  if (s.oven n).state = .inService then
    let s := clearNoRoom n (transferToPending n s)
    let s := ((s.loadedOf n).filter (fun e => e.state = .unloading)).foldl
      (fun s e => sendUnload n e.number e.version s) s
    slotChoice (if storeEmpty then emptyStore n s else s)
  else s

/-- R83: an entry whose content changed, by its state. -/
def contentChanged (n : Nat) (s : State) (e : Entry) : State :=
  let toPending := fun s : State =>
    s.modEntry n e.number e.version (fun e => { e with state := .pending, retries := 0 })
  match e.state with
  | .loaded | .failed => toPending s
  | .offered | .sending => toPending (placeDiscard n e.number e.version (endTransfer n s))
  | .pending | .stale | .unloading => s

/-- R83: a change of the calibration offsets, from the oven record as it was; the entries in loaded-set order (A60), then the slot
choice. -/
def offsetsChanged (n : Nat) (old : Oven) (s : State) : State :=
  let changed := fun e : Entry => match s.recipe e.number e.version with
    | some r => contentOf old r ≠ contentOf (s.oven n) r
    | none => false
  slotChoice (((s.loadedOf n).filter changed).foldl (contentChanged n) s)

/-- R83: a change of the maximum cavity temperature. -/
def maxTempChanged (n oldMax newMax : Nat) (s : State) : State :=
  let changed := fun e : Entry => match (s.recipe e.number e.version).bind Recipe.figures with
    | some f => ((min oldMax newMax : Nat) : Int) < f.highest + (s.oven n).cavity
    | none => false
  slotChoice (((s.loadedOf n).filter changed).foldl (contentChanged n) s)

/-- R84 step 1: an entry whose recipe needs a lost capability is removed. -/
def removeUnfit (n : Nat) (s : State) (e : Entry) : State :=
  let s := if e.state.inTransfer then endTransfer n s else s
  let s := if e.state.counted then placeDiscard n e.number e.version s else s
  removeEntry n e.number e.version s

/-- R85: the entries to bring down, in the order of its steps; of one number, the higher version first (A55). -/
def reductionOrder (l : List Entry) : List Entry :=
  let down := fun st : EntryState =>
    (sortByKey (fun e => e.number * 256 + e.version) (l.filter (fun e => e.state = st))).reverse
  l.filter (·.state.inTransfer) ++ down .loaded ++ down .stale ++ down .unloading

/-- R85: one entry is brought down, while the count is above the capacity. -/
def reduceEntry (n : Nat) (s : State) (e : Entry) : State :=
  if s.counted n ≤ (s.oven n).effectiveCapacity ∨ s.permitNames n e.number e.version then s
  else
    let toPending := fun s : State =>
      s.modEntry n e.number e.version (fun e => { e with state := .pending, retries := 0 })
    match e.state with
    | .offered | .sending => toPending (placeDiscard n e.number e.version (endTransfer n s))
    | .loaded => placeDiscard n e.number e.version (toPending s)
    | .stale | .unloading => placeDiscard n e.number e.version (removeEntry n e.number e.version s)
    | .pending | .failed => s

/-- R84, R85: a capability change of an oven, from its profile as it was. The entries of step 1 are removed in loaded-set order
(A60), and the slot choice R81 calls for after a removal is made after step 2, where the maximum changed, and after step 3
(A61). -/
def capabilityChanged (n : Nat) (old new : Profile) (s : State) : State :=
  let unfit := fun e : Entry => match (s.recipe e.number e.version).bind Recipe.figures with
    | some f => (f.needsSteam && old.steam && !new.steam) || (f.needsProbe && old.probe && !new.probe)
    | none => false
  let s := ((s.loadedOf n).filter unfit).foldl (removeUnfit n) s
  let s := if old.maxTemp ≠ new.maxTemp then maxTempChanged n old.maxTemp new.maxTemp s else s
  let s := recomputeOne n s
  slotChoice ((reductionOrder (s.loadedOf n)).foldl (reduceEntry n) s)

/-- R88: the loaded set of a retired oven is cleared entry by entry. -/
def clearLoaded (n : Nat) (s : State) : State :=
  let s := endTransfer n s
  let s := (s.loadedOf n).foldl (fun s e => removeEntry n e.number e.version s) s
  slotChoice (withdraw .answer .distribution (fun f =>
    f.mark = .oven n && (f.payload.kind = .unload || f.payload.kind = .discard)) s)

/-- R59 steps 4 and 5 as the Distribution Engine takes them: supersession, membership. -/
def publicationTold (superseded : Option (Nat × Nat)) (s : State) : State :=
  recomputeAll (match superseded with
    | some (number, version) => staleAll number version s
    | none => s)

end Sys2Proof.Machine
end

