-- ==== Sys2Proof/Machine/Locks.lean ====
section
/-! DEFINITION. The lock view (R42) and the apply gating (R173, R174), which lean on each other: a change of the lock set may
begin an apply, and an apply puts UPDATE into the lock set. -/

namespace Sys2Proof.Machine

/-- R42: the new set is recorded and, for a record in IN_SERVICE or RETIRING, LOCK_STATE is placed. -/
def recordLocks (n : Nat) (locks : Locks) (s : State) : State :=
  let s := s.modOven n (fun o => { o with locks := locks })
  match (s.oven n).state with
  | .inService | .retiring => placeFor .registry n (.lockState locks) s
  | _ => s

/-- R173: the minute of day lies inside the campaign's window. -/
def Campaign.inWindow (m : Campaign) (minute : Nat) : Bool :=
  if m.windowStart = m.windowEnd then true
  else if m.windowStart < m.windowEnd then m.windowStart ≤ minute && minute < m.windowEnd
  else m.windowStart ≤ minute || minute < m.windowEnd

/-- R173: an oven's cleaning state is CLEANING. -/
def Oven.isCleaning (o : Oven) : Bool :=
  match o.hygiene with
  | some h => h.state = .cleaning
  | none => false

/-- R173: what must hold for a STAGED entry to become APPLYING. -/
def State.gateOpen (s : State) (c n : Nat) : Bool :=
  match s.campaign c, s.centry c n with
  | some m, some e =>
    e.state = .staged && m.state = .running && !s.clockUnset && m.inWindow (minuteOfDay s.clock) &&
      (s.oven n).present && (s.permit n).isNone && !(s.oven n).isCleaning && (s.oven n).locks.isEmpty
  | _, _ => false

/-- R174: the apply begins. UPDATE enters the lock set, which starts no further apply (the oven's one entry is APPLYING). -/
def applyBegin (c n : Nat) (s : State) : State :=
  match s.campaign c with
  | none => s
  | some m =>
    let s := s.modCEntry c n (fun e =>
      { e with state := .applying, deadline := some (s.after Config.applySeconds) })
    let s := placeFor .updateRelay n (.apply m.toVersion) s
    let s := if s.lockView n = (s.oven n).locks then s else recordLocks n (s.lockView n) s
    let attempts := match s.centry c n with | some e => e.attempts | none => 0
    raiseUpdate 2 c n 0 attempts s

/-- R173: the condition is examined for an entry. -/
def gate (c n : Nat) (s : State) : State := if s.gateOpen c n then applyBegin c n s else s

/-- R173: the condition is examined for an oven's STAGED entry, if any. -/
def gateOven (n : Nat) (s : State) : State :=
  match s.campaignWhere n (· = .staged) with
  | some c => gate c n s
  | none => s

/-- R173: the condition is examined for every STAGED entry of a campaign, in ascending oven slot (A63). -/
def gateCampaign (c : Nat) (s : State) : State :=
  match s.campaign c with
  | some m => (m.entries.filter (fun e => e.state = .staged)).foldl (fun s e => gate c e.oven s) s
  | none => s

/-- R173, R184 step 5, R180 step 3: the apply gating of every STAGED entry, the campaigns in ascending order (A63). -/
def gateAll (s : State) : State := allCampaigns.foldl (fun s c => gateCampaign c s) s

/-- R42: the lock view is re-derived; a changed set is recorded, told to the oven, to the Update Relay, and to the
Distribution Engine when UPDATE went (its appearing opens no slot, R77). -/
def deriveLock (n : Nat) (s : State) : State :=
  let old := (s.oven n).locks
  let new := s.lockView n
  if new = old ∨ (s.oven n).state = .vacant then s
  else
    let s := gateOven n (recordLocks n new s)
    if old.update && !new.update then slotChoice s else s

end Sys2Proof.Machine
end

