-- ==== Sys2Proof/Machine/Tickets.lean ====
section
/-! DEFINITION. The Ticket Table and Fault Router (07): routing, the life of a ticket, and its reports to the Registry and the
Update Relay. -/

namespace Sys2Proof.Machine

/-- R133: interval e1, e2 or e3 of a class, in minutes. -/
def TicketClass.interval (c : TicketClass) : Nat → Nat
  | 1 => c.e1
  | 2 => c.e2
  | 3 => c.e3
  | _ => 0

/-- R137, R139, R142: the escalation deadline armed for a ticket of a class at a level, if any. -/
def State.escalationFor (s : State) (cls level : Nat) : Option Nat :=
  if level < 3 ∧ 0 < (s.cls cls).interval (level + 1) then
    some (s.after ((s.cls cls).interval (level + 1) * 60))
  else none

/-- R195: the state byte of a TICKET detail. -/
def noticeTicketState : TicketState → Nat
  | .open => 1
  | .acknowledged => 2
  | .verifying => 3

/-- R195: notice TICKET with a cause or closing reason, the ticket's fields and a state byte. -/
def raiseTicketAs (cause stateByte : Nat) (t : Ticket) (s : State) : State :=
  raise .ticket t.number
    (le 1 cause ++ le 1 t.oven ++ le 1 t.cls ++ le 1 (s.cls t.cls).severity.code ++ le 1 stateByte ++ le 1 t.level ++
      le 2 t.occurrences) s

/-- R195: notice TICKET for an open ticket as it stands. -/
def raiseTicket (cause n : Nat) (s : State) : State :=
  match s.ticket n with
  | some t => raiseTicketAs cause (noticeTicketState t.state) t s
  | none => s

/-- R151, R152: an oven's ticket is reported to the Registry when its class is LOCKOUT, and to the Update Relay when its class
blocks updates. A site-level ticket is not reported. -/
def reportTicket (t : Ticket) (s : State) : State :=
  if t.oven = 0 then s
  else
    let s := if (s.cls t.cls).severity = .lockout then deriveLock t.oven s else s
    if (s.cls t.cls).blocksUpdates then channelChoice s else s

/-- R46, R139, R143: a ticket is created, the chosen entry counts its hit, TICKET OPENED is raised and the ticket reported. -/
def createTicket (oven : Nat) (origin : Origin) (code : Option Nat) (cls : Nat) (active : Bool) (entry : Option Nat)
    (s : State) : State :=
  let number := freeNumber (fun n => (s.ticket n).isSome) (Config.ticketPlaces + 1) s.ticketCounter
  let t : Ticket :=
    { number := number, oven := oven, origin := origin, code := code, cls := cls, state := .open, level := 0
      escalation := s.escalationFor cls 0, reference := none, occurrences := 1, reopens := 0, active := active
      firstSeen := s.clock, lastSeen := s.clock, verification := none, permit := none }
  let s := { s with
    ticketCounter := nextNumber number
    tickets := insertBefore (fun x => number < x.number) t s.tickets }
  let s := match entry with
    | some e => s.setRoute e { s.route e with hits := satAdd 65535 (s.route e).hits 1 }
    | none => s
  reportTicket t (raiseTicket 0 number s)

/-- R150: a ticket is closed with a reason (the code its notice shows). -/
def closeTicket (reason n : Nat) (s : State) : State :=
  match s.ticket n with
  | none => s
  | some t =>
    let s := { s with tickets := s.tickets.filter (fun x => x.number ≠ n) }
    let s := raiseTicketAs reason 0 t s
    if t.holds then reportTicket t s else s

/-- R150: closing reasons as the notice shows them. -/
def reasonVerified : Nat := 5
def reasonUnverified : Nat := 6
def reasonResolved : Nat := 7
def reasonHostClosed : Nat := 8
def reasonWithdrawn : Nat := 9

/-- R150: every ticket still open against a slot is closed WITHDRAWN, in ascending ticket number (A56). -/
def withdrawTickets (n : Nat) (s : State) : State :=
  ((s.tickets.filter (fun t => t.oven = n)).map Ticket.number).foldl (fun s k => closeTicket reasonWithdrawn k s) s

/-- R145: a resolve of an OPEN or ACKNOWLEDGED ticket. -/
def resolveTicket (t : Ticket) (s : State) : State :=
  if t.oven = 0 then closeTicket reasonResolved t.number s
  else
    reportTicket t (s.modTicket t.number (fun t =>
      { t with
        state := .verifying, escalation := none, verification := some (s.after Config.verificationSeconds)
        permit := none }))

/-! ### Routing (R136 to R140) -/

/-- R135: a routing entry matches a fault. -/
def Route.matchesFault (r : Route) (code model : Nat) : Bool :=
  code &&& r.codeMask = r.codePattern &&& r.codeMask && model &&& r.modelMask = r.modelPattern &&& r.modelMask

/-- R138: what the scan decides. -/
inductive ScanResult where
  | absorbed (entry : Nat)
  | taken (cls : Nat) (entry : Option Nat)
  | overflow
  deriving DecidableEq, Repr

/-- R138: a class has room. -/
def State.hasRoom (s : State) (cls : Nat) : Bool := s.openCount cls < (s.cls cls).cap

/-- R138: the scan of the entries left, with whether a TICKET entry has matched. -/
def scanRoutes (s : State) (code model : Nat) : List Nat → Bool → ScanResult
  | [], matched => if !matched && s.hasRoom 0 then .taken 0 none else .overflow
  | e :: es, matched =>
    let r := s.route e
    if r.enabled && r.matchesFault code model then
      if r.absorb then .absorbed e
      else if s.hasRoom r.target then .taken r.target (some e)
      else scanRoutes s code model es true
    else scanRoutes s code model es matched

/-- R140: notice ROUTE_OVERFLOW, cause CLASS_FULL 0 or TABLE_FULL 1. -/
def raiseOverflow (n code : Nat) (origin : Origin) (cause : Nat) (s : State) : State :=
  raise .routeOverflow 0
    (le 1 n ++ le 2 code ++ le 1 (s.oven n).model ++ le 1 origin.code ++ le 1 cause) s

/-- R137: a fault folds into the open ticket of its oven and code. -/
def foldFault (t : Ticket) (s : State) : State :=
  let again := fun t : Ticket =>
    { t with occurrences := satAdd 65535 t.occurrences 1, lastSeen := s.clock, active := true }
  if t.holds then raiseTicket 1 t.number (s.modTicket t.number again)
  else
    let s := s.modTicket t.number (fun t =>
      { again t with
        state := .open, reopens := satAdd 255 t.reopens 1, permit := none, verification := none
        escalation := s.escalationFor t.cls t.level })
    reportTicket t (raiseTicket 2 t.number s)

/-- R136: the records for whose ovens a fault is routed. -/
def OvenState.routed : OvenState → Bool
  | .assigning | .profiling | .awaitingSetup | .testing | .inService => true
  | _ => false

/-- R136 to R140: a fault is routed for an oven. -/
def routeFault (n code : Nat) (origin : Origin) (s : State) : State :=
  if (s.oven n).state.routed = false then s
  else
    match s.tickets.find? (fun t => t.oven = n && t.code = some code) with
    | some t => foldFault t s
    | none =>
      match scanRoutes s code (s.oven n).model (List.range 32) false with
      | .absorbed e => s.setRoute e { s.route e with hits := satAdd 65535 (s.route e).hits 1 }
      | .overflow => raiseOverflow n code origin 0 s
      | .taken cls entry =>
        if Config.ticketPlaces ≤ s.tickets.length then raiseOverflow n code origin 1 s
        else createTicket n origin (some code) cls true entry s

/-- R146: a FAULT frame with state cleared, ignored of a RETIRING oven; of a ticket whose active flag is clear already it changes
last seen alone. -/
def clearFault (n code : Nat) (s : State) : State :=
  if (s.oven n).state.routed = false then s else
  match s.tickets.find? (fun t => t.oven = n && t.code = some code) with
  | none => s
  | some t =>
    let s := s.modTicket t.number (fun t => { t with active := false, lastSeen := s.clock })
    if (s.cls t.cls).autoClear ∧ t.holds ∧ t.active then raiseTicket 4 t.number (resolveTicket t s) else s

/-! ### The verification cook (R147, R148) -/

/-- R147: the oven's tickets in VERIFYING with no verifying permit. -/
def State.unlinked (s : State) (n : Nat) : List Ticket :=
  s.tickets.filter (fun t => t.oven = n && t.state = .verifying && t.permit.isNone)

/-- R147: each takes the new permit's number. -/
def linkTickets (n number : Nat) (s : State) : State :=
  { s with tickets := s.tickets.map (fun t =>
      if t.oven = n && t.state = .verifying && t.permit.isNone then { t with permit := some number } else t) }

/-- R148: the tickets that name an ended permit are closed VERIFIED on COMPLETE, in ascending ticket number (A56), and lose
their link otherwise. -/
def settleTickets (number : Nat) (complete : Bool) (s : State) : State :=
  if complete then
    ((s.tickets.filter (fun t => t.permit = some number)).map Ticket.number).foldl
      (fun s k => closeTicket reasonVerified k s) s
  else
    { s with tickets := s.tickets.map (fun t => if t.permit = some number then { t with permit := none } else t) }

end Sys2Proof.Machine
end

