-- ==== Sys2Proof/Machine/Relay.lean ====
section
/-! DEFINITION. The Update Relay (08): release, failed attempts, suspension and reopening of a transfer, settlement of an apply,
entries, cancel and retirement; and the failed tries of the Distribution Engine (R80), which route a fault as a failed attempt
does. -/

namespace Sys2Proof.Machine

/-! ### Failed tries of a load (R80) -/

/-- R80: the third failed try: the entry becomes FAILED, the slot is freed, part fault 0xFF02 is routed and the notice raised;
the freed slot goes to the next choice (R77). -/
def loadFailed (n number version : Nat) (s : State) : State :=
  let s := (endTransfer n s).modEntry n number version (fun e => { e with state := .failed })
  slotChoice (raiseRecipeEntry n number version 1 (routeFault n 0xFF02 .part s))

/-- R80: with retries below 2 the entry is offered again in the same slot. -/
def loadRetried (n number version k : Nat) (s : State) : State :=
  offer n number version k ((withdrawSegments k s).modEntry n number version (fun e =>
    { e with retries := e.retries + 1, deadline := none }))

/-- R80: a failed try of the oven's entry in OFFERED or SENDING. -/
def failedTry (n : Nat) (s : State) : State :=
  match s.transferEntry n with
  | none => s
  | some e =>
    match s.boundSlot n with
    | some k =>
      if e.retries < 2 then loadRetried n e.number e.version k s else loadFailed n e.number e.version s
    | none => loadFailed n e.number e.version s

/-! ### Releasing a channel (R163) -/

/-- R195: outcomes of a release as the RELAY notice shows them. -/
def outcomeStaged : Nat := 1
def outcomeFailed : Nat := 2
def outcomeAborted : Nat := 3

/-- R163: the release of a channel, with IMAGE_ABORT where the releasing rule calls for it. The channel choice is the
releasing rule's. -/
def releaseChannel (ch outcome : Nat) (abort : Bool) (s : State) : State :=
  match s.channel ch with
  | none => s
  | some b =>
    let s := (withdrawImage ch s).setChannel ch none
    let s := if abort then kickQuiet (enqueue (imageFrame ch b.oven .imageAbort) s) else s
    (raiseReleased ch b.campaign b.oven outcome s).modCEntry b.campaign b.oven (fun e => { e with channel := none })

/-- R163: the release of an entry's channel, if it has one. -/
def releaseEntry (c n outcome : Nat) (abort : Bool) (s : State) : State :=
  match (s.centry c n).bind CEntry.channel with
  | some ch => releaseChannel ch outcome abort s
  | none => s

/-- The attempts of an entry, as an UPDATE notice shows them. -/
def State.attempts (s : State) (c n : Nat) : Nat :=
  match s.centry c n with
  | some e => e.attempts
  | none => 0

/-! ### Cancelled campaigns (R178) -/

/-- R178: the slot of a cancelled campaign empties. -/
def emptyCampaign (c : Nat) (s : State) : State := raise .campaign c (le 1 1) (s.setCampaign c none)

/-- R178: in CANCELLING an APPLYING entry has ended; the Registry is told, the outcome is given in notice UPDATE (DONE 3,
FAILED 4), the entry is removed, and the slot empties with the last. -/
def settleCancelled (c n cause failure : Nat) (s : State) : State :=
  let s := deriveLock n (s.modCEntry c n (fun e =>
    { e with state := if cause = 3 then .done else .failed, deadline := none }))
  let s := (raiseUpdate cause c n failure (s.attempts c n) s).removeCEntry c n
  match s.campaign c with
  | some m => if m.entries.isEmpty then emptyCampaign c s else s
  | none => s

/-! ### Failed attempts (R161) -/

/-- R161: the causes of a failed attempt, by their place in its list. -/
def causeRefused : Nat := 1
def causeHold : Nat := 2
def causeCheckFail : Nat := 3
def causeCheckDeadline : Nat := 4
def causeVersion : Nat := 5
def causeApply : Nat := 6

/-- R161 steps 5 and 6: the attempt is counted. -/
def countAttempt (cause c n : Nat) (s : State) : State :=
  let attempts := s.attempts c n + 1
  let s := s.modCEntry c n (fun e =>
    { e with attempts := attempts, state := if attempts < 2 then .waiting else .failed })
  let s := if attempts < 2 then s else routeFault n 0xFF03 .part s
  raiseUpdate 4 c n cause attempts s

/-- R161: a failed attempt of the oven's entry in a campaign. -/
def failedAttempt (cause c n : Nat) (s : State) : State :=
  match s.campaign c with
  | none => s
  | some m =>
    let s := releaseEntry c n outcomeFailed (cause = causeHold || cause = causeCheckDeadline) s
    let s := s.modCEntry c n (fun e => { e with deadline := none, timeouts := 0 })
    if m.state = .cancelling then channelChoice (settleCancelled c n 4 cause s)
    else if (s.oven n).state = .retiring then
      channelChoice (finishCheck c ((raiseUpdate 4 c n cause (s.attempts c n) s).removeCEntry c n))
    else channelChoice (finishCheck c (countAttempt cause c n s))

/-! ### Timeouts, suspension, reopening (R165, R169, R170) -/

/-- R169, R170: the stream is HELD and the entry SUSPENDED. -/
def suspend (ch : Nat) (s : State) : State :=
  match s.channel ch with
  | none => s
  | some b =>
    let s := s.modChannel ch (fun b => { b with stream := .held, timeout := none })
    let s := s.modCEntry b.campaign b.oven (fun e =>
      { e with state := .suspended, deadline := some (s.after Config.entryHoldSeconds) })
    raiseUpdate 1 b.campaign b.oven 0 (s.attempts b.campaign b.oven) s

/-- R165, R169: the acknowledgement timeout expires: the queued frames are withdrawn, sent becomes acked and the count rises;
then the frames or the IMAGE_BEGIN are placed again, or at the third timeout the entry is suspended. -/
def goBack (ch : Nat) (s : State) : State :=
  match s.channel ch with
  | none => s
  | some b =>
    let count := (match s.centry b.campaign b.oven with | some e => e.timeouts | none => 0) + 1
    let s := (withdrawImage ch s).modChannel ch (fun b => { b with sent := b.acked, timeout := none })
    let s := s.modCEntry b.campaign b.oven (fun e => { e with timeouts := count })
    if 3 ≤ count then suspend ch s
    else
      match b.stream with
      | .opening =>
        kick (enqueueBegin ch (s.modChannel ch (fun b => { b with timeout := some (s.after Config.ackSeconds) })))
      | .streaming => kick (fillImage Config.streamPlaces ch s)
      | .held => s

/-- R170: the oven has fallen SILENT: its TRANSFERRING entry is suspended. -/
def relaySilent (n : Nat) (s : State) : State :=
  match (s.campaignWhere n (· = .transferring)).bind (fun c => s.centry c n) with
  | none => s
  | some e =>
    match e.channel with
    | none => s
    | some ch =>
      suspend ch ((withdrawImage ch s).modChannel ch (fun b =>
        { b with sent := b.acked, timeout := none, check := none }))

/-- R170: the transfer of a channel is reopened from acked. -/
def reopen (ch : Nat) (s : State) : State :=
  match s.channel ch with
  | none => s
  | some b =>
    let s := (withdrawImage ch s).modChannel ch (fun b =>
      { b with sent := b.acked, check := none, stream := .opening, timeout := some (s.after Config.ackSeconds) })
    let s := s.modCEntry b.campaign b.oven (fun e =>
      { e with state := .transferring, deadline := none, timeouts := 0 })
    raiseFeed ch b.campaign b.oven b.taken (kick (enqueueBegin ch s))

/-- R170: the oven's entry in one of the given states, if it has a channel, is reopened. -/
def reopenOven (n : Nat) (p : CEntryState → Bool) (s : State) : State :=
  match ((s.campaignWhere n p).bind (fun c => s.centry c n)).bind CEntry.channel with
  | some ch => reopen ch s
  | none => s

/-- R162, R170, R173: the Registry reports the oven PRESENT. -/
def relayPresent (n : Nat) (s : State) : State :=
  channelChoice (gateOven n (reopenOven n (· = .suspended) s))

/-- R165: an IMAGE_REFUSE to a resume offset above 0: the image is restarted from offset 0. -/
def restartImage (ch : Nat) (s : State) : State :=
  match s.channel ch with
  | none => s
  | some b =>
    let s := (withdrawImage ch s).modChannel ch (fun b =>
      { b with taken := 0, sent := 0, acked := 0, buffer := [], timeout := some (s.after Config.ackSeconds) })
    raiseFeed ch b.campaign b.oven 0 (kick (enqueueBegin ch s))

/-- R163: an entry in TRANSFERRING or SUSPENDED is aborted and removed. -/
def abortEntry (c n : Nat) (s : State) : State := (releaseEntry c n outcomeAborted true s).removeCEntry c n

/-! ### The end of an apply (R175, R176) -/

/-- R175: an APPLYING entry whose oven reports the to-version. -/
def applyDone (c n : Nat) (s : State) : State :=
  match s.campaign c with
  | none => s
  | some m =>
    if m.state = .cancelling then channelChoice (settleCancelled c n 3 0 s)
    else
      let s := s.modCEntry c n (fun e => { e with state := .done, deadline := none })
      let s := raiseUpdate 3 c n 0 (s.attempts c n) s
      channelChoice (finishCheck c (deriveLock n s))

/-- R175: a failed apply; the Registry is told that the oven has no APPLYING entry (A28). -/
def applyFailed (cause c n : Nat) (s : State) : State := deriveLock n (failedAttempt cause c n s)

/-- R175: the oven's APPLYING entry is judged by the firmware version just recorded. -/
def judgeApply (n : Nat) (s : State) : State :=
  match s.campaignWhere n (· = .applying) with
  | none => s
  | some c =>
    match s.campaign c with
    | none => s
    | some m =>
      if (s.oven n).firmware = some m.toVersion then applyDone c n s else applyFailed causeVersion c n s

/-- R176, R38 step 7: a REJOIN at the oven's campaign entry, as it stands at the step. -/
def relayRejoin (n : Nat) (s : State) : State := judgeApply n (reopenOven n CEntryState.isTransfer s)

/-- R176, R38 step 9: a STAGED entry returns to WAITING when image-staged is clear; otherwise its gating is examined. -/
def stagedRejoin (n : Nat) (imageStaged : Bool) (s : State) : State :=
  match s.campaignWhere n (· = .staged) with
  | none => s
  | some c =>
    if imageStaged then gate c n s
    else channelChoice (s.modCEntry c n (fun e => { e with state := .waiting }))

/-! ### Entries (R159, R160), cancel (R178), retirement (R179) -/

/-- R158, R160: the entry of an in-service oven is made, in the place of one kept from a former oven of the slot. -/
def makeEntry (c n : Nat) (s : State) : State :=
  s.modCampaign c (fun m =>
    let e : CEntry :=
      { oven := n, serial := (s.oven n).serial.getD 0
        state := if m.takesVersion (s.oven n).firmware then .waiting else .skipped }
    { m with entries := insertBefore (fun x => n < x.oven) e (m.entries.filter (fun x => x.oven ≠ n)) })

/-- The in-service ovens of a campaign's model class, in ascending slot order. -/
def State.ovensOf (s : State) (m : Campaign) : List Nat :=
  allSlots.filter (fun n => (s.oven n).state = .inService && (s.oven n).model = m.model)

/-- R160: an oven enters service: an entry in each RUNNING campaign of its model class, campaign by campaign in ascending order,
each with its finish check, then the channel choice (A64). -/
def entriesForOven (n : Nat) (s : State) : State :=
  let running := allCampaigns.filter (fun c =>
    match s.campaign c with
    | some m => m.state = .running && m.model = (s.oven n).model
    | none => false)
  if running = [] then s
  else channelChoice (running.foldl (fun s c => finishCheck c (makeEntry c n s)) s)

/-- R158, R160: the campaign holds an entry of the oven in a slot; one kept from a former oven of the slot is not its (A47). -/
def State.holdsEntry (s : State) (m : Campaign) (n : Nat) : Bool :=
  m.entries.any (fun e => e.oven = n && (s.oven n).serial = some e.serial)

/-- R159, R177: entries for the in-service ovens of the model class that have none in the campaign. -/
def entriesForCampaign (c : Nat) (s : State) : State :=
  match s.campaign c with
  | none => s
  | some m =>
    ((s.ovensOf m).filter (fun n => !s.holdsEntry m n)).foldl (fun s n => makeEntry c n s) s

/-- R178 steps 1 to 3 for one entry of a campaign being cancelled. -/
def cancelEntry (c : Nat) (s : State) (e : CEntry) : State :=
  match e.state with
  | .transferring | .suspended => abortEntry c e.oven s
  | .staged =>
    (placeFor .updateRelay e.oven (.discard 0 (Config.imageDropVersion s.draws)) s.drawn).removeCEntry c e.oven
  | .waiting | .done | .failed | .skipped => s.removeCEntry c e.oven
  | .applying => s

/-- R178: a RUNNING or PAUSED campaign is cancelled, the entries of each step in ascending oven slot (A63). -/
def cancelCampaign (c : Nat) (s : State) : State :=
  match s.campaign c with
  | none => s
  | some m =>
    let s := (m.entries.filter (·.state.isTransfer)).foldl (cancelEntry c) s
    let s := (m.entries.filter (fun e => e.state = .staged)).foldl (cancelEntry c) s
    let s := (m.entries.filter (fun e => e.state ≠ .staged && !e.state.isTransfer)).foldl (cancelEntry c) s
    channelChoice
      (if m.entries.any (fun e => e.state = .applying) then
        s.modCampaign c (fun m => { m with state := .cancelling })
      else emptyCampaign c s)

/-- R179: one campaign at the retirement of an oven. -/
def retireEntry (n : Nat) (s : State) (c : Nat) : State :=
  match s.centry c n with
  | none => s
  | some e =>
    match e.state with
    | .transferring | .suspended => finishCheck c (abortEntry c n s)
    | .staged | .waiting => finishCheck c (s.removeCEntry c n)
    | .applying | .done | .failed | .skipped => s

/-- R179: the oven's entries at its retirement, in every campaign, in ascending order, each with its finish check before the next
(A65), then the channel choice (A48). -/
def retireEntries (n : Nat) (s : State) : State := channelChoice (allCampaigns.foldl (retireEntry n) s)

end Sys2Proof.Machine
end

