-- ==== Sys2Proof/Machine/Hygiene.lean ====
section
/-! DEFINITION. The Hygiene Monitor (06): charging, the cleaning state, the cleaning protocol, orders and manual cleans. -/

namespace Sys2Proof.Machine

def State.hygiene (s : State) (n : Nat) : Option Hygiene := (s.oven n).hygiene

def State.modHygiene (s : State) (n : Nat) (f : Hygiene → Hygiene) : State :=
  s.modOven n (fun o => { o with hygiene := o.hygiene.map f })

/-! ### The cleaning state (R113 to R116) -/

/-- R114: the first condition that holds. -/
def Hygiene.judged (h : Hygiene) : CleaningState :=
  if h.clean.isSome then .cleaning
  else if h.residue then .residue
  else if h.settings.lock ≤ h.soil ∨ h.deadline = .passed then .due
  else if h.settings.advise ≤ h.soil ∨ h.order.isSome ∨ h.advance = .passed then .advised
  else .ok

/-- R113: an instant not later than now is taken as expired at once. -/
def State.point (s : State) (t : Nat) : Point := if t ≤ s.clock then .passed else .armed t

/-- R113: the hygiene deadline and the advance point are armed together. -/
def rearmed (s : State) (h : Hygiene) : Hygiene :=
  let t := satAdd Config.maxClock h.lastFull (h.settings.interval * 60)
  { h with deadline := s.point t, advance := s.point (t - 7200) }

/-- R115: the minutes remaining to the hygiene deadline. -/
def State.minutesTo (s : State) : Point → Nat
  | .armed t => s.remaining t / 60
  | .passed => 0

/-- R115: HYGIENE_STATE is placed, for an oven in IN_SERVICE or RETIRING. -/
def placeHygieneState (n : Nat) (s : State) : State :=
  match (s.oven n).state, s.hygiene n with
  | .inService, some h | .retiring, some h =>
    placeFor .hygieneMonitor n
      (.hygieneState h.state h.order h.residue h.soil h.settings.lock (s.minutesTo h.deadline)) s
  | _, _ => s

/-- R195: notice HYGIENE with a cause, a programme and a phase as the notice shows them. -/
def raiseHygiene (n cause programme phase : Nat) (s : State) : State :=
  match s.hygiene n with
  | some h =>
    raise .hygiene n (le 1 cause ++ le 1 h.state.code ++ le 2 h.soil ++ le 1 programme ++ le 1 phase) s
  | none => s

/-- R116: the notice of a change to DUE or RESIDUE. -/
def raiseStanding (n : Nat) (s : State) : State :=
  match (s.hygiene n).map Hygiene.state with
  | some .due => raiseHygiene n 0 0 0 s
  | some .residue => raiseHygiene n 1 0 0 s
  | _ => s

/-- R114, R115: the state is stored, HYGIENE_STATE placed, and the Update Relay told on leaving CLEANING (its being told on
entering opens no apply). The answer says whether the state changed. -/
def storeState (n : Nat) (s : State) : Bool × State :=
  match s.hygiene n with
  | none => (false, s)
  | some h =>
    if h.judged = h.state then (false, s)
    else
      let s := placeHygieneState n (s.modHygiene n (fun h => { h with state := h.judged }))
      (true, if h.state = .cleaning then gateOven n s else s)

/-- R114 to R116: a re-evaluation outside a clean result. -/
def reevaluate (n : Nat) (s : State) : State :=
  match storeState n s with
  | (true, s) => raiseStanding n s
  | (false, s) => s

/-- R114 to R116: a re-evaluation at a clean result, whose notice carries the result. -/
def reevaluateQuiet (n : Nat) (s : State) : State := (storeState n s).2

/-- R111: a charge. -/
def chargeSoil (n charge : Nat) (s : State) : State :=
  reevaluate n (s.modHygiene n (fun h => { h with soil := satAdd 65535 h.soil charge }))

/-! ### Creation of the hygiene part (R128, R129) -/

/-- R115: at a creation HYGIENE_STATE is placed whatever the state. -/
def createPart (n : Nat) (h : Hygiene) (s : State) : State :=
  let h := rearmed s h
  placeHygieneState n (s.modOven n (fun o => { o with hygiene := some { h with state := h.judged } }))

/-- R128: the hygiene part at commissioning, from the setup thresholds, which are cleared. -/
def createHygiene (n : Nat) (s : State) : State :=
  let settings := ((s.oven n).setup).getD {}
  let s := s.modOven n (fun o => { o with setup := none })
  createPart n
    { soil := 0, settings := settings, lastFull := s.clock, deadline := .passed, advance := .passed, state := .ok
      residue := false, clean := none, order := none, completed := 0, aborted := 0 } s

/-- R129: the hygiene part at a restore, with whether anything was clamped. -/
def restoredHygiene (s : State) (r : RestoreRecord) : Hygiene × Bool :=
  let settings := formSettings { advise := some r.advise, lock := some r.lock, interval := some r.interval } {}
  let order := r.order.bind Programme.ofCode
  ({ soil := r.soil, settings := settings.1, lastFull := min r.lastFull s.clock, deadline := .passed
     advance := .passed, state := .ok, residue := r.residue, clean := none, order := order
     completed := r.completed, aborted := r.aborted },
    settings.2 || decide (s.clock < r.lastFull) || (r.order.isSome && order.isNone))

/-- R129: the part is created, and a HYGIENE notice raised when the state is DUE or RESIDUE. -/
def restoreHygiene (n : Nat) (r : RestoreRecord) (s : State) : State :=
  raiseStanding n (createPart n (restoredHygiene s r).1 s)

/-! ### Settings (R112) -/

/-- R112: the settings given replace those recorded; a changed interval rearms the points; the state is re-evaluated. -/
def applySettings (n : Nat) (given : Thresholds) (s : State) : State :=
  reevaluate n (s.modHygiene n (fun h =>
    let formed := (formSettings given h.settings).1
    if formed.interval = h.settings.interval then { h with settings := formed }
    else rearmed s { h with settings := formed }))

/-! ### Cleans (R120 to R125) -/

/-- R119: the reasons of a refused CLEAN_START, in the order of its checks. -/
inductive CleanReason where
  | siteClosed | notInService | permitOpen | cleaning | update | ticketHold | unsupported
  deriving DecidableEq, Repr

def CleanReason.code : CleanReason → Nat
  | .siteClosed => 0 | .notInService => 1 | .permitOpen => 2 | .cleaning => 3 | .update => 4 | .ticketHold => 5
  | .unsupported => 6

/-- R119: what the checks decide. -/
inductive CleanVerdict where
  | refuse (reason : CleanReason)
  | repeated (programme : Programme)
  | allow (programme : Programme)
  deriving DecidableEq, Repr

/-- R118: the oven can run the programme of this code. -/
def Oven.runs (o : Oven) (code : Nat) : Option Programme :=
  match Programme.ofCode code, o.profile with
  | some p, some q => if q.cleaning.canRun p then some p else none
  | _, _ => none

/-- R120: the clean in progress is one whose ALLOW may be repeated for this code. -/
def Clean.repeats (c : Clean) (code : Nat) : Bool := c.programme.code = code && c.phase = none

/-- R119: the checks of a CLEAN_START naming a programme code. -/
def judgeClean (s : State) (n code : Nat) : CleanVerdict :=
  let o := s.oven n
  if s.siteOpen = false then .refuse .siteClosed
  else if o.state ≠ .inService then .refuse .notInService
  else if (s.permit n).isSome then .refuse .permitOpen
  else if o.isCleaning then
    match o.hygiene.bind Hygiene.clean with
    | some c => if c.repeats code then .repeated c.programme else .refuse .cleaning
    | none => .refuse .cleaning
  else if o.locks.update then .refuse .update
  else if s.cleaningBlocked n then .refuse .ticketHold
  else
    match o.runs code with
    | some p => .allow p
    | none => .refuse .unsupported

/-- R120: the clean is recorded and the state becomes CLEANING; then ALLOW. -/
def allowClean (n : Nat) (p : Programme) (s : State) : State :=
  let clean : Clean :=
    { programme := p, startedAt := s.clock, phase := none, deadline := s.after p.deadlineSeconds }
  placeFor .hygieneMonitor n (.cleanAllow p)
    (reevaluate n (s.modHygiene n (fun h => { h with clean := some clean })))

/-- A cleaning state by a number: what a free value names. -/
def CleaningState.ofFree (k : Nat) : CleaningState :=
  match k % 5 with
  | 0 => .ok
  | 1 => .advised
  | 2 => .due
  | 3 => .residue
  | _ => .cleaning

/-- R119: a refusal carries the cleaning state as it stands; of an oven that has no hygiene part it is a free value (A58). -/
def refuseClean (n code : Nat) (reason : CleanReason) (s : State) : State :=
  match s.hygiene n with
  | some h => placeFor .hygieneMonitor n (.cleanRefuse code reason.code h.state) s
  | none =>
    placeFor .hygieneMonitor n
      (.cleanRefuse code reason.code (CleaningState.ofFree (Config.absentCleaningState s.draws))) s.drawn

/-- R119, R120: a CLEAN_START is answered. -/
def cleanStart (n code : Nat) (s : State) : State :=
  match judgeClean s n code with
  | .refuse reason => refuseClean n code reason s
  | .repeated p => placeFor .hygieneMonitor n (.cleanAllow p) s
  | .allow p => allowClean n p s

/-- R121: the phase is one of the programme's and does not go backwards. -/
def Clean.takesPhase (c : Clean) (code : Nat) : Option Phase :=
  match Phase.ofCode code with
  | some p =>
    if p ∈ c.programme.phases ∧ (c.phase.map Phase.code).getD 0 ≤ p.code then some p else none
  | none => none

/-- R121: a CLEAN_PHASE. -/
def cleanPhase (n programme phase : Nat) (s : State) : State :=
  s.modHygiene n (fun h =>
    match h.clean with
    | some c =>
      if c.programme.code = programme then
        match c.takesPhase phase with
        | some p => { h with clean := some { c with phase := some p } }
        | none => h
      else h
    | none => h)

/-- R122 steps 1 to 6: a completed clean is credited. -/
def credited (s : State) (c : Clean) (h : Hygiene) : Hygiene :=
  let h := { h with soil := h.soil - h.soil * c.programme.removal / 8, residue := false }
  let h := if c.programme.isFull then rearmed s { h with lastFull := s.clock } else h
  { h with
    order := match h.order with
      | some p => if p.code ≤ c.programme.code then none else some p
      | none => none
    completed := satAdd 65535 h.completed 1
    clean := none }

/-- R122: a clean is completed: HYGIENE_STATE is placed once, as the state is re-evaluated, also where the order is cleared
(A35). -/
def completeClean (n : Nat) (c : Clean) (s : State) : State :=
  raiseHygiene n 2 (noticeProgramme (some c.programme)) (noticePhase c.phase)
    (reevaluateQuiet n (s.modHygiene n (credited s c)))

/-- R123 step 1: the abandonment leaves residue. -/
def Clean.leavesResidue (c : Clean) : Bool :=
  c.programme.isFull && (c.phase = some .detergent || c.phase = some .rinse)

/-- R123: a clean is abandoned, with the cause its notice shows: ABORTED 3, LAPSED 4, REJOIN 5. -/
def abandonClean (n cause : Nat) (c : Clean) (s : State) : State :=
  raiseHygiene n cause (noticeProgramme (some c.programme)) (noticePhase c.phase)
    (reevaluateQuiet n (s.modHygiene n (fun h =>
      { h with
        residue := h.residue || c.leavesResidue
        aborted := satAdd 65535 h.aborted 1
        clean := none })))

/-- The oven's clean in progress. -/
def State.clean (s : State) (n : Nat) : Option Clean := (s.hygiene n).bind Hygiene.clean

/-- R122: a CLEAN_END; outcome COMPLETE 0, any other code is read as ABORTED. -/
def cleanEnd (n programme outcome : Nat) (s : State) : State :=
  match s.clean n with
  | some c =>
    if c.programme.code = programme then
      if outcome = 0 then completeClean n c s else abandonClean n 3 c s
    else s
  | none => s

/-- R124: the clean lapses, and part fault 0xFF05 is routed. -/
def cleanLapse (n : Nat) (s : State) : State :=
  match s.clean n with
  | some c => routeFault n 0xFF05 .part (abandonClean n 4 c s)
  | none => s

/-- R125: a REJOIN abandons the clean, and HYGIENE_STATE is placed in any case. -/
def hygieneRejoin (n : Nat) (s : State) : State :=
  placeHygieneState n
    (match s.clean n with
      | some c => abandonClean n 5 c s
      | none => s)

/-! ### Clean orders and manual cleans (R126, R127) -/

/-- R126: the order takes the programme named or is cleared; a changed order is told and re-evaluated. -/
def orderClean (n : Nat) (order : Option Programme) (s : State) : State :=
  match s.hygiene n with
  | none => s
  | some h =>
    if h.order = order then s
    else reevaluate n (placeHygieneState n (s.modHygiene n (fun h => { h with order := order })))

/-- R127 steps 1 to 5. -/
def creditedManual (s : State) (h : Hygiene) : Hygiene :=
  { rearmed s { h with soil := 0, residue := false, lastFull := s.clock } with
    order := none
    completed := satAdd 65535 h.completed 1 }

/-- R127: a manual clean. The programme byte of its notice is a free value (A15). -/
def manualClean (n : Nat) (s : State) : State :=
  match s.hygiene n with
  | none => s
  | some h =>
    let s := s.modHygiene n (creditedManual s)
    let s := match storeState n s with
      | (true, s) => s
      | (false, s) => if h.order.isSome then placeHygieneState n s else s
    raiseHygiene n 6 (Config.manualCleanProgramme s.draws).val 0 s.drawn

end Sys2Proof.Machine
end

