-- ==== Sys2Proof/Machine/Registry.lean ====
section
/-! DEFINITION. The Oven Registry (02) and the closures of the Permit Unit (05) that take part in it: presence, discovery,
assignment, profiling, the commissioning test, leaving service, permit closures, claims and rejoins. -/

namespace Sys2Proof.Machine

/-! ### Frames and notices of the Registry -/

/-- R1, R6: a frame of the Registry to node 62, its mark the slot whose record holds the serial, if any (A24). -/
def placeUnassigned (serial : Nat) (payload : Payload) (s : State) : State :=
  place { payload := payload, producer := .registry, mark := .oven ((s.slotOfSerial serial).getD 62), dest := 62 } s

/-- R22: ASSIGN carries the serial and the slot. -/
def placeAssign (n : Nat) (s : State) : State :=
  let serial := (s.oven n).serial.getD 0
  placeUnassigned serial (.assign serial n) s

/-- R22: BARRED carries the serial and the reason, BARRED 0 or SITE_FULL 1. -/
def placeBarred (serial : Nat) (siteFull : Bool) (s : State) : State :=
  placeUnassigned serial (.barred serial siteFull) s

/-- R30: TEST_ORDER carries the two offsets. -/
def placeTestOrder (n : Nat) (s : State) : State :=
  placeFor .registry n (.testOrder (s.oven n).cavity (s.oven n).humidity) s

/-- R195: notice OVEN_PRESENCE with PRESENT 0, SILENT 1 or REJOINED 2, and last heard. -/
def raisePresence (n report : Nat) (s : State) : State :=
  raise .ovenPresence n (le 1 report ++ le 4 (s.oven n).lastHeard) s

/-- R195: notice OVEN_DISCOVERED for a record. -/
def raiseDiscovered (n : Nat) (o : Oven) (expired : Bool) (s : State) : State :=
  raise .ovenDiscovered n
    (le 6 (o.serial.getD 0) ++ le 1 o.model ++ le 1 (o.hint.getD 0 + 128 * expired.toNat)) s

/-- R195: notice COMMISSION_RESULT: PROFILED 0, PASS 1, FAIL 2, TIMEOUT 3, NO_REPLY 4, RETIRED 5. -/
def raiseCommission (n result : Nat) (s : State) : State := raise .commissionResult n (le 1 result) s

/-! ### Presence (R36) -/

/-- R36: the states in which the silence watch runs. -/
def OvenState.watched : OvenState → Bool
  | .profiling | .awaitingSetup | .testing | .inService | .retiring => true
  | _ => false

/-- R4: the states in which a slot's frames are accepted. -/
def OvenState.accepted : OvenState → Bool
  | .assigning | .profiling | .awaitingSetup | .testing | .inService | .retiring => true
  | _ => false

/-- R36: the record becomes PRESENT; the Distribution Engine and the Update Relay are told. -/
def becomePresent (n : Nat) (s : State) : State :=
  relayPresent n (slotChoice (raisePresence n 0 (s.modOven n (fun o => { o with present := true }))))

/-- R36: the oven has been heard. -/
def heard (n : Nat) (s : State) : State :=
  let s := s.modOven n (fun o =>
    { o with
      lastHeard := s.clock
      silence := if o.state.watched then some (s.after Config.silenceSeconds) else o.silence })
  if (s.oven n).present then s else becomePresent n s

/-- R36: the record becomes SILENT; the Distribution Engine and the Update Relay are told. -/
def becomeSilent (n : Nat) (s : State) : State :=
  relaySilent n (distributionSilent n
    (raisePresence n 1 (s.modOven n (fun o => { o with present := false, silence := none }))))

/-! ### Becoming VACANT, leaving service (R21, R35) -/

/-- R21: the Registry's own queued frames for a slot. -/
def registryFrame (n : Nat) (f : OutFrame) : Bool :=
  f.mark = .oven n &&
    (f.payload.kind = .assign || f.payload.kind = .barred || f.payload.kind = .testOrder || f.payload.kind = .lockState)

/-- R150, R21: the slot's tickets are closed WITHDRAWN, and the record becomes VACANT. -/
def vacate (n : Nat) (s : State) : State :=
  withdraw .answer .registry (registryFrame n)
    (withdraw .urgent .registry (registryFrame n) ((withdrawTickets n s).setOven n {}))

/-- R35: the record leaves service. -/
def leaveService (n : Nat) (s : State) : State :=
  let serial := (s.oven n).serial.getD 0
  let s := vacate n (raiseCommission n 5 s)
  if serial ∈ s.barred then placeBarred serial false s else s

/-- R35: the Registry's check of a RETIRING record. -/
def leaveCheck (n : Nat) (s : State) : State :=
  if (s.oven n).state = .retiring ∧ s.permit n = none ∧ s.applying n = false then leaveService n s else s

/-- R24: a serial is added to the barred list, unless it stands there. -/
def barSerial (serial : Nat) (s : State) : State :=
  if serial ∈ s.barred then s else { s with barred := s.barred ++ [serial] }

/-- R33: bar is asked for a serial not listed while the list is full. -/
def State.dismissFull (s : State) (serial : Nat) (bar : Bool) : Bool :=
  bar && decide (serial ∉ s.barred) && decide (Config.barredPlaces ≤ s.barred.length)

/-- R34: bar is asked while the list is full. -/
def State.retireFull (s : State) (bar : Bool) : Bool := bar && decide (Config.barredPlaces ≤ s.barred.length)

/-- R33: the dismissal of a record not yet in service. BARRED is placed when bar is asked, and not for a serial that merely
stands on the list (A50). -/
def dismiss (n : Nat) (bar : Bool) (s : State) : State :=
  let serial := (s.oven n).serial.getD 0
  let s := vacate n (if bar then barSerial serial s else s)
  if bar then placeBarred serial false s else s

/-- R34: the retirement of an oven in service (its effects in the order of A12). -/
def retire (n : Nat) (bar : Bool) (s : State) : State :=
  let s := if bar then barSerial ((s.oven n).serial.getD 0) s else s
  let s := withdrawTickets n (clearLoaded n (retireEntries n s))
  leaveCheck n (s.modOven n (fun o => { o with state := .retiring }))

/-! ### Permit closures (R100 to R103) -/

/-- R101: a permit is removed; within a REJOIN the check of R35 is left to its end. -/
def removePermit (n : Nat) (inRejoin : Bool) (s : State) : State :=
  match s.permit n with
  | none => s
  | some p =>
    let s := gateOven n (unloadDeferred n (dropRef p.recipe p.version (s.setPermit n none)))
    if inRejoin then s else leaveCheck n s

/-- R195: notice PERMIT_LAPSED with cause DEADLINE 0 or REJOIN 1. -/
def raiseLapsed (n : Nat) (p : Permit) (cause : Nat) (s : State) : State :=
  raise .permitLapsed n (le 2 p.number ++ le 2 p.recipe ++ le 1 p.version ++ le 1 cause) s

/-- R99: the charge of a COOK_END, read from the library record. -/
def State.chargeOf (s : State) (p : Permit) (stages : Nat) : Nat :=
  match s.recipe p.recipe p.version with
  | some r => cookCharge r p.summaries stages
  | none => 0

/-- R100: a taken COOK_END closes the permit; outcome COMPLETE 0, any other code as another ending. -/
def endCook (n : Nat) (p : Permit) (outcome stages : Nat) (s : State) : State :=
  let s := chargeSoil n (s.chargeOf p stages) s
  let s := if outcome = 0 then s.modOven n (fun o => { o with cooks := satAdd 65535 o.cooks 1 }) else s
  removePermit n false (settleTickets p.number (outcome = 0) s)

/-- R102, R103 steps 1 to 3. -/
def closeNominal (n : Nat) (p : Permit) (inRejoin : Bool) (s : State) : State :=
  removePermit n inRejoin (settleTickets p.number false (chargeSoil n (s.totalSoil p.recipe p.version) s))

/-- R102: the permit lapses. -/
def lapse (n : Nat) (s : State) : State :=
  match s.permit n with
  | none => s
  | some p => raiseLapsed n p 0 (routeFault n 0xFF04 .part (closeNominal n p false s))

/-- R103: the permit is closed by a REJOIN. -/
def closeByRejoin (n : Nat) (s : State) : State :=
  match s.permit n with
  | none => s
  | some p => raiseLapsed n p 1 (closeNominal n p true s)

/-! ### Discovery, admission, profiling, test (R22 to R32) -/

/-- R22, R39: a VACANT slot becomes DISCOVERED. -/
def discover (n serial model : Nat) (hint : Option Nat) (s : State) : State :=
  let o : Oven :=
    { state := .discovered, serial := some serial, model := model, present := true, lastHeard := s.clock, hint := hint
      comm := some (.hold, s.after Config.holdSeconds) }
  raiseDiscovered n o false (s.setOven n o)

/-- R22, R37: ASSIGN is placed again and the reply deadline rearmed, the try count unchanged. -/
def assignAgain (n : Nat) (s : State) : State :=
  let s := placeAssign n s
  s.modOven n (fun o => { o with comm := some (.reply, s.after Config.assignReplySeconds) })

/-- R22: the hold deadline is rearmed. -/
def rearmHold (n : Nat) (s : State) : State :=
  s.modOven n (fun o => { o with comm := some (.hold, s.after Config.holdSeconds) })

/-- R22: a CLAIM is judged by its serial. -/
def claimSerial (serial model : Nat) (s : State) : State :=
  if serial ∈ s.barred then placeBarred serial false s
  else
    match s.slotOfSerial serial with
    | some n =>
      let s := heard n (s.modOven n (fun o => { o with model := model }))
      match (s.oven n).state with
      | .vacant => s
      | .discovered => rearmHold n s
      | .assigning => assignAgain n s
      | .profiling | .awaitingSetup | .testing | .inService | .retiring => placeAssign n s
    | none =>
      match s.lowestVacant with
      | some n => discover n serial model none s
      | none => placeBarred serial true s

/-- R26, R29: the record returns to DISCOVERED with a new hold deadline, its watch stopped; PRESENT, as R36 has every DISCOVERED
record (A26). -/
def backToDiscovered (n : Nat) (s : State) : State :=
  raiseCommission n 4 (s.modOven n (fun o =>
    { o with
      state := .discovered, comm := some (.hold, s.after Config.holdSeconds), tries := 0
      cap0 := none, cap1 := none, silence := none, present := true }))

/-- R25, R48: ASSIGN is placed with the try count at 1. -/
def assignFirst (n : Nat) (s : State) : State :=
  (assignAgain n s).modOven n (fun o => { o with tries := 1 })

/-- R25: admission of a DISCOVERED record. -/
def admitOven (n group : Nat) (s : State) : State :=
  assignFirst n (s.modOven n (fun o =>
    { o with group := group, hint := none, comm := none, state := .assigning }))

/-- R27: the ASSIGN_ACK of an ASSIGNING record. -/
def takeNode (n : Nat) (s : State) : State :=
  s.modOven n (fun o =>
    { o with
      state := .profiling, tries := 0, present := true, lastHeard := s.clock
      silence := some (s.after Config.silenceSeconds), cap0 := none, cap1 := none
      comm := some (.profile, s.after Config.profileSeconds) })

/-- R28: a CAPABILITY frame 0 with its values clamped; steam and core probe are a yes/no byte each (A54). -/
def gatheredProfile (data : List Byte) : Profile where
  maxTemp := clampNat 180 300 (numAt data 0 2)
  steam := readFlag (numAt data 2 1)
  probe := readFlag (numAt data 3 1)
  cleaning := CleaningSystem.ofCode (numAt data 4 1)
  capacity := clampNat 8 250 (numAt data 5 1)

/-- The four bytes of a firmware version at byte i of a data field. -/
def firmwareAt (data : List Byte) (i : Nat) : Firmware where
  major := numAt data i 1
  minor := numAt data (i + 1) 1
  build := numAt data (i + 2) 2

/-- R40: what the Registry calls a capability change. -/
def capabilityDiffers (old new : Profile) : Bool :=
  old.steam ≠ new.steam || old.probe ≠ new.probe || old.maxTemp ≠ new.maxTemp ||
    min old.capacity Config.loadedPlaces ≠ min new.capacity Config.loadedPlaces

/-- R40: a profile refresh, the record already holding the new values. -/
def refreshed (n : Nat) (old : Option Profile) (new : Profile) (s : State) : State :=
  let s := s.modOven n (fun o => { o with refreshPending := false, gathering := none })
  match old with
  | some p => if capabilityDiffers p new ∧ (s.oven n).state = .inService then capabilityChanged n p new s else s
  | none => s

/-- R28: a completed pair replaces profile, model class and firmware version; what follows depends on the state. -/
def pairComplete (n : Nat) (new : Profile) (model : Nat) (fw : Firmware) (s : State) : State :=
  let old := (s.oven n).profile
  let s := s.modOven n (fun o =>
    { o with profile := some new, model := model, firmware := some fw, cap0 := none, cap1 := none })
  match (s.oven n).state with
  | .profiling => raiseCommission n 0 (s.modOven n (fun o => { o with comm := none, state := .awaitingSetup }))
  | .inService | .retiring => refreshed n old new s
  | .vacant | .discovered | .assigning | .awaitingSetup | .testing => s

/-- R28: a CAPABILITY frame is gathered. -/
def gather (n tag : Nat) (data : List Byte) (s : State) : State :=
  if (s.oven n).state.watched then
    let s :=
      match tag with
      | 0 => s.modOven n (fun o => { o with cap0 := some (gatheredProfile data) })
      | 1 => s.modOven n (fun o => { o with cap1 := some (numAt data 0 1, firmwareAt data 1) })
      | _ => s
    match (s.oven n).cap0, (s.oven n).cap1 with
    | some p, some (model, fw) => pairComplete n p model fw s
    | _, _ => s
  else s

/-- R31: the test passes and the oven enters service. -/
def testPassed (n : Nat) (s : State) : State :=
  let s := createHygiene n (s.modOven n (fun o => { o with comm := none, state := .inService }))
  let s := placeFor .registry n (.lockState (s.oven n).locks) s
  entriesForOven n (recomputeOne n (raiseCommission n 1 s))

/-- R32: the test ends without service; FAIL 2 for a report, TIMEOUT 3 for an expiry. -/
def testFailed (n result : Nat) (s : State) : State :=
  raiseCommission n result
    (routeFault n 0xFF01 .part (s.modOven n (fun o => { o with comm := none, state := .awaitingSetup })))

/-! ### Rejoin (R37 to R39) -/

/-- R37: frame 0 of a REJOIN. -/
def rejoin0 (data : List Byte) : Rejoin0 where
  serial := numAt data 0 6
  believed := numAt data 6 1
  storeEmpty := numAt data 7 1 % 2 = 1
  imageStaged := numAt data 7 1 / 2 % 2 = 1

/-- R37: the believed slot when it is 1..32. -/
def Rejoin0.slot (r : Rejoin0) : Option Nat := if isSlot r.believed then some r.believed else none

/-- R38: a REJOIN of an oven in IN_SERVICE or RETIRING. -/
def rejoinService (n : Nat) (r : Rejoin0) (fw : Firmware) (s : State) : State :=
  let s := raisePresence n 2 (heard n s)
  let s := if r.believed = n then s else placeAssign n s
  let s := s.modOven n (fun o =>
    { o with
      firmware := some fw, cap0 := none, cap1 := none, refreshPending := true
      gathering := some (s.after Config.gatheringSeconds) })
  let s := hygieneRejoin n (closeByRejoin n s)
  let s := distributionRejoin n r.storeEmpty (relayRejoin n s)
  let s := stagedRejoin n r.imageStaged s
  leaveCheck n (placeFor .registry n (.lockState (s.oven n).locks) s)

/-- R37: a REJOIN of an oven in PROFILING, AWAITING_SETUP or TESTING. -/
def rejoinCommissioning (n : Nat) (r : Rejoin0) (fw : Firmware) (s : State) : State :=
  let s := (heard n s).modOven n (fun o => { o with firmware := some fw, cap0 := none, cap1 := none })
  let s := if r.believed = n then s else placeAssign n s
  if (s.oven n).state = .testing then placeTestOrder n s else s

/-- R39: a REJOIN whose serial is held by no record. -/
def rejoinUnknown (r : Rejoin0) (s : State) : State :=
  if r.serial ∈ s.barred then placeBarred r.serial false s
  else if s.siteOpen then claimSerial r.serial 0 s
  else
    let believed := r.slot.bind (fun n => if (s.oven n).state = .vacant then some n else none)
    match believed.orElse (fun _ => s.lowestVacant) with
    | some n => discover n r.serial 0 r.slot s
    | none => placeBarred r.serial true s

/-- R37 to R39: a completed REJOIN is taken by its serial. -/
def takeRejoin (r : Rejoin0) (fw : Firmware) (s : State) : State :=
  match s.slotOfSerial r.serial with
  | none => rejoinUnknown r s
  | some n =>
    match (s.oven n).state with
    | .vacant => s
    | .discovered =>
      let s := rearmHold n (heard n s)
      match r.slot with
      | some k => s.modOven n (fun o => { o with hint := some k })
      | none => s
    | .assigning => if r.believed = n then takeNode n (heard n s) else assignAgain n (heard n s)
    | .profiling | .awaitingSetup | .testing => rejoinCommissioning n r fw s
    | .inService | .retiring => rejoinService n r fw s

/-- R37: the frame 0 held for a source node. -/
def State.heldRejoin (s : State) (source : Nat) : Option Rejoin0 :=
  (s.rejoinHeld.find? (fun x => x.1 = source)).map Prod.snd

/-- R37: the frame 0 held for a source node is cleared. -/
def dropHeld (source : Nat) (s : State) : State :=
  { s with rejoinHeld := s.rejoinHeld.filter (fun x => x.1 ≠ source) }

/-- R37: a REJOIN frame from a source node. -/
def rejoinFrame (source tag : Nat) (data : List Byte) (s : State) : State :=
  match tag with
  | 0 =>
    let s := dropHeld source s
    { s with rejoinHeld := insertBefore (fun x => source < x.1) (source, rejoin0 data) s.rejoinHeld }
  | 1 =>
    match s.heldRejoin source with
    | some r => if numAt data 0 4 = r.serial % 2 ^ 32 then takeRejoin r (firmwareAt data 4) (dropHeld source s) else s
    | none => s
  | _ => s

end Sys2Proof.Machine
end

