-- ==== Sys2Proof/Machine/Permits.lean ====
section
/-! DEFINITION. The Permit Unit (05): judging and granting start requests, stage summaries, the end of a cook, the revoke. -/

namespace Sys2Proof.Machine

/-- Section 1.3: the refusal reasons of a PERMIT. -/
inductive PermitReason where
  | siteClosed | notInService | locked | cleanRequired | residue | cleaning | busy | notLoaded | superseded | withdrawn
  deriving DecidableEq, Repr

def PermitReason.code : PermitReason → Nat
  | .siteClosed => 1 | .notInService => 2 | .locked => 3 | .cleanRequired => 4 | .residue => 5 | .cleaning => 6
  | .busy => 7 | .notLoaded => 8 | .superseded => 9 | .withdrawn => 10

/-- R91, R93: what the checks decide. -/
inductive PermitVerdict where
  | refuse (reason : PermitReason)
  | again (permit : Permit)
  | grant (recipe : Recipe)
  deriving DecidableEq, Repr

/-- R91 check 4: the reason a cleaning state gives, if it bars a start. -/
def CleaningState.bars : CleaningState → Option PermitReason
  | .due => some .cleanRequired
  | .residue => some .residue
  | .cleaning => some .cleaning
  | .ok | .advised => none

/-- R92: the recipe check. -/
def recipeCheck (s : State) (n number version : Nat) : PermitVerdict :=
  match s.recipe number version with
  | none => .refuse .notLoaded
  | some r =>
    if r.state = .withdrawing ∧ r.superseded = false then .refuse .withdrawn
    else
      match (s.entry n number version).map Entry.state with
      | some .loaded | some .stale => .grant r
      | some .unloading => .refuse (if r.state = .withdrawing then .superseded else .notLoaded)
      | _ => .refuse .notLoaded

/-- R93: the permit is OPEN, names the version and holds no summary. -/
def Permit.repeats (p : Permit) (number version : Nat) : Bool :=
  !p.stopping && p.recipe = number && p.version = version && p.summaries.isEmpty

/-- R91 to R93: the checks of a START_REQUEST. -/
def judgeStart (s : State) (n number version : Nat) : PermitVerdict :=
  let o := s.oven n
  if s.siteOpen = false then .refuse .siteClosed
  else if o.state ≠ .inService then .refuse .notInService
  else if o.locks.isEmpty = false then .refuse .locked
  else
    match (o.hygiene.map Hygiene.state).bind CleaningState.bars with
    | some reason => .refuse reason
    | none =>
      match s.permit n with
      | some p => if p.repeats number version then .again p else .refuse .busy
      | none => recipeCheck s n number version

/-- R95: the grant is expected to bring the oven to its lock threshold. -/
def lastBeforeClean (o : Oven) (r : Recipe) : Bool :=
  match o.hygiene, r.figures with
  | some h, some f => h.settings.lock ≤ h.soil + f.totalSoil
  | _, _ => false

/-- R46, R94: the number a new permit takes. -/
def State.permitNumber (s : State) : Nat :=
  freeNumber (fun k => allSlots.any (fun n => match s.permit n with | some p => p.number = k | none => false)) 33
    s.permitCounter

/-- R94: the permit as created. -/
def newPermit (s : State) (n : Nat) (r : Recipe) : Permit where
  number := s.permitNumber
  recipe := r.number
  version := r.version
  stopping := false
  grantedAt := s.clock
  deadline := s.after (permitSeconds (match r.figures with | some f => f.duration | none => 0))
  lastBeforeClean := lastBeforeClean (s.oven n) r
  target := !(s.unlinked n).isEmpty
  summaries := []

/-- R93, R94: PERMIT with outcome GRANTED. -/
def placeGrant (n : Nat) (p : Permit) (s : State) : State :=
  placeFor .permitUnit n (.permitGranted p.number p.lastBeforeClean (s.oven n).locks) s

/-- R94: a grant. The Update Relay's being told opens no apply. -/
def grantPermit (n : Nat) (r : Recipe) (s : State) : State :=
  let p := newPermit s n r
  let s := { s with permitCounter := nextNumber p.number }
  placeGrant n p (linkTickets n p.number (addRef r.number r.version (s.setPermit n (some p))))

/-- R91: a START_REQUEST is judged and answered. -/
def startRequest (n number version : Nat) (s : State) : State :=
  match judgeStart s n number version with
  | .refuse reason => placeFor .permitUnit n (.permitRefused reason.code (s.oven n).locks) s
  | .again p => placeGrant n p s
  | .grant r => grantPermit n r s

/-- The step count of a permit's recipe version. -/
def State.stepCount (s : State) (p : Permit) : Nat :=
  match s.recipe p.recipe p.version with
  | some r => r.steps.length
  | none => 0

/-- R98: a summary is stored at its stage index. -/
def storeSummary (x : Summary) (l : List Summary) : List Summary :=
  insertBefore (fun y => x.index < y.index) x (l.filter (fun y => y.index ≠ x.index))

/-- R98: the summary of a STAGE_SUMMARY payload whose mode is valid (R3). -/
def summaryOf (data : List Byte) : Summary where
  index := numAt data 2 1 % 32
  mode := (Mode.ofCode (numAt data 2 1 / 32)).getD .dry
  temperature := numAt data 3 2
  humidity := min 100 (numAt data 5 1)
  seconds := numAt data 6 2

/-- R98: a STAGE_SUMMARY. -/
def stageSummary (n : Nat) (data : List Byte) (s : State) : State :=
  match s.permit n with
  | some p =>
    let x := summaryOf data
    if numAt data 0 2 = p.number ∧ 1 ≤ x.index ∧ x.index ≤ s.stepCount p then
      s.setPermit n (some { p with summaries := storeSummary x p.summaries })
    else s
  | none => s

/-- R99: a COOK_END. -/
def cookEnd (n number outcome stages : Nat) (s : State) : State :=
  match s.permit n with
  | some p => if p.number = number then endCook n p outcome stages s else s
  | none => s

/-- R104: STOP is placed for the oven's permit, which becomes STOPPING. -/
def revoke (n : Nat) (p : Permit) (s : State) : State :=
  placeFor .permitUnit n (.stop p.number) (s.setPermit n (some { p with stopping := true }))

end Sys2Proof.Machine
end

