-- ==== Sys2Proof/Machine/Alarms.lean ====
section
/-! DEFINITION. The deadlines (09): what each expiry does, the list of those armed, and the frame every command stands in: it is
taken only while the main domain runs (R181), and with a saturated clock what it arms expires in the same event (R183). -/

namespace Sys2Proof.Machine

/-! ### The Oven Registry -/

/-- The instant of an oven's commissioning deadline, when it is of a kind. -/
def Oven.commAt (o : Oven) (k : CommKind) : Option Nat :=
  match o.comm with
  | some (k', t) => if k' = k then some t else none
  | none => none

/-- R23: the hold deadline of a DISCOVERED record. -/
def holdExpiry (n : Nat) (s : State) : State :=
  if s.due ((s.oven n).commAt .hold) then raiseDiscovered n (s.oven n) true (vacate n s) else s

/-- R26: the reply deadline of an ASSIGNING record. -/
def assignReplyExpiry (n : Nat) (s : State) : State :=
  if s.due ((s.oven n).commAt .reply) then
    if (s.oven n).tries < 3 then (assignAgain n s).modOven n (fun o => { o with tries := o.tries + 1 })
    else backToDiscovered n s
  else s

/-- R29: the profile deadline. -/
def profileExpiry (n : Nat) (s : State) : State :=
  if s.due ((s.oven n).commAt .profile) then backToDiscovered n s else s

/-- R32: the test deadline. -/
def testExpiry (n : Nat) (s : State) : State :=
  if s.due ((s.oven n).commAt .test) then testFailed n 3 s else s

/-- R36: the silence deadline. -/
def silenceExpiry (n : Nat) (s : State) : State := if s.due (s.oven n).silence then becomeSilent n s else s

/-- R40: the gathering deadline. -/
def gatheringExpiry (n : Nat) (s : State) : State :=
  if s.due (s.oven n).gathering then
    s.modOven n (fun o => { o with cap0 := none, cap1 := none, refreshPending := false, gathering := none })
  else s

/-! ### The Distribution Engine -/

/-- The instant of an entry's deadline, when it is of a kind. -/
def Entry.timerAt (e : Entry) (k : EntryTimer) : Option Nat :=
  match e.deadline with
  | some (k', t) => if k' = k then some t else none
  | none => none

/-- The instant of the deadline of a kind of the oven's entry in OFFERED or SENDING. -/
def State.transferTimer (s : State) (n : Nat) (k : EntryTimer) : Option Nat :=
  (s.transferEntry n).bind (fun e => e.timerAt k)

/-- R78: the REPLY deadline of the oven's OFFERED entry. -/
def offerReplyExpiry (n : Nat) (s : State) : State := if s.due (s.transferTimer n .reply) then failedTry n s else s

/-- R79: the PROGRESS deadline of the oven's SENDING entry. -/
def progressExpiry (n : Nat) (s : State) : State := if s.due (s.transferTimer n .progress) then failedTry n s else s

/-- R73: UNLOAD is placed again. -/
def unloadAgain (n number version : Nat) (s : State) : State :=
  let s := placeFor .distribution n (.unload number version) s
  s.modEntry n number version (fun e =>
    { e with sends := e.sends + 1, deadline := some (.unload, s.after Config.distributionSeconds) })

/-- R73: the UNLOAD deadline of an UNLOADING entry. -/
def unloadExpiry (n number version : Nat) (s : State) : State :=
  match s.entry n number version with
  | some e =>
    if e.state = .unloading ∧ s.due (e.timerAt .unload) = true then
      if e.sends < 3 then unloadAgain n number version s else unloaded n number version s
    else s
  | none => s

/-! ### Permits and hygiene -/

/-- R102: the permit deadline. -/
def permitExpiry (n : Nat) (s : State) : State :=
  if s.due ((s.permit n).map Permit.deadline) then lapse n s else s

/-- R113: a point of the hygiene interval whose instant the clock has reached. -/
def State.reached (s : State) : Point → Bool
  | .armed t => t ≤ s.clock
  | .passed => false

/-- R113: the hygiene deadline. -/
def hygieneExpiry (n : Nat) (s : State) : State :=
  if (s.hygiene n).any (fun h => s.reached h.deadline) then
    reevaluate n (s.modHygiene n (fun h => { h with deadline := .passed }))
  else s

/-- R113: the advance point. -/
def advanceExpiry (n : Nat) (s : State) : State :=
  if (s.hygiene n).any (fun h => s.reached h.advance) then
    reevaluate n (s.modHygiene n (fun h => { h with advance := .passed }))
  else s

/-- R124: the clean deadline. -/
def cleanExpiry (n : Nat) (s : State) : State := if s.due ((s.clean n).map Clean.deadline) then cleanLapse n s else s

/-! ### Tickets -/

/-- R142: the ticket climbs one level. -/
def escalate (k : Nat) (s : State) : State :=
  raiseTicket 3 k (s.modTicket k (fun t =>
    { t with level := t.level + 1, escalation := s.escalationFor t.cls (t.level + 1) }))

/-- R142: the escalation deadline. -/
def escalationExpiry (k : Nat) (s : State) : State :=
  if s.due ((s.ticket k).bind Ticket.escalation) then escalate k s else s

/-- R149: the verification deadline. -/
def verificationExpiry (k : Nat) (s : State) : State :=
  if s.due ((s.ticket k).bind Ticket.verification) then closeTicket reasonUnverified k s else s

/-! ### The Update Relay -/

/-- The instant of the deadline of the oven's entry in a campaign, when the entry is in a state. -/
def State.entryDeadline (s : State) (c n : Nat) (st : CEntryState) : Option Nat :=
  match s.centry c n with
  | some e => if e.state = st then e.deadline else none
  | none => none

/-- R171: the HOLD deadline of a SUSPENDED entry. -/
def entryHoldExpiry (c n : Nat) (s : State) : State :=
  if s.due (s.entryDeadline c n .suspended) then failedAttempt causeHold c n s else s

/-- R175: the APPLY deadline of an APPLYING entry. -/
def applyExpiry (c n : Nat) (s : State) : State :=
  if s.due (s.entryDeadline c n .applying) then leaveCheck n (applyFailed causeApply c n s) else s

/-- R165, R169: the acknowledgement timeout of a channel. -/
def ackExpiry (ch : Nat) (s : State) : State :=
  if s.due ((s.channel ch).bind Binding.timeout) then goBack ch s else s

/-- R172: the check deadline of a channel. -/
def checkExpiry (ch : Nat) (s : State) : State :=
  match s.channel ch with
  | some b => if s.due b.check then failedAttempt causeCheckDeadline b.campaign b.oven s else s
  | none => s

/-- R173: the campaign's window has a start, and the clock stands at the second at which that minute begins. -/
def State.windowOpens (s : State) (c : Nat) : Bool :=
  match s.campaign c with
  | some m =>
    decide (m.windowStart ≠ m.windowEnd) && decide (s.clock % 60 = 0) && decide (minuteOfDay s.clock = m.windowStart)
  | none => false

/-- R173: a window start. -/
def windowStart (c : Nat) (s : State) : State := if s.windowOpens c then gateCampaign c s else s

/-! ### The armed deadlines -/

/-- An armed deadline: its instant, the command that takes its expiry, and what the expiry does. -/
structure Alarm where
  instant : Nat
  command : Instr
  expire : State → State

/-- An alarm of an armed instant. -/
def alarmAt (t : Option Nat) (command : Instr) (expire : State → State) : List Alarm :=
  match t with
  | some t => [{ instant := t, command := command, expire := expire }]
  | none => []

/-- The instant of a point that is still armed. -/
def Point.instant : Point → Option Nat
  | .armed t => some t
  | .passed => none

/-- The armed deadlines of an oven record, its permit and its hygiene part. -/
def State.ovenAlarms (s : State) (n : Nat) : List Alarm :=
  let o := s.oven n
  alarmAt (o.commAt .hold) (.holdDeadlineExpiry n) (holdExpiry n) ++
  alarmAt (o.commAt .reply) (.assignReplyDeadline n) (assignReplyExpiry n) ++
  alarmAt (o.commAt .profile) (.profileDeadline n) (profileExpiry n) ++
  alarmAt (o.commAt .test) (.testDeadline n) (testExpiry n) ++
  alarmAt o.silence (.silenceDeadline n) (silenceExpiry n) ++
  alarmAt o.gathering (.gatheringDeadline n) (gatheringExpiry n) ++
  alarmAt ((s.permit n).map Permit.deadline) (.permitDeadline n) (permitExpiry n) ++
  alarmAt ((s.hygiene n).bind (fun h => h.deadline.instant)) (.hygieneDeadline n) (hygieneExpiry n) ++
  alarmAt ((s.hygiene n).bind (fun h => h.advance.instant)) (.advancePoint n) (advanceExpiry n) ++
  alarmAt ((s.clean n).map Clean.deadline) (.cleanDeadline n) (cleanExpiry n)

/-- The armed deadlines of an oven's loaded set. -/
def State.loadedAlarms (s : State) (n : Nat) : List Alarm :=
  alarmAt (s.transferTimer n .reply) (.offerReplyDeadline n) (offerReplyExpiry n) ++
  alarmAt (s.transferTimer n .progress) (.progressDeadline n) (progressExpiry n) ++
  ((s.loadedOf n).filter (fun e => e.state = .unloading)).flatMap (fun e =>
    alarmAt (e.timerAt .unload) (.unloadDeadline n e.number e.version) (unloadExpiry n e.number e.version))

/-- The armed deadlines of a ticket. -/
def Ticket.alarms (t : Ticket) : List Alarm :=
  alarmAt t.escalation (.escalationDeadline t.number) (escalationExpiry t.number) ++
  alarmAt t.verification (.verificationDeadline t.number) (verificationExpiry t.number)

/-- The armed deadlines of a campaign's entries. -/
def State.campaignAlarms (s : State) (c : Nat) : List Alarm :=
  match s.campaign c with
  | some m => m.entries.flatMap (fun e =>
      alarmAt (s.entryDeadline c e.oven .suspended) (.entryHoldDeadline c e.oven) (entryHoldExpiry c e.oven) ++
      alarmAt (s.entryDeadline c e.oven .applying) (.applyDeadline c e.oven) (applyExpiry c e.oven))
  | none => []

/-- The armed deadlines of a relay channel. -/
def State.channelAlarms (s : State) (ch : Nat) : List Alarm :=
  match s.channel ch with
  | some b =>
    alarmAt b.timeout (.acknowledgementTimeout ch) (ackExpiry ch) ++ alarmAt b.check (.checkDeadline ch) (checkExpiry ch)
  | none => []

/-- The deadlines kept across a warm reset that expire under their own rules as it ends (R188 step 1): those of ovens, permits,
hygiene parts, tickets and campaign entries. The deadlines of loaded sets are dealt with by R89. -/
def State.retainedAlarms (s : State) : List Alarm :=
  allSlots.flatMap s.ovenAlarms ++ s.tickets.flatMap Ticket.alarms ++ allCampaigns.flatMap s.campaignAlarms

/-- Every armed deadline. -/
def State.alarms (s : State) : List Alarm :=
  s.retainedAlarms ++ allSlots.flatMap s.loadedAlarms ++ allChannels.flatMap s.channelAlarms

/-- The alarms whose instant the clock has reached, earliest first; at one instant in the order of the list, which is the model's
choice (A71). -/
def State.dueAlarms (s : State) (l : List Alarm) : List Alarm :=
  sortByKey Alarm.instant (l.filter (fun a => decide (a.instant ≤ s.clock)))

/-! ### Events -/

/-- R183: expiries that fall due in the same event, one after the other. -/
def settleFrom : Nat → State → State
  | 0, s => s
  | fuel + 1, s =>
    match s.dueAlarms s.alarms with
    | [] => s
    | a :: _ => settleFrom fuel (a.expire s)

/-- R183: with the clock at its maximum every deadline armed expires as it is armed (A9). -/
def settle (s : State) : State := if s.clock < Config.maxClock then s else settleFrom 20000 s

/-- R181: an event of the main domain, taken only while it runs. -/
def event (f : State → State) (s : State) : State := if s.power = .running then settle (f s) else s

end Sys2Proof.Machine
end

