-- ==== Sys2Proof/Machine/Bus.lean ====
section
/-! DEFINITION. Frames on and off the wire (R2, R11, R13 to R15) and the frames that reach no block (R3). -/

namespace Sys2Proof.Machine

/-- What a command answers. -/
abbrev Result := Host.Outcome State Fault Refusal

/-! ### Error counts (R13 to R15) -/

/-- R14: notice BUS STATE_CHANGE follows a change of the fault confinement state. -/
def noticeChange (before : Nat) (s : State) : State := if s.confinement = before then s else raiseBus 0 s

/-- R13: the receive error count after a frame received without error. -/
def receivedCount (r : Nat) : Nat := if 127 < r then 120 else r - 1

/-- R13: a frame is received without error. -/
def countReceived (s : State) : State := noticeChange s.confinement { s with rec_ := receivedCount s.rec_ }

/-- R13: an error is detected while receiving: by 1, or by 8 for the dominant bit after the own error flag (A34). -/
def countReceiveError (dominant : Bool) (s : State) : State :=
  noticeChange s.confinement { s with rec_ := satAdd 255 s.rec_ (if dominant then 8 else 1) }

/-- R15: the transmit count would pass 255. -/
def enterBusOff (s : State) : State := raiseBus 0 { s with tec := 255, busOff := true }

/-- R13: an error is detected while transmitting; without acknowledgement it leaves an ERROR_PASSIVE node's count. -/
def countTransmitError (noAcknowledge : Bool) (s : State) : State :=
  if noAcknowledge ∧ s.confinement = 1 then s
  else if 255 < s.tec + 8 then enterBusOff s
  else noticeChange s.confinement { s with tec := s.tec + 8 }

/-- R13: a frame is sent without error. -/
def countSent (s : State) : State := noticeChange s.confinement { s with tec := s.tec - 1 }

/-! ### Reception (R2, R3) -/

/-- R2: a frame that passed the filter enters the inbound buffer, or is lost and counted when 16 are there. -/
def bufferFrame (f : InFrame) (s : State) : State :=
  if s.inbound.length < Config.inboundPlaces then { s with inbound := s.inbound ++ [f] }
  else raiseBus 1 { s with overruns := satAdd 65535 s.overruns 1 }

/-- R2, R15: a frame for node 0 received without error; none is taken in BUS_OFF. -/
def receiveFrame (f : InFrame) (s : State) : State := if s.busOff then s else bufferFrame f (countReceived s)

/-- R3: the frame at the head of the buffer fails a check: it is discarded and counted. -/
def discardFrame (s : State) : State :=
  match s.inbound with
  | f :: rest =>
    if acceptedKind f = none then { s with inbound := rest, discarded := satAdd 65535 s.discarded 1 } else s
  | [] => s

/-! ### Transmission (R11, R15) -/

/-- R11: the frame in the transmitter has been sent: the transmitter is free and the choice of R10 is made. -/
def frameSent (s : State) : State :=
  if s.transmitter.isSome ∧ s.busOff = false then kick { countSent s with transmitter := none } else s

/-- R11, R13: the frame in the transmitter meets an error and stays there. -/
def transmitError (noAcknowledge : Bool) (s : State) : State :=
  if s.transmitter.isSome ∧ s.busOff = false then countTransmitError noAcknowledge s else s

/-- R15: recovery: ERROR_ACTIVE with both counts 0; the held frame is sent first, and then the choice resumes. -/
def busOffRecovery (s : State) : State :=
  if s.busOff then kick (raiseBus 0 { s with busOff := false, tec := 0, rec_ := 0 }) else s

/-! ### Meanings -/

def execFrameReceive (frame : InFrame) (s : State) : Result := .next (event (receiveFrame frame) s)

def execFrameDiscard (s : State) : Result := .next (event discardFrame s)

def execFrameSent (s : State) : Result := .next (event frameSent s)

/-- R11: a frame that loses arbitration stays in the transmitter and is offered again. -/
def execArbitrationLost (s : State) : Result := .next s

def execTransmitError (noAcknowledge : Bool) (s : State) : Result := .next (event (transmitError noAcknowledge) s)

/-- R13, R15: in BUS_OFF node 0 takes no part in the bus. -/
def execReceiveError (dominant : Bool) (s : State) : Result :=
  .next (event (fun s => if s.busOff then s else countReceiveError dominant s) s)

def execBusOffRecovery (s : State) : Result := .next (event busOffRecovery s)

/-- R13: a frame kept out by the filter counts as received without error. -/
def execFilteredFrame (s : State) : Result := .next (event (fun s => if s.busOff then s else countReceived s) s)

end Sys2Proof.Machine
end

