-- ==== Sys2Proof/Machine/Port.lean ====
section
/-! DEFINITION. How a request is carried out and answered (section 10.1, R190 step 4, R193), and the shape of the fields that
responses share (A19). -/

namespace Sys2Proof.Machine

/-- What a request does: its response and the state after it. -/
abbrev Act := State → Reply × State

/-- R193: the request was carried out, with a body. -/
def okWith (body : List Byte) (s : State) : Reply × State := ({ status := .ok, body := body }, s)

/-- R193: the request was carried out. -/
def ok (s : State) : Reply × State := okWith [] s

/-- R193: the request was carried out, with values clamped where the flag says so. -/
def okClamped (clamped : Bool) (s : State) : Reply × State :=
  ({ status := if clamped then .clamped else .ok, body := [] }, s)

/-- R193: a refused request changes no record and has no body. -/
def refuse (status : Status) (s : State) : Reply × State := ({ status := status, body := [] }, s)

/-- R193: a refusal whose rule names a body. -/
def refuseWith (status : Status) (body : List Byte) (s : State) : Reply × State :=
  ({ status := status, body := body }, s)

/-- R190: the outcome is placed in the response slot and the port becomes READY. -/
def carryOut (act : Act) (s : State) : State := { (act s).2 with port := .ready (act s).1 }

/-- The port lets the request be carried out: it is being executed, or the port is IDLE and the request comes as a row of its
own (A4). -/
def State.admits (s : State) (i : Instr) : Bool := s.port = .idle || s.port = .executing i

/-- R189, R190: a request that finds the port busy with another is discarded and sets the overrun flag. -/
def onRequest (i : Instr) (act : Act) (s : State) : State :=
  if s.admits i then carryOut act s else { s with overrun := true }

/-- The meaning of a request row. -/
def request (i : Instr) (act : Act) (s : State) : Result := .next (event (onRequest i act) s)

/-- R183: a reported deadline: its instant and the seconds remaining. -/
def State.deadlineBytes (s : State) (t : Nat) : List Byte := le 4 t ++ le 4 (s.remaining t)

/-- An optional deadline: its instant and the seconds remaining. -/
def State.optDeadline (s : State) (t : Option Nat) : List Byte := optBytes 8 (t.map s.deadlineBytes)

/-- The checks most requests on a slot begin with: RANGE, NO_RECORD. -/
def onRecord (n : Nat) (act : Act) (s : State) : Reply × State :=
  if ¬ isSlot n then refuse .range s
  else if (s.oven n).state = .vacant then refuse .noRecord s
  else act s

/-- The checks of a request on an oven in service: RANGE, NO_RECORD, WRONG_STATE. -/
def onService (n : Nat) (act : Act) (s : State) : Reply × State :=
  onRecord n (fun s => if (s.oven n).state = .inService then act s else refuse .wrongState s) s

end Sys2Proof.Machine
end

