-- ==== Sys2Proof/Machine/BusRequests.lean ====
section
/-! DEFINITION. BUS_LEVELS (R9) and BUS_STATUS (R16). -/

namespace Sys2Proof.Machine

/-- R9. -/
def reqBusLevels (urgent answer bulk image : Nat) (s : State) : Reply × State :=
  if urgent ≤ 3 ∧ answer ≤ 3 ∧ bulk ≤ 3 ∧ image ≤ 3 then
    ok { s with levels := { urgent := urgent, answer := answer, bulk := bulk, image := image } }
  else refuse .range s

/-- R16: the body of BUS_STATUS. -/
def busStatusBody (s : State) : List Byte :=
  le 1 s.confinement ++ le 1 s.tec ++ le 1 s.rec_ ++
  le 1 s.inbound.length ++ le 1 s.urgent.length ++ le 1 s.answer.length ++ le 1 s.bulk.length ++ le 1 s.image.length ++
  le 1 s.levels.urgent ++ le 1 s.levels.answer ++ le 1 s.levels.bulk ++ le 1 s.levels.image ++
  le 2 s.overruns ++ le 2 s.discarded ++ le 2 s.droppedAnswers ++ le 2 s.droppedFrames

/-- R16. -/
def reqBusStatus (clear : Bool) (s : State) : Reply × State :=
  okWith (busStatusBody s)
    (if clear then { s with overruns := 0, discarded := 0, droppedAnswers := 0, droppedFrames := 0 } else s)

def execBusLevels (urgent answer bulk image : Nat) (s : State) : Result :=
  request (.busLevels urgent answer bulk image) (reqBusLevels urgent answer bulk image) s

def execBusStatus (clear : Bool) (s : State) : Result := request (.busStatus clear) (reqBusStatus clear) s

end Sys2Proof.Machine
end

