-- ==== Sys2Proof/Machine/CampaignRequests.lean ====
section
/-! DEFINITION. The requests of the Update Relay (R157, R159, R166, R177 to R179). -/

namespace Sys2Proof.Machine

/-! ### Campaigns -/

/-- R157: the values of a CAMPAIGN_PUT are in their ranges. -/
def campaignInRange (a : CampaignArgs) : Bool :=
  decide (a.fromVersions.length ≤ 4) && decide (1 ≤ a.imageSize) && decide (a.imageSize ≤ Config.maxImage) &&
    decide (a.windowStart ≤ 1439) && decide (a.windowEnd ≤ 1439) && decide (1 ≤ a.concurrency) &&
    decide (a.concurrency ≤ 2)

/-- R157: a DEFINED record with no entries. -/
def newCampaign (a : CampaignArgs) : Campaign where
  model := a.model
  fromVersions := a.fromVersions
  toVersion := a.toVersion
  imageSize := a.imageSize
  imageCrc := a.imageCrc
  windowStart := a.windowStart
  windowEnd := a.windowEnd
  concurrency := a.concurrency
  state := .defined
  entries := []

/-- A campaign slot number. -/
abbrev isCampaign (c : Nat) : Prop := 1 ≤ c ∧ c ≤ 4

/-- R157. -/
def reqCampaignPut (c : Nat) (a : CampaignArgs) (s : State) : Reply × State :=
  if ¬ isCampaign c ∨ campaignInRange a = false then refuse .range s
  else if (s.campaign c).any (fun m => m.state ≠ .defined) then refuse .wrongState s
  else ok (s.setCampaign c (some (newCampaign a)))

/-- The checks of a request on a campaign: RANGE, NO_RECORD. -/
def onCampaign (c : Nat) (act : Campaign → Act) (s : State) : Reply × State :=
  if ¬ isCampaign c then refuse .range s
  else
    match s.campaign c with
    | some m => act m s
    | none => refuse .noRecord s

/-- R159: the campaign becomes RUNNING with its entries made. -/
def startCampaign (c : Nat) (s : State) : State :=
  entriesForCampaign c (s.modCampaign c (fun m => { m with state := .running }))

/-- R159: the numbers of WAITING and SKIPPED entries made. -/
def State.entryCounts (s : State) (c : Nat) : List Byte :=
  match s.campaign c with
  | some m => le 1 (m.count .waiting) ++ le 1 (m.count .skipped)
  | none => le 1 0 ++ le 1 0

/-- R159. -/
def reqCampaignStart (c : Nat) (s : State) : Reply × State :=
  onCampaign c (fun m s =>
    if m.state ≠ .defined then refuse .wrongState s
    else if s.siteOpen = false then refuse .siteState s
    else if s.clockUnset then refuse .wrongState s
    else
      let s := startCampaign c s
      okWith (s.entryCounts c) (channelChoice (finishCheck c s))) s

/-- R177. -/
def reqCampaignPause (c : Nat) (s : State) : Reply × State :=
  onCampaign c (fun m s =>
    match m.state with
    | .running => ok (s.modCampaign c (fun m => { m with state := .paused }))
    | .paused => ok s
    | .defined | .finished | .cancelling => refuse .wrongState s) s

/-- R177: a resume: entries, the finish check (A44), the channel choice, the gating of the STAGED entries. -/
def resumeCampaign (c : Nat) (s : State) : State :=
  gateCampaign c (channelChoice (finishCheck c (startCampaign c s)))

/-- R177. -/
def reqCampaignResume (c : Nat) (s : State) : Reply × State :=
  onCampaign c (fun m s =>
    match m.state with
    | .paused => ok (resumeCampaign c s)
    | .running => ok s
    | .defined | .finished | .cancelling => refuse .wrongState s) s

/-- R178. -/
def reqCampaignCancel (c : Nat) (s : State) : Reply × State :=
  onCampaign c (fun m s =>
    match m.state with
    | .cancelling => ok s
    | .defined | .finished => ok (emptyCampaign c s)
    | .running | .paused => ok (cancelCampaign c s)) s

/-- R177. -/
def reqCampaignClear (c : Nat) (s : State) : Reply × State :=
  onCampaign c (fun m s => if m.state = .finished then ok (s.setCampaign c none) else refuse .wrongState s) s

/-- R179: the deadline of an entry: HOLD 0 or APPLY 1, with the seconds remaining. -/
def State.centryDeadline (s : State) (e : CEntry) : List Byte :=
  optBytes 5 (e.deadline.map (fun t => le 1 (if e.state = .applying then 1 else 0) ++ le 4 (s.remaining t)))

/-- R179: an entry. -/
def State.centryBytes (s : State) (e : CEntry) : List Byte :=
  le 1 e.oven ++ le 6 e.serial ++ le 1 e.state.code ++ le 1 e.attempts ++ optBytes 1 (e.channel.map (le 1)) ++
    le 1 e.timeouts ++ s.centryDeadline e

/-- R179: a campaign record with its entries and the counts of entries in each state. -/
def State.campaignBytes (s : State) (m : Campaign) : List Byte :=
  le 1 m.model ++ listBytes (m.fromVersions.map firmwareBytes) ++ firmwareBytes m.toVersion ++ le 3 m.imageSize ++
    le 4 m.imageCrc ++ le 2 m.windowStart ++ le 2 m.windowEnd ++ le 1 m.concurrency ++ le 1 m.state.code ++
    listBytes (m.entries.map s.centryBytes) ++
    [CEntryState.waiting, .transferring, .suspended, .staged, .applying, .done, .failed, .skipped].flatMap
      (fun st => le 1 (m.count st))

/-- R179: an empty slot is returned as empty. -/
def reqCampaignRead (c : Nat) (s : State) : Reply × State :=
  if ¬ isCampaign c then refuse .range s
  else okWith (match s.campaign c with | some m => 1 :: s.campaignBytes m | none => [0]) s

/-! ### The channels (R166, R179) -/

/-- R162: the free space of a bound channel. -/
def Binding.free (b : Binding) : Nat := Config.channelBytes - (b.taken - b.acked)

/-- R166: an accepted block is written to the buffer, and frames are placed. -/
def feed (ch : Nat) (bytes : List Byte) (s : State) : State :=
  kick (fillImage Config.streamPlaces ch (s.modChannel ch (fun b =>
    { b with buffer := b.buffer ++ bytes, taken := b.taken + bytes.length })))

/-- The image size of a binding's campaign. -/
def State.imageSize (s : State) (b : Binding) : Nat :=
  match s.campaign b.campaign with
  | some m => m.imageSize
  | none => 0

/-- R166. -/
def reqImageBlock (ch offset : Nat) (bytes : List Byte) (s : State) : Reply × State :=
  if ¬ (1 ≤ ch ∧ ch ≤ 2) ∨ bytes.length = 0 ∨ 256 < bytes.length then refuse .range s
  else
    match s.channel ch with
    | none => refuse .wrongState s
    | some b =>
      if offset ≠ b.taken then refuseWith .offset (le 3 b.taken) s
      else if s.imageSize b < offset + bytes.length then refuse .range s
      else if b.free < bytes.length then refuseWith .full (le 2 b.free) s
      else ok (feed ch bytes s)

/-- R179: whether a channel is free 0, bound 1 or draining its last frames 2. -/
def State.channelStanding (s : State) (ch : Nat) : Nat :=
  if (s.channel ch).isSome then 1 else if s.framesQueued ch = 0 then 0 else 2

/-- R179: what is given for a bound channel. -/
def State.bindingBytes (s : State) (ch : Nat) (b : Binding) : List Byte :=
  le 1 b.campaign ++ le 1 b.oven ++ le 1 b.stream.code ++ le 3 b.taken ++ le 3 b.sent ++ le 3 b.acked ++ le 2 b.free ++
    le 1 (s.framesQueued ch) ++ optBytes 4 (b.timeout.map (fun t => le 4 (s.remaining t))) ++
    optBytes 4 (b.check.map (fun t => le 4 (s.remaining t)))

/-- R179: one channel; what is given for a bound channel is zeros of its width for another. -/
def State.channelBytes (s : State) (ch : Nat) : List Byte :=
  le 1 (s.channelStanding ch) ++
    (match s.channel ch with
      | some b => s.bindingBytes ch b
      | none => List.replicate 25 0)

/-- R179. -/
def reqRelayStatus (s : State) : Reply × State := okWith (allChannels.flatMap s.channelBytes) s

/-! ### Meanings -/

def execCampaignPut (slot : Nat) (args : CampaignArgs) (s : State) : Result :=
  request (.campaignPut slot args) (reqCampaignPut slot args) s
def execCampaignStart (slot : Nat) (s : State) : Result := request (.campaignStart slot) (reqCampaignStart slot) s
def execCampaignPause (slot : Nat) (s : State) : Result := request (.campaignPause slot) (reqCampaignPause slot) s
def execCampaignResume (slot : Nat) (s : State) : Result := request (.campaignResume slot) (reqCampaignResume slot) s
def execCampaignCancel (slot : Nat) (s : State) : Result := request (.campaignCancel slot) (reqCampaignCancel slot) s
def execCampaignClear (slot : Nat) (s : State) : Result := request (.campaignClear slot) (reqCampaignClear slot) s
def execCampaignRead (slot : Nat) (s : State) : Result := request (.campaignRead slot) (reqCampaignRead slot) s
def execImageBlock (channel offset : Nat) (bytes : List Byte) (s : State) : Result :=
  request (.imageBlock channel offset bytes) (reqImageBlock channel offset bytes) s
def execRelayStatus (s : State) : Result := request .relayStatus reqRelayStatus s

end Sys2Proof.Machine
end

