-- ==== Sys2Proof/Machine/CareRequests.lean ====
section
/-! DEFINITION. The requests of the Hygiene Monitor (R126, R127) and of the Ticket Table and Fault Router (R134, R135, R143 to
R145, R150, R153). -/

namespace Sys2Proof.Machine

/-! ### Cleaning -/

/-- R126: the order a programme code names: NONE is the fourth of its names. -/
def orderOf : Nat → Option (Option Programme)
  | 0 => some (some .rinse)
  | 1 => some (some .standard)
  | 2 => some (some .intensive)
  | 3 => some none
  | _ => none

/-- R126. -/
def reqCleanOrder (n programme : Nat) (s : State) : Reply × State :=
  match orderOf programme with
  | none => refuse .range s
  | some order => onService n (fun s => ok (orderClean n order s)) s

/-- R127. -/
def reqManualClean (n : Nat) (s : State) : Reply × State :=
  onService n (fun s =>
    if (s.permit n).isSome ∨ (s.oven n).isCleaning = true then refuse .wrongState s else ok (manualClean n s)) s

/-! ### Classes and routes (R134, R135) -/

/-- The ovens with an open ticket of a class, in ascending slot order. -/
def State.ovensWithClass (s : State) (c : Nat) : List Nat :=
  allSlots.filter (fun n => s.tickets.any (fun t => t.oven = n && t.cls = c))

/-- R134: the record a CLASS_SET gives, its cap raised to the open count. -/
def classOf (s : State) (c : Nat) (severity : Severity) (a : ClassArgs) : TicketClass where
  severity := severity
  blocksCleaning := a.blocksCleaning
  blocksUpdates := a.blocksUpdates
  autoClear := a.autoClear
  e1 := a.e1
  e2 := a.e2
  e3 := a.e3
  cap := max a.cap (s.openCount c)

/-- R134: the class is replaced, and its changes reported under R151, oven by oven in ascending slot, and then under R152 in one
channel choice (A62). -/
def setClass (c : Nat) (new : TicketClass) (s : State) : State :=
  let old := s.cls c
  let s := s.setCls c new
  let s :=
    if decide (old.severity = .lockout) = decide (new.severity = .lockout) then s
    else (s.ovensWithClass c).foldl (fun s n => deriveLock n s) s
  if old.blocksUpdates = new.blocksUpdates ∨ s.ovensWithClass c = [] then s else channelChoice s

/-- R134. -/
def reqClassSet (c : Nat) (a : ClassArgs) (s : State) : Reply × State :=
  match Severity.ofCode a.severity with
  | none => refuse .range s
  | some severity =>
    if 7 < c ∨ 1440 < a.e1 ∨ 1440 < a.e2 ∨ 1440 < a.e3 ∨ 64 < a.cap then refuse .range s
    else okClamped (a.cap < s.openCount c) (setClass c (classOf s c severity a) s)

/-- R153: a class with its open count. -/
def State.classBytes (s : State) (c : Nat) : List Byte :=
  let k := s.cls c
  le 1 k.severity.code ++ [flagByte k.blocksCleaning, flagByte k.blocksUpdates, flagByte k.autoClear] ++ le 2 k.e1 ++
    le 2 k.e2 ++ le 2 k.e3 ++ le 1 k.cap ++ le 1 (s.openCount c)

/-- R153. -/
def reqClassRead (s : State) : Reply × State := okWith ((List.range 8).flatMap s.classBytes) s

/-- R135: an entry as ROUTE_PUT writes it, disabled and with no hits. -/
def routeOf (a : RouteArgs) : Route where
  enabled := false
  codePattern := a.codePattern
  codeMask := a.codeMask
  modelPattern := a.modelPattern
  modelMask := a.modelMask
  target := a.target
  absorb := a.action = 1
  hits := 0

/-- R135; action TICKET 0, ABSORB 1. -/
def reqRoutePut (e : Nat) (a : RouteArgs) (s : State) : Reply × State :=
  if 31 < e ∨ 7 < a.target ∨ 1 < a.action then refuse .range s
  else if (s.route e).enabled then refuse .wrongState s
  else ok (s.setRoute e (routeOf a))

/-- R135: the enabled flag of an entry. -/
def setEnabled (e : Nat) (enabled : Bool) (s : State) : Reply × State :=
  if 31 < e then refuse .range s else ok (s.setRoute e { s.route e with enabled := enabled })

/-- R135. -/
def reqRouteEnable (e : Nat) (s : State) : Reply × State := setEnabled e true s

/-- R135. -/
def reqRouteDisable (e : Nat) (s : State) : Reply × State := setEnabled e false s

/-- R153: an entry with its hit count. -/
def Route.bytes (r : Route) : List Byte :=
  [flagByte r.enabled] ++ le 2 r.codePattern ++ le 2 r.codeMask ++ le 1 r.modelPattern ++ le 1 r.modelMask ++
    le 1 r.target ++ [flagByte r.absorb] ++ le 2 r.hits

/-- R153. -/
def reqRouteRead (clear : Bool) (s : State) : Reply × State :=
  okWith ((List.range 32).flatMap (fun e => (s.route e).bytes))
    (if clear then { s with routes := s.routes.map (fun r => { r with hits := 0 }) } else s)

/-! ### Tickets (R143 to R145, R150) -/

/-- R143 step 5: the class or the table has no room. -/
def State.ticketsFull (s : State) (c : Nat) : Bool := !s.hasRoom c || decide (Config.ticketPlaces ≤ s.tickets.length)

/-- R143. -/
def reqTicketOpen (oven c : Nat) (code : Option Nat) (s : State) : Reply × State :=
  if 32 < oven ∨ 7 < c then refuse .range s
  else if oven ≠ 0 ∧ (s.oven oven).state = .vacant then refuse .noRecord s
  else if oven ≠ 0 ∧ ((s.oven oven).state = .discovered ∨ (s.oven oven).state = .retiring) then refuse .wrongState s
  else if code.isSome ∧ s.tickets.any (fun t => t.oven = oven && t.code = code) = true then refuse .inUse s
  else if s.ticketsFull c then refuse .tableFull s
  else
    okWith (le 2 (freeNumber (fun n => (s.ticket n).isSome) (Config.ticketPlaces + 1) s.ticketCounter))
      (createTicket oven .site code c false none s)

/-- R144: a well-formed technician reference. -/
def referenceOk (r : List Byte) : Bool := decide (1 ≤ r.length) && decide (r.length ≤ 16) && printable r

/-- R144: the ticket is ACKNOWLEDGED. -/
def acknowledge (k : Nat) (reference : Option (List Byte)) (s : State) : State :=
  s.modTicket k (fun t =>
    { t with
      state := .acknowledged, escalation := none
      reference := match reference with | some r => some r | none => t.reference })

/-- R144. -/
def reqTicketAck (k : Nat) (reference : Option (List Byte)) (s : State) : Reply × State :=
  if reference.any (fun r => !referenceOk r) then refuse .range s
  else
    match s.ticket k with
    | none => refuse .noRecord s
    | some t => if t.state = .verifying then refuse .wrongState s else ok (acknowledge k reference s)

/-- R145. -/
def reqTicketResolve (k : Nat) (s : State) : Reply × State :=
  match s.ticket k with
  | none => refuse .noRecord s
  | some t => if t.state = .verifying then refuse .wrongState s else ok (resolveTicket t s)

/-- R150. -/
def reqTicketClose (k : Nat) (s : State) : Reply × State :=
  match s.ticket k with
  | none => refuse .noRecord s
  | some _ => ok (closeTicket reasonHostClosed k s)

/-- R153: every field of a ticket, and its class's severity. -/
def State.ticketBytes (s : State) (t : Ticket) : List Byte :=
  le 2 t.number ++ le 1 t.oven ++ le 1 t.origin.code ++ optBytes 2 (t.code.map (le 2)) ++ le 1 t.cls ++
    le 1 t.state.code ++ le 1 t.level ++ s.optDeadline t.escalation ++ optBytes 1 (t.reference.map textBytes) ++
    le 2 t.occurrences ++ le 1 t.reopens ++ [flagByte t.active] ++ le 4 t.firstSeen ++ le 4 t.lastSeen ++
    s.optDeadline t.verification ++ optBytes 2 (t.permit.map (le 2)) ++ le 1 (s.cls t.cls).severity.code

/-- R153. -/
def reqTicketRead (k : Nat) (s : State) : Reply × State :=
  match s.ticket k with
  | none => refuse .noRecord s
  | some t => okWith (s.ticketBytes t) s

/-- R153: a summary. -/
def State.ticketSummary (s : State) (t : Ticket) : List Byte :=
  le 2 t.number ++ le 1 t.oven ++ le 1 t.cls ++ le 1 (s.cls t.cls).severity.code ++ le 1 t.state.code ++ le 1 t.level ++
    le 2 t.occurrences ++ [flagByte t.active] ++ optBytes 2 (t.permit.map (le 2))

/-- R153: the tickets at or after a number, of one oven where one is given. -/
def State.ticketsFrom (s : State) (start : Nat) (oven : Option Nat) : List Ticket :=
  s.tickets.filter (fun t => decide (start ≤ t.number) && (match oven with | some n => t.oven = n | none => true))

/-- R153: the body of TICKET_LIST. -/
def ticketListBody (s : State) (start : Nat) (oven : Option Nat) : List Byte :=
  let l := s.ticketsFrom start oven
  listBytes ((l.take 32).map s.ticketSummary) ++ le 1 s.tickets.length ++
    optBytes 2 ((l[32]?).map (fun t => le 2 t.number))

/-- R153. -/
def reqTicketList (start : Nat) (oven : Option Nat) (s : State) : Reply × State :=
  if oven.any (fun n => 32 < n) then refuse .range s else okWith (ticketListBody s start oven) s

/-! ### Meanings -/

def execCleanOrder (slot programme : Nat) (s : State) : Result :=
  request (.cleanOrder slot programme) (reqCleanOrder slot programme) s
def execManualClean (slot : Nat) (s : State) : Result := request (.manualClean slot) (reqManualClean slot) s
def execClassSet (cls : Nat) (args : ClassArgs) (s : State) : Result := request (.classSet cls args) (reqClassSet cls args) s
def execClassRead (s : State) : Result := request .classRead reqClassRead s
def execRoutePut (entry : Nat) (args : RouteArgs) (s : State) : Result :=
  request (.routePut entry args) (reqRoutePut entry args) s
def execRouteEnable (entry : Nat) (s : State) : Result := request (.routeEnable entry) (reqRouteEnable entry) s
def execRouteDisable (entry : Nat) (s : State) : Result := request (.routeDisable entry) (reqRouteDisable entry) s
def execRouteRead (clear : Bool) (s : State) : Result := request (.routeRead clear) (reqRouteRead clear) s
def execTicketOpen (oven cls : Nat) (code : Option Nat) (s : State) : Result :=
  request (.ticketOpen oven cls code) (reqTicketOpen oven cls code) s
def execTicketAck (ticket : Nat) (reference : Option (List Byte)) (s : State) : Result :=
  request (.ticketAck ticket reference) (reqTicketAck ticket reference) s
def execTicketResolve (ticket : Nat) (s : State) : Result := request (.ticketResolve ticket) (reqTicketResolve ticket) s
def execTicketClose (ticket : Nat) (s : State) : Result := request (.ticketClose ticket) (reqTicketClose ticket) s
def execTicketRead (ticket : Nat) (s : State) : Result := request (.ticketRead ticket) (reqTicketRead ticket) s
def execTicketList (start : Nat) (oven : Option Nat) (s : State) : Result :=
  request (.ticketList start oven) (reqTicketList start oven) s

end Sys2Proof.Machine
end

