-- ==== Sys2Proof/Machine/ClockRequests.lean ====
section
/-! DEFINITION. The requests of the Site Clock (R182, R184, R185) and of the notice set (R199, R201, R202). -/

namespace Sys2Proof.Machine

/-! ### CLOCK_SET (R184, R185) -/

/-- R185: an armed deadline keeps its seconds remaining. -/
def moveDeadline (old new t : Nat) : Nat := satAdd Config.maxClock new (t - old)

/-- R185: a stored instant moves by the step, saturating at 0. -/
def moveInstant (old new t : Nat) : Nat := min Config.maxClock (t + new - old)

def movePoint (old new : Nat) : Point → Point
  | .armed t => .armed (moveDeadline old new t)
  | .passed => .passed

def moveHygiene (old new : Nat) (h : Hygiene) : Hygiene :=
  { h with
    lastFull := moveInstant old new h.lastFull
    deadline := movePoint old new h.deadline
    advance := movePoint old new h.advance
    clean := h.clean.map (fun c =>
      { c with startedAt := moveInstant old new c.startedAt, deadline := moveDeadline old new c.deadline }) }

def moveOven (old new : Nat) (o : Oven) : Oven :=
  { o with
    lastHeard := moveInstant old new o.lastHeard
    comm := o.comm.map (fun x => (x.1, moveDeadline old new x.2))
    gathering := o.gathering.map (moveDeadline old new)
    silence := o.silence.map (moveDeadline old new)
    hygiene := o.hygiene.map (moveHygiene old new) }

def moveEntry (old new : Nat) (e : Entry) : Entry :=
  { e with deadline := e.deadline.map (fun x => (x.1, moveDeadline old new x.2)) }

def movePermit (old new : Nat) (p : Permit) : Permit :=
  { p with grantedAt := moveInstant old new p.grantedAt, deadline := moveDeadline old new p.deadline }

def moveTicket (old new : Nat) (t : Ticket) : Ticket :=
  { t with
    escalation := t.escalation.map (moveDeadline old new)
    firstSeen := moveInstant old new t.firstSeen
    lastSeen := moveInstant old new t.lastSeen
    verification := t.verification.map (moveDeadline old new) }

def moveCampaign (old new : Nat) (m : Campaign) : Campaign :=
  { m with entries := m.entries.map (fun e => { e with deadline := e.deadline.map (moveDeadline old new) }) }

def moveBinding (old new : Nat) (b : Binding) : Binding :=
  { b with timeout := b.timeout.map (moveDeadline old new), check := b.check.map (moveDeadline old new) }

def moveNotice (old new : Nat) (e : Notice) : Notice :=
  { e with first := moveInstant old new e.first, last := moveInstant old new e.last }

/-- R184 steps 2 to 4: every armed deadline and stored instant is moved, and the clock takes its new value, set. -/
def stepClock (new : Nat) (s : State) : State :=
  { s with
    ovens := s.ovens.map (moveOven s.clock new)
    loaded := s.loaded.map (fun l => l.map (moveEntry s.clock new))
    permits := s.permits.map (Option.map (movePermit s.clock new))
    tickets := s.tickets.map (moveTicket s.clock new)
    campaigns := s.campaigns.map (Option.map (moveCampaign s.clock new))
    channels := s.channels.map (Option.map (moveBinding s.clock new))
    notices := s.notices.map (moveNotice s.clock new)
    clock := new
    clockUnset := false }

/-- R184. -/
def reqClockSet (value : Nat) (s : State) : Reply × State :=
  if Config.maxClockSet < value then refuse .range s
  else okWith (le 4 s.clock ++ le 4 value) (gateAll (stepClock value s))

/-- R182. -/
def reqClockRead (s : State) : Reply × State :=
  okWith (le 4 s.clock ++ [flagByte s.clockUnset] ++ le 2 (minuteOfDay s.clock)) s

/-! ### Notices (R199, R201, R202) -/

/-- R199: an entry, and the entries that remain after its removal. -/
def noticeBytes (e : Notice) (remaining : Nat) : List Byte :=
  le 1 e.kind.code ++ le 2 e.subject ++ le 1 e.count ++ le 4 e.first ++ le 4 e.last ++ e.detail ++ le 1 remaining

/-- R199. -/
def reqNoticeRead (s : State) : Reply × State :=
  match s.notices with
  | [] => refuse .noRecord s
  | e :: rest => okWith (noticeBytes e rest.length) { s with notices := rest }

/-- R202: OVEN_PRESENCE for each SILENT oven. -/
def standingPresence (s : State) : State :=
  (allSlots.filter (fun n => (s.oven n).state.watched && !(s.oven n).present)).foldl (fun s n => raisePresence n 1 s) s

/-- R202: HYGIENE for each oven in DUE or RESIDUE. -/
def standingHygiene (s : State) : State := allSlots.foldl (fun s n => raiseStanding n s) s

/-- R202: TICKET for each ticket in OPEN with level 1 or above. -/
def standingTickets (s : State) : State :=
  (s.tickets.filter (fun t => t.state = .open && decide (1 ≤ t.level))).foldl (fun s t => raiseTicket 3 t.number s) s

/-- R202: BUS, when node 0 is not ERROR_ACTIVE. -/
def standingBus (s : State) : State := if s.confinement = 0 then s else raiseBus 0 s

/-- R201: a kind disabled before the request and enabled by it. -/
def newlyEnabled (old new : BitVec 16) (k : NoticeKind) : Bool := !old.getLsbD k.code && new.getLsbD k.code

/-- R201 step 2. -/
def raiseStandings (old new : BitVec 16) (s : State) : State :=
  let s := if newlyEnabled old new .ovenPresence then standingPresence s else s
  let s := if newlyEnabled old new .hygiene then standingHygiene s else s
  let s := if newlyEnabled old new .ticket then standingTickets s else s
  if newlyEnabled old new .bus then standingBus s else s

/-- R201. -/
def reqNoticeEnable (kinds : Nat) (s : State) : Reply × State :=
  let set := BitVec.ofNat 16 kinds
  okWith (le 2 set.toNat) (raiseStandings s.enables set { s with enables := set })

/-! ### Meanings -/

def execClockSet (value : Nat) (s : State) : Result := request (.clockSet value) (reqClockSet value) s
def execClockRead (s : State) : Result := request .clockRead reqClockRead s
def execNoticeRead (s : State) : Result := request .noticeRead reqNoticeRead s
def execNoticeEnable (kinds : Nat) (s : State) : Result := request (.noticeEnable kinds) (reqNoticeEnable kinds) s

end Sys2Proof.Machine
end

