-- ==== Sys2Proof/Machine/Deadlines.lean ====
section
/-! DEFINITION. The meanings of the deadline rows and of WINDOW_START: each takes an expiry that is armed and due (A2). -/

namespace Sys2Proof.Machine

def execHoldDeadlineExpiry (slot : Nat) (s : State) : Result := .next (event (holdExpiry slot) s)
def execAssignReplyDeadline (slot : Nat) (s : State) : Result := .next (event (assignReplyExpiry slot) s)
def execProfileDeadline (slot : Nat) (s : State) : Result := .next (event (profileExpiry slot) s)
def execTestDeadline (slot : Nat) (s : State) : Result := .next (event (testExpiry slot) s)
def execSilenceDeadline (slot : Nat) (s : State) : Result := .next (event (silenceExpiry slot) s)
def execGatheringDeadline (slot : Nat) (s : State) : Result := .next (event (gatheringExpiry slot) s)
def execOfferReplyDeadline (slot : Nat) (s : State) : Result := .next (event (offerReplyExpiry slot) s)
def execProgressDeadline (slot : Nat) (s : State) : Result := .next (event (progressExpiry slot) s)
def execUnloadDeadline (slot number version : Nat) (s : State) : Result :=
  .next (event (unloadExpiry slot number version) s)
def execPermitDeadline (slot : Nat) (s : State) : Result := .next (event (permitExpiry slot) s)
def execHygieneDeadline (slot : Nat) (s : State) : Result := .next (event (hygieneExpiry slot) s)
def execAdvancePoint (slot : Nat) (s : State) : Result := .next (event (advanceExpiry slot) s)
def execCleanDeadline (slot : Nat) (s : State) : Result := .next (event (cleanExpiry slot) s)
def execEscalationDeadline (ticket : Nat) (s : State) : Result := .next (event (escalationExpiry ticket) s)
def execVerificationDeadline (ticket : Nat) (s : State) : Result := .next (event (verificationExpiry ticket) s)
def execEntryHoldDeadline (campaign slot : Nat) (s : State) : Result := .next (event (entryHoldExpiry campaign slot) s)
def execApplyDeadline (campaign slot : Nat) (s : State) : Result := .next (event (applyExpiry campaign slot) s)
def execAcknowledgementTimeout (channel : Nat) (s : State) : Result := .next (event (ackExpiry channel) s)
def execCheckDeadline (channel : Nat) (s : State) : Result := .next (event (checkExpiry channel) s)
def execWindowStart (campaign : Nat) (s : State) : Result := .next (event (windowStart campaign) s)

end Sys2Proof.Machine
end

