-- ==== Sys2Proof/Machine/Frames.lean ====
section
/-! DEFINITION. Dispatch of inbound frames (R3 to R5) and the meanings of the 23 oven-to-KC32 kinds. A frame's row acts on the
frame at the head of the inbound buffer, when it is a frame of that kind (A1). -/

namespace Sys2Proof.Machine

/-- R3: the frame at the head of the buffer, when it is dispatched as a kind, and the state with it taken. -/
def takeHead (k : InKind) (s : State) : Option (InFrame × State) :=
  match s.inbound with
  | f :: rest => if acceptedKind f = some k then some (f, { s with inbound := rest }) else none
  | [] => none

/-- R4: the source-node test. -/
def State.acceptsSource (s : State) (n : Nat) : Bool := decide (isSlot n) && (s.oven n).state.accepted

/-- R4, R5: a frame from a slot: the Registry is told that the slot has been heard (A11), and the owning block takes it. -/
def slotFrame (k : InKind) (block : Nat → InFrame → State → State) (s : State) : State :=
  match takeHead k s with
  | some (f, s) => if s.acceptsSource f.source then block f.source f (heard f.source s) else s
  | none => s

/-! ### The Registry's frames -/

/-- R22: CLAIM. -/
def claimFrame (s : State) : State :=
  match takeHead .claim s with
  | some (f, s) => claimSerial (numAt f.data 0 6) (numAt f.data 6 1) s
  | none => s

/-- R37: REJOIN. -/
def rejoinHead (s : State) : State :=
  match takeHead .rejoin s with
  | some (f, s) => rejoinFrame f.source f.tag f.data s
  | none => s

/-- R27: ASSIGN_ACK. -/
def assignAckFrame (n : Nat) (f : InFrame) (s : State) : State :=
  if (s.oven n).state = .assigning ∧ (s.oven n).serial = some (numAt f.data 0 6) then takeNode n s else s

/-- R28: CAPABILITY. -/
def capabilityFrame (n : Nat) (f : InFrame) (s : State) : State := gather n f.tag f.data s

/-- R36: STATUS: operating mode, door, cavity temperature, as reported (A20). -/
def statusFrame (n : Nat) (f : InFrame) (s : State) : State :=
  let report : LastStatus :=
    { mode := numAt f.data 0 1, door := numAt f.data 1 1, temperature := numAt f.data 2 2 }
  s.modOven n (fun o => { o with lastStatus := some report })

/-- R31, R32: TEST_REPORT: PASS 0, any other value is read as FAIL. -/
def testReportFrame (n : Nat) (f : InFrame) (s : State) : State :=
  if (s.oven n).state = .testing then (if numAt f.data 0 1 = 0 then testPassed n s else testFailed n 2 s) else s

/-! ### Lookups (R17) -/

/-- R17: the answer to a LOOKUP. -/
def lookupAnswer (s : State) (n number : Nat) : Payload :=
  if (s.oven n).state = .inService then
    let active := s.recipeIn number .active
    .lookupAnswer number
      (match active with | some r => r.version | none => 0)
      (match active with
        | some r => ((s.entry n number r.version).map Entry.state) = some .loaded
        | none => false)
      (s.recipeIn number .draft).isSome
      (match s.recipeIn number .withdrawing with | some r => !r.superseded | none => false)
      false
  else .lookupAnswer number 0 false false false true

/-- R17: LOOKUP. -/
def lookupFrame (n : Nat) (f : InFrame) (s : State) : State :=
  placeFor .siteBus n (lookupAnswer s n (numAt f.data 0 2)) s

/-! ### The Distribution Engine's frames (R73, R78, R79) -/

/-- The oven's entry in a state that the number and version of a payload name. -/
def State.namedEntry (s : State) (n : Nat) (st : EntryState) (data : List Byte) : Option Entry :=
  (s.entry n (numAt data 0 2) (numAt data 2 1)).bind (fun e => if e.state = st then some e else none)

/-- R78: PULL. -/
def pullFrame (n : Nat) (f : InFrame) (s : State) : State :=
  match s.namedEntry n .offered f.data with
  | some e => startStream n e.number e.version s
  | none => s

/-- R78: HAVE. -/
def haveFrame (n : Nat) (f : InFrame) (s : State) : State :=
  match s.namedEntry n .offered f.data with
  | some e => entryLoaded n e.number e.version s
  | none => s

/-- R78: DECLINE. -/
def declineFrame (n : Nat) (f : InFrame) (s : State) : State :=
  match s.namedEntry n .offered f.data with
  | some e =>
    slotChoice ((endTransfer n s).modEntry n e.number e.version (fun e =>
      { e with state := .pending, noRoom := true }))
  | none => s

/-- R79: LOAD_DONE. -/
def loadDoneFrame (n : Nat) (f : InFrame) (s : State) : State :=
  match s.namedEntry n .sending f.data with
  | some e =>
    if e.crc = some (numAt f.data 3 2) then
      entryLoaded n e.number e.version (s.modEntry n e.number e.version (fun e => { e with retries := 0 }))
    else failedTry n s
  | none => s

/-- R73: UNLOAD_DONE. -/
def unloadDoneFrame (n : Nat) (f : InFrame) (s : State) : State :=
  match s.namedEntry n .unloading f.data with
  | some e => unloaded n e.number e.version s
  | none => s

/-! ### Permits, cleaning, faults -/

/-- R91: START_REQUEST. -/
def startRequestFrame (n : Nat) (f : InFrame) (s : State) : State :=
  startRequest n (numAt f.data 0 2) (numAt f.data 2 1) s

/-- R98: STAGE_SUMMARY. -/
def stageSummaryFrame (n : Nat) (f : InFrame) (s : State) : State := stageSummary n f.data s

/-- R99: COOK_END: permit number, outcome, stage count. -/
def cookEndFrame (n : Nat) (f : InFrame) (s : State) : State :=
  cookEnd n (numAt f.data 0 2) (numAt f.data 2 1) (numAt f.data 3 1) s

/-- R119: CLEAN_START. -/
def cleanStartFrame (n : Nat) (f : InFrame) (s : State) : State := cleanStart n (numAt f.data 0 1) s

/-- R121: CLEAN_PHASE. -/
def cleanPhaseFrame (n : Nat) (f : InFrame) (s : State) : State :=
  cleanPhase n (numAt f.data 0 1) (numAt f.data 1 1) s

/-- R122: CLEAN_END. -/
def cleanEndFrame (n : Nat) (f : InFrame) (s : State) : State := cleanEnd n (numAt f.data 0 1) (numAt f.data 1 1) s

/-- R136, R146: FAULT. -/
def faultFrame (n : Nat) (f : InFrame) (s : State) : State :=
  if numAt f.data 2 1 = 1 then routeFault n (numAt f.data 0 2) .fault s else clearFault n (numAt f.data 0 2) s

/-! ### The Update Relay's frames (R165, R168, R172) -/

/-- The channel bound to an oven's entry, with its binding and campaign, when its stream is as given. -/
def State.streamOf (s : State) (n : Nat) (st : Stream) : Option (Nat × Binding × Campaign) :=
  allChannels.findSome? (fun ch =>
    match s.channel ch with
    | some b => if b.oven = n ∧ b.stream = st then (s.campaign b.campaign).map (fun m => (ch, b, m)) else none
    | none => none)

/-- R165: IMAGE_READY. -/
def imageReadyFrame (n : Nat) (_ : InFrame) (s : State) : State :=
  match s.streamOf n .opening with
  | some (ch, b, _) =>
    let s := s.modChannel ch (fun b => { b with stream := .streaming, timeout := none })
    let s := s.modCEntry b.campaign b.oven (fun e => { e with timeouts := 0 })
    kick (fillImage Config.streamPlaces ch s)
  | none => s

/-- R165: IMAGE_REFUSE. -/
def imageRefuseFrame (n : Nat) (_ : InFrame) (s : State) : State :=
  match s.streamOf n .opening with
  | some (ch, b, _) => if b.acked = 0 then failedAttempt causeRefused b.campaign b.oven s else restartImage ch s
  | none => s

/-- R168: what an acknowledgement may name. -/
def Binding.takesAck (b : Binding) (size offset : Nat) : Bool :=
  b.acked < offset && offset ≤ b.sent && (offset % 6 = 0 || offset = size)

/-- R168 steps 1, 3 and 4. -/
def acknowledged (s : State) (size offset : Nat) (b : Binding) : Binding :=
  { b with
    buffer := b.buffer.drop (offset - b.acked)
    acked := offset
    timeout := if offset < b.sent then some (s.after Config.ackSeconds) else none
    check := if offset = size then some (s.after Config.checkSeconds) else b.check }

/-- R168: IMAGE_ACK. -/
def imageAckFrame (n : Nat) (f : InFrame) (s : State) : State :=
  match s.streamOf n .streaming with
  | some (ch, b, m) =>
    let offset := numAt f.data 0 3
    if b.takesAck m.imageSize offset then
      let s := s.modChannel ch (acknowledged s m.imageSize offset)
      let s := s.modCEntry b.campaign b.oven (fun e => { e with timeouts := 0 })
      kick (fillImage Config.streamPlaces ch s)
    else s
  | none => s

/-- R172: the entry becomes STAGED and its channel is released. -/
def stage (c n ch : Nat) (s : State) : State :=
  let s := releaseChannel ch outcomeStaged false (s.modCEntry c n (fun e => { e with state := .staged }))
  channelChoice (gate c n (raiseUpdate 0 c n 0 (s.attempts c n) s))

/-- R172: IMAGE_CHECK: pass 0, any other code is read as fail. -/
def imageCheckFrame (n : Nat) (f : InFrame) (s : State) : State :=
  match s.streamOf n .streaming with
  | some (ch, b, m) =>
    if b.acked = m.imageSize ∧ (s.centry b.campaign n).map CEntry.state = some .transferring then
      if numAt f.data 0 1 = 0 then stage b.campaign n ch s else failedAttempt causeCheckFail b.campaign n s
    else s
  | none => s

/-! ### Meanings -/

def execClaim (s : State) : Result := .next (event claimFrame s)
def execRejoin (s : State) : Result := .next (event rejoinHead s)
def execAssignAck (s : State) : Result := .next (event (slotFrame .assignAck assignAckFrame) s)
def execCapability (s : State) : Result := .next (event (slotFrame .capability capabilityFrame) s)
def execStatus (s : State) : Result := .next (event (slotFrame .status statusFrame) s)
def execTestReport (s : State) : Result := .next (event (slotFrame .testReport testReportFrame) s)
def execLookup (s : State) : Result := .next (event (slotFrame .lookup lookupFrame) s)
def execPull (s : State) : Result := .next (event (slotFrame .pull pullFrame) s)
def execHave (s : State) : Result := .next (event (slotFrame .have_ haveFrame) s)
def execDecline (s : State) : Result := .next (event (slotFrame .decline declineFrame) s)
def execLoadDone (s : State) : Result := .next (event (slotFrame .loadDone loadDoneFrame) s)
def execUnloadDone (s : State) : Result := .next (event (slotFrame .unloadDone unloadDoneFrame) s)
def execStartRequest (s : State) : Result := .next (event (slotFrame .startRequest startRequestFrame) s)
def execStageSummary (s : State) : Result := .next (event (slotFrame .stageSummary stageSummaryFrame) s)
def execCookEnd (s : State) : Result := .next (event (slotFrame .cookEnd cookEndFrame) s)
def execCleanStart (s : State) : Result := .next (event (slotFrame .cleanStart cleanStartFrame) s)
def execCleanPhase (s : State) : Result := .next (event (slotFrame .cleanPhase cleanPhaseFrame) s)
def execCleanEnd (s : State) : Result := .next (event (slotFrame .cleanEnd cleanEndFrame) s)
def execFault (s : State) : Result := .next (event (slotFrame .fault faultFrame) s)
def execImageReady (s : State) : Result := .next (event (slotFrame .imageReady imageReadyFrame) s)
def execImageRefuse (s : State) : Result := .next (event (slotFrame .imageRefuse imageRefuseFrame) s)
def execImageAck (s : State) : Result := .next (event (slotFrame .imageAck imageAckFrame) s)
def execImageCheck (s : State) : Result := .next (event (slotFrame .imageCheck imageCheckFrame) s)

end Sys2Proof.Machine
end

