-- ==== Sys2Proof/Machine/LibraryRequests.lean ====
section
/-! DEFINITION. The requests of the Recipe Library (R49 to R65), the Distribution Engine (R86, R87) and the Permit Unit (R104,
R106). -/

namespace Sys2Proof.Machine

/-! ### Drafting (R50 to R55) -/

/-- A recipe number of the library. -/
abbrev isRecipe (number : Nat) : Prop := 1 ≤ number ∧ number ≤ 4095

/-- R51: the highest version among the records of a number, 0 without one. -/
def State.highestVersion (s : State) (number : Nat) : Nat :=
  (s.recipes.filter (fun r => r.number = number)).foldl (fun v r => max v r.version) 0

/-- R51, R52: the version chosen for a new draft. -/
def State.draftVersion (s : State) (number : Nat) (given : Option Nat) : Nat :=
  given.getD (s.highestVersion number + 1)

/-- R52: the draft record. -/
def newDraft (s : State) (number version : Nat) (name : List Byte) (fat : Nat) : Recipe where
  number := number
  version := version
  state := .draft
  superseded := false
  name := name
  fat := fat
  groups := match s.recipeIn number .active with | some r => r.groups | none => 0
  steps := []
  figures := none
  refs := 0

/-- The place of a record in the library's order, by number and then by version. -/
def recipeKey (number version : Nat) : Nat := number * 256 + version

/-- R49: a record is put into the table. -/
def addRecipe (r : Recipe) (s : State) : State :=
  { s with recipes :=
      insertBefore (fun x => recipeKey r.number r.version < recipeKey x.number x.version) r s.recipes }

/-- R52 step 1: the values of the request are in their ranges. -/
def draftInRange (number : Nat) (name : List Byte) (fat : Nat) (version : Option Nat) : Bool :=
  decide (isRecipe number) && decide (1 ≤ name.length) && decide (name.length ≤ 24) && printable name &&
    decide (fat ≤ 3) && decide (version ≠ some 0)

/-- R52. -/
def reqRecipeDraft (number : Nat) (name : List Byte) (fat : Nat) (version : Option Nat) (s : State) : Reply × State :=
  let chosen := s.draftVersion number version
  if draftInRange number name fat version = false then refuse .range s
  else if (s.recipeIn number .draft).isSome then refuse .wrongState s
  else if 255 < chosen ∨ chosen ≤ s.highestVersion number then refuse .range s
  else if Config.recipePlaces ≤ s.recipes.length then refuse .tableFull s
  else okWith (le 1 chosen) (addRecipe (newDraft s number chosen name fat) s)

/-- R50: setpoint and humidity of a mode. -/
def modeInRange (m : Mode) (setpoint humidity : Nat) : Bool :=
  match m with
  | .dry => decide (30 ≤ setpoint) && decide (setpoint ≤ 300) && humidity = 0
  | .steam => decide (30 ≤ setpoint) && decide (setpoint ≤ 130) && humidity = 100
  | .combi =>
    decide (30 ≤ setpoint) && decide (setpoint ≤ 300) && decide (1 ≤ humidity) && decide (humidity ≤ 99)

/-- R50: the end of a step, when its values are in range; a TIME step's core target is not checked and is stored as 0. -/
def endOf (kind seconds target : Nat) : Option StepEnd :=
  match kind with
  | 0 => if 1 ≤ seconds ∧ seconds ≤ 14400 then some (.time seconds) else none
  | 1 => if 40 ≤ target ∧ target ≤ 99 ∧ 60 ≤ seconds ∧ seconds ≤ 14400 then some (.core target seconds) else none
  | _ => none

/-- R50: the step as stored, when it passes every check. -/
def checkStep (t : RawStep) : Option Step :=
  match Mode.ofCode t.mode, endOf t.endKind t.seconds t.target with
  | some m, some e =>
    if modeInRange m t.setpoint t.humidity ∧ 1 ≤ t.fan ∧ t.fan ≤ 5 then
      some { mode := m, setpoint := t.setpoint, humidity := t.humidity, fan := t.fan, ending := e, prompt := t.prompt }
    else none
  | _, _ => none

/-- The checks of a request on the DRAFT of a number: RANGE, WRONG_STATE. -/
def onDraft (number : Nat) (act : Recipe → Act) (s : State) : Reply × State :=
  if ¬ isRecipe number then refuse .range s
  else
    match s.recipeIn number .draft with
    | some r => act r s
    | none => refuse .wrongState s

/-- R53: the steps after index 1..n is replaced or n + 1 appended. -/
def writeStep (steps : List Step) (index : Nat) (t : Step) : Option (List Step) :=
  if 1 ≤ index ∧ index ≤ steps.length then some (steps.set (index - 1) t)
  else if index = steps.length + 1 ∧ steps.length < 16 then some (steps ++ [t])
  else none

/-- The draft of a number takes a step list; the body gives its step count. -/
def setSteps (r : Recipe) (steps : List Step) (s : State) : Reply × State :=
  okWith (le 1 steps.length) (s.modRecipe r.number r.version (fun x => { x with steps := steps }))

/-- R53, R50. A number without a DRAFT is answered WRONG_STATE before the step is checked (A69). -/
def reqRecipeStep (number index : Nat) (step : RawStep) (s : State) : Reply × State :=
  onDraft number (fun r s =>
    match checkStep step with
    | none => refuse .range s
    | some t =>
      match writeStep r.steps index t with
      | some steps => setSteps r steps s
      | none => refuse .range s) s

/-- R54. -/
def reqRecipeTrim (number count : Nat) (s : State) : Reply × State :=
  onDraft number (fun r s =>
    if r.steps.length < count then refuse .range s else setSteps r (r.steps.take count) s) s

/-- R55. -/
def reqRecipeDiscardDraft (number : Nat) (s : State) : Reply × State :=
  onDraft number (fun r s =>
    ok { s with recipes := s.recipes.filter (fun x => !(x.number = r.number && x.version = r.version)) }) s

/-! ### Publication, withdrawal, groups (R56 to R61) -/

/-- R57, R58: the figures of a record, as a body gives them, a list of step soils with its count (A19). -/
def figuresBytes (f : Figures) : List Byte :=
  [flagByte f.needsSteam, flagByte f.needsProbe] ++ le 2 f.highest ++ le 3 f.duration ++
    listBytes (f.stepSoil.map (le 2)) ++ le 2 f.totalSoil

/-- R59 steps 1 to 3: the figures are stored, the ACTIVE record is superseded, the draft becomes ACTIVE. -/
def publishRecords (draft : Recipe) (active : Option Recipe) (s : State) : State :=
  let s := match active with
    | some a => s.modRecipe a.number a.version (fun r => { r with state := .withdrawing, superseded := true })
    | none => s
  s.modRecipe draft.number draft.version (fun r =>
    { r with state := .active, figures := some (figuresOf draft.fat draft.steps) })

/-- R59: a publication. -/
def publish (draft : Recipe) (active : Option Recipe) (s : State) : State :=
  let s := publicationTold (active.map (fun a => (a.number, a.version))) (publishRecords draft active s)
  match active with
  | some a => freeCheck a.number a.version s
  | none => s

/-- R56, R59. -/
def reqRecipePublish (number : Nat) (s : State) : Reply × State :=
  onDraft number (fun draft s =>
    let active := s.recipeIn number .active
    if (s.recipeIn number .withdrawing).isSome then refuse .inUse s
    else if draft.steps = [] then refuse .range s
    else
      okWith
        (le 1 draft.version ++ le 1 (match active with | some a => a.version | none => 0) ++
          figuresBytes (figuresOf draft.fat draft.steps))
        (publish draft active s)) s

/-- R60: an outright withdrawal. -/
def withdrawRecipe (r : Recipe) (s : State) : State :=
  freeCheck r.number r.version (recomputeAll (s.modRecipe r.number r.version (fun x =>
    { x with state := .withdrawing, superseded := false })))

/-- R60. -/
def reqRecipeWithdraw (number : Nat) (s : State) : Reply × State :=
  if ¬ isRecipe number then refuse .range s
  else
    match s.recipeIn number .active with
    | none => refuse .wrongState s
    | some r => if (s.recipeIn number .withdrawing).isSome then refuse .inUse s else ok (withdrawRecipe r s)

/-- R61: the group set of the ACTIVE and the DRAFT record. -/
def setGroups (number groups : Nat) (s : State) : State :=
  { s with recipes := s.recipes.map (fun r =>
      if r.number = number && r.state ≠ .withdrawing then { r with groups := BitVec.ofNat 8 groups } else r) }

/-- R61. -/
def reqRecipeGroups (number groups : Nat) (s : State) : Reply × State :=
  if ¬ isRecipe number then refuse .range s
  else
    match s.recipeIn number .active, s.recipeIn number .draft with
    | none, none => refuse .wrongState s
    | some a, _ =>
      ok (if a.groups = BitVec.ofNat 8 groups then setGroups number groups s else recomputeAll (setGroups number groups s))
    | none, some _ => ok (setGroups number groups s)

/-! ### Reading the library (R64, R65) -/

/-- R64: a step's fields as written; the seconds or limit before the core target, which is a 0 byte for a TIME step (A19). -/
def stepFields (t : Step) : List Byte :=
  le 1 t.mode.code ++ le 2 t.setpoint ++ le 1 t.humidity ++ le 1 t.fan ++
    le 1 (match t.ending with | .time _ => 0 | .core _ _ => 1) ++ le 2 t.seconds ++ le 1 t.target ++ [flagByte t.prompt]

/-- R64: one record; one presence byte for all the figures together, and ten zeros where a DRAFT has none (A19). -/
def recipeBytes (r : Recipe) : List Byte :=
  le 2 r.number ++ le 1 r.version ++ le 1 r.state.code ++ [flagByte r.superseded] ++ textBytes r.name ++ le 1 r.fat ++
    le 1 r.groups.toNat ++ listBytes (r.steps.map stepFields) ++ le 1 r.refs ++
    optBytes 10 (r.figures.map figuresBytes)

/-- R64: the record a request names; version 0 names the ACTIVE one. -/
def State.named (s : State) (number version : Nat) : Option Recipe :=
  if version = 0 then s.recipeIn number .active else s.recipe number version

/-- R64. -/
def reqRecipeRead (number version : Nat) (s : State) : Reply × State :=
  if ¬ isRecipe number ∨ 255 < version then refuse .range s
  else
    match s.named number version with
    | some r => okWith (recipeBytes r) s
    | none => refuse .noRecord s

/-- R65: a summary. -/
def recipeSummary (r : Recipe) : List Byte :=
  le 2 r.number ++ le 1 r.version ++ le 1 r.state.code ++ [flagByte r.superseded] ++ le 1 r.steps.length ++
    le 1 r.groups.toNat ++ le 1 r.refs

/-- R65: the records at or after a start. -/
def State.recipesFrom (s : State) (number version : Nat) : List Recipe :=
  s.recipes.filter (fun r => recipeKey number version ≤ recipeKey r.number r.version)

/-- R65: the body. -/
def recipeListBody (s : State) (number version : Nat) : List Byte :=
  let l := s.recipesFrom number version
  listBytes ((l.take 32).map recipeSummary) ++ le 2 s.recipes.length ++
    optBytes 3 ((l[32]?).map (fun r => le 2 r.number ++ le 1 r.version))

/-- R65. -/
def reqRecipeList (number version : Nat) (s : State) : Reply × State :=
  if 4095 < number ∨ 255 < version then refuse .range s else okWith (recipeListBody s number version) s

/-! ### Distribution (R86, R87) -/

/-- R86: the FAILED entry becomes PENDING, and the slot choice. -/
def resend (n : Nat) (e : Entry) (s : State) : State :=
  slotChoice (s.modEntry n e.number e.version (fun e =>
    { e with state := .pending, retries := 0, noRoom := false }))

/-- R86. -/
def reqRecipeResend (n number : Nat) (s : State) : Reply × State :=
  if ¬ isRecipe number then refuse .range s
  else
    onService n (fun s =>
      match (s.loadedOf n).find? (fun e => e.number = number && e.state = .failed) with
      | some e => ok (resend n e s)
      | none => refuse .noRecord s) s

/-- R87: an entry. -/
def State.entryBytes (s : State) (e : Entry) : List Byte :=
  le 2 e.number ++ le 1 e.version ++ le 1 e.state.code ++ le 1 e.retries ++
    [flagByte e.noRoom, flagByte e.clamped, flagByte e.deferred] ++ optBytes 2 (e.crc.map (le 2)) ++
    optBytes 5 (e.deadline.map (fun d => le 1 d.1.code ++ le 4 (s.remaining d.2))) ++ le 1 e.sends

/-- R87: the body of LOADED_SET_READ. No position follows where no entry stands beyond the last one given (A57). -/
def loadedSetBody (s : State) (n start : Nat) : List Byte :=
  let l := (s.loadedOf n).drop start
  listBytes ((l.take 32).map s.entryBytes) ++ le 1 (s.loadedOf n).length ++ le 1 (s.counted n) ++
    le 1 (s.oven n).effectiveCapacity ++ optBytes 1 (if 32 < l.length then some (le 1 (start + 32)) else none)

/-- R87. -/
def reqLoadedSetRead (n start : Nat) (s : State) : Reply × State :=
  if 63 < start then refuse .range s else onService n (fun s => okWith (loadedSetBody s n start) s) s

/-- R87: a distribution slot, free or bound. -/
def State.slotBytes (s : State) (k : Nat) : List Byte :=
  optBytes 8 ((s.distSlot k).map (fun b =>
    le 1 b.oven ++ le 2 b.number ++ le 1 b.version ++
      le 1 (match s.entry b.oven b.number b.version with | some e => e.state.code | none => 0) ++
      le 1 b.next ++ le 1 (s.segmentsQueued k) ++ le 1 b.total))

/-- R87. -/
def reqDistStatus (s : State) : Reply × State := okWith (allDistSlots.flatMap s.slotBytes ++ le 1 s.pointer) s

/-! ### Permits (R104, R106) -/

/-- R104. -/
def reqPermitRevoke (n : Nat) (s : State) : Reply × State :=
  onRecord n (fun s =>
    match s.permit n with
    | some p => okWith (le 2 p.number) (revoke n p s)
    | none => refuse .wrongState s) s

/-- R98: a stage summary. -/
def Summary.bytes (x : Summary) : List Byte :=
  le 1 x.index ++ le 1 x.mode.code ++ le 2 x.temperature ++ le 1 x.humidity ++ le 2 x.seconds

/-- R106: one permit; its two flags take a byte each (A19). -/
def State.permitBytes (s : State) (p : Permit) : List Byte :=
  le 2 p.number ++ le 2 p.recipe ++ le 1 p.version ++ [flagByte p.stopping] ++ le 4 p.grantedAt ++
    s.deadlineBytes p.deadline ++ [flagByte p.lastBeforeClean, flagByte p.target] ++
    listBytes (p.summaries.map Summary.bytes)

/-- R106. -/
def reqPermitRead (n : Nat) (s : State) : Reply × State :=
  onRecord n (fun s =>
    match s.permit n with
    | some p => okWith (s.permitBytes p) s
    | none => refuse .noRecord s) s

/-- R106: the summary of an oven's permit. -/
def State.permitSummary (s : State) (n : Nat) (p : Permit) : List Byte :=
  le 1 n ++ le 2 p.number ++ le 2 p.recipe ++ le 1 p.version ++ [flagByte p.stopping] ++ le 4 (s.remaining p.deadline) ++
    le 1 p.summaries.length

/-- R106: the open permits in ascending slot order. -/
def State.permitSummaries (s : State) : List (List Byte) :=
  allSlots.filterMap (fun n => (s.permit n).map (s.permitSummary n))

/-- R106. -/
def reqPermitList (s : State) : Reply × State :=
  okWith (listBytes s.permitSummaries ++ le 1 s.permitSummaries.length) s

/-! ### Meanings -/

def execRecipeDraft (number : Nat) (name : List Byte) (fat : Nat) (version : Option Nat) (s : State) : Result :=
  request (.recipeDraft number name fat version) (reqRecipeDraft number name fat version) s
def execRecipeStep (number index : Nat) (step : RawStep) (s : State) : Result :=
  request (.recipeStep number index step) (reqRecipeStep number index step) s
def execRecipeTrim (number count : Nat) (s : State) : Result :=
  request (.recipeTrim number count) (reqRecipeTrim number count) s
def execRecipeDiscardDraft (number : Nat) (s : State) : Result :=
  request (.recipeDiscardDraft number) (reqRecipeDiscardDraft number) s
def execRecipePublish (number : Nat) (s : State) : Result := request (.recipePublish number) (reqRecipePublish number) s
def execRecipeWithdraw (number : Nat) (s : State) : Result :=
  request (.recipeWithdraw number) (reqRecipeWithdraw number) s
def execRecipeGroups (number groups : Nat) (s : State) : Result :=
  request (.recipeGroups number groups) (reqRecipeGroups number groups) s
def execRecipeRead (number version : Nat) (s : State) : Result :=
  request (.recipeRead number version) (reqRecipeRead number version) s
def execRecipeList (number version : Nat) (s : State) : Result :=
  request (.recipeList number version) (reqRecipeList number version) s
def execRecipeResend (slot number : Nat) (s : State) : Result :=
  request (.recipeResend slot number) (reqRecipeResend slot number) s
def execLoadedSetRead (slot start : Nat) (s : State) : Result :=
  request (.loadedSetRead slot start) (reqLoadedSetRead slot start) s
def execDistStatus (s : State) : Result := request .distStatus reqDistStatus s
def execPermitRevoke (slot : Nat) (s : State) : Result := request (.permitRevoke slot) (reqPermitRevoke slot) s
def execPermitRead (slot : Nat) (s : State) : Result := request (.permitRead slot) (reqPermitRead slot) s
def execPermitList (s : State) : Result := request .permitList reqPermitList s

end Sys2Proof.Machine
end

