-- ==== Sys2Proof/Machine/OvenRequests.lean ====
section
/-! DEFINITION. The requests of the Oven Registry (R24, R25, R30, R33, R34, R41 to R45). -/

namespace Sys2Proof.Machine

/-! ### Admission, setup, dismissal, retirement -/

/-- R25. -/
def reqOvenAdmit (n group : Nat) (s : State) : Reply × State :=
  if ¬ isSlot n ∨ 7 < group then refuse .range s
  else if (s.oven n).state = .vacant then refuse .noRecord s
  else if (s.oven n).state ≠ .discovered then refuse .wrongState s
  else ok (admitOven n group s)

/-- R30: the cavity offset clamped. -/
def clampCavity (c : Int) : Int := clampInt (-15) 15 c

/-- R30: the humidity offset clamped. -/
def clampHumidity (h : Int) : Int := clampInt (-10) 10 h

/-- R30: the thresholds formed from those given and those held, with whether any was clamped. -/
def Oven.formSetup (o : Oven) (t : Thresholds) : Settings × Bool := formSettings t (o.setup.getD {})

/-- R30: the record becomes TESTING and TEST_ORDER is placed. -/
def commission (n : Nat) (cavity humidity : Int) (group : Nat) (t : Thresholds) (s : State) : State :=
  placeTestOrder n (s.modOven n (fun o =>
    { o with
      cavity := clampCavity cavity, humidity := clampHumidity humidity, group := group
      setup := some (o.formSetup t).1, state := .testing, comm := some (.test, s.after Config.testSeconds) }))

/-- R30. -/
def reqOvenCommission (n : Nat) (cavity humidity : Int) (group : Nat) (t : Thresholds) (s : State) : Reply × State :=
  if ¬ isSlot n ∨ 7 < group then refuse .range s
  else if (s.oven n).state = .vacant then refuse .noRecord s
  else if (s.oven n).state ≠ .awaitingSetup then refuse .wrongState s
  else
    okClamped (clampCavity cavity ≠ cavity || clampHumidity humidity ≠ humidity || ((s.oven n).formSetup t).2)
      (commission n cavity humidity group t s)

/-- R33. -/
def reqOvenDismiss (n : Nat) (bar : Bool) (s : State) : Reply × State :=
  onRecord n (fun s =>
    match (s.oven n).state with
    | .inService | .retiring | .vacant => refuse .wrongState s
    | .discovered | .assigning | .profiling | .awaitingSetup | .testing =>
      if s.dismissFull ((s.oven n).serial.getD 0) bar then refuse .tableFull s else ok (dismiss n bar s)) s

/-- R34. -/
def reqOvenRetire (n : Nat) (bar : Bool) (s : State) : Reply × State :=
  onService n (fun s => if s.retireFull bar then refuse .tableFull s else ok (retire n bar s)) s

/-! ### Changing an oven in service (R41) -/

/-- R41 step 1. -/
def setGroup (n : Nat) (group : Option Nat) (s : State) : State :=
  match group with
  | some g => if (s.oven n).group = g then s else recomputeOne n (s.modOven n (fun o => { o with group := g }))
  | none => s

/-- R41 step 2. -/
def setOffsets (n : Nat) (cavity humidity : Option Int) (s : State) : State :=
  let old := s.oven n
  let new := { old with
    cavity := (cavity.map clampCavity).getD old.cavity
    humidity := (humidity.map clampHumidity).getD old.humidity }
  if new = old then s else offsetsChanged n old (s.setOven n new)

/-- R41 step 3. -/
def setThresholds (n : Nat) (t : Thresholds) (s : State) : State :=
  if t.advise.isNone ∧ t.lock.isNone ∧ t.interval.isNone then s else applySettings n t s

/-- R41, R112: something given was clamped. -/
def setClamped (o : Oven) (cavity humidity : Option Int) (t : Thresholds) : Bool :=
  cavity.any (fun c => clampCavity c ≠ c) || humidity.any (fun h => clampHumidity h ≠ h) ||
    (match o.hygiene with | some h => (formSettings t h.settings).2 | none => false)

/-- R41. -/
def reqOvenSet (n : Nat) (group : Option Nat) (cavity humidity : Option Int) (t : Thresholds) (s : State) :
    Reply × State :=
  if group.any (fun g => 7 < g) then refuse .range s
  else
    onService n (fun s =>
      okClamped (setClamped (s.oven n) cavity humidity t)
        (setThresholds n t (setOffsets n cavity humidity (setGroup n group s)))) s

/-! ### Locks and site state (R42, R43) -/

/-- R42: the manual lock takes a value and the lock view is re-derived. -/
def setLock (n : Nat) (locked : Bool) (s : State) : State :=
  if (s.oven n).manualLock = locked then s
  else deriveLock n (s.modOven n (fun o => { o with manualLock := locked }))

/-- R42. -/
def reqOvenLock (n : Nat) (s : State) : Reply × State := onRecord n (fun s => ok (setLock n true s)) s

/-- R42. -/
def reqOvenUnlock (n : Nat) (s : State) : Reply × State := onRecord n (fun s => ok (setLock n false s)) s

/-- R43. -/
def reqSiteOpen (s : State) : Reply × State :=
  if s.siteOpen then refuse .siteState s else ok { s with siteOpen := true }

/-! ### Restore (R44) -/

/-- R44, R28: the restored profile, clamped. -/
def restoredProfile (r : RestoreRecord) : Profile where
  maxTemp := clampNat 180 300 r.maxTemp
  steam := r.steam
  probe := r.probe
  cleaning := CleaningSystem.ofCode r.cleaning
  capacity := clampNat 8 250 r.capacity

/-- R44: a profile value or an offset of the record was clamped. -/
def profileClamped (r : RestoreRecord) : Bool :=
  clampNat 180 300 r.maxTemp ≠ r.maxTemp || clampNat 8 250 r.capacity ≠ r.capacity || 2 < r.cleaning ||
    clampCavity r.cavity ≠ r.cavity || clampHumidity r.humidity ≠ r.humidity

/-- R44: the slot cannot take the record. -/
def State.restoreInUse (s : State) (n serial : Nat) : Bool :=
  !((s.oven n).state = .vacant || ((s.oven n).state = .discovered && (s.oven n).serial = some serial)) ||
    allSlots.any (fun k => k ≠ n && (s.oven k).serial = some serial &&
      decide ((s.oven k).state ≠ .vacant) && decide ((s.oven k).state ≠ .discovered))

/-- R44: the last heard of the DISCOVERED record that holds the serial, if one does. -/
def State.heardBefore (s : State) (serial : Nat) : Option Nat :=
  (allSlots.find? (fun k => (s.oven k).state = .discovered && (s.oven k).serial = some serial)).map
    (fun k => (s.oven k).lastHeard)

/-- R44: the record as restored, but for its hygiene part and lock reasons. Of a DISCOVERED record of the serial only last
heard is taken over; a last status or setup thresholds it still held are dropped (A68). -/
def restoredOven (s : State) (serial : Nat) (r : RestoreRecord) : Oven :=
  let heard := s.heardBefore serial
  { state := .inService, serial := some serial, model := r.model, firmware := some r.firmware
    profile := some (restoredProfile r), cavity := clampCavity r.cavity, humidity := clampHumidity r.humidity
    group := r.group, manualLock := r.manualLock, present := heard.isSome, lastHeard := heard.getD s.clock
    cooks := r.cooks, silence := heard.map (fun t => satAdd Config.maxClock t Config.silenceSeconds) }

/-- R44: a DISCOVERED record holding the serial in another slot is made VACANT. -/
def vacateOthers (n serial : Nat) (s : State) : State :=
  (allSlots.filter (fun k => k ≠ n && (s.oven k).state = .discovered && (s.oven k).serial = some serial)).foldl
    (fun s k => vacate k s) s

/-- R44: the restore. A silence deadline already gone by expires in the same event (R183): as its last part, after
HYGIENE_STATE, LOCK_STATE, the loaded set and the slot choice (A67). -/
def restore (n serial : Nat) (r : RestoreRecord) (s : State) : State :=
  let o := restoredOven s serial r
  let s := (vacateOthers n serial s).setOven n o
  let s := restoreHygiene n r s
  let s := recordLocks n (s.lockView n) s
  silenceExpiry n (recomputeOne n s)

/-- R44. -/
def reqOvenRestore (n serial : Nat) (r : RestoreRecord) (s : State) : Reply × State :=
  if s.siteOpen then refuse .siteState s
  else if s.clockUnset then refuse .wrongState s
  else if ¬ isSlot n ∨ 7 < r.group then refuse .range s
  else if s.restoreInUse n serial then refuse .inUse s
  else okClamped (profileClamped r || (restoredHygiene s r).2) (restore n serial r s)

/-! ### Reading the registry (R45) -/

/-- R45: a profile's fields. -/
def Profile.bytes (p : Profile) : List Byte :=
  le 2 p.maxTemp ++ [flagByte p.steam, flagByte p.probe] ++ le 1 p.cleaning.code ++ le 1 p.capacity

/-- R108: a point of the hygiene interval: the passed mark, or the instant with the seconds remaining: a byte 1 and eight zeros, or
a byte 0 and the two numbers (A19). -/
def State.pointBytes (s : State) : Point → List Byte
  | .passed => 1 :: List.replicate 8 0
  | .armed t => 0 :: s.deadlineBytes t

/-- R108: a clean in progress. -/
def State.cleanBytes (s : State) (c : Clean) : List Byte :=
  le 1 c.programme.code ++ le 4 c.startedAt ++ optBytes 1 (c.phase.map (fun p => le 1 p.code)) ++ s.deadlineBytes c.deadline

/-- R108: the hygiene part, every field of the table in its order. -/
def State.hygieneBytes (s : State) (h : Hygiene) : List Byte :=
  le 2 h.soil ++ le 2 h.settings.advise ++ le 2 h.settings.lock ++ le 2 h.settings.interval ++ le 4 h.lastFull ++
  s.pointBytes h.deadline ++ s.pointBytes h.advance ++ le 1 h.state.code ++ [flagByte h.residue] ++
  optBytes 15 (h.clean.map s.cleanBytes) ++ optBytes 1 (h.order.map (fun p => le 1 p.code)) ++
  le 2 h.completed ++ le 2 h.aborted

/-- R45: presence, PRESENT 0 or SILENT 1. -/
def Oven.presenceCode (o : Oven) : Nat := if o.present || o.state = .vacant then 0 else 1

/-- R36: a STATUS report. -/
def LastStatus.bytes (x : LastStatus) : List Byte := le 1 x.mode ++ le 1 x.door ++ le 2 x.temperature

/-- R45: the record of a slot that is not VACANT. -/
def State.ovenBytes (s : State) (o : Oven) : List Byte :=
  le 1 o.state.code ++ le 6 (o.serial.getD 0) ++ le 1 o.model ++ optBytes 4 (o.firmware.map firmwareBytes) ++
  optBytes 6 (o.profile.map Profile.bytes) ++
  [signedByte o.cavity, signedByte o.humidity] ++ le 1 o.group ++ [flagByte o.manualLock] ++ le 1 o.locks.bits ++
  le 1 o.presenceCode ++ le 4 o.lastHeard ++ optBytes 4 (o.lastStatus.map LastStatus.bytes) ++
  optBytes 1 (o.hint.map (le 1)) ++ le 2 o.cooks ++ [flagByte o.refreshPending] ++
  optBytes 9 (o.comm.map (fun x => le 1 x.1.code ++ s.deadlineBytes x.2)) ++ le 1 o.tries ++
  optBytes 54 (o.hygiene.map s.hygieneBytes)

/-- R45. -/
def reqOvenRead (n : Nat) (s : State) : Reply × State :=
  if ¬ isSlot n then refuse .range s
  else if (s.oven n).state = .vacant then okWith (le 1 OvenState.vacant.code) s
  else okWith (s.ovenBytes (s.oven n)) s

/-- R45: state, presence and lock reasons of slots 1..32. -/
def ovenListBody (s : State) : List Byte :=
  allSlots.flatMap (fun n =>
    le 1 (s.oven n).state.code ++ le 1 (s.oven n).presenceCode ++ le 1 (s.oven n).locks.bits)

/-- R45. -/
def reqOvenList (s : State) : Reply × State := okWith (ovenListBody s) s

/-! ### The barred-serial list (R24) -/

/-- R24. -/
def reqBar (serial : Nat) (s : State) : Reply × State :=
  if serial ∈ s.barred then ok s
  else if Config.barredPlaces ≤ s.barred.length then refuse .tableFull s
  else ok (barSerial serial s)

/-- R24. -/
def reqUnbar (serial : Nat) (s : State) : Reply × State :=
  if serial ∈ s.barred then ok { s with barred := s.barred.filter (· ≠ serial) } else refuse .noRecord s

/-- R24. -/
def reqBarList (s : State) : Reply × State := okWith (listBytes (s.barred.map (le 6))) s

/-! ### Meanings -/

def execOvenAdmit (slot group : Nat) (s : State) : Result := request (.ovenAdmit slot group) (reqOvenAdmit slot group) s
def execOvenCommission (slot : Nat) (cavity humidity : Int) (group : Nat) (thresholds : Thresholds) (s : State) :
    Result :=
  request (.ovenCommission slot cavity humidity group thresholds)
    (reqOvenCommission slot cavity humidity group thresholds) s
def execOvenDismiss (slot : Nat) (bar : Bool) (s : State) : Result :=
  request (.ovenDismiss slot bar) (reqOvenDismiss slot bar) s
def execOvenRetire (slot : Nat) (bar : Bool) (s : State) : Result :=
  request (.ovenRetire slot bar) (reqOvenRetire slot bar) s
def execOvenSet (slot : Nat) (group : Option Nat) (cavity humidity : Option Int) (thresholds : Thresholds) (s : State) :
    Result :=
  request (.ovenSet slot group cavity humidity thresholds) (reqOvenSet slot group cavity humidity thresholds) s
def execOvenLock (slot : Nat) (s : State) : Result := request (.ovenLock slot) (reqOvenLock slot) s
def execOvenUnlock (slot : Nat) (s : State) : Result := request (.ovenUnlock slot) (reqOvenUnlock slot) s
def execOvenRestore (slot serial : Nat) (record : RestoreRecord) (s : State) : Result :=
  request (.ovenRestore slot serial record) (reqOvenRestore slot serial record) s
def execSiteOpen (s : State) : Result := request .siteOpen reqSiteOpen s
def execOvenRead (slot : Nat) (s : State) : Result := request (.ovenRead slot) (reqOvenRead slot) s
def execOvenList (s : State) : Result := request .ovenList reqOvenList s
def execBar (serial : Nat) (s : State) : Result := request (.bar serial) (reqBar serial) s
def execUnbar (serial : Nat) (s : State) : Result := request (.unbar serial) (reqUnbar serial) s
def execBarList (s : State) : Result := request .barList reqBarList s

end Sys2Proof.Machine
end

