-- ==== Sys2Proof/Machine/Power.lean ====
section
/-! DEFINITION. Resets (R20, R48, R89, R107, R131, R155, R180, R187, R188, R194, R203). -/

namespace Sys2Proof.Machine

/-! ### Cold start and loss of the retention domain (R187) -/

/-- R187: the state a cold start leaves, the commands that wait kept and the bit rate as the BRSEL strap gives it. -/
def coldStart (brsel : Bool) (s : State) : State :=
  { State.reset with pending := s.pending, draws := s.draws, bitRate500 := brsel }

/-- R187: the contents of the retention domain are lost, and the main domain is held until a cold start (A8). -/
def retentionLoss (s : State) : State := { State.reset with pending := s.pending, draws := s.draws, power := .coldHeld }

/-! ### Warm reset (R20, R181, R188, R194) -/

/-- R20, R181, R194: what the main domain holds is lost. A request the port is still executing is lost with it, without effect
(A59); a CLOCK_SET has been taken before (see `clockTaken`). -/
def loseTransport (s : State) : State :=
  { s with
    tec := 0, rec_ := 0, busOff := false, inbound := [], urgent := [], answer := [], bulk := [], image := []
    transmitter := none, overruns := 0, discarded := 0, droppedAnswers := 0, droppedFrames := 0, lastDropped := (0, 0)
    rejoinHeld := [], slots := Vector.replicate 4 none, channels := Vector.replicate 2 none
    port := .idle, overrun := false, miso := [] }

/-- R184: a CLOCK_SET is taken whole when its frame is complete, so a warm reset that finds it executing leaves the clock set. -/
def clockTaken (s : State) : State :=
  match s.port with
  | .executing (.clockSet value) => (reqClockSet value s).2
  | _ => s

/-- R188: the main domain is held in reset; one already held keeps its cause (A7). -/
def warmReset (cause : ResetCause) (s : State) : State :=
  match s.power with
  | .running => { loseTransport (clockTaken s) with power := .warmReset cause (clockTaken s).clock }
  | .warmReset _ _ | .coldHeld => s

/-- R89 step 1: every entry in OFFERED or SENDING returns to PENDING; all four slots are free. -/
def offersToPending (s : State) : State :=
  { s with slots := Vector.replicate 4 none, loaded := s.loaded.map (fun l => l.map (fun e =>
      if e.state.inTransfer then { e with state := .pending, deadline := none } else e)) }

/-- R180 step 1: an entry in TRANSFERRING or SUSPENDED returns to WAITING. -/
def transferToWaiting (e : CEntry) : CEntry :=
  if e.state.isTransfer then { e with state := .waiting, timeouts := 0, deadline := none, channel := none } else e

/-- R180 step 1, for every campaign. -/
def transfersToWaiting (s : State) : State :=
  { s with campaigns := s.campaigns.map (Option.map (fun m => { m with entries := m.entries.map transferToWaiting })) }

/-- R188 step 1: the deadlines that passed expire, in the order of their instants; those of one instant, whose order R188
leaves open, in the order of records of A71. -/
def expirePassed (s : State) : State := (s.dueAlarms s.retainedAlarms).foldl (fun s a => a.expire s) s

/-- How many window starts of a minute of day lie at or before a clock value. -/
def startsBy (minute t : Nat) : Nat := if t < minute * 60 then 0 else (t - minute * 60) / 86400 + 1

/-- R188 step 2: the clock passed a window start of the campaign since an instant. -/
def State.windowPassed (s : State) (since c : Nat) : Bool :=
  match s.campaign c with
  | some m => decide (m.windowStart ≠ m.windowEnd) && decide (startsBy m.windowStart since < startsBy m.windowStart s.clock)
  | none => false

/-- R188 step 2: each window start passed is taken once, the campaigns in ascending order (A71). -/
def passedWindows (since : Nat) (s : State) : State :=
  (allCampaigns.filter (s.windowPassed since)).foldl (fun s c => gateCampaign c s) s

/-- R48: ASSIGN afresh for ASSIGNING records, TEST_ORDER afresh for TESTING ones, in one pass by ascending slot (A71). -/
def registryResumes (s : State) : State :=
  allSlots.foldl (fun s n =>
    match (s.oven n).state with
    | .assigning => assignFirst n s
    | .testing => placeTestOrder n s
    | .vacant | .discovered | .profiling | .awaitingSetup | .inService | .retiring => s) s

/-- The entries in UNLOADING, with their ovens: their UNLOAD may be lost with the queues. R89 step 2 gives no order among them: they
stand by ascending slot, and those of one oven in loaded-set order, which is the model's choice (A71); it decides which UNLOADs are
dropped when ANSWER is full. -/
def State.unloadingEntries (s : State) : List (Nat × Entry) :=
  allSlots.flatMap (fun n => ((s.loadedOf n).filter (fun e => e.state = .unloading)).map (fun e => (n, e)))

/-- R89 step 2: UNLOAD is placed afresh for an entry still in UNLOADING. -/
def unloadResumes (s : State) (x : Nat × Entry) : State :=
  match s.entry x.1 x.2.number x.2.version with
  | some e => if e.state = .unloading then sendUnload x.1 e.number e.version s else s
  | none => s

/-- R89 steps 2 and 4: UNLOAD afresh for the entries that were UNLOADING, in the order of `State.unloadingEntries` (A71); the slot
choice. -/
def distributionResumes (lost : List (Nat × Entry)) (s : State) : State := slotChoice (lost.foldl unloadResumes s)

/-- R107: STOP afresh for permits in STOPPING, by ascending slot (A71). -/
def permitsResume (s : State) : State :=
  allSlots.foldl (fun s n =>
    match s.permit n with
    | some p => if p.stopping then placeFor .permitUnit n (.stop p.number) s else s
    | none => s) s

/-- The entries in APPLYING, each as its campaign and oven: their APPLY may be lost with the queues. R180 step 2 gives no order
among them: they stand by ascending campaign and then ascending oven slot (A71). -/
def State.applyingEntries (s : State) : List (Nat × Nat) :=
  allCampaigns.flatMap (fun c =>
    match s.campaign c with
    | some m => (m.entries.filter (fun e => e.state = .applying)).map (fun e => (c, e.oven))
    | none => [])

/-- R180 step 2: APPLY is placed again for an entry still in APPLYING. -/
def applyResumes (s : State) (x : Nat × Nat) : State :=
  match s.campaign x.1, s.centry x.1 x.2 with
  | some m, some e =>
    if e.state = .applying then placeFor .updateRelay x.2 (.apply m.toVersion) s else s
  | _, _ => s

/-- R180 steps 2 and 3: APPLY again for the entries of the list, then the apply gating of every STAGED entry. -/
def relayResumes (lost : List (Nat × Nat)) (s : State) : State := gateAll (lost.foldl applyResumes s)

/-- R188 steps 1 and 2, with R89 step 1 and R180 steps 1 to 4, as far as no slot and no channel is chosen: what a deadline passed
in the reset does, the Relay's frames, and what a window start passed does (A10). R89 step 1 and R180 step 1 disarm the deadlines of
the entries in transfer before any that passed is taken (R89 step 3: those of the other entries). -/
def takePassed (since : Nat) (applying : List (Nat × Nat)) (s : State) : State :=
  passedWindows since (relayResumes applying (expirePassed (transfersToWaiting (offersToPending s))))

/-- R188 steps 3 and 4: the channel choice (R180 step 5), what the other blocks place afresh, the notice. -/
def makeUps (cause : ResetCause) (unloading : List (Nat × Entry)) (s : State) : State :=
  raise .siteRestarted 0 (le 1 1 ++ le 1 (resetCauseCode cause))
    (permitsResume (distributionResumes unloading (registryResumes (channelChoice s))))

/-- R188 steps 1 to 4 (their parts in the order of A10). The main domain runs again when the deadlines and window starts passed
have been taken: until then no slot and no channel is chosen (R89 step 4, R180 step 5). -/
def resume (cause : ResetCause) (since : Nat) (s : State) : State :=
  makeUps cause s.unloadingEntries { takePassed since s.applyingEntries s with power := .running }

/-- R188: the reset ends; BRSEL is sampled again (R20). -/
def warmResetEnd (brsel : Bool) (s : State) : State :=
  match s.power with
  | .warmReset cause since => settle (resume cause since { s with bitRate500 := brsel })
  | .running | .coldHeld => s

/-! ### Meanings -/

/-- R187: the environment sends COLD_START when both domains are valid after first power or a loss (A6). -/
def execColdStart (brsel : Bool) (s : State) : Result := .next (coldStart brsel s)
def execWarmReset (cause : ResetCause) (s : State) : Result := .next (warmReset cause s)
def execWarmResetEnd (brsel : Bool) (s : State) : Result := .next (warmResetEnd brsel s)
def execRetentionDomainLoss (s : State) : Result := .next (retentionLoss s)

end Sys2Proof.Machine
end

