-- ==== Sys2Proof/Machine/Requests.lean ====
section
/-! DEFINITION. Reading a written frame (R189, R190): the request table of section 10.3 and the body of each request, its fields
in the order its rule names them (00_scope, Named-field layouts). -/

namespace Sys2Proof.Machine

/-- What a reader makes of the bytes left: a value and the bytes after it, or nothing where they are too few. -/
abbrev Reader := StateT (List Byte) Option

/-- A number of k bytes. -/
def readNum (k : Nat) : Reader Nat := fun bs =>
  if k ≤ bs.length then some (unle (bs.take k), bs.drop k) else none

/-- A signed number of one byte. -/
def readSigned : Reader Int := do return signedOf (← readNum 1)

/-- A yes/no byte. -/
def readBool : Reader Bool := do return readFlag (← readNum 1)

/-- An optional field: a presence byte, then the field or zeros of its width. -/
def readOpt {α : Type} (field : Reader α) : Reader (Option α) := do
  let given ← readBool
  let value ← field
  return if given then some value else none

/-- k bytes as they stand. -/
def readBytes (k : Nat) : Reader (List Byte) := fun bs =>
  if k ≤ bs.length then some (bs.take k, bs.drop k) else none

/-- A text: its length in one byte, then its characters. -/
def readText : Reader (List Byte) := do readBytes (← readNum 1)

/-- An optional text: where not given, a text stands in its place that is read over, whatever its length byte (A66). -/
def readOptText : Reader (Option (List Byte)) := readOpt readText

/-- All the bytes left. -/
def readRest : Reader (List Byte) := fun bs => some (bs, [])

/-- k items one after the other. -/
def readMany {α : Type} (item : Reader α) : Nat → Reader (List α)
  | 0 => return []
  | k + 1 => do
    let x ← item
    let xs ← readMany item k
    return x :: xs

/-- A list: its count in one byte, then its items. -/
def readList {α : Type} (item : Reader α) : Reader (List α) := do readMany item (← readNum 1)

/-- A firmware version. -/
def readFirmware : Reader Firmware := do
  return { major := ← readNum 1, minor := ← readNum 1, build := ← readNum 2 }

/-- Three optional hygiene settings (R30, R41). -/
def readThresholds : Reader Thresholds := do
  return { advise := ← readOpt (readNum 2), lock := ← readOpt (readNum 2), interval := ← readOpt (readNum 2) }

/-- R44: the record of an OVEN_RESTORE. -/
def readRecord : Reader RestoreRecord := do
  return {
    model := ← readNum 1, firmware := ← readFirmware, maxTemp := ← readNum 2, steam := ← readBool
    probe := ← readBool, cleaning := ← readNum 1, capacity := ← readNum 1, cavity := ← readSigned
    humidity := ← readSigned, group := ← readNum 1, manualLock := ← readBool, cooks := ← readNum 2
    soil := ← readNum 2, advise := ← readNum 2, lock := ← readNum 2, interval := ← readNum 2
    lastFull := ← readNum 4, residue := ← readBool, order := ← readOpt (readNum 1), completed := ← readNum 2
    aborted := ← readNum 2 }

/-- Section 3.2: a step. -/
def readStep : Reader RawStep := do
  return {
    mode := ← readNum 1, setpoint := ← readNum 2, humidity := ← readNum 1, fan := ← readNum 1
    endKind := ← readNum 1, seconds := ← readNum 2, target := ← readNum 1, prompt := ← readBool }

/-- R134: a class record. -/
def readClass : Reader ClassArgs := do
  return {
    severity := ← readNum 1, blocksCleaning := ← readBool, blocksUpdates := ← readBool, autoClear := ← readBool
    e1 := ← readNum 2, e2 := ← readNum 2, e3 := ← readNum 2, cap := ← readNum 1 }

/-- R135: a routing entry. -/
def readRoute : Reader RouteArgs := do
  return {
    codePattern := ← readNum 2, codeMask := ← readNum 2, modelPattern := ← readNum 1, modelMask := ← readNum 1
    target := ← readNum 1, action := ← readNum 1 }

/-- R157: a campaign. -/
def readCampaign : Reader CampaignArgs := do
  return {
    model := ← readNum 1, fromVersions := ← readList readFirmware, toVersion := ← readFirmware
    imageSize := ← readNum 3, imageCrc := ← readNum 4, windowStart := ← readNum 2, windowEnd := ← readNum 2
    concurrency := ← readNum 1 }

/-- Section 10.3: the request of a kind byte, and how its body is read; none for a kind byte that names no request. -/
def readRequest : Nat → Option (Reader Instr)
  | 0x01 => some do return .busLevels (← readNum 1) (← readNum 1) (← readNum 1) (← readNum 1)
  | 0x02 => some do return .busStatus (← readBool)
  | 0x10 => some do return .ovenAdmit (← readNum 1) (← readNum 1)
  | 0x11 => some do
    return .ovenCommission (← readNum 1) (← readSigned) (← readSigned) (← readNum 1) (← readThresholds)
  | 0x12 => some do return .ovenDismiss (← readNum 1) (← readBool)
  | 0x13 => some do return .ovenRetire (← readNum 1) (← readBool)
  | 0x14 => some do
    return .ovenSet (← readNum 1) (← readOpt (readNum 1)) (← readOpt readSigned) (← readOpt readSigned)
      (← readThresholds)
  | 0x15 => some do return .ovenLock (← readNum 1)
  | 0x16 => some do return .ovenUnlock (← readNum 1)
  | 0x17 => some do return .ovenRestore (← readNum 1) (← readNum 6) (← readRecord)
  | 0x18 => some do return .siteOpen
  | 0x19 => some do return .ovenRead (← readNum 1)
  | 0x1A => some do return .ovenList
  | 0x1B => some do return .bar (← readNum 6)
  | 0x1C => some do return .unbar (← readNum 6)
  | 0x1D => some do return .barList
  | 0x20 => some do return .recipeDraft (← readNum 2) (← readText) (← readNum 1) (← readOpt (readNum 1))
  | 0x21 => some do return .recipeStep (← readNum 2) (← readNum 1) (← readStep)
  | 0x22 => some do return .recipeTrim (← readNum 2) (← readNum 1)
  | 0x23 => some do return .recipeDiscardDraft (← readNum 2)
  | 0x24 => some do return .recipePublish (← readNum 2)
  | 0x25 => some do return .recipeWithdraw (← readNum 2)
  | 0x26 => some do return .recipeGroups (← readNum 2) (← readNum 1)
  | 0x27 => some do return .recipeRead (← readNum 2) (← readNum 1)
  | 0x28 => some do return .recipeList (← readNum 2) (← readNum 1)
  | 0x30 => some do return .recipeResend (← readNum 1) (← readNum 2)
  | 0x31 => some do return .loadedSetRead (← readNum 1) (← readNum 1)
  | 0x32 => some do return .distStatus
  | 0x38 => some do return .permitRevoke (← readNum 1)
  | 0x39 => some do return .permitRead (← readNum 1)
  | 0x3A => some do return .permitList
  | 0x40 => some do return .cleanOrder (← readNum 1) (← readNum 1)
  | 0x41 => some do return .manualClean (← readNum 1)
  | 0x48 => some do return .classSet (← readNum 1) (← readClass)
  | 0x49 => some do return .classRead
  | 0x4A => some do return .routePut (← readNum 1) (← readRoute)
  | 0x4B => some do return .routeEnable (← readNum 1)
  | 0x4C => some do return .routeDisable (← readNum 1)
  | 0x4D => some do return .routeRead (← readBool)
  | 0x4E => some do return .ticketOpen (← readNum 1) (← readNum 1) (← readOpt (readNum 2))
  | 0x4F => some do return .ticketAck (← readNum 2) (← readOptText)
  | 0x50 => some do return .ticketResolve (← readNum 2)
  | 0x51 => some do return .ticketClose (← readNum 2)
  | 0x52 => some do return .ticketRead (← readNum 2)
  | 0x53 => some do return .ticketList (← readNum 2) (← readOpt (readNum 1))
  | 0x58 => some do return .campaignPut (← readNum 1) (← readCampaign)
  | 0x59 => some do return .campaignStart (← readNum 1)
  | 0x5A => some do return .campaignPause (← readNum 1)
  | 0x5B => some do return .campaignResume (← readNum 1)
  | 0x5C => some do return .campaignCancel (← readNum 1)
  | 0x5D => some do return .campaignClear (← readNum 1)
  | 0x5E => some do return .campaignRead (← readNum 1)
  | 0x5F => some do return .imageBlock (← readNum 1) (← readNum 3) (← readRest)
  | 0x60 => some do return .relayStatus
  | 0x68 => some do return .clockSet (← readNum 4)
  | 0x69 => some do return .clockRead
  | 0x70 => some do return .noticeRead
  | 0x71 => some do return .noticeEnable (← readNum 2)
  | _ => none

/-- R190: what is made of a written frame. -/
inductive Judged where
  | answer (status : Status)
  | take (i : Instr)
  deriving DecidableEq, Repr

/-- R190 steps 2 and 3: the kind byte and the body. -/
def judgeBody (kind : Nat) (body : List Byte) : Judged :=
  match readRequest kind with
  | none => .answer .unknownRequest
  | some reader =>
    match reader body with
    | some (i, []) => .take i
    | _ => .answer .badLength

/-- R190: a written frame is judged. -/
def judgeFrame (bytes : List Byte) : Judged :=
  match bytes with
  | kind :: l0 :: l1 :: body =>
    if 512 < unle [l0, l1] ∨ body.length ≠ unle [l0, l1] then .answer .badLength else judgeBody kind.toNat body
  | _ => .answer .badLength

end Sys2Proof.Machine
end

