-- ==== Sys2Proof/Machine/Spi.lean ====
section
/-! DEFINITION. Transactions on the SPI port (R189 to R192). `miso` holds the bytes the last transaction shifted out (A40). -/

namespace Sys2Proof.Machine

/-- R191, R193: the response frame: status, flags OVERRUN and CLAMPED, body length, body. -/
def responseFrame (overrun : Bool) (r : Reply) : List Byte :=
  le 1 r.status.code ++ le 1 (flagBits [overrun, r.status = .clamped]) ++ le 2 r.body.length ++ r.body

/-- R189, R190: a WRITE ends: its frame is taken and judged in IDLE, and discarded otherwise. -/
def spiWrite (bytes : List Byte) (s : State) : State :=
  let s := { s with miso := List.replicate bytes.length 0 }
  match s.port with
  | .idle =>
    match judgeFrame bytes with
    | .answer status => { s with port := .ready { status := status, body := [] } }
    | .take i => { s with port := .executing i }
  | .executing _ | .ready _ => { s with overrun := true }

/-- R191: the bytes a READ of n bytes shifts out. -/
def State.shiftedOut (s : State) (count : Nat) : List Byte :=
  match s.port with
  | .ready r => (responseFrame s.overrun r ++ List.replicate count 0).take count
  | .idle | .executing _ => List.replicate count 0xFF

/-- R191: a READ: in READY the response has been read when CS rises. -/
def spiRead (count : Nat) (s : State) : State :=
  let s' := { s with miso := s.shiftedOut count }
  match s.port with
  | .ready _ => { s' with port := .idle, overrun := false }
  | .idle | .executing _ => s'

/-- Section 10.1: a void transaction: MISO is 0x00 and nothing changes. -/
def voidTransaction (count : Nat) (s : State) : State := { s with miso := List.replicate count 0 }

/-! ### Meanings -/

def execSpiWrite (bytes : List Byte) (s : State) : Result := .next (event (spiWrite bytes) s)
def execSpiRead (count : Nat) (s : State) : Result := .next (event (spiRead count) s)
/-- Any command byte but 0x57 and 0x52 makes the transaction void. -/
def execVoidTransaction (command count : Nat) (s : State) : Result :=
  .next (event (if command = 0x57 ∨ command = 0x52 then id else voidTransaction count) s)

end Sys2Proof.Machine
end

