-- ==== Sys2Proof/Machine/Dispatch.lean ====
section
/-! DEFINITION. One arm for each command, each a direct call of its meaning. -/

namespace Sys2Proof.Machine

def exec (i : Instr) (s : State) : Host.Outcome State Fault Refusal :=
  match i with
  | .frameReceive frame => Sys2Proof.Machine.execFrameReceive frame s
  | .frameDiscard => Sys2Proof.Machine.execFrameDiscard s
  | .claim => Sys2Proof.Machine.execClaim s
  | .rejoin => Sys2Proof.Machine.execRejoin s
  | .assignAck => Sys2Proof.Machine.execAssignAck s
  | .capability => Sys2Proof.Machine.execCapability s
  | .status => Sys2Proof.Machine.execStatus s
  | .testReport => Sys2Proof.Machine.execTestReport s
  | .lookup => Sys2Proof.Machine.execLookup s
  | .pull => Sys2Proof.Machine.execPull s
  | .have_ => Sys2Proof.Machine.execHave s
  | .decline => Sys2Proof.Machine.execDecline s
  | .loadDone => Sys2Proof.Machine.execLoadDone s
  | .unloadDone => Sys2Proof.Machine.execUnloadDone s
  | .startRequest => Sys2Proof.Machine.execStartRequest s
  | .stageSummary => Sys2Proof.Machine.execStageSummary s
  | .cookEnd => Sys2Proof.Machine.execCookEnd s
  | .cleanStart => Sys2Proof.Machine.execCleanStart s
  | .cleanPhase => Sys2Proof.Machine.execCleanPhase s
  | .cleanEnd => Sys2Proof.Machine.execCleanEnd s
  | .fault => Sys2Proof.Machine.execFault s
  | .imageReady => Sys2Proof.Machine.execImageReady s
  | .imageRefuse => Sys2Proof.Machine.execImageRefuse s
  | .imageAck => Sys2Proof.Machine.execImageAck s
  | .imageCheck => Sys2Proof.Machine.execImageCheck s
  | .frameSent => Sys2Proof.Machine.execFrameSent s
  | .arbitrationLost => Sys2Proof.Machine.execArbitrationLost s
  | .transmitError noAcknowledge => Sys2Proof.Machine.execTransmitError noAcknowledge s
  | .receiveError dominantAfterFlag => Sys2Proof.Machine.execReceiveError dominantAfterFlag s
  | .busOffRecovery => Sys2Proof.Machine.execBusOffRecovery s
  | .holdDeadlineExpiry slot => Sys2Proof.Machine.execHoldDeadlineExpiry slot s
  | .assignReplyDeadline slot => Sys2Proof.Machine.execAssignReplyDeadline slot s
  | .profileDeadline slot => Sys2Proof.Machine.execProfileDeadline slot s
  | .testDeadline slot => Sys2Proof.Machine.execTestDeadline slot s
  | .silenceDeadline slot => Sys2Proof.Machine.execSilenceDeadline slot s
  | .gatheringDeadline slot => Sys2Proof.Machine.execGatheringDeadline slot s
  | .offerReplyDeadline slot => Sys2Proof.Machine.execOfferReplyDeadline slot s
  | .progressDeadline slot => Sys2Proof.Machine.execProgressDeadline slot s
  | .unloadDeadline slot number version => Sys2Proof.Machine.execUnloadDeadline slot number version s
  | .permitDeadline slot => Sys2Proof.Machine.execPermitDeadline slot s
  | .hygieneDeadline slot => Sys2Proof.Machine.execHygieneDeadline slot s
  | .advancePoint slot => Sys2Proof.Machine.execAdvancePoint slot s
  | .cleanDeadline slot => Sys2Proof.Machine.execCleanDeadline slot s
  | .escalationDeadline ticket => Sys2Proof.Machine.execEscalationDeadline ticket s
  | .verificationDeadline ticket => Sys2Proof.Machine.execVerificationDeadline ticket s
  | .entryHoldDeadline campaign slot => Sys2Proof.Machine.execEntryHoldDeadline campaign slot s
  | .applyDeadline campaign slot => Sys2Proof.Machine.execApplyDeadline campaign slot s
  | .acknowledgementTimeout channel => Sys2Proof.Machine.execAcknowledgementTimeout channel s
  | .checkDeadline channel => Sys2Proof.Machine.execCheckDeadline channel s
  | .windowStart campaign => Sys2Proof.Machine.execWindowStart campaign s
  | .spiWrite bytes => Sys2Proof.Machine.execSpiWrite bytes s
  | .spiRead count => Sys2Proof.Machine.execSpiRead count s
  | .voidTransaction command count => Sys2Proof.Machine.execVoidTransaction command count s
  | .busLevels urgent answer bulk image => Sys2Proof.Machine.execBusLevels urgent answer bulk image s
  | .busStatus clear => Sys2Proof.Machine.execBusStatus clear s
  | .ovenAdmit slot group => Sys2Proof.Machine.execOvenAdmit slot group s
  | .ovenCommission slot cavity humidity group thresholds => Sys2Proof.Machine.execOvenCommission slot cavity humidity group thresholds s
  | .ovenDismiss slot bar => Sys2Proof.Machine.execOvenDismiss slot bar s
  | .ovenRetire slot bar => Sys2Proof.Machine.execOvenRetire slot bar s
  | .ovenSet slot group cavity humidity thresholds => Sys2Proof.Machine.execOvenSet slot group cavity humidity thresholds s
  | .ovenLock slot => Sys2Proof.Machine.execOvenLock slot s
  | .ovenUnlock slot => Sys2Proof.Machine.execOvenUnlock slot s
  | .ovenRestore slot serial record => Sys2Proof.Machine.execOvenRestore slot serial record s
  | .siteOpen => Sys2Proof.Machine.execSiteOpen s
  | .ovenRead slot => Sys2Proof.Machine.execOvenRead slot s
  | .ovenList => Sys2Proof.Machine.execOvenList s
  | .bar serial => Sys2Proof.Machine.execBar serial s
  | .unbar serial => Sys2Proof.Machine.execUnbar serial s
  | .barList => Sys2Proof.Machine.execBarList s
  | .recipeDraft number name fat version => Sys2Proof.Machine.execRecipeDraft number name fat version s
  | .recipeStep number index step => Sys2Proof.Machine.execRecipeStep number index step s
  | .recipeTrim number count => Sys2Proof.Machine.execRecipeTrim number count s
  | .recipeDiscardDraft number => Sys2Proof.Machine.execRecipeDiscardDraft number s
  | .recipePublish number => Sys2Proof.Machine.execRecipePublish number s
  | .recipeWithdraw number => Sys2Proof.Machine.execRecipeWithdraw number s
  | .recipeGroups number groups => Sys2Proof.Machine.execRecipeGroups number groups s
  | .recipeRead number version => Sys2Proof.Machine.execRecipeRead number version s
  | .recipeList number version => Sys2Proof.Machine.execRecipeList number version s
  | .recipeResend slot number => Sys2Proof.Machine.execRecipeResend slot number s
  | .loadedSetRead slot start => Sys2Proof.Machine.execLoadedSetRead slot start s
  | .distStatus => Sys2Proof.Machine.execDistStatus s
  | .permitRevoke slot => Sys2Proof.Machine.execPermitRevoke slot s
  | .permitRead slot => Sys2Proof.Machine.execPermitRead slot s
  | .permitList => Sys2Proof.Machine.execPermitList s
  | .cleanOrder slot programme => Sys2Proof.Machine.execCleanOrder slot programme s
  | .manualClean slot => Sys2Proof.Machine.execManualClean slot s
  | .classSet cls args => Sys2Proof.Machine.execClassSet cls args s
  | .classRead => Sys2Proof.Machine.execClassRead s
  | .routePut entry args => Sys2Proof.Machine.execRoutePut entry args s
  | .routeEnable entry => Sys2Proof.Machine.execRouteEnable entry s
  | .routeDisable entry => Sys2Proof.Machine.execRouteDisable entry s
  | .routeRead clear => Sys2Proof.Machine.execRouteRead clear s
  | .ticketOpen oven cls code => Sys2Proof.Machine.execTicketOpen oven cls code s
  | .ticketAck ticket reference => Sys2Proof.Machine.execTicketAck ticket reference s
  | .ticketResolve ticket => Sys2Proof.Machine.execTicketResolve ticket s
  | .ticketClose ticket => Sys2Proof.Machine.execTicketClose ticket s
  | .ticketRead ticket => Sys2Proof.Machine.execTicketRead ticket s
  | .ticketList start oven => Sys2Proof.Machine.execTicketList start oven s
  | .campaignPut slot args => Sys2Proof.Machine.execCampaignPut slot args s
  | .campaignStart slot => Sys2Proof.Machine.execCampaignStart slot s
  | .campaignPause slot => Sys2Proof.Machine.execCampaignPause slot s
  | .campaignResume slot => Sys2Proof.Machine.execCampaignResume slot s
  | .campaignCancel slot => Sys2Proof.Machine.execCampaignCancel slot s
  | .campaignClear slot => Sys2Proof.Machine.execCampaignClear slot s
  | .campaignRead slot => Sys2Proof.Machine.execCampaignRead slot s
  | .imageBlock channel offset bytes => Sys2Proof.Machine.execImageBlock channel offset bytes s
  | .relayStatus => Sys2Proof.Machine.execRelayStatus s
  | .clockSet value => Sys2Proof.Machine.execClockSet value s
  | .clockRead => Sys2Proof.Machine.execClockRead s
  | .noticeRead => Sys2Proof.Machine.execNoticeRead s
  | .noticeEnable kinds => Sys2Proof.Machine.execNoticeEnable kinds s
  | .coldStart brsel => Sys2Proof.Machine.execColdStart brsel s
  | .warmReset cause => Sys2Proof.Machine.execWarmReset cause s
  | .warmResetEnd brsel => Sys2Proof.Machine.execWarmResetEnd brsel s
  | .retentionDomainLoss => Sys2Proof.Machine.execRetentionDomainLoss s
  | .filteredFrame => Sys2Proof.Machine.execFilteredFrame s

end Sys2Proof.Machine
end

