-- ==== Sys2Proof/Machine/Tick.lean ====
section
/-! DEFINITION. What happens when no command waits (A3): a request being executed is carried out, a frame in the inbound buffer
is dispatched, or else a second passes; each as the command that takes it, put into the queue. -/

namespace Sys2Proof.Machine

/-- The row that takes a frame of a kind off the inbound buffer. -/
def InKind.command : InKind → Instr
  | .claim => .claim | .rejoin => .rejoin | .assignAck => .assignAck | .capability => .capability
  | .status => .status | .testReport => .testReport | .lookup => .lookup | .pull => .pull | .have_ => .have_
  | .decline => .decline | .loadDone => .loadDone | .unloadDone => .unloadDone | .startRequest => .startRequest
  | .stageSummary => .stageSummary | .cookEnd => .cookEnd | .cleanStart => .cleanStart
  | .cleanPhase => .cleanPhase | .cleanEnd => .cleanEnd | .fault => .fault | .imageReady => .imageReady
  | .imageRefuse => .imageRefuse | .imageAck => .imageAck | .imageCheck => .imageCheck

/-- R3: the row that takes the frame at the head of the inbound buffer. -/
def dispatchOf (f : InFrame) : Instr :=
  match acceptedKind f with
  | some k => k.command
  | none => .frameDiscard

/-- R182: the site clock after one second more. -/
def tickClock (s : State) : State := { s with clock := satAdd Config.maxClock s.clock 1 }

/-- R183, R173: the commands of the deadlines due, earliest first (at one instant as A71 says), and of the window starts
reached, by ascending campaign (A3). -/
def State.fallDue (s : State) : List Instr :=
  (s.dueAlarms s.alarms).map Alarm.command ++ (allCampaigns.filter s.windowOpens).map Instr.windowStart

/-- One second of the main domain. -/
def second (s : State) : State := { tickClock s with pending := s.pending ++ (tickClock s).fallDue }

/-- A3: what happens when no command waits. -/
def idle (s : State) : State :=
  match s.power with
  | .coldHeld => s
  | .warmReset _ _ => tickClock s
  | .running =>
    match s.port, s.inbound with
    | .executing i, _ => { s with pending := s.pending ++ [i] }
    | _, f :: _ => { s with pending := s.pending ++ [dispatchOf f] }
    | _, [] => second s

end Sys2Proof.Machine
end

