-- ==== Sys2Proof/Machine/Encode.lean ====
section
/-! DEFINITION. The frame the site processor writes for a request (section 10.3, R190): kind byte, body length, body. It is
written from the request table and the rules that name each request's fields, and is what `judgeFrame` reads back. -/

namespace Sys2Proof.Machine

/-- An optional number of k bytes (00_scope, Named-field layouts). -/
def optNum (k : Nat) (o : Option Nat) : List Byte := optBytes k (o.map (le k))

/-- An optional signed number of one byte. -/
def optSigned (o : Option Int) : List Byte := optBytes 1 (o.map (fun i => [signedByte i]))

def thresholdFields (t : Thresholds) : List Byte := optNum 2 t.advise ++ optNum 2 t.lock ++ optNum 2 t.interval

/-- R44: the fields of a restored record, in the order it names them. -/
def recordFields (r : RestoreRecord) : List Byte :=
  le 1 r.model ++ firmwareBytes r.firmware ++ le 2 r.maxTemp ++ [flagByte r.steam, flagByte r.probe] ++
    le 1 r.cleaning ++ le 1 r.capacity ++ [signedByte r.cavity, signedByte r.humidity] ++ le 1 r.group ++
    [flagByte r.manualLock] ++ le 2 r.cooks ++ le 2 r.soil ++ le 2 r.advise ++ le 2 r.lock ++ le 2 r.interval ++
    le 4 r.lastFull ++ [flagByte r.residue] ++ optNum 1 r.order ++ le 2 r.completed ++ le 2 r.aborted

/-- Section 3.2: the fields of a step as RECIPE_STEP carries them. -/
def rawStepFields (t : RawStep) : List Byte :=
  le 1 t.mode ++ le 2 t.setpoint ++ le 1 t.humidity ++ le 1 t.fan ++ le 1 t.endKind ++ le 2 t.seconds ++
    le 1 t.target ++ [flagByte t.prompt]

/-- R134: the fields of a class. -/
def classFields (a : ClassArgs) : List Byte :=
  le 1 a.severity ++ [flagByte a.blocksCleaning, flagByte a.blocksUpdates, flagByte a.autoClear] ++ le 2 a.e1 ++
    le 2 a.e2 ++ le 2 a.e3 ++ le 1 a.cap

/-- R135: the fields of a routing entry. -/
def routeFields (a : RouteArgs) : List Byte :=
  le 2 a.codePattern ++ le 2 a.codeMask ++ le 1 a.modelPattern ++ le 1 a.modelMask ++ le 1 a.target ++ le 1 a.action

/-- R157: the fields of a campaign. -/
def campaignFields (a : CampaignArgs) : List Byte :=
  le 1 a.model ++ listBytes (a.fromVersions.map firmwareBytes) ++ firmwareBytes a.toVersion ++ le 3 a.imageSize ++
    le 4 a.imageCrc ++ le 2 a.windowStart ++ le 2 a.windowEnd ++ le 1 a.concurrency

/-- Section 10.3: a request's kind byte and body; none for a row that is no request. -/
def requestParts : Instr → Option (Nat × List Byte)
  | .busLevels u a b i => some (0x01, le 1 u ++ le 1 a ++ le 1 b ++ le 1 i)
  | .busStatus clear => some (0x02, [flagByte clear])
  | .ovenAdmit n g => some (0x10, le 1 n ++ le 1 g)
  | .ovenCommission n c h g t => some (0x11, le 1 n ++ [signedByte c, signedByte h] ++ le 1 g ++ thresholdFields t)
  | .ovenDismiss n bar => some (0x12, le 1 n ++ [flagByte bar])
  | .ovenRetire n bar => some (0x13, le 1 n ++ [flagByte bar])
  | .ovenSet n g c h t => some (0x14, le 1 n ++ optNum 1 g ++ optSigned c ++ optSigned h ++ thresholdFields t)
  | .ovenLock n => some (0x15, le 1 n)
  | .ovenUnlock n => some (0x16, le 1 n)
  | .ovenRestore n serial r => some (0x17, le 1 n ++ le 6 serial ++ recordFields r)
  | .siteOpen => some (0x18, [])
  | .ovenRead n => some (0x19, le 1 n)
  | .ovenList => some (0x1A, [])
  | .bar serial => some (0x1B, le 6 serial)
  | .unbar serial => some (0x1C, le 6 serial)
  | .barList => some (0x1D, [])
  | .recipeDraft i name fat v => some (0x20, le 2 i ++ textBytes name ++ le 1 fat ++ optNum 1 v)
  | .recipeStep i k t => some (0x21, le 2 i ++ le 1 k ++ rawStepFields t)
  | .recipeTrim i k => some (0x22, le 2 i ++ le 1 k)
  | .recipeDiscardDraft i => some (0x23, le 2 i)
  | .recipePublish i => some (0x24, le 2 i)
  | .recipeWithdraw i => some (0x25, le 2 i)
  | .recipeGroups i g => some (0x26, le 2 i ++ le 1 g)
  | .recipeRead i v => some (0x27, le 2 i ++ le 1 v)
  | .recipeList i v => some (0x28, le 2 i ++ le 1 v)
  | .recipeResend n i => some (0x30, le 1 n ++ le 2 i)
  | .loadedSetRead n i => some (0x31, le 1 n ++ le 1 i)
  | .distStatus => some (0x32, [])
  | .permitRevoke n => some (0x38, le 1 n)
  | .permitRead n => some (0x39, le 1 n)
  | .permitList => some (0x3A, [])
  | .cleanOrder n p => some (0x40, le 1 n ++ le 1 p)
  | .manualClean n => some (0x41, le 1 n)
  | .classSet c a => some (0x48, le 1 c ++ classFields a)
  | .classRead => some (0x49, [])
  | .routePut e a => some (0x4A, le 1 e ++ routeFields a)
  | .routeEnable e => some (0x4B, le 1 e)
  | .routeDisable e => some (0x4C, le 1 e)
  | .routeRead clear => some (0x4D, [flagByte clear])
  | .ticketOpen o c code => some (0x4E, le 1 o ++ le 1 c ++ optNum 2 code)
  | .ticketAck k ref => some (0x4F, le 2 k ++ optBytes 1 (ref.map textBytes))
  | .ticketResolve k => some (0x50, le 2 k)
  | .ticketClose k => some (0x51, le 2 k)
  | .ticketRead k => some (0x52, le 2 k)
  | .ticketList k o => some (0x53, le 2 k ++ optNum 1 o)
  | .campaignPut c a => some (0x58, le 1 c ++ campaignFields a)
  | .campaignStart c => some (0x59, le 1 c)
  | .campaignPause c => some (0x5A, le 1 c)
  | .campaignResume c => some (0x5B, le 1 c)
  | .campaignCancel c => some (0x5C, le 1 c)
  | .campaignClear c => some (0x5D, le 1 c)
  | .campaignRead c => some (0x5E, le 1 c)
  | .imageBlock ch o bytes => some (0x5F, le 1 ch ++ le 3 o ++ bytes)
  | .relayStatus => some (0x60, [])
  | .clockSet v => some (0x68, le 4 v)
  | .clockRead => some (0x69, [])
  | .noticeRead => some (0x70, [])
  | .noticeEnable k => some (0x71, le 2 k)
  | _ => none

/-- R190: the bytes of a WRITE that gives a request: kind byte, two-byte body length, body. -/
def requestFrame (i : Instr) : List Byte :=
  match requestParts i with
  | some (kind, body) => le 1 kind ++ le 2 body.length ++ body
  | none => []

/-- The length of a request's body. -/
def requestLength (i : Instr) : Nat :=
  match requestParts i with
  | some (_, body) => body.length
  | none => 0

end Sys2Proof.Machine
end

