-- ==== Sys2Proof/Safety.lean ====
section
/-! DEFINITION. What counts as a safe state of the KC32, and the terms the statements use: the invariants of the manual's prose,
the domain in which a command is taken, and what a placed frame does when the transmitter has been served. -/

namespace Sys2Proof.Machine

/-! ### When a command is taken -/

/-- R181, R183: the main domain runs and the site clock is below its maximum. -/
abbrev State.Live (s : State) : Prop := s.power = .running ∧ s.clock < Config.maxClock

/-- R190, A4: a request is carried out: the port is executing it, or is IDLE and the request comes as a row of its own. -/
abbrev State.Serves (s : State) (i : Instr) : Prop := s.Live ∧ (s.port = .idle ∨ s.port = .executing i)

/-- Section 10.3: the rows that are requests of the site processor. -/
def isRequest : Instr → Bool
  | .busLevels .. | .busStatus .. | .ovenAdmit .. | .ovenCommission .. | .ovenDismiss .. | .ovenRetire .. | .ovenSet ..
  | .ovenLock .. | .ovenUnlock .. | .ovenRestore .. | .siteOpen | .ovenRead .. | .ovenList | .bar .. | .unbar ..
  | .barList | .recipeDraft .. | .recipeStep .. | .recipeTrim .. | .recipeDiscardDraft .. | .recipePublish ..
  | .recipeWithdraw .. | .recipeGroups .. | .recipeRead .. | .recipeList .. | .recipeResend .. | .loadedSetRead ..
  | .distStatus | .permitRevoke .. | .permitRead .. | .permitList | .cleanOrder .. | .manualClean .. | .classSet ..
  | .classRead | .routePut .. | .routeEnable .. | .routeDisable .. | .routeRead .. | .ticketOpen .. | .ticketAck ..
  | .ticketResolve .. | .ticketClose .. | .ticketRead .. | .ticketList .. | .campaignPut .. | .campaignStart ..
  | .campaignPause .. | .campaignResume .. | .campaignCancel .. | .campaignClear .. | .campaignRead .. | .imageBlock ..
  | .relayStatus | .clockSet .. | .clockRead | .noticeRead | .noticeEnable .. => true
  | _ => false

/-- Chapter 9: the rows that are resets or a loss of the retention domain; every other row is an event of the main domain. -/
def isReset : Instr → Bool
  | .coldStart .. | .warmReset .. | .warmResetEnd .. | .retentionDomainLoss => true
  | _ => false

/-! ### Served transmitter (R10) -/

/-- R10, R11: the transmitter takes no frame now: it holds one, or node 0 is in BUS_OFF. -/
def State.held (s : State) : Bool := s.transmitter.isSome || s.busOff

/-- R10: a free transmitter outside BUS_OFF leaves no frame waiting. -/
def State.Settled (s : State) : Prop :=
  s.held = false → s.urgent = [] ∧ s.answer = [] ∧ s.bulk = [] ∧ s.image = []

/-- R6, R10: where a placed frame goes in a settled state: into its queue while the transmitter takes none, else straight into
the transmitter. -/
def deliver (f : OutFrame) (s : State) : State := if s.held then enqueue f s else { s with transmitter := some f }

/-! ### Frames of the statements -/

/-- The fields no operation of a block touches: they belong to the commands themselves. What a
statement says is `Still` is unchanged. -/
structure Still (s t : State) : Prop where
  pending : t.pending = s.pending := by rfl
  power : t.power = s.power := by rfl
  clock : t.clock = s.clock := by rfl
  clockUnset : t.clockUnset = s.clockUnset := by rfl
  bitRate500 : t.bitRate500 = s.bitRate500 := by rfl
  tec : t.tec = s.tec := by rfl
  receive : t.rec_ = s.rec_ := by rfl
  busOff : t.busOff = s.busOff := by rfl
  inbound : t.inbound = s.inbound := by rfl
  levels : t.levels = s.levels := by rfl
  overruns : t.overruns = s.overruns := by rfl
  discarded : t.discarded = s.discarded := by rfl
  barred : t.barred = s.barred := by rfl
  siteOpen : t.siteOpen = s.siteOpen := by rfl
  rejoinHeld : t.rejoinHeld = s.rejoinHeld := by rfl
  classes : t.classes = s.classes := by rfl
  port : t.port = s.port := by rfl
  overrun : t.overrun = s.overrun := by rfl
  miso : t.miso = s.miso := by rfl
  enables : t.enables = s.enables := by rfl

/-- R193: the port holds a response. -/
abbrev State.reply (s : State) (status : Status) (body : List Byte) : State :=
  { s with port := .ready { status := status, body := body } }

/-- R6: a frame for an oven that belongs to no stream. -/
abbrev ovenFrame (p : Producer) (n : Nat) (d : Payload) : OutFrame :=
  { payload := d, producer := p, mark := .oven n, dest := n }

/-- R3, R4: the frame at the head of the inbound buffer is one of a kind from a slot whose frames are accepted and whose oven
is PRESENT. -/
structure State.Hears (s : State) (k : InKind) (f : InFrame) (rest : List InFrame) : Prop where
  live : s.Live
  head : s.inbound = f :: rest
  kind : acceptedKind f = some k
  slot : isSlot f.source
  accepted : (s.oven f.source).state.accepted = true
  present : (s.oven f.source).present = true

/-- R5, R36: the frame has left the buffer and the oven has been heard: what the block that owns the kind finds. -/
def State.afterHearing (s : State) (f : InFrame) (rest : List InFrame) : State :=
  let o := s.oven f.source
  State.setOven { s with inbound := rest } f.source { o with
    lastHeard := s.clock
    silence := if o.state.watched then some (s.after 10) else o.silence }

/-- R22: ASSIGN goes to node 62; its mark is the slot whose record holds the serial (A24). -/
abbrev assignFrame (s : State) (serial n : Nat) : OutFrame :=
  { payload := .assign serial n, producer := .registry, mark := .oven ((s.slotOfSerial serial).getD 62), dest := 62 }

/-- R22: BARRED goes to node 62. -/
abbrev barredFrame (s : State) (serial : Nat) (siteFull : Bool) : OutFrame :=
  { payload := .barred serial siteFull, producer := .registry, mark := .oven ((s.slotOfSerial serial).getD 62), dest := 62 }

/-- R115: HYGIENE_STATE of a hygiene part: state, order, residue flag, soil, lock threshold, minutes to the hygiene deadline. -/
abbrev hygieneFrame (s : State) (n : Nat) (h : Hygiene) : OutFrame :=
  ovenFrame .hygieneMonitor n (.hygieneState h.state h.order h.residue h.soil h.settings.lock
    (match h.deadline with | .armed t => (t - s.clock) / 60 | .passed => 0))

/-- The oven record of a slot with another hygiene part. -/
abbrev State.withHygiene (s : State) (n : Nat) (h : Hygiene) : State :=
  s.setOven n { s.oven n with hygiene := some h }

/-- R113: a point of the hygiene interval at an instant: passed when it is not later than now. -/
abbrev pointAt (s : State) (t : Nat) : Point := if t ≤ s.clock then .passed else .armed t

/-- R114: a hygiene part with the cleaning state its fields give. -/
abbrev Hygiene.restated (h : Hygiene) : Hygiene := { h with state := h.judged }

/-- R195: the detail of a HYGIENE notice. -/
abbrev hygieneDetail (cause : Nat) (h : Hygiene) (programme phase : Nat) : List Byte :=
  le 1 cause ++ le 1 h.state.code ++ le 2 h.soil ++ le 1 programme ++ le 1 phase

/-- R195: the detail of a TICKET notice. -/
abbrev ticketDetail (s : State) (cause state : Nat) (t : Ticket) : List Byte :=
  le 1 cause ++ le 1 t.oven ++ le 1 t.cls ++ le 1 (s.cls t.cls).severity.code ++ le 1 state ++ le 1 t.level ++
    le 2 t.occurrences

/-- R142: the escalation deadline of a ticket that comes to stand at a level below 3: e minutes away, none where e is 0. -/
abbrev escalationAt (s : State) (minutes : Nat) : Option Nat :=
  if minutes = 0 then none else some (min 4294967295 (s.clock + minutes * 60))

/-- R151, R152: a ticket of the class is reported to no other block. -/
def State.Quiet (s : State) (c : Nat) : Prop := (s.cls c).severity ≠ .lockout ∧ (s.cls c).blocksUpdates = false

/-- R21: the queues without the Registry's own unsent frames for a slot. -/
abbrev State.clearedOf (s : State) (n : Nat) : State :=
  withdraw .answer .registry (registryFrame n) (withdraw .urgent .registry (registryFrame n) s)

/-- R10: the place of a queue in the natural order. -/
def QueueName.place : QueueName → Nat
  | .urgent => 0
  | .answer => 1
  | .bulk => 2
  | .image => 3

/-- R9: the priority level of a queue. -/
def State.level (s : State) : QueueName → Nat
  | .urgent => s.levels.urgent
  | .answer => s.levels.answer
  | .bulk => s.levels.bulk
  | .image => s.levels.image

/-- R10: f is the frame the transmitter would take: the head of the non-empty queue of the highest level, the first of them in
the natural order. -/
structure State.Chooses (s : State) (q : QueueName) (f : OutFrame) (rest : List OutFrame) : Prop where
  head : s.queue q = f :: rest
  best : ∀ r, s.queue r ≠ [] → s.level r < s.level q ∨ (s.level r = s.level q ∧ q.place ≤ r.place)

/-- R8, R79, R162, R167: the producer of a frame has nothing to do when the transmitter takes it: a frame of no stream; a SEGMENT
of a transfer whose frames are all placed, which is not the last; an IMAGE frame of a channel with no frame ready, or of an unbound
channel that no campaign waits for. -/
def State.Unfollowed (s : State) (f : OutFrame) : Prop :=
  match f.mark with
  | .oven _ => True
  | .distSlot k => ∀ b, s.distSlot k = some b → b.total ≤ b.next ∧ f.payload.tag + 1 ≠ b.total
  | .channel ch =>
    (∃ b m, s.channel ch = some b ∧ s.campaign b.campaign = some m ∧
      (b.stream = .streaming → frameReady m.imageSize b = false)) ∨
    (s.channel ch = none ∧ ∀ c, s.campaign c = none)

/-! ### What one record's change tells another block -/

/-- R42, R151: the lock set of a slot with its TICKET reason as the tickets stand; a changed set is told to an oven in service or
RETIRING. -/
def relocked (n : Nat) (s : State) : State :=
  let o := s.oven n
  let locks : Locks := { o.locks with
    manual := o.manualLock
    ticket := s.tickets.any fun t => decide (t.oven = n ∧ t.state ≠ .verifying ∧ (s.cls t.cls).severity = .lockout) }
  if o.state = .vacant ∨ locks = o.locks then s
  else if o.state = .inService ∨ o.state = .retiring then
    deliver (ovenFrame .registry n (.lockState locks)) (s.setOven n { o with locks := locks })
  else s.setOven n { o with locks := locks }

/-- R151, R152: what an event of a ticket of an oven and a class tells: of a LOCKOUT class the Registry, of a class that blocks
updates the Update Relay, which makes its channel choice; a site-level ticket is not reported. -/
def reported (n c : Nat) (s : State) : State :=
  if n = 0 then s
  else
    let told := if (s.cls c).severity = .lockout then relocked n s else s
    if (s.cls c).blocksUpdates = true then channelChoice told else told

/-- The lock set of a slot has UPDATE exactly while the oven has an APPLYING entry (R42), and no STAGED entry waits for the lock
set to empty (R173). -/
structure State.Ungated (s : State) (n : Nat) : Prop where
  settled : s.Settled
  staged : s.campaignWhere n (fun x => x = .staged) = none
  update : (s.oven n).locks.update = s.applying n

/-- R150: every ticket of a slot closed WITHDRAWN, in ascending number (A56). -/
def withdrawn (n : Nat) (s : State) : State :=
  (s.tickets.filter fun t => t.oven = n).foldl (fun u t =>
    let closed := raise .ticket t.number (ticketDetail s 9 0 t) { u with
      tickets := u.tickets.filter fun x => decide (x.number ≠ t.number) }
    if t.state = .verifying then closed else reported n t.cls closed) s

/-- R80: the transfer of an oven is ended, apart from its entry: frames withdrawn, the slot freed. -/
def State.freed (s : State) (n : Nat) : State :=
  match s.boundSlot n with
  | some k => (withdrawSegments k s).setDistSlot k none
  | none => s

/-- R164: the two frames of an IMAGE_BEGIN, tag 0 then tag 1. -/
def beginFrames (ch n offset : Nat) (m : Campaign) (s : State) : State :=
  enqueue (imageFrame ch n (.imageBegin1 m.imageCrc m.toVersion))
    (deliver (imageFrame ch n (.imageBegin0 m.imageSize offset)) s)

/-- R167: the IMAGE_DATA frame at sent: the frame index and the bytes up to the next multiple of 6 or the end of the image. -/
def imageAt (ch : Nat) (m : Campaign) (b : Binding) : OutFrame :=
  imageFrame ch b.oven (.imageData (b.sent / 6 % 65536)
    ((b.buffer.drop (b.sent - b.acked)).take (min (6 - b.sent % 6) (m.imageSize - b.sent))))

/-- R167: the channel after the frame at sent is placed: sent has risen by its bytes, and the acknowledgement timeout is armed where
none was and sent passes acked. -/
def State.sentOn (s : State) (m : Campaign) (b : Binding) : Binding :=
  let sent := b.sent + ((b.buffer.drop (b.sent - b.acked)).take (min (6 - b.sent % 6) (m.imageSize - b.sent))).length
  { b with
    sent := sent
    timeout := if b.timeout = none ∧ b.acked < sent then some (min 4294967295 (s.clock + 2)) else b.timeout }

/-- R167: a frame is ready at sent. -/
abbrev Binding.Ready (b : Binding) (m : Campaign) : Prop :=
  b.sent + 6 ≤ b.taken ∨ (b.taken = m.imageSize ∧ b.sent < m.imageSize)

/-- R167, R10: the placing goes on of a STREAMING channel, b, of a settled state: into IMAGE while the transmitter takes none, else
the first ready frame goes straight into the transmitter and the next ones into IMAGE. -/
def streamed (ch : Nat) (m : Campaign) (b : Binding) (s : State) : State :=
  if s.held then fillImage 8 ch s
  else if b.Ready m then
    fillImage 8 ch (State.setChannel { s with transmitter := some (imageAt ch m b) } ch (some (s.sentOn m b)))
  else s

/-- R163: a channel of a campaign's oven is released, IMAGE_ABORT placed where asked; the entry is apart. -/
def State.released (s : State) (ch c n outcome : Nat) (abort : Bool) : State :=
  let free := (withdrawImage ch s).setChannel ch none
  raise .relay ch (le 1 1 ++ le 1 c ++ le 1 n ++ le 3 (Config.releasedOffset s.draws) ++ le 1 outcome)
    { (if abort then deliver (imageFrame ch n .imageAbort) free else free) with draws := s.draws + 1 }

/-! ### Where nothing follows

The statements of what one command does to its own records are made where the choices that may follow it find no work. -/

/-- R68: e is an entry of the oven's loaded set, no number and version stand there twice, and no other entry is in transfer. -/
structure State.Holds (s : State) (n : Nat) (e : Entry) : Prop where
  mem : e ∈ s.loadedOf n
  once : ((s.loadedOf n).map (fun x => (x.number, x.version))).Nodup
  alone : ∀ x ∈ s.loadedOf n, x.state.inTransfer = true → x = e

/-- The oven's loaded set with one entry changed. -/
abbrev State.withEntry (s : State) (n : Nat) (e e' : Entry) : State :=
  s.setLoaded n ((s.loadedOf n).map (fun x => if x = e then e' else x))

/-- R12: BULK without the unsent frames of a distribution slot. -/
abbrev State.withoutSegments (s : State) (k : Nat) : State := withdrawSegments k s

/-- R77, R78: an entry is served by the slot choice: bound to distribution slot k, the pointer moved to its oven, its content and
CRC worked out, CLAMPED noticed where it is new, OFFER placed and the REPLY deadline armed. -/
def offeredAt (n k : Nat) (e : Entry) (r : Recipe) (s : State) : State :=
  let clamp := r.steps.any (stepClamped (s.oven n))
  let crc := contentCrc (s.oven n) r
  let noticed := if clamp = true ∧ e.clamped = false then
      raise .recipeEntry n (le 2 e.number ++ le 1 e.version ++ le 1 0) s
    else s
  let u : State :=
    { deliver (ovenFrame .distribution n (.offer e.number e.version r.steps.length crc)) noticed with pointer := n }
  State.setDistSlot (u.withEntry n e { e with
      state := .offered, clamped := clamp, crc := some crc, deadline := some (.reply, min 4294967295 (s.clock + 5)) })
    k (some { oven := n, number := e.number, version := e.version, next := 0, total := transferTotal r })

/-- R69, R70: an empty loaded set as a recompute fills it: the wanted versions, at most 64, PENDING in ascending recipe number, each
counted on its record. -/
def State.built (s : State) (n : Nat) : State :=
  let l := (s.recipes.filter (wants (s.oven n))).take 64
  State.setLoaded { s with recipes := s.recipes.map fun r => if r ∈ l then { r with refs := r.refs + 1 } else r } n
    (l.map fun r => { number := r.number, version := r.version })

/-- R72, R73: the one entry of an oven's loaded set goes to UNLOADING, or waits behind the open permit that names it. -/
def soleUnloads (n : Nat) (e : Entry) (s : State) : State :=
  if ∃ p ∈ s.permit n, p.recipe = e.number ∧ p.version = e.version then s.setLoaded n [{ e with deferred := true }]
  else (deliver (ovenFrame .distribution n (.unload e.number e.version)) s).setLoaded n
    [{ e with state := .unloading, deferred := false, sends := 1, deadline := some (.unload, min 4294967295 (s.clock + 5)) }]

/-- R70: the one entry of an oven's loaded set is no longer wanted: what becomes of it, by its state. -/
def soleLoses (n : Nat) (e : Entry) (s : State) : State :=
  match e.state with
  | .pending | .failed => dropRef e.number e.version (s.setLoaded n [])
  | .offered | .sending =>
    dropRef e.number e.version
      ((deliver (ovenFrame .distribution n (.discard e.number e.version)) (s.freed n)).setLoaded n [])
  | .loaded | .stale => soleUnloads n e s
  | .unloading => s

/-- No campaign slot holds a campaign: neither the channel choice (R162) nor the apply gating (R173) finds an entry. -/
def State.NoCampaigns (s : State) : Prop := ∀ c, s.campaign c = none

/-- No loaded set has an entry that the slot choice (R77) could offer. -/
def State.NoOffers (s : State) : Prop := ∀ n, s.oldestPending n = none

/-- R69: no version is wanted by the oven of a slot. -/
def State.NoWants (s : State) (n : Nat) : Prop := ∀ r ∈ s.recipes, wants (s.oven n) r = false

/-- No ticket stands against a slot. -/
def State.NoTickets (s : State) (n : Nat) : Prop := ∀ t ∈ s.tickets, t.oven ≠ n

/-! ### Invariants -/

/-- R2, R13 to R15, section 1.9, R9, R182: the ranges of the transport's counts, the levels and the clock. -/
structure State.BusOk (s : State) : Prop where
  tec : s.tec ≤ 255
  receive : s.rec_ ≤ 255
  off : s.busOff = true → s.tec = 255
  levels : s.levels.urgent ≤ 3 ∧ s.levels.answer ≤ 3 ∧ s.levels.bulk ≤ 3 ∧ s.levels.image ≤ 3
  inbound : s.inbound.length ≤ Config.inboundPlaces
  overruns : s.overruns ≤ 65535
  discarded : s.discarded ≤ 65535
  droppedAnswers : s.droppedAnswers ≤ 65535
  droppedFrames : s.droppedFrames ≤ 65535
  clock : s.clock ≤ Config.maxClock

/-- Section 1.5: no queue holds more frames than its capacity. -/
def State.QueuesOk (s : State) : Prop := ∀ q : QueueName, (s.queue q).length ≤ q.capacity

/-- R195: at most 63 ordinary entries, at most one entry for each kind and subject, counts 1..255, details of eight bytes. -/
structure State.NoticesOk (s : State) : Prop where
  ordinary : s.ordinaryCount ≤ Config.ordinaryNotices
  distinct : (s.notices.map (fun e => (e.kind, e.subject))).Nodup
  resync : ∀ e ∈ s.notices, e.kind = .resync → e.subject = 0
  counts : ∀ e ∈ s.notices, 1 ≤ e.count ∧ e.count ≤ 255
  details : ∀ e ∈ s.notices, e.detail.length = 8

/-- R7: URGENT holds at most one unsent LOCK_STATE and at most one unsent HYGIENE_STATE for an oven. -/
def State.StandingOk (s : State) : Prop :=
  ∀ k : OutKind, k.standing = true → ∀ n, s.urgent.countP (fun f => f.payload.kind = k && f.dest = n) ≤ 1

/-- R24: at most eight barred serials, none twice. -/
def State.BarredOk (s : State) : Prop := s.barred.length ≤ Config.barredPlaces ∧ s.barred.Nodup

/-- A safe state: every invariant of the manual's prose that this model states holds. -/
structure State.Safe (s : State) : Prop where
  bus : s.BusOk
  queues : s.QueuesOk
  notices : s.NoticesOk
  barred : s.BarredOk
  settled : s.Settled
  standing : s.StandingOk

/-! ### Sound records -/

/-- R46, R133, R141: at most 64 tickets, no number twice (kept in ascending number: A41), and in no class more than its cap. -/
structure State.TicketsOk (s : State) : Prop where
  places : s.tickets.length ≤ Config.ticketPlaces
  ascending : (s.tickets.map Ticket.number).Pairwise (· < ·)
  capped : ∀ c, s.tickets.countP (fun t => t.cls = c) ≤ (s.cls c).cap

/-- R46, R90: no two ovens' permits have one number (an oven has at most one permit by the shape of State). -/
def State.PermitsOk (s : State) : Prop :=
  ∀ n m p q, s.permit n = some p → s.permit m = some q → p.number = q.number → n = m

/-- R68: an oven's loaded set. -/
structure LoadedOk (l : List Entry) : Prop where
  size : l.length ≤ Config.loadedPlaces
  keys : (l.map fun e => (e.number, e.version)).Nodup
  transfers : l.countP (fun e => e.state.inTransfer) ≤ 1

/-- R68, R77: a bound distribution slot names an entry in transfer of its oven, and no two slots name one oven. -/
structure State.SlotsOk (s : State) : Prop where
  named : ∀ k b, s.distSlot k = some b →
    ∃ e ∈ s.loadedOf b.oven, e.number = b.number ∧ e.version = b.version ∧ e.state.inTransfer = true
  once : ∀ j k a b, s.distSlot j = some a → s.distSlot k = some b → a.oven = b.oven → j = k

/-- R156: a campaign has its entries in ascending slot order, one an oven. -/
def State.CampaignsOk (s : State) : Prop :=
  ∀ c m, s.campaign c = some m → (m.entries.map CEntry.oven).Pairwise (· < ·)

/-- The records of the retention domain hold what the manual says of their numbers and places. -/
structure State.RecordsOk (s : State) : Prop where
  tickets : s.TicketsOk
  permits : s.PermitsOk
  loaded : ∀ n, LoadedOk (s.loadedOf n)
  slots : s.SlotsOk
  campaigns : s.CampaignsOk

end Sys2Proof.Machine
end

