-- ==== Sys2Proof/Certificates/Slice0/Obligations.lean ====
section
/-! DEFINITION. The statements for the provers. Where a statement says what a command does, its hypotheses are on the state and
the operands alone and its conclusion is the whole next state: what the equation does not name is unchanged. -/

open Sys2Proof Sys2Proof.Machine

/-! ### Steps and resets -/

/-- One step takes the command at the front of the queue and carries it out with the rest of the queue. -/
def Obligations.StepRunsFrontCommand : Prop :=
  ∀ (c : Instr) (rest : List Instr) (s : State), step { s with pending := c :: rest } = exec c { s with pending := rest }

/-- No command ends in a fault or a refusal: every command answers a next state (the model has no stop). -/
def Obligations.EveryCommandAnswers : Prop := ∀ (c : Instr) (s : State), ∃ t, exec c s = .next t

/-- A3 (the model's choice): with no command, no request being executed and no frame to dispatch, one second passes, the clock
saturating (R182), and what is queued is exactly the deadlines due (R183) and the window starts reached (R173); a request the
port is EXECUTING is queued as its row, and nothing else happens; while a warm reset holds the main domain the idle step only
counts the second (R182), and while the part waits for a cold start it does nothing. -/
def Obligations.IdleSecondQueuesWhatFallsDue : Prop :=
  ∀ s : State, s.pending = [] →
    (s.power = .running → (∀ i, s.port ≠ .executing i) → s.inbound = [] →
      let now := min 4294967295 (s.clock + 1)
      ∃ q, step s = .next { s with clock := now, pending := q } ∧
        ∀ i, i ∈ q ↔ (∃ a ∈ s.alarms, a.instant ≤ now ∧ a.command = i) ∨
          ∃ c m, 1 ≤ c ∧ c ≤ 4 ∧ s.campaign c = some m ∧ m.windowStart ≠ m.windowEnd ∧ now % 60 = 0 ∧
            minuteOfDay now = m.windowStart ∧ i = .windowStart c) ∧
    (∀ i, s.power = .running → s.port = .executing i → step s = .next { s with pending := [i] }) ∧
    (∀ cause since, s.power = .warmReset cause since → step s = .next { s with clock := min 4294967295 (s.clock + 1) }) ∧
    (s.power = .coldHeld → step s = .next s)

/-- A3 (the model's choice): with no command and no request being executed, the frame at the head of the inbound buffer is
dispatched (R3): the row that takes it is queued, and whatever that row does, it takes exactly this frame off the buffer. -/
def Obligations.IdleDispatchTakesTheHeadFrame : Prop :=
  ∀ (s : State) (f : InFrame) (rest : List InFrame), s.Live → s.pending = [] → (∀ i, s.port ≠ .executing i) →
    s.inbound = f :: rest →
    step s = .next { s with pending := [dispatchOf f] } ∧
      ∃ t, exec (dispatchOf f) s = .next t ∧ t.inbound = rest

/-- R187, R19, R47, R66, R89, R107, R132, R154, R180, R194, R203: what a cold start leaves, field by field; no deadline is
armed. -/
def Obligations.ColdStartState : Prop :=
  ∀ (s : State) (brsel : Bool), ∃ t, exec (.coldStart brsel) s = .next t ∧
    t.power = .running ∧ t.clock = 0 ∧ t.clockUnset = true ∧ t.bitRate500 = brsel ∧
    t.tec = 0 ∧ t.rec_ = 0 ∧ t.busOff = false ∧ t.inbound = [] ∧ (∀ q, t.queue q = []) ∧ t.transmitter = none ∧
    t.levels = { urgent := 3, answer := 2, bulk := 1, image := 0 } ∧
    t.overruns = 0 ∧ t.discarded = 0 ∧ t.droppedAnswers = 0 ∧ t.droppedFrames = 0 ∧ t.lastDropped = (0, 0) ∧
    (∀ n, (t.oven n).state = .vacant ∧ (t.oven n).hygiene = none) ∧ t.barred = [] ∧ t.siteOpen = false ∧
    t.permitCounter = 1 ∧ t.ticketCounter = 1 ∧ t.rejoinHeld = [] ∧ t.recipes = [] ∧
    (∀ n, t.loadedOf n = []) ∧ (∀ k, t.distSlot k = none) ∧ t.pointer = 0 ∧ (∀ n, t.permit n = none) ∧
    (∀ c, c ≤ 7 → t.cls c = { severity := .service, blocksCleaning := false, blocksUpdates := false, autoClear := false
                              e1 := 60, e2 := 240, e3 := 1440, cap := if c = 0 then 64 else 0 }) ∧
    (∀ e, t.route e = { enabled := false, codePattern := 0, codeMask := 0, modelPattern := 0, modelMask := 0, target := 0
                        absorb := false, hits := 0 }) ∧
    t.tickets = [] ∧ (∀ c, t.campaign c = none) ∧ (∀ c, t.channel c = none) ∧
    t.port = .idle ∧ t.overrun = false ∧
    t.notices = [{ kind := .siteRestarted, subject := 0, first := 0, last := 0, count := 1
                   detail := List.replicate 8 0 }] ∧
    (∀ k, t.enabled k = true) ∧ t.alarms = [] ∧ t.rdy = false ∧ t.attn = true

/-- R20, R180, R181, R194: a warm reset loses the transport, the channels, the distribution slots and the port; the levels and
every record of the retention domain are kept. R184: a CLOCK_SET whose frame is complete is taken whole before. Three clauses
are the model's choice: nothing is left on MISO (A40), the loss of the channels raises no RELAY RELEASED (A31), and any other
request the port is executing is dropped without effect (A59). -/
def Obligations.WarmResetLosesTheMainDomain : Prop :=
  ∀ (s : State) (cause : ResetCause), s.power = .running →
    ((∀ v, s.port ≠ .executing (.clockSet v)) → exec (.warmReset cause) s = .next { s with
      power := .warmReset cause s.clock
      tec := 0, rec_ := 0, busOff := false, inbound := [], urgent := [], answer := [], bulk := [], image := []
      transmitter := none, overruns := 0, discarded := 0, droppedAnswers := 0, droppedFrames := 0, lastDropped := (0, 0)
      rejoinHeld := [], slots := Vector.replicate 4 none, channels := Vector.replicate 2 none
      port := .idle, overrun := false, miso := [] }) ∧
    ∀ v, s.Live → s.port = .executing (.clockSet v) →
      ∃ t, exec (.clockSet v) s = .next t ∧ exec (.warmReset cause) s = exec (.warmReset cause) t

/-- R188, R20: as a warm reset ends the main domain runs, BRSEL is sampled, the clock, the bus standing, the port and the
enable set are as they were, and SITE_RESTARTED with detail WARM and the cause is in the notice set, or RESYNC stands for it.
R89 step 1, R180 step 1: transfers and offers return to their waiting states. R188 steps 1 and 2: the deadlines passed expire
in the order of their instants, each as its own row does, then, by R180 steps 2 to 4, the Relay's APPLYs and the apply gating,
and the window starts passed are taken. R48, R89, R107, R180: the make-ups, here where nothing passed and the queues are empty
as a warm reset leaves them: APPLY, the apply gating, the channel choice, ASSIGN and TEST_ORDER, UNLOAD, the slot choice,
STOP. The order of the parts among themselves is the model's choice (A10), and so is the order of the records inside one part
(A71): ovens by ascending slot, the UNLOADs of one oven in loaded-set order, campaigns in ascending order. -/
def Obligations.WarmResetEndRestarts : Prop :=
  (∀ (s : State) (cause : ResetCause) (since : Nat) (brsel : Bool), s.power = .warmReset cause since →
    s.clock < Config.maxClock →
    ∃ t, exec (.warmResetEnd brsel) s = .next t ∧ Still { s with power := .running, bitRate500 := brsel } t ∧
      ((∃ e ∈ t.notices, e.kind = .siteRestarted ∧ e.last = s.clock ∧
          e.detail = [1, (match cause with | .resetPin => 1 | .supply => 2 | .oscillator => 3), 0, 0, 0, 0, 0, 0]) ∨
        ∃ e ∈ t.notices, e.kind = .resync ∧ e.last = s.clock)) ∧
  (∀ s : State, s.Live → ∀ a ∈ s.alarms, exec a.command s = .next (a.expire s)) ∧
  (∀ minute t u, minute ≤ 1439 →
    (startsBy minute t < startsBy minute u ↔ ∃ i, t < i ∧ i ≤ u ∧ i % 86400 = minute * 60)) ∧
  ∀ (s : State) (cause : ResetCause) (since : Nat) (brsel : Bool), s.power = .warmReset cause since →
    s.clock < Config.maxClock →
    let code := match cause with | .resetPin => 1 | .supply => 2 | .oscillator => 3
    let returned : State := { s with
      bitRate500 := brsel, slots := Vector.replicate 4 none
      loaded := s.loaded.map fun l => l.map fun e =>
        if e.state = .offered ∨ e.state = .sending then { e with state := .pending, deadline := none } else e
      campaigns := s.campaigns.map (Option.map fun m => { m with entries := m.entries.map fun e =>
        if e.state = .transferring ∨ e.state = .suspended then
          { e with state := .waiting, timeouts := 0, deadline := none, channel := none } else e }) }
    let starts := [1, 2, 3, 4].filter fun c => (s.campaign c).any fun m => decide (m.windowStart ≠ m.windowEnd ∧
      startsBy m.windowStart since < startsBy m.windowStart s.clock)
    (∃ l : List Alarm, l.Perm (returned.retainedAlarms.filter fun a => decide (a.instant ≤ s.clock)) ∧
      (l.map Alarm.instant).Pairwise (· ≤ ·) ∧
      exec (.warmResetEnd brsel) s = .next (makeUps cause returned.unloadingEntries
        { starts.foldl (fun t c => gateCampaign c t) (gateAll (returned.applyingEntries.foldl applyResumes
            (l.foldl (fun t a => a.expire t) returned))) with power := .running })) ∧
    (s.transmitter = none → s.busOff = false → (∀ q, s.queue q = []) →
      (∀ n, ((s.loadedOf n).map fun e => (e.number, e.version)).Nodup) →
      (∀ c m, s.campaign c = some m → (m.entries.map CEntry.oven).Nodup) →
      (∀ a ∈ returned.retainedAlarms, s.clock < a.instant) → starts = [] →
      let five := min 4294967295 (s.clock + 5)
      let registry := fun t : State => allSlots.foldl (fun t n =>
        match (s.oven n).state with
        | .assigning => (deliver (assignFrame s ((s.oven n).serial.getD 0) n) t).setOven n { t.oven n with
            comm := some (.reply, five), tries := 1 }
        | .testing => deliver (ovenFrame .registry n (.testOrder (s.oven n).cavity (s.oven n).humidity)) t
        | _ => t) t
      let unloads := fun t : State => allSlots.foldl (fun t n => ((s.loadedOf n).filter fun e => e.state = .unloading).foldl
        (fun t e => (deliver (ovenFrame .distribution n (.unload e.number e.version)) t).modEntry n e.number e.version
          fun x => { x with sends := 1, deadline := some (.unload, five) }) t) t
      let stops := fun t : State => allSlots.foldl (fun t n =>
        match s.permit n with
        | some p => if p.stopping = true then deliver (ovenFrame .permitUnit n (.stop p.number)) t else t
        | none => t) t
      let applies := fun t : State => [1, 2, 3, 4].foldl (fun t c =>
        match s.campaign c with
        | some m => (m.entries.filter fun e => e.state = .applying).foldl
            (fun t e => deliver (ovenFrame .updateRelay e.oven (.apply m.toVersion)) t) t
        | none => t) t
      exec (.warmResetEnd brsel) s = .next (raise .siteRestarted 0 (le 1 1 ++ le 1 code) (stops (slotChoice (unloads
        (registry (channelChoice { gateAll (applies returned) with power := .running })))))))

/-- R181, R187: while the main domain is held in reset, every command but the resets and a loss of the retention domain
changes nothing: no frame is taken, no deadline, no transaction. After a loss of the retention domain only a cold start
changes anything, and it then leaves what it always leaves. -/
def Obligations.HeldInResetTakesNoEvent : Prop :=
  (∀ (c : Instr) (s : State), isReset c = false → s.power ≠ .running → exec c s = .next s) ∧
  ∀ s : State, ∃ t, exec .retentionDomainLoss s = .next t ∧ t.power = .coldHeld ∧
    (∀ c, (∀ b, c ≠ .coldStart b) → exec c t = .next t) ∧
    ∀ b, exec (.coldStart b) t = exec (.coldStart b) s

/-! ### The bus (chapter 01) -/

/-- R2, R13, R14: a frame for node 0 received without error moves the receive error count and enters the inbound buffer, or is
lost and counted, with notice BUS, when 16 are there; a change of the fault confinement state raises notice BUS. That the
change is raised first and the overrun counted after it is the model's choice (A33). -/
def Obligations.FrameReceiveFillsTheBuffer : Prop :=
  ∀ (s : State) (f : InFrame), s.Live → s.busOff = false →
    let u : State := { s with rec_ := if 127 < s.rec_ then 120 else s.rec_ - 1 }
    let c := if 128 ≤ s.rec_ ∧ s.tec ≤ 127 then raiseBus 0 u else u
    (s.inbound.length < 16 → exec (.frameReceive f) s = .next { c with inbound := s.inbound ++ [f] }) ∧
    (16 ≤ s.inbound.length →
      exec (.frameReceive f) s = .next (raiseBus 1 { c with overruns := min 65535 (s.overruns + 1) }))

/-- R3: the head frame that fails an acceptance check is discarded and counted, and nothing else happens; every frame of a
kind that is not an oven's fails. R4: a frame that passes, of a kind that is not CLAIM or REJOIN, from a source that is no
slot or whose record is VACANT or DISCOVERED, is taken off the buffer by its row and ignored: no counter, no record, no notice
moves. -/
def Obligations.FrameDiscardCountsTheFrame : Prop :=
  (∀ (s : State) (f : InFrame) (rest : List InFrame), s.Live → s.inbound = f :: rest → acceptedKind f = none →
    exec .frameDiscard s = .next { s with inbound := rest, discarded := min 65535 (s.discarded + 1) }) ∧
  (∀ (s : State) (f : InFrame) (rest : List InFrame) (k : InKind), s.Live → s.inbound = f :: rest → acceptedKind f = some k →
    k ≠ .claim → k ≠ .rejoin →
    f.source < 1 ∨ 32 < f.source ∨ (s.oven f.source).state = .vacant ∨ (s.oven f.source).state = .discovered →
    exec (dispatchOf f) s = .next { s with inbound := rest }) ∧
  (∀ f : InFrame, acceptedKind f = none ↔
    InKind.ofCode f.kind = none ∨ (f.kind = 0x01 ∧ f.tag ≠ numAt f.data 0 6 % 128) ∨
      (f.kind = 0x21 ∧ 3 ≤ numAt f.data 2 1 / 32) ∨
      (f.kind = 0x40 ∧ (2 ≤ numAt f.data 2 1 ∨ 0xFF00 ≤ numAt f.data 0 2)))

/-- R13 to R15: how the error counts move on a receive error, a filtered frame and a transmit error; entering BUS_OFF; and no
event of the bus moves them in BUS_OFF. A frame that loses arbitration stays in the transmitter and moves nothing (R11). That an
error followed by a dominant bit counts 8, and not 1 and 8 (A34), and that the receive count stands still in BUS_OFF (A51), are
the model's choices. -/
def Obligations.ErrorCountsMove : Prop :=
  ∀ s : State, s.Live →
    (s.busOff = false →
      (∀ dominant, exec (.receiveError dominant) s =
        .next (noticeChange s.confinement { s with rec_ := min 255 (s.rec_ + if dominant then 8 else 1) })) ∧
      exec .filteredFrame s =
        .next (noticeChange s.confinement { s with rec_ := if 127 < s.rec_ then 120 else s.rec_ - 1 }) ∧
      (∀ noAcknowledge, s.transmitter.isSome = true →
        exec (.transmitError noAcknowledge) s = .next
          (if noAcknowledge = true ∧ (128 ≤ s.tec ∨ 128 ≤ s.rec_) then s
          else if s.tec + 8 ≤ 255 then noticeChange s.confinement { s with tec := s.tec + 8 }
          else raiseBus 0 { s with tec := 255, busOff := true }))) ∧
    (s.busOff = true →
      (∀ d, exec (.receiveError d) s = .next s) ∧ exec .filteredFrame s = .next s ∧
      (∀ n, exec (.transmitError n) s = .next s) ∧ exec .frameSent s = .next s ∧
      ∀ f, exec (.frameReceive f) s = .next s) ∧
    exec .arbitrationLost s = .next s

/-- R14: the fault confinement state follows from the counts, and a BUS notice follows each change and nothing else. -/
def Obligations.ConfinementFollowsTheCounts : Prop :=
  ∀ s : State,
    (s.busOff = false → s.tec ≤ 127 → s.rec_ ≤ 127 → s.confinement = 0) ∧
    (s.busOff = false → 128 ≤ s.tec ∨ 128 ≤ s.rec_ → s.confinement = 1) ∧
    (s.busOff = true → s.confinement = 2) ∧
    noticeChange s.confinement s = s ∧
    (∀ c, c ≠ s.confinement → noticeChange c s = raise .bus 0
      (le 1 (16 * s.confinement) ++ le 1 s.tec ++ le 1 s.rec_ ++ le 1 (min 255 s.overruns) ++
        le 1 (min 255 s.droppedAnswers) ++ le 1 (min 255 s.droppedFrames) ++ le 1 s.lastDropped.1 ++ le 1 s.lastDropped.2) s)

/-- R10, R11, R13: when the frame in the transmitter has been sent, the transmitter takes the head of the non-empty queue with
the highest level, the first in the natural order among equals; with all four queues empty it stays free. The frame taken is
an oven's own, or the head of a SEGMENT or IMAGE stream whose producer has nothing to place after it (R8). -/
def Obligations.FrameSentTakesTheHighestQueue : Prop :=
  ∀ s : State, s.Live → s.busOff = false → s.transmitter.isSome = true →
    let u := noticeChange s.confinement { s with tec := s.tec - 1 }
    ((∀ q, s.queue q = []) → exec .frameSent s = .next { u with transmitter := none }) ∧
    (∀ q f rest n, s.Chooses q f rest → f.mark = .oven n →
      exec .frameSent s = .next (State.setQueue { u with transmitter := some f } q rest)) ∧
    ∀ q f rest, s.Chooses q f rest → s.Unfollowed f →
      exec .frameSent s = .next (State.setQueue { u with transmitter := some f } q rest)

/-- R8, R79: when the transmitter takes a SEGMENT frame of a transfer that then has 7 queued and frames left to place, the
next frame of the transfer is placed behind them; the last frame of a transfer arms the PROGRESS deadline. R8, R167: when it
takes an IMAGE frame of a STREAMING channel that then has 7 queued and a frame ready, the next IMAGE_DATA is placed behind
them; sent moves on, and the acknowledgement timeout is armed if none was. -/
def Obligations.SegmentStreamIsRefilled : Prop :=
  (∀ (s : State) (f : OutFrame) (rest : List OutFrame) (k : Nat) (b : DistSlot) (r : Recipe),
    s.Live → s.busOff = false → s.transmitter.isSome = true → s.Chooses .bulk f rest → f.mark = .distSlot k →
    1 ≤ k → k ≤ 4 → s.distSlot k = some b → s.recipe b.number b.version = some r → b.next < b.total →
    f.payload.tag + 1 ≠ b.total → rest.countP (fun g => g.mark = .distSlot k) = 7 → rest.length < 32 →
    exec .frameSent s = .next
      (State.setDistSlot { noticeChange s.confinement { s with tec := s.tec - 1 } with
          transmitter := some f
          bulk := rest ++ [{ payload := transferFrame (s.oven b.oven) r b.next, producer := .distribution
                             mark := .distSlot k, dest := b.oven }] } k (some { b with next := b.next + 1 }))) ∧
  (∀ (s : State) (f : OutFrame) (rest : List OutFrame) (k : Nat) (b : DistSlot),
    s.Live → s.busOff = false → s.transmitter.isSome = true → s.Chooses .bulk f rest → f.mark = .distSlot k →
    s.distSlot k = some b → b.total ≤ b.next → f.payload.tag + 1 = b.total →
    exec .frameSent s = .next (State.setLoaded { noticeChange s.confinement { s with tec := s.tec - 1 } with
        transmitter := some f, bulk := rest } b.oven ((s.loadedOf b.oven).map fun e =>
      if e.number = b.number ∧ e.version = b.version ∧ e.state = .sending then
        { e with deadline := some (.progress, min 4294967295 (s.clock + 5)) } else e))) ∧
  ∀ (s : State) (f : OutFrame) (rest : List OutFrame) (ch : Nat) (b : Binding) (m : Campaign),
    s.Live → s.busOff = false → s.transmitter.isSome = true → s.Chooses .image f rest → f.mark = .channel ch →
    1 ≤ ch → ch ≤ 2 → s.channel ch = some b → s.campaign b.campaign = some m → b.stream = .streaming →
    rest.countP (fun g => g.mark = .channel ch) = 7 → rest.length < 16 →
    b.sent + 6 ≤ b.taken ∨ (b.taken = m.imageSize ∧ b.sent < m.imageSize) →
    let data := (b.buffer.drop (b.sent - b.acked)).take (min (6 - b.sent % 6) (m.imageSize - b.sent))
    exec .frameSent s = .next
      (State.setChannel { noticeChange s.confinement { s with tec := s.tec - 1 } with
          transmitter := some f
          image := rest ++ [{ payload := .imageData (b.sent / 6 % 65536) data, producer := .updateRelay
                              mark := .channel ch, dest := b.oven }] } ch (some { b with
        sent := b.sent + data.length
        timeout := if b.timeout = none ∧ b.acked < b.sent + data.length then some (min 4294967295 (s.clock + 2))
          else b.timeout }))

/-- R15: recovery from BUS_OFF leaves both counts 0 and raises notice BUS; the held frame stays to be sent first, and with none
held the choice is made: the choice that a frame just sent makes (R10), whatever the head frame. -/
def Obligations.BusOffRecoveryResumes : Prop :=
  ∀ s : State, s.Live → s.busOff = true →
    let u := raiseBus 0 { s with busOff := false, tec := 0, rec_ := 0 }
    (s.transmitter.isSome = true → exec .busOffRecovery s = .next u) ∧
    (s.transmitter = none → (∀ q, s.queue q = []) → exec .busOffRecovery s = .next u) ∧
    (∀ q f rest n, s.transmitter = none → s.Chooses q f rest → f.mark = .oven n →
      exec .busOffRecovery s = .next (State.setQueue { u with transmitter := some f } q rest)) ∧
    (∀ q f rest, s.transmitter = none → s.Chooses q f rest → s.Unfollowed f →
      exec .busOffRecovery s = .next (State.setQueue { u with transmitter := some f } q rest)) ∧
    ∀ sent : OutFrame, s.transmitter = none → exec .busOffRecovery s = exec .frameSent { u with transmitter := some sent }

/-- R6, R7: where a producer's frame goes: a standing frame replaces the payload of the queued one, any other is added at the
tail while there is room, and is dropped and counted when there is none. -/
def Obligations.PlacingAFrame : Prop :=
  ∀ (f : OutFrame) (s : State),
    let q := f.payload.kind.queue
    let same := fun g : OutFrame => decide (g.payload.kind = f.payload.kind) && decide (g.dest = f.dest)
    let replaced := (f.payload.kind = .lockState ∨ f.payload.kind = .hygieneState) ∧ (s.queue q).any same = true
    let capacity := match q with | .urgent => 8 | .answer => 16 | .bulk => 32 | .image => 16
    (replaced → enqueue f s =
      s.setQueue q ((s.queue q).map (fun g => if same g then { g with payload := f.payload } else g))) ∧
    (¬ replaced → (s.queue q).length < capacity → enqueue f s = s.setQueue q (s.queue q ++ [f])) ∧
    (¬ replaced → capacity ≤ (s.queue q).length → f.payload.kind = .lookupAnswer →
      enqueue f s = { s with
        droppedAnswers := min 65535 (s.droppedAnswers + 1), lastDropped := (f.payload.kind.code, f.dest) }) ∧
    (¬ replaced → capacity ≤ (s.queue q).length → f.payload.kind ≠ .lookupAnswer →
      enqueue f s = raiseBus 2 { s with
        droppedFrames := min 65535 (s.droppedFrames + 1), lastDropped := (f.payload.kind.code, f.dest) })

/-- R9: BUS_LEVELS replaces the four levels together, and refuses any level above 3. -/
def Obligations.BusLevelsReplacesTheLevels : Prop :=
  ∀ (s : State) (u a b i : Nat), s.Serves (.busLevels u a b i) →
    exec (.busLevels u a b i) s = .next
      (if u ≤ 3 ∧ a ≤ 3 ∧ b ≤ 3 ∧ i ≤ 3 then
        State.reply { s with levels := { urgent := u, answer := a, bulk := b, image := i } } .ok []
      else s.reply .range [])

/-- R16: BUS_STATUS gives the standing as it is when it is taken, and with CLEAR sets the four counters to 0 afterwards. The
order, widths and codes of the response body are the model's choice (A19). -/
def Obligations.BusStatusReportsAndClears : Prop :=
  ∀ (s : State) (clear : Bool), s.Serves (.busStatus clear) →
    exec (.busStatus clear) s = .next
      ((if clear then { s with overruns := 0, discarded := 0, droppedAnswers := 0, droppedFrames := 0 } else s).reply .ok
        (le 1 s.confinement ++ le 1 s.tec ++ le 1 s.rec_ ++ le 1 s.inbound.length ++ le 1 s.urgent.length ++
          le 1 s.answer.length ++ le 1 s.bulk.length ++ le 1 s.image.length ++ le 1 s.levels.urgent ++
          le 1 s.levels.answer ++ le 1 s.levels.bulk ++ le 1 s.levels.image ++ le 2 s.overruns ++ le 2 s.discarded ++
          le 2 s.droppedAnswers ++ le 2 s.droppedFrames))

/-! ### The management port and the reads (chapter 10) -/

/-- R190, section 10.3: the frame written for a request of the request table is read back as exactly that request, with every
operand at every value its field can carry, while the body is no longer than 512 bytes. The layout of the fields in a body,
where the manual gives none, is the model's choice (A19, A21, A22). -/
def Obligations.RequestFramesAreReadBack : Prop :=
  ∀ i : Instr, isRequest i = true → i.WellFormed → requestLength i ≤ 512 → judgeFrame (requestFrame i) = .take i

/-- R189, R190: a WRITE in IDLE is taken and judged, any other sets the overrun flag; how a frame is judged: by its length and
length field, then its kind byte, then the length its fields need, step for step. The body lengths follow the named-field
layouts; that IMAGE_BLOCK's block is the rest of its body (A21), that a TIME and a CORE step of RECIPE_STEP have the same
fields, so that its body has 13 bytes (A22), and that a reference not given to TICKET_ACK is a text of its own length byte
(A66) are the model's choices. -/
def Obligations.WriteIsTakenAndJudged : Prop :=
  (∀ (s : State) (bytes : List Byte), s.Live →
    let u : State := { s with miso := List.replicate bytes.length 0 }
    (s.port = .idle → ∀ x, judgeFrame bytes = .answer x → exec (.spiWrite bytes) s = .next (u.reply x [])) ∧
    (s.port = .idle → ∀ i, judgeFrame bytes = .take i → exec (.spiWrite bytes) s = .next { u with port := .executing i }) ∧
    (s.port ≠ .idle → exec (.spiWrite bytes) s = .next { u with overrun := true })) ∧
  ∀ bytes : List Byte,
    (bytes.length < 3 ∨ 512 < numAt bytes 1 2 ∨ bytes.length ≠ 3 + numAt bytes 1 2 →
      judgeFrame bytes = .answer .badLength) ∧
    (3 ≤ bytes.length → numAt bytes 1 2 ≤ 512 → bytes.length = 3 + numAt bytes 1 2 →
      numAt bytes 0 1 ∉ [0x01, 0x02, 0x10, 0x11, 0x12, 0x13, 0x14, 0x15, 0x16, 0x17, 0x18, 0x19, 0x1A, 0x1B, 0x1C, 0x1D,
        0x20, 0x21, 0x22, 0x23, 0x24, 0x25, 0x26, 0x27, 0x28, 0x30, 0x31, 0x32, 0x38, 0x39, 0x3A, 0x40, 0x41, 0x48, 0x49,
        0x4A, 0x4B, 0x4C, 0x4D, 0x4E, 0x4F, 0x50, 0x51, 0x52, 0x53, 0x58, 0x59, 0x5A, 0x5B, 0x5C, 0x5D, 0x5E, 0x5F, 0x60,
        0x68, 0x69, 0x70, 0x71] →
      judgeFrame bytes = .answer .unknownRequest) ∧
    (∀ i, judgeFrame bytes = .take i → isRequest i = true ∧ (requestParts i).map Prod.fst = some (numAt bytes 0 1)) ∧
    (3 ≤ bytes.length → numAt bytes 1 2 ≤ 512 → bytes.length = 3 + numAt bytes 1 2 →
      (∀ x ∈ [(0x01, 4), (0x02, 1), (0x10, 2), (0x11, 13), (0x12, 2), (0x13, 2), (0x14, 16), (0x15, 1), (0x16, 1),
          (0x17, 43), (0x18, 0), (0x19, 1), (0x1A, 0), (0x1B, 6), (0x1C, 6), (0x1D, 0), (0x20, 6 + numAt bytes 5 1),
          (0x21, 13), (0x22, 3), (0x23, 2), (0x24, 2), (0x25, 2), (0x26, 3), (0x27, 3), (0x28, 3), (0x30, 3), (0x31, 2),
          (0x32, 0), (0x38, 1), (0x39, 1), (0x3A, 0), (0x40, 2), (0x41, 1), (0x48, 12), (0x49, 0), (0x4A, 9), (0x4B, 1),
          (0x4C, 1), (0x4D, 1), (0x4E, 5), (0x4F, 4 + numAt bytes 6 1), (0x50, 2), (0x51, 2), (0x52, 2), (0x53, 4),
          (0x58, 19 + 4 * numAt bytes 5 1), (0x59, 1), (0x5A, 1), (0x5B, 1), (0x5C, 1), (0x5D, 1), (0x5E, 1), (0x60, 0),
          (0x68, 4), (0x69, 0), (0x70, 0), (0x71, 2)], numAt bytes 0 1 = x.1 →
        (numAt bytes 1 2 ≠ x.2 → judgeFrame bytes = .answer .badLength) ∧
        (numAt bytes 1 2 = x.2 → ∃ i, judgeFrame bytes = .take i)) ∧
      (numAt bytes 0 1 = 0x5F → (numAt bytes 1 2 < 4 → judgeFrame bytes = .answer .badLength) ∧
        (4 ≤ numAt bytes 1 2 → ∃ i, judgeFrame bytes = .take i)))

/-- R191, R192, R193, section 10.1: a READ in READY shifts out the response frame and then zeros, empties the slot, clears the
overrun flag and leaves the port IDLE; a READ in any other port state shifts out 0xFF; a void transaction shifts out zeros.
Section 10.1, R200: RDY is high exactly in READY and ATTN exactly while the notice set is not empty, whatever the port's state;
that both are low while the main domain does not run is the model's choice (A40). -/
def Obligations.ReadShiftsTheResponse : Prop :=
  (∀ s : State, (s.rdy = true ↔ s.power = .running ∧ ∃ r, s.port = .ready r) ∧
    (s.attn = true ↔ s.power = .running ∧ s.notices ≠ [])) ∧
  ∀ (s : State) (count : Nat), s.Live →
    (∀ r, s.port = .ready r → exec (.spiRead count) s = .next { s with
      miso := (le 1 r.status.code ++ le 1 (s.overrun.toNat + 2 * (decide (r.status = Status.clamped)).toNat) ++
        le 2 r.body.length ++ r.body ++ List.replicate count 0).take count
      port := .idle, overrun := false }) ∧
    ((∀ r, s.port ≠ .ready r) → exec (.spiRead count) s = .next { s with miso := List.replicate count 0xFF }) ∧
    ∀ command, command ≠ 0x57 → command ≠ 0x52 →
      exec (.voidTransaction command count) s = .next { s with miso := List.replicate count 0 }

/-- A4 (the model's choice), R189: a request row that comes while the port is READY, or executes another request, is lost and
sets the overrun flag; it changes nothing else. -/
def Obligations.BusyPortLosesTheRequest : Prop :=
  ∀ (i : Instr) (s : State), isRequest i = true → s.Live → s.port ≠ .idle → s.port ≠ .executing i →
    exec i s = .next { s with overrun := true }

/-- R193: every request that is carried out leaves its response in the port; a refused one changes no record, raises no notice
and places no frame, and only OFFSET and FULL carry a body. -/
def Obligations.RefusedRequestChangesNothing : Prop :=
  ∀ (i : Instr) (s : State), isRequest i = true → s.Serves i →
    ∃ t r, exec i s = .next t ∧ t.port = .ready r ∧
      (r.status = .ok ∨ r.status = .clamped ∨
        (t = s.reply r.status r.body ∧ (r.body = [] ∨ r.status = .offset ∨ r.status = .full)))

/-- R24, R45, R106, R153: the lists and tables that take no operand are answered OK, and nothing but the port changes. The
layout of the bodies (their order, widths, counts and codes) is the model's choice (A19). -/
def Obligations.ListsOnlyAnswer : Prop :=
  ∀ s : State,
    (s.Serves .ovenList → exec .ovenList s = .next (s.reply .ok
      (allSlots.flatMap fun n => le 1 (s.oven n).state.code ++
        le 1 (if (s.oven n).present ∨ (s.oven n).state = .vacant then 0 else 1) ++ le 1 (s.oven n).locks.bits))) ∧
    (s.Serves .barList → exec .barList s = .next (s.reply .ok (le 1 s.barred.length ++ s.barred.flatMap (le 6)))) ∧
    (s.Serves .distStatus → exec .distStatus s =
      .next (s.reply .ok ([1, 2, 3, 4].flatMap s.slotBytes ++ le 1 s.pointer))) ∧
    (s.Serves .permitList → exec .permitList s =
      .next (s.reply .ok (listBytes s.permitSummaries ++ le 1 s.permitSummaries.length))) ∧
    (s.Serves .classRead → exec .classRead s =
      .next (s.reply .ok ([0, 1, 2, 3, 4, 5, 6, 7].flatMap fun c => le 1 (s.cls c).severity.code ++
        [flagByte (s.cls c).blocksCleaning, flagByte (s.cls c).blocksUpdates, flagByte (s.cls c).autoClear] ++
        le 2 (s.cls c).e1 ++ le 2 (s.cls c).e2 ++ le 2 (s.cls c).e3 ++ le 1 (s.cls c).cap ++
        le 1 (s.tickets.countP fun t => t.cls = c)))) ∧
    (s.Serves .relayStatus → exec .relayStatus s = .next (s.reply .ok (s.channelBytes 1 ++ s.channelBytes 2))) ∧
    (s.Serves .clockRead → exec .clockRead s =
      .next (s.reply .ok (le 4 s.clock ++ [flagByte s.clockUnset] ++ le 2 (s.clock / 60 % 1440))))

/-- R45, R64, R65, R87, R106, R153, R179: the reads of one record or of a part of a table: their refusals, and the record they
give; nothing but the port changes. The layout of the bodies, the byte that says whether a record is there among them, is the
model's choice (A19, A30), and so is when LOADED_SET_READ gives the position that follows as none (A57). -/
def Obligations.RecordReadsOnlyAnswer : Prop :=
  ∀ (s : State) (n k : Nat),
    (s.Serves (.ovenRead n) → exec (.ovenRead n) s = .next
      (if 1 ≤ n ∧ n ≤ 32 then
        s.reply .ok (if (s.oven n).state = .vacant then [0] else s.ovenBytes (s.oven n))
      else s.reply .range [])) ∧
    (s.Serves (.recipeRead n k) → exec (.recipeRead n k) s = .next
      (if 1 ≤ n ∧ n ≤ 4095 ∧ k ≤ 255 then
        (match s.recipes.find? (fun r => r.number = n && if k = 0 then r.state = .active else r.version = k) with
          | some r => s.reply .ok (recipeBytes r)
          | none => s.reply .noRecord [])
      else s.reply .range [])) ∧
    (s.Serves (.recipeList n k) → exec (.recipeList n k) s = .next
      (if n ≤ 4095 ∧ k ≤ 255 then s.reply .ok (recipeListBody s n k) else s.reply .range [])) ∧
    (s.Serves (.loadedSetRead n k) → exec (.loadedSetRead n k) s = .next
      (if k ≤ 63 ∧ 1 ≤ n ∧ n ≤ 32 then
        (if (s.oven n).state = .vacant then s.reply .noRecord []
        else if (s.oven n).state = .inService then s.reply .ok (loadedSetBody s n k)
        else s.reply .wrongState [])
      else s.reply .range [])) ∧
    (s.Serves (.permitRead n) → exec (.permitRead n) s = .next
      (if 1 ≤ n ∧ n ≤ 32 then
        (if (s.oven n).state = .vacant then s.reply .noRecord []
        else match s.permit n with
          | some p => s.reply .ok (s.permitBytes p)
          | none => s.reply .noRecord [])
      else s.reply .range [])) ∧
    (s.Serves (.ticketRead n) → exec (.ticketRead n) s = .next
      (match s.tickets.find? (fun t => t.number = n) with
        | some t => s.reply .ok (s.ticketBytes t)
        | none => s.reply .noRecord [])) ∧
    (∀ o, s.Serves (.ticketList n o) → exec (.ticketList n o) s = .next
      (if ∀ m ∈ o, m ≤ 32 then s.reply .ok (ticketListBody s n o) else s.reply .range [])) ∧
    (s.Serves (.campaignRead n) → exec (.campaignRead n) s = .next
      (if 1 ≤ n ∧ n ≤ 4 then
        s.reply .ok (match s.campaign n with | some m => 1 :: s.campaignBytes m | none => [0])
      else s.reply .range []))

/-! ### The clock and the notice set (chapters 09 and 10) -/

/-- R184, R185: CLOCK_SET completes for every value up to 4,000,000,000 and gives the old and the new clock values. The whole
next state: every armed deadline stands at its seconds remaining from the new value, every stored instant of R185 has moved by
the step, saturating at 0, the clock is set, the apply gating of every STAGED entry is examined, and every field of every
record is otherwise as it was. No deadline is armed or disarmed; the gating changes nothing where no entry is STAGED. A value
above 4,000,000,000 is refused. -/
def Obligations.ClockSetKeepsRemainingTimes : Prop :=
  ∀ (s : State) (v : Nat), s.Serves (.clockSet v) →
    (4000000000 < v → exec (.clockSet v) s = .next (s.reply .range [])) ∧
    (v ≤ 4000000000 →
      let ahead := fun t => min 4294967295 (v + (t - s.clock))
      let moved := fun t => min 4294967295 (t + v - s.clock)
      let point := fun x => match x with
        | Point.armed t => Point.armed (ahead t)
        | .passed => .passed
      let hygiene := fun h : Hygiene => { h with
        lastFull := moved h.lastFull, deadline := point h.deadline, advance := point h.advance
        clean := h.clean.map fun c => { c with startedAt := moved c.startedAt, deadline := ahead c.deadline } }
      let w : State := { s with
        clock := v, clockUnset := false
        ovens := s.ovens.map fun o => { o with
          lastHeard := moved o.lastHeard, comm := o.comm.map fun x => (x.1, ahead x.2), gathering := o.gathering.map ahead
          silence := o.silence.map ahead, hygiene := o.hygiene.map hygiene }
        loaded := s.loaded.map fun l => l.map fun e => { e with deadline := e.deadline.map fun x => (x.1, ahead x.2) }
        permits := s.permits.map (Option.map fun p => { p with grantedAt := moved p.grantedAt, deadline := ahead p.deadline })
        tickets := s.tickets.map fun t => { t with
          escalation := t.escalation.map ahead, verification := t.verification.map ahead
          firstSeen := moved t.firstSeen, lastSeen := moved t.lastSeen }
        campaigns := s.campaigns.map (Option.map fun m => { m with
          entries := m.entries.map fun e => { e with deadline := e.deadline.map ahead } })
        channels := s.channels.map (Option.map fun b => { b with timeout := b.timeout.map ahead, check := b.check.map ahead })
        notices := s.notices.map fun e => { e with first := moved e.first, last := moved e.last } }
      exec (.clockSet v) s = .next ((gateAll w).reply .ok (le 4 s.clock ++ le 4 v)) ∧
      ((∀ c m, s.campaign c = some m → ∀ e ∈ m.entries, e.state ≠ .staged) → gateAll w = w) ∧
      w.alarms.map (fun a => (a.command, a.instant)) = s.alarms.map (fun a => (a.command, ahead a.instant)) ∧
      ((∀ a ∈ s.alarms, a.instant - s.clock ≤ 294967295) →
        w.alarms.map (fun a => (a.command, a.instant - v)) = s.alarms.map (fun a => (a.command, a.instant - s.clock))) ∧
      ∃ t, exec (.clockSet v) s = .next t ∧ t.clock = v ∧ t.clockUnset = false ∧
        t.port = .ready { status := .ok, body := le 4 s.clock ++ le 4 v })

/-- R199: NOTICE_READ takes the head of the list and gives it; an empty set is refused NO_RECORD; the request carries no
body. -/
def Obligations.NoticeReadTakesTheHead : Prop :=
  (∀ s : State, s.Serves .noticeRead →
    (s.notices = [] → exec .noticeRead s = .next (s.reply .noRecord [])) ∧
    ∀ e rest, s.notices = e :: rest → exec .noticeRead s = .next (State.reply { s with notices := rest } .ok
      (le 1 e.kind.code ++ le 2 e.subject ++ le 1 e.count ++ le 4 e.first ++ le 4 e.last ++ e.detail ++ le 1 rest.length))) ∧
  ∀ b body, judgeFrame (0x70 :: le 2 (b :: body : List Byte).length ++ b :: body) = .answer .badLength

/-- R196, R198, R201: what a raise does to the notice set: dropped when its kind is disabled, else the entry of its key is
brought up to date in its place, else a new entry is added at the end, else RESYNC is raised in its place. -/
def Obligations.RaisePutsOneNotice : Prop :=
  ∀ (k : NoticeKind) (subject : Nat) (detail : List Byte) (s : State), k ≠ .resync → detail.length ≤ 8 →
    let d := (detail ++ List.replicate 8 0).take 8
    let lost := le 1 k.code ++ le 2 subject ++ List.replicate 5 0
    let counted := fun (e : Notice) (x : List Byte) => { e with last := s.clock, count := min 255 (e.count + 1), detail := x }
    let fresh := fun (j : NoticeKind) (i : Nat) (x : List Byte) =>
      ({ kind := j, subject := i, first := s.clock, last := s.clock, count := 1, detail := x } : Notice)
    let listed := ∃ e ∈ s.notices, e.kind = k ∧ e.subject = subject
    let full := 63 ≤ s.notices.countP (fun e => e.kind ≠ .resync)
    (k ≠ .siteRestarted → s.enables.getLsbD k.code = false → raise k subject detail s = s) ∧
    (k = .siteRestarted ∨ s.enables.getLsbD k.code = true →
      (listed → raise k subject detail s =
        { s with notices := s.notices.map fun e => if e.kind = k ∧ e.subject = subject then counted e d else e }) ∧
      (¬ listed → ¬ full → raise k subject detail s = { s with notices := s.notices ++ [fresh k subject d] }) ∧
      (¬ listed → full → (∀ e ∈ s.notices, ¬ (e.kind = .resync ∧ e.subject = 0)) →
        raise k subject detail s = { s with notices := s.notices ++ [fresh .resync 0 lost] }) ∧
      (¬ listed → full → (∃ e ∈ s.notices, e.kind = .resync ∧ e.subject = 0) →
        raise k subject detail s = { s with
          notices := s.notices.map fun e => if e.kind = .resync ∧ e.subject = 0 then counted e lost else e }))

/-- R201, R202: NOTICE_ENABLE records the set and gives it; with no kind newly enabled of which standing conditions are
reported, nothing else changes; BUS newly enabled raises the bus standing unless node 0 is ERROR_ACTIVE. For every set: of
each kind newly enabled one notice is raised for each subject whose condition stands, in ascending order of subject:
OVEN_PRESENCE for each SILENT oven, HYGIENE for each in DUE or RESIDUE, TICKET for each ticket in OPEN with level 1 or above,
BUS. That all 16 bits are recorded and given back, the unused bits 0, 1, 14 and 15 among them, is the model's choice (A41). -/
def Obligations.NoticeEnableRecordsTheSet : Prop :=
  ∀ (s : State) (kinds : Nat), kinds < 65536 → s.Serves (.noticeEnable kinds) →
    let u : State := { s with enables := BitVec.ofNat 16 kinds }
    ((∀ k ∈ [3, 7, 8], s.enables.getLsbD k = true ∨ kinds.testBit k = false) →
      exec (.noticeEnable kinds) s = .next (State.reply
        (if s.enables.getLsbD 13 = false ∧ kinds.testBit 13 = true ∧ s.confinement ≠ 0 then raiseBus 0 u else u) .ok
        (le 2 kinds))) ∧
    ((∀ t ∈ s.tickets, s.ticket t.number = some t) →
      let newly := fun k : Nat => s.enables.getLsbD k = false ∧ kinds.testBit k = true
      let silent := allSlots.filter fun n => decide ((s.oven n).present = false ∧ (s.oven n).state ≠ .vacant ∧
        (s.oven n).state ≠ .discovered ∧ (s.oven n).state ≠ .assigning)
      let presence := if newly 3 then
          silent.foldl (fun t n => raise .ovenPresence n (le 1 1 ++ le 4 (s.oven n).lastHeard) t) u
        else u
      let hygiene := if newly 7 then
          allSlots.foldl (fun t n => match (s.oven n).hygiene with
            | some h =>
              if h.state = .due then raise .hygiene n (hygieneDetail 0 h 0 0) t
              else if h.state = .residue then raise .hygiene n (hygieneDetail 1 h 0 0) t else t
            | none => t) presence
        else presence
      let tickets := if newly 8 then
          (s.tickets.filter fun t => decide (t.state = .open ∧ 1 ≤ t.level)).foldl
            (fun w t => raise .ticket t.number (ticketDetail s 3 1 t) w) hygiene
        else hygiene
      exec (.noticeEnable kinds) s = .next (State.reply
        (if newly 13 ∧ s.confinement ≠ 0 then raiseBus 0 tickets else tickets) .ok (le 2 kinds)))

/-! ### The Oven Registry (chapter 02) -/

/-- R24, R43: BAR and UNBAR on the barred-serial list; SITE_OPEN opens the site once. -/
def Obligations.BarUnbarAndSiteOpen : Prop :=
  ∀ (s : State) (serial : Nat),
    (s.Serves (.bar serial) → exec (.bar serial) s = .next
      (if serial ∈ s.barred then s.reply .ok []
      else if s.barred.length < 8 then State.reply { s with barred := s.barred ++ [serial] } .ok []
      else s.reply .tableFull [])) ∧
    (s.Serves (.unbar serial) → exec (.unbar serial) s = .next
      (if serial ∈ s.barred then State.reply { s with barred := s.barred.filter fun x => decide (x ≠ serial) } .ok []
      else s.reply .noRecord [])) ∧
    (s.Serves .siteOpen → exec .siteOpen s = .next
      (if s.siteOpen = true then s.reply .siteState [] else State.reply { s with siteOpen := true } .ok []))

/-- R25: OVEN_ADMIT: its refusals, and the admission of a DISCOVERED record with ASSIGN placed and the reply deadline armed.
Of refusals that hold together where the rule numbers no order, the first it names is given, by the model's choice (A69). -/
def Obligations.OvenAdmitAssigns : Prop :=
  ∀ (s : State) (n g : Nat), s.Serves (.ovenAdmit n g) →
    (n < 1 ∨ 32 < n ∨ 7 < g → exec (.ovenAdmit n g) s = .next (s.reply .range [])) ∧
    (1 ≤ n → n ≤ 32 → g ≤ 7 →
      ((s.oven n).state = .vacant → exec (.ovenAdmit n g) s = .next (s.reply .noRecord [])) ∧
      ((s.oven n).state ≠ .vacant → (s.oven n).state ≠ .discovered →
        exec (.ovenAdmit n g) s = .next (s.reply .wrongState [])) ∧
      ∀ serial, (s.oven n).state = .discovered → (s.oven n).serial = some serial → s.Settled →
        exec (.ovenAdmit n g) s = .next (State.reply
          ((deliver (assignFrame s serial n) s).setOven n { s.oven n with
            group := g, hint := none, state := .assigning, tries := 1
            comm := some (.reply, min 4294967295 (s.clock + 5)) }) .ok []))

/-- R30, R112: OVEN_COMMISSION: its refusals, the clamps and their order, the record in TESTING with TEST_ORDER placed and the
test deadline armed; CLAMPED exactly when a value was clamped. Of refusals that hold together where the rule numbers no order,
the first it names is given, by the model's choice (A69). -/
def Obligations.OvenCommissionStartsTheTest : Prop :=
  ∀ (s : State) (n : Nat) (cavity humidity : Int) (g : Nat) (t : Thresholds),
    s.Serves (.ovenCommission n cavity humidity g t) →
    (n < 1 ∨ 32 < n ∨ 7 < g → exec (.ovenCommission n cavity humidity g t) s = .next (s.reply .range [])) ∧
    (1 ≤ n → n ≤ 32 → g ≤ 7 →
      ((s.oven n).state = .vacant → exec (.ovenCommission n cavity humidity g t) s = .next (s.reply .noRecord [])) ∧
      ((s.oven n).state ≠ .vacant → (s.oven n).state ≠ .awaitingSetup →
        exec (.ovenCommission n cavity humidity g t) s = .next (s.reply .wrongState [])) ∧
      ((s.oven n).state = .awaitingSetup → s.Settled →
        let c := max (-15) (min 15 cavity)
        let h := max (-10) (min 10 humidity)
        let held := (s.oven n).setup.getD { advise := 24000, lock := 40000, interval := 1440 }
        let lock := max 1000 (min 65535 (t.lock.getD held.lock))
        let advise := min (lock - 1) (t.advise.getD held.advise)
        let interval := max 240 (min 2880 (t.interval.getD held.interval))
        let exact := c = cavity ∧ h = humidity ∧ lock = t.lock.getD held.lock ∧ advise = t.advise.getD held.advise ∧
          interval = t.interval.getD held.interval
        exec (.ovenCommission n cavity humidity g t) s = .next (State.reply
          ((deliver (ovenFrame .registry n (.testOrder c h)) s).setOven n { s.oven n with
            state := .testing, cavity := c, humidity := h, group := g
            setup := some { advise := advise, lock := lock, interval := interval }
            comm := some (.test, min 4294967295 (s.clock + 3600)) }) (if exact then .ok else .clamped) [])))

/-- R33, R21, R150: OVEN_DISMISS: its refusals, and the dismissal of a record not yet in service: its tickets closed WITHDRAWN
with their notices and what each tells (`withdrawn`), then the record VACANT. That BARRED is not placed for a serial that
merely stands on the barred list when bar is not asked (A50), and that several tickets are closed in ascending number (A56),
are the model's choices. Of refusals that hold together where the rule numbers no order, the first it names is given, by the
model's choice (A69). -/
def Obligations.OvenDismissVacates : Prop :=
  ∀ (s : State) (n : Nat) (bar : Bool), s.Serves (.ovenDismiss n bar) →
    let o := s.oven n
    (n < 1 ∨ 32 < n → exec (.ovenDismiss n bar) s = .next (s.reply .range [])) ∧
    (1 ≤ n → n ≤ 32 →
      (o.state = .vacant → exec (.ovenDismiss n bar) s = .next (s.reply .noRecord [])) ∧
      (o.state = .inService ∨ o.state = .retiring → exec (.ovenDismiss n bar) s = .next (s.reply .wrongState [])) ∧
      ∀ serial, o.state ≠ .vacant → o.state ≠ .inService → o.state ≠ .retiring → o.serial = some serial →
        (bar = true → serial ∉ s.barred → 8 ≤ s.barred.length →
          exec (.ovenDismiss n bar) s = .next (s.reply .tableFull [])) ∧
        (s.NoTickets n → bar = false → exec (.ovenDismiss n bar) s = .next (((s.setOven n {}).clearedOf n).reply .ok [])) ∧
        (s.NoTickets n → s.Settled → bar = true → serial ∈ s.barred ∨ s.barred.length < 8 →
          let u := State.clearedOf (State.setOven { s with
            barred := if serial ∈ s.barred then s.barred else s.barred ++ [serial] } n {}) n
          exec (.ovenDismiss n bar) s = .next ((deliver (barredFrame u serial false) u).reply .ok [])) ∧
        (s.Ungated n → (∀ t ∈ s.tickets, s.ticket t.number = some t) →
          (bar = true → serial ∈ s.barred ∨ s.barred.length < 8) →
          let listed := if bar = true ∧ serial ∉ s.barred then s.barred ++ [serial] else s.barred
          let u := State.clearedOf (State.setOven (withdrawn n { s with barred := listed }) n {}) n
          exec (.ovenDismiss n bar) s =
            .next ((if bar = true then deliver (barredFrame u serial false) u else u).reply .ok [])))

/-- R34, R35, R88, R150, R179: OVEN_RETIRE: its refusals; of an oven with no loaded set, no ticket and no campaign: with an
open permit the record becomes RETIRING and nothing else is told; without one it leaves service at once, BARRED following where
the serial is barred. Of any oven in service: what is done in turn, and what each part does: the campaign entries aborted,
removed or kept, the loaded set cleared with its transfer, the tickets closed WITHDRAWN, the check of R35. The order of the
parts (A12), one channel choice after them (A48), the ascending number of the tickets (A56) and bar refused on a full list that
holds the serial (A50) are the model's choices; the offset of the RELEASED notice is a free value (A16): this holds for every
value of it. Of refusals that hold together where the rule numbers no order, the first it names is given, by the model's choice
(A69). -/
def Obligations.OvenRetireLeavesService : Prop :=
  (∀ (s : State) (n : Nat) (bar : Bool), s.Serves (.ovenRetire n bar) →
    (n < 1 ∨ 32 < n → exec (.ovenRetire n bar) s = .next (s.reply .range [])) ∧
    (isSlot n → (s.oven n).state = .vacant → exec (.ovenRetire n bar) s = .next (s.reply .noRecord []))) ∧
  (∀ (s : State) (n : Nat) (bar : Bool), s.Serves (.ovenRetire n bar) → isSlot n →
    ((s.oven n).state ≠ .vacant → (s.oven n).state ≠ .inService →
      exec (.ovenRetire n bar) s = .next (s.reply .wrongState [])) ∧
    ((s.oven n).state = .inService → bar = true → 8 ≤ s.barred.length →
      exec (.ovenRetire n bar) s = .next (s.reply .tableFull [])) ∧
    ∀ serial, (s.oven n).state = .inService → (s.oven n).serial = some serial → (bar = true → s.barred.length < 8) →
      s.Settled → s.NoCampaigns → s.NoOffers → s.NoTickets n → s.loadedOf n = [] → s.boundSlot n = none →
      let listed := if bar = true ∧ serial ∉ s.barred then s.barred ++ [serial] else s.barred
      let u := withdraw .answer .distribution
        (fun f => f.mark = .oven n && (f.payload.kind = .unload || f.payload.kind = .discard)) { s with barred := listed }
      let v := (raise .commissionResult n (le 1 5) u).setOven n {}
      ((s.permit n).isSome = true → exec (.ovenRetire n bar) s =
        .next ((u.setOven n { s.oven n with state := .retiring }).reply .ok [])) ∧
      (s.permit n = none → serial ∉ listed → exec (.ovenRetire n bar) s = .next ((v.clearedOf n).reply .ok [])) ∧
      (s.permit n = none → serial ∈ listed → exec (.ovenRetire n bar) s =
        .next ((deliver (barredFrame (v.clearedOf n) serial false) (v.clearedOf n)).reply .ok []))) ∧
  (∀ (s : State) (n : Nat) (bar : Bool) (serial : Nat), s.Serves (.ovenRetire n bar) → isSlot n →
    (s.oven n).state = .inService → (s.oven n).serial = some serial → (bar = true → s.barred.length < 8) →
    let listed := if bar = true ∧ serial ∉ s.barred then s.barred ++ [serial] else s.barred
    let t := withdrawTickets n (clearLoaded n (retireEntries n { s with barred := listed }))
    exec (.ovenRetire n bar) s =
      .next ((leaveCheck n (t.setOven n { t.oven n with state := .retiring })).reply .ok [])) ∧
  ∀ (s : State) (n : Nat),
    ((∀ c, s.centry c n = none) → retireEntries n s = channelChoice s) ∧
    (∀ c m e, 1 ≤ c → c ≤ 4 → s.campaign c = some m → s.centry c n = some e → (∀ c' ≠ c, s.centry c' n = none) →
      (e.state = .waiting ∨ e.state = .staged → retireEntries n s = channelChoice (finishCheck c (s.removeCEntry c n))) ∧
      (e.state = .applying ∨ e.state = .done ∨ e.state = .failed ∨ e.state = .skipped →
        retireEntries n s = channelChoice s) ∧
      ∀ ch b, e.state = .transferring ∨ e.state = .suspended → e.channel = some ch → 1 ≤ ch → ch ≤ 2 →
        s.channel ch = some b → b.campaign = c → b.oven = n → s.Settled →
        retireEntries n s = channelChoice (finishCheck c ((s.released ch c n 3 true).removeCEntry c n))) ∧
    clearLoaded n s = slotChoice (withdraw .answer .distribution
      (fun f => f.mark = .oven n && (f.payload.kind = .unload || f.payload.kind = .discard))
      ((s.loadedOf n).foldl (fun t e => dropRef e.number e.version t) ((s.freed n).setLoaded n []))) ∧
    (s.Ungated n → (∀ t ∈ s.tickets, s.ticket t.number = some t) → withdrawTickets n s = withdrawn n s) ∧
    ((s.oven n).state ≠ .retiring ∨ (s.permit n).isSome = true ∨ s.applying n = true → leaveCheck n s = s) ∧
    ∀ serial, (s.oven n).state = .retiring → s.permit n = none → s.applying n = false → s.NoTickets n → s.Settled →
      (s.oven n).serial = some serial →
      let v := State.clearedOf ((raise .commissionResult n (le 1 5) s).setOven n {}) n
      leaveCheck n s = if serial ∈ s.barred then deliver (barredFrame v serial false) v else v

/-- R41, R112, R113, R114 to R116: OVEN_SET: its refusals; of an oven in service that holds no recipe: each field given is
recorded, clamped, a field not given is left, a changed interval rearms the hygiene points; no frame while the cleaning state
stands, HYGIENE_STATE and the notice of DUE or RESIDUE where it moves. R83: of an oven with one entry, where no slot choice
follows, an offset that changes the content of a LOADED or FAILED entry returns it to PENDING; any other entry that is not in
transfer stays as it is; an entry in OFFERED or SENDING whose content changes has its transfer ended with DISCARD and returns
to PENDING, and the slot choice follows. R69, R70, R72: a changed group: an empty loaded set is filled with the wanted
versions; one entry, its recipe the only one ACTIVE or none, is kept, or taken away by its state; the slot choice follows. That
an entry whose content changed keeps its unload-deferred flag (A53), and that the advance point is taken from the saturated
instant (A36), are the model's choices. Of refusals that hold together where the rule numbers no order, the first it names is
given, by the model's choice (A69). -/
def Obligations.OvenSetRecordsWhatIsGiven : Prop :=
  (∀ (s : State) (n : Nat) (g : Option Nat) (cavity humidity : Option Int) (t : Thresholds),
    s.Serves (.ovenSet n g cavity humidity t) →
    (n < 1 ∨ 32 < n ∨ (∃ x ∈ g, 7 < x) → exec (.ovenSet n g cavity humidity t) s = .next (s.reply .range [])) ∧
    (isSlot n → (∀ x ∈ g, x ≤ 7) → (s.oven n).state = .vacant →
      exec (.ovenSet n g cavity humidity t) s = .next (s.reply .noRecord [])) ∧
    (isSlot n → (∀ x ∈ g, x ≤ 7) → (s.oven n).state ≠ .vacant → (s.oven n).state ≠ .inService →
      exec (.ovenSet n g cavity humidity t) s = .next (s.reply .wrongState []))) ∧
  (∀ (s : State) (n : Nat) (g : Option Nat) (cavity humidity : Option Int) (t : Thresholds) (h : Hygiene),
    s.Serves (.ovenSet n g cavity humidity t) → (∀ x ∈ g, x ≤ 7) → isSlot n → (s.oven n).state = .inService →
    (s.oven n).hygiene = some h → s.loadedOf n = [] → s.NoOffers → (∀ r ∈ s.recipes, r.state ≠ .active) →
    (t.advise.isSome = true ∨ t.lock.isSome = true ∨ t.interval.isSome = true) →
    let lock := max 1000 (min 65535 (t.lock.getD h.settings.lock))
    let advise := min (lock - 1) (t.advise.getD h.settings.advise)
    let interval := max 240 (min 2880 (t.interval.getD h.settings.interval))
    let instant := min 4294967295 (h.lastFull + interval * 60)
    let point := fun i => if i ≤ s.clock then Point.passed else .armed i
    let h' : Hygiene := { h with
      settings := { advise := advise, lock := lock, interval := interval }
      deadline := if interval = h.settings.interval then h.deadline else point instant
      advance := if interval = h.settings.interval then h.advance else point (instant - 7200) }
    let exact := (∀ c ∈ cavity, -15 ≤ c ∧ c ≤ 15) ∧ (∀ c ∈ humidity, -10 ≤ c ∧ c ≤ 10) ∧
      lock = t.lock.getD h.settings.lock ∧ advise = t.advise.getD h.settings.advise ∧
      interval = t.interval.getD h.settings.interval
    let recorded := fun x : Hygiene => s.setOven n { s.oven n with
      group := g.getD (s.oven n).group
      cavity := (cavity.map fun c => max (-15) (min 15 c)).getD (s.oven n).cavity
      humidity := (humidity.map fun c => max (-10) (min 10 c)).getD (s.oven n).humidity
      hygiene := some x }
    let told := deliver (hygieneFrame s n h'.restated) (recorded h'.restated)
    (h'.judged = h.state →
      exec (.ovenSet n g cavity humidity t) s = .next (State.reply (recorded h') (if exact then .ok else .clamped) [])) ∧
    (h'.judged ≠ h.state → s.Settled → s.NoCampaigns →
      exec (.ovenSet n g cavity humidity t) s = .next (State.reply
        (if h'.judged = .due then raise .hygiene n (hygieneDetail 0 h'.restated 0 0) told
          else if h'.judged = .residue then raise .hygiene n (hygieneDetail 1 h'.restated 0 0) told else told)
        (if exact then .ok else .clamped) []))) ∧
  (∀ (s : State) (n : Nat) (cavity humidity : Option Int) (e : Entry) (r : Recipe),
    s.Serves (.ovenSet n none cavity humidity { advise := none, lock := none, interval := none }) → isSlot n →
    (s.oven n).state = .inService → s.loadedOf n = [e] → e.state ≠ .offered → e.state ≠ .sending →
    s.recipe e.number e.version = some r → (s.oven n).present = false ∨ (∀ k, 1 ≤ k → k ≤ 4 → (s.distSlot k).isSome = true) →
    (∀ h ∈ (s.oven n).hygiene, 1000 ≤ h.settings.lock ∧ h.settings.lock ≤ 65535 ∧ h.settings.advise < h.settings.lock ∧
      240 ≤ h.settings.interval ∧ h.settings.interval ≤ 2880) → (∀ m, m ≠ n → s.loadedOf m = []) →
    let o : Oven := { s.oven n with
      cavity := (cavity.map fun c => max (-15) (min 15 c)).getD (s.oven n).cavity
      humidity := (humidity.map fun c => max (-10) (min 10 c)).getD (s.oven n).humidity }
    let exact := (∀ c ∈ cavity, -15 ≤ c ∧ c ≤ 15) ∧ (∀ c ∈ humidity, -10 ≤ c ∧ c ≤ 10)
    exec (.ovenSet n none cavity humidity { advise := none, lock := none, interval := none }) s = .next (State.reply
      (if contentOf (s.oven n) r ≠ contentOf o r ∧ (e.state = .loaded ∨ e.state = .failed) then
        (s.setOven n o).setLoaded n [{ e with state := .pending, retries := 0 }]
      else s.setOven n o) (if exact then .ok else .clamped) [])) ∧
  (∀ (s : State) (n k : Nat) (cavity humidity : Option Int) (e : Entry) (r : Recipe),
    s.Serves (.ovenSet n none cavity humidity { advise := none, lock := none, interval := none }) → isSlot n →
    (s.oven n).state = .inService → s.loadedOf n = [e] → e.state = .offered ∨ e.state = .sending →
    s.boundSlot n = some k → s.recipe e.number e.version = some r → s.Settled →
    (∀ h ∈ (s.oven n).hygiene, 1000 ≤ h.settings.lock ∧ h.settings.lock ≤ 65535 ∧ h.settings.advise < h.settings.lock ∧
      240 ≤ h.settings.interval ∧ h.settings.interval ≤ 2880) →
    let o : Oven := { s.oven n with
      cavity := (cavity.map fun c => max (-15) (min 15 c)).getD (s.oven n).cavity
      humidity := (humidity.map fun c => max (-10) (min 10 c)).getD (s.oven n).humidity }
    let exact := (∀ c ∈ cavity, -15 ≤ c ∧ c ≤ 15) ∧ (∀ c ∈ humidity, -10 ≤ c ∧ c ≤ 10)
    contentOf (s.oven n) r ≠ contentOf o r →
    exec (.ovenSet n none cavity humidity { advise := none, lock := none, interval := none }) s = .next (State.reply
      (slotChoice (State.setLoaded (deliver (ovenFrame .distribution n (.discard e.number e.version))
        (((s.setOven n o).withoutSegments k).setDistSlot k none)) n
          [{ e with state := .pending, retries := 0, deadline := none }])) (if exact then .ok else .clamped) [])) ∧
  ∀ (s : State) (n g : Nat), s.Serves (.ovenSet n (some g) none none { advise := none, lock := none, interval := none }) →
    isSlot n → g ≤ 7 → g ≠ (s.oven n).group → (s.oven n).state = .inService → s.Settled →
    (s.recipes.map fun r => (r.number, r.version)).Nodup →
    (∀ h ∈ (s.oven n).hygiene, 1000 ≤ h.settings.lock ∧ h.settings.lock ≤ 65535 ∧ h.settings.advise < h.settings.lock ∧
      240 ≤ h.settings.interval ∧ h.settings.interval ≤ 2880) →
    let moved := s.setOven n { s.oven n with group := g }
    (s.loadedOf n = [] → exec (.ovenSet n (some g) none none { advise := none, lock := none, interval := none }) s =
      .next ((slotChoice (moved.built n)).reply .ok [])) ∧
    ∀ e a, s.loadedOf n = [e] → s.recipe e.number e.version = some a →
      (∀ r ∈ s.recipes, r.state = .active → r = a) →
      (wants (moved.oven n) a = false →
        exec (.ovenSet n (some g) none none { advise := none, lock := none, interval := none }) s =
          .next ((slotChoice (soleLoses n e moved)).reply .ok [])) ∧
      (wants (moved.oven n) a = true → e.state ≠ .stale →
        exec (.ovenSet n (some g) none none { advise := none, lock := none, interval := none }) s =
          .next ((slotChoice (moved.setLoaded n [if e.state = .loaded then { e with deferred := false } else e])).reply .ok []))

/-- R42: OVEN_LOCK and OVEN_UNLOCK: the manual lock is recorded, the lock reasons re-derived, and LOCK_STATE placed for a record
in IN_SERVICE or RETIRING; a lock already as asked changes nothing. -/
def Obligations.LocksAreToldToTheOven : Prop :=
  ∀ (s : State) (n : Nat) (on : Bool), s.Serves (if on then .ovenLock n else .ovenUnlock n) →
    let c := if on then Instr.ovenLock n else .ovenUnlock n
    let o := s.oven n
    let locks : Locks := { manual := on, ticket := o.locks.ticket, update := o.locks.update }
    (n < 1 ∨ 32 < n → exec c s = .next (s.reply .range [])) ∧
    (isSlot n → o.state = .vacant → exec c s = .next (s.reply .noRecord [])) ∧
    (isSlot n → o.state ≠ .vacant → o.manualLock = on → exec c s = .next (s.reply .ok [])) ∧
    (isSlot n → o.state ≠ .vacant → o.manualLock = (!on) → o.locks = s.lockView n → s.Settled →
      (s.campaignWhere n fun x => x = .staged) = none →
      let u := s.setOven n { o with manualLock := on, locks := locks }
      exec c s = .next (State.reply
        (if o.state = .inService ∨ o.state = .retiring then deliver (ovenFrame .registry n (.lockState locks)) u else u)
        .ok []))

/-- R44, R129, R69, R70: OVEN_RESTORE: its refusals, and the restore of a VACANT slot with a serial no record holds, no recipe
wanted and no campaign: the record, HYGIENE_STATE, the notice of a standing DUE or RESIDUE, LOCK_STATE. The restore with any
recipes, of a VACANT slot or over a DISCOVERED record of the serial, in this slot or in another, which becomes VACANT: the
loaded set built PENDING, and the slot choice; from a DISCOVERED record the oven is PRESENT with that record's last heard. That
a cleaning code above 2 is read as none and counts as clamped, that LOCK_STATE is placed once, and that a DISCOVERED record in
another slot gives its last heard (A32), that a silence deadline already past expires last (A67), and that the last status of
such a record is dropped (A68), are the model's choices. Of refusals that hold together where the rule numbers no order, the
first it names is given, by the model's choice (A69). -/
def Obligations.OvenRestoreRecreatesTheOven : Prop :=
  ∀ (s : State) (n serial : Nat) (r : RestoreRecord), s.Serves (.ovenRestore n serial r) →
    (s.siteOpen = true → exec (.ovenRestore n serial r) s = .next (s.reply .siteState [])) ∧
    (s.siteOpen = false → s.clockUnset = true → exec (.ovenRestore n serial r) s = .next (s.reply .wrongState [])) ∧
    (s.siteOpen = false → s.clockUnset = false → n < 1 ∨ 32 < n ∨ 7 < r.group →
      exec (.ovenRestore n serial r) s = .next (s.reply .range [])) ∧
    (s.siteOpen = false → s.clockUnset = false → isSlot n → r.group ≤ 7 →
      (s.oven n).state ≠ .vacant → (s.oven n).state ≠ .discovered ∨ (s.oven n).serial ≠ some serial →
      exec (.ovenRestore n serial r) s = .next (s.reply .inUse [])) ∧
    (s.siteOpen = false → s.clockUnset = false → isSlot n → r.group ≤ 7 →
      (∃ k, isSlot k ∧ k ≠ n ∧ (s.oven k).serial = some serial ∧ (s.oven k).state ≠ .vacant ∧
        (s.oven k).state ≠ .discovered) → exec (.ovenRestore n serial r) s = .next (s.reply .inUse [])) ∧
    (s.siteOpen = false → s.clockUnset = false → isSlot n → r.group ≤ 7 → (s.oven n).state = .vacant →
      (∀ k, (s.oven k).serial ≠ some serial) → s.Settled → s.NoCampaigns → s.NoTickets n → s.NoOffers →
      s.loadedOf n = [] → (∀ x ∈ s.recipes, x.state ≠ .active) →
      let h0 := rearmed s (restoredHygiene s r).1
      let h := { h0 with state := h0.judged }
      let locks : Locks := { manual := r.manualLock }
      let o : Oven :=
        { state := .inService, serial := some serial, model := r.model, firmware := some r.firmware
          profile := some
            { maxTemp := max 180 (min 300 r.maxTemp), steam := r.steam, probe := r.probe
              cleaning := (match r.cleaning with | 1 => .rinseOnly | 2 => .full | _ => .none)
              capacity := max 8 (min 250 r.capacity) }
          cavity := max (-15) (min 15 r.cavity), humidity := max (-10) (min 10 r.humidity), group := r.group
          manualLock := r.manualLock, present := false, lastHeard := s.clock, cooks := r.cooks, locks := locks
          hygiene := some h }
      let told := deliver (hygieneFrame s n h) (s.setOven n o)
      let noticed := if h.state = .due ∨ h.state = .residue then
          raise .hygiene n (le 1 (if h.state = .due then 0 else 1) ++ le 1 h.state.code ++ le 2 h.soil ++ [0, 0]) told
        else told
      exec (.ovenRestore n serial r) s = .next (State.reply (deliver (ovenFrame .registry n (.lockState locks)) noticed)
        (if profileClamped r = true ∨ (restoredHygiene s r).2 = true then .clamped else .ok) [])) ∧
    ∀ (base : State) (heard : Option Nat), s.siteOpen = false → s.clockUnset = false → isSlot n → r.group ≤ 7 →
      ((s.oven n).state = .vacant ∧ (∀ k, isSlot k → (s.oven k).serial ≠ some serial) ∧ base = s ∧ heard = none) ∨
      (∃ k, isSlot k ∧ (s.oven k).serial = some serial ∧ (s.oven k).state = .discovered ∧
        (∀ j, isSlot j → (s.oven j).serial = some serial → j = k) ∧ heard = some (s.oven k).lastHeard ∧
        ((k = n ∧ base = s) ∨ (k ≠ n ∧ (s.oven n).state = .vacant ∧ s.NoTickets k ∧ base = (s.clearedOf k).setOven k {}))) →
      s.Settled → s.NoCampaigns → s.NoTickets n → s.loadedOf n = [] → (s.recipes.map fun x => (x.number, x.version)).Nodup →
      let h := (rearmed s (restoredHygiene s r).1).restated
      let locks : Locks := { manual := r.manualLock }
      let o : Oven :=
        { state := .inService, serial := some serial, model := r.model, firmware := some r.firmware
          profile := some
            { maxTemp := max 180 (min 300 r.maxTemp), steam := r.steam, probe := r.probe
              cleaning := (match r.cleaning with | 1 => .rinseOnly | 2 => .full | _ => .none)
              capacity := max 8 (min 250 r.capacity) }
          cavity := max (-15) (min 15 r.cavity), humidity := max (-10) (min 10 r.humidity), group := r.group
          manualLock := r.manualLock, present := heard.isSome, lastHeard := heard.getD s.clock, cooks := r.cooks, locks := locks
          silence := heard.map fun t => min 4294967295 (t + 10), hygiene := some h }
      let told := deliver (hygieneFrame s n h) (base.setOven n o)
      let noticed := if h.state = .due ∨ h.state = .residue then
          raise .hygiene n (le 1 (if h.state = .due then 0 else 1) ++ le 1 h.state.code ++ le 2 h.soil ++ [0, 0]) told
        else told
      let filled := slotChoice (State.built (deliver (ovenFrame .registry n (.lockState locks)) noticed) n)
      exec (.ovenRestore n serial r) s = .next (State.reply
        (if ∃ t ∈ heard, t + 10 ≤ s.clock then relaySilent n (distributionSilent n
          (raise .ovenPresence n (le 1 1 ++ le 4 o.lastHeard)
            (filled.setOven n { filled.oven n with present := false, silence := none })))
        else filled)
        (if profileClamped r = true ∨ (restoredHygiene s r).2 = true then .clamped else .ok) [])

/-- R22: a CLAIM is answered by its serial: barred, held by a record in any of its states, unknown with a VACANT slot, unknown
with none. The oven of the record is PRESENT. -/
def Obligations.ClaimIsAnsweredBySerial : Prop :=
  ∀ (s : State) (f : InFrame) (rest : List InFrame), s.Live → s.Settled → s.inbound = f :: rest →
    acceptedKind f = some .claim →
    let serial := numAt f.data 0 6
    let model := numAt f.data 6 1
    let u : State := { s with inbound := rest }
    (serial ∈ s.barred → exec .claim s = .next (deliver (barredFrame u serial false) u)) ∧
    (serial ∉ s.barred → s.slotOfSerial serial = none →
      (∀ n, s.lowestVacant = some n → exec .claim s = .next
        (raise .ovenDiscovered n (le 6 serial ++ le 1 model ++ [0]) (u.setOven n
          { state := .discovered, serial := some serial, model := model, present := true, lastHeard := s.clock
            comm := some (.hold, min 4294967295 (s.clock + 600)) }))) ∧
      (s.lowestVacant = none → exec .claim s = .next (deliver (barredFrame u serial true) u))) ∧
    ∀ n, serial ∉ s.barred → s.slotOfSerial serial = some n → (s.oven n).present = true →
      let o := s.oven n
      let told := deliver (assignFrame s serial n) u
      (o.state = .discovered → exec .claim s = .next (u.setOven n { o with
        model := model, lastHeard := s.clock, comm := some (.hold, min 4294967295 (s.clock + 600)) })) ∧
      (o.state = .assigning → exec .claim s = .next (told.setOven n { o with
        model := model, lastHeard := s.clock, comm := some (.reply, min 4294967295 (s.clock + 5)) })) ∧
      (o.state ≠ .discovered → o.state ≠ .assigning → exec .claim s = .next (told.setOven n { o with
        model := model, lastHeard := s.clock, silence := some (min 4294967295 (s.clock + 10)) }))

/-- R5, R27, R28, R36, R40: ASSIGN_ACK, STATUS and CAPABILITY from an oven that is PRESENT. The places of the fields in a STATUS
frame are the model's choice (A20), and so are the places of the steam and probe bytes of a CAPABILITY frame 0 (A54), which are
read by a free value where they are neither 0 nor 1 (A14): this holds for every value of it. A CAPABILITY pair completes
whichever frame comes first; R84: an oven in service that loses its steam has the entry whose recipe needs it removed, with
DISCARD. R40: of an oven in service only a changed profile is a capability change. R83, R84 step 2: a changed maximum
temperature returns the entry whose clamped content it changes to PENDING, where no slot choice follows. R85: a capacity below
the count: the entries brought down, in the order of its steps, each with what it leaves; the higher version first of two of one
number (A55), the unload-deferred flag an entry keeps (A53) and the slot choices after R84 and after R85 alone (A61) are the
model's choices. -/
def Obligations.ReportsFillTheRecord : Prop :=
  ∀ (s : State) (f : InFrame) (rest : List InFrame),
    let n := f.source
    let u := s.afterHearing f rest
    let o := u.oven n
    (s.Hears .assignAck f rest →
      (o.state = .assigning → o.serial = some (numAt f.data 0 6) → exec .assignAck s = .next (u.setOven n { o with
        state := .profiling, tries := 0, present := true, lastHeard := s.clock, cap0 := none, cap1 := none
        silence := some (min 4294967295 (s.clock + 10)), comm := some (.profile, min 4294967295 (s.clock + 30)) })) ∧
      (o.state ≠ .assigning ∨ o.serial ≠ some (numAt f.data 0 6) → exec .assignAck s = .next u)) ∧
    (s.Hears .status f rest → exec .status s = .next (u.setOven n { o with
      lastStatus := some ⟨numAt f.data 0 1, numAt f.data 1 1, numAt f.data 2 2⟩ })) ∧
    (s.Hears .capability f rest →
      let profile : Profile :=
        { maxTemp := max 180 (min 300 (numAt f.data 0 2)), steam := readFlag (numAt f.data 2 1)
          probe := readFlag (numAt f.data 3 1)
          cleaning := (match numAt f.data 4 1 with | 1 => .rinseOnly | 2 => .full | _ => .none)
          capacity := max 8 (min 250 (numAt f.data 5 1)) }
      (o.state = .assigning ∨ 2 ≤ f.tag → (o.cap0 = none ∨ o.cap1 = none) → exec .capability s = .next u) ∧
      (o.state ≠ .assigning → f.tag = 0 → o.cap1 = none →
        exec .capability s = .next (u.setOven n { o with cap0 := some profile })) ∧
      (∀ model fw, o.state = .profiling → f.tag = 0 → o.cap1 = some (model, fw) →
        exec .capability s = .next (raise .commissionResult n (le 1 0) (u.setOven n { o with
          state := .awaitingSetup, comm := none, cap0 := none, cap1 := none, profile := some profile, model := model
          firmware := some fw }))) ∧
      (∀ p, o.state = .inService ∨ o.state = .retiring → f.tag = 1 → o.cap0 = some p → o.profile = some p →
        exec .capability s = .next (u.setOven n { o with
          cap0 := none, cap1 := none, model := numAt f.data 0 1, refreshPending := false, gathering := none
          firmware := some ⟨numAt f.data 1 1, numAt f.data 2 1, numAt f.data 3 2⟩ })) ∧
      let model := numAt f.data 0 1
      let fw : Firmware := ⟨numAt f.data 1 1, numAt f.data 2 1, numAt f.data 3 2⟩
      (o.state ≠ .assigning → f.tag = 1 → o.cap0 = none →
        exec .capability s = .next (u.setOven n { o with cap1 := some (model, fw) })) ∧
      (∀ p, o.state = .profiling → f.tag = 1 → o.cap0 = some p →
        exec .capability s = .next (raise .commissionResult n (le 1 0) (u.setOven n { o with
          state := .awaitingSetup, comm := none, cap0 := none, cap1 := none, profile := some p, model := model
          firmware := some fw }))) ∧
      (∀ p, o.state = .awaitingSetup ∨ o.state = .testing → f.tag = 1 → o.cap0 = some p →
        exec .capability s = .next (u.setOven n { o with
          cap0 := none, cap1 := none, profile := some p, model := model, firmware := some fw })) ∧
      ∀ p, o.state = .inService ∨ o.state = .retiring → f.tag = 1 → o.cap0 = some p →
        let w := u.setOven n { o with
          cap0 := none, cap1 := none, profile := some p, model := model, firmware := some fw
          refreshPending := false, gathering := none }
        (s.loadedOf n = [] → s.NoOffers → (∀ x ∈ s.recipes, x.state ≠ .active) → exec .capability s = .next w) ∧
        ∀ old e r figures, o.state = .inService → o.profile = some old → old.steam = true → p.steam = false →
          s.loadedOf n = [e] → s.recipe e.number e.version = some r → r.figures = some figures → figures.needsSteam = true →
          e.state = .loaded ∨ e.state = .stale ∨ e.state = .unloading → s.Settled → s.NoOffers →
          (∀ x ∈ s.recipes, x.state = .active → x = r) →
          exec .capability s = .next (dropRef e.number e.version
            ((deliver (ovenFrame .distribution n (.discard e.number e.version)) w).setLoaded n []))) ∧
    (s.Hears .capability f rest → f.tag = 1 → o.state = .inService → ∀ old p, o.profile = some old → o.cap0 = some p →
      let w := u.setOven n { o with
        cap0 := none, cap1 := none, profile := some p, refreshPending := false, gathering := none, model := numAt f.data 0 1
        firmware := some ⟨numAt f.data 1 1, numAt f.data 2 1, numAt f.data 3 2⟩ }
      let differs := p.steam ≠ old.steam ∨ p.probe ≠ old.probe ∨ p.maxTemp ≠ old.maxTemp ∨
        min p.capacity 64 ≠ min old.capacity 64
      exec .capability s = .next (if differs then capabilityChanged n old p w else w)) ∧
    (∀ (old p : Profile) (e : Entry) (r : Recipe) (figures : Figures), isSlot n → s.power = .running →
      (s.oven n).state = .inService → (s.oven n).profile = some p → p = { old with maxTemp := p.maxTemp } →
      p.maxTemp ≠ old.maxTemp → 1 ≤ p.capacity → s.loadedOf n = [e] → s.recipe e.number e.version = some r →
      r.figures = some figures → e.state = .loaded ∨ e.state = .failed →
      (∀ x ∈ s.recipes, x.state = .active → x = r) → wants (s.oven n) r = true →
      (∀ k, 1 ≤ k → k ≤ 4 → (s.distSlot k).isSome = true) →
      capabilityChanged n old p s = s.setLoaded n [
        if (min old.maxTemp p.maxTemp : Int) < figures.highest + (s.oven n).cavity then { e with state := .pending, retries := 0 }
        else if e.state = .loaded then { e with deferred := false } else e]) ∧
    (∀ (old p : Profile), p.steam = old.steam → p.probe = old.probe → p.maxTemp = old.maxTemp →
      capabilityChanged n old p s = slotChoice ((reductionOrder ((recomputeOne n s).loadedOf n)).foldl (reduceEntry n)
        (recomputeOne n s))) ∧
    (isSlot n → s.Settled → LoadedOk (s.loadedOf n) →
      let spared := fun e : Entry => ∃ p ∈ s.permit n, p.recipe = e.number ∧ p.version = e.version
      let rank := fun e : Entry => (match e.state with
        | .offered => 0 | .sending => 0 | .loaded => 1 | .stale => 2 | .unloading => 3 | _ => 4 : Nat)
      let discard := fun (e : Entry) (t : State) => deliver (ovenFrame .distribution n (.discard e.number e.version)) t
      let reduced := fun (t : State) (e : Entry) =>
        if rank e = 0 then discard e ((t.freed n).setLoaded n ((t.loadedOf n).map fun x =>
          if x = e then { x with state := .pending, retries := 0, deadline := none } else x))
        else if rank e = 1 then discard e (t.setLoaded n ((t.loadedOf n).map fun x =>
          if x = e then { x with state := .pending, retries := 0 } else x))
        else discard e (dropRef e.number e.version (t.setLoaded n (((t.loadedOf n).filter fun x =>
          decide (¬ (x.number = e.number ∧ x.version = e.version))).map fun x => { x with noRoom := false })))
      ∃ l : List Entry, (∀ e, e ∈ l ↔ e ∈ s.loadedOf n ∧ rank e < 4 ∧ ¬ spared e) ∧
        l.Pairwise (fun a b => rank a < rank b ∨ (rank a = rank b ∧ (b.number < a.number ∨
          (b.number = a.number ∧ b.version < a.version)))) ∧
        (reductionOrder (s.loadedOf n)).foldl (reduceEntry n) s =
          (l.take (((s.loadedOf n).countP fun e => decide (rank e < 4)) - (match (s.oven n).profile with
            | some p => min p.capacity 64
            | none => 0))).foldl reduced s)

/-- R31, R32, R128, R69, R70, R160: TEST_REPORT: a pass takes a TESTING oven into service: first where no recipe is wanted and
no campaign runs; then with any recipes, the loaded set filled with the wanted versions, and the campaign entries made: one in
the RUNNING campaign of its model class, WAITING or SKIPPED, in the place of one kept for the slot, with the finish check
before the channel choice (A64, the model's choice), none where no such campaign runs. A failure takes it back to
AWAITING_SETUP with part fault 0xFF01 routed; in any other state the report is ignored. -/
def Obligations.TestReportDecidesService : Prop :=
  (∀ (s : State) (f : InFrame) (rest : List InFrame), s.Hears .testReport f rest →
    let n := f.source
    let u := s.afterHearing f rest
    let o := u.oven n
    (o.state ≠ .testing → exec .testReport s = .next u) ∧
    (o.state = .testing → numAt f.data 0 1 ≠ 0 → exec .testReport s = .next (raise .commissionResult n (le 1 2)
      (routeFault n 0xFF01 .part (u.setOven n { o with comm := none, state := .awaitingSetup })))) ∧
    (o.state = .testing → numAt f.data 0 1 = 0 → s.Settled → s.NoCampaigns → s.NoOffers → s.loadedOf n = [] →
      (∀ r ∈ s.recipes, r.state ≠ .active) →
      let h0 := rearmed s
        { soil := 0, settings := o.setup.getD { advise := 24000, lock := 40000, interval := 1440 }, lastFull := s.clock
          deadline := .passed, advance := .passed, state := .ok, residue := false, clean := none, order := none
          completed := 0, aborted := 0 }
      let h := { h0 with state := h0.judged }
      exec .testReport s = .next (raise .commissionResult n (le 1 1)
        (deliver (ovenFrame .registry n (.lockState o.locks)) (deliver (hygieneFrame s n h)
          (u.setOven n { o with comm := none, state := .inService, setup := none, hygiene := some h }))))) ∧
    (o.state = .testing → numAt f.data 0 1 = 0 → s.Settled → s.loadedOf n = [] →
      (s.recipes.map fun r => (r.number, r.version)).Nodup →
      let settings := o.setup.getD { advise := 24000, lock := 40000, interval := 1440 }
      let h : Hygiene := Hygiene.restated
        { soil := 0, settings := settings, lastFull := s.clock, deadline := pointAt s (min 4294967295 (s.clock + settings.interval * 60))
          advance := pointAt s (min 4294967295 (s.clock + settings.interval * 60) - 7200), state := .ok, residue := false
          clean := none, order := none, completed := 0, aborted := 0 }
      exec .testReport s = .next (entriesForOven n (slotChoice (State.built (raise .commissionResult n (le 1 1)
        (deliver (ovenFrame .registry n (.lockState o.locks)) (deliver (hygieneFrame s n h)
          (u.setOven n { o with comm := none, state := .inService, setup := none, hygiene := some h })))) n))))) ∧
  ∀ (s : State) (n : Nat),
    ((∀ c m, s.campaign c = some m → m.state = .running → m.model ≠ (s.oven n).model) → entriesForOven n s = s) ∧
    ∀ c m, 1 ≤ c → c ≤ 4 → s.campaign c = some m → m.state = .running → m.model = (s.oven n).model →
      (m.entries.map CEntry.oven).Pairwise (· < ·) →
      (∀ c' m', s.campaign c' = some m' → m'.state = .running → m'.model = (s.oven n).model → c' = c) →
      let e : CEntry := { oven := n, serial := (s.oven n).serial.getD 0
                          state := if (s.oven n).firmware ≠ some m.toVersion ∧
                              (m.fromVersions = [] ∨ ∃ v ∈ m.fromVersions, (s.oven n).firmware = some v) then
                            .waiting else .skipped }
      entriesForOven n s = channelChoice (finishCheck c (s.setCampaign c (some { m with
        entries := m.entries.filter (fun x => decide (x.oven < n)) ++ e :: m.entries.filter fun x => decide (n < x.oven) })))

/-- R37, R38, R39, R125: REJOIN: frame 0 is held for its source; frame 1 without a match is ignored; a completed pair of a
barred serial is answered BARRED; of an oven in service, with nothing loaded, open, in progress or to be cleaned, the record's
firmware and refresh are set, ASSIGN placed when it believes in another slot, HYGIENE_STATE and LOCK_STATE told. The table of
R37 for DISCOVERED, ASSIGNING, PROFILING, AWAITING_SETUP and TESTING. A RETIRING oven's permit is closed as a lapse by rejoin,
and the oven leaves service. R39: an unknown serial that is not barred makes a DISCOVERED record in RESTORING, in the believed
slot where that is VACANT, and is a CLAIM with model class 0 in OPEN; with no VACANT slot it is answered SITE_FULL. Of any oven
in IN_SERVICE or RETIRING: the steps of R38 in turn, and what each does: the open permit closed (R103), the clean in progress
abandoned (R123, R125), a transfer of an image reopened (R170) or an apply settled (R175, R178), the loaded set told again or
emptied (R82), a STAGED entry kept or returned (R176). These are the model's choices: the mark of the ASSIGN (A24), the order
of an apply's settlement (A28), transfers reopened before an apply is judged (A45), the CANCELLED notice without counts (A37),
UNLOADs in loaded-set order (A60), and the sends that an entry of an emptied store keeps (A70). -/
def Obligations.RejoinTellsTheOven : Prop :=
  (∀ (s : State) (f : InFrame) (rest : List InFrame), s.Live → s.Settled → s.inbound = f :: rest →
    acceptedKind f = some .rejoin →
    let u : State := { s with inbound := rest }
    let held : Rejoin0 :=
      { serial := numAt f.data 0 6, believed := numAt f.data 6 1, storeEmpty := numAt f.data 7 1 % 2 = 1
        imageStaged := numAt f.data 7 1 / 2 % 2 = 1 }
    (f.tag = 0 → ∃ l, exec .rejoin s = .next { u with rejoinHeld := l } ∧
      ∀ x, x ∈ l ↔ x = (f.source, held) ∨ (x ∈ s.rejoinHeld ∧ x.1 ≠ f.source)) ∧
    (2 ≤ f.tag → exec .rejoin s = .next u) ∧
    (f.tag = 1 → s.heldRejoin f.source = none → exec .rejoin s = .next u) ∧
    ∀ r, f.tag = 1 → s.heldRejoin f.source = some r →
      let v : State := { u with rejoinHeld := s.rejoinHeld.filter fun x => decide (x.1 ≠ f.source) }
      (numAt f.data 0 4 ≠ r.serial % 4294967296 → exec .rejoin s = .next u) ∧
      (numAt f.data 0 4 = r.serial % 4294967296 → s.slotOfSerial r.serial = none → r.serial ∈ s.barred →
        exec .rejoin s = .next (deliver (barredFrame v r.serial false) v)) ∧
      (∀ n h, numAt f.data 0 4 = r.serial % 4294967296 → s.slotOfSerial r.serial = some n →
        (s.oven n).state = .inService → (s.oven n).present = true → (s.oven n).hygiene = some h → h.clean = none →
        s.permit n = none → s.NoCampaigns → s.NoOffers → s.loadedOf n = [] → (∀ x ∈ s.recipes, x.state ≠ .active) →
        let told := raise .ovenPresence n (le 1 2 ++ le 4 s.clock) v
        let assigned := if r.believed = n then told else deliver (assignFrame s r.serial n) told
        exec .rejoin s = .next (State.setOven (deliver (ovenFrame .registry n (.lockState (s.oven n).locks))
            (deliver (hygieneFrame s n h) assigned)) n { s.oven n with
          lastHeard := s.clock, silence := some (min 4294967295 (s.clock + 10)), cap0 := none, cap1 := none
          firmware := some ⟨numAt f.data 4 1, numAt f.data 5 1, numAt f.data 6 2⟩
          refreshPending := true, gathering := some (min 4294967295 (s.clock + 30)) })) ∧
      (numAt f.data 0 4 = r.serial % 4294967296 → s.slotOfSerial r.serial = none → r.serial ∉ s.barred →
        let hint := if 1 ≤ r.believed ∧ r.believed ≤ 32 then some r.believed else none
        let made := fun (n : Nat) (x : Option Nat) => raise .ovenDiscovered n (le 6 r.serial ++ le 1 0 ++ le 1 (x.getD 0))
          (v.setOven n { state := .discovered, serial := some r.serial, model := 0, present := true, lastHeard := s.clock
                         hint := x, comm := some (.hold, min 4294967295 (s.clock + 600)) })
        let full := deliver (barredFrame v r.serial true) v
        (s.siteOpen = false → isSlot r.believed → (s.oven r.believed).state = .vacant →
          exec .rejoin s = .next (made r.believed hint)) ∧
        (s.siteOpen = false → ¬ (isSlot r.believed ∧ (s.oven r.believed).state = .vacant) →
          (∀ n, s.lowestVacant = some n → exec .rejoin s = .next (made n hint)) ∧
          (s.lowestVacant = none → exec .rejoin s = .next full)) ∧
        (s.siteOpen = true →
          (∀ n, s.lowestVacant = some n → exec .rejoin s = .next (made n none)) ∧
          (s.lowestVacant = none → exec .rejoin s = .next full))) ∧
      ∀ n, numAt f.data 0 4 = r.serial % 4294967296 → s.slotOfSerial r.serial = some n → (s.oven n).present = true →
        let o := s.oven n
        let firmware : Firmware := ⟨numAt f.data 4 1, numAt f.data 5 1, numAt f.data 6 2⟩
        let assigned := if r.believed = n then v else deliver (assignFrame s r.serial n) v
        (o.state = .discovered → exec .rejoin s = .next (v.setOven n { o with
          lastHeard := s.clock, comm := some (.hold, min 4294967295 (s.clock + 600))
          hint := if 1 ≤ r.believed ∧ r.believed ≤ 32 then some r.believed else o.hint })) ∧
        (o.state = .assigning → r.believed = n → exec .rejoin s = .next (v.setOven n { o with
          state := .profiling, tries := 0, lastHeard := s.clock, cap0 := none, cap1 := none
          silence := some (min 4294967295 (s.clock + 10)), comm := some (.profile, min 4294967295 (s.clock + 30)) })) ∧
        (o.state = .assigning → r.believed ≠ n → exec .rejoin s = .next (assigned.setOven n { o with
          lastHeard := s.clock, comm := some (.reply, min 4294967295 (s.clock + 5)) })) ∧
        (o.state = .profiling ∨ o.state = .awaitingSetup ∨ o.state = .testing → exec .rejoin s = .next
          ((if o.state = .testing then deliver (ovenFrame .registry n (.testOrder o.cavity o.humidity)) assigned
            else assigned).setOven n { o with
              lastHeard := s.clock, silence := some (min 4294967295 (s.clock + 10)), firmware := some firmware
              cap0 := none, cap1 := none })) ∧
        ∀ p h recipe figures, o.state = .retiring → s.permit n = some p → s.recipe p.recipe p.version = some recipe →
          recipe.figures = some figures → o.hygiene = some h → h.clean = none → s.NoCampaigns → s.NoTickets n →
          (∀ t ∈ s.tickets, t.permit ≠ some p.number) → s.loadedOf n = [] →
          let h' : Hygiene := { h with soil := min 65535 (h.soil + figures.totalSoil) }
          h'.judged = h.state →
          let told := raise .ovenPresence n (le 1 2 ++ le 4 s.clock) v
          let placed := if r.believed = n then told else deliver (assignFrame s r.serial n) told
          let closed := raise .permitLapsed n (le 2 p.number ++ le 2 p.recipe ++ le 1 p.version ++ le 1 1)
            (dropRef p.recipe p.version (placed.setPermit n none))
          let last := State.clearedOf (State.setOven (raise .commissionResult n (le 1 5)
            (deliver (ovenFrame .registry n (.lockState o.locks)) (deliver (hygieneFrame s n h') closed))) n {}) n
          exec .rejoin s = .next (if r.serial ∈ s.barred then deliver (barredFrame last r.serial false) last else last)) ∧
  (∀ (s : State) (f : InFrame) (rest : List InFrame) (r : Rejoin0) (n : Nat), s.Live → s.Settled → s.inbound = f :: rest →
    acceptedKind f = some .rejoin → f.tag = 1 → s.heldRejoin f.source = some r →
    numAt f.data 0 4 = r.serial % 4294967296 → s.slotOfSerial r.serial = some n →
    (s.oven n).state = .inService ∨ (s.oven n).state = .retiring → (s.oven n).present = true →
    let o := { s.oven n with lastHeard := s.clock, silence := some (min 4294967295 (s.clock + 10)) }
    let told := raise .ovenPresence n (le 1 2 ++ le 4 s.clock) (State.setOven { s with
      inbound := rest, rejoinHeld := s.rejoinHeld.filter fun x => decide (x.1 ≠ f.source) } n o)
    let recorded := (if r.believed = n then told else deliver (assignFrame s r.serial n) told).setOven n { o with
      cap0 := none, cap1 := none, refreshPending := true, gathering := some (min 4294967295 (s.clock + 30))
      firmware := some ⟨numAt f.data 4 1, numAt f.data 5 1, numAt f.data 6 2⟩ }
    let last := stagedRejoin n r.imageStaged (distributionRejoin n r.storeEmpty (relayRejoin n
      (hygieneRejoin n (closeByRejoin n recorded))))
    exec .rejoin s = .next (leaveCheck n (deliver (ovenFrame .registry n (.lockState (last.oven n).locks)) last))) ∧
  ∀ (s : State) (n : Nat), s.Settled →
    (s.permit n = none → closeByRejoin n s = s) ∧
    (∀ p recipe figures h, isSlot n → s.permit n = some p → s.recipe p.recipe p.version = some recipe →
      recipe.figures = some figures → (s.oven n).hygiene = some h → (s.oven n).state = .inService → s.NoCampaigns →
      let h' : Hygiene := { h with soil := min 65535 (h.soil + figures.totalSoil) }
      let unlinked := s.tickets.map fun t => if t.permit = some p.number then { t with permit := none } else t
      h'.judged = h.state →
      let closed := dropRef p.recipe p.version
        (State.setPermit { s.withHygiene n h' with tickets := unlinked } n none)
      let lapsed := raise .permitLapsed n (le 2 p.number ++ le 2 p.recipe ++ le 1 p.version ++ le 1 1)
      ((∀ e ∈ s.loadedOf n, e.deferred = false) → closeByRejoin n s = lapsed closed) ∧
      ∀ e, s.Holds n e → e.deferred = true → e.state = .loaded ∨ e.state = .stale →
        (∀ x ∈ s.loadedOf n, x.deferred = true → x = e) →
        closeByRejoin n s = lapsed (State.withEntry
          (deliver (ovenFrame .distribution n (.unload e.number e.version)) closed) n e { e with
            state := .unloading, deferred := false, sends := 1, deadline := some (.unload, min 4294967295 (s.clock + 5)) })) ∧
    (∀ h, isSlot n → (s.oven n).hygiene = some h → (s.oven n).state = .inService ∨ (s.oven n).state = .retiring →
      (h.clean = none → hygieneRejoin n s = deliver (hygieneFrame s n h) s) ∧
      ∀ c, h.clean = some c → h.state = .cleaning → s.NoCampaigns →
        let h' : Hygiene := { h with
          residue := h.residue || decide (c.programme ≠ .rinse ∧ (c.phase = some .detergent ∨ c.phase = some .rinse))
          aborted := min 65535 (h.aborted + 1), clean := none }
        let tell := deliver (hygieneFrame s n h'.restated)
        hygieneRejoin n s = tell (raise .hygiene n (hygieneDetail 5 h'.restated (c.programme.code + 1)
          ((c.phase.map fun q => q.code + 1).getD 0)) (tell (s.withHygiene n h'.restated)))) ∧
    ((∀ c e, s.centry c n = some e → e.state ≠ .transferring ∧ e.state ≠ .suspended ∧ e.state ≠ .applying) →
      relayRejoin n s = s) ∧
    (∀ c m e, 1 ≤ c → c ≤ 4 → s.campaign c = some m → s.centry c n = some e → (∀ c' ≠ c, s.centry c' n = none) →
      (∀ ch b, e.state = .transferring ∨ e.state = .suspended → e.channel = some ch → 1 ≤ ch → ch ≤ 2 →
        s.channel ch = some b → b.campaign = c → b.oven = n →
        relayRejoin n s = raise .relay ch (le 1 0 ++ le 1 c ++ le 1 n ++ le 3 b.taken)
          (beginFrames ch n b.acked m (((withdrawImage ch s).setChannel ch (some { b with
            sent := b.acked, check := none, stream := .opening, timeout := some (min 4294967295 (s.clock + 2)) })).modCEntry c n
              fun x => { x with state := .transferring, deadline := none, timeouts := 0 }))) ∧
      (e.state = .applying → (s.oven n).firmware ≠ some m.toVersion →
        relayRejoin n s = deriveLock n (failedAttempt 5 c n s)) ∧
      (e.state = .applying → (s.oven n).firmware = some m.toVersion →
        let done := s.modCEntry c n fun x => { x with state := .done, deadline := none }
        let noticed := raise .update n (le 1 3 ++ le 1 c ++ le 1 0 ++ le 1 e.attempts)
        (m.state ≠ .cancelling → relayRejoin n s = channelChoice (finishCheck c (deriveLock n (noticed done)))) ∧
        (m.state = .cancelling →
          let left := (noticed (deriveLock n done)).removeCEntry c n
          relayRejoin n s = channelChoice (if m.entries.filter (fun x => decide (x.oven ≠ n)) = [] then
            raise .campaign c (le 1 1) (left.setCampaign c none) else left))) ∧
      (e.state = .staged → stagedRejoin n true s = gate c n s ∧
        stagedRejoin n false s = channelChoice (s.modCEntry c n fun x => { x with state := .waiting })) ∧
      (e.state ≠ .staged → ∀ imageStaged, stagedRejoin n imageStaged s = s)) ∧
    ∀ storeEmpty, isSlot n → LoadedOk (s.loadedOf n) →
      let moving := (s.loadedOf n).any fun e => decide (e.state = .offered ∨ e.state = .sending)
      let again := fun e : Entry =>
        if e.state = .offered ∨ e.state = .sending then { e with state := .pending, deadline := none, noRoom := false }
        else if e.state = .unloading then
          { e with noRoom := false, sends := 1, deadline := some (.unload, min 4294967295 (s.clock + 5)) }
        else { e with noRoom := false }
      let told := ((s.loadedOf n).filter fun e => e.state = .unloading).foldl
        (fun t e => deliver (ovenFrame .distribution n (.unload e.number e.version)) t)
        (State.setLoaded (if moving then s.freed n else s) n ((s.loadedOf n).map again))
      ((s.oven n).state = .retiring → distributionRejoin n storeEmpty s = s) ∧
      ((s.oven n).state = .inService → distributionRejoin n false s = slotChoice told) ∧
      ((s.oven n).state = .inService → distributionRejoin n true s = slotChoice (recompute n (told.setLoaded n
        (((s.loadedOf n).map again).map fun e => { e with
          state := .pending, retries := 0, clamped := false, deferred := false, deadline := none, crc := none })))) ∧
      ((s.oven n).state = .inService → s.NoWants n → distributionRejoin n true s = slotChoice
        ((s.loadedOf n).foldl (fun t e => dropRef e.number e.version t) (told.setLoaded n [])))

/-- R23, R26, R29, R32: the commissioning deadlines, each due: the hold ends in a VACANT slot, the third ASSIGN and the
profile deadline end in DISCOVERED, an earlier ASSIGN is placed again, the test deadline ends in AWAITING_SETUP with the fault
routed. The hint byte of an expired hold's notice with EXPIRED added (A25), and the record returning to DISCOVERED as PRESENT
with no notice of its own (A26), are the model's choices. -/
def Obligations.CommissioningDeadlines : Prop :=
  ∀ (s : State) (n t : Nat) (serial : Nat), s.Live → s.Settled → isSlot n → t ≤ s.clock →
    (s.oven n).serial = some serial →
    let o := s.oven n
    let back : State := raise .commissionResult n (le 1 4) (s.setOven n { o with
      state := .discovered, comm := some (.hold, min 4294967295 (s.clock + 600)), tries := 0, cap0 := none, cap1 := none
      silence := none, present := true })
    (o.comm = some (.hold, t) → s.NoTickets n → exec (.holdDeadlineExpiry n) s = .next
      (raise .ovenDiscovered n (le 6 serial ++ le 1 o.model ++ le 1 (o.hint.getD 0 + 128)) ((s.setOven n {}).clearedOf n))) ∧
    (o.comm = some (.reply, t) → o.tries < 3 → exec (.assignReplyDeadline n) s = .next
      ((deliver (assignFrame s serial n) s).setOven n { o with
        comm := some (.reply, min 4294967295 (s.clock + 5)), tries := o.tries + 1 })) ∧
    (o.comm = some (.reply, t) → 3 ≤ o.tries → exec (.assignReplyDeadline n) s = .next back) ∧
    (o.comm = some (.profile, t) → exec (.profileDeadline n) s = .next back) ∧
    (o.comm = some (.test, t) → exec (.testDeadline n) s = .next (raise .commissionResult n (le 1 3)
      (routeFault n 0xFF01 .part (s.setOven n { o with comm := none, state := .awaitingSetup }))))

/-- R36, R40: the silence deadline of an oven with no load and no campaign makes it SILENT; the gathering deadline drops what
was gathered; and a deadline that is not armed or not yet due changes nothing (A2, the model's choice). Of any oven: what the
Distribution Engine (R82: the recipe transfer ended, its entry PENDING) and the Update Relay (R170: the image transfer
SUSPENDED, the channel HELD) then do. A STATUS of a SILENT oven makes it PRESENT again, with the notice; then the slot choice
is made (R82), a SUSPENDED image transfer reopened from acked (R170), the apply gating of a STAGED entry examined (R173), and
the channel choice made (R162). -/
def Obligations.WatchDeadlines : Prop :=
  (∀ (s : State) (n : Nat), s.Live → isSlot n →
    let o := s.oven n
    (∀ t, o.silence = some t → t ≤ s.clock → s.NoCampaigns → s.NoOffers → s.transferEntry n = none →
      exec (.silenceDeadline n) s = .next (raise .ovenPresence n (le 1 1 ++ le 4 o.lastHeard)
        (s.setOven n { o with present := false, silence := none }))) ∧
    (∀ t, o.gathering = some t → t ≤ s.clock → exec (.gatheringDeadline n) s = .next (s.setOven n { o with
      cap0 := none, cap1 := none, refreshPending := false, gathering := none })) ∧
    (s.due o.silence = false → exec (.silenceDeadline n) s = .next s) ∧
    (s.due o.gathering = false → exec (.gatheringDeadline n) s = .next s) ∧
    ((∀ k t, o.comm = some (k, t) → s.clock < t) → exec (.holdDeadlineExpiry n) s = .next s ∧
      exec (.assignReplyDeadline n) s = .next s ∧ exec (.profileDeadline n) s = .next s ∧ exec (.testDeadline n) s = .next s) ∧
    (∀ t, o.silence = some t → t ≤ s.clock → exec (.silenceDeadline n) s = .next (relaySilent n (distributionSilent n
      (raise .ovenPresence n (le 1 1 ++ le 4 o.lastHeard) (s.setOven n { o with present := false, silence := none }))))) ∧
    (LoadedOk (s.loadedOf n) → distributionSilent n s = slotChoice
      (if (s.loadedOf n).any fun e => decide (e.state = .offered ∨ e.state = .sending) then
        (s.freed n).setLoaded n ((s.loadedOf n).map fun e =>
          if e.state = .offered ∨ e.state = .sending then { e with state := .pending, deadline := none } else e)
      else s)) ∧
    ((∀ c e, s.centry c n = some e → e.state ≠ .transferring) → relaySilent n s = s) ∧
    ∀ c e ch b, 1 ≤ c → c ≤ 4 → s.centry c n = some e → (∀ c' ≠ c, s.centry c' n = none) → e.state = .transferring →
      e.channel = some ch → 1 ≤ ch → ch ≤ 2 → s.channel ch = some b → b.campaign = c → b.oven = n →
      relaySilent n s = raise .update n (le 1 1 ++ le 1 c ++ le 1 0 ++ le 1 e.attempts)
        (((withdrawImage ch s).setChannel ch (some { b with
          sent := b.acked, timeout := none, check := none, stream := .held })).modCEntry c n fun x => { x with
            state := .suspended, deadline := some (min 4294967295 (s.clock + 600)) })) ∧
  (∀ (s : State) (f : InFrame) (rest : List InFrame), s.Live → s.inbound = f :: rest → acceptedKind f = some .status →
    isSlot f.source → (s.oven f.source).state.accepted = true → (s.oven f.source).present = false →
    let n := f.source
    let u := s.afterHearing f rest
    let back := raise .ovenPresence n (le 1 0 ++ le 4 s.clock) (u.setOven n { u.oven n with present := true })
    let reported := fun t : State => t.setOven n { t.oven n with
      lastStatus := some ⟨numAt f.data 0 1, numAt f.data 1 1, numAt f.data 2 2⟩ }
    exec .status s = .next (reported (relayPresent n (slotChoice back))) ∧
    (s.NoOffers → s.NoCampaigns → s.Settled → exec .status s = .next (reported back))) ∧
  ∀ (s : State) (c n : Nat) (m : Campaign) (e : CEntry), s.Settled → 1 ≤ c → c ≤ 4 → s.campaign c = some m →
    s.centry c n = some e → (∀ c' ≠ c, s.centry c' n = none) →
    (e.state = .staged → relayPresent n s = channelChoice (gate c n s)) ∧
    (e.state ≠ .staged → e.state ≠ .suspended → relayPresent n s = channelChoice s) ∧
    ∀ ch b, e.state = .suspended → e.channel = some ch → 1 ≤ ch → ch ≤ 2 → s.channel ch = some b → b.campaign = c →
      b.oven = n → relayPresent n s = channelChoice (raise .relay ch (le 1 0 ++ le 1 c ++ le 1 n ++ le 3 b.taken)
        (beginFrames ch n b.acked m (((withdrawImage ch s).setChannel ch (some { b with
          sent := b.acked, check := none, stream := .opening, timeout := some (min 4294967295 (s.clock + 2)) })).modCEntry c n
            fun x => { x with state := .transferring, deadline := none, timeouts := 0 })))

/-! ### The Recipe Library (chapter 03) -/

/-- R50, R52 to R55: RECIPE_DRAFT, RECIPE_STEP, RECIPE_TRIM and RECIPE_DISCARD_DRAFT: their refusals in order, and what each
leaves of the draft. R53 numbers no order between a number without a DRAFT and a step that fails R50: that RECIPE_STEP answers
WRONG_STATE then is the model's choice (A69). -/
def Obligations.DraftingWritesTheDraft : Prop :=
  (∀ (s : State) (number : Nat) (name : List Byte) (fat : Nat) (version : Option Nat),
    s.Serves (.recipeDraft number name fat version) →
    let chosen := version.getD (s.highestVersion number + 1)
    let inRange := 1 ≤ number ∧ number ≤ 4095 ∧ 1 ≤ name.length ∧ name.length ≤ 24 ∧
      (∀ c ∈ name, 0x20 ≤ c.toNat ∧ c.toNat ≤ 0x7E) ∧ fat ≤ 3 ∧ version ≠ some 0
    let draft : Recipe :=
      { number := number, version := chosen, state := .draft, superseded := false, name := name, fat := fat
        groups := (match s.recipeIn number .active with | some r => r.groups | none => 0)
        steps := [], figures := none, refs := 0 }
    exec (.recipeDraft number name fat version) s = .next
      (if ¬ inRange then s.reply .range []
      else if ∃ r ∈ s.recipes, r.number = number ∧ r.state = .draft then s.reply .wrongState []
      else if 255 < chosen ∨ chosen ≤ s.highestVersion number then s.reply .range []
      else if 256 ≤ s.recipes.length then s.reply .tableFull []
      else
        let placed := insertBefore (fun x => number * 256 + chosen < x.number * 256 + x.version) draft s.recipes
        State.reply { s with recipes := placed } .ok (le 1 chosen))) ∧
  ∀ (s : State) (number k : Nat) (t : RawStep), 
    (number < 1 ∨ 4095 < number →
      (s.Serves (.recipeStep number k t) → exec (.recipeStep number k t) s = .next (s.reply .range [])) ∧
      (s.Serves (.recipeTrim number k) → exec (.recipeTrim number k) s = .next (s.reply .range [])) ∧
      (s.Serves (.recipeDiscardDraft number) → exec (.recipeDiscardDraft number) s = .next (s.reply .range []))) ∧
    (1 ≤ number → number ≤ 4095 → s.recipeIn number .draft = none →
      (s.Serves (.recipeStep number k t) → exec (.recipeStep number k t) s = .next (s.reply .wrongState [])) ∧
      (s.Serves (.recipeTrim number k) → exec (.recipeTrim number k) s = .next (s.reply .wrongState [])) ∧
      (s.Serves (.recipeDiscardDraft number) → exec (.recipeDiscardDraft number) s = .next (s.reply .wrongState []))) ∧
    ∀ r, 1 ≤ number → number ≤ 4095 → s.recipeIn number .draft = some r →
      let mode := (t.mode = 0 ∧ 30 ≤ t.setpoint ∧ t.setpoint ≤ 300 ∧ t.humidity = 0) ∨
        (t.mode = 1 ∧ 30 ≤ t.setpoint ∧ t.setpoint ≤ 130 ∧ t.humidity = 100) ∨
        (t.mode = 2 ∧ 30 ≤ t.setpoint ∧ t.setpoint ≤ 300 ∧ 1 ≤ t.humidity ∧ t.humidity ≤ 99)
      let ending := (t.endKind = 0 ∧ 1 ≤ t.seconds ∧ t.seconds ≤ 14400) ∨
        (t.endKind = 1 ∧ 40 ≤ t.target ∧ t.target ≤ 99 ∧ 60 ≤ t.seconds ∧ t.seconds ≤ 14400)
      let step : Step :=
        { mode := if t.mode = 0 then .dry else if t.mode = 1 then .steam else .combi
          setpoint := t.setpoint, humidity := t.humidity, fan := t.fan, prompt := t.prompt
          ending := if t.endKind = 0 then .time t.seconds else .core t.target t.seconds }
      let put := fun l : List Step =>
        (s.modRecipe number r.version fun x => { x with steps := l }).reply .ok (le 1 l.length)
      (s.Serves (.recipeStep number k t) → exec (.recipeStep number k t) s = .next
        (if mode ∧ ending ∧ 1 ≤ t.fan ∧ t.fan ≤ 5 then
          (if 1 ≤ k ∧ k ≤ r.steps.length then put (r.steps.set (k - 1) step)
          else if k = r.steps.length + 1 ∧ r.steps.length < 16 then put (r.steps ++ [step])
          else s.reply .range [])
        else s.reply .range [])) ∧
      (s.Serves (.recipeTrim number k) → exec (.recipeTrim number k) s = .next
        (if k ≤ r.steps.length then put (r.steps.take k) else s.reply .range [])) ∧
      (s.Serves (.recipeDiscardDraft number) → exec (.recipeDiscardDraft number) s = .next (State.reply { s with
        recipes := s.recipes.filter fun x => !(decide (x.number = number) && decide (x.version = r.version)) } .ok []))

/-- R56 to R61, R63: RECIPE_PUBLISH, RECIPE_WITHDRAW and RECIPE_GROUPS while no oven is in service and no loaded set holds an
entry: the records' new states, the figures, the freeing of a version no one refers to, and the refusals. R69 to R72: with one
oven in service, no other recipe ACTIVE and no other loaded set: a publication the oven wants is appended PENDING and counted;
one that supersedes makes the LOADED entry of the old version STALE, or sends it to UNLOADING where the new one is not wanted
here; a withdrawal, and a group set that leaves the oven out, take the entry away by its state. The slot choice follows (R77),
and finds nothing where the oven is SILENT or every slot is bound. -/
def Obligations.PublicationMovesTheRecords : Prop :=
  (∀ (s : State) (number : Nat), (∀ n, (s.oven n).state ≠ .inService) → (∀ n, s.loadedOf n = []) → 1 ≤ number → number ≤ 4095 →
    (s.Serves (.recipePublish number) →
      (s.recipeIn number .draft = none → exec (.recipePublish number) s = .next (s.reply .wrongState [])) ∧
      ∀ d, s.recipeIn number .draft = some d →
        let figures := figuresOf d.fat d.steps
        ((s.recipeIn number .withdrawing).isSome = true →
          exec (.recipePublish number) s = .next (s.reply .inUse [])) ∧
        (s.recipeIn number .withdrawing = none → d.steps = [] →
          exec (.recipePublish number) s = .next (s.reply .range [])) ∧
        (s.recipeIn number .withdrawing = none → d.steps ≠ [] → s.recipeIn number .active = none →
          exec (.recipePublish number) s = .next ((s.modRecipe number d.version fun x =>
            { x with state := .active, figures := some figures }).reply .ok
              (le 1 d.version ++ le 1 0 ++ figuresBytes figures))) ∧
        ∀ a, s.recipeIn number .withdrawing = none → d.steps ≠ [] → s.recipeIn number .active = some a →
          exec (.recipePublish number) s = .next ((freeCheck number a.version ((s.modRecipe number a.version fun x =>
            { x with state := .withdrawing, superseded := true }).modRecipe number d.version fun x =>
            { x with state := .active, figures := some figures })).reply .ok
              (le 1 d.version ++ le 1 a.version ++ figuresBytes figures))) ∧
    (s.Serves (.recipeWithdraw number) →
      (s.recipeIn number .active = none → exec (.recipeWithdraw number) s = .next (s.reply .wrongState [])) ∧
      ∀ a, s.recipeIn number .active = some a →
        ((s.recipeIn number .withdrawing).isSome = true →
          exec (.recipeWithdraw number) s = .next (s.reply .inUse [])) ∧
        (s.recipeIn number .withdrawing = none → exec (.recipeWithdraw number) s = .next
          ((freeCheck number a.version (s.modRecipe number a.version fun x =>
            { x with state := .withdrawing, superseded := false })).reply .ok []))) ∧
    ∀ groups, s.Serves (.recipeGroups number groups) → exec (.recipeGroups number groups) s = .next
      (if s.recipeIn number .active = none ∧ s.recipeIn number .draft = none then s.reply .wrongState []
      else State.reply { s with recipes := s.recipes.map fun r =>
        if r.number = number ∧ r.state ≠ .withdrawing then { r with groups := BitVec.ofNat 8 groups } else r } .ok [])) ∧
  (∀ (s : State) (n : Nat), (s.oven n).present = false ∨ (∀ k, 1 ≤ k → k ≤ 4 → (s.distSlot k).isSome = true) →
    (∀ m, m ≠ n → s.loadedOf m = []) → slotChoice s = s) ∧
  ∀ (s : State) (number n : Nat), 1 ≤ number → number ≤ 4095 → isSlot n → (s.oven n).state = .inService →
    (∀ m, m ≠ n → (s.oven m).state ≠ .inService) → (∀ m, m ≠ n → s.loadedOf m = []) → s.Settled →
    (s.recipes.map fun r => (r.number, r.version)).Nodup →
    let o := s.oven n
    let fits := fun (groups : BitVec 8) (f : Figures) => groups.getLsbD o.group = true ∧
      (f.needsSteam = true → ∃ p ∈ o.profile, p.steam = true) ∧ (f.needsProbe = true → ∃ p ∈ o.profile, p.probe = true)
    (∀ d, s.Serves (.recipePublish number) → s.recipeIn number .draft = some d → d.steps ≠ [] →
      s.recipeIn number .withdrawing = none →
      let figures := figuresOf d.fat d.steps
      let active := fun t : State => t.modRecipe number d.version fun x =>
        { x with state := .active, figures := some figures }
      let counted := fun t : State => t.modRecipe number d.version fun x => { x with refs := x.refs + 1 }
      let fresh : Entry := { number := number, version := d.version }
      ((∀ r ∈ s.recipes, r.state ≠ .active) → s.loadedOf n = [] → fits d.groups figures →
        exec (.recipePublish number) s = .next ((slotChoice ((counted (active s)).setLoaded n [fresh])).reply .ok
          (le 1 d.version ++ le 1 0 ++ figuresBytes figures))) ∧
      ∀ a e, s.recipeIn number .active = some a → (∀ r ∈ s.recipes, r.state = .active → r = a) → a.version < d.version →
        0 < a.refs → s.loadedOf n = [e] → e.number = number → e.version = a.version → e.state = .loaded →
        let superseded := s.modRecipe number a.version fun x => { x with state := .withdrawing, superseded := true }
        (fits d.groups figures → exec (.recipePublish number) s = .next ((slotChoice
          ((counted (active superseded)).setLoaded n [{ e with state := .stale }, fresh])).reply .ok
            (le 1 d.version ++ le 1 a.version ++ figuresBytes figures))) ∧
        (¬ fits d.groups figures → exec (.recipePublish number) s = .next ((slotChoice
          (soleUnloads n { e with state := .stale } (active superseded))).reply .ok
            (le 1 d.version ++ le 1 a.version ++ figuresBytes figures)))) ∧
    ∀ a e, s.recipeIn number .active = some a → (∀ r ∈ s.recipes, r.state = .active → r = a) →
      s.loadedOf n = [e] → e.number = number → e.version = a.version →
      (s.Serves (.recipeWithdraw number) → s.recipeIn number .withdrawing = none → 0 < a.refs →
        exec (.recipeWithdraw number) s = .next ((slotChoice (soleLoses n e (s.modRecipe number a.version fun x =>
          { x with state := .withdrawing, superseded := false }))).reply .ok [])) ∧
      ∀ groups : Nat, s.Serves (.recipeGroups number groups) → a.groups ≠ BitVec.ofNat 8 groups →
        (BitVec.ofNat 8 groups).getLsbD o.group = false →
        exec (.recipeGroups number groups) s = .next ((slotChoice (soleLoses n e { s with recipes := s.recipes.map fun r =>
          if r.number = number ∧ r.state ≠ .withdrawing then { r with groups := BitVec.ofNat 8 groups } else r })).reply .ok [])

/-! ### The Distribution Engine (chapter 04) -/

/-- R77, R78, R86: RECIPE_RESEND returns the FAILED entry to PENDING; where nothing else could be offered, the slot choice
binds the lowest free distribution slot to this oven, and its OFFER is placed with the REPLY deadline armed. With no slot free
it stays PENDING. R77: of all the ovens that qualify the slot choice serves the first after the pointer, wrapping from 32 to 1,
with its oldest entry, in the lowest free slot, and goes on from there; with no slot free or no oven that qualifies it does
nothing. Of refusals that hold together where the rule numbers no order, the first it names is given, by the model's choice
(A69). -/
def Obligations.ResendOffersAgain : Prop :=
  (∀ (s : State) (n number : Nat), s.Serves (.recipeResend n number) →
    (number < 1 ∨ 4095 < number ∨ n < 1 ∨ 32 < n → exec (.recipeResend n number) s = .next (s.reply .range [])) ∧
    (isSlot n → 1 ≤ number → number ≤ 4095 →
      ((s.oven n).state = .vacant → exec (.recipeResend n number) s = .next (s.reply .noRecord [])) ∧
      ((s.oven n).state ≠ .vacant → (s.oven n).state ≠ .inService →
        exec (.recipeResend n number) s = .next (s.reply .wrongState [])) ∧
      ((s.oven n).state = .inService → (∀ x ∈ s.loadedOf n, x.number = number → x.state ≠ .failed) →
        exec (.recipeResend n number) s = .next (s.reply .noRecord [])) ∧
      ∀ e, (s.oven n).state = .inService → s.Holds n e → e.number = number → e.state = .failed →
        (∀ x ∈ s.loadedOf n, x.number = number → x.state = .failed → x = e) →
        ((∀ k, 1 ≤ k → k ≤ 4 → (s.distSlot k).isSome = true) → exec (.recipeResend n number) s = .next
          ((s.withEntry n e { e with state := .pending, retries := 0, noRoom := false }).reply .ok [])) ∧
        ∀ k r, 1 ≤ k → k ≤ 4 → s.distSlot k = none → (∀ j, 1 ≤ j → j < k → (s.distSlot j).isSome = true) →
          s.recipe number e.version = some r → s.NoOffers → s.Settled → s.transferEntry n = none →
          (s.oven n).present = true → (s.oven n).locks.update = false →
          (s.loadedOf n).countP (·.state.counted) < (s.oven n).effectiveCapacity →
          let e' : Entry := { e with state := .pending, retries := 0, noRoom := false }
          exec (.recipeResend n number) s = .next ((offeredAt n k e' r (s.withEntry n e e')).reply .ok []))) ∧
  ∀ s : State, s.power = .running → s.pointer ≤ 32 →
    let qualifies := fun n : Nat => isSlot n ∧ (s.oven n).state = .inService ∧ (s.oven n).present = true ∧
      (s.oven n).locks.update = false ∧ (∀ x ∈ s.loadedOf n, x.state ≠ .offered ∧ x.state ≠ .sending) ∧
      (s.loadedOf n).countP (·.state.counted) < (s.oven n).effectiveCapacity ∧ (s.oldestPending n).isSome = true
    let turn := fun n : Nat => (n + 63 - s.pointer) % 32
    ((∀ k, 1 ≤ k → k ≤ 4 → (s.distSlot k).isSome = true) ∨ (∀ n, ¬ qualifies n) → slotChoice s = s) ∧
    ∀ n k e r, qualifies n → (∀ m, qualifies m → turn n ≤ turn m) → s.oldestPending n = some e →
      1 ≤ k → k ≤ 4 → s.distSlot k = none → (∀ j, 1 ≤ j → j < k → (s.distSlot j).isSome = true) →
      s.recipe e.number e.version = some r → s.Holds n e → s.Settled →
      (∀ m, ∀ x ∈ s.loadedOf m, (s.recipe x.number x.version).isSome = true) →
      slotChoice s = slotChoice (offeredAt n k e r s)

/-- R72, R78, R79, R73: the replies of an oven that names its entry: PULL starts the stream (the transmitter being held), HAVE
and an equal LOAD_DONE load it, and send an older STALE entry toward UNLOADING, DECLINE returns it PENDING, an unequal
LOAD_DONE is a failed try, UNLOAD_DONE removes it; a reply that names no entry in the state it needs is ignored. -/
def Obligations.RepliesMoveTheEntry : Prop :=
  ∀ (s : State) (f : InFrame) (rest : List InFrame),
    let n := f.source
    let u := s.afterHearing f rest
    let named := fun x : Entry => x.number = numAt f.data 0 2 ∧ x.version = numAt f.data 2 1
    ((∀ x ∈ s.loadedOf n, named x → x.state ≠ .offered) →
      (s.Hears .pull f rest → exec .pull s = .next u) ∧ (s.Hears .have_ f rest → exec .have_ s = .next u) ∧
      (s.Hears .decline f rest → exec .decline s = .next u)) ∧
    (s.Hears .loadDone f rest → (∀ x ∈ s.loadedOf n, named x → x.state ≠ .sending) → exec .loadDone s = .next u) ∧
    (s.Hears .unloadDone f rest → (∀ x ∈ s.loadedOf n, named x → x.state ≠ .unloading) → exec .unloadDone s = .next u) ∧
    (∀ e, s.Hears .unloadDone f rest → s.loadedOf n = [e] → named e → e.state = .unloading → s.NoOffers → s.NoWants n →
      exec .unloadDone s = .next (dropRef e.number e.version (u.setLoaded n []))) ∧
    ∀ e k, s.Holds n e → named e → s.boundSlot n = some k →
      (s.Hears .loadDone f rest → e.state = .sending → e.crc ≠ some (numAt f.data 3 2) →
        exec .loadDone s = .next (failedTry n u)) ∧
      (s.NoOffers → (∀ x ∈ s.loadedOf n, x.number = e.number → x.state ≠ .stale) →
        let done := fun e' : Entry => ((u.withoutSegments k).setDistSlot k none).withEntry n e e'
        (s.Hears .have_ f rest → e.state = .offered →
          exec .have_ s = .next (done { e with state := .loaded, deadline := none })) ∧
        (s.Hears .decline f rest → e.state = .offered →
          exec .decline s = .next (done { e with state := .pending, noRoom := true, deadline := none })) ∧
        (s.Hears .loadDone f rest → e.state = .sending → e.crc = some (numAt f.data 3 2) →
          exec .loadDone s = .next (done { e with state := .loaded, retries := 0, deadline := none }))) ∧
      (∀ x, s.NoOffers → s.Settled → x ∈ s.loadedOf n → x.number = e.number → x.version < e.version → x.state = .stale →
        (∀ y ∈ s.loadedOf n, y.number = e.number → y.state = .stale → y = x) →
        let done := fun e' : Entry => ((u.withoutSegments k).setDistSlot k none).withEntry n e e'
        let older := fun t : State =>
          if ∃ p ∈ s.permit n, p.recipe = x.number ∧ p.version = x.version then t.withEntry n x { x with deferred := true }
          else State.withEntry (deliver (ovenFrame .distribution n (.unload x.number x.version)) t) n x { x with
            state := .unloading, deferred := false, sends := 1, deadline := some (.unload, min 4294967295 (s.clock + 5)) }
        (s.Hears .have_ f rest → e.state = .offered →
          exec .have_ s = .next (older (done { e with state := .loaded, deadline := none }))) ∧
        (s.Hears .loadDone f rest → e.state = .sending → e.crc = some (numAt f.data 3 2) →
          exec .loadDone s = .next (older (done { e with state := .loaded, retries := 0, deadline := none })))) ∧
      ∀ r total, s.Hears .pull f rest → e.state = .offered → s.recipe e.number e.version = some r → s.held = true →
        s.distSlot k = some { oven := n, number := e.number, version := e.version, next := 0, total := total } →
        s.segmentsQueued k = 0 → s.bulk.length ≤ 24 →
        exec .pull s = .next (State.setDistSlot (State.withEntry { u with
            bulk := s.bulk ++ (List.range (min 8 total)).map fun i =>
              { payload := transferFrame (s.oven n) r i, producer := .distribution, mark := .distSlot k, dest := n } } n e
            { e with state := .sending, deadline := none })
          k (some { oven := n, number := e.number, version := e.version, next := min 8 total, total := total }))

/-- R78, R79, R80, R73: the REPLY and PROGRESS deadlines, each due, are failed tries; a failed try offers the entry again in its
slot twice and then leaves it FAILED with part fault 0xFF02 and the notice; the UNLOAD deadline places UNLOAD again until three
have been sent, and then removes the entry. -/
def Obligations.DistributionDeadlines : Prop :=
  ∀ (s : State) (n t : Nat) (e : Entry), s.Live → s.Settled → isSlot n → s.Holds n e → t ≤ s.clock →
    (e.state = .offered → e.deadline = some (.reply, t) → exec (.offerReplyDeadline n) s = .next (failedTry n s)) ∧
    (e.state = .sending → e.deadline = some (.progress, t) → exec (.progressDeadline n) s = .next (failedTry n s)) ∧
    (∀ k, e.state.inTransfer = true → s.boundSlot n = some k → 2 ≤ e.retries → failedTry n s =
      slotChoice (raise .recipeEntry n (le 2 e.number ++ le 1 e.version ++ le 1 1) (routeFault n 0xFF02 .part
        (((s.withoutSegments k).setDistSlot k none).withEntry n e { e with state := .failed, deadline := none })))) ∧
    (∀ k r, e.state.inTransfer = true → s.boundSlot n = some k → e.retries < 2 → s.recipe e.number e.version = some r →
      let clamp := r.steps.any (stepClamped (s.oven n))
      let w := s.withoutSegments k
      let noticed := if clamp = true ∧ e.clamped = false then
          raise .recipeEntry n (le 2 e.number ++ le 1 e.version ++ le 1 0) w
        else w
      failedTry n s = State.setDistSlot (State.withEntry (deliver (ovenFrame .distribution n
          (.offer e.number e.version r.steps.length (contentCrc (s.oven n) r))) noticed) n e
          { e with
            state := .offered, retries := e.retries + 1, clamped := clamp, crc := some (contentCrc (s.oven n) r)
            deadline := some (.reply, min 4294967295 (s.clock + 5)) })
        k (some { oven := n, number := e.number, version := e.version, next := 0, total := transferTotal r })) ∧
    (e.state = .unloading → e.deadline = some (.unload, t) → e.sends < 3 →
      exec (.unloadDeadline n e.number e.version) s = .next (State.withEntry
        (deliver (ovenFrame .distribution n (.unload e.number e.version)) s) n e
        { e with sends := e.sends + 1, deadline := some (.unload, min 4294967295 (s.clock + 5)) })) ∧
    (e.state = .unloading → e.deadline = some (.unload, t) → 3 ≤ e.sends → s.loadedOf n = [e] → s.NoOffers → s.NoWants n →
      exec (.unloadDeadline n e.number e.version) s = .next (dropRef e.number e.version (s.setLoaded n [])))

/-! ### The Permit Unit (chapter 05) -/

/-- R91 to R95, R46: START_REQUEST: the refusals in their order, a repeated grant, and the grant with the permit it creates: its
number, counting on from the counter past every number in use; R62: the reference it takes; R147: the tickets in VERIFYING it is
linked to. -/
def Obligations.StartRequestIsJudged : Prop :=
  ∀ (s : State) (f : InFrame) (rest : List InFrame), s.Hears .startRequest f rest → s.Settled →
    let n := f.source
    let u := s.afterHearing f rest
    let o := s.oven n
    let number := numAt f.data 0 2
    let version := numAt f.data 2 1
    let refuse := fun reason : Nat => deliver (ovenFrame .permitUnit n (.permitRefused reason o.locks)) u
    let grant := fun (p : Permit) (t : State) =>
      deliver (ovenFrame .permitUnit n (.permitGranted p.number p.lastBeforeClean o.locks)) t
    let fresh := fun r : Recipe =>
      ({ number := s.permitNumber, recipe := number, version := version, stopping := false, grantedAt := s.clock
         deadline := min 4294967295 (s.clock + (((r.figures.map Figures.duration).getD 0 * 5 + 3) / 4 + 600))
         lastBeforeClean := o.hygiene.any fun h => r.figures.any fun f => decide (h.settings.lock ≤ h.soil + f.totalSoil)
         target := s.tickets.any fun t => decide (t.oven = n ∧ t.state = .verifying ∧ t.permit = none)
         summaries := [] } : Permit)
    let granted := fun r : Recipe => grant (fresh r) (linkTickets n s.permitNumber (addRef number version
      (State.setPermit { u with permitCounter := if 65535 ≤ s.permitNumber then 1 else s.permitNumber + 1 } n
        (some (fresh r)))))
    ((∀ m, isSlot m → ∀ p ∈ s.permit m, p.number ≠ s.permitCounter) → s.permitNumber = s.permitCounter) ∧
    (let following := fun k => if 65535 ≤ k then 1 else k + 1
      let used := fun k => ∃ m, isSlot m ∧ ∃ p ∈ s.permit m, p.number = k
      ∃ k, k ≤ 32 ∧ s.permitNumber = following^[k] s.permitCounter ∧ ¬ used s.permitNumber ∧
        ∀ j, j < k → used (following^[j] s.permitCounter)) ∧
    (∀ (t : State) (k i v : Nat),
      linkTickets i k t = { t with tickets := t.tickets.map fun x =>
        if x.oven = i ∧ x.state = .verifying ∧ x.permit = none then { x with permit := some k } else x } ∧
      addRef k v t = { t with recipes := t.recipes.map fun x =>
        if x.number = k ∧ x.version = v then { x with refs := x.refs + 1 } else x }) ∧
    exec .startRequest s = .next
      (if s.siteOpen = false then refuse 1
      else if o.state ≠ .inService then refuse 2
      else if o.locks ≠ {} then refuse 3
      else match o.hygiene.map Hygiene.state with
        | some .due => refuse 4
        | some .residue => refuse 5
        | some .cleaning => refuse 6
        | _ => match s.permit n with
          | some p =>
            if p.stopping = false ∧ p.recipe = number ∧ p.version = version ∧ p.summaries = [] then grant p u else refuse 7
          | none => match s.recipe number version with
            | none => refuse 8
            | some r =>
              if r.state = .withdrawing ∧ r.superseded = false then refuse 10
              else match (s.entry n number version).map Entry.state with
                | some .loaded => granted r
                | some .stale => granted r
                | some .unloading => refuse (if r.state = .withdrawing then 9 else 8)
                | _ => refuse 8)

/-- R72, R98 to R102, R104, R109 to R111, R115, R116, R148: STAGE_SUMMARY stores a summary; COOK_END charges the cook and
closes the permit; the permit deadline charges the nominal soil, closes it and reports the lapse; PERMIT_REVOKE places STOP.
There the charge moves the cleaning state of no oven, and no ticket, deferred unload or campaign waits for the permit. For
every charge, COOK_END then tells and raises a moved cleaning state, closes the tickets that name the permit VERIFIED on
COMPLETE and clears their link on any other outcome, and sends the entry whose unload was deferred to UNLOADING. That the
tickets are closed in ascending number is the model's choice (A56). -/
def Obligations.PermitsRunAndClose : Prop :=
  (∀ m t h seconds fat, stageIncrement m t h seconds fat = min 65535 ((seconds *
      (if max 30 (min 300 t) ≤ 100 then 2 else 2 + (max 30 (min 300 t) - 100) / 20) *
      (match m with | .steam => 1 | .dry => 3 | .combi => if 50 ≤ h then 2 else 3) *
      (if fat = 0 then 1 else if fat = 1 then 2 else if fat = 2 then 3 else 5) + 59) / 60)) ∧
  (∀ (s : State) (n : Nat), s.Serves (.permitRevoke n) →
    (n < 1 ∨ 32 < n → exec (.permitRevoke n) s = .next (s.reply .range [])) ∧
    (isSlot n → (s.oven n).state = .vacant → exec (.permitRevoke n) s = .next (s.reply .noRecord [])) ∧
    (isSlot n → (s.oven n).state ≠ .vacant → s.permit n = none →
      exec (.permitRevoke n) s = .next (s.reply .wrongState [])) ∧
    ∀ p, isSlot n → (s.oven n).state ≠ .vacant → s.permit n = some p → s.Settled →
      exec (.permitRevoke n) s = .next (State.reply (deliver (ovenFrame .permitUnit n (.stop p.number))
        (s.setPermit n (some { p with stopping := true }))) .ok (le 2 p.number))) ∧
  (∀ (s : State) (f : InFrame) (rest : List InFrame),
    let n := f.source
    let u := s.afterHearing f rest
    (s.Hears .stageSummary f rest →
      ((∀ p ∈ s.permit n, p.number ≠ numAt f.data 0 2) → exec .stageSummary s = .next u) ∧
      ∀ p r, s.permit n = some p → p.number = numAt f.data 0 2 → s.recipe p.recipe p.version = some r →
        let i := numAt f.data 2 1 % 32
        let x : Summary :=
          { index := i, temperature := numAt f.data 3 2, humidity := min 100 (numAt f.data 5 1), seconds := numAt f.data 6 2
            mode := if numAt f.data 2 1 / 32 = 0 then .dry else if numAt f.data 2 1 / 32 = 1 then .steam else .combi }
        exec .stageSummary s = .next
          (if 1 ≤ i ∧ i ≤ r.steps.length then u.setPermit n (some { p with
            summaries := insertBefore (fun y => i < y.index) x (p.summaries.filter fun y => decide (y.index ≠ i)) })
          else u)) ∧
    (s.Hears .cookEnd f rest →
      ((∀ p ∈ s.permit n, p.number ≠ numAt f.data 0 2) → exec .cookEnd s = .next u) ∧
      ∀ p r figures h, s.permit n = some p → p.number = numAt f.data 0 2 → s.recipe p.recipe p.version = some r →
        r.figures = some figures → figures.stepSoil.length = r.steps.length → (s.oven n).state = .inService →
        (s.oven n).hygiene = some h → (∀ t ∈ s.tickets, t.permit ≠ some p.number) →
        (∀ e ∈ s.loadedOf n, e.deferred = false) → s.NoCampaigns →
        let charge := ((List.range (min (numAt f.data 3 1) r.steps.length)).map fun i =>
          match p.summaries.find? (fun x => x.index = i + 1) with
          | some x => stageIncrement x.mode x.temperature x.humidity x.seconds r.fat
          | none => figures.stepSoil.getD i 0).sum
        let h' := { h with soil := min 65535 (h.soil + charge) }
        h'.judged = h.state →
        exec .cookEnd s = .next (dropRef p.recipe p.version (State.setPermit (u.setOven n { u.oven n with
          hygiene := some h'
          cooks := if numAt f.data 2 1 = 0 then min 65535 ((s.oven n).cooks + 1) else (s.oven n).cooks }) n none)))) ∧
  (∀ (s : State) (f : InFrame) (rest : List InFrame) (p : Permit) (r : Recipe) (figures : Figures) (h : Hygiene),
    s.Hears .cookEnd f rest → s.Settled → s.NoCampaigns →
    let n := f.source
    let complete := numAt f.data 2 1 = 0
    s.permit n = some p → p.number = numAt f.data 0 2 → s.recipe p.recipe p.version = some r →
    r.figures = some figures → figures.stepSoil.length = r.steps.length → (s.oven n).state = .inService →
    (s.oven n).hygiene = some h → (∀ t ∈ s.tickets, s.ticket t.number = some t) →
    (∀ t ∈ s.tickets, t.permit = some p.number → t.state = .verifying) →
    let charge := ((List.range (min (numAt f.data 3 1) r.steps.length)).map fun i =>
      match p.summaries.find? (fun x => x.index = i + 1) with
      | some x => stageIncrement x.mode x.temperature x.humidity x.seconds r.fat
      | none => figures.stepSoil.getD i 0).sum
    let h' : Hygiene := { h with soil := min 65535 (h.soil + charge) }
    let w := (s.afterHearing f rest).setOven n { (s.afterHearing f rest).oven n with
      hygiene := some h'.restated, cooks := if complete then min 65535 ((s.oven n).cooks + 1) else (s.oven n).cooks }
    let told := if h'.judged = h.state then w else deliver (hygieneFrame s n h'.restated) w
    let noticed := if h'.judged = h.state then told
      else if h'.judged = .due then raise .hygiene n (hygieneDetail 0 h'.restated 0 0) told
      else if h'.judged = .residue then raise .hygiene n (hygieneDetail 1 h'.restated 0 0) told
      else told
    let settled : State := if complete then
        (s.tickets.filter fun t => t.permit = some p.number).foldl
          (fun t x => raise .ticket x.number (ticketDetail s 5 0 x) { t with
            tickets := t.tickets.filter fun y => decide (y.number ≠ x.number) }) noticed
      else { noticed with tickets := s.tickets.map fun t => if t.permit = some p.number then { t with permit := none } else t }
    let removed := dropRef p.recipe p.version (settled.setPermit n none)
    ((∀ e ∈ s.loadedOf n, e.deferred = false) → exec .cookEnd s = .next removed) ∧
    ∀ e, s.Holds n e → e.deferred = true → e.state = .loaded ∨ e.state = .stale →
      (∀ x ∈ s.loadedOf n, x.deferred = true → x = e) →
      exec .cookEnd s = .next (State.withEntry (deliver (ovenFrame .distribution n (.unload e.number e.version)) removed) n e
        { e with state := .unloading, deferred := false, sends := 1, deadline := some (.unload, min 4294967295 (s.clock + 5)) })) ∧
  ∀ (s : State) (n : Nat) (p : Permit) (r : Recipe) (figures : Figures) (h : Hygiene), s.Live → isSlot n →
    s.permit n = some p → s.recipe p.recipe p.version = some r → r.figures = some figures → p.deadline ≤ s.clock →
    (s.oven n).state = .inService → (s.oven n).hygiene = some h → (∀ t ∈ s.tickets, t.permit ≠ some p.number) →
    (∀ e ∈ s.loadedOf n, e.deferred = false) → s.NoCampaigns →
    let h' := { h with soil := min 65535 (h.soil + figures.totalSoil) }
    h'.judged = h.state →
    exec (.permitDeadline n) s = .next (raise .permitLapsed n
      (le 2 p.number ++ le 2 p.recipe ++ le 1 p.version ++ le 1 0) (routeFault n 0xFF04 .part
        (dropRef p.recipe p.version ((s.withHygiene n h').setPermit n none))))

/-! ### The Hygiene Monitor (chapter 06) -/

/-- R126, R127, A15: CLEAN_ORDER and MANUAL_CLEAN: their refusals for any slot, and of an oven in service the order told and
judged, the manual clean credited and reported. The programme byte of the manual clean's notice is a free value among the
codes R195 gives: this holds for every value of it. That HYGIENE_STATE is placed for the order and again at a state change,
and once at a manual clean that changes both, is the model's choice (A35). Of refusals that hold together where the rule
numbers no order, the first it names is given, by the model's choice (A69). -/
def Obligations.OrdersAndManualCleans : Prop :=
  (∀ (s : State) (n code : Nat), s.Serves (.cleanOrder n code) →
    (n < 1 ∨ 32 < n ∨ 3 < code → exec (.cleanOrder n code) s = .next (s.reply .range [])) ∧
    (isSlot n → code ≤ 3 → (s.oven n).state = .vacant → exec (.cleanOrder n code) s = .next (s.reply .noRecord [])) ∧
    (isSlot n → code ≤ 3 → (s.oven n).state ≠ .vacant → (s.oven n).state ≠ .inService →
      exec (.cleanOrder n code) s = .next (s.reply .wrongState []))) ∧
  (∀ (s : State) (n : Nat), s.Serves (.manualClean n) →
    (n < 1 ∨ 32 < n → exec (.manualClean n) s = .next (s.reply .range [])) ∧
    (isSlot n → (s.oven n).state = .vacant → exec (.manualClean n) s = .next (s.reply .noRecord [])) ∧
    (isSlot n → (s.oven n).state ≠ .vacant → (s.oven n).state ≠ .inService →
      exec (.manualClean n) s = .next (s.reply .wrongState []))) ∧
  ∀ (s : State) (n : Nat) (h : Hygiene), isSlot n → (s.oven n).state = .inService → (s.oven n).hygiene = some h →
    (∀ code, s.Serves (.cleanOrder n code) →
      let order := if code = 0 then some Programme.rinse else if code = 1 then some .standard
        else if code = 2 then some .intensive else none
      let h1 := { h with order := order }
      let told := deliver (hygieneFrame s n h1) (s.withHygiene n h1)
      (3 < code → exec (.cleanOrder n code) s = .next (s.reply .range [])) ∧
      (code ≤ 3 → h.order = order → exec (.cleanOrder n code) s = .next (s.reply .ok [])) ∧
      (code ≤ 3 → h.order ≠ order → s.Settled →
        (h1.judged = h.state → exec (.cleanOrder n code) s = .next (told.reply .ok [])) ∧
        (h1.judged ≠ h.state → h.state ≠ .cleaning → h1.judged = .ok ∨ h1.judged = .advised →
          exec (.cleanOrder n code) s = .next (State.reply
            (deliver (hygieneFrame s n h1.restated) (told.withHygiene n h1.restated)) .ok [])))) ∧
    (s.Serves (.manualClean n) →
      ((s.permit n).isSome = true ∨ h.state = .cleaning → exec (.manualClean n) s = .next (s.reply .wrongState [])) ∧
      (s.permit n = none → h.state ≠ .cleaning → s.Settled →
        let t := min 4294967295 (s.clock + h.settings.interval * 60)
        let h1 := { h with
          soil := 0, residue := false, lastFull := s.clock, deadline := pointAt s t, advance := pointAt s (t - 7200)
          order := none, completed := min 65535 (h.completed + 1) }
        let w := s.withHygiene n h1.restated
        let told := if h1.judged ≠ h.state ∨ h.order ≠ none then deliver (hygieneFrame s n h1.restated) w else w
        exec (.manualClean n) s = .next (State.reply
          { raise .hygiene n (hygieneDetail 6 h1.restated (Config.manualCleanProgramme s.draws).val 0) told with
            draws := s.draws + 1 } .ok [])))

/-- R118 to R123: CLEAN_START is judged in the order of its checks and answered; CLEAN_PHASE moves the phase forward; CLEAN_END
credits a completed clean and counts an aborted one, with the residue it leaves, where no campaign waits for the oven. A
CLEAN_START of an oven before IN_SERVICE is refused; the cleaning state its answer shows is a free value (A58): this holds for
every value of it. A CLEAN_PHASE or CLEAN_END with no clean in progress is ignored. That HYGIENE_STATE is placed once where a
completed clean both clears the order and changes the state is the model's choice (A35). -/
def Obligations.CleansStartAndEnd : Prop :=
  (∀ (s : State) (f : InFrame) (rest : List InFrame),
    let n := f.source
    let u := s.afterHearing f rest
    (s.Hears .cleanStart f rest → s.Settled → (s.oven n).hygiene = none → s.siteOpen = false ∨ (s.oven n).state ≠ .inService →
      exec .cleanStart s = .next (deliver (ovenFrame .hygieneMonitor n (.cleanRefuse (numAt f.data 0 1)
        (if s.siteOpen = false then 0 else 1) (CleaningState.ofFree (Config.absentCleaningState s.draws))))
        { u with draws := s.draws + 1 })) ∧
    ((∀ h ∈ (s.oven n).hygiene, h.clean = none) → (s.Hears .cleanPhase f rest → exec .cleanPhase s = .next u) ∧
      (s.Hears .cleanEnd f rest → exec .cleanEnd s = .next u))) ∧
  ∀ (s : State) (f : InFrame) (rest : List InFrame) (h : Hygiene), (s.oven f.source).hygiene = some h →
    let n := f.source
    let u := s.afterHearing f rest
    let o := s.oven n
    let code := numAt f.data 0 1
    let refuse := fun reason : Nat => deliver (ovenFrame .hygieneMonitor n (.cleanRefuse code reason h.state)) u
    let allow := fun (p : Programme) (t : State) => deliver (ovenFrame .hygieneMonitor n (.cleanAllow p)) t
    let begun := fun p : Programme =>
      ({ h with
        state := .cleaning
        clean := some
          { programme := p, startedAt := s.clock, phase := none
            deadline := min 4294967295 (s.clock + (match p with | .rinse => 2700 | .standard => 9000 | .intensive => 12600)) }
      } : Hygiene)
    (s.Hears .cleanStart f rest → s.Settled → exec .cleanStart s = .next
      (if s.siteOpen = false then refuse 0
      else if o.state ≠ .inService then refuse 1
      else if s.permit n ≠ none then refuse 2
      else if h.state = .cleaning then
        (match h.clean with
          | some c => if c.programme.code = code ∧ c.phase = none then allow c.programme u else refuse 3
          | none => refuse 3)
      else if o.locks.update = true then refuse 4
      else if (∃ t ∈ s.tickets, t.oven = n ∧ (t.state = .open ∨ t.state = .acknowledged) ∧ (s.cls t.cls).blocksCleaning = true)
        then refuse 5
      else match Programme.ofCode code, o.profile.map Profile.cleaning with
        | some p, some .full => allow p (deliver (hygieneFrame s n (begun p)) (u.withHygiene n (begun p)))
        | some .rinse, some .rinseOnly => allow .rinse (deliver (hygieneFrame s n (begun .rinse)) (u.withHygiene n (begun .rinse)))
        | _, _ => refuse 6)) ∧
    (∀ c, h.clean = some c →
      (s.Hears .cleanPhase f rest →
        (c.programme.code ≠ code → exec .cleanPhase s = .next u) ∧
        ∀ p, c.programme.code = code → Phase.ofCode (numAt f.data 1 1) = some p →
          exec .cleanPhase s = .next
            (if (c.programme = .rinse → p = .rinse ∨ p = .dry) ∧ ∀ q ∈ c.phase, q.code ≤ p.code then
              u.withHygiene n { h with clean := some { c with phase := some p } }
            else u)) ∧
      (s.Hears .cleanEnd f rest →
        (c.programme.code ≠ code → exec .cleanEnd s = .next u) ∧
        (c.programme.code = code → h.state = .cleaning → o.state = .inService → s.NoCampaigns → s.Settled →
          let full := c.programme = .standard ∨ c.programme = .intensive
          let t := min 4294967295 (s.clock + h.settings.interval * 60)
          let clean : Hygiene := { h with
            soil := h.soil - h.soil * (match c.programme with | .rinse => 3 | .standard => 7 | .intensive => 8) / 8
            residue := false, lastFull := if full then s.clock else h.lastFull
            deadline := if full then pointAt s t else h.deadline
            advance := if full then pointAt s (t - 7200) else h.advance
            order := h.order.filter fun p => decide (c.programme.code < p.code)
            completed := min 65535 (h.completed + 1), clean := none }
          let dirty : Hygiene := { h with
            residue := h.residue || decide (full ∧ (c.phase = some .detergent ∨ c.phase = some .rinse))
            aborted := min 65535 (h.aborted + 1), clean := none }
          let phase := (c.phase.map fun q => q.code + 1).getD 0
          let ends := fun (cause : Nat) (h' : Hygiene) => raise .hygiene n (hygieneDetail cause h' (code + 1) phase)
            (deliver (hygieneFrame s n h') (u.withHygiene n h'))
          (numAt f.data 1 1 = 0 → exec .cleanEnd s = .next (ends 2 clean.restated)) ∧
          (numAt f.data 1 1 ≠ 0 → exec .cleanEnd s = .next (ends 3 dirty.restated)))))

/-- R113 to R116, R124: the hygiene deadline and the advance point, each due, are marked passed and the cleaning state judged
again, told and, when it becomes DUE or RESIDUE, raised; the clean deadline abandons the clean and routes part fault 0xFF05. -/
def Obligations.HygieneDeadlines : Prop :=
  (∀ h : Hygiene, h.judged =
    if h.clean ≠ none then .cleaning else if h.residue = true then .residue
    else if h.settings.lock ≤ h.soil ∨ h.deadline = .passed then .due
    else if h.settings.advise ≤ h.soil ∨ h.order ≠ none ∨ h.advance = .passed then .advised else .ok) ∧
  ∀ (s : State) (n t : Nat) (h : Hygiene), s.Live → s.Settled → isSlot n → s.NoCampaigns →
    (s.oven n).state = .inService → (s.oven n).hygiene = some h → t ≤ s.clock →
    let judge := fun h' : Hygiene =>
      let told := deliver (hygieneFrame s n h'.restated) (s.withHygiene n h'.restated)
      if h'.judged = h.state then s.withHygiene n h'
      else if h'.judged = .due then raise .hygiene n (hygieneDetail 0 h'.restated 0 0) told
      else if h'.judged = .residue then raise .hygiene n (hygieneDetail 1 h'.restated 0 0) told
      else told
    (h.deadline = .armed t → exec (.hygieneDeadline n) s = .next (judge { h with deadline := .passed })) ∧
    (h.advance = .armed t → exec (.advancePoint n) s = .next (judge { h with advance := .passed })) ∧
    ∀ c, h.clean = some c → c.deadline = t → h.state = .cleaning →
      let full := c.programme = .standard ∨ c.programme = .intensive
      let h' := Hygiene.restated { h with
        residue := h.residue || decide (full ∧ (c.phase = some .detergent ∨ c.phase = some .rinse))
        aborted := min 65535 (h.aborted + 1), clean := none }
      exec (.cleanDeadline n) s = .next (routeFault n 0xFF05 .part (raise .hygiene n
        (hygieneDetail 4 h' (c.programme.code + 1) ((c.phase.map fun q => q.code + 1).getD 0))
        (deliver (hygieneFrame s n h') (s.withHygiene n h'))))

/-! ### Service tickets and fault routing (chapter 07) -/

/-- R133 to R135, R151 to R153: CLASS_SET, ROUTE_PUT, ROUTE_ENABLE, ROUTE_DISABLE and ROUTE_READ. A severity changed to or
from LOCKOUT has the lock view of each oven with a ticket of the class derived again, a changed blocks-updates flag has the
channel choice made: in ascending slot, and one choice after them, by the model's choice (A62). The layout of ROUTE_READ's
body (32 entries, no count, the widths) is the model's choice (A19). Of refusals that hold together where the rule numbers no
order, the first it names is given, by the model's choice (A69). -/
def Obligations.ClassesAndRoutesAreSet : Prop :=
  (∀ (s : State) (c : Nat) (a : ClassArgs), s.Serves (.classSet c a) →
    let count := s.tickets.countP fun t => decide (t.cls = c)
    (7 < c ∨ 3 < a.severity ∨ 1440 < a.e1 ∨ 1440 < a.e2 ∨ 1440 < a.e3 ∨ 64 < a.cap →
      exec (.classSet c a) s = .next (s.reply .range [])) ∧
    ∀ severity, c ≤ 7 → Severity.ofCode a.severity = some severity → a.e1 ≤ 1440 → a.e2 ≤ 1440 → a.e3 ≤ 1440 → a.cap ≤ 64 →
      (∀ t ∈ s.tickets, t.cls = c → t.oven = 0) ∨
        ((s.cls c).blocksUpdates = a.blocksUpdates ∧ ((s.cls c).severity = .lockout ↔ severity = .lockout)) →
      exec (.classSet c a) s = .next (State.reply (s.setCls c
        { severity := severity, blocksCleaning := a.blocksCleaning, blocksUpdates := a.blocksUpdates
          autoClear := a.autoClear, e1 := a.e1, e2 := a.e2, e3 := a.e3, cap := max a.cap count })
        (if a.cap < count then .clamped else .ok) [])) ∧
  (∀ (s : State) (c : Nat) (a : ClassArgs) (severity : Severity), s.Serves (.classSet c a) →
    c ≤ 7 → Severity.ofCode a.severity = some severity → a.e1 ≤ 1440 → a.e2 ≤ 1440 → a.e3 ≤ 1440 → a.cap ≤ 64 →
    let count := s.tickets.countP fun t => decide (t.cls = c)
    let changed := s.setCls c { severity := severity, blocksCleaning := a.blocksCleaning, blocksUpdates := a.blocksUpdates
                                autoClear := a.autoClear, e1 := a.e1, e2 := a.e2, e3 := a.e3, cap := max a.cap count }
    let told := allSlots.filter fun n => s.tickets.any fun t => decide (t.oven = n ∧ t.cls = c)
    (∀ n ∈ told, s.Ungated n) →
    let relocks := if (s.cls c).severity = .lockout ↔ severity = .lockout then changed
      else told.foldl (fun t n => relocked n t) changed
    exec (.classSet c a) s = .next (State.reply
      (if (s.cls c).blocksUpdates ≠ a.blocksUpdates ∧ told ≠ [] then channelChoice relocks else relocks)
      (if a.cap < count then .clamped else .ok) [])) ∧
  ∀ (s : State) (e : Nat),
    (∀ a, s.Serves (.routePut e a) → exec (.routePut e a) s = .next
      (if 31 < e ∨ 7 < a.target ∨ 1 < a.action then s.reply .range []
      else if (s.route e).enabled = true then s.reply .wrongState []
      else State.reply (s.setRoute e
        { enabled := false, codePattern := a.codePattern, codeMask := a.codeMask, modelPattern := a.modelPattern
          modelMask := a.modelMask, target := a.target, absorb := decide (a.action = 1), hits := 0 }) .ok [])) ∧
    (s.Serves (.routeEnable e) → exec (.routeEnable e) s = .next
      (if 31 < e then s.reply .range [] else (s.setRoute e { s.route e with enabled := true }).reply .ok [])) ∧
    (s.Serves (.routeDisable e) → exec (.routeDisable e) s = .next
      (if 31 < e then s.reply .range [] else (s.setRoute e { s.route e with enabled := false }).reply .ok [])) ∧
    ∀ clear, s.Serves (.routeRead clear) → exec (.routeRead clear) s = .next (State.reply
      (if clear = true then { s with routes := s.routes.map fun r => { r with hits := 0 } } else s) .ok
      ((List.range 32).flatMap fun i => (s.route i).bytes))

/-- R46, R141, R143 to R145, R150 to R152: TICKET_OPEN, TICKET_ACK, TICKET_RESOLVE and TICKET_CLOSE: their refusals, the ticket
and its notice; the number of a ticket, counting on from the counter past every number in use; and what the opening, the resolve
and the closure tell (`reported`): of a LOCKOUT class the lock reasons and LOCK_STATE, of a class that blocks updates the
channel choice. Of a TICKET_ACK's refusals that hold together, which R144 does not number, the first it names is given, by the
model's choice (A69). -/
def Obligations.TicketsOpenAndClose : Prop :=
  (∀ (s : State) (oven c : Nat) (code : Option Nat), s.Serves (.ticketOpen oven c code) →
    let t : Ticket :=
      { number := s.ticketCounter, oven := oven, origin := .site, code := code, cls := c, state := .open, level := 0
        escalation := escalationAt s (s.cls c).e1, reference := none, occurrences := 1, reopens := 0, active := false
        firstSeen := s.clock, lastSeen := s.clock, verification := none, permit := none }
    let opened : State := { s with
      ticketCounter := if 65535 ≤ s.ticketCounter then 1 else s.ticketCounter + 1
      tickets := insertBefore (fun x => s.ticketCounter < x.number) t s.tickets }
    (∀ x ∈ s.tickets, x.number ≠ s.ticketCounter) → s.Quiet c ∨ oven = 0 ∨ s.Ungated oven →
    exec (.ticketOpen oven c code) s = .next
      (if 32 < oven ∨ 7 < c then s.reply .range []
      else if oven ≠ 0 ∧ (s.oven oven).state = .vacant then s.reply .noRecord []
      else if oven ≠ 0 ∧ ((s.oven oven).state = .discovered ∨ (s.oven oven).state = .retiring) then s.reply .wrongState []
      else if code ≠ none ∧ ∃ x ∈ s.tickets, x.oven = oven ∧ x.code = code then s.reply .inUse []
      else if (s.cls c).cap ≤ (s.tickets.countP fun x => decide (x.cls = c)) ∨ 64 ≤ s.tickets.length then
        s.reply .tableFull []
      else State.reply (reported oven c (raise .ticket s.ticketCounter (ticketDetail s 0 1 t) opened)) .ok
        (le 2 s.ticketCounter))) ∧
  (∀ (s : State) (c : Nat), s.Serves (.ticketOpen 0 c none) → c ≤ 7 → s.tickets.length < 64 →
    (s.tickets.countP fun x => decide (x.cls = c)) < (s.cls c).cap →
    let following := fun k => if 65535 ≤ k then 1 else k + 1
    let used := fun k => ∃ x ∈ s.tickets, x.number = k
    ∃ k, k ≤ 63 ∧ (∀ j, j < k → used (following^[j] s.ticketCounter)) ∧
      let number := following^[k] s.ticketCounter
      ¬ used number ∧
      let t : Ticket :=
        { number := number, oven := 0, origin := .site, code := none, cls := c, state := .open, level := 0
          escalation := escalationAt s (s.cls c).e1, reference := none, occurrences := 1, reopens := 0, active := false
          firstSeen := s.clock, lastSeen := s.clock, verification := none, permit := none }
      exec (.ticketOpen 0 c none) s = .next (State.reply (raise .ticket number (ticketDetail s 0 1 t) { s with
        ticketCounter := following number, tickets := insertBefore (fun x => number < x.number) t s.tickets }) .ok
        (le 2 number))) ∧
  ∀ (s : State) (k : Nat),
    (s.ticket k = none →
      (∀ reference, s.Serves (.ticketAck k reference) → exec (.ticketAck k reference) s = .next
        (if ∃ r ∈ reference, ¬ (1 ≤ r.length ∧ r.length ≤ 16 ∧ ∀ c ∈ r, 0x20 ≤ c.toNat ∧ c.toNat ≤ 0x7E) then
          s.reply .range [] else s.reply .noRecord [])) ∧
      (s.Serves (.ticketResolve k) → exec (.ticketResolve k) s = .next (s.reply .noRecord [])) ∧
      (s.Serves (.ticketClose k) → exec (.ticketClose k) s = .next (s.reply .noRecord []))) ∧
    ∀ t, s.ticket k = some t →
      let gone : State := { s with tickets := s.tickets.filter fun x => decide (x.number ≠ k) }
      (∀ reference, s.Serves (.ticketAck k reference) → exec (.ticketAck k reference) s = .next
        (if ∃ r ∈ reference, ¬ (1 ≤ r.length ∧ r.length ≤ 16 ∧ ∀ c ∈ r, 0x20 ≤ c.toNat ∧ c.toNat ≤ 0x7E) then
          s.reply .range []
        else if t.state = .verifying then s.reply .wrongState []
        else (s.modTicket k fun x => { x with
          state := .acknowledged, escalation := none, reference := reference.orElse fun _ => x.reference }).reply .ok [])) ∧
      (s.Serves (.ticketResolve k) → s.Quiet t.cls ∨ t.oven = 0 ∨ s.Ungated t.oven → exec (.ticketResolve k) s = .next
        (if t.state = .verifying then s.reply .wrongState []
        else if t.oven = 0 then State.reply (raise .ticket k (ticketDetail s 7 0 t) gone) .ok []
        else State.reply (reported t.oven t.cls (s.modTicket k fun x => { x with
          state := .verifying, escalation := none, verification := some (min 4294967295 (s.clock + 14400))
          permit := none })) .ok [])) ∧
      (s.Serves (.ticketClose k) → s.Quiet t.cls ∨ t.oven = 0 ∨ t.state = .verifying ∨ s.Ungated t.oven →
        let closed := raise .ticket k (ticketDetail s 8 0 t) gone
        exec (.ticketClose k) s = .next
          (State.reply (if t.state = .verifying then closed else reported t.oven t.cls closed) .ok []))

/-- R17, R136 to R140, R142, R145, R146, R149, R151, R152: a FAULT frame folds into its open ticket, or is routed by the first
enabled entry that matches and can take it (absorbed, or a ticket in its class), TICKET entries of full classes being passed
over, their hit counts unmoved, or overflows; a part fault likewise, with origin PART; a cleared fault is noted, and on an
auto-clear class resolves its ticket, unless its active flag was clear already or it is VERIFYING; a RETIRING oven's faults are
ignored; a LOOKUP is answered; the escalation and verification deadlines, each due. What an opening, a reopening and a resolve
tell is `reported`. -/
def Obligations.FaultsAreRouted : Prop :=
  (∀ (s : State) (f : InFrame) (rest : List InFrame),
    let n := f.source
    let u := s.afterHearing f rest
    let o := s.oven n
    let code := numAt f.data 0 2
    let hit := fun e => (s.route e).enabled = true ∧ code &&& (s.route e).codeMask = (s.route e).codePattern &&& (s.route e).codeMask ∧
      o.model &&& (s.route e).modelMask = (s.route e).modelPattern &&& (s.route e).modelMask
    let counted := fun e => ({ s.route e with hits := min 65535 ((s.route e).hits + 1) } : Route)
    let overflow := fun cause : Nat =>
      raise .routeOverflow 0 (le 1 n ++ le 2 code ++ le 1 o.model ++ le 1 0 ++ le 1 cause) u
    let ticket := fun c => ({ number := s.ticketCounter, oven := n, origin := .fault, code := some code, cls := c, state := .open
                              level := 0, escalation := escalationAt s (s.cls c).e1, reference := none, occurrences := 1
                              reopens := 0, active := true, firstSeen := s.clock, lastSeen := s.clock, verification := none
                              permit := none } : Ticket)
    let opened := fun c => ({ u with
      ticketCounter := if 65535 ≤ s.ticketCounter then 1 else s.ticketCounter + 1
      tickets := insertBefore (fun x => s.ticketCounter < x.number) (ticket c) s.tickets } : State)
    let room := fun c => (s.tickets.countP fun x => decide (x.cls = c)) < (s.cls c).cap
    let passed := fun e => (s.route e).absorb = false ∧ ¬ room (s.route e).target
    (s.Hears .fault f rest → o.state = .retiring → exec .fault s = .next u) ∧
    (s.Hears .fault f rest → numAt f.data 2 1 = 1 → o.state ≠ .retiring →
      ((∀ t ∈ s.tickets, ¬ (t.oven = n ∧ t.code = some code)) →
        (∀ e, e ≤ 31 → hit e → (∀ e' < e, hit e' → passed e') → (s.route e).absorb = true →
          exec .fault s = .next (u.setRoute e (counted e))) ∧
        (∀ e, e ≤ 31 → hit e → (∀ e' < e, hit e' → passed e') → (s.route e).absorb = false → room (s.route e).target →
          (64 ≤ s.tickets.length → exec .fault s = .next (overflow 1)) ∧
          (s.tickets.length < 64 → (∀ x ∈ s.tickets, x.number ≠ s.ticketCounter) →
            s.Quiet (s.route e).target ∨ s.Ungated n →
            exec .fault s = .next (reported n (s.route e).target
              (raise .ticket s.ticketCounter (ticketDetail s 0 1 (ticket (s.route e).target))
                ((opened (s.route e).target).setRoute e (counted e)))))) ∧
        ((∀ e ≤ 31, ¬ hit e) → room 0 → s.tickets.length < 64 → (∀ x ∈ s.tickets, x.number ≠ s.ticketCounter) →
          s.Quiet 0 ∨ s.Ungated n →
          exec .fault s = .next (reported n 0
            (raise .ticket s.ticketCounter (ticketDetail s 0 1 (ticket 0)) (opened 0)))) ∧
        ((∀ e ≤ 31, ¬ hit e) → ¬ room 0 → exec .fault s = .next (overflow 0)) ∧
        ((∃ e ≤ 31, hit e) → (∀ e ≤ 31, hit e → passed e) →
          exec .fault s = .next (overflow 0))) ∧
      ∀ t, s.tickets.find? (fun x => decide (x.oven = n ∧ x.code = some code)) = some t → s.ticket t.number = some t →
        t.state ≠ .verifying ∨ s.Quiet t.cls ∨ s.Ungated n →
        let again := fun x : Ticket => { x with
          occurrences := min 65535 (x.occurrences + 1), lastSeen := s.clock, active := true }
        let reopened := fun x : Ticket => { again x with
          state := .open, reopens := min 255 (x.reopens + 1), permit := none, verification := none
          escalation := if x.level = 0 then escalationAt s (s.cls x.cls).e1
            else if x.level = 1 then escalationAt s (s.cls x.cls).e2
            else if x.level = 2 then escalationAt s (s.cls x.cls).e3 else none }
        (t.state ≠ .verifying → exec .fault s = .next (raise .ticket t.number
          (ticketDetail s 1 (if t.state = .open then 1 else 2) (again t)) (u.modTicket t.number again))) ∧
        (t.state = .verifying → exec .fault s = .next (reported n t.cls (raise .ticket t.number
          (ticketDetail s 2 1 (reopened t)) (u.modTicket t.number reopened))))) ∧
    (s.Hears .fault f rest → numAt f.data 2 1 ≠ 1 → o.state ≠ .retiring →
      ((∀ t ∈ s.tickets, ¬ (t.oven = n ∧ t.code = some code)) → exec .fault s = .next u) ∧
      ∀ t, s.tickets.find? (fun x => decide (x.oven = n ∧ x.code = some code)) = some t → s.ticket t.number = some t →
        let noted := fun x : Ticket => { x with active := false, lastSeen := s.clock }
        ((s.cls t.cls).autoClear = false ∨ t.state = .verifying ∨ t.active = false →
          exec .fault s = .next (u.modTicket t.number noted)) ∧
        ((s.cls t.cls).autoClear = true → t.state ≠ .verifying → t.active = true → s.Quiet t.cls ∨ s.Ungated n →
          exec .fault s = .next (raise .ticket t.number (ticketDetail s 4 3 t) (reported n t.cls
            (u.modTicket t.number fun x => { noted x with
              state := .verifying, escalation := none, verification := some (min 4294967295 (s.clock + 14400))
              permit := none }))))) ∧
    (s.Hears .lookup f rest → s.Settled → exec .lookup s = .next (deliver (ovenFrame .siteBus n
      (if o.state ≠ .inService then .lookupAnswer code 0 false false false true
      else .lookupAnswer code ((s.recipeIn code .active).map Recipe.version |>.getD 0)
        (s.recipeIn code .active |>.any fun r => decide ((s.entry n code r.version).map Entry.state = some .loaded))
        (s.recipeIn code .draft).isSome (s.recipeIn code .withdrawing |>.any fun r => !r.superseded) false)) u))) ∧
  (∀ (s : State) (n code : Nat), isSlot n →
    let o := s.oven n
    let routed := o.state = .assigning ∨ o.state = .profiling ∨ o.state = .awaitingSetup ∨ o.state = .testing ∨
      o.state = .inService
    let hit := fun e => (s.route e).enabled = true ∧ code &&& (s.route e).codeMask = (s.route e).codePattern &&& (s.route e).codeMask ∧
      o.model &&& (s.route e).modelMask = (s.route e).modelPattern &&& (s.route e).modelMask
    let counted := fun e => ({ s.route e with hits := min 65535 ((s.route e).hits + 1) } : Route)
    let overflow := fun cause : Nat =>
      raise .routeOverflow 0 (le 1 n ++ le 2 code ++ le 1 o.model ++ le 1 1 ++ le 1 cause) s
    let ticket := fun c => ({ number := s.ticketCounter, oven := n, origin := .part, code := some code, cls := c, state := .open
                              level := 0, escalation := escalationAt s (s.cls c).e1, reference := none, occurrences := 1
                              reopens := 0, active := true, firstSeen := s.clock, lastSeen := s.clock, verification := none
                              permit := none } : Ticket)
    let opened := fun c => ({ s with
      ticketCounter := if 65535 ≤ s.ticketCounter then 1 else s.ticketCounter + 1
      tickets := insertBefore (fun x => s.ticketCounter < x.number) (ticket c) s.tickets } : State)
    let room := fun c => (s.tickets.countP fun x => decide (x.cls = c)) < (s.cls c).cap
    let passed := fun e => (s.route e).absorb = false ∧ ¬ room (s.route e).target
    (¬ routed → routeFault n code .part s = s) ∧
    (routed →
      ((∀ t ∈ s.tickets, ¬ (t.oven = n ∧ t.code = some code)) →
        (∀ e, e ≤ 31 → hit e → (∀ e' < e, hit e' → passed e') →
          ((s.route e).absorb = true → routeFault n code .part s = s.setRoute e (counted e)) ∧
          ((s.route e).absorb = false → room (s.route e).target →
            (64 ≤ s.tickets.length → routeFault n code .part s = overflow 1) ∧
            (s.tickets.length < 64 → (∀ x ∈ s.tickets, x.number ≠ s.ticketCounter) →
              s.Quiet (s.route e).target ∨ s.Ungated n →
              routeFault n code .part s = reported n (s.route e).target
                (raise .ticket s.ticketCounter (ticketDetail s 0 1 (ticket (s.route e).target))
                  ((opened (s.route e).target).setRoute e (counted e)))))) ∧
        ((∀ e ≤ 31, ¬ hit e) →
          (¬ room 0 → routeFault n code .part s = overflow 0) ∧
          (room 0 → s.tickets.length < 64 → (∀ x ∈ s.tickets, x.number ≠ s.ticketCounter) → s.Quiet 0 ∨ s.Ungated n →
            routeFault n code .part s = reported n 0
              (raise .ticket s.ticketCounter (ticketDetail s 0 1 (ticket 0)) (opened 0)))) ∧
        ((∃ e ≤ 31, hit e) → (∀ e ≤ 31, hit e → passed e) → routeFault n code .part s = overflow 0)) ∧
      ∀ t, s.tickets.find? (fun x => decide (x.oven = n ∧ x.code = some code)) = some t → s.ticket t.number = some t →
        let again := fun x : Ticket => { x with
          occurrences := min 65535 (x.occurrences + 1), lastSeen := s.clock, active := true }
        let reopened := fun x : Ticket => { again x with
          state := .open, reopens := min 255 (x.reopens + 1), permit := none, verification := none
          escalation := if x.level = 0 then escalationAt s (s.cls x.cls).e1
            else if x.level = 1 then escalationAt s (s.cls x.cls).e2
            else if x.level = 2 then escalationAt s (s.cls x.cls).e3 else none }
        (t.state ≠ .verifying → routeFault n code .part s = raise .ticket t.number
          (ticketDetail s 1 (if t.state = .open then 1 else 2) (again t)) (s.modTicket t.number again)) ∧
        (t.state = .verifying → s.Quiet t.cls ∨ s.Ungated n → routeFault n code .part s = reported n t.cls
          (raise .ticket t.number (ticketDetail s 2 1 (reopened t)) (s.modTicket t.number reopened))))) ∧
  ∀ (s : State) (k at_ : Nat) (t : Ticket), s.Live → s.ticket k = some t → at_ ≤ s.clock →
    (t.escalation = some at_ → t.state = .open →
      let up := fun x : Ticket => { x with
        level := x.level + 1
        escalation := if x.level = 0 then escalationAt s (s.cls x.cls).e2
          else if x.level = 1 then escalationAt s (s.cls x.cls).e3 else none }
      exec (.escalationDeadline k) s = .next (raise .ticket k (ticketDetail s 3 1 (up t)) (s.modTicket k up))) ∧
    (t.verification = some at_ → t.state = .verifying → exec (.verificationDeadline k) s = .next
      (raise .ticket k (ticketDetail s 6 0 t) { s with tickets := s.tickets.filter fun x => decide (x.number ≠ k) }))

/-! ### Update campaigns and the image relay (chapter 08) -/

/-- R157 to R159, R173, R174, R177, R178: the campaign requests and the window start: refusals, the entries a start makes, the
transfer it opens on a free channel (R152, R162, R164: the entry TRANSFERRING, IMAGE_BEGIN, the acknowledgement timeout, notice
RELAY FEED) or none where no entry qualifies or no channel is free, the finish check, pause, resume, clear; the cancel of a
campaign with nothing under way, and of any RUNNING or PAUSED one, step by step: transfers aborted with IMAGE_ABORT, DISCARD to
the ovens of STAGED entries, every entry but the APPLYING ones removed, CANCELLING while one stands; the apply gating, which
leaves a STAGED entry as it is when any one condition fails; and the apply of the one STAGED entry whose gate is open. The
offset of a RELEASED notice (A16) and the version of that DISCARD (A17) are free values: this holds for every value of them.
These are the model's choices: a window start that is not reached changes nothing (A2); the counts of CAMPAIGN_START are taken
before the channel choice (A19); the CANCELLED notice carries no counts, and is raised for DEFINED and FINISHED too (A37); a
resume makes the finish check (A44); the entries of one step of a cancel are taken by ascending slot (A63) and the channel
choice is made once after them (A48); a CAMPAIGN_PUT that is out of range and finds a campaign not DEFINED is answered RANGE
(A69). -/
def Obligations.CampaignsStartAndEnd : Prop :=
  (∀ (s : State) (c : Nat) (a : CampaignArgs), s.Serves (.campaignPut c a) → exec (.campaignPut c a) s = .next
    (if 1 ≤ c ∧ c ≤ 4 ∧ a.fromVersions.length ≤ 4 ∧ 1 ≤ a.imageSize ∧ a.imageSize ≤ 1048576 ∧ a.windowStart ≤ 1439 ∧
        a.windowEnd ≤ 1439 ∧ 1 ≤ a.concurrency ∧ a.concurrency ≤ 2 then
      (if ∃ m ∈ s.campaign c, m.state ≠ .defined then s.reply .wrongState []
      else (s.setCampaign c (some
        { model := a.model, fromVersions := a.fromVersions, toVersion := a.toVersion, imageSize := a.imageSize
          imageCrc := a.imageCrc, windowStart := a.windowStart, windowEnd := a.windowEnd, concurrency := a.concurrency
          state := .defined, entries := [] })).reply .ok [])
    else s.reply .range [])) ∧
  (∀ (s : State) (c : Nat) (i : Instr), s.Serves i →
    i = .campaignStart c ∨ i = .campaignPause c ∨ i = .campaignResume c ∨ i = .campaignCancel c ∨ i = .campaignClear c →
    (c < 1 ∨ 4 < c → exec i s = .next (s.reply .range [])) ∧
    (1 ≤ c → c ≤ 4 → s.campaign c = none → exec i s = .next (s.reply .noRecord []))) ∧
  ∀ (s : State) (c : Nat) (m : Campaign), 1 ≤ c → c ≤ 4 → s.campaign c = some m →
    let running := fun l : List CEntry => s.setCampaign c (some { m with state := .running, entries := l })
    let ovens := allSlots.filter fun n => decide ((s.oven n).state = .inService ∧ (s.oven n).model = m.model)
    let made := ovens.map fun n => ({ oven := n, serial := (s.oven n).serial.getD 0
                                      state := if (s.oven n).firmware ≠ some m.toVersion ∧
                                          (m.fromVersions = [] ∨ ∃ v ∈ m.fromVersions, (s.oven n).firmware = some v) then
                                        .waiting else .skipped } : CEntry)
    let emptied := raise .campaign c (le 1 1) (s.setCampaign c none)
    (finishCheck c s = if (m.state = .running ∨ m.state = .paused) ∧ m.entries ≠ [] ∧
        ∀ e ∈ m.entries, e.state = .done ∨ e.state = .skipped ∨ e.state = .failed then
      raise .campaign c (le 1 0 ++ le 1 (m.entries.countP fun e => e.state = .done) ++
        le 1 (m.entries.countP fun e => e.state = .skipped) ++ le 1 (m.entries.countP fun e => e.state = .failed))
        (s.setCampaign c (some { m with state := .finished }))
      else s) ∧
    (s.Serves (.campaignStart c) → m.state = .defined → s.siteOpen = true → s.clockUnset = false → m.entries = [] →
      s.Settled → (∀ c' ≠ c, s.campaign c' = none) → 1 ≤ m.concurrency →
      let free := fun ch => s.channel ch = none ∧ s.framesQueued ch = 0
      let served := fun e : CEntry => e.state = .waiting ∧ (s.oven e.oven).present = true ∧
        ∀ t ∈ s.tickets, t.oven = e.oven → t.state ≠ .verifying → (s.cls t.cls).blocksUpdates = false
      let counts := le 1 (made.countP fun e => e.state = .waiting) ++ le 1 (made.countP fun e => e.state = .skipped)
      (∀ e ∈ made, served e →
        (∀ x ∈ made, served x → x ≠ e → e.oven < x.oven ∧ m.concurrency = 1) →
        ∀ ch, 1 ≤ ch → ch ≤ 2 → free ch → (∀ k, 1 ≤ k → k < ch → ¬ free k) →
        exec (.campaignStart c) s = .next (State.reply
          (raise .relay ch (le 1 0 ++ le 1 c ++ le 1 e.oven ++ le 3 0) (beginFrames ch e.oven 0 m
            ((running (made.map fun x => if x = e then { x with state := .transferring, channel := some ch } else x)).setChannel
              ch (some { campaign := c, oven := e.oven, stream := .opening, taken := 0, sent := 0, acked := 0, buffer := []
                         timeout := some (min 4294967295 (s.clock + 2)), check := none })))) .ok counts)) ∧
      ((∃ e ∈ made, e.state = .waiting) → (∀ e ∈ made, ¬ served e) ∨ (¬ free 1 ∧ ¬ free 2) →
        exec (.campaignStart c) s = .next ((running made).reply .ok counts))) ∧
    (s.Serves (.campaignStart c) →
      (m.state ≠ .defined → exec (.campaignStart c) s = .next (s.reply .wrongState [])) ∧
      (m.state = .defined → s.siteOpen = false → exec (.campaignStart c) s = .next (s.reply .siteState [])) ∧
      (m.state = .defined → s.siteOpen = true → s.clockUnset = true →
        exec (.campaignStart c) s = .next (s.reply .wrongState [])) ∧
      (m.state = .defined → s.siteOpen = true → s.clockUnset = false → m.entries = [] →
        exec (.campaignStart c) s = .next (State.reply (channelChoice (finishCheck c (running made))) .ok
          (le 1 (made.countP fun e => e.state = .waiting) ++ le 1 (made.countP fun e => e.state = .skipped))))) ∧
    (s.Serves (.campaignPause c) → exec (.campaignPause c) s = .next
      (if m.state = .running then (s.setCampaign c (some { m with state := .paused })).reply .ok []
      else if m.state = .paused then s.reply .ok [] else s.reply .wrongState [])) ∧
    (s.Serves (.campaignResume c) →
      (m.state = .running → exec (.campaignResume c) s = .next (s.reply .ok [])) ∧
      (m.state ≠ .running → m.state ≠ .paused → exec (.campaignResume c) s = .next (s.reply .wrongState [])) ∧
      (m.state = .paused → (∀ n ∈ ovens, ∃ e ∈ m.entries, e.oven = n ∧ (s.oven n).serial = some e.serial) →
        exec (.campaignResume c) s = .next (State.reply
          (gateCampaign c (channelChoice (finishCheck c (running m.entries)))) .ok []))) ∧
    (s.Serves (.campaignCancel c) →
      (m.state = .cancelling → exec (.campaignCancel c) s = .next (s.reply .ok [])) ∧
      (m.state = .defined ∨ m.state = .finished → exec (.campaignCancel c) s = .next (emptied.reply .ok [])) ∧
      (m.state = .running ∨ m.state = .paused → s.Settled → (∀ c' ≠ c, s.campaign c' = none) →
        (∀ e ∈ m.entries, e.state = .waiting ∨ e.state = .done ∨ e.state = .failed ∨ e.state = .skipped) →
        exec (.campaignCancel c) s = .next (emptied.reply .ok [])) ∧
      (m.state = .running ∨ m.state = .paused → s.Settled → (m.entries.map CEntry.oven).Nodup →
        (∀ e ∈ m.entries, e.state = .transferring ∨ e.state = .suspended →
          ∃ ch ∈ e.channel, 1 ≤ ch ∧ ch ≤ 2 ∧ ∃ b ∈ s.channel ch, b.campaign = c ∧ b.oven = e.oven) →
        let aborted := (m.entries.filter fun e => e.state = .transferring ∨ e.state = .suspended).foldl
          (fun t e => t.released (e.channel.getD 0) c e.oven 3 true) s
        let dropped := (m.entries.filter fun e => e.state = .staged).foldl (fun t e =>
          deliver (ovenFrame .updateRelay e.oven (.discard 0 (Config.imageDropVersion t.draws))) { t with draws := t.draws + 1 })
          aborted
        let applying := m.entries.filter fun e => e.state = .applying
        let left := if applying = [] then raise .campaign c (le 1 1) (dropped.setCampaign c none)
          else dropped.setCampaign c (some { m with state := .cancelling, entries := applying })
        exec (.campaignCancel c) s = .next ((channelChoice left).reply .ok []) ∧
        ((∀ c' ≠ c, s.campaign c' = none) → exec (.campaignCancel c) s = .next (left.reply .ok [])))) ∧
    (s.Serves (.campaignClear c) → exec (.campaignClear c) s = .next
      (if m.state = .finished then (s.setCampaign c none).reply .ok [] else s.reply .wrongState [])) ∧
    (∀ n e, s.centry c n = some e →
      let minute := s.clock / 60 % 1440
      let inside := m.windowStart = m.windowEnd ∨
        (m.windowStart < m.windowEnd ∧ m.windowStart ≤ minute ∧ minute < m.windowEnd) ∨
        (m.windowEnd < m.windowStart ∧ (m.windowStart ≤ minute ∨ minute < m.windowEnd))
      (e.state ≠ .staged → gate c n s = s) ∧ (m.state ≠ .running → gate c n s = s) ∧
      (s.clockUnset = true → gate c n s = s) ∧ (¬ inside → gate c n s = s) ∧
      ((s.oven n).present = false → gate c n s = s) ∧ ((s.permit n).isSome = true → gate c n s = s) ∧
      (∀ h ∈ (s.oven n).hygiene, h.state = .cleaning → gate c n s = s) ∧ ((s.oven n).locks ≠ {} → gate c n s = s) ∧
      (e.state = .staged → m.state = .running → s.clockUnset = false → inside → (s.oven n).present = true →
        s.permit n = none → (∀ h ∈ (s.oven n).hygiene, h.state ≠ .cleaning) → (s.oven n).locks = {} → s.Settled → isSlot n →
        (s.oven n).state = .inService → s.lockView n = {} →
        let w := (s.setOven n { s.oven n with locks := { update := true } }).modCEntry c n fun x =>
          { x with state := .applying, deadline := some (min 4294967295 (s.clock + 900)) }
        gate c n s = raise .update n (le 1 2 ++ le 1 c ++ le 1 0 ++ le 1 e.attempts)
          (deliver (ovenFrame .registry n (.lockState { update := true }))
            (deliver (ovenFrame .updateRelay n (.apply m.toVersion)) w)))) ∧
    (s.Live →
      let opens := m.windowStart ≠ m.windowEnd ∧ s.clock % 60 = 0 ∧ s.clock / 60 % 1440 = m.windowStart
      (¬ opens → exec (.windowStart c) s = .next s) ∧
      (opens → exec (.windowStart c) s = .next (gateCampaign c s)) ∧
      ∀ e, opens → m.entries.filter (fun x => x.state = .staged) = [e] → s.centry c e.oven = some e → s.Settled →
        m.state = .running → s.clockUnset = false → isSlot e.oven → (s.oven e.oven).state = .inService →
        (s.oven e.oven).present = true → s.permit e.oven = none → (∀ h ∈ (s.oven e.oven).hygiene, h.state ≠ .cleaning) →
        (s.oven e.oven).locks = {} → s.lockView e.oven = {} →
        let w := (s.setOven e.oven { s.oven e.oven with locks := { update := true } }).modCEntry c e.oven fun x =>
          { x with state := .applying, deadline := some (min 4294967295 (s.clock + 900)) }
        exec (.windowStart c) s = .next (raise .update e.oven (le 1 2 ++ le 1 c ++ le 1 0 ++ le 1 e.attempts)
          (deliver (ovenFrame .registry e.oven (.lockState { update := true }))
            (deliver (ovenFrame .updateRelay e.oven (.apply m.toVersion)) w))))

/-- R161, R163 to R172, R175: image blocks, the frames they become, the oven's answers and the relay's deadlines: what moves in
the channel and the entry; a failed attempt, of an entry with a channel (frames withdrawn, IMAGE_ABORT at a HOLD or check
deadline, RELEASED with outcome FAILED) or without one, of a RETIRING oven and in a campaign that is CANCELLING (R178); a
suspension. Frames are placed while the transmitter is held or free with nothing queued, as the transfer has them ready. The
lock view derived after the steps of R161 (A28), the one notice of a RETIRING oven's attempt (A27), the CANCELLED notice
without counts (A37), that a free transmitter takes the first of several ready frames before the next is placed (A39), and the
suspension of an OPENING transfer at its third timeout (A46), are the model's choices; the offset of a RELEASED notice is a
free value (A16): this holds for every value of it. -/
def Obligations.ImagesAreRelayed : Prop :=
  (∀ (s : State) (ch offset : Nat) (bytes : List Byte), s.Serves (.imageBlock ch offset bytes) →
    (ch < 1 ∨ 2 < ch ∨ bytes.length = 0 ∨ 256 < bytes.length →
      exec (.imageBlock ch offset bytes) s = .next (s.reply .range [])) ∧
    (1 ≤ ch → ch ≤ 2 → 1 ≤ bytes.length → bytes.length ≤ 256 →
      (s.channel ch = none → exec (.imageBlock ch offset bytes) s = .next (s.reply .wrongState [])) ∧
      ∀ b m, s.channel ch = some b → s.campaign b.campaign = some m →
        let room := 2048 - (b.taken - b.acked)
        let b' := { b with buffer := b.buffer ++ bytes, taken := b.taken + bytes.length }
        (offset ≠ b.taken → exec (.imageBlock ch offset bytes) s = .next (s.reply .offset (le 3 b.taken))) ∧
        (offset = b.taken → m.imageSize < offset + bytes.length →
          exec (.imageBlock ch offset bytes) s = .next (s.reply .range [])) ∧
        (offset = b.taken → offset + bytes.length ≤ m.imageSize → room < bytes.length →
          exec (.imageBlock ch offset bytes) s = .next (s.reply .full (le 2 room))) ∧
        (offset = b.taken → offset + bytes.length ≤ m.imageSize → bytes.length ≤ room →
          (b.stream ≠ .streaming ∨ 8 ≤ s.framesQueued ch → s.Settled →
            exec (.imageBlock ch offset bytes) s = .next ((s.setChannel ch (some b')).reply .ok [])) ∧
          (b.stream = .streaming → s.framesQueued ch = 7 → s.held = true → s.image.length < 16 →
            b.sent + 6 ≤ b'.taken ∨ (b'.taken = m.imageSize ∧ b.sent < m.imageSize) →
            let data := (b'.buffer.drop (b.sent - b.acked)).take (min (6 - b.sent % 6) (m.imageSize - b.sent))
            let frame : OutFrame :=
              { payload := .imageData (b.sent / 6 % 65536) data, producer := .updateRelay, mark := .channel ch, dest := b.oven }
            let timer := if b.timeout = none ∧ b.acked < b.sent + data.length then some (min 4294967295 (s.clock + 2))
              else b.timeout
            exec (.imageBlock ch offset bytes) s = .next (State.reply (State.setChannel { s with image := s.image ++ [frame] }
              ch (some { b' with sent := b.sent + data.length, timeout := timer })) .ok [])) ∧
          (b.stream = .streaming → s.Settled → exec (.imageBlock ch offset bytes) s = .next
            (State.reply (streamed ch m b' (s.setChannel ch (some b'))) .ok []))))) ∧
  (∀ (s : State) (ch k : Nat) (b : Binding) (m : Campaign), s.channel ch = some b → s.campaign b.campaign = some m →
    fillImage 0 ch s = s ∧
    fillImage (k + 1) ch s = if b.stream = .streaming ∧ s.framesQueued ch < 8 ∧ b.Ready m then
      fillImage k ch ((enqueue (imageAt ch m b) s).setChannel ch (some (s.sentOn m b))) else s) ∧
  (∀ (s : State) (cause c n : Nat) (m : Campaign) (e : CEntry), s.campaign c = some m → m.state = .running →
    (s.oven n).state = .inService → s.centry c n = some e → e.channel = none →
    let w := s.modCEntry c n fun x => { x with
      attempts := e.attempts + 1, state := if e.attempts = 0 then .waiting else .failed, deadline := none, timeouts := 0 }
    failedAttempt cause c n s = channelChoice (finishCheck c (raise .update n
      (le 1 4 ++ le 1 c ++ le 1 cause ++ le 1 (e.attempts + 1))
      (if e.attempts = 0 then w else routeFault n 0xFF03 .part w)))) ∧
  (∀ (s : State) (cause c n : Nat) (m : Campaign) (e : CEntry), s.campaign c = some m → s.centry c n = some e →
    let counted := fun x : CEntry => { x with
      channel := none, attempts := e.attempts + 1, state := if e.attempts = 0 then .waiting else .failed
      deadline := none, timeouts := 0 }
    let failed := raise .update n (le 1 4 ++ le 1 c ++ le 1 cause ++ le 1 (e.attempts + 1))
    let uncounted := raise .update n (le 1 4 ++ le 1 c ++ le 1 cause ++ le 1 e.attempts)
    (∀ ch b, e.channel = some ch → 1 ≤ ch → ch ≤ 2 → s.channel ch = some b → b.campaign = c → b.oven = n → s.Settled →
      let w := s.released ch c n 2 (decide (cause = 2 ∨ cause = 4))
      let v := w.modCEntry c n counted
      (m.state ≠ .cancelling → (s.oven n).state ≠ .retiring → failedAttempt cause c n s = channelChoice (finishCheck c
        (failed (if e.attempts = 0 then v else routeFault n 0xFF03 .part v)))) ∧
      (m.state ≠ .cancelling → (s.oven n).state = .retiring →
        failedAttempt cause c n s = channelChoice (finishCheck c ((uncounted w).removeCEntry c n)))) ∧
    (e.channel = none →
      (m.state ≠ .cancelling → (s.oven n).state ≠ .retiring →
        let v := s.modCEntry c n counted
        failedAttempt cause c n s = channelChoice (finishCheck c
          (failed (if e.attempts = 0 then v else routeFault n 0xFF03 .part v)))) ∧
      (m.state ≠ .cancelling → (s.oven n).state = .retiring →
        failedAttempt cause c n s = channelChoice (finishCheck c ((uncounted s).removeCEntry c n))) ∧
      (m.state = .cancelling →
        let left := (uncounted (deriveLock n (s.modCEntry c n fun x => { x with
          state := .failed, deadline := none, timeouts := 0 }))).removeCEntry c n
        failedAttempt cause c n s = channelChoice (if m.entries.filter (fun x => decide (x.oven ≠ n)) = [] then
          raise .campaign c (le 1 1) (left.setCampaign c none) else left)))) ∧
  (∀ (s : State) (f : InFrame) (rest : List InFrame) (ch : Nat) (b : Binding) (m : Campaign),
    let n := f.source
    let u := s.afterHearing f rest
    1 ≤ ch → ch ≤ 2 → s.channel ch = some b → b.oven = n → s.campaign b.campaign = some m →
    (∀ k b', s.channel k = some b' → b'.oven = n → k = ch) →
    let patient := fun t : State => t.modCEntry b.campaign n fun x => { x with timeouts := 0 }
    let offset := numAt f.data 0 3
    (b.stream ≠ .opening → (s.Hears .imageReady f rest → exec .imageReady s = .next u) ∧
      (s.Hears .imageRefuse f rest → exec .imageRefuse s = .next u)) ∧
    (b.stream ≠ .streaming → (s.Hears .imageAck f rest → exec .imageAck s = .next u) ∧
      (s.Hears .imageCheck f rest → exec .imageCheck s = .next u)) ∧
    (b.stream = .opening →
      (s.Hears .imageReady f rest → s.Settled → frameReady m.imageSize b = false → exec .imageReady s = .next
        (patient (u.setChannel ch (some { b with stream := .streaming, timeout := none })))) ∧
      (s.Hears .imageReady f rest → s.Settled →
        let b' := { b with stream := .streaming, timeout := none }
        exec .imageReady s = .next (streamed ch m b' (patient (u.setChannel ch (some b'))))) ∧
      (s.Hears .imageRefuse f rest →
        (b.acked = 0 → exec .imageRefuse s = .next (failedAttempt 1 b.campaign n u)) ∧
        (b.acked ≠ 0 → s.held = true →
          let w := (withdrawImage ch u).setChannel ch (some { b with
            taken := 0, sent := 0, acked := 0, buffer := [], timeout := some (min 4294967295 (s.clock + 2)) })
          exec .imageRefuse s = .next (raise .relay ch (le 1 0 ++ le 1 b.campaign ++ le 1 n ++ le 3 0)
            (enqueue (imageFrame ch n (.imageBegin1 m.imageCrc m.toVersion))
              (enqueue (imageFrame ch n (.imageBegin0 m.imageSize 0)) w)))))) ∧
    (b.stream = .streaming →
      let takes := b.acked < offset ∧ offset ≤ b.sent ∧ (offset % 6 = 0 ∨ offset = m.imageSize)
      (s.Hears .imageAck f rest → ¬ takes → exec .imageAck s = .next u) ∧
      (s.Hears .imageAck f rest → takes → s.Settled → frameReady m.imageSize b = false → exec .imageAck s = .next
        (patient (u.setChannel ch (some { b with
          buffer := b.buffer.drop (offset - b.acked), acked := offset
          timeout := if offset < b.sent then some (min 4294967295 (s.clock + 2)) else none
          check := if offset = m.imageSize then some (min 4294967295 (s.clock + 30)) else b.check })))) ∧
      (s.Hears .imageAck f rest → takes → s.Settled →
        let b' := { b with
          buffer := b.buffer.drop (offset - b.acked), acked := offset
          timeout := if offset < b.sent then some (min 4294967295 (s.clock + 2)) else none
          check := if offset = m.imageSize then some (min 4294967295 (s.clock + 30)) else b.check }
        exec .imageAck s = .next (streamed ch m b' (patient (u.setChannel ch (some b'))))) ∧
      ∀ e, s.Hears .imageCheck f rest → s.centry b.campaign n = some e →
        (b.acked ≠ m.imageSize ∨ e.state ≠ .transferring → exec .imageCheck s = .next u) ∧
        (b.acked = m.imageSize → e.state = .transferring → numAt f.data 0 1 ≠ 0 →
          exec .imageCheck s = .next (failedAttempt 3 b.campaign n u)) ∧
        (b.acked = m.imageSize → e.state = .transferring → numAt f.data 0 1 = 0 →
          let released := raise .relay ch
            (le 1 1 ++ le 1 b.campaign ++ le 1 n ++ le 3 (Config.releasedOffset s.draws) ++ le 1 1)
            { (withdrawImage ch u).setChannel ch none with draws := s.draws + 1 }
          exec .imageCheck s = .next (channelChoice (gate b.campaign n (raise .update n
            (le 1 0 ++ le 1 b.campaign ++ le 1 0 ++ le 1 e.attempts)
            (released.modCEntry b.campaign n fun x => { x with state := .staged, channel := none })))))) ) ∧
  ∀ (s : State) (t : Nat), s.Live → t ≤ s.clock →
    (∀ c n e, s.centry c n = some e → e.deadline = some t →
      (e.state = .suspended → exec (.entryHoldDeadline c n) s = .next (failedAttempt 2 c n s)) ∧
      (e.state = .applying → exec (.applyDeadline c n) s = .next (leaveCheck n (deriveLock n (failedAttempt 6 c n s))))) ∧
    ∀ ch b e m, 1 ≤ ch → ch ≤ 2 → s.channel ch = some b → s.centry b.campaign b.oven = some e →
      s.campaign b.campaign = some m →
      let count := e.timeouts + 1
      let back := (withdrawImage ch s).setChannel ch (some { b with
        sent := b.acked, timeout := if b.stream = .opening ∧ count < 3 then some (min 4294967295 (s.clock + 2)) else none
        stream := if 3 ≤ count then .held else b.stream })
      (b.check = some t → exec (.checkDeadline ch) s = .next (failedAttempt 4 b.campaign b.oven s)) ∧
      (b.timeout = some t → 3 ≤ count → exec (.acknowledgementTimeout ch) s = .next (raise .update b.oven
        (le 1 1 ++ le 1 b.campaign ++ le 1 0 ++ le 1 e.attempts) (back.modCEntry b.campaign b.oven fun x => { x with
          timeouts := count, state := .suspended, deadline := some (min 4294967295 (s.clock + 600)) }))) ∧
      (b.timeout = some t → count < 3 → b.stream = .opening → s.held = true →
        exec (.acknowledgementTimeout ch) s = .next (enqueue (imageFrame ch b.oven (.imageBegin1 m.imageCrc m.toVersion))
          (enqueue (imageFrame ch b.oven (.imageBegin0 m.imageSize b.acked))
            (back.modCEntry b.campaign b.oven fun x => { x with timeouts := count })))) ∧
      (b.timeout = some t → count < 3 → b.stream = .streaming → s.held = true →
        exec (.acknowledgementTimeout ch) s = .next (fillImage 8 ch
          (back.modCEntry b.campaign b.oven fun x => { x with timeouts := count }))) ∧
      (b.timeout = some t → count < 3 → b.stream = .streaming → s.Settled →
        exec (.acknowledgementTimeout ch) s = .next (streamed ch m { b with sent := b.acked, timeout := none }
          (back.modCEntry b.campaign b.oven fun x => { x with timeouts := count })))

/-! ### Invariants -/

/-- The state right after reset is safe: bus counts and levels, queues, notice set, barred list and the transmitter's choice;
and its records are sound: tickets, permits, loaded sets, distribution slots and campaigns. -/
def Obligations.ResetIsSafe : Prop := State.reset.Safe ∧ State.reset.RecordsOk

/-- R2, R6, R7, R9, R10, R13 to R15, R24, R182, R195, section 1.5, section 1.9: from every safe state every step, whatever the
command, gives a safe state: the counts stay in their ranges, no queue passes its capacity, URGENT holds one standing frame of
a kind for an oven, the notice set one entry for a key and at most 63 ordinary ones, the barred list at most eight serials,
none twice, and a free transmitter outside BUS_OFF leaves no frame waiting. And where the records are sound they stay so: at
most 64 tickets (R141), no number twice (R46, R141) and in no class more than its cap (R133); the permit numbers of the ovens
differ (R46, R90); a loaded set has at most 64 entries, no version twice and one in transfer at most (R68); a bound
distribution slot names an entry in transfer of its oven, and no two slots name one oven (R68, R77); a campaign has its
entries in ascending slot order, one an oven at most (R156). That the tickets are kept in ascending number is the model's
choice of a canonical order (A41). -/
def Obligations.EveryStepKeepsSafe : Prop :=
  ∀ s t : State, s.Safe → step s = .next t → t.Safe ∧ (s.RecordsOk → t.RecordsOk)
end

