-- ==== Sys2Proof/Laws/State.lean ====
section
/-! SUPPORT. What the named record updates of the state leave and change: one lemma for each field of each update, true by
`rfl`, so that no later proof unfolds an update. -/

namespace Sys2Proof.Machine

set_option Elab.async false

variable (s : State)

/-! ### setOven -/

@[simp] theorem State.setOven_pending (n : Nat) (o : Oven) : (s.setOven n o).pending = s.pending := rfl
@[simp] theorem State.setOven_draws (n : Nat) (o : Oven) : (s.setOven n o).draws = s.draws := rfl
@[simp] theorem State.setOven_power (n : Nat) (o : Oven) : (s.setOven n o).power = s.power := rfl
@[simp] theorem State.setOven_clock (n : Nat) (o : Oven) : (s.setOven n o).clock = s.clock := rfl
@[simp] theorem State.setOven_clockUnset (n : Nat) (o : Oven) : (s.setOven n o).clockUnset = s.clockUnset := rfl
@[simp] theorem State.setOven_bitRate500 (n : Nat) (o : Oven) : (s.setOven n o).bitRate500 = s.bitRate500 := rfl
@[simp] theorem State.setOven_tec (n : Nat) (o : Oven) : (s.setOven n o).tec = s.tec := rfl
@[simp] theorem State.setOven_rec (n : Nat) (o : Oven) : (s.setOven n o).rec_ = s.rec_ := rfl
@[simp] theorem State.setOven_busOff (n : Nat) (o : Oven) : (s.setOven n o).busOff = s.busOff := rfl
@[simp] theorem State.setOven_inbound (n : Nat) (o : Oven) : (s.setOven n o).inbound = s.inbound := rfl
@[simp] theorem State.setOven_urgent (n : Nat) (o : Oven) : (s.setOven n o).urgent = s.urgent := rfl
@[simp] theorem State.setOven_answer (n : Nat) (o : Oven) : (s.setOven n o).answer = s.answer := rfl
@[simp] theorem State.setOven_bulk (n : Nat) (o : Oven) : (s.setOven n o).bulk = s.bulk := rfl
@[simp] theorem State.setOven_image (n : Nat) (o : Oven) : (s.setOven n o).image = s.image := rfl
@[simp] theorem State.setOven_transmitter (n : Nat) (o : Oven) : (s.setOven n o).transmitter = s.transmitter := rfl
@[simp] theorem State.setOven_levels (n : Nat) (o : Oven) : (s.setOven n o).levels = s.levels := rfl
@[simp] theorem State.setOven_overruns (n : Nat) (o : Oven) : (s.setOven n o).overruns = s.overruns := rfl
@[simp] theorem State.setOven_discarded (n : Nat) (o : Oven) : (s.setOven n o).discarded = s.discarded := rfl
@[simp] theorem State.setOven_droppedAnswers (n : Nat) (o : Oven) : (s.setOven n o).droppedAnswers = s.droppedAnswers := rfl
@[simp] theorem State.setOven_droppedFrames (n : Nat) (o : Oven) : (s.setOven n o).droppedFrames = s.droppedFrames := rfl
@[simp] theorem State.setOven_lastDropped (n : Nat) (o : Oven) : (s.setOven n o).lastDropped = s.lastDropped := rfl
@[simp] theorem State.setOven_ovens (n : Nat) (o : Oven) : (s.setOven n o).ovens = vset s.ovens n o := rfl
@[simp] theorem State.setOven_barred (n : Nat) (o : Oven) : (s.setOven n o).barred = s.barred := rfl
@[simp] theorem State.setOven_siteOpen (n : Nat) (o : Oven) : (s.setOven n o).siteOpen = s.siteOpen := rfl
@[simp] theorem State.setOven_permitCounter (n : Nat) (o : Oven) : (s.setOven n o).permitCounter = s.permitCounter := rfl
@[simp] theorem State.setOven_ticketCounter (n : Nat) (o : Oven) : (s.setOven n o).ticketCounter = s.ticketCounter := rfl
@[simp] theorem State.setOven_rejoinHeld (n : Nat) (o : Oven) : (s.setOven n o).rejoinHeld = s.rejoinHeld := rfl
@[simp] theorem State.setOven_recipes (n : Nat) (o : Oven) : (s.setOven n o).recipes = s.recipes := rfl
@[simp] theorem State.setOven_loaded (n : Nat) (o : Oven) : (s.setOven n o).loaded = s.loaded := rfl
@[simp] theorem State.setOven_slots (n : Nat) (o : Oven) : (s.setOven n o).slots = s.slots := rfl
@[simp] theorem State.setOven_pointer (n : Nat) (o : Oven) : (s.setOven n o).pointer = s.pointer := rfl
@[simp] theorem State.setOven_permits (n : Nat) (o : Oven) : (s.setOven n o).permits = s.permits := rfl
@[simp] theorem State.setOven_classes (n : Nat) (o : Oven) : (s.setOven n o).classes = s.classes := rfl
@[simp] theorem State.setOven_routes (n : Nat) (o : Oven) : (s.setOven n o).routes = s.routes := rfl
@[simp] theorem State.setOven_tickets (n : Nat) (o : Oven) : (s.setOven n o).tickets = s.tickets := rfl
@[simp] theorem State.setOven_campaigns (n : Nat) (o : Oven) : (s.setOven n o).campaigns = s.campaigns := rfl
@[simp] theorem State.setOven_channels (n : Nat) (o : Oven) : (s.setOven n o).channels = s.channels := rfl
@[simp] theorem State.setOven_port (n : Nat) (o : Oven) : (s.setOven n o).port = s.port := rfl
@[simp] theorem State.setOven_overrun (n : Nat) (o : Oven) : (s.setOven n o).overrun = s.overrun := rfl
@[simp] theorem State.setOven_miso (n : Nat) (o : Oven) : (s.setOven n o).miso = s.miso := rfl
@[simp] theorem State.setOven_notices (n : Nat) (o : Oven) : (s.setOven n o).notices = s.notices := rfl
@[simp] theorem State.setOven_enables (n : Nat) (o : Oven) : (s.setOven n o).enables = s.enables := rfl

/-! ### setLoaded -/

@[simp] theorem State.setLoaded_pending (n : Nat) (l : List Entry) : (s.setLoaded n l).pending = s.pending := rfl
@[simp] theorem State.setLoaded_draws (n : Nat) (l : List Entry) : (s.setLoaded n l).draws = s.draws := rfl
@[simp] theorem State.setLoaded_power (n : Nat) (l : List Entry) : (s.setLoaded n l).power = s.power := rfl
@[simp] theorem State.setLoaded_clock (n : Nat) (l : List Entry) : (s.setLoaded n l).clock = s.clock := rfl
@[simp] theorem State.setLoaded_clockUnset (n : Nat) (l : List Entry) : (s.setLoaded n l).clockUnset = s.clockUnset := rfl
@[simp] theorem State.setLoaded_bitRate500 (n : Nat) (l : List Entry) : (s.setLoaded n l).bitRate500 = s.bitRate500 := rfl
@[simp] theorem State.setLoaded_tec (n : Nat) (l : List Entry) : (s.setLoaded n l).tec = s.tec := rfl
@[simp] theorem State.setLoaded_rec (n : Nat) (l : List Entry) : (s.setLoaded n l).rec_ = s.rec_ := rfl
@[simp] theorem State.setLoaded_busOff (n : Nat) (l : List Entry) : (s.setLoaded n l).busOff = s.busOff := rfl
@[simp] theorem State.setLoaded_inbound (n : Nat) (l : List Entry) : (s.setLoaded n l).inbound = s.inbound := rfl
@[simp] theorem State.setLoaded_urgent (n : Nat) (l : List Entry) : (s.setLoaded n l).urgent = s.urgent := rfl
@[simp] theorem State.setLoaded_answer (n : Nat) (l : List Entry) : (s.setLoaded n l).answer = s.answer := rfl
@[simp] theorem State.setLoaded_bulk (n : Nat) (l : List Entry) : (s.setLoaded n l).bulk = s.bulk := rfl
@[simp] theorem State.setLoaded_image (n : Nat) (l : List Entry) : (s.setLoaded n l).image = s.image := rfl
@[simp] theorem State.setLoaded_transmitter (n : Nat) (l : List Entry) : (s.setLoaded n l).transmitter = s.transmitter := rfl
@[simp] theorem State.setLoaded_levels (n : Nat) (l : List Entry) : (s.setLoaded n l).levels = s.levels := rfl
@[simp] theorem State.setLoaded_overruns (n : Nat) (l : List Entry) : (s.setLoaded n l).overruns = s.overruns := rfl
@[simp] theorem State.setLoaded_discarded (n : Nat) (l : List Entry) : (s.setLoaded n l).discarded = s.discarded := rfl
@[simp] theorem State.setLoaded_droppedAnswers (n : Nat) (l : List Entry) : (s.setLoaded n l).droppedAnswers = s.droppedAnswers := rfl
@[simp] theorem State.setLoaded_droppedFrames (n : Nat) (l : List Entry) : (s.setLoaded n l).droppedFrames = s.droppedFrames := rfl
@[simp] theorem State.setLoaded_lastDropped (n : Nat) (l : List Entry) : (s.setLoaded n l).lastDropped = s.lastDropped := rfl
@[simp] theorem State.setLoaded_ovens (n : Nat) (l : List Entry) : (s.setLoaded n l).ovens = s.ovens := rfl
@[simp] theorem State.setLoaded_barred (n : Nat) (l : List Entry) : (s.setLoaded n l).barred = s.barred := rfl
@[simp] theorem State.setLoaded_siteOpen (n : Nat) (l : List Entry) : (s.setLoaded n l).siteOpen = s.siteOpen := rfl
@[simp] theorem State.setLoaded_permitCounter (n : Nat) (l : List Entry) : (s.setLoaded n l).permitCounter = s.permitCounter := rfl
@[simp] theorem State.setLoaded_ticketCounter (n : Nat) (l : List Entry) : (s.setLoaded n l).ticketCounter = s.ticketCounter := rfl
@[simp] theorem State.setLoaded_rejoinHeld (n : Nat) (l : List Entry) : (s.setLoaded n l).rejoinHeld = s.rejoinHeld := rfl
@[simp] theorem State.setLoaded_recipes (n : Nat) (l : List Entry) : (s.setLoaded n l).recipes = s.recipes := rfl
@[simp] theorem State.setLoaded_loaded (n : Nat) (l : List Entry) : (s.setLoaded n l).loaded = vset s.loaded n l := rfl
@[simp] theorem State.setLoaded_slots (n : Nat) (l : List Entry) : (s.setLoaded n l).slots = s.slots := rfl
@[simp] theorem State.setLoaded_pointer (n : Nat) (l : List Entry) : (s.setLoaded n l).pointer = s.pointer := rfl
@[simp] theorem State.setLoaded_permits (n : Nat) (l : List Entry) : (s.setLoaded n l).permits = s.permits := rfl
@[simp] theorem State.setLoaded_classes (n : Nat) (l : List Entry) : (s.setLoaded n l).classes = s.classes := rfl
@[simp] theorem State.setLoaded_routes (n : Nat) (l : List Entry) : (s.setLoaded n l).routes = s.routes := rfl
@[simp] theorem State.setLoaded_tickets (n : Nat) (l : List Entry) : (s.setLoaded n l).tickets = s.tickets := rfl
@[simp] theorem State.setLoaded_campaigns (n : Nat) (l : List Entry) : (s.setLoaded n l).campaigns = s.campaigns := rfl
@[simp] theorem State.setLoaded_channels (n : Nat) (l : List Entry) : (s.setLoaded n l).channels = s.channels := rfl
@[simp] theorem State.setLoaded_port (n : Nat) (l : List Entry) : (s.setLoaded n l).port = s.port := rfl
@[simp] theorem State.setLoaded_overrun (n : Nat) (l : List Entry) : (s.setLoaded n l).overrun = s.overrun := rfl
@[simp] theorem State.setLoaded_miso (n : Nat) (l : List Entry) : (s.setLoaded n l).miso = s.miso := rfl
@[simp] theorem State.setLoaded_notices (n : Nat) (l : List Entry) : (s.setLoaded n l).notices = s.notices := rfl
@[simp] theorem State.setLoaded_enables (n : Nat) (l : List Entry) : (s.setLoaded n l).enables = s.enables := rfl

/-! ### setPermit -/

@[simp] theorem State.setPermit_pending (n : Nat) (p : Option Permit) : (s.setPermit n p).pending = s.pending := rfl
@[simp] theorem State.setPermit_draws (n : Nat) (p : Option Permit) : (s.setPermit n p).draws = s.draws := rfl
@[simp] theorem State.setPermit_power (n : Nat) (p : Option Permit) : (s.setPermit n p).power = s.power := rfl
@[simp] theorem State.setPermit_clock (n : Nat) (p : Option Permit) : (s.setPermit n p).clock = s.clock := rfl
@[simp] theorem State.setPermit_clockUnset (n : Nat) (p : Option Permit) : (s.setPermit n p).clockUnset = s.clockUnset := rfl
@[simp] theorem State.setPermit_bitRate500 (n : Nat) (p : Option Permit) : (s.setPermit n p).bitRate500 = s.bitRate500 := rfl
@[simp] theorem State.setPermit_tec (n : Nat) (p : Option Permit) : (s.setPermit n p).tec = s.tec := rfl
@[simp] theorem State.setPermit_rec (n : Nat) (p : Option Permit) : (s.setPermit n p).rec_ = s.rec_ := rfl
@[simp] theorem State.setPermit_busOff (n : Nat) (p : Option Permit) : (s.setPermit n p).busOff = s.busOff := rfl
@[simp] theorem State.setPermit_inbound (n : Nat) (p : Option Permit) : (s.setPermit n p).inbound = s.inbound := rfl
@[simp] theorem State.setPermit_urgent (n : Nat) (p : Option Permit) : (s.setPermit n p).urgent = s.urgent := rfl
@[simp] theorem State.setPermit_answer (n : Nat) (p : Option Permit) : (s.setPermit n p).answer = s.answer := rfl
@[simp] theorem State.setPermit_bulk (n : Nat) (p : Option Permit) : (s.setPermit n p).bulk = s.bulk := rfl
@[simp] theorem State.setPermit_image (n : Nat) (p : Option Permit) : (s.setPermit n p).image = s.image := rfl
@[simp] theorem State.setPermit_transmitter (n : Nat) (p : Option Permit) : (s.setPermit n p).transmitter = s.transmitter := rfl
@[simp] theorem State.setPermit_levels (n : Nat) (p : Option Permit) : (s.setPermit n p).levels = s.levels := rfl
@[simp] theorem State.setPermit_overruns (n : Nat) (p : Option Permit) : (s.setPermit n p).overruns = s.overruns := rfl
@[simp] theorem State.setPermit_discarded (n : Nat) (p : Option Permit) : (s.setPermit n p).discarded = s.discarded := rfl
@[simp] theorem State.setPermit_droppedAnswers (n : Nat) (p : Option Permit) : (s.setPermit n p).droppedAnswers = s.droppedAnswers := rfl
@[simp] theorem State.setPermit_droppedFrames (n : Nat) (p : Option Permit) : (s.setPermit n p).droppedFrames = s.droppedFrames := rfl
@[simp] theorem State.setPermit_lastDropped (n : Nat) (p : Option Permit) : (s.setPermit n p).lastDropped = s.lastDropped := rfl
@[simp] theorem State.setPermit_ovens (n : Nat) (p : Option Permit) : (s.setPermit n p).ovens = s.ovens := rfl
@[simp] theorem State.setPermit_barred (n : Nat) (p : Option Permit) : (s.setPermit n p).barred = s.barred := rfl
@[simp] theorem State.setPermit_siteOpen (n : Nat) (p : Option Permit) : (s.setPermit n p).siteOpen = s.siteOpen := rfl
@[simp] theorem State.setPermit_permitCounter (n : Nat) (p : Option Permit) : (s.setPermit n p).permitCounter = s.permitCounter := rfl
@[simp] theorem State.setPermit_ticketCounter (n : Nat) (p : Option Permit) : (s.setPermit n p).ticketCounter = s.ticketCounter := rfl
@[simp] theorem State.setPermit_rejoinHeld (n : Nat) (p : Option Permit) : (s.setPermit n p).rejoinHeld = s.rejoinHeld := rfl
@[simp] theorem State.setPermit_recipes (n : Nat) (p : Option Permit) : (s.setPermit n p).recipes = s.recipes := rfl
@[simp] theorem State.setPermit_loaded (n : Nat) (p : Option Permit) : (s.setPermit n p).loaded = s.loaded := rfl
@[simp] theorem State.setPermit_slots (n : Nat) (p : Option Permit) : (s.setPermit n p).slots = s.slots := rfl
@[simp] theorem State.setPermit_pointer (n : Nat) (p : Option Permit) : (s.setPermit n p).pointer = s.pointer := rfl
@[simp] theorem State.setPermit_permits (n : Nat) (p : Option Permit) : (s.setPermit n p).permits = vset s.permits n p := rfl
@[simp] theorem State.setPermit_classes (n : Nat) (p : Option Permit) : (s.setPermit n p).classes = s.classes := rfl
@[simp] theorem State.setPermit_routes (n : Nat) (p : Option Permit) : (s.setPermit n p).routes = s.routes := rfl
@[simp] theorem State.setPermit_tickets (n : Nat) (p : Option Permit) : (s.setPermit n p).tickets = s.tickets := rfl
@[simp] theorem State.setPermit_campaigns (n : Nat) (p : Option Permit) : (s.setPermit n p).campaigns = s.campaigns := rfl
@[simp] theorem State.setPermit_channels (n : Nat) (p : Option Permit) : (s.setPermit n p).channels = s.channels := rfl
@[simp] theorem State.setPermit_port (n : Nat) (p : Option Permit) : (s.setPermit n p).port = s.port := rfl
@[simp] theorem State.setPermit_overrun (n : Nat) (p : Option Permit) : (s.setPermit n p).overrun = s.overrun := rfl
@[simp] theorem State.setPermit_miso (n : Nat) (p : Option Permit) : (s.setPermit n p).miso = s.miso := rfl
@[simp] theorem State.setPermit_notices (n : Nat) (p : Option Permit) : (s.setPermit n p).notices = s.notices := rfl
@[simp] theorem State.setPermit_enables (n : Nat) (p : Option Permit) : (s.setPermit n p).enables = s.enables := rfl

/-! ### setDistSlot -/

@[simp] theorem State.setDistSlot_pending (k : Nat) (b : Option DistSlot) : (s.setDistSlot k b).pending = s.pending := rfl
@[simp] theorem State.setDistSlot_draws (k : Nat) (b : Option DistSlot) : (s.setDistSlot k b).draws = s.draws := rfl
@[simp] theorem State.setDistSlot_power (k : Nat) (b : Option DistSlot) : (s.setDistSlot k b).power = s.power := rfl
@[simp] theorem State.setDistSlot_clock (k : Nat) (b : Option DistSlot) : (s.setDistSlot k b).clock = s.clock := rfl
@[simp] theorem State.setDistSlot_clockUnset (k : Nat) (b : Option DistSlot) : (s.setDistSlot k b).clockUnset = s.clockUnset := rfl
@[simp] theorem State.setDistSlot_bitRate500 (k : Nat) (b : Option DistSlot) : (s.setDistSlot k b).bitRate500 = s.bitRate500 := rfl
@[simp] theorem State.setDistSlot_tec (k : Nat) (b : Option DistSlot) : (s.setDistSlot k b).tec = s.tec := rfl
@[simp] theorem State.setDistSlot_rec (k : Nat) (b : Option DistSlot) : (s.setDistSlot k b).rec_ = s.rec_ := rfl
@[simp] theorem State.setDistSlot_busOff (k : Nat) (b : Option DistSlot) : (s.setDistSlot k b).busOff = s.busOff := rfl
@[simp] theorem State.setDistSlot_inbound (k : Nat) (b : Option DistSlot) : (s.setDistSlot k b).inbound = s.inbound := rfl
@[simp] theorem State.setDistSlot_urgent (k : Nat) (b : Option DistSlot) : (s.setDistSlot k b).urgent = s.urgent := rfl
@[simp] theorem State.setDistSlot_answer (k : Nat) (b : Option DistSlot) : (s.setDistSlot k b).answer = s.answer := rfl
@[simp] theorem State.setDistSlot_bulk (k : Nat) (b : Option DistSlot) : (s.setDistSlot k b).bulk = s.bulk := rfl
@[simp] theorem State.setDistSlot_image (k : Nat) (b : Option DistSlot) : (s.setDistSlot k b).image = s.image := rfl
@[simp] theorem State.setDistSlot_transmitter (k : Nat) (b : Option DistSlot) : (s.setDistSlot k b).transmitter = s.transmitter := rfl
@[simp] theorem State.setDistSlot_levels (k : Nat) (b : Option DistSlot) : (s.setDistSlot k b).levels = s.levels := rfl
@[simp] theorem State.setDistSlot_overruns (k : Nat) (b : Option DistSlot) : (s.setDistSlot k b).overruns = s.overruns := rfl
@[simp] theorem State.setDistSlot_discarded (k : Nat) (b : Option DistSlot) : (s.setDistSlot k b).discarded = s.discarded := rfl
@[simp] theorem State.setDistSlot_droppedAnswers (k : Nat) (b : Option DistSlot) : (s.setDistSlot k b).droppedAnswers = s.droppedAnswers := rfl
@[simp] theorem State.setDistSlot_droppedFrames (k : Nat) (b : Option DistSlot) : (s.setDistSlot k b).droppedFrames = s.droppedFrames := rfl
@[simp] theorem State.setDistSlot_lastDropped (k : Nat) (b : Option DistSlot) : (s.setDistSlot k b).lastDropped = s.lastDropped := rfl
@[simp] theorem State.setDistSlot_ovens (k : Nat) (b : Option DistSlot) : (s.setDistSlot k b).ovens = s.ovens := rfl
@[simp] theorem State.setDistSlot_barred (k : Nat) (b : Option DistSlot) : (s.setDistSlot k b).barred = s.barred := rfl
@[simp] theorem State.setDistSlot_siteOpen (k : Nat) (b : Option DistSlot) : (s.setDistSlot k b).siteOpen = s.siteOpen := rfl
@[simp] theorem State.setDistSlot_permitCounter (k : Nat) (b : Option DistSlot) : (s.setDistSlot k b).permitCounter = s.permitCounter := rfl
@[simp] theorem State.setDistSlot_ticketCounter (k : Nat) (b : Option DistSlot) : (s.setDistSlot k b).ticketCounter = s.ticketCounter := rfl
@[simp] theorem State.setDistSlot_rejoinHeld (k : Nat) (b : Option DistSlot) : (s.setDistSlot k b).rejoinHeld = s.rejoinHeld := rfl
@[simp] theorem State.setDistSlot_recipes (k : Nat) (b : Option DistSlot) : (s.setDistSlot k b).recipes = s.recipes := rfl
@[simp] theorem State.setDistSlot_loaded (k : Nat) (b : Option DistSlot) : (s.setDistSlot k b).loaded = s.loaded := rfl
@[simp] theorem State.setDistSlot_slots (k : Nat) (b : Option DistSlot) : (s.setDistSlot k b).slots = vset s.slots k b := rfl
@[simp] theorem State.setDistSlot_pointer (k : Nat) (b : Option DistSlot) : (s.setDistSlot k b).pointer = s.pointer := rfl
@[simp] theorem State.setDistSlot_permits (k : Nat) (b : Option DistSlot) : (s.setDistSlot k b).permits = s.permits := rfl
@[simp] theorem State.setDistSlot_classes (k : Nat) (b : Option DistSlot) : (s.setDistSlot k b).classes = s.classes := rfl
@[simp] theorem State.setDistSlot_routes (k : Nat) (b : Option DistSlot) : (s.setDistSlot k b).routes = s.routes := rfl
@[simp] theorem State.setDistSlot_tickets (k : Nat) (b : Option DistSlot) : (s.setDistSlot k b).tickets = s.tickets := rfl
@[simp] theorem State.setDistSlot_campaigns (k : Nat) (b : Option DistSlot) : (s.setDistSlot k b).campaigns = s.campaigns := rfl
@[simp] theorem State.setDistSlot_channels (k : Nat) (b : Option DistSlot) : (s.setDistSlot k b).channels = s.channels := rfl
@[simp] theorem State.setDistSlot_port (k : Nat) (b : Option DistSlot) : (s.setDistSlot k b).port = s.port := rfl
@[simp] theorem State.setDistSlot_overrun (k : Nat) (b : Option DistSlot) : (s.setDistSlot k b).overrun = s.overrun := rfl
@[simp] theorem State.setDistSlot_miso (k : Nat) (b : Option DistSlot) : (s.setDistSlot k b).miso = s.miso := rfl
@[simp] theorem State.setDistSlot_notices (k : Nat) (b : Option DistSlot) : (s.setDistSlot k b).notices = s.notices := rfl
@[simp] theorem State.setDistSlot_enables (k : Nat) (b : Option DistSlot) : (s.setDistSlot k b).enables = s.enables := rfl

/-! ### setCls -/

@[simp] theorem State.setCls_pending (c : Nat) (t : TicketClass) : (s.setCls c t).pending = s.pending := rfl
@[simp] theorem State.setCls_draws (c : Nat) (t : TicketClass) : (s.setCls c t).draws = s.draws := rfl
@[simp] theorem State.setCls_power (c : Nat) (t : TicketClass) : (s.setCls c t).power = s.power := rfl
@[simp] theorem State.setCls_clock (c : Nat) (t : TicketClass) : (s.setCls c t).clock = s.clock := rfl
@[simp] theorem State.setCls_clockUnset (c : Nat) (t : TicketClass) : (s.setCls c t).clockUnset = s.clockUnset := rfl
@[simp] theorem State.setCls_bitRate500 (c : Nat) (t : TicketClass) : (s.setCls c t).bitRate500 = s.bitRate500 := rfl
@[simp] theorem State.setCls_tec (c : Nat) (t : TicketClass) : (s.setCls c t).tec = s.tec := rfl
@[simp] theorem State.setCls_rec (c : Nat) (t : TicketClass) : (s.setCls c t).rec_ = s.rec_ := rfl
@[simp] theorem State.setCls_busOff (c : Nat) (t : TicketClass) : (s.setCls c t).busOff = s.busOff := rfl
@[simp] theorem State.setCls_inbound (c : Nat) (t : TicketClass) : (s.setCls c t).inbound = s.inbound := rfl
@[simp] theorem State.setCls_urgent (c : Nat) (t : TicketClass) : (s.setCls c t).urgent = s.urgent := rfl
@[simp] theorem State.setCls_answer (c : Nat) (t : TicketClass) : (s.setCls c t).answer = s.answer := rfl
@[simp] theorem State.setCls_bulk (c : Nat) (t : TicketClass) : (s.setCls c t).bulk = s.bulk := rfl
@[simp] theorem State.setCls_image (c : Nat) (t : TicketClass) : (s.setCls c t).image = s.image := rfl
@[simp] theorem State.setCls_transmitter (c : Nat) (t : TicketClass) : (s.setCls c t).transmitter = s.transmitter := rfl
@[simp] theorem State.setCls_levels (c : Nat) (t : TicketClass) : (s.setCls c t).levels = s.levels := rfl
@[simp] theorem State.setCls_overruns (c : Nat) (t : TicketClass) : (s.setCls c t).overruns = s.overruns := rfl
@[simp] theorem State.setCls_discarded (c : Nat) (t : TicketClass) : (s.setCls c t).discarded = s.discarded := rfl
@[simp] theorem State.setCls_droppedAnswers (c : Nat) (t : TicketClass) : (s.setCls c t).droppedAnswers = s.droppedAnswers := rfl
@[simp] theorem State.setCls_droppedFrames (c : Nat) (t : TicketClass) : (s.setCls c t).droppedFrames = s.droppedFrames := rfl
@[simp] theorem State.setCls_lastDropped (c : Nat) (t : TicketClass) : (s.setCls c t).lastDropped = s.lastDropped := rfl
@[simp] theorem State.setCls_ovens (c : Nat) (t : TicketClass) : (s.setCls c t).ovens = s.ovens := rfl
@[simp] theorem State.setCls_barred (c : Nat) (t : TicketClass) : (s.setCls c t).barred = s.barred := rfl
@[simp] theorem State.setCls_siteOpen (c : Nat) (t : TicketClass) : (s.setCls c t).siteOpen = s.siteOpen := rfl
@[simp] theorem State.setCls_permitCounter (c : Nat) (t : TicketClass) : (s.setCls c t).permitCounter = s.permitCounter := rfl
@[simp] theorem State.setCls_ticketCounter (c : Nat) (t : TicketClass) : (s.setCls c t).ticketCounter = s.ticketCounter := rfl
@[simp] theorem State.setCls_rejoinHeld (c : Nat) (t : TicketClass) : (s.setCls c t).rejoinHeld = s.rejoinHeld := rfl
@[simp] theorem State.setCls_recipes (c : Nat) (t : TicketClass) : (s.setCls c t).recipes = s.recipes := rfl
@[simp] theorem State.setCls_loaded (c : Nat) (t : TicketClass) : (s.setCls c t).loaded = s.loaded := rfl
@[simp] theorem State.setCls_slots (c : Nat) (t : TicketClass) : (s.setCls c t).slots = s.slots := rfl
@[simp] theorem State.setCls_pointer (c : Nat) (t : TicketClass) : (s.setCls c t).pointer = s.pointer := rfl
@[simp] theorem State.setCls_permits (c : Nat) (t : TicketClass) : (s.setCls c t).permits = s.permits := rfl
@[simp] theorem State.setCls_classes (c : Nat) (t : TicketClass) : (s.setCls c t).classes = vset s.classes (c + 1) t := rfl
@[simp] theorem State.setCls_routes (c : Nat) (t : TicketClass) : (s.setCls c t).routes = s.routes := rfl
@[simp] theorem State.setCls_tickets (c : Nat) (t : TicketClass) : (s.setCls c t).tickets = s.tickets := rfl
@[simp] theorem State.setCls_campaigns (c : Nat) (t : TicketClass) : (s.setCls c t).campaigns = s.campaigns := rfl
@[simp] theorem State.setCls_channels (c : Nat) (t : TicketClass) : (s.setCls c t).channels = s.channels := rfl
@[simp] theorem State.setCls_port (c : Nat) (t : TicketClass) : (s.setCls c t).port = s.port := rfl
@[simp] theorem State.setCls_overrun (c : Nat) (t : TicketClass) : (s.setCls c t).overrun = s.overrun := rfl
@[simp] theorem State.setCls_miso (c : Nat) (t : TicketClass) : (s.setCls c t).miso = s.miso := rfl
@[simp] theorem State.setCls_notices (c : Nat) (t : TicketClass) : (s.setCls c t).notices = s.notices := rfl
@[simp] theorem State.setCls_enables (c : Nat) (t : TicketClass) : (s.setCls c t).enables = s.enables := rfl

/-! ### setRoute -/

@[simp] theorem State.setRoute_pending (e : Nat) (r : Route) : (s.setRoute e r).pending = s.pending := rfl
@[simp] theorem State.setRoute_draws (e : Nat) (r : Route) : (s.setRoute e r).draws = s.draws := rfl
@[simp] theorem State.setRoute_power (e : Nat) (r : Route) : (s.setRoute e r).power = s.power := rfl
@[simp] theorem State.setRoute_clock (e : Nat) (r : Route) : (s.setRoute e r).clock = s.clock := rfl
@[simp] theorem State.setRoute_clockUnset (e : Nat) (r : Route) : (s.setRoute e r).clockUnset = s.clockUnset := rfl
@[simp] theorem State.setRoute_bitRate500 (e : Nat) (r : Route) : (s.setRoute e r).bitRate500 = s.bitRate500 := rfl
@[simp] theorem State.setRoute_tec (e : Nat) (r : Route) : (s.setRoute e r).tec = s.tec := rfl
@[simp] theorem State.setRoute_rec (e : Nat) (r : Route) : (s.setRoute e r).rec_ = s.rec_ := rfl
@[simp] theorem State.setRoute_busOff (e : Nat) (r : Route) : (s.setRoute e r).busOff = s.busOff := rfl
@[simp] theorem State.setRoute_inbound (e : Nat) (r : Route) : (s.setRoute e r).inbound = s.inbound := rfl
@[simp] theorem State.setRoute_urgent (e : Nat) (r : Route) : (s.setRoute e r).urgent = s.urgent := rfl
@[simp] theorem State.setRoute_answer (e : Nat) (r : Route) : (s.setRoute e r).answer = s.answer := rfl
@[simp] theorem State.setRoute_bulk (e : Nat) (r : Route) : (s.setRoute e r).bulk = s.bulk := rfl
@[simp] theorem State.setRoute_image (e : Nat) (r : Route) : (s.setRoute e r).image = s.image := rfl
@[simp] theorem State.setRoute_transmitter (e : Nat) (r : Route) : (s.setRoute e r).transmitter = s.transmitter := rfl
@[simp] theorem State.setRoute_levels (e : Nat) (r : Route) : (s.setRoute e r).levels = s.levels := rfl
@[simp] theorem State.setRoute_overruns (e : Nat) (r : Route) : (s.setRoute e r).overruns = s.overruns := rfl
@[simp] theorem State.setRoute_discarded (e : Nat) (r : Route) : (s.setRoute e r).discarded = s.discarded := rfl
@[simp] theorem State.setRoute_droppedAnswers (e : Nat) (r : Route) : (s.setRoute e r).droppedAnswers = s.droppedAnswers := rfl
@[simp] theorem State.setRoute_droppedFrames (e : Nat) (r : Route) : (s.setRoute e r).droppedFrames = s.droppedFrames := rfl
@[simp] theorem State.setRoute_lastDropped (e : Nat) (r : Route) : (s.setRoute e r).lastDropped = s.lastDropped := rfl
@[simp] theorem State.setRoute_ovens (e : Nat) (r : Route) : (s.setRoute e r).ovens = s.ovens := rfl
@[simp] theorem State.setRoute_barred (e : Nat) (r : Route) : (s.setRoute e r).barred = s.barred := rfl
@[simp] theorem State.setRoute_siteOpen (e : Nat) (r : Route) : (s.setRoute e r).siteOpen = s.siteOpen := rfl
@[simp] theorem State.setRoute_permitCounter (e : Nat) (r : Route) : (s.setRoute e r).permitCounter = s.permitCounter := rfl
@[simp] theorem State.setRoute_ticketCounter (e : Nat) (r : Route) : (s.setRoute e r).ticketCounter = s.ticketCounter := rfl
@[simp] theorem State.setRoute_rejoinHeld (e : Nat) (r : Route) : (s.setRoute e r).rejoinHeld = s.rejoinHeld := rfl
@[simp] theorem State.setRoute_recipes (e : Nat) (r : Route) : (s.setRoute e r).recipes = s.recipes := rfl
@[simp] theorem State.setRoute_loaded (e : Nat) (r : Route) : (s.setRoute e r).loaded = s.loaded := rfl
@[simp] theorem State.setRoute_slots (e : Nat) (r : Route) : (s.setRoute e r).slots = s.slots := rfl
@[simp] theorem State.setRoute_pointer (e : Nat) (r : Route) : (s.setRoute e r).pointer = s.pointer := rfl
@[simp] theorem State.setRoute_permits (e : Nat) (r : Route) : (s.setRoute e r).permits = s.permits := rfl
@[simp] theorem State.setRoute_classes (e : Nat) (r : Route) : (s.setRoute e r).classes = s.classes := rfl
@[simp] theorem State.setRoute_routes (e : Nat) (r : Route) : (s.setRoute e r).routes = vset s.routes (e + 1) r := rfl
@[simp] theorem State.setRoute_tickets (e : Nat) (r : Route) : (s.setRoute e r).tickets = s.tickets := rfl
@[simp] theorem State.setRoute_campaigns (e : Nat) (r : Route) : (s.setRoute e r).campaigns = s.campaigns := rfl
@[simp] theorem State.setRoute_channels (e : Nat) (r : Route) : (s.setRoute e r).channels = s.channels := rfl
@[simp] theorem State.setRoute_port (e : Nat) (r : Route) : (s.setRoute e r).port = s.port := rfl
@[simp] theorem State.setRoute_overrun (e : Nat) (r : Route) : (s.setRoute e r).overrun = s.overrun := rfl
@[simp] theorem State.setRoute_miso (e : Nat) (r : Route) : (s.setRoute e r).miso = s.miso := rfl
@[simp] theorem State.setRoute_notices (e : Nat) (r : Route) : (s.setRoute e r).notices = s.notices := rfl
@[simp] theorem State.setRoute_enables (e : Nat) (r : Route) : (s.setRoute e r).enables = s.enables := rfl

/-! ### setCampaign -/

@[simp] theorem State.setCampaign_pending (c : Nat) (m : Option Campaign) : (s.setCampaign c m).pending = s.pending := rfl
@[simp] theorem State.setCampaign_draws (c : Nat) (m : Option Campaign) : (s.setCampaign c m).draws = s.draws := rfl
@[simp] theorem State.setCampaign_power (c : Nat) (m : Option Campaign) : (s.setCampaign c m).power = s.power := rfl
@[simp] theorem State.setCampaign_clock (c : Nat) (m : Option Campaign) : (s.setCampaign c m).clock = s.clock := rfl
@[simp] theorem State.setCampaign_clockUnset (c : Nat) (m : Option Campaign) : (s.setCampaign c m).clockUnset = s.clockUnset := rfl
@[simp] theorem State.setCampaign_bitRate500 (c : Nat) (m : Option Campaign) : (s.setCampaign c m).bitRate500 = s.bitRate500 := rfl
@[simp] theorem State.setCampaign_tec (c : Nat) (m : Option Campaign) : (s.setCampaign c m).tec = s.tec := rfl
@[simp] theorem State.setCampaign_rec (c : Nat) (m : Option Campaign) : (s.setCampaign c m).rec_ = s.rec_ := rfl
@[simp] theorem State.setCampaign_busOff (c : Nat) (m : Option Campaign) : (s.setCampaign c m).busOff = s.busOff := rfl
@[simp] theorem State.setCampaign_inbound (c : Nat) (m : Option Campaign) : (s.setCampaign c m).inbound = s.inbound := rfl
@[simp] theorem State.setCampaign_urgent (c : Nat) (m : Option Campaign) : (s.setCampaign c m).urgent = s.urgent := rfl
@[simp] theorem State.setCampaign_answer (c : Nat) (m : Option Campaign) : (s.setCampaign c m).answer = s.answer := rfl
@[simp] theorem State.setCampaign_bulk (c : Nat) (m : Option Campaign) : (s.setCampaign c m).bulk = s.bulk := rfl
@[simp] theorem State.setCampaign_image (c : Nat) (m : Option Campaign) : (s.setCampaign c m).image = s.image := rfl
@[simp] theorem State.setCampaign_transmitter (c : Nat) (m : Option Campaign) : (s.setCampaign c m).transmitter = s.transmitter := rfl
@[simp] theorem State.setCampaign_levels (c : Nat) (m : Option Campaign) : (s.setCampaign c m).levels = s.levels := rfl
@[simp] theorem State.setCampaign_overruns (c : Nat) (m : Option Campaign) : (s.setCampaign c m).overruns = s.overruns := rfl
@[simp] theorem State.setCampaign_discarded (c : Nat) (m : Option Campaign) : (s.setCampaign c m).discarded = s.discarded := rfl
@[simp] theorem State.setCampaign_droppedAnswers (c : Nat) (m : Option Campaign) : (s.setCampaign c m).droppedAnswers = s.droppedAnswers := rfl
@[simp] theorem State.setCampaign_droppedFrames (c : Nat) (m : Option Campaign) : (s.setCampaign c m).droppedFrames = s.droppedFrames := rfl
@[simp] theorem State.setCampaign_lastDropped (c : Nat) (m : Option Campaign) : (s.setCampaign c m).lastDropped = s.lastDropped := rfl
@[simp] theorem State.setCampaign_ovens (c : Nat) (m : Option Campaign) : (s.setCampaign c m).ovens = s.ovens := rfl
@[simp] theorem State.setCampaign_barred (c : Nat) (m : Option Campaign) : (s.setCampaign c m).barred = s.barred := rfl
@[simp] theorem State.setCampaign_siteOpen (c : Nat) (m : Option Campaign) : (s.setCampaign c m).siteOpen = s.siteOpen := rfl
@[simp] theorem State.setCampaign_permitCounter (c : Nat) (m : Option Campaign) : (s.setCampaign c m).permitCounter = s.permitCounter := rfl
@[simp] theorem State.setCampaign_ticketCounter (c : Nat) (m : Option Campaign) : (s.setCampaign c m).ticketCounter = s.ticketCounter := rfl
@[simp] theorem State.setCampaign_rejoinHeld (c : Nat) (m : Option Campaign) : (s.setCampaign c m).rejoinHeld = s.rejoinHeld := rfl
@[simp] theorem State.setCampaign_recipes (c : Nat) (m : Option Campaign) : (s.setCampaign c m).recipes = s.recipes := rfl
@[simp] theorem State.setCampaign_loaded (c : Nat) (m : Option Campaign) : (s.setCampaign c m).loaded = s.loaded := rfl
@[simp] theorem State.setCampaign_slots (c : Nat) (m : Option Campaign) : (s.setCampaign c m).slots = s.slots := rfl
@[simp] theorem State.setCampaign_pointer (c : Nat) (m : Option Campaign) : (s.setCampaign c m).pointer = s.pointer := rfl
@[simp] theorem State.setCampaign_permits (c : Nat) (m : Option Campaign) : (s.setCampaign c m).permits = s.permits := rfl
@[simp] theorem State.setCampaign_classes (c : Nat) (m : Option Campaign) : (s.setCampaign c m).classes = s.classes := rfl
@[simp] theorem State.setCampaign_routes (c : Nat) (m : Option Campaign) : (s.setCampaign c m).routes = s.routes := rfl
@[simp] theorem State.setCampaign_tickets (c : Nat) (m : Option Campaign) : (s.setCampaign c m).tickets = s.tickets := rfl
@[simp] theorem State.setCampaign_campaigns (c : Nat) (m : Option Campaign) : (s.setCampaign c m).campaigns = vset s.campaigns c m := rfl
@[simp] theorem State.setCampaign_channels (c : Nat) (m : Option Campaign) : (s.setCampaign c m).channels = s.channels := rfl
@[simp] theorem State.setCampaign_port (c : Nat) (m : Option Campaign) : (s.setCampaign c m).port = s.port := rfl
@[simp] theorem State.setCampaign_overrun (c : Nat) (m : Option Campaign) : (s.setCampaign c m).overrun = s.overrun := rfl
@[simp] theorem State.setCampaign_miso (c : Nat) (m : Option Campaign) : (s.setCampaign c m).miso = s.miso := rfl
@[simp] theorem State.setCampaign_notices (c : Nat) (m : Option Campaign) : (s.setCampaign c m).notices = s.notices := rfl
@[simp] theorem State.setCampaign_enables (c : Nat) (m : Option Campaign) : (s.setCampaign c m).enables = s.enables := rfl

/-! ### setChannel -/

@[simp] theorem State.setChannel_pending (c : Nat) (b : Option Binding) : (s.setChannel c b).pending = s.pending := rfl
@[simp] theorem State.setChannel_draws (c : Nat) (b : Option Binding) : (s.setChannel c b).draws = s.draws := rfl
@[simp] theorem State.setChannel_power (c : Nat) (b : Option Binding) : (s.setChannel c b).power = s.power := rfl
@[simp] theorem State.setChannel_clock (c : Nat) (b : Option Binding) : (s.setChannel c b).clock = s.clock := rfl
@[simp] theorem State.setChannel_clockUnset (c : Nat) (b : Option Binding) : (s.setChannel c b).clockUnset = s.clockUnset := rfl
@[simp] theorem State.setChannel_bitRate500 (c : Nat) (b : Option Binding) : (s.setChannel c b).bitRate500 = s.bitRate500 := rfl
@[simp] theorem State.setChannel_tec (c : Nat) (b : Option Binding) : (s.setChannel c b).tec = s.tec := rfl
@[simp] theorem State.setChannel_rec (c : Nat) (b : Option Binding) : (s.setChannel c b).rec_ = s.rec_ := rfl
@[simp] theorem State.setChannel_busOff (c : Nat) (b : Option Binding) : (s.setChannel c b).busOff = s.busOff := rfl
@[simp] theorem State.setChannel_inbound (c : Nat) (b : Option Binding) : (s.setChannel c b).inbound = s.inbound := rfl
@[simp] theorem State.setChannel_urgent (c : Nat) (b : Option Binding) : (s.setChannel c b).urgent = s.urgent := rfl
@[simp] theorem State.setChannel_answer (c : Nat) (b : Option Binding) : (s.setChannel c b).answer = s.answer := rfl
@[simp] theorem State.setChannel_bulk (c : Nat) (b : Option Binding) : (s.setChannel c b).bulk = s.bulk := rfl
@[simp] theorem State.setChannel_image (c : Nat) (b : Option Binding) : (s.setChannel c b).image = s.image := rfl
@[simp] theorem State.setChannel_transmitter (c : Nat) (b : Option Binding) : (s.setChannel c b).transmitter = s.transmitter := rfl
@[simp] theorem State.setChannel_levels (c : Nat) (b : Option Binding) : (s.setChannel c b).levels = s.levels := rfl
@[simp] theorem State.setChannel_overruns (c : Nat) (b : Option Binding) : (s.setChannel c b).overruns = s.overruns := rfl
@[simp] theorem State.setChannel_discarded (c : Nat) (b : Option Binding) : (s.setChannel c b).discarded = s.discarded := rfl
@[simp] theorem State.setChannel_droppedAnswers (c : Nat) (b : Option Binding) : (s.setChannel c b).droppedAnswers = s.droppedAnswers := rfl
@[simp] theorem State.setChannel_droppedFrames (c : Nat) (b : Option Binding) : (s.setChannel c b).droppedFrames = s.droppedFrames := rfl
@[simp] theorem State.setChannel_lastDropped (c : Nat) (b : Option Binding) : (s.setChannel c b).lastDropped = s.lastDropped := rfl
@[simp] theorem State.setChannel_ovens (c : Nat) (b : Option Binding) : (s.setChannel c b).ovens = s.ovens := rfl
@[simp] theorem State.setChannel_barred (c : Nat) (b : Option Binding) : (s.setChannel c b).barred = s.barred := rfl
@[simp] theorem State.setChannel_siteOpen (c : Nat) (b : Option Binding) : (s.setChannel c b).siteOpen = s.siteOpen := rfl
@[simp] theorem State.setChannel_permitCounter (c : Nat) (b : Option Binding) : (s.setChannel c b).permitCounter = s.permitCounter := rfl
@[simp] theorem State.setChannel_ticketCounter (c : Nat) (b : Option Binding) : (s.setChannel c b).ticketCounter = s.ticketCounter := rfl
@[simp] theorem State.setChannel_rejoinHeld (c : Nat) (b : Option Binding) : (s.setChannel c b).rejoinHeld = s.rejoinHeld := rfl
@[simp] theorem State.setChannel_recipes (c : Nat) (b : Option Binding) : (s.setChannel c b).recipes = s.recipes := rfl
@[simp] theorem State.setChannel_loaded (c : Nat) (b : Option Binding) : (s.setChannel c b).loaded = s.loaded := rfl
@[simp] theorem State.setChannel_slots (c : Nat) (b : Option Binding) : (s.setChannel c b).slots = s.slots := rfl
@[simp] theorem State.setChannel_pointer (c : Nat) (b : Option Binding) : (s.setChannel c b).pointer = s.pointer := rfl
@[simp] theorem State.setChannel_permits (c : Nat) (b : Option Binding) : (s.setChannel c b).permits = s.permits := rfl
@[simp] theorem State.setChannel_classes (c : Nat) (b : Option Binding) : (s.setChannel c b).classes = s.classes := rfl
@[simp] theorem State.setChannel_routes (c : Nat) (b : Option Binding) : (s.setChannel c b).routes = s.routes := rfl
@[simp] theorem State.setChannel_tickets (c : Nat) (b : Option Binding) : (s.setChannel c b).tickets = s.tickets := rfl
@[simp] theorem State.setChannel_campaigns (c : Nat) (b : Option Binding) : (s.setChannel c b).campaigns = s.campaigns := rfl
@[simp] theorem State.setChannel_channels (c : Nat) (b : Option Binding) : (s.setChannel c b).channels = vset s.channels c b := rfl
@[simp] theorem State.setChannel_port (c : Nat) (b : Option Binding) : (s.setChannel c b).port = s.port := rfl
@[simp] theorem State.setChannel_overrun (c : Nat) (b : Option Binding) : (s.setChannel c b).overrun = s.overrun := rfl
@[simp] theorem State.setChannel_miso (c : Nat) (b : Option Binding) : (s.setChannel c b).miso = s.miso := rfl
@[simp] theorem State.setChannel_notices (c : Nat) (b : Option Binding) : (s.setChannel c b).notices = s.notices := rfl
@[simp] theorem State.setChannel_enables (c : Nat) (b : Option Binding) : (s.setChannel c b).enables = s.enables := rfl

/-! ### drawn -/

@[simp] theorem State.drawn_pending : (s.drawn).pending = s.pending := rfl
@[simp] theorem State.drawn_draws : (s.drawn).draws = s.draws + 1 := rfl
@[simp] theorem State.drawn_power : (s.drawn).power = s.power := rfl
@[simp] theorem State.drawn_clock : (s.drawn).clock = s.clock := rfl
@[simp] theorem State.drawn_clockUnset : (s.drawn).clockUnset = s.clockUnset := rfl
@[simp] theorem State.drawn_bitRate500 : (s.drawn).bitRate500 = s.bitRate500 := rfl
@[simp] theorem State.drawn_tec : (s.drawn).tec = s.tec := rfl
@[simp] theorem State.drawn_rec : (s.drawn).rec_ = s.rec_ := rfl
@[simp] theorem State.drawn_busOff : (s.drawn).busOff = s.busOff := rfl
@[simp] theorem State.drawn_inbound : (s.drawn).inbound = s.inbound := rfl
@[simp] theorem State.drawn_urgent : (s.drawn).urgent = s.urgent := rfl
@[simp] theorem State.drawn_answer : (s.drawn).answer = s.answer := rfl
@[simp] theorem State.drawn_bulk : (s.drawn).bulk = s.bulk := rfl
@[simp] theorem State.drawn_image : (s.drawn).image = s.image := rfl
@[simp] theorem State.drawn_transmitter : (s.drawn).transmitter = s.transmitter := rfl
@[simp] theorem State.drawn_levels : (s.drawn).levels = s.levels := rfl
@[simp] theorem State.drawn_overruns : (s.drawn).overruns = s.overruns := rfl
@[simp] theorem State.drawn_discarded : (s.drawn).discarded = s.discarded := rfl
@[simp] theorem State.drawn_droppedAnswers : (s.drawn).droppedAnswers = s.droppedAnswers := rfl
@[simp] theorem State.drawn_droppedFrames : (s.drawn).droppedFrames = s.droppedFrames := rfl
@[simp] theorem State.drawn_lastDropped : (s.drawn).lastDropped = s.lastDropped := rfl
@[simp] theorem State.drawn_ovens : (s.drawn).ovens = s.ovens := rfl
@[simp] theorem State.drawn_barred : (s.drawn).barred = s.barred := rfl
@[simp] theorem State.drawn_siteOpen : (s.drawn).siteOpen = s.siteOpen := rfl
@[simp] theorem State.drawn_permitCounter : (s.drawn).permitCounter = s.permitCounter := rfl
@[simp] theorem State.drawn_ticketCounter : (s.drawn).ticketCounter = s.ticketCounter := rfl
@[simp] theorem State.drawn_rejoinHeld : (s.drawn).rejoinHeld = s.rejoinHeld := rfl
@[simp] theorem State.drawn_recipes : (s.drawn).recipes = s.recipes := rfl
@[simp] theorem State.drawn_loaded : (s.drawn).loaded = s.loaded := rfl
@[simp] theorem State.drawn_slots : (s.drawn).slots = s.slots := rfl
@[simp] theorem State.drawn_pointer : (s.drawn).pointer = s.pointer := rfl
@[simp] theorem State.drawn_permits : (s.drawn).permits = s.permits := rfl
@[simp] theorem State.drawn_classes : (s.drawn).classes = s.classes := rfl
@[simp] theorem State.drawn_routes : (s.drawn).routes = s.routes := rfl
@[simp] theorem State.drawn_tickets : (s.drawn).tickets = s.tickets := rfl
@[simp] theorem State.drawn_campaigns : (s.drawn).campaigns = s.campaigns := rfl
@[simp] theorem State.drawn_channels : (s.drawn).channels = s.channels := rfl
@[simp] theorem State.drawn_port : (s.drawn).port = s.port := rfl
@[simp] theorem State.drawn_overrun : (s.drawn).overrun = s.overrun := rfl
@[simp] theorem State.drawn_miso : (s.drawn).miso = s.miso := rfl
@[simp] theorem State.drawn_notices : (s.drawn).notices = s.notices := rfl
@[simp] theorem State.drawn_enables : (s.drawn).enables = s.enables := rfl

/-! ### modOven -/

@[simp] theorem State.modOven_pending (n : Nat) (f : Oven → Oven) : (s.modOven n f).pending = s.pending := rfl
@[simp] theorem State.modOven_draws (n : Nat) (f : Oven → Oven) : (s.modOven n f).draws = s.draws := rfl
@[simp] theorem State.modOven_power (n : Nat) (f : Oven → Oven) : (s.modOven n f).power = s.power := rfl
@[simp] theorem State.modOven_clock (n : Nat) (f : Oven → Oven) : (s.modOven n f).clock = s.clock := rfl
@[simp] theorem State.modOven_clockUnset (n : Nat) (f : Oven → Oven) : (s.modOven n f).clockUnset = s.clockUnset := rfl
@[simp] theorem State.modOven_bitRate500 (n : Nat) (f : Oven → Oven) : (s.modOven n f).bitRate500 = s.bitRate500 := rfl
@[simp] theorem State.modOven_tec (n : Nat) (f : Oven → Oven) : (s.modOven n f).tec = s.tec := rfl
@[simp] theorem State.modOven_rec (n : Nat) (f : Oven → Oven) : (s.modOven n f).rec_ = s.rec_ := rfl
@[simp] theorem State.modOven_busOff (n : Nat) (f : Oven → Oven) : (s.modOven n f).busOff = s.busOff := rfl
@[simp] theorem State.modOven_inbound (n : Nat) (f : Oven → Oven) : (s.modOven n f).inbound = s.inbound := rfl
@[simp] theorem State.modOven_urgent (n : Nat) (f : Oven → Oven) : (s.modOven n f).urgent = s.urgent := rfl
@[simp] theorem State.modOven_answer (n : Nat) (f : Oven → Oven) : (s.modOven n f).answer = s.answer := rfl
@[simp] theorem State.modOven_bulk (n : Nat) (f : Oven → Oven) : (s.modOven n f).bulk = s.bulk := rfl
@[simp] theorem State.modOven_image (n : Nat) (f : Oven → Oven) : (s.modOven n f).image = s.image := rfl
@[simp] theorem State.modOven_transmitter (n : Nat) (f : Oven → Oven) : (s.modOven n f).transmitter = s.transmitter := rfl
@[simp] theorem State.modOven_levels (n : Nat) (f : Oven → Oven) : (s.modOven n f).levels = s.levels := rfl
@[simp] theorem State.modOven_overruns (n : Nat) (f : Oven → Oven) : (s.modOven n f).overruns = s.overruns := rfl
@[simp] theorem State.modOven_discarded (n : Nat) (f : Oven → Oven) : (s.modOven n f).discarded = s.discarded := rfl
@[simp] theorem State.modOven_droppedAnswers (n : Nat) (f : Oven → Oven) : (s.modOven n f).droppedAnswers = s.droppedAnswers := rfl
@[simp] theorem State.modOven_droppedFrames (n : Nat) (f : Oven → Oven) : (s.modOven n f).droppedFrames = s.droppedFrames := rfl
@[simp] theorem State.modOven_lastDropped (n : Nat) (f : Oven → Oven) : (s.modOven n f).lastDropped = s.lastDropped := rfl
@[simp] theorem State.modOven_barred (n : Nat) (f : Oven → Oven) : (s.modOven n f).barred = s.barred := rfl
@[simp] theorem State.modOven_siteOpen (n : Nat) (f : Oven → Oven) : (s.modOven n f).siteOpen = s.siteOpen := rfl
@[simp] theorem State.modOven_permitCounter (n : Nat) (f : Oven → Oven) : (s.modOven n f).permitCounter = s.permitCounter := rfl
@[simp] theorem State.modOven_ticketCounter (n : Nat) (f : Oven → Oven) : (s.modOven n f).ticketCounter = s.ticketCounter := rfl
@[simp] theorem State.modOven_rejoinHeld (n : Nat) (f : Oven → Oven) : (s.modOven n f).rejoinHeld = s.rejoinHeld := rfl
@[simp] theorem State.modOven_recipes (n : Nat) (f : Oven → Oven) : (s.modOven n f).recipes = s.recipes := rfl
@[simp] theorem State.modOven_loaded (n : Nat) (f : Oven → Oven) : (s.modOven n f).loaded = s.loaded := rfl
@[simp] theorem State.modOven_slots (n : Nat) (f : Oven → Oven) : (s.modOven n f).slots = s.slots := rfl
@[simp] theorem State.modOven_pointer (n : Nat) (f : Oven → Oven) : (s.modOven n f).pointer = s.pointer := rfl
@[simp] theorem State.modOven_permits (n : Nat) (f : Oven → Oven) : (s.modOven n f).permits = s.permits := rfl
@[simp] theorem State.modOven_classes (n : Nat) (f : Oven → Oven) : (s.modOven n f).classes = s.classes := rfl
@[simp] theorem State.modOven_routes (n : Nat) (f : Oven → Oven) : (s.modOven n f).routes = s.routes := rfl
@[simp] theorem State.modOven_tickets (n : Nat) (f : Oven → Oven) : (s.modOven n f).tickets = s.tickets := rfl
@[simp] theorem State.modOven_campaigns (n : Nat) (f : Oven → Oven) : (s.modOven n f).campaigns = s.campaigns := rfl
@[simp] theorem State.modOven_channels (n : Nat) (f : Oven → Oven) : (s.modOven n f).channels = s.channels := rfl
@[simp] theorem State.modOven_port (n : Nat) (f : Oven → Oven) : (s.modOven n f).port = s.port := rfl
@[simp] theorem State.modOven_overrun (n : Nat) (f : Oven → Oven) : (s.modOven n f).overrun = s.overrun := rfl
@[simp] theorem State.modOven_miso (n : Nat) (f : Oven → Oven) : (s.modOven n f).miso = s.miso := rfl
@[simp] theorem State.modOven_notices (n : Nat) (f : Oven → Oven) : (s.modOven n f).notices = s.notices := rfl
@[simp] theorem State.modOven_enables (n : Nat) (f : Oven → Oven) : (s.modOven n f).enables = s.enables := rfl

/-! ### modEntry -/

@[simp] theorem State.modEntry_pending (n number version : Nat) (f : Entry → Entry) : (s.modEntry n number version f).pending = s.pending := rfl
@[simp] theorem State.modEntry_draws (n number version : Nat) (f : Entry → Entry) : (s.modEntry n number version f).draws = s.draws := rfl
@[simp] theorem State.modEntry_power (n number version : Nat) (f : Entry → Entry) : (s.modEntry n number version f).power = s.power := rfl
@[simp] theorem State.modEntry_clock (n number version : Nat) (f : Entry → Entry) : (s.modEntry n number version f).clock = s.clock := rfl
@[simp] theorem State.modEntry_clockUnset (n number version : Nat) (f : Entry → Entry) : (s.modEntry n number version f).clockUnset = s.clockUnset := rfl
@[simp] theorem State.modEntry_bitRate500 (n number version : Nat) (f : Entry → Entry) : (s.modEntry n number version f).bitRate500 = s.bitRate500 := rfl
@[simp] theorem State.modEntry_tec (n number version : Nat) (f : Entry → Entry) : (s.modEntry n number version f).tec = s.tec := rfl
@[simp] theorem State.modEntry_rec (n number version : Nat) (f : Entry → Entry) : (s.modEntry n number version f).rec_ = s.rec_ := rfl
@[simp] theorem State.modEntry_busOff (n number version : Nat) (f : Entry → Entry) : (s.modEntry n number version f).busOff = s.busOff := rfl
@[simp] theorem State.modEntry_inbound (n number version : Nat) (f : Entry → Entry) : (s.modEntry n number version f).inbound = s.inbound := rfl
@[simp] theorem State.modEntry_urgent (n number version : Nat) (f : Entry → Entry) : (s.modEntry n number version f).urgent = s.urgent := rfl
@[simp] theorem State.modEntry_answer (n number version : Nat) (f : Entry → Entry) : (s.modEntry n number version f).answer = s.answer := rfl
@[simp] theorem State.modEntry_bulk (n number version : Nat) (f : Entry → Entry) : (s.modEntry n number version f).bulk = s.bulk := rfl
@[simp] theorem State.modEntry_image (n number version : Nat) (f : Entry → Entry) : (s.modEntry n number version f).image = s.image := rfl
@[simp] theorem State.modEntry_transmitter (n number version : Nat) (f : Entry → Entry) : (s.modEntry n number version f).transmitter = s.transmitter := rfl
@[simp] theorem State.modEntry_levels (n number version : Nat) (f : Entry → Entry) : (s.modEntry n number version f).levels = s.levels := rfl
@[simp] theorem State.modEntry_overruns (n number version : Nat) (f : Entry → Entry) : (s.modEntry n number version f).overruns = s.overruns := rfl
@[simp] theorem State.modEntry_discarded (n number version : Nat) (f : Entry → Entry) : (s.modEntry n number version f).discarded = s.discarded := rfl
@[simp] theorem State.modEntry_droppedAnswers (n number version : Nat) (f : Entry → Entry) : (s.modEntry n number version f).droppedAnswers = s.droppedAnswers := rfl
@[simp] theorem State.modEntry_droppedFrames (n number version : Nat) (f : Entry → Entry) : (s.modEntry n number version f).droppedFrames = s.droppedFrames := rfl
@[simp] theorem State.modEntry_lastDropped (n number version : Nat) (f : Entry → Entry) : (s.modEntry n number version f).lastDropped = s.lastDropped := rfl
@[simp] theorem State.modEntry_ovens (n number version : Nat) (f : Entry → Entry) : (s.modEntry n number version f).ovens = s.ovens := rfl
@[simp] theorem State.modEntry_barred (n number version : Nat) (f : Entry → Entry) : (s.modEntry n number version f).barred = s.barred := rfl
@[simp] theorem State.modEntry_siteOpen (n number version : Nat) (f : Entry → Entry) : (s.modEntry n number version f).siteOpen = s.siteOpen := rfl
@[simp] theorem State.modEntry_permitCounter (n number version : Nat) (f : Entry → Entry) : (s.modEntry n number version f).permitCounter = s.permitCounter := rfl
@[simp] theorem State.modEntry_ticketCounter (n number version : Nat) (f : Entry → Entry) : (s.modEntry n number version f).ticketCounter = s.ticketCounter := rfl
@[simp] theorem State.modEntry_rejoinHeld (n number version : Nat) (f : Entry → Entry) : (s.modEntry n number version f).rejoinHeld = s.rejoinHeld := rfl
@[simp] theorem State.modEntry_recipes (n number version : Nat) (f : Entry → Entry) : (s.modEntry n number version f).recipes = s.recipes := rfl
@[simp] theorem State.modEntry_slots (n number version : Nat) (f : Entry → Entry) : (s.modEntry n number version f).slots = s.slots := rfl
@[simp] theorem State.modEntry_pointer (n number version : Nat) (f : Entry → Entry) : (s.modEntry n number version f).pointer = s.pointer := rfl
@[simp] theorem State.modEntry_permits (n number version : Nat) (f : Entry → Entry) : (s.modEntry n number version f).permits = s.permits := rfl
@[simp] theorem State.modEntry_classes (n number version : Nat) (f : Entry → Entry) : (s.modEntry n number version f).classes = s.classes := rfl
@[simp] theorem State.modEntry_routes (n number version : Nat) (f : Entry → Entry) : (s.modEntry n number version f).routes = s.routes := rfl
@[simp] theorem State.modEntry_tickets (n number version : Nat) (f : Entry → Entry) : (s.modEntry n number version f).tickets = s.tickets := rfl
@[simp] theorem State.modEntry_campaigns (n number version : Nat) (f : Entry → Entry) : (s.modEntry n number version f).campaigns = s.campaigns := rfl
@[simp] theorem State.modEntry_channels (n number version : Nat) (f : Entry → Entry) : (s.modEntry n number version f).channels = s.channels := rfl
@[simp] theorem State.modEntry_port (n number version : Nat) (f : Entry → Entry) : (s.modEntry n number version f).port = s.port := rfl
@[simp] theorem State.modEntry_overrun (n number version : Nat) (f : Entry → Entry) : (s.modEntry n number version f).overrun = s.overrun := rfl
@[simp] theorem State.modEntry_miso (n number version : Nat) (f : Entry → Entry) : (s.modEntry n number version f).miso = s.miso := rfl
@[simp] theorem State.modEntry_notices (n number version : Nat) (f : Entry → Entry) : (s.modEntry n number version f).notices = s.notices := rfl
@[simp] theorem State.modEntry_enables (n number version : Nat) (f : Entry → Entry) : (s.modEntry n number version f).enables = s.enables := rfl

/-! ### modCampaign -/

@[simp] theorem State.modCampaign_pending (c : Nat) (f : Campaign → Campaign) : (s.modCampaign c f).pending = s.pending := rfl
@[simp] theorem State.modCampaign_draws (c : Nat) (f : Campaign → Campaign) : (s.modCampaign c f).draws = s.draws := rfl
@[simp] theorem State.modCampaign_power (c : Nat) (f : Campaign → Campaign) : (s.modCampaign c f).power = s.power := rfl
@[simp] theorem State.modCampaign_clock (c : Nat) (f : Campaign → Campaign) : (s.modCampaign c f).clock = s.clock := rfl
@[simp] theorem State.modCampaign_clockUnset (c : Nat) (f : Campaign → Campaign) : (s.modCampaign c f).clockUnset = s.clockUnset := rfl
@[simp] theorem State.modCampaign_bitRate500 (c : Nat) (f : Campaign → Campaign) : (s.modCampaign c f).bitRate500 = s.bitRate500 := rfl
@[simp] theorem State.modCampaign_tec (c : Nat) (f : Campaign → Campaign) : (s.modCampaign c f).tec = s.tec := rfl
@[simp] theorem State.modCampaign_rec (c : Nat) (f : Campaign → Campaign) : (s.modCampaign c f).rec_ = s.rec_ := rfl
@[simp] theorem State.modCampaign_busOff (c : Nat) (f : Campaign → Campaign) : (s.modCampaign c f).busOff = s.busOff := rfl
@[simp] theorem State.modCampaign_inbound (c : Nat) (f : Campaign → Campaign) : (s.modCampaign c f).inbound = s.inbound := rfl
@[simp] theorem State.modCampaign_urgent (c : Nat) (f : Campaign → Campaign) : (s.modCampaign c f).urgent = s.urgent := rfl
@[simp] theorem State.modCampaign_answer (c : Nat) (f : Campaign → Campaign) : (s.modCampaign c f).answer = s.answer := rfl
@[simp] theorem State.modCampaign_bulk (c : Nat) (f : Campaign → Campaign) : (s.modCampaign c f).bulk = s.bulk := rfl
@[simp] theorem State.modCampaign_image (c : Nat) (f : Campaign → Campaign) : (s.modCampaign c f).image = s.image := rfl
@[simp] theorem State.modCampaign_transmitter (c : Nat) (f : Campaign → Campaign) : (s.modCampaign c f).transmitter = s.transmitter := rfl
@[simp] theorem State.modCampaign_levels (c : Nat) (f : Campaign → Campaign) : (s.modCampaign c f).levels = s.levels := rfl
@[simp] theorem State.modCampaign_overruns (c : Nat) (f : Campaign → Campaign) : (s.modCampaign c f).overruns = s.overruns := rfl
@[simp] theorem State.modCampaign_discarded (c : Nat) (f : Campaign → Campaign) : (s.modCampaign c f).discarded = s.discarded := rfl
@[simp] theorem State.modCampaign_droppedAnswers (c : Nat) (f : Campaign → Campaign) : (s.modCampaign c f).droppedAnswers = s.droppedAnswers := rfl
@[simp] theorem State.modCampaign_droppedFrames (c : Nat) (f : Campaign → Campaign) : (s.modCampaign c f).droppedFrames = s.droppedFrames := rfl
@[simp] theorem State.modCampaign_lastDropped (c : Nat) (f : Campaign → Campaign) : (s.modCampaign c f).lastDropped = s.lastDropped := rfl
@[simp] theorem State.modCampaign_ovens (c : Nat) (f : Campaign → Campaign) : (s.modCampaign c f).ovens = s.ovens := rfl
@[simp] theorem State.modCampaign_barred (c : Nat) (f : Campaign → Campaign) : (s.modCampaign c f).barred = s.barred := rfl
@[simp] theorem State.modCampaign_siteOpen (c : Nat) (f : Campaign → Campaign) : (s.modCampaign c f).siteOpen = s.siteOpen := rfl
@[simp] theorem State.modCampaign_permitCounter (c : Nat) (f : Campaign → Campaign) : (s.modCampaign c f).permitCounter = s.permitCounter := rfl
@[simp] theorem State.modCampaign_ticketCounter (c : Nat) (f : Campaign → Campaign) : (s.modCampaign c f).ticketCounter = s.ticketCounter := rfl
@[simp] theorem State.modCampaign_rejoinHeld (c : Nat) (f : Campaign → Campaign) : (s.modCampaign c f).rejoinHeld = s.rejoinHeld := rfl
@[simp] theorem State.modCampaign_recipes (c : Nat) (f : Campaign → Campaign) : (s.modCampaign c f).recipes = s.recipes := rfl
@[simp] theorem State.modCampaign_loaded (c : Nat) (f : Campaign → Campaign) : (s.modCampaign c f).loaded = s.loaded := rfl
@[simp] theorem State.modCampaign_slots (c : Nat) (f : Campaign → Campaign) : (s.modCampaign c f).slots = s.slots := rfl
@[simp] theorem State.modCampaign_pointer (c : Nat) (f : Campaign → Campaign) : (s.modCampaign c f).pointer = s.pointer := rfl
@[simp] theorem State.modCampaign_permits (c : Nat) (f : Campaign → Campaign) : (s.modCampaign c f).permits = s.permits := rfl
@[simp] theorem State.modCampaign_classes (c : Nat) (f : Campaign → Campaign) : (s.modCampaign c f).classes = s.classes := rfl
@[simp] theorem State.modCampaign_routes (c : Nat) (f : Campaign → Campaign) : (s.modCampaign c f).routes = s.routes := rfl
@[simp] theorem State.modCampaign_tickets (c : Nat) (f : Campaign → Campaign) : (s.modCampaign c f).tickets = s.tickets := rfl
@[simp] theorem State.modCampaign_channels (c : Nat) (f : Campaign → Campaign) : (s.modCampaign c f).channels = s.channels := rfl
@[simp] theorem State.modCampaign_port (c : Nat) (f : Campaign → Campaign) : (s.modCampaign c f).port = s.port := rfl
@[simp] theorem State.modCampaign_overrun (c : Nat) (f : Campaign → Campaign) : (s.modCampaign c f).overrun = s.overrun := rfl
@[simp] theorem State.modCampaign_miso (c : Nat) (f : Campaign → Campaign) : (s.modCampaign c f).miso = s.miso := rfl
@[simp] theorem State.modCampaign_notices (c : Nat) (f : Campaign → Campaign) : (s.modCampaign c f).notices = s.notices := rfl
@[simp] theorem State.modCampaign_enables (c : Nat) (f : Campaign → Campaign) : (s.modCampaign c f).enables = s.enables := rfl

/-! ### modCEntry -/

@[simp] theorem State.modCEntry_pending (c n : Nat) (f : CEntry → CEntry) : (s.modCEntry c n f).pending = s.pending := rfl
@[simp] theorem State.modCEntry_draws (c n : Nat) (f : CEntry → CEntry) : (s.modCEntry c n f).draws = s.draws := rfl
@[simp] theorem State.modCEntry_power (c n : Nat) (f : CEntry → CEntry) : (s.modCEntry c n f).power = s.power := rfl
@[simp] theorem State.modCEntry_clock (c n : Nat) (f : CEntry → CEntry) : (s.modCEntry c n f).clock = s.clock := rfl
@[simp] theorem State.modCEntry_clockUnset (c n : Nat) (f : CEntry → CEntry) : (s.modCEntry c n f).clockUnset = s.clockUnset := rfl
@[simp] theorem State.modCEntry_bitRate500 (c n : Nat) (f : CEntry → CEntry) : (s.modCEntry c n f).bitRate500 = s.bitRate500 := rfl
@[simp] theorem State.modCEntry_tec (c n : Nat) (f : CEntry → CEntry) : (s.modCEntry c n f).tec = s.tec := rfl
@[simp] theorem State.modCEntry_rec (c n : Nat) (f : CEntry → CEntry) : (s.modCEntry c n f).rec_ = s.rec_ := rfl
@[simp] theorem State.modCEntry_busOff (c n : Nat) (f : CEntry → CEntry) : (s.modCEntry c n f).busOff = s.busOff := rfl
@[simp] theorem State.modCEntry_inbound (c n : Nat) (f : CEntry → CEntry) : (s.modCEntry c n f).inbound = s.inbound := rfl
@[simp] theorem State.modCEntry_urgent (c n : Nat) (f : CEntry → CEntry) : (s.modCEntry c n f).urgent = s.urgent := rfl
@[simp] theorem State.modCEntry_answer (c n : Nat) (f : CEntry → CEntry) : (s.modCEntry c n f).answer = s.answer := rfl
@[simp] theorem State.modCEntry_bulk (c n : Nat) (f : CEntry → CEntry) : (s.modCEntry c n f).bulk = s.bulk := rfl
@[simp] theorem State.modCEntry_image (c n : Nat) (f : CEntry → CEntry) : (s.modCEntry c n f).image = s.image := rfl
@[simp] theorem State.modCEntry_transmitter (c n : Nat) (f : CEntry → CEntry) : (s.modCEntry c n f).transmitter = s.transmitter := rfl
@[simp] theorem State.modCEntry_levels (c n : Nat) (f : CEntry → CEntry) : (s.modCEntry c n f).levels = s.levels := rfl
@[simp] theorem State.modCEntry_overruns (c n : Nat) (f : CEntry → CEntry) : (s.modCEntry c n f).overruns = s.overruns := rfl
@[simp] theorem State.modCEntry_discarded (c n : Nat) (f : CEntry → CEntry) : (s.modCEntry c n f).discarded = s.discarded := rfl
@[simp] theorem State.modCEntry_droppedAnswers (c n : Nat) (f : CEntry → CEntry) : (s.modCEntry c n f).droppedAnswers = s.droppedAnswers := rfl
@[simp] theorem State.modCEntry_droppedFrames (c n : Nat) (f : CEntry → CEntry) : (s.modCEntry c n f).droppedFrames = s.droppedFrames := rfl
@[simp] theorem State.modCEntry_lastDropped (c n : Nat) (f : CEntry → CEntry) : (s.modCEntry c n f).lastDropped = s.lastDropped := rfl
@[simp] theorem State.modCEntry_ovens (c n : Nat) (f : CEntry → CEntry) : (s.modCEntry c n f).ovens = s.ovens := rfl
@[simp] theorem State.modCEntry_barred (c n : Nat) (f : CEntry → CEntry) : (s.modCEntry c n f).barred = s.barred := rfl
@[simp] theorem State.modCEntry_siteOpen (c n : Nat) (f : CEntry → CEntry) : (s.modCEntry c n f).siteOpen = s.siteOpen := rfl
@[simp] theorem State.modCEntry_permitCounter (c n : Nat) (f : CEntry → CEntry) : (s.modCEntry c n f).permitCounter = s.permitCounter := rfl
@[simp] theorem State.modCEntry_ticketCounter (c n : Nat) (f : CEntry → CEntry) : (s.modCEntry c n f).ticketCounter = s.ticketCounter := rfl
@[simp] theorem State.modCEntry_rejoinHeld (c n : Nat) (f : CEntry → CEntry) : (s.modCEntry c n f).rejoinHeld = s.rejoinHeld := rfl
@[simp] theorem State.modCEntry_recipes (c n : Nat) (f : CEntry → CEntry) : (s.modCEntry c n f).recipes = s.recipes := rfl
@[simp] theorem State.modCEntry_loaded (c n : Nat) (f : CEntry → CEntry) : (s.modCEntry c n f).loaded = s.loaded := rfl
@[simp] theorem State.modCEntry_slots (c n : Nat) (f : CEntry → CEntry) : (s.modCEntry c n f).slots = s.slots := rfl
@[simp] theorem State.modCEntry_pointer (c n : Nat) (f : CEntry → CEntry) : (s.modCEntry c n f).pointer = s.pointer := rfl
@[simp] theorem State.modCEntry_permits (c n : Nat) (f : CEntry → CEntry) : (s.modCEntry c n f).permits = s.permits := rfl
@[simp] theorem State.modCEntry_classes (c n : Nat) (f : CEntry → CEntry) : (s.modCEntry c n f).classes = s.classes := rfl
@[simp] theorem State.modCEntry_routes (c n : Nat) (f : CEntry → CEntry) : (s.modCEntry c n f).routes = s.routes := rfl
@[simp] theorem State.modCEntry_tickets (c n : Nat) (f : CEntry → CEntry) : (s.modCEntry c n f).tickets = s.tickets := rfl
@[simp] theorem State.modCEntry_channels (c n : Nat) (f : CEntry → CEntry) : (s.modCEntry c n f).channels = s.channels := rfl
@[simp] theorem State.modCEntry_port (c n : Nat) (f : CEntry → CEntry) : (s.modCEntry c n f).port = s.port := rfl
@[simp] theorem State.modCEntry_overrun (c n : Nat) (f : CEntry → CEntry) : (s.modCEntry c n f).overrun = s.overrun := rfl
@[simp] theorem State.modCEntry_miso (c n : Nat) (f : CEntry → CEntry) : (s.modCEntry c n f).miso = s.miso := rfl
@[simp] theorem State.modCEntry_notices (c n : Nat) (f : CEntry → CEntry) : (s.modCEntry c n f).notices = s.notices := rfl
@[simp] theorem State.modCEntry_enables (c n : Nat) (f : CEntry → CEntry) : (s.modCEntry c n f).enables = s.enables := rfl

/-! ### removeCEntry -/

@[simp] theorem State.removeCEntry_pending (c n : Nat) : (s.removeCEntry c n).pending = s.pending := rfl
@[simp] theorem State.removeCEntry_draws (c n : Nat) : (s.removeCEntry c n).draws = s.draws := rfl
@[simp] theorem State.removeCEntry_power (c n : Nat) : (s.removeCEntry c n).power = s.power := rfl
@[simp] theorem State.removeCEntry_clock (c n : Nat) : (s.removeCEntry c n).clock = s.clock := rfl
@[simp] theorem State.removeCEntry_clockUnset (c n : Nat) : (s.removeCEntry c n).clockUnset = s.clockUnset := rfl
@[simp] theorem State.removeCEntry_bitRate500 (c n : Nat) : (s.removeCEntry c n).bitRate500 = s.bitRate500 := rfl
@[simp] theorem State.removeCEntry_tec (c n : Nat) : (s.removeCEntry c n).tec = s.tec := rfl
@[simp] theorem State.removeCEntry_rec (c n : Nat) : (s.removeCEntry c n).rec_ = s.rec_ := rfl
@[simp] theorem State.removeCEntry_busOff (c n : Nat) : (s.removeCEntry c n).busOff = s.busOff := rfl
@[simp] theorem State.removeCEntry_inbound (c n : Nat) : (s.removeCEntry c n).inbound = s.inbound := rfl
@[simp] theorem State.removeCEntry_urgent (c n : Nat) : (s.removeCEntry c n).urgent = s.urgent := rfl
@[simp] theorem State.removeCEntry_answer (c n : Nat) : (s.removeCEntry c n).answer = s.answer := rfl
@[simp] theorem State.removeCEntry_bulk (c n : Nat) : (s.removeCEntry c n).bulk = s.bulk := rfl
@[simp] theorem State.removeCEntry_image (c n : Nat) : (s.removeCEntry c n).image = s.image := rfl
@[simp] theorem State.removeCEntry_transmitter (c n : Nat) : (s.removeCEntry c n).transmitter = s.transmitter := rfl
@[simp] theorem State.removeCEntry_levels (c n : Nat) : (s.removeCEntry c n).levels = s.levels := rfl
@[simp] theorem State.removeCEntry_overruns (c n : Nat) : (s.removeCEntry c n).overruns = s.overruns := rfl
@[simp] theorem State.removeCEntry_discarded (c n : Nat) : (s.removeCEntry c n).discarded = s.discarded := rfl
@[simp] theorem State.removeCEntry_droppedAnswers (c n : Nat) : (s.removeCEntry c n).droppedAnswers = s.droppedAnswers := rfl
@[simp] theorem State.removeCEntry_droppedFrames (c n : Nat) : (s.removeCEntry c n).droppedFrames = s.droppedFrames := rfl
@[simp] theorem State.removeCEntry_lastDropped (c n : Nat) : (s.removeCEntry c n).lastDropped = s.lastDropped := rfl
@[simp] theorem State.removeCEntry_ovens (c n : Nat) : (s.removeCEntry c n).ovens = s.ovens := rfl
@[simp] theorem State.removeCEntry_barred (c n : Nat) : (s.removeCEntry c n).barred = s.barred := rfl
@[simp] theorem State.removeCEntry_siteOpen (c n : Nat) : (s.removeCEntry c n).siteOpen = s.siteOpen := rfl
@[simp] theorem State.removeCEntry_permitCounter (c n : Nat) : (s.removeCEntry c n).permitCounter = s.permitCounter := rfl
@[simp] theorem State.removeCEntry_ticketCounter (c n : Nat) : (s.removeCEntry c n).ticketCounter = s.ticketCounter := rfl
@[simp] theorem State.removeCEntry_rejoinHeld (c n : Nat) : (s.removeCEntry c n).rejoinHeld = s.rejoinHeld := rfl
@[simp] theorem State.removeCEntry_recipes (c n : Nat) : (s.removeCEntry c n).recipes = s.recipes := rfl
@[simp] theorem State.removeCEntry_loaded (c n : Nat) : (s.removeCEntry c n).loaded = s.loaded := rfl
@[simp] theorem State.removeCEntry_slots (c n : Nat) : (s.removeCEntry c n).slots = s.slots := rfl
@[simp] theorem State.removeCEntry_pointer (c n : Nat) : (s.removeCEntry c n).pointer = s.pointer := rfl
@[simp] theorem State.removeCEntry_permits (c n : Nat) : (s.removeCEntry c n).permits = s.permits := rfl
@[simp] theorem State.removeCEntry_classes (c n : Nat) : (s.removeCEntry c n).classes = s.classes := rfl
@[simp] theorem State.removeCEntry_routes (c n : Nat) : (s.removeCEntry c n).routes = s.routes := rfl
@[simp] theorem State.removeCEntry_tickets (c n : Nat) : (s.removeCEntry c n).tickets = s.tickets := rfl
@[simp] theorem State.removeCEntry_channels (c n : Nat) : (s.removeCEntry c n).channels = s.channels := rfl
@[simp] theorem State.removeCEntry_port (c n : Nat) : (s.removeCEntry c n).port = s.port := rfl
@[simp] theorem State.removeCEntry_overrun (c n : Nat) : (s.removeCEntry c n).overrun = s.overrun := rfl
@[simp] theorem State.removeCEntry_miso (c n : Nat) : (s.removeCEntry c n).miso = s.miso := rfl
@[simp] theorem State.removeCEntry_notices (c n : Nat) : (s.removeCEntry c n).notices = s.notices := rfl
@[simp] theorem State.removeCEntry_enables (c n : Nat) : (s.removeCEntry c n).enables = s.enables := rfl

/-! ### modChannel -/

@[simp] theorem State.modChannel_pending (c : Nat) (f : Binding → Binding) : (s.modChannel c f).pending = s.pending := rfl
@[simp] theorem State.modChannel_draws (c : Nat) (f : Binding → Binding) : (s.modChannel c f).draws = s.draws := rfl
@[simp] theorem State.modChannel_power (c : Nat) (f : Binding → Binding) : (s.modChannel c f).power = s.power := rfl
@[simp] theorem State.modChannel_clock (c : Nat) (f : Binding → Binding) : (s.modChannel c f).clock = s.clock := rfl
@[simp] theorem State.modChannel_clockUnset (c : Nat) (f : Binding → Binding) : (s.modChannel c f).clockUnset = s.clockUnset := rfl
@[simp] theorem State.modChannel_bitRate500 (c : Nat) (f : Binding → Binding) : (s.modChannel c f).bitRate500 = s.bitRate500 := rfl
@[simp] theorem State.modChannel_tec (c : Nat) (f : Binding → Binding) : (s.modChannel c f).tec = s.tec := rfl
@[simp] theorem State.modChannel_rec (c : Nat) (f : Binding → Binding) : (s.modChannel c f).rec_ = s.rec_ := rfl
@[simp] theorem State.modChannel_busOff (c : Nat) (f : Binding → Binding) : (s.modChannel c f).busOff = s.busOff := rfl
@[simp] theorem State.modChannel_inbound (c : Nat) (f : Binding → Binding) : (s.modChannel c f).inbound = s.inbound := rfl
@[simp] theorem State.modChannel_urgent (c : Nat) (f : Binding → Binding) : (s.modChannel c f).urgent = s.urgent := rfl
@[simp] theorem State.modChannel_answer (c : Nat) (f : Binding → Binding) : (s.modChannel c f).answer = s.answer := rfl
@[simp] theorem State.modChannel_bulk (c : Nat) (f : Binding → Binding) : (s.modChannel c f).bulk = s.bulk := rfl
@[simp] theorem State.modChannel_image (c : Nat) (f : Binding → Binding) : (s.modChannel c f).image = s.image := rfl
@[simp] theorem State.modChannel_transmitter (c : Nat) (f : Binding → Binding) : (s.modChannel c f).transmitter = s.transmitter := rfl
@[simp] theorem State.modChannel_levels (c : Nat) (f : Binding → Binding) : (s.modChannel c f).levels = s.levels := rfl
@[simp] theorem State.modChannel_overruns (c : Nat) (f : Binding → Binding) : (s.modChannel c f).overruns = s.overruns := rfl
@[simp] theorem State.modChannel_discarded (c : Nat) (f : Binding → Binding) : (s.modChannel c f).discarded = s.discarded := rfl
@[simp] theorem State.modChannel_droppedAnswers (c : Nat) (f : Binding → Binding) : (s.modChannel c f).droppedAnswers = s.droppedAnswers := rfl
@[simp] theorem State.modChannel_droppedFrames (c : Nat) (f : Binding → Binding) : (s.modChannel c f).droppedFrames = s.droppedFrames := rfl
@[simp] theorem State.modChannel_lastDropped (c : Nat) (f : Binding → Binding) : (s.modChannel c f).lastDropped = s.lastDropped := rfl
@[simp] theorem State.modChannel_ovens (c : Nat) (f : Binding → Binding) : (s.modChannel c f).ovens = s.ovens := rfl
@[simp] theorem State.modChannel_barred (c : Nat) (f : Binding → Binding) : (s.modChannel c f).barred = s.barred := rfl
@[simp] theorem State.modChannel_siteOpen (c : Nat) (f : Binding → Binding) : (s.modChannel c f).siteOpen = s.siteOpen := rfl
@[simp] theorem State.modChannel_permitCounter (c : Nat) (f : Binding → Binding) : (s.modChannel c f).permitCounter = s.permitCounter := rfl
@[simp] theorem State.modChannel_ticketCounter (c : Nat) (f : Binding → Binding) : (s.modChannel c f).ticketCounter = s.ticketCounter := rfl
@[simp] theorem State.modChannel_rejoinHeld (c : Nat) (f : Binding → Binding) : (s.modChannel c f).rejoinHeld = s.rejoinHeld := rfl
@[simp] theorem State.modChannel_recipes (c : Nat) (f : Binding → Binding) : (s.modChannel c f).recipes = s.recipes := rfl
@[simp] theorem State.modChannel_loaded (c : Nat) (f : Binding → Binding) : (s.modChannel c f).loaded = s.loaded := rfl
@[simp] theorem State.modChannel_slots (c : Nat) (f : Binding → Binding) : (s.modChannel c f).slots = s.slots := rfl
@[simp] theorem State.modChannel_pointer (c : Nat) (f : Binding → Binding) : (s.modChannel c f).pointer = s.pointer := rfl
@[simp] theorem State.modChannel_permits (c : Nat) (f : Binding → Binding) : (s.modChannel c f).permits = s.permits := rfl
@[simp] theorem State.modChannel_classes (c : Nat) (f : Binding → Binding) : (s.modChannel c f).classes = s.classes := rfl
@[simp] theorem State.modChannel_routes (c : Nat) (f : Binding → Binding) : (s.modChannel c f).routes = s.routes := rfl
@[simp] theorem State.modChannel_tickets (c : Nat) (f : Binding → Binding) : (s.modChannel c f).tickets = s.tickets := rfl
@[simp] theorem State.modChannel_campaigns (c : Nat) (f : Binding → Binding) : (s.modChannel c f).campaigns = s.campaigns := rfl
@[simp] theorem State.modChannel_port (c : Nat) (f : Binding → Binding) : (s.modChannel c f).port = s.port := rfl
@[simp] theorem State.modChannel_overrun (c : Nat) (f : Binding → Binding) : (s.modChannel c f).overrun = s.overrun := rfl
@[simp] theorem State.modChannel_miso (c : Nat) (f : Binding → Binding) : (s.modChannel c f).miso = s.miso := rfl
@[simp] theorem State.modChannel_notices (c : Nat) (f : Binding → Binding) : (s.modChannel c f).notices = s.notices := rfl
@[simp] theorem State.modChannel_enables (c : Nat) (f : Binding → Binding) : (s.modChannel c f).enables = s.enables := rfl

/-! ### modHygiene -/

@[simp] theorem State.modHygiene_pending (n : Nat) (f : Hygiene → Hygiene) : (s.modHygiene n f).pending = s.pending := rfl
@[simp] theorem State.modHygiene_draws (n : Nat) (f : Hygiene → Hygiene) : (s.modHygiene n f).draws = s.draws := rfl
@[simp] theorem State.modHygiene_power (n : Nat) (f : Hygiene → Hygiene) : (s.modHygiene n f).power = s.power := rfl
@[simp] theorem State.modHygiene_clock (n : Nat) (f : Hygiene → Hygiene) : (s.modHygiene n f).clock = s.clock := rfl
@[simp] theorem State.modHygiene_clockUnset (n : Nat) (f : Hygiene → Hygiene) : (s.modHygiene n f).clockUnset = s.clockUnset := rfl
@[simp] theorem State.modHygiene_bitRate500 (n : Nat) (f : Hygiene → Hygiene) : (s.modHygiene n f).bitRate500 = s.bitRate500 := rfl
@[simp] theorem State.modHygiene_tec (n : Nat) (f : Hygiene → Hygiene) : (s.modHygiene n f).tec = s.tec := rfl
@[simp] theorem State.modHygiene_rec (n : Nat) (f : Hygiene → Hygiene) : (s.modHygiene n f).rec_ = s.rec_ := rfl
@[simp] theorem State.modHygiene_busOff (n : Nat) (f : Hygiene → Hygiene) : (s.modHygiene n f).busOff = s.busOff := rfl
@[simp] theorem State.modHygiene_inbound (n : Nat) (f : Hygiene → Hygiene) : (s.modHygiene n f).inbound = s.inbound := rfl
@[simp] theorem State.modHygiene_urgent (n : Nat) (f : Hygiene → Hygiene) : (s.modHygiene n f).urgent = s.urgent := rfl
@[simp] theorem State.modHygiene_answer (n : Nat) (f : Hygiene → Hygiene) : (s.modHygiene n f).answer = s.answer := rfl
@[simp] theorem State.modHygiene_bulk (n : Nat) (f : Hygiene → Hygiene) : (s.modHygiene n f).bulk = s.bulk := rfl
@[simp] theorem State.modHygiene_image (n : Nat) (f : Hygiene → Hygiene) : (s.modHygiene n f).image = s.image := rfl
@[simp] theorem State.modHygiene_transmitter (n : Nat) (f : Hygiene → Hygiene) : (s.modHygiene n f).transmitter = s.transmitter := rfl
@[simp] theorem State.modHygiene_levels (n : Nat) (f : Hygiene → Hygiene) : (s.modHygiene n f).levels = s.levels := rfl
@[simp] theorem State.modHygiene_overruns (n : Nat) (f : Hygiene → Hygiene) : (s.modHygiene n f).overruns = s.overruns := rfl
@[simp] theorem State.modHygiene_discarded (n : Nat) (f : Hygiene → Hygiene) : (s.modHygiene n f).discarded = s.discarded := rfl
@[simp] theorem State.modHygiene_droppedAnswers (n : Nat) (f : Hygiene → Hygiene) : (s.modHygiene n f).droppedAnswers = s.droppedAnswers := rfl
@[simp] theorem State.modHygiene_droppedFrames (n : Nat) (f : Hygiene → Hygiene) : (s.modHygiene n f).droppedFrames = s.droppedFrames := rfl
@[simp] theorem State.modHygiene_lastDropped (n : Nat) (f : Hygiene → Hygiene) : (s.modHygiene n f).lastDropped = s.lastDropped := rfl
@[simp] theorem State.modHygiene_barred (n : Nat) (f : Hygiene → Hygiene) : (s.modHygiene n f).barred = s.barred := rfl
@[simp] theorem State.modHygiene_siteOpen (n : Nat) (f : Hygiene → Hygiene) : (s.modHygiene n f).siteOpen = s.siteOpen := rfl
@[simp] theorem State.modHygiene_permitCounter (n : Nat) (f : Hygiene → Hygiene) : (s.modHygiene n f).permitCounter = s.permitCounter := rfl
@[simp] theorem State.modHygiene_ticketCounter (n : Nat) (f : Hygiene → Hygiene) : (s.modHygiene n f).ticketCounter = s.ticketCounter := rfl
@[simp] theorem State.modHygiene_rejoinHeld (n : Nat) (f : Hygiene → Hygiene) : (s.modHygiene n f).rejoinHeld = s.rejoinHeld := rfl
@[simp] theorem State.modHygiene_recipes (n : Nat) (f : Hygiene → Hygiene) : (s.modHygiene n f).recipes = s.recipes := rfl
@[simp] theorem State.modHygiene_loaded (n : Nat) (f : Hygiene → Hygiene) : (s.modHygiene n f).loaded = s.loaded := rfl
@[simp] theorem State.modHygiene_slots (n : Nat) (f : Hygiene → Hygiene) : (s.modHygiene n f).slots = s.slots := rfl
@[simp] theorem State.modHygiene_pointer (n : Nat) (f : Hygiene → Hygiene) : (s.modHygiene n f).pointer = s.pointer := rfl
@[simp] theorem State.modHygiene_permits (n : Nat) (f : Hygiene → Hygiene) : (s.modHygiene n f).permits = s.permits := rfl
@[simp] theorem State.modHygiene_classes (n : Nat) (f : Hygiene → Hygiene) : (s.modHygiene n f).classes = s.classes := rfl
@[simp] theorem State.modHygiene_routes (n : Nat) (f : Hygiene → Hygiene) : (s.modHygiene n f).routes = s.routes := rfl
@[simp] theorem State.modHygiene_tickets (n : Nat) (f : Hygiene → Hygiene) : (s.modHygiene n f).tickets = s.tickets := rfl
@[simp] theorem State.modHygiene_campaigns (n : Nat) (f : Hygiene → Hygiene) : (s.modHygiene n f).campaigns = s.campaigns := rfl
@[simp] theorem State.modHygiene_channels (n : Nat) (f : Hygiene → Hygiene) : (s.modHygiene n f).channels = s.channels := rfl
@[simp] theorem State.modHygiene_port (n : Nat) (f : Hygiene → Hygiene) : (s.modHygiene n f).port = s.port := rfl
@[simp] theorem State.modHygiene_overrun (n : Nat) (f : Hygiene → Hygiene) : (s.modHygiene n f).overrun = s.overrun := rfl
@[simp] theorem State.modHygiene_miso (n : Nat) (f : Hygiene → Hygiene) : (s.modHygiene n f).miso = s.miso := rfl
@[simp] theorem State.modHygiene_notices (n : Nat) (f : Hygiene → Hygiene) : (s.modHygiene n f).notices = s.notices := rfl
@[simp] theorem State.modHygiene_enables (n : Nat) (f : Hygiene → Hygiene) : (s.modHygiene n f).enables = s.enables := rfl

/-! ### modRecipe -/

@[simp] theorem State.modRecipe_pending (number version : Nat) (f : Recipe → Recipe) : (s.modRecipe number version f).pending = s.pending := rfl
@[simp] theorem State.modRecipe_draws (number version : Nat) (f : Recipe → Recipe) : (s.modRecipe number version f).draws = s.draws := rfl
@[simp] theorem State.modRecipe_power (number version : Nat) (f : Recipe → Recipe) : (s.modRecipe number version f).power = s.power := rfl
@[simp] theorem State.modRecipe_clock (number version : Nat) (f : Recipe → Recipe) : (s.modRecipe number version f).clock = s.clock := rfl
@[simp] theorem State.modRecipe_clockUnset (number version : Nat) (f : Recipe → Recipe) : (s.modRecipe number version f).clockUnset = s.clockUnset := rfl
@[simp] theorem State.modRecipe_bitRate500 (number version : Nat) (f : Recipe → Recipe) : (s.modRecipe number version f).bitRate500 = s.bitRate500 := rfl
@[simp] theorem State.modRecipe_tec (number version : Nat) (f : Recipe → Recipe) : (s.modRecipe number version f).tec = s.tec := rfl
@[simp] theorem State.modRecipe_rec (number version : Nat) (f : Recipe → Recipe) : (s.modRecipe number version f).rec_ = s.rec_ := rfl
@[simp] theorem State.modRecipe_busOff (number version : Nat) (f : Recipe → Recipe) : (s.modRecipe number version f).busOff = s.busOff := rfl
@[simp] theorem State.modRecipe_inbound (number version : Nat) (f : Recipe → Recipe) : (s.modRecipe number version f).inbound = s.inbound := rfl
@[simp] theorem State.modRecipe_urgent (number version : Nat) (f : Recipe → Recipe) : (s.modRecipe number version f).urgent = s.urgent := rfl
@[simp] theorem State.modRecipe_answer (number version : Nat) (f : Recipe → Recipe) : (s.modRecipe number version f).answer = s.answer := rfl
@[simp] theorem State.modRecipe_bulk (number version : Nat) (f : Recipe → Recipe) : (s.modRecipe number version f).bulk = s.bulk := rfl
@[simp] theorem State.modRecipe_image (number version : Nat) (f : Recipe → Recipe) : (s.modRecipe number version f).image = s.image := rfl
@[simp] theorem State.modRecipe_transmitter (number version : Nat) (f : Recipe → Recipe) : (s.modRecipe number version f).transmitter = s.transmitter := rfl
@[simp] theorem State.modRecipe_levels (number version : Nat) (f : Recipe → Recipe) : (s.modRecipe number version f).levels = s.levels := rfl
@[simp] theorem State.modRecipe_overruns (number version : Nat) (f : Recipe → Recipe) : (s.modRecipe number version f).overruns = s.overruns := rfl
@[simp] theorem State.modRecipe_discarded (number version : Nat) (f : Recipe → Recipe) : (s.modRecipe number version f).discarded = s.discarded := rfl
@[simp] theorem State.modRecipe_droppedAnswers (number version : Nat) (f : Recipe → Recipe) : (s.modRecipe number version f).droppedAnswers = s.droppedAnswers := rfl
@[simp] theorem State.modRecipe_droppedFrames (number version : Nat) (f : Recipe → Recipe) : (s.modRecipe number version f).droppedFrames = s.droppedFrames := rfl
@[simp] theorem State.modRecipe_lastDropped (number version : Nat) (f : Recipe → Recipe) : (s.modRecipe number version f).lastDropped = s.lastDropped := rfl
@[simp] theorem State.modRecipe_ovens (number version : Nat) (f : Recipe → Recipe) : (s.modRecipe number version f).ovens = s.ovens := rfl
@[simp] theorem State.modRecipe_barred (number version : Nat) (f : Recipe → Recipe) : (s.modRecipe number version f).barred = s.barred := rfl
@[simp] theorem State.modRecipe_siteOpen (number version : Nat) (f : Recipe → Recipe) : (s.modRecipe number version f).siteOpen = s.siteOpen := rfl
@[simp] theorem State.modRecipe_permitCounter (number version : Nat) (f : Recipe → Recipe) : (s.modRecipe number version f).permitCounter = s.permitCounter := rfl
@[simp] theorem State.modRecipe_ticketCounter (number version : Nat) (f : Recipe → Recipe) : (s.modRecipe number version f).ticketCounter = s.ticketCounter := rfl
@[simp] theorem State.modRecipe_rejoinHeld (number version : Nat) (f : Recipe → Recipe) : (s.modRecipe number version f).rejoinHeld = s.rejoinHeld := rfl
@[simp] theorem State.modRecipe_loaded (number version : Nat) (f : Recipe → Recipe) : (s.modRecipe number version f).loaded = s.loaded := rfl
@[simp] theorem State.modRecipe_slots (number version : Nat) (f : Recipe → Recipe) : (s.modRecipe number version f).slots = s.slots := rfl
@[simp] theorem State.modRecipe_pointer (number version : Nat) (f : Recipe → Recipe) : (s.modRecipe number version f).pointer = s.pointer := rfl
@[simp] theorem State.modRecipe_permits (number version : Nat) (f : Recipe → Recipe) : (s.modRecipe number version f).permits = s.permits := rfl
@[simp] theorem State.modRecipe_classes (number version : Nat) (f : Recipe → Recipe) : (s.modRecipe number version f).classes = s.classes := rfl
@[simp] theorem State.modRecipe_routes (number version : Nat) (f : Recipe → Recipe) : (s.modRecipe number version f).routes = s.routes := rfl
@[simp] theorem State.modRecipe_tickets (number version : Nat) (f : Recipe → Recipe) : (s.modRecipe number version f).tickets = s.tickets := rfl
@[simp] theorem State.modRecipe_campaigns (number version : Nat) (f : Recipe → Recipe) : (s.modRecipe number version f).campaigns = s.campaigns := rfl
@[simp] theorem State.modRecipe_channels (number version : Nat) (f : Recipe → Recipe) : (s.modRecipe number version f).channels = s.channels := rfl
@[simp] theorem State.modRecipe_port (number version : Nat) (f : Recipe → Recipe) : (s.modRecipe number version f).port = s.port := rfl
@[simp] theorem State.modRecipe_overrun (number version : Nat) (f : Recipe → Recipe) : (s.modRecipe number version f).overrun = s.overrun := rfl
@[simp] theorem State.modRecipe_miso (number version : Nat) (f : Recipe → Recipe) : (s.modRecipe number version f).miso = s.miso := rfl
@[simp] theorem State.modRecipe_notices (number version : Nat) (f : Recipe → Recipe) : (s.modRecipe number version f).notices = s.notices := rfl
@[simp] theorem State.modRecipe_enables (number version : Nat) (f : Recipe → Recipe) : (s.modRecipe number version f).enables = s.enables := rfl

/-! ### modTicket -/

@[simp] theorem State.modTicket_pending (n : Nat) (f : Ticket → Ticket) : (s.modTicket n f).pending = s.pending := rfl
@[simp] theorem State.modTicket_draws (n : Nat) (f : Ticket → Ticket) : (s.modTicket n f).draws = s.draws := rfl
@[simp] theorem State.modTicket_power (n : Nat) (f : Ticket → Ticket) : (s.modTicket n f).power = s.power := rfl
@[simp] theorem State.modTicket_clock (n : Nat) (f : Ticket → Ticket) : (s.modTicket n f).clock = s.clock := rfl
@[simp] theorem State.modTicket_clockUnset (n : Nat) (f : Ticket → Ticket) : (s.modTicket n f).clockUnset = s.clockUnset := rfl
@[simp] theorem State.modTicket_bitRate500 (n : Nat) (f : Ticket → Ticket) : (s.modTicket n f).bitRate500 = s.bitRate500 := rfl
@[simp] theorem State.modTicket_tec (n : Nat) (f : Ticket → Ticket) : (s.modTicket n f).tec = s.tec := rfl
@[simp] theorem State.modTicket_rec (n : Nat) (f : Ticket → Ticket) : (s.modTicket n f).rec_ = s.rec_ := rfl
@[simp] theorem State.modTicket_busOff (n : Nat) (f : Ticket → Ticket) : (s.modTicket n f).busOff = s.busOff := rfl
@[simp] theorem State.modTicket_inbound (n : Nat) (f : Ticket → Ticket) : (s.modTicket n f).inbound = s.inbound := rfl
@[simp] theorem State.modTicket_urgent (n : Nat) (f : Ticket → Ticket) : (s.modTicket n f).urgent = s.urgent := rfl
@[simp] theorem State.modTicket_answer (n : Nat) (f : Ticket → Ticket) : (s.modTicket n f).answer = s.answer := rfl
@[simp] theorem State.modTicket_bulk (n : Nat) (f : Ticket → Ticket) : (s.modTicket n f).bulk = s.bulk := rfl
@[simp] theorem State.modTicket_image (n : Nat) (f : Ticket → Ticket) : (s.modTicket n f).image = s.image := rfl
@[simp] theorem State.modTicket_transmitter (n : Nat) (f : Ticket → Ticket) : (s.modTicket n f).transmitter = s.transmitter := rfl
@[simp] theorem State.modTicket_levels (n : Nat) (f : Ticket → Ticket) : (s.modTicket n f).levels = s.levels := rfl
@[simp] theorem State.modTicket_overruns (n : Nat) (f : Ticket → Ticket) : (s.modTicket n f).overruns = s.overruns := rfl
@[simp] theorem State.modTicket_discarded (n : Nat) (f : Ticket → Ticket) : (s.modTicket n f).discarded = s.discarded := rfl
@[simp] theorem State.modTicket_droppedAnswers (n : Nat) (f : Ticket → Ticket) : (s.modTicket n f).droppedAnswers = s.droppedAnswers := rfl
@[simp] theorem State.modTicket_droppedFrames (n : Nat) (f : Ticket → Ticket) : (s.modTicket n f).droppedFrames = s.droppedFrames := rfl
@[simp] theorem State.modTicket_lastDropped (n : Nat) (f : Ticket → Ticket) : (s.modTicket n f).lastDropped = s.lastDropped := rfl
@[simp] theorem State.modTicket_ovens (n : Nat) (f : Ticket → Ticket) : (s.modTicket n f).ovens = s.ovens := rfl
@[simp] theorem State.modTicket_barred (n : Nat) (f : Ticket → Ticket) : (s.modTicket n f).barred = s.barred := rfl
@[simp] theorem State.modTicket_siteOpen (n : Nat) (f : Ticket → Ticket) : (s.modTicket n f).siteOpen = s.siteOpen := rfl
@[simp] theorem State.modTicket_permitCounter (n : Nat) (f : Ticket → Ticket) : (s.modTicket n f).permitCounter = s.permitCounter := rfl
@[simp] theorem State.modTicket_ticketCounter (n : Nat) (f : Ticket → Ticket) : (s.modTicket n f).ticketCounter = s.ticketCounter := rfl
@[simp] theorem State.modTicket_rejoinHeld (n : Nat) (f : Ticket → Ticket) : (s.modTicket n f).rejoinHeld = s.rejoinHeld := rfl
@[simp] theorem State.modTicket_recipes (n : Nat) (f : Ticket → Ticket) : (s.modTicket n f).recipes = s.recipes := rfl
@[simp] theorem State.modTicket_loaded (n : Nat) (f : Ticket → Ticket) : (s.modTicket n f).loaded = s.loaded := rfl
@[simp] theorem State.modTicket_slots (n : Nat) (f : Ticket → Ticket) : (s.modTicket n f).slots = s.slots := rfl
@[simp] theorem State.modTicket_pointer (n : Nat) (f : Ticket → Ticket) : (s.modTicket n f).pointer = s.pointer := rfl
@[simp] theorem State.modTicket_permits (n : Nat) (f : Ticket → Ticket) : (s.modTicket n f).permits = s.permits := rfl
@[simp] theorem State.modTicket_classes (n : Nat) (f : Ticket → Ticket) : (s.modTicket n f).classes = s.classes := rfl
@[simp] theorem State.modTicket_routes (n : Nat) (f : Ticket → Ticket) : (s.modTicket n f).routes = s.routes := rfl
@[simp] theorem State.modTicket_campaigns (n : Nat) (f : Ticket → Ticket) : (s.modTicket n f).campaigns = s.campaigns := rfl
@[simp] theorem State.modTicket_channels (n : Nat) (f : Ticket → Ticket) : (s.modTicket n f).channels = s.channels := rfl
@[simp] theorem State.modTicket_port (n : Nat) (f : Ticket → Ticket) : (s.modTicket n f).port = s.port := rfl
@[simp] theorem State.modTicket_overrun (n : Nat) (f : Ticket → Ticket) : (s.modTicket n f).overrun = s.overrun := rfl
@[simp] theorem State.modTicket_miso (n : Nat) (f : Ticket → Ticket) : (s.modTicket n f).miso = s.miso := rfl
@[simp] theorem State.modTicket_notices (n : Nat) (f : Ticket → Ticket) : (s.modTicket n f).notices = s.notices := rfl
@[simp] theorem State.modTicket_enables (n : Nat) (f : Ticket → Ticket) : (s.modTicket n f).enables = s.enables := rfl

end Sys2Proof.Machine
end

