-- ==== Sys2Proof/Laws/Records.lean ====
section
/-! SUPPORT. Reading a numbered record after writing one: the record written reads as written, every other reads as before. And
what ordered insertion, sorting and the choice of a free number answer. -/

namespace Sys2Proof.Machine

set_option Elab.async false

variable {α : Type} {k : Nat}

/-- A table has a record of this number. -/
theorem vget_vset_same (v : Vector α k) (n : Nat) (a d : α) (h : 1 ≤ n ∧ n ≤ k) : vget (vset v n a) n d = a := by
  obtain ⟨m, rfl⟩ : ∃ m, n = m + 1 := ⟨n - 1, by omega⟩
  have hm : m < k := by omega
  simp [vget, vset, hm]

theorem vget_vset_ne (v : Vector α k) (n m : Nat) (a d : α) (h : m ≠ n) : vget (vset v n a) m d = vget v m d := by
  cases n with
  | zero => rfl
  | succ n =>
    cases m with
    | zero => rfl
    | succ m =>
      have : n ≠ m := by omega
      simp [vget, vset, this]

/-- A number that names no record writes nothing. -/
theorem vset_outside (v : Vector α k) (n : Nat) (a : α) (h : ¬ (1 ≤ n ∧ n ≤ k)) : vset v n a = v := by
  cases n with
  | zero => rfl
  | succ n =>
    have : ¬ n < k := by omega
    ext i hi
    have : n ≠ i := by omega
    simp [vset, this]

/-- A number that names no record reads as the empty record. -/
theorem vget_outside (v : Vector α k) (n : Nat) (d : α) (h : ¬ (1 ≤ n ∧ n ≤ k)) : vget v n d = d := by
  cases n with
  | zero => rfl
  | succ n =>
    have : ¬ n < k := by omega
    simp [vget, this]

theorem vset_vset (v : Vector α k) (n : Nat) (a b : α) : vset (vset v n a) n b = vset v n b := by
  cases n with
  | zero => rfl
  | succ n =>
    ext i hi
    by_cases h : n = i <;> simp [vset, h]

/-- Writing back what a record holds changes nothing. -/
theorem vset_vget (v : Vector α k) (n : Nat) (d : α) (h : 1 ≤ n ∧ n ≤ k) : vset v n (vget v n d) = v := by
  obtain ⟨m, rfl⟩ : ∃ m, n = m + 1 := ⟨n - 1, by omega⟩
  have hm : m < k := by omega
  ext i hi
  by_cases h : m = i
  · subst h; simp [vset, vget, hm]
  · simp [vset, vget, h]

variable (s : State)

@[simp] theorem State.setOven_oven (n : Nat) (o : Oven) (h : 1 ≤ n ∧ n ≤ 32) : (s.setOven n o).oven n = o :=
  vget_vset_same _ _ _ _ h
theorem State.setOven_oven_ne (n m : Nat) (o : Oven) (h : m ≠ n) : (s.setOven n o).oven m = s.oven m :=
  vget_vset_ne _ _ _ _ _ h
@[simp] theorem State.setOven_setOven (n : Nat) (o p : Oven) : (s.setOven n o).setOven n p = s.setOven n p := by
  simp [State.setOven, vset_vset]
@[simp] theorem State.modOven_oven (n : Nat) (f : Oven → Oven) (h : 1 ≤ n ∧ n ≤ 32) : (s.modOven n f).oven n = f (s.oven n) :=
  s.setOven_oven n _ h
theorem State.modOven_oven_ne (n m : Nat) (f : Oven → Oven) (h : m ≠ n) : (s.modOven n f).oven m = s.oven m :=
  s.setOven_oven_ne n m _ h
theorem State.oven_outside (n : Nat) (h : ¬ isSlot n) : s.oven n = {} := vget_outside _ _ _ h

@[simp] theorem State.setLoaded_loadedOf (n : Nat) (l : List Entry) (h : 1 ≤ n ∧ n ≤ 32) : (s.setLoaded n l).loadedOf n = l :=
  vget_vset_same _ _ _ _ h
theorem State.setLoaded_loadedOf_ne (n m : Nat) (l : List Entry) (h : m ≠ n) :
    (s.setLoaded n l).loadedOf m = s.loadedOf m := vget_vset_ne _ _ _ _ _ h

@[simp] theorem State.setPermit_permit (n : Nat) (p : Option Permit) (h : 1 ≤ n ∧ n ≤ 32) : (s.setPermit n p).permit n = p :=
  vget_vset_same _ _ _ _ h
theorem State.setPermit_permit_ne (n m : Nat) (p : Option Permit) (h : m ≠ n) :
    (s.setPermit n p).permit m = s.permit m := vget_vset_ne _ _ _ _ _ h

@[simp] theorem State.setDistSlot_distSlot (k : Nat) (b : Option DistSlot) (h : 1 ≤ k ∧ k ≤ 4) :
    (s.setDistSlot k b).distSlot k = b := vget_vset_same _ _ _ _ h
theorem State.setDistSlot_distSlot_ne (k j : Nat) (b : Option DistSlot) (h : j ≠ k) :
    (s.setDistSlot k b).distSlot j = s.distSlot j := vget_vset_ne _ _ _ _ _ h

@[simp] theorem State.setCls_cls (c : Nat) (t : TicketClass) (h : c ≤ 7) : (s.setCls c t).cls c = t :=
  vget_vset_same s.classes (c + 1) t {} (by omega)
theorem State.setCls_cls_ne (c d : Nat) (t : TicketClass) (h : d ≠ c) : (s.setCls c t).cls d = s.cls d :=
  vget_vset_ne s.classes (c + 1) (d + 1) t {} (by omega)

@[simp] theorem State.setRoute_route (e : Nat) (r : Route) (h : e ≤ 31) : (s.setRoute e r).route e = r :=
  vget_vset_same s.routes (e + 1) r {} (by omega)
theorem State.setRoute_route_ne (e d : Nat) (r : Route) (h : d ≠ e) : (s.setRoute e r).route d = s.route d :=
  vget_vset_ne s.routes (e + 1) (d + 1) r {} (by omega)

@[simp] theorem State.setCampaign_campaign (c : Nat) (m : Option Campaign) (h : 1 ≤ c ∧ c ≤ 4) :
    (s.setCampaign c m).campaign c = m := vget_vset_same _ _ _ _ h
theorem State.setCampaign_campaign_ne (c d : Nat) (m : Option Campaign) (h : d ≠ c) :
    (s.setCampaign c m).campaign d = s.campaign d := vget_vset_ne _ _ _ _ _ h

@[simp] theorem State.setChannel_channel (c : Nat) (b : Option Binding) (h : 1 ≤ c ∧ c ≤ 2) :
    (s.setChannel c b).channel c = b := vget_vset_same _ _ _ _ h
theorem State.setChannel_channel_ne (c d : Nat) (b : Option Binding) (h : d ≠ c) :
    (s.setChannel c b).channel d = s.channel d := vget_vset_ne _ _ _ _ _ h

/-! ### Ordered lists -/

theorem insertBefore_mem {α : Type} (p : α → Bool) (x y : α) (l : List α) :
    y ∈ insertBefore p x l ↔ y = x ∨ y ∈ l := by
  induction l with
  | nil => simp [insertBefore]
  | cons z l ih =>
    simp only [insertBefore]
    split
    · simp
    · simp [ih]; tauto

/-- Sorting loses and adds nothing. -/
theorem sortByKey_mem {α : Type} (key : α → Nat) (y : α) (l : List α) : y ∈ sortByKey key l ↔ y ∈ l := by
  have : ∀ acc : List α, y ∈ l.foldl (fun acc x => insertBefore (fun z => key x < key z) x acc) acc ↔ y ∈ acc ∨ y ∈ l := by
    induction l with
    | nil => simp
    | cons x l ih => intro acc; simp only [List.foldl_cons, ih, insertBefore_mem, List.mem_cons]; tauto
  simpa [sortByKey] using this []

theorem insertBefore_perm {α : Type} (p : α → Bool) (x : α) (l : List α) : (insertBefore p x l).Perm (x :: l) := by
  induction l with
  | nil => exact .refl _
  | cons y l ih =>
    simp only [insertBefore]
    split
    · exact .refl _
    · exact (ih.cons y).trans (.swap x y l)

/-- Insertion keeps a list in ascending order of a key that it does not hold yet. -/
theorem insertBefore_ascending {α : Type} (key : α → Nat) (x : α) (l : List α) (h : (l.map key).Pairwise (· < ·))
    (hx : ∀ y ∈ l, key y ≠ key x) : ((insertBefore (fun y => key x < key y) x l).map key).Pairwise (· < ·) := by
  induction l with
  | nil => simp [insertBefore]
  | cons y l ih =>
    rw [List.map_cons, List.pairwise_cons] at h
    simp only [insertBefore, decide_eq_true_eq]
    split
    · rename_i hxy
      simp only [List.map_cons, List.pairwise_cons, List.mem_cons, forall_eq_or_imp] at h ⊢
      exact ⟨⟨hxy, fun a ha => hxy.trans (h.1 a ha)⟩, h⟩
    · rename_i hxy
      rw [List.map_cons, List.pairwise_cons]
      refine ⟨fun a ha => ?_, ih h.2 fun z hz => hx z (List.mem_cons_of_mem _ hz)⟩
      obtain ⟨z, hz, rfl⟩ := List.mem_map.1 ha
      rcases (insertBefore_mem _ _ _ _).1 hz with rfl | hz
      · have := hx y (List.mem_cons_self ..)
        omega
      · exact h.1 _ (List.mem_map_of_mem hz)

/-! ### Free numbers (R46) -/

/-- R46: the number tried after j numbers, counting on from n. -/
def numberTried (n j : Nat) : Nat :=
  if j = 0 then n else if 65535 ≤ n then j else if n + j ≤ 65535 then n + j else n + j - 65535

theorem numberTried_succ (n j : Nat) (h : j < 65535) :
    numberTried (if 65535 ≤ n then 1 else n + 1) j = numberTried n (j + 1) := by
  unfold numberTried
  rw [if_neg (Nat.succ_ne_zero j)]
  by_cases hn : 65535 ≤ n
  · rw [if_pos hn]; split_ifs <;> omega
  · rw [if_neg hn]; split_ifs <;> omega

theorem freeNumber_tried (used : Nat → Bool) (fuel n : Nat) (h : fuel ≤ 65535) :
    used (freeNumber used fuel n) = false ∨ ∀ j < fuel, used (numberTried n j) = true := by
  induction fuel generalizing n with
  | zero => exact .inr (by simp)
  | succ fuel ih =>
    unfold freeNumber
    split
    · rename_i hu
      refine (ih _ (by omega)).imp id fun k j hj => ?_
      cases j with
      | zero => exact hu
      | succ j => rw [← numberTried_succ n j (by omega)]; exact k j (by omega)
    · rename_i hu; exact .inl (by simpa using hu)

/-- R46: with fewer numbers in use than are tried, a number not in use is found. -/
theorem freeNumber_unused (used : Nat → Bool) (l : List Nat) (hl : ∀ m, used m = true → m ∈ l) (fuel n : Nat)
    (h : l.length < fuel) (hf : fuel ≤ 65535) : used (freeNumber used fuel n) = false := by
  refine (freeNumber_tried used fuel n hf).resolve_right fun k => ?_
  have nd : ((List.range fuel).map (numberTried n)).Nodup := by
    refine List.Nodup.map_on (fun a ha b hb e => ?_) List.nodup_range
    simp only [List.mem_range] at ha hb
    unfold numberTried at e
    split_ifs at e <;> omega
  have sub : ((List.range fuel).map (numberTried n)) ⊆ l := by
    intro m hm
    obtain ⟨j, hj, rfl⟩ := List.mem_map.1 hm
    exact hl _ (k j (List.mem_range.1 hj))
  have := (List.subperm_of_subset nd sub).length_le
  simp at this
  omega

end Sys2Proof.Machine
end

