-- ==== Sys2Proof/Laws/Same.lean ====
section
/-! SUPPORT. What the soundness of the records depends on, said once: the numbers and transfer marks of the loaded sets, what the
distribution slots name, the numbers of permits and tickets, the classes' caps and the ovens of the campaigns' entries. A change
that leaves these as they are (`Same`) keeps the records sound. -/

namespace Sys2Proof.Machine

set_option Elab.async false

/-- R68: what a loaded set's soundness asks of an entry. -/
def Entry.key (e : Entry) : Nat × Nat × Bool := (e.number, e.version, e.state.inTransfer)

/-- R77: what a bound distribution slot names. -/
def DistSlot.names (b : DistSlot) : Nat × Nat × Nat := (b.oven, b.number, b.version)

/-- The records are the same in all that their soundness depends on. -/
structure Same (s t : State) : Prop where
  loaded : ∀ n, (t.loadedOf n).map Entry.key = (s.loadedOf n).map Entry.key := by intro _; rfl
  slots : ∀ k, (t.distSlot k).map DistSlot.names = (s.distSlot k).map DistSlot.names := by intro _; rfl
  permits : ∀ n, (t.permit n).map Permit.number = (s.permit n).map Permit.number := by intro _; rfl
  tickets : t.tickets.map (fun x => (x.number, x.cls)) = s.tickets.map (fun x => (x.number, x.cls)) := by rfl
  caps : ∀ c, (t.cls c).cap = (s.cls c).cap := by intro _; rfl
  campaigns : ∀ c, (t.campaign c).map (fun m => m.entries.map CEntry.oven) =
    (s.campaign c).map (fun m => m.entries.map CEntry.oven) := by intro _; rfl

variable {s t u : State}

theorem Same.refl (s : State) : Same s s := {}

theorem Same.trans (h : Same s t) (k : Same t u) : Same s u where
  loaded n := (k.loaded n).trans (h.loaded n)
  slots n := (k.slots n).trans (h.slots n)
  permits n := (k.permits n).trans (h.permits n)
  tickets := k.tickets.trans h.tickets
  caps c := (k.caps c).trans (h.caps c)
  campaigns c := (k.campaigns c).trans (h.campaigns c)

theorem Same.symm (h : Same s t) : Same t s where
  loaded n := (h.loaded n).symm
  slots n := (h.slots n).symm
  permits n := (h.permits n).symm
  tickets := h.tickets.symm
  caps c := (h.caps c).symm
  campaigns c := (h.campaigns c).symm

/-! ### Soundness carries over -/

/-- An entry of the one state has its like in the other. -/
theorem Same.entry (h : Same s t) {n : Nat} {e : Entry} (he : e ∈ t.loadedOf n) :
    ∃ x ∈ s.loadedOf n, x.number = e.number ∧ x.version = e.version ∧ x.state.inTransfer = e.state.inTransfer := by
  have : e.key ∈ (s.loadedOf n).map Entry.key := h.loaded n ▸ List.mem_map_of_mem he
  obtain ⟨x, hx, hk⟩ := List.mem_map.1 this
  simp only [Entry.key, Prod.mk.injEq] at hk
  exact ⟨x, hx, hk⟩

/-- A bound slot of the one state has its like in the other. -/
theorem Same.slot (h : Same s t) {k : Nat} {b : DistSlot} (hb : t.distSlot k = some b) :
    ∃ c, s.distSlot k = some c ∧ c.oven = b.oven ∧ c.number = b.number ∧ c.version = b.version := by
  have := h.slots k
  rw [hb, Option.map_some, eq_comm, Option.map_eq_some_iff] at this
  obtain ⟨c, hc, hn⟩ := this
  simp only [DistSlot.names, Prod.mk.injEq] at hn
  exact ⟨c, hc, hn⟩

theorem loadedOk_of_keys {l m : List Entry} (h : m.map Entry.key = l.map Entry.key) (k : LoadedOk l) : LoadedOk m where
  size := by simpa using (congrArg List.length h).trans_le (by simpa using k.size)
  keys := by
    have := congrArg (List.map fun x : Nat × Nat × Bool => (x.1, x.2.1)) h
    simp only [List.map_map] at this
    exact this ▸ k.keys
  transfers := by
    have := congrArg (List.countP fun x : Nat × Nat × Bool => x.2.2) h
    simp only [List.countP_map] at this
    exact this ▸ k.transfers

theorem Same.ticketsOk (h : Same s t) (k : s.TicketsOk) : t.TicketsOk where
  places := by simpa using (congrArg List.length h.tickets).trans_le (by simpa using k.places)
  ascending := by
    have := congrArg (List.map Prod.fst) h.tickets
    simp only [List.map_map] at this
    exact this ▸ k.ascending
  capped c := by
    have := congrArg (List.countP fun x : Nat × Nat => decide (x.2 = c)) h.tickets
    simp only [List.countP_map] at this
    rw [h.caps c]
    exact this ▸ k.capped c

theorem Same.recordsOk (h : Same s t) (k : s.RecordsOk) : t.RecordsOk where
  tickets := h.ticketsOk k.tickets
  permits n m p q hp hq e := by
    obtain ⟨p', hp', np⟩ := Option.map_eq_some_iff.1 ((h.permits n).symm.trans (congrArg _ hp))
    obtain ⟨q', hq', nq⟩ := Option.map_eq_some_iff.1 ((h.permits m).symm.trans (congrArg _ hq))
    exact k.permits n m p' q' hp' hq' (np.trans (e.trans nq.symm))
  loaded n := loadedOk_of_keys (h.loaded n) (k.loaded n)
  slots := by
    refine ⟨fun j b hb => ?_, fun i j a b ha hb e => ?_⟩
    · obtain ⟨c, hc, ho, hn, hv⟩ := h.slot hb
      obtain ⟨x, hx, xn, xv, xt⟩ := k.slots.named j c hc
      obtain ⟨y, hy, yn, yv, yt⟩ := h.symm.entry (ho ▸ hx)
      exact ⟨y, hy, (yn.trans xn).trans hn, (yv.trans xv).trans hv, yt.trans xt⟩
    · obtain ⟨c, hc, co, -, -⟩ := h.slot ha
      obtain ⟨d, hd, do_, -, -⟩ := h.slot hb
      exact k.slots.once i j c d hc hd (co.trans (e.trans do_.symm))
  campaigns c m hm := by
    obtain ⟨m', hm', e⟩ := Option.map_eq_some_iff.1 ((h.campaigns c).symm.trans (congrArg _ hm))
    exact (show m'.entries.map CEntry.oven = m.entries.map CEntry.oven from e) ▸ k.campaigns c m' hm'

/-! ### Writes that leave all of it the same -/

/-- A record rewritten so that a view of it stands: the view of every record stands. -/
theorem vget_vset_view {α β : Type} {k : Nat} (view : α → β) (v : Vector α k) (n m : Nat) (a d : α)
    (h : view a = view (vget v n d)) : view (vget (vset v n a) m d) = view (vget v m d) := by
  by_cases hm : m = n
  · subst hm
    by_cases hr : 1 ≤ m ∧ m ≤ k
    · rw [vget_vset_same _ _ _ _ hr, h]
    · rw [vset_outside _ _ _ hr]
  · rw [vget_vset_ne _ _ _ _ _ hm]

theorem Same.setOven (h : Same s t) (n : Nat) (o : Oven) : Same s (t.setOven n o) := h.trans {}
theorem Same.modOven (h : Same s t) (n : Nat) (f : Oven → Oven) : Same s (t.modOven n f) := h.trans {}
theorem Same.modHygiene (h : Same s t) (n : Nat) (f : Hygiene → Hygiene) : Same s (t.modHygiene n f) := h.trans {}
theorem Same.setRoute (h : Same s t) (e : Nat) (r : Route) : Same s (t.setRoute e r) := h.trans {}
theorem Same.setChannel (h : Same s t) (c : Nat) (b : Option Binding) : Same s (t.setChannel c b) := h.trans {}
theorem Same.modChannel (h : Same s t) (c : Nat) (f : Binding → Binding) : Same s (t.modChannel c f) := h.trans {}
theorem Same.modRecipe (h : Same s t) (i v : Nat) (f : Recipe → Recipe) : Same s (t.modRecipe i v f) := h.trans {}
theorem Same.drawn (h : Same s t) : Same s t.drawn := h.trans {}
theorem Same.freeCheck (h : Same s t) (i v : Nat) : Same s (freeCheck i v t) := h.trans {}
theorem Same.addRef (h : Same s t) (i v : Nat) : Same s (addRef i v t) := h.trans {}
theorem Same.dropRef (h : Same s t) (i v : Nat) : Same s (dropRef i v t) := h.trans {}

theorem Same.setLoaded (h : Same s t) (n : Nat) (l : List Entry) (k : l.map Entry.key = (t.loadedOf n).map Entry.key) :
    Same s (t.setLoaded n l) :=
  h.trans { loaded := fun m => vget_vset_view (List.map Entry.key) t.loaded n m l [] k }

theorem map_key {f : Entry → Entry} (h : ∀ e, (f e).key = e.key) (l : List Entry) :
    (l.map f).map Entry.key = l.map Entry.key := by
  rw [List.map_map]
  exact List.map_congr_left fun e _ => h e

/-- An entry changed in what does not count: its deadline, tries, flags. -/
theorem Same.modEntry (h : Same s t) (n i v : Nat) (f : Entry → Entry) (k : ∀ e, (f e).key = e.key := by intro _; rfl) :
    Same s (t.modEntry n i v f) :=
  h.setLoaded n _ (map_key (fun e => by split; exact k e; rfl) _)

theorem Same.setDistSlot (h : Same s t) (j : Nat) (b : Option DistSlot)
    (k : b.map DistSlot.names = (t.distSlot j).map DistSlot.names) : Same s (t.setDistSlot j b) :=
  h.trans { slots := fun m => vget_vset_view (Option.map DistSlot.names) t.slots j m b none k }

theorem Same.setPermit (h : Same s t) (n : Nat) (p : Option Permit)
    (k : p.map Permit.number = (t.permit n).map Permit.number) : Same s (t.setPermit n p) :=
  h.trans { permits := fun m => vget_vset_view (Option.map Permit.number) t.permits n m p none k }

theorem Same.mapTickets (h : Same s t) (f : Ticket → Ticket) (k : ∀ x, (f x).number = x.number ∧ (f x).cls = x.cls) :
    Same s { t with tickets := t.tickets.map f } := by
  refine h.trans { tickets := ?_ }
  simp only [List.map_map]
  exact List.map_congr_left fun x _ => Prod.ext (k x).1 (k x).2

theorem Same.modTicket (h : Same s t) (n : Nat) (f : Ticket → Ticket)
    (k : ∀ x, (f x).number = x.number ∧ (f x).cls = x.cls := by intro _; exact ⟨rfl, rfl⟩) : Same s (t.modTicket n f) :=
  h.mapTickets _ fun x => by split; exact k x; exact ⟨rfl, rfl⟩

theorem Same.setCampaign (h : Same s t) (c : Nat) (m : Option Campaign)
    (k : m.map (fun m => m.entries.map CEntry.oven) = (t.campaign c).map (fun m => m.entries.map CEntry.oven)) :
    Same s (t.setCampaign c m) :=
  h.trans { campaigns := fun d =>
    vget_vset_view (Option.map fun m : Campaign => m.entries.map CEntry.oven) t.campaigns c d m none k }

theorem Same.modCampaign (h : Same s t) (c : Nat) (f : Campaign → Campaign)
    (k : ∀ m, (f m).entries.map CEntry.oven = m.entries.map CEntry.oven := by intro _; rfl) : Same s (t.modCampaign c f) :=
  h.setCampaign c _ (by cases t.campaign c with | none => rfl | some m => exact congrArg some (k m))

theorem Same.modCEntry (h : Same s t) (c n : Nat) (f : CEntry → CEntry) (k : ∀ e, (f e).oven = e.oven := by intro _; rfl) :
    Same s (t.modCEntry c n f) :=
  h.modCampaign c _ fun m => by
    simp only [List.map_map]
    exact List.map_congr_left fun e _ => by simp only [Function.comp]; split; exact k e; rfl

/-! ### Notices and queues -/

theorem Same.raise (h : Same s t) (k : NoticeKind) (n : Nat) (d : List Byte) : Same s (raise k n d t) := by
  refine h.trans ?_
  unfold Machine.raise putNotice
  split
  · exact {}
  · split
    · split <;> exact {}
    · split <;> exact {}

theorem Same.setQueue (h : Same s t) (q : QueueName) (l : List OutFrame) : Same s (t.setQueue q l) := by
  refine h.trans ?_
  cases q <;> exact {}

end Sys2Proof.Machine
end

