-- ==== Sys2Proof/Laws/Touches.lean ====
section
/-! SUPPORT. What the operations of the blocks can do at all, said once. Every one of them is a sequence of five moves: a change
of the records; a raise; a frame placed; a queue shrunk; a head frame taken by the transmitter. `TouchSteps s t` says that t is
reached from s by such moves; what all of them leave alone (`Still`), and what they keep (the queue capacities, the notice set,
the drop counters), follows from these. `Touches s t` says it of the operations around the transmitter, which besides leave all
that the soundness of the records depends on; `Moves s t` (Laws/Settled.lean) of the blocks' operations, which leave no frame
waiting beside a free transmitter and keep the records sound. -/

namespace Sys2Proof.Machine

-- one theorem at a time: the threads of many small proofs together take too much memory
set_option Elab.async false

/-! ### The moves -/

theorem Still.refl (s : State) : Still s s := {}

theorem Still.trans {s t u : State} (h : Still s t) (k : Still t u) : Still s u where
  pending := k.pending.trans h.pending
  power := k.power.trans h.power
  clock := k.clock.trans h.clock
  clockUnset := k.clockUnset.trans h.clockUnset
  bitRate500 := k.bitRate500.trans h.bitRate500
  tec := k.tec.trans h.tec
  receive := k.receive.trans h.receive
  busOff := k.busOff.trans h.busOff
  inbound := k.inbound.trans h.inbound
  levels := k.levels.trans h.levels
  overruns := k.overruns.trans h.overruns
  discarded := k.discarded.trans h.discarded
  barred := k.barred.trans h.barred
  siteOpen := k.siteOpen.trans h.siteOpen
  rejoinHeld := k.rejoinHeld.trans h.rejoinHeld
  classes := k.classes.trans h.classes
  port := k.port.trans h.port
  overrun := k.overrun.trans h.overrun
  miso := k.miso.trans h.miso
  enables := k.enables.trans h.enables

/-- A change of the records alone: queues, transmitter, drop counters and notices stay as well. -/
structure Rest (s t : State) : Prop extends Still s t where
  urgent : t.urgent = s.urgent := by rfl
  answer : t.answer = s.answer := by rfl
  bulk : t.bulk = s.bulk := by rfl
  image : t.image = s.image := by rfl
  transmitter : t.transmitter = s.transmitter := by rfl
  droppedAnswers : t.droppedAnswers = s.droppedAnswers := by rfl
  droppedFrames : t.droppedFrames = s.droppedFrames := by rfl
  lastDropped : t.lastDropped = s.lastDropped := by rfl
  notices : t.notices = s.notices := by rfl

/-- One move. -/
inductive Touch : State → State → Prop where
  | records {s t : State} (h : Rest s t) : Touch s t
  | raised (k : NoticeKind) (n : Nat) (d : List Byte) (s : State) (hk : k ≠ .resync) : Touch s (raise k n d s)
  | placed (f : OutFrame) (s : State) : Touch s (enqueue f s)
  | shrunk (q : QueueName) (l : List OutFrame) (s : State) (h : l.Sublist (s.queue q)) : Touch s (s.setQueue q l)
  | taken (q : QueueName) (f : OutFrame) (l : List OutFrame) (s : State) (h : s.queue q = f :: l) :
    Touch s { s.setQueue q l with transmitter := some f }

/-- A sequence of moves. -/
abbrev TouchSteps : State → State → Prop := Relation.ReflTransGen Touch

variable {s t u : State}

/-- A sequence of moves that leaves all that the soundness of the records depends on. -/
structure Touches (s t : State) : Prop where
  steps : TouchSteps s t
  same : Same s t

theorem Touches.refl : Touches s s := ⟨.refl, .refl s⟩
theorem Touches.records (h : Touches s t) (k : Rest t u) (m : Same t u) : Touches s u :=
  ⟨h.steps.tail (.records k), h.same.trans m⟩
theorem Touches.raise (h : Touches s t) (k : NoticeKind) (n : Nat) (d : List Byte) (hk : k ≠ .resync := by decide) :
    Touches s (raise k n d t) := ⟨h.steps.tail (.raised k n d t hk), h.same.raise k n d⟩
theorem Touches.shrink (h : Touches s t) (q : QueueName) (l : List OutFrame) (k : l.Sublist (t.queue q)) :
    Touches s (t.setQueue q l) := ⟨h.steps.tail (.shrunk q l t k), h.same.setQueue q l⟩

theorem Same.enqueue (h : Same s t) (f : OutFrame) : Same s (enqueue f t) := by
  unfold Machine.enqueue dropFrame
  dsimp only
  split
  · exact h.setQueue _ _
  · split
    · exact h.setQueue _ _
    · split
      · exact h.trans {}
      · exact (h.trans {}).raise _ _ _

theorem Touches.enqueue (h : Touches s t) (f : OutFrame) : Touches s (enqueue f t) :=
  ⟨h.steps.tail (.placed f t), h.same.enqueue f⟩

theorem Touches.take (h : Touches s t) {q : QueueName} {f : OutFrame} {l : List OutFrame} (k : t.queue q = f :: l) :
    Touches s { t.setQueue q l with transmitter := some f } :=
  ⟨h.steps.tail (.taken q f l t k), (h.same.setQueue q l).trans {}⟩

/-! ### Record changes -/

theorem Touches.setLoaded (h : Touches s t) (n : Nat) (l : List Entry)
    (k : l.map Entry.key = (t.loadedOf n).map Entry.key) : Touches s (t.setLoaded n l) :=
  h.records {} ((Same.refl t).setLoaded n l k)
theorem Touches.setDistSlot (h : Touches s t) (j : Nat) (b : Option DistSlot)
    (k : b.map DistSlot.names = (t.distSlot j).map DistSlot.names) : Touches s (t.setDistSlot j b) :=
  h.records {} ((Same.refl t).setDistSlot j b k)
theorem Touches.modCampaign (h : Touches s t) (c : Nat) (f : Campaign → Campaign)
    (k : ∀ m, (f m).entries.map CEntry.oven = m.entries.map CEntry.oven := by intro _; rfl) :
    Touches s (t.modCampaign c f) := h.records {} ((Same.refl t).modCampaign c f k)
theorem Touches.modCEntry (h : Touches s t) (c n : Nat) (f : CEntry → CEntry)
    (k : ∀ e, (f e).oven = e.oven := by intro _; rfl) : Touches s (t.modCEntry c n f) :=
  h.records {} ((Same.refl t).modCEntry c n f k)
theorem Touches.setChannel (h : Touches s t) (c : Nat) (b : Option Binding) : Touches s (t.setChannel c b) :=
  h.records {} {}
theorem Touches.modChannel (h : Touches s t) (c : Nat) (f : Binding → Binding) : Touches s (t.modChannel c f) :=
  h.records {} {}
theorem Touches.drawn (h : Touches s t) : Touches s t.drawn := h.records {} {}

/-! ### Queues -/

theorem Touches.withdraw (h : Touches s t) (q : QueueName) (p : Producer) (sel : OutFrame → Bool) :
    Touches s (withdraw q p sel t) := h.shrink q _ List.filter_sublist
theorem Touches.withdrawSegments (h : Touches s t) (k : Nat) : Touches s (withdrawSegments k t) := h.withdraw _ _ _
theorem Touches.withdrawImage (h : Touches s t) (c : Nat) : Touches s (withdrawImage c t) := h.withdraw _ _ _

/-- A fold of operations that each touch no more. -/
theorem Touches.foldl {α : Type} {f : State → α → State} (hf : ∀ u x, Touches s u → Touches s (f u x)) (l : List α)
    (h : Touches s t) : Touches s (l.foldl f t) := by
  induction l generalizing t with
  | nil => exact h
  | cons x l ih => exact ih (hf t x h)

/-! ### The relay channels -/

theorem Touches.raiseUpdate (h : Touches s t) (a c n f k : Nat) : Touches s (raiseUpdate a c n f k t) := h.raise _ _ _
theorem Touches.raiseFeed (h : Touches s t) (ch c n o : Nat) : Touches s (raiseFeed ch c n o t) := h.raise _ _ _
theorem Touches.raiseReleased (h : Touches s t) (ch c n o : Nat) : Touches s (raiseReleased ch c n o t) :=
  h.drawn.raise _ _ _

theorem Touches.enqueueBegin (h : Touches s t) (ch : Nat) : Touches s (enqueueBegin ch t) := by
  unfold Machine.enqueueBegin
  split
  · exact h
  · split
    · exact h
    · exact (h.enqueue _).enqueue _

theorem Touches.placeImageFrame (h : Touches s t) (ch : Nat) (b : Binding) (size : Nat) :
    Touches s (placeImageFrame ch b size t) := (h.enqueue _).modChannel _ _

theorem Touches.fillImage (h : Touches s t) (fuel ch : Nat) : Touches s (fillImage fuel ch t) := by
  induction fuel generalizing t with
  | zero => exact h
  | succ fuel ih =>
    unfold Machine.fillImage
    split
    · exact h
    · split
      · exact h
      · split
        · exact ih (h.placeImageFrame _ _ _)
        · exact h

theorem Touches.finishCheck (h : Touches s t) (c : Nat) : Touches s (finishCheck c t) := by
  unfold Machine.finishCheck
  split
  · exact h
  · split
    · exact (h.modCampaign _ _).raise _ _ _
    · exact h

theorem Touches.bindChannel (h : Touches s t) (c n ch : Nat) : Touches s (bindChannel c n ch t) :=
  (((h.setChannel _ _).modCEntry _ _ _).enqueueBegin _).raiseFeed _ _ _ _

theorem Touches.serveEntry (h : Touches s t) (c : Nat) (e : CEntry) (ch : Nat) : Touches s (serveEntry c e ch t) := by
  unfold Machine.serveEntry
  split
  · exact h
  · dsimp only
    split
    · exact (h.modCEntry _ _ _).finishCheck _
    · split
      · exact ((h.modCEntry _ _ _).raiseUpdate _ _ _ _ _).finishCheck _
      · split
        · exact h.bindChannel _ _ _
        · exact (h.modCEntry _ _ _).finishCheck _

theorem Touches.chooseChannels (h : Touches s t) (fuel : Nat) : Touches s (chooseChannels fuel t) := by
  induction fuel generalizing t with
  | zero => exact h
  | succ fuel ih =>
    unfold Machine.chooseChannels
    split
    · exact ih (h.serveEntry _ _ _)
    · exact h

/-! ### The transmitter -/

theorem Touches.fillSegments (h : Touches s t) (fuel k : Nat) : Touches s (fillSegments fuel k t) := by
  induction fuel generalizing t with
  | zero => exact h
  | succ fuel ih =>
    unfold Machine.fillSegments
    split
    · exact h
    · rename_i b hb
      split
      · exact h
      · split
        · exact ih ((h.setDistSlot k (some { b with next := b.next + 1 }) (by rw [hb]; rfl)).enqueue _)
        · exact h

theorem Touches.segmentTaken (h : Touches s t) (k i : Nat) : Touches s (segmentTaken k i t) := by
  unfold Machine.segmentTaken
  split
  · exact h
  · dsimp only
    split
    · exact (h.fillSegments _ _).setLoaded _ _ (map_key (fun e => by split <;> rfl) _)
    · exact h.fillSegments _ _

theorem Touches.imageTaken (h : Touches s t) (ch : Nat) : Touches s (imageTaken ch t) := by
  unfold Machine.imageTaken
  split
  · exact h.fillImage _ _
  · exact h.chooseChannels _

theorem Touches.afterTaken (h : Touches s t) (f : OutFrame) : Touches s (afterTaken f t) := by
  unfold Machine.afterTaken
  split
  · exact h.segmentTaken _ _
  · exact h.imageTaken _
  · exact h

/-- The choice of R10 answers the head of a queue, and is made only while the transmitter is free outside BUS_OFF. -/
theorem takeFrame_some {f : OutFrame} (h : takeFrame s = some (f, t)) :
    s.held = false ∧ ∃ q l, s.nextQueue = some q ∧ s.queue q = f :: l ∧
      t = { s.setQueue q l with transmitter := some f } := by
  unfold takeFrame at h
  split at h
  · cases h
  · rename_i hh
    split at h
    · cases h
    · rename_i q hq
      split at h
      · cases h
      · rename_i g l hl
        simp only [Option.some.injEq, Prod.mk.injEq] at h
        obtain ⟨rfl, rfl⟩ := h
        exact ⟨by simpa [State.held, Bool.or_eq_true] using hh, q, l, hq, hl, rfl⟩

theorem Touches.kick (h : Touches s t) : Touches s (kick t) := by
  unfold Machine.kick
  split
  · rename_i f u hu
    obtain ⟨-, q, l, -, hl, rfl⟩ := takeFrame_some hu
    exact (h.take hl).afterTaken f
  · exact h

theorem Touches.kickQuiet (h : Touches s t) : Touches s (kickQuiet t) := by
  unfold Machine.kickQuiet
  split
  · exact h
  · rename_i f u hu
    obtain ⟨-, q, l, -, hl, rfl⟩ := takeFrame_some hu
    split
    · exact (h.take hl).fillImage _ _
    · exact (h.take hl).afterTaken f

theorem Touches.place (h : Touches s t) (f : OutFrame) : Touches s (place f t) := (h.enqueue f).kick
theorem Touches.placeFor (h : Touches s t) (p : Producer) (n : Nat) (d : Payload) : Touches s (placeFor p n d t) :=
  h.place _
theorem Touches.channelChoice (h : Touches s t) : Touches s (channelChoice t) := by
  unfold Machine.channelChoice
  split
  · exact (h.chooseChannels _).kick
  · exact h.kick

end Sys2Proof.Machine
end

