-- ==== Sys2Proof/Laws/Kept.lean ====
section
/-! SUPPORT. What every sequence of moves keeps: the fields that belong to the commands, the capacities of the queues, the drop
counters' range, the notice set's form, and a frame in the transmitter. -/

namespace Sys2Proof.Machine

set_option Elab.async false

variable {s t : State}

/-! ### Raises (R195 to R198) -/

theorem padDetail_length (d : List Byte) : (padDetail d).length = 8 := by simp [padDetail]

/-- A raise changes the notices alone. -/
theorem putNotice_eq (k : NoticeKind) (n : Nat) (d : List Byte) (s : State) :
    putNotice k n d s = { s with notices := (putNotice k n d s).notices } := by
  unfold putNotice; split <;> rfl

theorem raise_eq (k : NoticeKind) (n : Nat) (d : List Byte) (s : State) :
    raise k n d s = { s with notices := (raise k n d s).notices } := by
  unfold raise
  split
  · rfl
  · split
    · exact putNotice_eq k n _ s
    · exact putNotice_eq _ _ _ s

theorem raiseBus_eq (c : Nat) (s : State) : raiseBus c s = { s with notices := (raiseBus c s).notices } := raise_eq _ _ _ s

theorem raise_still (k : NoticeKind) (n : Nat) (d : List Byte) (s : State) : Still s (raise k n d s) := by
  rw [raise_eq]; exact {}

/-- An update in place keeps every entry's key. -/
theorem putNotice_updated (k : NoticeKind) (n : Nat) (d : List Byte) (s : State) (h : s.notices.any (·.isOf k n) = true) :
    (putNotice k n d s).notices = s.notices.map (fun e =>
      if e.isOf k n then { e with last := s.clock, count := satAdd 255 e.count 1, detail := d } else e) := by
  simp [putNotice, h]

theorem putNotice_added (k : NoticeKind) (n : Nat) (d : List Byte) (s : State) (h : s.notices.any (·.isOf k n) = false) :
    (putNotice k n d s).notices = s.notices ++
      [{ kind := k, subject := n, first := s.clock, last := s.clock, count := 1, detail := d }] := by
  simp [putNotice, h]

theorem putNotice_noticesOk (k : NoticeKind) (n : Nat) (d : List Byte) (s : State) (hd : d.length = 8)
    (hr : k = .resync → n = 0)
    (hroom : s.notices.any (·.isOf k n) = true ∨ k = .resync ∨ s.ordinaryCount < Config.ordinaryNotices)
    (h : s.NoticesOk) : (putNotice k n d s).NoticesOk := by
  cases hk : s.notices.any (·.isOf k n) with
  | true =>
    have e := putNotice_updated k n d s hk
    refine ⟨?_, ?_, ?_, ?_, ?_⟩
    · unfold State.ordinaryCount
      rw [e, List.countP_map]
      refine le_of_eq_of_le ?_ h.ordinary
      unfold State.ordinaryCount
      congr 1
      funext x
      simp only [Function.comp]
      split <;> rfl
    · rw [e, List.map_map]
      refine (?_ : List.map _ s.notices = _) ▸ h.distinct
      refine List.map_congr_left fun x _ => ?_
      simp only [Function.comp]
      split <;> rfl
    · intro x hx
      rw [e, List.mem_map] at hx
      obtain ⟨y, hy, rfl⟩ := hx
      have := h.resync y hy
      split <;> simpa using this
    · intro x hx
      rw [e, List.mem_map] at hx
      obtain ⟨y, hy, rfl⟩ := hx
      have := h.counts y hy
      split
      · simp only [satAdd]; omega
      · exact this
    · intro x hx
      rw [e, List.mem_map] at hx
      obtain ⟨y, hy, rfl⟩ := hx
      have := h.details y hy
      split
      · exact hd
      · exact this
  | false =>
    have e := putNotice_added k n d s hk
    have hk' : ∀ y ∈ s.notices, ¬ (y.kind = k ∧ y.subject = n) := by
      intro y hy hyk
      have := List.any_eq_false.mp hk y hy
      simp [Notice.isOf, hyk] at this
    refine ⟨?_, ?_, ?_, ?_, ?_⟩
    · unfold State.ordinaryCount
      rw [e, List.countP_append]
      have ho := h.ordinary
      unfold State.ordinaryCount at ho
      rcases hroom with hr' | rfl | hr'
      · simp [hk] at hr'
      · simpa using ho
      · unfold State.ordinaryCount at hr'
        by_cases hz : k = .resync
        · subst hz; simpa using ho
        · simp only [ne_eq, decide_not] at ho hr' ⊢
          simp [hz]
          omega
    · rw [e, List.map_append, List.nodup_append]
      refine ⟨h.distinct, by simp, ?_⟩
      intro a ha b hb
      simp only [List.map_cons, List.map_nil, List.mem_singleton] at hb
      subst hb
      obtain ⟨y, hy, rfl⟩ := List.mem_map.mp ha
      intro hc
      exact hk' y hy (by simpa using hc)
    · intro x hx
      rw [e, List.mem_append, List.mem_singleton] at hx
      rcases hx with hx | rfl
      · exact h.resync x hx
      · exact hr
    · intro x hx
      rw [e, List.mem_append, List.mem_singleton] at hx
      rcases hx with hx | rfl
      · exact h.counts x hx
      · simp
    · intro x hx
      rw [e, List.mem_append, List.mem_singleton] at hx
      rcases hx with hx | rfl
      · exact h.details x hx
      · exact hd

/-- R195: a raise keeps the form of the notice set. RESYNC is raised by the notice set alone, for no subject. -/
theorem raise_noticesOk (k : NoticeKind) (n : Nat) (d : List Byte) (s : State) (hr : k = .resync → n = 0)
    (h : s.NoticesOk) : (raise k n d s).NoticesOk := by
  unfold raise
  split
  · exact h
  · split
    · rename_i hc
      refine putNotice_noticesOk k n _ s (padDetail_length d) hr ?_ h
      rcases hc with hc | hc
      · exact .inl hc
      · exact .inr (.inr hc)
    · exact putNotice_noticesOk _ _ _ s (padDetail_length _) (fun _ => rfl) (.inr (.inl rfl)) h

/-! ### Frames placed (R6, R7) -/

/-- A placed frame changes one queue, or the drop counters and the notices. -/
theorem enqueue_still (f : OutFrame) (s : State) : Still s (enqueue f s) := by
  unfold enqueue
  dsimp only
  split
  · cases f.payload.kind.queue <;> exact {}
  · split
    · cases f.payload.kind.queue <;> exact {}
    · unfold dropFrame
      dsimp only
      split
      · exact {}
      · rw [raiseBus_eq]; exact {}

theorem enqueue_transmitter (f : OutFrame) (s : State) : (enqueue f s).transmitter = s.transmitter := by
  unfold enqueue
  dsimp only
  split
  · cases f.payload.kind.queue <;> rfl
  · split
    · cases f.payload.kind.queue <;> rfl
    · unfold dropFrame
      dsimp only
      split
      · rfl
      · rw [raiseBus_eq]

@[simp] theorem State.setQueue_queue (s : State) (q : QueueName) (l : List OutFrame) : (s.setQueue q l).queue q = l := by
  cases q <;> rfl

theorem State.setQueue_queue_ne (s : State) (q r : QueueName) (l : List OutFrame) (h : r ≠ q) :
    (s.setQueue q l).queue r = s.queue r := by cases q <;> cases r <;> first | rfl | exact absurd rfl h

theorem State.setQueue_still (s : State) (q : QueueName) (l : List OutFrame) : Still s (s.setQueue q l) := by
  cases q <;> exact {}

theorem dropFrame_queue (f : OutFrame) (s : State) (q : QueueName) : (dropFrame f s).queue q = s.queue q := by
  unfold dropFrame
  dsimp only
  split
  · cases q <;> rfl
  · rw [raiseBus_eq]; cases q <;> rfl

/-- R6: a placed frame never takes a queue over its capacity. -/
theorem enqueue_queuesOk (f : OutFrame) (s : State) (h : s.QueuesOk) : (enqueue f s).QueuesOk := by
  intro q
  have hq := h q
  unfold enqueue
  dsimp only
  split
  · by_cases e : q = f.payload.kind.queue
    · subst e; simpa using hq
    · rw [State.setQueue_queue_ne _ _ _ _ e]; exact hq
  · split
    · by_cases e : q = f.payload.kind.queue
      · subst e
        simp only [State.setQueue_queue, List.length_append, List.length_singleton]
        omega
      · rw [State.setQueue_queue_ne _ _ _ _ e]; exact hq
    · rw [dropFrame_queue]; exact hq

theorem enqueue_drops (f : OutFrame) (s : State) (h : s.droppedAnswers ≤ 65535 ∧ s.droppedFrames ≤ 65535) :
    (enqueue f s).droppedAnswers ≤ 65535 ∧ (enqueue f s).droppedFrames ≤ 65535 := by
  unfold enqueue
  dsimp only
  split
  · cases f.payload.kind.queue <;> exact h
  · split
    · cases f.payload.kind.queue <;> exact h
    · unfold dropFrame
      dsimp only
      split
      · exact ⟨Nat.min_le_left _ _, h.2⟩
      · rw [raiseBus_eq]; exact ⟨h.1, Nat.min_le_left _ _⟩

theorem setQueue_noticesOk (q : QueueName) (l : List OutFrame) (s : State) (h : s.NoticesOk) :
    (s.setQueue q l).NoticesOk := by cases q <;> exact ⟨h.1, h.2, h.3, h.4, h.5⟩

theorem enqueue_noticesOk (f : OutFrame) (s : State) (h : s.NoticesOk) : (enqueue f s).NoticesOk := by
  unfold enqueue
  dsimp only
  split
  · exact setQueue_noticesOk _ _ _ h
  · split
    · exact setQueue_noticesOk _ _ _ h
    · unfold dropFrame
      dsimp only
      split
      · exact ⟨h.1, h.2, h.3, h.4, h.5⟩
      · exact raise_noticesOk _ _ _ _ (by decide) ⟨h.1, h.2, h.3, h.4, h.5⟩

/-! ### Sequences of moves -/

/-- Every sequence of moves leaves the commands' own fields alone. -/
theorem TouchSteps.still (h : TouchSteps s t) : Still s t := by
  induction h with
  | refl => exact Still.refl s
  | tail _ k ih =>
    refine ih.trans ?_
    cases k with
    | records h => exact h.toStill
    | raised => exact raise_still _ _ _ _
    | placed => exact enqueue_still _ _
    | shrunk => exact State.setQueue_still _ _ _
    | taken q _ l => exact (State.setQueue_still _ q l).trans {}

/-- Every sequence of moves keeps a frame in the transmitter. -/
theorem TouchSteps.transmitter (h : TouchSteps s t) (k : s.transmitter.isSome) : t.transmitter.isSome := by
  induction h with
  | refl => exact k
  | tail _ m ih =>
    cases m with
    | records h => rw [h.transmitter]; exact ih
    | raised => rw [raise_eq]; exact ih
    | placed => rw [enqueue_transmitter]; exact ih
    | shrunk q => cases q <;> exact ih
    | taken => rfl

/-- Every sequence of moves keeps the queues within their capacities. -/
theorem TouchSteps.queuesOk (h : TouchSteps s t) (k : s.QueuesOk) : t.QueuesOk := by
  induction h with
  | refl => exact k
  | @tail u w _ m ih =>
    cases m with
    | records h =>
      intro q
      have := ih q
      cases q
      · simpa [State.queue, h.urgent] using this
      · simpa [State.queue, h.answer] using this
      · simpa [State.queue, h.bulk] using this
      · simpa [State.queue, h.image] using this
    | raised =>
      rw [raise_eq]
      intro q
      have := ih q
      cases q <;> exact this
    | placed => exact enqueue_queuesOk _ _ ih
    | shrunk q l _ hl =>
      intro r
      by_cases e : r = q
      · subst e; rw [State.setQueue_queue]; exact hl.length_le.trans (ih r)
      · rw [State.setQueue_queue_ne _ _ _ _ e]; exact ih r
    | taken q f l _ hl =>
      intro r
      have : ({ u.setQueue q l with transmitter := some f } : State).queue r = (u.setQueue q l).queue r := by
        cases r <;> rfl
      rw [this]
      by_cases e : r = q
      · subst e
        have := ih r
        rw [hl, List.length_cons] at this
        rw [State.setQueue_queue]
        omega
      · rw [State.setQueue_queue_ne _ _ _ _ e]; exact ih r

/-- Every sequence of moves keeps the drop counters in sixteen bits. -/
theorem TouchSteps.drops (h : TouchSteps s t) (k : s.droppedAnswers ≤ 65535 ∧ s.droppedFrames ≤ 65535) :
    t.droppedAnswers ≤ 65535 ∧ t.droppedFrames ≤ 65535 := by
  induction h with
  | refl => exact k
  | tail _ m ih =>
    cases m with
    | records h => rw [h.droppedAnswers, h.droppedFrames]; exact ih
    | raised => rw [raise_eq]; exact ih
    | placed => exact enqueue_drops _ _ ih
    | shrunk q => cases q <;> exact ih
    | taken q => cases q <;> exact ih

/-- Every sequence of moves keeps the form of the notice set. -/
theorem TouchSteps.noticesOk (h : TouchSteps s t) (k : s.NoticesOk) : t.NoticesOk := by
  induction h with
  | refl => exact k
  | tail _ m ih =>
    cases m with
    | records h =>
      have e := h.notices
      exact ⟨by unfold State.ordinaryCount; rw [e]; exact ih.1, by rw [e]; exact ih.2, by rw [e]; exact ih.3,
        by rw [e]; exact ih.4, by rw [e]; exact ih.5⟩
    | raised _ _ _ _ hk => exact raise_noticesOk _ _ _ _ (fun e => absurd e hk) ih
    | placed => exact enqueue_noticesOk _ _ ih
    | shrunk => exact setQueue_noticesOk _ _ _ ih
    | taken q _ l =>
      have := setQueue_noticesOk q l _ ih
      exact ⟨this.1, this.2, this.3, this.4, this.5⟩

/-- The invariants that every sequence of moves keeps. -/
theorem TouchSteps.busOk (h : TouchSteps s t) (k : s.BusOk) : t.BusOk where
  tec := h.still.tec ▸ k.tec
  receive := h.still.receive ▸ k.receive
  off := by rw [h.still.busOff, h.still.tec]; exact k.off
  levels := h.still.levels ▸ k.levels
  inbound := h.still.inbound ▸ k.inbound
  overruns := h.still.overruns ▸ k.overruns
  discarded := h.still.discarded ▸ k.discarded
  droppedAnswers := (h.drops ⟨k.droppedAnswers, k.droppedFrames⟩).1
  droppedFrames := (h.drops ⟨k.droppedAnswers, k.droppedFrames⟩).2
  clock := h.still.clock ▸ k.clock

theorem TouchSteps.barredOk (h : TouchSteps s t) (k : s.BarredOk) : t.BarredOk := by
  unfold State.BarredOk; rw [h.still.barred]; exact k

end Sys2Proof.Machine
end

