-- ==== Sys2Proof/Laws/Settled.lean ====
section
/-! SUPPORT. The operations of the blocks as sequences of moves that end with the transmitter served and keep the records sound:
`Moves s t`. Each keeps `Settled` (R10) and `RecordsOk` besides all that `TouchSteps` keeps. One lemma for each operation, in the
form: moves to t are moves to the operation's answer. -/

namespace Sys2Proof.Machine

set_option Elab.async false

variable {s t u : State}

/-! ### The transmitter is served (R10) -/

theorem settled_of_rest (h : Rest s t) (k : s.Settled) : t.Settled := by
  intro hh
  have : s.held = false := by simpa [State.held, h.transmitter, h.busOff] using hh
  simpa [h.urgent, h.answer, h.bulk, h.image] using k this

theorem raise_settled (k : NoticeKind) (n : Nat) (d : List Byte) (h : s.Settled) : (raise k n d s).Settled := by
  rw [raise_eq]; exact h

theorem setQueue_settled (q : QueueName) (l : List OutFrame) (hl : l.Sublist (s.queue q)) (h : s.Settled) :
    (s.setQueue q l).Settled := by
  intro hh
  have hs : s.held = false := by cases q <;> exact hh
  obtain ⟨a, b, c, d⟩ := h hs
  cases q <;> simp_all [State.setQueue, State.queue]

theorem nextQueue_none (h : s.nextQueue = none) : s.urgent = [] ∧ s.answer = [] ∧ s.bulk = [] ∧ s.image = [] := by
  unfold State.nextQueue at h
  simp only [List.foldl_cons, List.foldl_nil, State.queue, List.isEmpty_iff] at h
  by_cases a : s.urgent = [] <;> by_cases b : s.answer = [] <;> by_cases c : s.bulk = [] <;>
    by_cases d : s.image = [] <;> simp [a, b, c, d] at h ⊢ <;> (repeat' split at h) <;> simp_all

theorem nextQueue_nonempty {q : QueueName} (h : s.nextQueue = some q) : s.queue q ≠ [] := by
  unfold State.nextQueue at h
  revert q
  refine List.foldlRecOn (motive := fun b : Option QueueName => ∀ {q}, b = some q → s.queue q ≠ []) _ _ (by simp) ?_
  intro best ih r _ q h
  by_cases hr : s.queue r = []
  · simp only [hr, List.isEmpty_nil, if_true] at h
    exact ih h
  · cases best with
    | none =>
      simp only [List.isEmpty_iff, hr, if_false] at h
      cases h; exact hr
    | some b =>
      simp only [List.isEmpty_iff, hr, if_false] at h
      rcases ite_eq_or_eq _ _ _ |>.imp (fun e => e.symm.trans h) (fun e => e.symm.trans h) with e | e
      · cases e; exact hr
      · exact ih e

/-- No choice is made: the transmitter takes no frame, or none waits. -/
theorem takeFrame_none (h : takeFrame s = none) : s.Settled := by
  intro hh
  unfold takeFrame at h
  split at h
  · rename_i hc
    simp [State.held] at hh
    simp [hh] at hc
  · split at h
    · rename_i hq; exact nextQueue_none hq
    · rename_i q hq
      split at h
      · rename_i hl; exact absurd hl (nextQueue_nonempty hq)
      · cases h

theorem settled_of_transmitter (h : s.transmitter.isSome) : s.Settled := by
  intro hh; simp [State.held, h] at hh

/-- R10: after the choice the transmitter is served, whatever was waiting. -/
theorem kick_settled (s : State) : (kick s).Settled := by
  unfold kick
  split
  · rename_i f u hu
    obtain ⟨-, q, l, -, hl, rfl⟩ := takeFrame_some hu
    exact settled_of_transmitter ((Touches.afterTaken .refl f).steps.transmitter rfl)
  · rename_i h; exact takeFrame_none h

theorem kickQuiet_settled (s : State) : (kickQuiet s).Settled := by
  unfold kickQuiet
  split
  · rename_i h; exact takeFrame_none h
  · rename_i f u hu
    obtain ⟨-, q, l, -, hl, rfl⟩ := takeFrame_some hu
    split
    · exact settled_of_transmitter ((Touches.fillImage .refl _ _).steps.transmitter rfl)
    · exact settled_of_transmitter ((Touches.afterTaken .refl f).steps.transmitter rfl)

/-! ### Moves that keep the transmitter served -/

inductive Move : State → State → Prop where
  | records {s t : State} (h : Rest s t) : Move s t
  | raised (k : NoticeKind) (n : Nat) (d : List Byte) (s : State) (hk : k ≠ .resync) : Move s (raise k n d s)
  | shrunk (q : QueueName) (l : List OutFrame) (s : State) (h : l.Sublist (s.queue q)) : Move s (s.setQueue q l)
  | kicked {s u : State} (h : TouchSteps s u) : Move s (kick u)
  | kickedQuiet {s u : State} (h : TouchSteps s u) : Move s (kickQuiet u)

/-- A sequence of moves each of which leaves the transmitter served. -/
abbrev MoveSteps : State → State → Prop := Relation.ReflTransGen Move

/-- Such a sequence that keeps the records sound. -/
structure Moves (s t : State) : Prop where
  steps : MoveSteps s t
  sound : s.RecordsOk → t.RecordsOk

theorem Moves.refl : Moves s s := ⟨.refl, id⟩
theorem Moves.trans (h : Moves s t) (k : Moves t u) : Moves s u := ⟨h.steps.trans k.steps, k.sound ∘ h.sound⟩
/-- Steps that keep the records sound where they start. -/
theorem Moves.tail (h : Moves s t) (k : MoveSteps t u) (m : t.RecordsOk → u.RecordsOk) : Moves s u :=
  h.trans ⟨k, m⟩

theorem MoveSteps.touches (h : MoveSteps s t) : TouchSteps s t := by
  induction h with
  | refl => exact .refl
  | tail _ m ih =>
    cases m with
    | records h => exact ih.tail (.records h)
    | raised k n d _ hk => exact ih.tail (.raised k n d _ hk)
    | shrunk q l _ h => exact ih.tail (.shrunk q l _ h)
    | kicked h => exact (ih.trans h).trans (Touches.kick .refl).steps
    | kickedQuiet h => exact (ih.trans h).trans (Touches.kickQuiet .refl).steps

theorem Moves.touches (h : Moves s t) : TouchSteps s t := h.steps.touches

theorem MoveSteps.settled (h : MoveSteps s t) (k : s.Settled) : t.Settled := by
  induction h with
  | refl => exact k
  | tail _ m ih =>
    cases m with
    | records h => exact settled_of_rest h ih
    | raised => exact raise_settled _ _ _ ih
    | shrunk q l _ h => exact setQueue_settled q l h ih
    | kicked => exact kick_settled _
    | kickedQuiet => exact kickQuiet_settled _

theorem Moves.settled (h : Moves s t) (k : s.Settled) : t.Settled := h.steps.settled k
theorem Moves.still (h : Moves s t) : Still s t := h.touches.still

/-- A change of the records alone that keeps them sound. -/
theorem Moves.change (h : Moves s t) (k : Rest t u) (m : t.RecordsOk → u.RecordsOk) : Moves s u :=
  h.tail (.single (.records k)) m
/-- A change of the records alone in what their soundness does not ask for. -/
theorem Moves.records (h : Moves s t) (k : Rest t u) (m : Same t u) : Moves s u := h.change k m.recordsOk
theorem Moves.raise (h : Moves s t) (k : NoticeKind) (n : Nat) (d : List Byte) (hk : k ≠ .resync := by decide) :
    Moves s (raise k n d t) := h.tail (.single (.raised k n d t hk)) ((Same.refl t).raise k n d).recordsOk
theorem Moves.shrink (h : Moves s t) (q : QueueName) (l : List OutFrame) (k : l.Sublist (t.queue q)) :
    Moves s (t.setQueue q l) := h.tail (.single (.shrunk q l t k)) ((Same.refl t).setQueue q l).recordsOk
/-- What the transmitter's choice is made after. -/
theorem Moves.kick (h : Moves s t) (k : Touches t u) : Moves s (kick u) :=
  h.tail (.single (.kicked k.steps)) k.kick.same.recordsOk
theorem Moves.kickQuiet (h : Moves s t) (k : Touches t u) : Moves s (kickQuiet u) :=
  h.tail (.single (.kickedQuiet k.steps)) k.kickQuiet.same.recordsOk

theorem Moves.foldl {α : Type} {f : State → α → State} (hf : ∀ u x, Moves s u → Moves s (f u x)) (l : List α)
    (h : Moves s t) : Moves s (l.foldl f t) := by
  induction l generalizing t with
  | nil => exact h
  | cons x l ih => exact ih (hf t x h)

theorem Moves.place (h : Moves s t) (f : OutFrame) : Moves s (place f t) := h.kick (Touches.enqueue .refl f)
theorem Moves.placeFor (h : Moves s t) (p : Producer) (n : Nat) (d : Payload) : Moves s (placeFor p n d t) := h.place _
theorem Moves.channelChoice (h : Moves s t) : Moves s (channelChoice t) := by
  refine h.kick ?_
  split
  · exact Touches.chooseChannels .refl _
  · exact .refl

/-! ### Record changes -/

theorem Moves.setOven (h : Moves s t) (n : Nat) (o : Oven) : Moves s (t.setOven n o) := h.records {} {}
theorem Moves.modOven (h : Moves s t) (n : Nat) (f : Oven → Oven) : Moves s (t.modOven n f) := h.records {} {}
theorem Moves.modHygiene (h : Moves s t) (n : Nat) (f : Hygiene → Hygiene) : Moves s (t.modHygiene n f) := h.records {} {}
theorem Moves.setRoute (h : Moves s t) (e : Nat) (r : Route) : Moves s (t.setRoute e r) := h.records {} {}
theorem Moves.setChannel (h : Moves s t) (c : Nat) (b : Option Binding) : Moves s (t.setChannel c b) := h.records {} {}
theorem Moves.modChannel (h : Moves s t) (c : Nat) (f : Binding → Binding) : Moves s (t.modChannel c f) := h.records {} {}
theorem Moves.modRecipe (h : Moves s t) (i v : Nat) (f : Recipe → Recipe) : Moves s (t.modRecipe i v f) := h.records {} {}
theorem Moves.drawn (h : Moves s t) : Moves s t.drawn := h.records {} {}
theorem Moves.freeCheck (h : Moves s t) (i v : Nat) : Moves s (freeCheck i v t) := h.records {} {}
theorem Moves.addRef (h : Moves s t) (i v : Nat) : Moves s (addRef i v t) := h.records {} {}
theorem Moves.dropRef (h : Moves s t) (i v : Nat) : Moves s (dropRef i v t) := h.records {} {}

/-- A loaded set rewritten in what does not count for its soundness. -/
theorem Moves.setLoaded (h : Moves s t) (n : Nat) (l : List Entry) (k : l.map Entry.key = (t.loadedOf n).map Entry.key) :
    Moves s (t.setLoaded n l) := h.records {} ((Same.refl t).setLoaded n l k)
theorem Moves.modEntry (h : Moves s t) (n i v : Nat) (f : Entry → Entry) (k : ∀ e, (f e).key = e.key := by intro _; rfl) :
    Moves s (t.modEntry n i v f) := h.records {} ((Same.refl t).modEntry n i v f k)
/-- A ticket keeps its number and its class. -/
theorem Moves.modTicket (h : Moves s t) (n : Nat) (f : Ticket → Ticket)
    (k : ∀ x, (f x).number = x.number ∧ (f x).cls = x.cls := by intro _; exact ⟨rfl, rfl⟩) : Moves s (t.modTicket n f) :=
  h.records {} ((Same.refl t).modTicket n f k)
theorem Moves.modCampaign (h : Moves s t) (c : Nat) (f : Campaign → Campaign)
    (k : ∀ m, (f m).entries.map CEntry.oven = m.entries.map CEntry.oven := by intro _; rfl) : Moves s (t.modCampaign c f) :=
  h.records {} ((Same.refl t).modCampaign c f k)
theorem Moves.modCEntry (h : Moves s t) (c n : Nat) (f : CEntry → CEntry) (k : ∀ e, (f e).oven = e.oven := by intro _; rfl) :
    Moves s (t.modCEntry c n f) := h.records {} ((Same.refl t).modCEntry c n f k)

/-! ### Campaigns and permits -/

theorem setCampaign_sound (c : Nat) (m : Option Campaign)
    (hm : ∀ x, m = some x → (∀ y, t.campaign c = some y → (y.entries.map CEntry.oven).Pairwise (· < ·)) →
      (x.entries.map CEntry.oven).Pairwise (· < ·)) (k : t.RecordsOk) : (t.setCampaign c m).RecordsOk := by
  refine ⟨⟨k.tickets.1, k.tickets.2, k.tickets.3⟩, k.permits, k.loaded, ⟨k.slots.1, k.slots.2⟩, fun d x hx => ?_⟩
  by_cases hd : d = c
  · subst hd
    by_cases hr : 1 ≤ d ∧ d ≤ 4
    · rw [State.setCampaign_campaign _ _ _ hr] at hx
      exact hm x hx fun y hy => k.campaigns d y hy
    · have : t.setCampaign d m = t := by simp [State.setCampaign, vset_outside _ _ _ hr]
      exact k.campaigns d x (this ▸ hx)
  · rw [State.setCampaign_campaign_ne _ _ _ _ hd] at hx
    exact k.campaigns d x hx

/-- R156: a campaign record whose entries stand in ascending slot order. -/
theorem Moves.setCampaign (h : Moves s t) (c : Nat) (m : Option Campaign)
    (hm : ∀ x ∈ m, (x.entries.map CEntry.oven).Pairwise (· < ·) := by nofun) : Moves s (t.setCampaign c m) :=
  h.change {} (setCampaign_sound c m fun x hx _ => hm x hx)

theorem Moves.removeCEntry (h : Moves s t) (c n : Nat) : Moves s (t.removeCEntry c n) := by
  refine h.change {} (setCampaign_sound c _ fun x hx k => ?_)
  obtain ⟨y, hy, rfl⟩ := Option.map_eq_some_iff.1 hx
  exact (k y hy).sublist ((List.filter_sublist (l := y.entries)).map _)

theorem setPermit_sound (n : Nat) (p : Option Permit)
    (hp : ∀ x, p = some x → ∀ m q, m ≠ n → t.permit m = some q → x.number ≠ q.number) (k : t.RecordsOk) :
    (t.setPermit n p).RecordsOk := by
  refine ⟨⟨k.tickets.1, k.tickets.2, k.tickets.3⟩, fun a b x y hx hy e => ?_, k.loaded, ⟨k.slots.1, k.slots.2⟩, k.campaigns⟩
  by_cases hr : 1 ≤ n ∧ n ≤ 32
  · by_cases ha : a = n <;> by_cases hb : b = n
    · rw [ha, hb]
    · rw [ha, State.setPermit_permit _ _ _ hr] at hx
      rw [State.setPermit_permit_ne _ _ _ _ hb] at hy
      exact absurd e (hp x hx b y hb hy)
    · rw [State.setPermit_permit_ne _ _ _ _ ha] at hx
      rw [hb, State.setPermit_permit _ _ _ hr] at hy
      exact absurd e.symm (hp y hy a x ha hx)
    · rw [State.setPermit_permit_ne _ _ _ _ ha] at hx
      rw [State.setPermit_permit_ne _ _ _ _ hb] at hy
      exact k.permits a b x y hx hy e
  · have : t.setPermit n p = t := by simp [State.setPermit, vset_outside _ _ _ hr]
    exact k.permits a b x y (this ▸ hx) (this ▸ hy) e

/-- R101: a permit is closed. -/
theorem Moves.closePermit (h : Moves s t) (n : Nat) : Moves s (t.setPermit n none) :=
  h.change {} (setPermit_sound n none (by nofun))

/-- R107: a permit keeps its number. -/
theorem Moves.modPermit (h : Moves s t) (n : Nat) {p : Permit} (hp : t.permit n = some p) (f : Permit → Permit)
    (k : (f p).number = p.number := by rfl) : Moves s (t.setPermit n (some (f p))) :=
  h.records {} ((Same.refl t).setPermit n (some (f p)) (by rw [hp]; exact congrArg some k))

/-! ### Queues -/

theorem Moves.withdraw (h : Moves s t) (q : QueueName) (p : Producer) (sel : OutFrame → Bool) :
    Moves s (withdraw q p sel t) := h.shrink q _ List.filter_sublist
theorem Moves.withdrawSegments (h : Moves s t) (k : Nat) : Moves s (withdrawSegments k t) := h.withdraw _ _ _
theorem Moves.withdrawImage (h : Moves s t) (c : Nat) : Moves s (withdrawImage c t) := h.withdraw _ _ _

theorem Moves.raiseUpdate (h : Moves s t) (a c n f k : Nat) : Moves s (raiseUpdate a c n f k t) := h.raise _ _ _

theorem Moves.raiseFeed (h : Moves s t) (ch c n o : Nat) : Moves s (raiseFeed ch c n o t) := h.raise _ _ _

theorem Moves.raiseReleased (h : Moves s t) (ch c n o : Nat) : Moves s (raiseReleased ch c n o t) :=
  h.drawn.raise _ _ _

theorem Moves.finishCheck (h : Moves s t) (c : Nat) : Moves s (finishCheck c t) := by
  unfold Machine.finishCheck
  split
  · exact h
  · split
    · exact (h.modCampaign _ _).raise _ _ _
    · exact h

end Sys2Proof.Machine
end

