-- ==== Sys2Proof/Laws/Sets.lean ====
section
/-! SUPPORT. The Distribution Engine keeps the records sound (R68, R77). An operation that takes an entry out of transfer, or
out of its set, does so only where no distribution slot depends on it: the oven has no slot, or the entry is in transfer nowhere
(`Loose`). What every step of a pass over a loaded set keeps is said once (`Calmer`), and so is such a pass (`calmer_foldl`). -/

namespace Sys2Proof.Machine

set_option Elab.async false

variable {s t u : State} {n i v : Nat}

/-! ### Sequences of moves, whatever the records -/

theorem MoveSteps.records (h : MoveSteps s t) (k : Rest t u) : MoveSteps s u := h.tail (.records k)
theorem MoveSteps.raise (h : MoveSteps s t) (k : NoticeKind) (n : Nat) (d : List Byte) (hk : k ≠ .resync := by decide) :
    MoveSteps s (raise k n d t) := h.tail (.raised k n d t hk)
theorem MoveSteps.withdraw (h : MoveSteps s t) (q : QueueName) (p : Producer) (sel : OutFrame → Bool) :
    MoveSteps s (withdraw q p sel t) := h.tail (.shrunk q _ t List.filter_sublist)
theorem MoveSteps.withdrawSegments (h : MoveSteps s t) (k : Nat) : MoveSteps s (withdrawSegments k t) := h.withdraw _ _ _
theorem MoveSteps.placeFor (h : MoveSteps s t) (p : Producer) (n : Nat) (d : Payload) : MoveSteps s (placeFor p n d t) :=
  h.tail (.kicked (Touches.enqueue .refl _).steps)
theorem MoveSteps.setLoaded (h : MoveSteps s t) (n : Nat) (l : List Entry) : MoveSteps s (t.setLoaded n l) := h.records {}
theorem MoveSteps.modEntry (h : MoveSteps s t) (n i v : Nat) (f : Entry → Entry) : MoveSteps s (t.modEntry n i v f) :=
  h.setLoaded _ _
theorem MoveSteps.setDistSlot (h : MoveSteps s t) (k : Nat) (b : Option DistSlot) : MoveSteps s (t.setDistSlot k b) :=
  h.records {}

theorem MoveSteps.addRef (h : MoveSteps s t) (i v : Nat) : MoveSteps s (addRef i v t) := h.records {}
theorem MoveSteps.dropRef (h : MoveSteps s t) (i v : Nat) : MoveSteps s (dropRef i v t) := h.records {}
theorem MoveSteps.clearNoRoom (h : MoveSteps s t) (n : Nat) : MoveSteps s (clearNoRoom n t) := h.setLoaded _ _

theorem MoveSteps.ite {c : Prop} [Decidable c] (h : MoveSteps s t) (k : MoveSteps s u) :
    MoveSteps s (if c then t else u) := by split; exacts [h, k]

theorem MoveSteps.foldl {α : Type} {f : State → α → State} (hf : ∀ u x, MoveSteps s u → MoveSteps s (f u x)) (l : List α)
    (h : MoveSteps s t) : MoveSteps s (l.foldl f t) := by
  induction l generalizing t with
  | nil => exact h
  | cons x l ih => exact ih (hf t x h)

theorem MoveSteps.placeDiscard (h : MoveSteps s t) (n i v : Nat) : MoveSteps s (placeDiscard n i v t) := h.placeFor _ _ _

theorem MoveSteps.offer (h : MoveSteps s t) (n i v k : Nat) : MoveSteps s (offer n i v k t) := by
  unfold Machine.offer
  split
  · dsimp only
    exact ((MoveSteps.ite (h.raise .recipeEntry n _) h).modEntry _ _ _ _ |>.setDistSlot _ _).placeFor _ _ _
  · exact h

theorem MoveSteps.endTransfer (h : MoveSteps s t) (n : Nat) : MoveSteps s (endTransfer n t) := by
  unfold Machine.endTransfer
  dsimp only
  refine MoveSteps.setLoaded ?_ _ _
  split
  · exact (h.withdrawSegments _).setDistSlot _ _
  · exact h

theorem MoveSteps.removeEntry (h : MoveSteps s t) (n i v : Nat) : MoveSteps s (removeEntry n i v t) :=
  ((h.setLoaded _ _).clearNoRoom _).dropRef _ _
theorem MoveSteps.sendUnload (h : MoveSteps s t) (n i v : Nat) : MoveSteps s (sendUnload n i v t) :=
  (h.placeFor _ _ _).modEntry _ _ _ _
theorem MoveSteps.beginUnload (h : MoveSteps s t) (n i v : Nat) : MoveSteps s (beginUnload n i v t) :=
  (h.modEntry _ _ _ _).sendUnload _ _ _
theorem MoveSteps.toUnloading (h : MoveSteps s t) (n i v : Nat) : MoveSteps s (toUnloading n i v t) :=
  (h.modEntry _ _ _ _).ite (h.beginUnload _ _ _)

theorem MoveSteps.judgeEntry (h : MoveSteps s t) (n : Nat) (w : List Recipe) (e : Entry) :
    MoveSteps s (judgeEntry n w t e) := by
  unfold Machine.judgeEntry
  dsimp only
  split
  · exact h.ite (h.removeEntry _ _ _)
  · exact h.ite (h.removeEntry _ _ _)
  · exact h.ite (((h.endTransfer _).placeDiscard _ _ _).removeEntry _ _ _)
  · exact h.ite (((h.endTransfer _).placeDiscard _ _ _).removeEntry _ _ _)
  · exact (h.modEntry _ _ _ _).ite (h.toUnloading _ _ _)
  · exact h.ite (h.toUnloading _ _ _)
  · exact h

theorem MoveSteps.appendWanted (h : MoveSteps s t) (n : Nat) : MoveSteps s (appendWanted n t) :=
  h.foldl (fun _ _ k => ((k.setLoaded _ _).addRef _ _).ite k) _

theorem MoveSteps.contentChanged (h : MoveSteps s t) (n : Nat) (e : Entry) : MoveSteps s (contentChanged n t e) := by
  unfold Machine.contentChanged
  dsimp only
  split
  · exact h.modEntry _ _ _ _
  · exact h.modEntry _ _ _ _
  · exact ((h.endTransfer _).placeDiscard _ _ _).modEntry _ _ _ _
  · exact ((h.endTransfer _).placeDiscard _ _ _).modEntry _ _ _ _
  all_goals exact h

theorem MoveSteps.removeUnfit (h : MoveSteps s t) (n : Nat) (e : Entry) : MoveSteps s (removeUnfit n t e) := by
  have k := MoveSteps.ite (c := e.state.inTransfer = true) (h.endTransfer n) h
  exact ((k.placeDiscard _ _ _).ite k).removeEntry _ _ _

theorem MoveSteps.reduceEntry (h : MoveSteps s t) (n : Nat) (e : Entry) : MoveSteps s (reduceEntry n t e) := by
  unfold Machine.reduceEntry
  dsimp only
  refine h.ite ?_
  split
  · exact ((h.endTransfer _).placeDiscard _ _ _).modEntry _ _ _ _
  · exact ((h.endTransfer _).placeDiscard _ _ _).modEntry _ _ _ _
  · exact (h.modEntry _ _ _ _).placeDiscard _ _ _
  · exact (h.removeEntry _ _ _).placeDiscard _ _ _
  · exact (h.removeEntry _ _ _).placeDiscard _ _ _
  all_goals exact h

/-! ### Loaded sets -/

/-- A loaded set has no version twice, so an entry is known by its number and version. -/
theorem LoadedOk.unique {l : List Entry} (h : LoadedOk l) {x y : Entry} (hx : x ∈ l) (hy : y ∈ l) (a : x.number = y.number)
    (b : x.version = y.version) : x = y :=
  List.inj_on_of_nodup_map h.keys hx hy (Prod.ext a b)

/-- A loaded set has one entry in transfer at most. -/
theorem LoadedOk.single {l : List Entry} (h : LoadedOk l) {x y : Entry} (hx : x ∈ l) (hy : y ∈ l)
    (a : x.state.inTransfer = true) (b : y.state.inTransfer = true) : x = y := by
  have k := h.transfers
  rw [List.countP_eq_length_filter] at k
  have mx : x ∈ l.filter (fun e => e.state.inTransfer) := List.mem_filter.2 ⟨hx, a⟩
  have my : y ∈ l.filter (fun e => e.state.inTransfer) := List.mem_filter.2 ⟨hy, b⟩
  generalize l.filter (fun e => e.state.inTransfer) = m at k mx my
  match m, k with
  | [], _ => cases mx
  | [z], _ => exact (List.mem_singleton.1 mx).trans (List.mem_singleton.1 my).symm

theorem LoadedOk.sublist {l m : List Entry} (h : LoadedOk l) (k : m.Sublist l) : LoadedOk m where
  size := k.length_le.trans h.size
  keys := h.keys.sublist (k.map _)
  transfers := (k.countP_le).trans h.transfers

/-- Entries rewritten with their numbers and versions, none newly in transfer. -/
theorem LoadedOk.map {l : List Entry} (h : LoadedOk l) {g : Entry → Entry}
    (hg : ∀ e ∈ l, (g e).number = e.number ∧ (g e).version = e.version ∧
      ((g e).state.inTransfer = true → e.state.inTransfer = true)) : LoadedOk (l.map g) where
  size := by simpa using h.size
  keys := by
    rw [List.map_map, List.map_congr_left (g := fun e => (e.number, e.version)) (fun e he => Prod.ext (hg e he).1 (hg e he).2.1)]
    exact h.keys
  transfers := by
    rw [List.countP_map]
    exact (List.countP_mono_left fun e he => (hg e he).2.2).trans h.transfers

theorem State.loadedOf_outside (s : State) (n : Nat) (h : ¬ isSlot n) : s.loadedOf n = [] := vget_outside _ _ _ h
theorem State.setLoaded_outside (s : State) (n : Nat) (l : List Entry) (h : ¬ isSlot n) : s.setLoaded n l = s := by
  simp [State.setLoaded, vset_outside _ _ _ h]
theorem State.setDistSlot_outside (s : State) (k : Nat) (b : Option DistSlot) (h : ¬ (1 ≤ k ∧ k ≤ 4)) :
    s.setDistSlot k b = s := by simp [State.setDistSlot, vset_outside _ _ _ h]

/-- The slots and the loaded sets of a state, written anew: what is left to show. -/
theorem State.RecordsOk.sets (k : s.RecordsOk) (h : ∀ n, LoadedOk (t.loadedOf n)) (m : t.SlotsOk)
    (tickets : t.tickets = s.tickets := by rfl) (classes : t.classes = s.classes := by rfl)
    (permits : t.permits = s.permits := by rfl) (campaigns : t.campaigns = s.campaigns := by rfl) : t.RecordsOk where
  tickets := ⟨tickets ▸ k.tickets.1, tickets ▸ k.tickets.2, by
    simpa only [State.cls, tickets, classes] using k.tickets.3⟩
  permits := by simpa only [State.PermitsOk, State.permit, permits] using k.permits
  loaded := h
  slots := m
  campaigns := by simpa only [State.CampaignsOk, State.campaign, campaigns] using k.campaigns

/-! ### What no slot depends on -/

/-- No distribution slot is bound to the oven. -/
def State.Clear (s : State) (n : Nat) : Prop := ∀ k b, s.distSlot k = some b → b.oven ≠ n

/-- No entry of this number and version is in transfer. -/
def State.Idle (s : State) (n i v : Nat) : Prop :=
  ∀ e ∈ s.loadedOf n, e.number = i → e.version = v → e.state.inTransfer = false

/-- No slot depends on the oven's entry of this number and version. -/
def State.Loose (s : State) (n i v : Nat) : Prop := s.Clear n ∨ s.Idle n i v

/-- The records are sound, and no slot has come to depend on an entry of the oven. -/
structure Calmer (n : Nat) (s t : State) : Prop where
  ok : t.RecordsOk
  clear : s.Clear n → t.Clear n
  idle : ∀ i v, s.Idle n i v → t.Idle n i v

theorem Calmer.loose (h : Calmer n s t) (k : s.Loose n i v) : t.Loose n i v := k.imp h.clear (h.idle i v)
theorem Calmer.trans (h : Calmer n s t) (k : Calmer n t u) : Calmer n s u :=
  ⟨k.ok, k.clear ∘ h.clear, fun i v => k.idle i v ∘ h.idle i v⟩

theorem Same.calmer (h : Same s t) (k : s.RecordsOk) (n : Nat) : Calmer n s t where
  ok := h.recordsOk k
  clear c j b hb e := by
    obtain ⟨b', hb', o, -, -⟩ := h.slot hb
    exact c j b' hb' (o.trans e)
  idle i v c e he a b := by
    obtain ⟨x, hx, xn, xv, xt⟩ := h.entry he
    exact xt ▸ c x hx (xn.trans a) (xv.trans b)

theorem Calmer.same (h : Calmer n s t) (k : Same t u) : Calmer n s u := h.trans (k.calmer h.ok n)
theorem Calmer.refl (k : s.RecordsOk) : Calmer n s s := (Same.refl s).calmer k n

theorem Calmer.ite {c : Prop} [Decidable c] (h : Calmer n s t) (k : Calmer n s u) : Calmer n s (if c then t else u) := by
  split; exacts [h, k]

/-- An entry of the oven that is not in transfer is loose. -/
theorem State.RecordsOk.loose (k : s.RecordsOk) {e : Entry} (he : e ∈ s.loadedOf n) (h : e.state.inTransfer = false) :
    s.Loose n e.number e.version :=
  .inr fun _ hx a b => (k.loaded n).unique hx he a b ▸ h

/-- An oven with no entry in transfer has no slot. -/
theorem State.RecordsOk.clear (k : s.RecordsOk) (h : s.transferEntry n = none) : s.Clear n := by
  rintro j b hb rfl
  obtain ⟨e, he, -, -, ht⟩ := k.slots.named j b hb
  exact List.find?_eq_none.1 h e he ht

/-- A pass over entries of the oven: each step is calmer where its entry is loose, if the entry asks for it. -/
theorem calmer_foldl {f : State → Entry → State} (P : Entry → Prop) (l : List Entry) (k : s.RecordsOk)
    (hl : ∀ e ∈ l, P e → s.Loose n e.number e.version)
    (hf : ∀ u : State, u.RecordsOk → ∀ e, (P e → u.Loose n e.number e.version) → Calmer n u (f u e)) :
    Calmer n s (l.foldl f s) := by
  induction l generalizing s with
  | nil => exact .refl k
  | cons e l ih =>
    have c := hf s k e (hl e (List.mem_cons_self ..))
    exact c.trans (ih c.ok fun x hx p => c.loose (hl x (List.mem_cons_of_mem _ hx) p))

/-! ### Writes of a loaded set -/

/-- A loaded set written anew: nothing is newly in transfer, and what a slot may depend on stays. -/
theorem setLoaded_calmer (k : s.RecordsOk) {l : List Entry} (hl : LoadedOk l)
    (new : ∀ e ∈ l, e.state.inTransfer = true → ∃ x ∈ s.loadedOf n, x.key = e.key)
    (old : s.Clear n ∨ ∀ x ∈ s.loadedOf n, x.state.inTransfer = true → ∃ e ∈ l, e.key = x.key) :
    Calmer n s (s.setLoaded n l) := by
  by_cases hn : isSlot n
  · have hs := s.setLoaded_loadedOf n l hn
    refine ⟨k.sets (fun m => ?_) ⟨fun j b hb => ?_, k.slots.once⟩, id, fun i v c e he a b => ?_⟩
    · by_cases hm : m = n
      · subst hm; rw [hs]; exact hl
      · rw [s.setLoaded_loadedOf_ne _ _ _ hm]; exact k.loaded m
    · obtain ⟨x, hx, xn, xv, xt⟩ := k.slots.named j b hb
      by_cases hm : b.oven = n
      · subst hm
        rw [hs]
        rcases old with c | o
        · exact absurd rfl (c j b hb)
        · obtain ⟨e, he, ek⟩ := o x hx xt
          simp only [Entry.key, Prod.mk.injEq] at ek
          exact ⟨e, he, ek.1.trans xn, ek.2.1.trans xv, ek.2.2.trans xt⟩
      · rw [s.setLoaded_loadedOf_ne _ _ _ hm]; exact ⟨x, hx, xn, xv, xt⟩
    · rw [hs] at he
      by_contra ht
      obtain ⟨x, hx, ek⟩ := new e he (by simpa using ht)
      simp only [Entry.key, Prod.mk.injEq] at ek
      exact ht (ek.2.2 ▸ c x hx (ek.1.trans a) (ek.2.1.trans b))
  · rw [s.setLoaded_outside _ _ hn]; exact .refl k

/-- Entries rewritten with their numbers and versions, none newly in transfer, none that a slot may depend on out of it. -/
theorem mapLoaded_calmer (k : s.RecordsOk) (g : Entry → Entry)
    (hg : ∀ e ∈ s.loadedOf n, (g e).number = e.number ∧ (g e).version = e.version ∧
      ((g e).state.inTransfer = true → e.state.inTransfer = true))
    (old : s.Clear n ∨ ∀ e ∈ s.loadedOf n, e.state.inTransfer = true → (g e).state.inTransfer = true) :
    Calmer n s (s.setLoaded n ((s.loadedOf n).map g)) := by
  refine setLoaded_calmer k ((k.loaded n).map hg) (fun e he ht => ?_) (old.imp id fun o x hx xt => ?_)
  · obtain ⟨x, hx, rfl⟩ := List.mem_map.1 he
    have h := hg x hx
    exact ⟨x, hx, by simp only [Entry.key, h.1, h.2.1, ht, h.2.2 ht]⟩
  · have h := hg x hx
    exact ⟨g x, List.mem_map_of_mem hx, by simp only [Entry.key, h.1, h.2.1, xt, o x hx xt]⟩

theorem Entry.is_iff {e : Entry} : e.is i v = true ↔ e.number = i ∧ e.version = v := by simp [Entry.is]

/-- An entry that is loose leaves transfer, or was not in it. -/
theorem modEntry_calmer (k : s.RecordsOk) (hs : s.Loose n i v) (f : Entry → Entry)
    (hf : ∀ e, (f e).number = e.number ∧ (f e).version = e.version ∧ (f e).state.inTransfer = false := by
      intro _; exact ⟨rfl, rfl, rfl⟩) : Calmer n s (s.modEntry n i v f) := by
  refine mapLoaded_calmer k _ (fun e he => ?_) (hs.imp id fun c e he ht => ?_)
  · split
    · exact ⟨(hf e).1, (hf e).2.1, fun h => absurd h (by simp [(hf e).2.2])⟩
    · exact ⟨rfl, rfl, id⟩
  · split
    · rename_i hi
      have := Entry.is_iff.1 hi
      exact absurd ht (by simp [c e he this.1 this.2])
    · exact ht

/-- A loose entry leaves the set. -/
theorem filterEntry_calmer (k : s.RecordsOk) (hs : s.Loose n i v) :
    Calmer n s (s.setLoaded n ((s.loadedOf n).filter (fun e => !e.is i v))) := by
  refine setLoaded_calmer k ((k.loaded n).sublist List.filter_sublist)
    (fun e he _ => ⟨e, (List.mem_filter.1 he).1, rfl⟩) (hs.imp id fun c e he ht => ?_)
  refine ⟨e, List.mem_filter.2 ⟨he, ?_⟩, rfl⟩
  cases hi : e.is i v with
  | false => rfl
  | true =>
    have := Entry.is_iff.1 hi
    exact absurd ht (by simp [c e he this.1 this.2])

theorem clearNoRoom_same (n : Nat) (s : State) : Same s (clearNoRoom n s) :=
  (Same.refl s).setLoaded n _ (map_key (f := fun e => { e with noRoom := false }) (fun _ => rfl) _)

theorem removeEntry_calmer (k : s.RecordsOk) (hs : s.Loose n i v) : Calmer n s (removeEntry n i v s) :=
  ((filterEntry_calmer k hs).same (clearNoRoom_same n _)).same ((Same.refl _).dropRef i v)

theorem placeFor_same (p : Producer) (n : Nat) (d : Payload) (s : State) : Same s (placeFor p n d s) :=
  (Touches.placeFor .refl p n d).same
theorem placeDiscard_same (n i v : Nat) (s : State) : Same s (placeDiscard n i v s) := placeFor_same _ _ _ s
theorem sendUnload_same (n i v : Nat) (s : State) : Same s (sendUnload n i v s) :=
  (placeFor_same _ _ _ s).modEntry _ _ _ _

theorem beginUnload_calmer (k : s.RecordsOk) (hs : s.Loose n i v) : Calmer n s (beginUnload n i v s) :=
  (modEntry_calmer k hs _).same (sendUnload_same n i v _)

theorem toUnloading_calmer (k : s.RecordsOk) (hs : s.Loose n i v) : Calmer n s (toUnloading n i v s) :=
  (((Same.refl s).modEntry _ _ _ _).calmer k n).ite (beginUnload_calmer k hs)

/-! ### The end of a transfer -/

theorem setDistSlot_none_calmer (k : s.RecordsOk) (j : Nat) (n : Nat) : Calmer n s (s.setDistSlot j none) := by
  have h : ∀ i b, (s.setDistSlot j none).distSlot i = some b → s.distSlot i = some b := by
    intro i b hb
    by_cases hj : 1 ≤ j ∧ j ≤ 4
    · by_cases hi : i = j
      · subst hi; rw [s.setDistSlot_distSlot _ _ hj] at hb; cases hb
      · rwa [s.setDistSlot_distSlot_ne _ _ _ hi] at hb
    · rwa [s.setDistSlot_outside _ _ hj] at hb
  exact ⟨k.sets k.loaded ⟨fun i b hb => k.slots.named i b (h i b hb), fun i l a b ha hb =>
    k.slots.once i l a b (h i a ha) (h l b hb)⟩, fun c i b hb => c i b (h i b hb), fun _ _ => id⟩

theorem State.boundSlot_some {k : Nat} (h : s.boundSlot n = some k) :
    (1 ≤ k ∧ k ≤ 4) ∧ ∃ b, s.distSlot k = some b ∧ b.oven = n := by
  have m := List.mem_of_find?_eq_some h
  have p := List.find?_some h
  refine ⟨by simp [allDistSlots] at m; omega, ?_⟩
  split at p
  · rename_i b hb; exact ⟨b, hb, by simpa using p⟩
  · cases p

theorem State.distSlot_range {k : Nat} {b : DistSlot} (h : s.distSlot k = some b) : 1 ≤ k ∧ k ≤ 4 := by
  by_contra c
  rw [State.distSlot, vget_outside _ _ _ c] at h
  cases h

theorem State.boundSlot_none (h : s.boundSlot n = none) : s.Clear n := by
  intro k b hb e
  have r := s.distSlot_range hb
  have := List.find?_eq_none.1 h k (by simp [allDistSlots]; omega)
  simp [hb, e] at this

/-- R80: after its transfer has been ended the oven has no slot. -/
theorem endTransfer_calmer (k : s.RecordsOk) : Calmer n s (endTransfer n s) ∧ (endTransfer n s).Clear n := by
  unfold Machine.endTransfer
  dsimp only
  have last : ∀ u : State, u.RecordsOk → Calmer n u (u.setLoaded n ((u.loadedOf n).map
      (fun e => if e.state.inTransfer then { e with deadline := none } else e))) := fun u _ =>
    ((Same.refl u).setLoaded n _ (map_key (fun e => by split <;> rfl) _)).calmer ‹_› n
  split
  · rename_i j hj
    obtain ⟨hr, b, hb, ho⟩ := State.boundSlot_some hj
    have a := ((Same.refl s).setQueue .bulk (s.bulk.filter
      (fun f => !(f.producer = .distribution && f.mark = .distSlot j)))).calmer k n
    have c := a.trans (setDistSlot_none_calmer a.ok j n)
    refine ⟨c.trans (last _ c.ok), (last _ c.ok).clear fun i b' hb' e => ?_⟩
    by_cases hi : i = j
    · subst hi
      rw [State.setDistSlot_distSlot _ _ _ hr] at hb'
      cases hb'
    · rw [State.setDistSlot_distSlot_ne _ _ _ _ hi] at hb'
      exact hi (k.slots.once i j b' b hb' hb (ho.trans e.symm).symm)
  · rename_i hj
    exact ⟨last s k, (last s k).clear (s.boundSlot_none hj)⟩

/-- A transfer is ended and its entry goes on to a state that is none of a transfer. -/
theorem endTransfer_discard (k : s.RecordsOk) (n i v : Nat) :
    Calmer n s (placeDiscard n i v (endTransfer n s)) ∧ (placeDiscard n i v (endTransfer n s)).Clear n := by
  obtain ⟨c, d⟩ := endTransfer_calmer (n := n) k
  exact ⟨c.same (placeDiscard_same _ _ _ _), ((placeDiscard_same n i v _).calmer c.ok n).clear d⟩

/-! ### Passes -/

/-- Entries of the oven that are not in transfer, as they are found. -/
abbrev Entry.Resting (e : Entry) : Prop := e.state.inTransfer = false

theorem judgeEntry_calmer (w : List Recipe) (k : s.RecordsOk) (e : Entry)
    (hs : e.Resting → s.Loose n e.number e.version) : Calmer n s (judgeEntry n w s e) := by
  unfold Machine.judgeEntry
  dsimp only
  have out : Calmer n s (removeEntry n e.number e.version (placeDiscard n e.number e.version (endTransfer n s))) := by
    obtain ⟨c, d⟩ := endTransfer_discard k n e.number e.version
    exact c.trans (removeEntry_calmer c.ok (.inl d))
  split <;> rename_i he
  · exact (Calmer.refl k).ite (removeEntry_calmer k (hs (by simp [Entry.Resting, he, EntryState.inTransfer])))
  · exact (Calmer.refl k).ite (removeEntry_calmer k (hs (by simp [Entry.Resting, he, EntryState.inTransfer])))
  · exact (Calmer.refl k).ite out
  · exact (Calmer.refl k).ite out
  · exact (((Same.refl s).modEntry _ _ _ _).calmer k n).ite
      (toUnloading_calmer k (hs (by simp [Entry.Resting, he, EntryState.inTransfer])))
  · exact (Calmer.refl k).ite (toUnloading_calmer k (hs (by simp [Entry.Resting, he, EntryState.inTransfer])))
  · exact .refl k

theorem contentChanged_calmer (k : s.RecordsOk) (e : Entry) (hs : e.Resting → s.Loose n e.number e.version) :
    Calmer n s (contentChanged n s e) := by
  unfold Machine.contentChanged
  dsimp only
  have out := endTransfer_discard k n e.number e.version
  split <;> rename_i he
  · exact modEntry_calmer k (hs (by simp [Entry.Resting, he, EntryState.inTransfer])) _
  · exact modEntry_calmer k (hs (by simp [Entry.Resting, he, EntryState.inTransfer])) _
  · exact out.1.trans (modEntry_calmer out.1.ok (.inl out.2) _)
  · exact out.1.trans (modEntry_calmer out.1.ok (.inl out.2) _)
  all_goals exact .refl k

theorem removeUnfit_calmer (k : s.RecordsOk) (e : Entry) (hs : e.Resting → s.Loose n e.number e.version) :
    Calmer n s (removeUnfit n s e) := by
  unfold Machine.removeUnfit
  dsimp only
  have a : Calmer n s (if e.state.inTransfer then endTransfer n s else s) ∧
      (if e.state.inTransfer then endTransfer n s else s).Loose n e.number e.version := by
    split
    · exact ⟨(endTransfer_calmer k).1, .inl (endTransfer_calmer k).2⟩
    · rename_i h; exact ⟨.refl k, hs (by simpa using h)⟩
  generalize (if e.state.inTransfer then endTransfer n s else s) = x at a
  have b := Calmer.ite (c := e.state.counted = true) ((placeDiscard_same n e.number e.version x).calmer a.1.ok n) (.refl a.1.ok)
  exact (a.1.trans b).trans (removeEntry_calmer b.ok (b.loose a.2))

theorem reduceEntry_calmer (k : s.RecordsOk) (e : Entry) (hs : e.Resting → s.Loose n e.number e.version) :
    Calmer n s (reduceEntry n s e) := by
  unfold Machine.reduceEntry
  dsimp only
  refine (Calmer.refl k).ite ?_
  have out := endTransfer_discard k n e.number e.version
  split <;> rename_i he
  · exact out.1.trans (modEntry_calmer out.1.ok (.inl out.2) _)
  · exact out.1.trans (modEntry_calmer out.1.ok (.inl out.2) _)
  · exact (modEntry_calmer k (hs (by simp [Entry.Resting, he, EntryState.inTransfer])) _).same (placeDiscard_same _ _ _ _)
  · exact (removeEntry_calmer k (hs (by simp [Entry.Resting, he, EntryState.inTransfer]))).same (placeDiscard_same _ _ _ _)
  · exact (removeEntry_calmer k (hs (by simp [Entry.Resting, he, EntryState.inTransfer]))).same (placeDiscard_same _ _ _ _)
  all_goals exact .refl k

/-- A version that has no entry joins a set with a free place. -/
theorem appendEntry_calmer (k : s.RecordsOk) (hn : (s.entry n i v).isNone) (hl : (s.loadedOf n).length < Config.loadedPlaces) :
    Calmer n s (s.setLoaded n (s.loadedOf n ++ [{ number := i, version := v }])) := by
  have out : ∀ e ∈ s.loadedOf n, ¬ e.is i v = true := List.find?_eq_none.1 (Option.isNone_iff_eq_none.1 hn)
  refine setLoaded_calmer k ⟨?_, ?_, ?_⟩ (fun e he ht => ?_) (.inr fun x hx _ => ⟨x, List.mem_append_left _ hx, rfl⟩)
  · rw [List.length_append]; exact hl
  · rw [List.map_append, List.nodup_append]
    refine ⟨(k.loaded n).keys, by simp, fun a ha b hb e => ?_⟩
    obtain ⟨x, hx, rfl⟩ := List.mem_map.1 ha
    simp only [List.map_cons, List.map_nil, List.mem_singleton] at hb
    subst hb
    exact out x hx (Entry.is_iff.2 (by simpa using e))
  · rw [List.countP_append]; exact (k.loaded n).transfers
  · rcases List.mem_append.1 he with he | he
    · exact ⟨e, he, rfl⟩
    · rw [List.mem_singleton.1 he] at ht; cases ht

theorem appendWanted_calmer (k : s.RecordsOk) : Calmer n s (appendWanted n s) := by
  unfold Machine.appendWanted
  generalize s.wanted n = w
  induction w generalizing s with
  | nil => exact .refl k
  | cons r w ih =>
    rw [List.foldl_cons]
    split
    · rename_i h
      have c := (appendEntry_calmer k h.1 h.2).same ((Same.refl _).addRef r.number r.version)
      exact c.trans (ih c.ok)
    · exact ih k

/-! ### The operations as moves -/

theorem Moves.ite {c : Prop} [Decidable c] (h : Moves s t) (k : Moves s u) : Moves s (if c then t else u) := by
  split
  · exact h
  · exact k

/-- A pass over entries found in the oven's set. -/
theorem Moves.entries (h : Moves s t) {f : State → Entry → State} (l : List Entry) (hl : ∀ e ∈ l, e ∈ t.loadedOf n)
    (steps : ∀ {s t : State}, MoveSteps s t → ∀ e, MoveSteps s (f t e))
    (calm : ∀ u : State, u.RecordsOk → ∀ e, (e.Resting → u.Loose n e.number e.version) → Calmer n u (f u e)) :
    Moves s (l.foldl f t) :=
  h.tail (MoveSteps.foldl (fun _ e k => steps k e) l .refl)
    fun k => (calmer_foldl Entry.Resting l k (fun e he => k.loose (hl e he)) calm).ok

/-- A pass over entries found in the oven's set, none of them in transfer. -/
theorem Moves.stillEntries (h : Moves s t) {f : State → Entry → State} (l : List Entry)
    (hl : ∀ e ∈ l, e ∈ t.loadedOf n ∧ e.Resting)
    (steps : ∀ {s t : State}, MoveSteps s t → ∀ e, MoveSteps s (f t e))
    (calm : ∀ u : State, u.RecordsOk → ∀ e, u.Loose n e.number e.version → Calmer n u (f u e)) :
    Moves s (l.foldl f t) :=
  h.tail (MoveSteps.foldl (fun _ e k => steps k e) l .refl)
    fun k => (calmer_foldl (fun _ => True) l k (fun e he _ => k.loose (hl e he).1 (hl e he).2)
      fun u hu e he => calm u hu e (he trivial)).ok

theorem Moves.raiseRecipeEntry (h : Moves s t) (n i v c : Nat) : Moves s (raiseRecipeEntry n i v c t) := h.raise _ _ _
theorem Moves.placeDiscard (h : Moves s t) (n i v : Nat) : Moves s (placeDiscard n i v t) := h.placeFor _ _ _

theorem LoadedOk.is_le_one {l : List Entry} (h : LoadedOk l) (i v : Nat) : l.countP (fun e => e.is i v) ≤ 1 := by
  have := List.nodup_iff_count_le_one.1 h.keys (i, v)
  rw [List.count, List.countP_map] at this
  refine le_trans (List.countP_mono_left fun e _ he => ?_) this
  have := Entry.is_iff.1 he
  simp [this.1, this.2]

/-- R78: what an offer is made under: the slot is free or the oven's own, the oven has no other, and no other entry of the oven is
in transfer. -/
structure State.MayOffer (s : State) (n i v k : Nat) : Prop where
  range : 1 ≤ k ∧ k ≤ 4
  own : ∀ b, s.distSlot k = some b → b.oven = n
  only : ∀ j b, s.distSlot j = some b → b.oven = n → j = k
  alone : ∀ e ∈ s.loadedOf n, e.state.inTransfer = true → e.is i v = true

theorem Same.mayOffer (h : Same s t) {k : Nat} (m : s.MayOffer n i v k) : t.MayOffer n i v k where
  range := m.range
  own b hb := by obtain ⟨c, hc, o, -⟩ := h.slot hb; exact o ▸ m.own c hc
  only j b hb e := by obtain ⟨c, hc, o, -⟩ := h.slot hb; exact m.only j c hc (o.trans e)
  alone e he ht := by
    obtain ⟨x, hx, a, b, c⟩ := h.entry he
    have := Entry.is_iff.1 (m.alone x hx (c.trans ht))
    exact Entry.is_iff.2 ⟨a.symm.trans this.1, b.symm.trans this.2⟩

/-- An entry in transfer with the slot that names it. -/
theorem bindSlot_ok (k : s.RecordsOk) {j : Nat} (m : s.MayOffer n i v j) {e : Entry} (he : e ∈ s.loadedOf n)
    (hi : e.is i v = true) (f : Entry → Entry)
    (hf : ∀ e, (f e).number = e.number ∧ (f e).version = e.version ∧ (f e).state.inTransfer = true) (b : DistSlot)
    (hb : b.oven = n ∧ b.number = i ∧ b.version = v) :
    ((s.modEntry n i v f).setDistSlot j (some b)).RecordsOk := by
  have hn : isSlot n := by
    by_contra c
    rw [s.loadedOf_outside _ c] at he
    cases he
  have hl : LoadedOk ((s.loadedOf n).map (fun e => if e.is i v then f e else e)) := by
    refine ⟨by simpa using (k.loaded n).size, ?_, ?_⟩
    · rw [List.map_map, List.map_congr_left (g := fun e => (e.number, e.version)) (fun e _ => ?_)]
      · exact (k.loaded n).keys
      · simp only [Function.comp]
        split
        · exact Prod.ext (hf e).1 (hf e).2.1
        · rfl
    · rw [List.countP_map]
      refine (List.countP_mono_left fun e he ht => ?_).trans ((k.loaded n).is_le_one i v)
      simp only [Function.comp] at ht
      split at ht
      · assumption
      · exact m.alone e he ht
  have hs := s.setLoaded_loadedOf n ((s.loadedOf n).map (fun e => if e.is i v then f e else e)) hn
  have hk := State.setDistSlot_distSlot (s.modEntry n i v f) j (some b) m.range
  have hj := fun x => State.setDistSlot_distSlot_ne (s.modEntry n i v f) j x (some b)
  refine k.sets (fun x => ?_) ⟨fun x c hc => ?_, fun x y c d hc hd e' => ?_⟩
  · show LoadedOk ((s.modEntry n i v f).loadedOf x)
    by_cases hx : x = n
    · subst hx; rw [State.modEntry, hs]; exact hl
    · rw [State.modEntry, s.setLoaded_loadedOf_ne _ _ _ hx]; exact k.loaded x
  · show ∃ z ∈ (s.modEntry n i v f).loadedOf c.oven, _
    by_cases hx : x = j
    · subst hx
      rw [hk] at hc
      obtain rfl := Option.some.inj hc
      rw [hb.1, State.modEntry, hs]
      have h := Entry.is_iff.1 hi
      refine ⟨f e, List.mem_map.2 ⟨e, he, if_pos hi⟩, ?_, ?_, (hf e).2.2⟩
      · rw [(hf e).1, h.1, hb.2.1]
      · rw [(hf e).2.1, h.2, hb.2.2]
    · rw [hj x hx] at hc
      have ho : c.oven ≠ n := fun q => hx (m.only x c hc q)
      rw [State.modEntry, s.setLoaded_loadedOf_ne _ _ _ ho]
      exact k.slots.named x c hc
  · by_cases hx : x = j <;> by_cases hy : y = j
    · rw [hx, hy]
    · subst hx
      rw [hk] at hc
      rw [hj y hy] at hd
      obtain rfl := Option.some.inj hc
      exact absurd (m.only y d hd (e'.symm.trans hb.1)) hy
    · subst hy
      rw [hk] at hd
      rw [hj x hx] at hc
      obtain rfl := Option.some.inj hd
      exact absurd (m.only x c hc (e'.trans hb.1)) hx
    · rw [hj x hx] at hc
      rw [hj y hy] at hd
      exact k.slots.once x y c d hc hd e'

theorem offer_ok (k : s.RecordsOk) {j : Nat} (m : s.MayOffer n i v j) : (offer n i v j s).RecordsOk := by
  unfold Machine.offer
  split
  · rename_i r e hr he
    dsimp only
    refine (placeFor_same _ _ _ _).recordsOk ?_
    have g : Same s (if (r.steps.any (stepClamped (s.oven n)) && !e.clamped) = true then Machine.raiseRecipeEntry n i v 0 s else s) := by
      split
      · exact (Same.refl s).raise _ _ _
      · exact .refl s
    generalize (if (r.steps.any (stepClamped (s.oven n)) && !e.clamped) = true then Machine.raiseRecipeEntry n i v 0 s else s) = x at g
    obtain ⟨y, hy, yn, yv, -⟩ := g.symm.entry (List.mem_of_find?_eq_some he)
    have h := Entry.is_iff.1 (List.find?_some (p := fun e : Entry => e.is i v) he)
    refine bindSlot_ok (g.recordsOk k) (g.mayOffer m) hy (Entry.is_iff.2 ⟨yn.trans h.1, yv.trans h.2⟩) _ (fun _ => ?_) _ ?_ <;>
      exact ⟨rfl, rfl, rfl⟩
  · exact k

/-- R77: an oven that qualifies may have a free slot. -/
theorem State.RecordsOk.mayOffer (k : s.RecordsOk) {j : Nat} (i v : Nat) (hr : 1 ≤ j ∧ j ≤ 4) (hj : s.distSlot j = none)
    (hq : s.transferEntry n = none) : s.MayOffer n i v j where
  range := hr
  own b hb := by rw [hj] at hb; cases hb
  only x b hb e := absurd e (k.clear hq x b hb)
  alone e he ht := absurd ht (List.find?_eq_none.1 hq e he)

theorem Moves.chooseSlots (h : Moves s t) (fuel : Nat) : Moves s (chooseSlots fuel t) := by
  induction fuel generalizing t with
  | zero => exact h
  | succ fuel ih =>
    unfold Machine.chooseSlots
    split
    · rename_i j n hj hn
      split
      · rename_i e he
        refine ih ((h.records (u := { t with pointer := n }) {} {}).tail (MoveSteps.offer .refl _ _ _ _) fun k => ?_)
        have hr := List.mem_of_find?_eq_some hj
        have hq := List.find?_some hn
        simp only [State.slotQualifies, Bool.and_eq_true, Option.isNone_iff_eq_none] at hq
        exact offer_ok k (k.mayOffer _ _ (by simp [allDistSlots] at hr; omega)
          (Option.isNone_iff_eq_none.1 (List.find?_some (p := fun j => (t.distSlot j).isNone) hj)) hq.1.1.2)
      · exact h
    · exact h

theorem Moves.slotChoice (h : Moves s t) : Moves s (slotChoice t) := (h.chooseSlots _).ite h

theorem Moves.endTransfer (h : Moves s t) (n : Nat) : Moves s (endTransfer n t) :=
  h.tail (MoveSteps.endTransfer .refl n) fun k => (endTransfer_calmer k).1.ok
theorem Moves.clearNoRoom (h : Moves s t) (n : Nat) : Moves s (clearNoRoom n t) := h.records {} (clearNoRoom_same n t)
theorem Moves.sendUnload (h : Moves s t) (n i v : Nat) : Moves s (sendUnload n i v t) :=
  (h.placeFor _ _ _).modEntry _ _ _ _

theorem Moves.unloadDeferred (h : Moves s t) (n : Nat) : Moves s (unloadDeferred n t) := by
  unfold Machine.unloadDeferred
  dsimp only
  split
  · refine Moves.slotChoice (h.tail ((MoveSteps.endTransfer .refl n).foldl (fun _ _ k => k.beginUnload _ _ _) _) fun k => ?_)
    obtain ⟨c, d⟩ := endTransfer_calmer (n := n) k
    exact (calmer_foldl (fun _ => True) _ c.ok (fun e _ _ => .inl d) fun u hu e he => beginUnload_calmer hu (he trivial)).ok
  · rename_i hd
    refine h.stillEntries (n := n) _ (fun e he => ⟨(List.mem_filter.1 he).1, ?_⟩) (fun k e => k.beginUnload _ _ _)
      fun u hu e he => beginUnload_calmer hu he
    simp only [List.any_eq_true, not_exists, not_and, Bool.not_eq_true] at hd
    exact hd e he

theorem Moves.appendWanted (h : Moves s t) (n : Nat) : Moves s (appendWanted n t) :=
  h.tail (MoveSteps.appendWanted .refl n) fun k => (appendWanted_calmer k).ok

theorem Moves.recompute (h : Moves s t) (n : Nat) : Moves s (recompute n t) := by
  have k := (h.appendWanted n).entries (n := n) (f := Machine.judgeEntry n ((Machine.appendWanted n t).wanted n))
    ((Machine.appendWanted n t).loadedOf n) (fun _ he => he) (fun k e => k.judgeEntry _ _ e)
    fun u hu e he => judgeEntry_calmer _ hu e he
  exact (k.appendWanted n).ite k

theorem Moves.recomputeOne (h : Moves s t) (n : Nat) : Moves s (recomputeOne n t) := (h.recompute n).slotChoice
theorem Moves.recomputeAll (h : Moves s t) : Moves s (recomputeAll t) :=
  (h.foldl (fun _ _ k => k.recompute _) _).slotChoice

theorem vget_map {α β : Type} {k : Nat} (v : Vector α k) (f : α → β) (n : Nat) (d : α) :
    vget (v.map f) n (f d) = f (vget v n d) := by
  cases n with
  | zero => rfl
  | succ n => simp only [vget, Vector.getElem?_map]; cases v[n]? <;> rfl

/-- R71: a LOADED entry that becomes STALE is in transfer neither before nor after. -/
theorem staleAll_same (i v : Nat) (s : State) : Same s (staleAll i v s) where
  loaded n := by
    show List.map Entry.key (vget (s.loaded.map _) n []) = _
    rw [show ([] : List Entry) = (fun l : List Entry => l.map (fun e =>
      if e.is i v && e.state = .loaded then { e with state := .stale } else e)) [] from rfl, vget_map]
    refine map_key (fun e => ?_) _
    split
    · rename_i h
      simp only [Bool.and_eq_true, decide_eq_true_eq] at h
      simp [Entry.key, h.2, EntryState.inTransfer]
    · rfl

theorem Moves.staleAll (h : Moves s t) (i v : Nat) : Moves s (staleAll i v t) := h.records {} (staleAll_same i v t)

theorem State.entry_some {e : Entry} (h : s.entry n i v = some e) : e ∈ s.loadedOf n ∧ e.number = i ∧ e.version = v :=
  ⟨List.mem_of_find?_eq_some h, Entry.is_iff.1 (List.find?_some (p := fun e : Entry => e.is i v) h)⟩

/-- R73: the entry of an unload that has ended, in no transfer. -/
theorem Moves.unloaded (h : Moves s t) {e : Entry} (he : t.entry n i v = some e) (hs : e.Resting) :
    Moves s (unloaded n i v t) := by
  obtain ⟨m, rfl, rfl⟩ := State.entry_some he
  exact (h.tail (MoveSteps.removeEntry .refl n _ _) fun k => (removeEntry_calmer k (k.loose m hs)).ok).recomputeOne n

theorem Moves.entryLoaded (h : Moves s t) (n i v : Nat) : Moves s (entryLoaded n i v t) := by
  refine Moves.slotChoice (h.tail (((MoveSteps.endTransfer .refl n).modEntry _ _ _ _).foldl
    (fun _ _ k => k.toUnloading _ _ _) _) fun k => ?_)
  obtain ⟨c, d⟩ := endTransfer_calmer (n := n) k
  have m := modEntry_calmer (i := i) (v := v) c.ok (.inl d) (fun e => { e with state := .loaded })
  exact (calmer_foldl (fun _ => True) _ m.ok (fun e _ _ => .inl (m.clear d)) fun u hu e he =>
    toUnloading_calmer hu (he trivial)).ok

/-- R79: the stream of an entry that is in transfer. -/
theorem Moves.startStream (h : Moves s t) {e : Entry} (he : t.entry n i v = some e) (hs : e.state.inTransfer = true) :
    Moves s (startStream n i v t) := by
  have m : Moves s (t.modEntry n i v (fun e => { e with state := .sending, deadline := none })) := by
    obtain ⟨m, a, b⟩ := State.entry_some he
    refine h.change {} fun k => ((Same.refl t).setLoaded n _ ?_).recordsOk k
    rw [List.map_map]
    refine List.map_congr_left fun x hx => ?_
    simp only [Function.comp]
    split
    · rename_i hi
      have := Entry.is_iff.1 hi
      obtain rfl := (k.loaded n).unique hx m (this.1.trans a.symm) (this.2.trans b.symm)
      simp only [Entry.key, hs]; rfl
    · rfl
  unfold Machine.startStream
  dsimp only
  split
  · exact m.kick (Touches.fillSegments .refl _ _)
  · exact m

theorem transferToPending_calmer (k : s.RecordsOk) : Calmer n s (transferToPending n s) ∧ (transferToPending n s).Clear n := by
  unfold Machine.transferToPending
  split
  · rename_i e _
    obtain ⟨c, d⟩ := endTransfer_calmer (n := n) k
    have m := modEntry_calmer (i := e.number) (v := e.version) c.ok (.inl d) (fun e => { e with state := .pending })
    exact ⟨c.trans m, m.clear d⟩
  · rename_i h; exact ⟨.refl k, k.clear h⟩

theorem MoveSteps.transferToPending (h : MoveSteps s t) (n : Nat) : MoveSteps s (transferToPending n t) := by
  unfold Machine.transferToPending
  split
  · exact (h.endTransfer _).modEntry _ _ _ _
  · exact h

theorem Moves.distributionSilent (h : Moves s t) (n : Nat) : Moves s (distributionSilent n t) :=
  (h.tail (MoveSteps.transferToPending .refl n) fun k => (transferToPending_calmer k).1.ok).slotChoice

/-- R82: every entry of an oven without a slot returns to PENDING. -/
theorem emptyEntries_calmer (k : s.RecordsOk) (hc : s.Clear n) : Calmer n s (s.setLoaded n ((s.loadedOf n).map (fun e =>
    { e with state := .pending, retries := 0, clamped := false, deferred := false, deadline := none, crc := none }))) :=
  mapLoaded_calmer k _ (fun _ _ => ⟨rfl, rfl, fun h => by cases h⟩) (.inl hc)

theorem Moves.distributionRejoin (h : Moves s t) (n : Nat) (b : Bool) : Moves s (distributionRejoin n b t) := by
  unfold Machine.distributionRejoin
  dsimp only
  refine Moves.ite ?_ h
  refine Moves.slotChoice ?_
  have unloads : ∀ (l : List Entry) (u : State),
      Same u (l.foldl (fun s e => Machine.sendUnload n e.number e.version s) u) := by
    intro l
    induction l with
    | nil => exact fun u => .refl u
    | cons e l ih => exact fun u => (sendUnload_same n e.number e.version u).trans (ih _)
  have base : MoveSteps t _ := ((MoveSteps.transferToPending (t := t) .refl n).clearNoRoom n).foldl
    (f := fun s (e : Entry) => Machine.sendUnload n e.number e.version s) (fun _ _ k => k.sendUnload _ _ _)
    (((Machine.clearNoRoom n (Machine.transferToPending n t)).loadedOf n).filter (fun e => e.state = .unloading))
  have calm : t.RecordsOk → Calmer n t _ ∧ _ := fun k => by
    obtain ⟨c, d⟩ := transferToPending_calmer (n := n) k
    have m := ((clearNoRoom_same n _).trans (unloads
      (((Machine.clearNoRoom n (Machine.transferToPending n t)).loadedOf n).filter (fun e => e.state = .unloading)) _)).calmer
      c.ok n
    exact ⟨c.trans m, m.clear d⟩
  split
  · exact (h.tail (base.setLoaded _ _) fun k => (emptyEntries_calmer (calm k).1.ok (calm k).2).ok).recompute n
  · exact h.tail base fun k => (calm k).1.ok

theorem Moves.offsetsChanged (h : Moves s t) (n : Nat) (o : Oven) : Moves s (offsetsChanged n o t) :=
  (h.entries (n := n) _ (fun _ he => (List.mem_filter.1 he).1) (fun k e => k.contentChanged _ e)
    fun _ hu e he => contentChanged_calmer hu e he).slotChoice
theorem Moves.maxTempChanged (h : Moves s t) (n a b : Nat) : Moves s (maxTempChanged n a b t) :=
  (h.entries (n := n) _ (fun _ he => (List.mem_filter.1 he).1) (fun k e => k.contentChanged _ e)
    fun _ hu e he => contentChanged_calmer hu e he).slotChoice

theorem reductionOrder_mem {l : List Entry} {e : Entry} (h : e ∈ reductionOrder l) : e ∈ l := by
  simp only [reductionOrder, List.mem_append, List.mem_reverse, sortByKey_mem, List.mem_filter] at h
  tauto

theorem Moves.capabilityChanged (h : Moves s t) (n : Nat) (a b : Profile) : Moves s (capabilityChanged n a b t) := by
  unfold Machine.capabilityChanged
  dsimp only
  refine ((Moves.recomputeOne ?_ n).entries (n := n) _ (fun _ => reductionOrder_mem) (fun k e => k.reduceEntry _ e)
    fun _ hu e he => reduceEntry_calmer hu e he).slotChoice
  have k := fun l hl => h.entries (n := n) (f := Machine.removeUnfit n) l hl (fun k e => k.removeUnfit _ e)
    fun _ hu e he => removeUnfit_calmer hu e he
  exact ((k _ fun _ he => (List.mem_filter.1 he).1).maxTempChanged _ _ _).ite (k _ fun _ he => (List.mem_filter.1 he).1)

theorem Moves.clearLoaded (h : Moves s t) (n : Nat) : Moves s (clearLoaded n t) := by
  refine Moves.slotChoice (Moves.withdraw (h.tail ((MoveSteps.endTransfer .refl n).foldl (fun _ _ k => k.removeEntry _ _ _) _)
    fun k => ?_) _ _ _)
  obtain ⟨c, d⟩ := endTransfer_calmer (n := n) k
  exact (calmer_foldl (fun _ => True) _ c.ok (fun e _ _ => .inl d) fun u hu e he => removeEntry_calmer hu (he trivial)).ok

theorem Moves.publicationTold (h : Moves s t) (x : Option (Nat × Nat)) : Moves s (publicationTold x t) := by
  unfold Machine.publicationTold
  refine Moves.recomputeAll ?_
  split
  · exact h.staleAll _ _
  · exact h

end Sys2Proof.Machine
end

