-- ==== Sys2Proof/Laws/Blocks.lean ====
section
/-! SUPPORT. Every operation of the Ticket Table, the Update Relay, the Hygiene Monitor, the Oven Registry and the Permit
Unit as moves (those of the Distribution Engine stand in Laws/Sets.lean): one lemma for each, in the form "moves to t are moves to the operation's answer". -/

namespace Sys2Proof.Machine

set_option Elab.async false

variable {s t u : State}

/-! ### Locks and gating -/

theorem Moves.recordLocks (h : Moves s t) (n : Nat) (l : Locks) : Moves s (recordLocks n l t) := by
  unfold Machine.recordLocks
  dsimp only
  split
  · exact (h.modOven _ _).placeFor _ _ _
  · exact (h.modOven _ _).placeFor _ _ _
  · exact h.modOven _ _

theorem Moves.applyBegin (h : Moves s t) (c n : Nat) : Moves s (applyBegin c n t) := by
  unfold Machine.applyBegin
  split
  · exact h
  · dsimp only
    refine Moves.raiseUpdate ?_ _ _ _ _ _
    have k := fun f (hf : ∀ e : CEntry, (f e).oven = e.oven) d => (h.modCEntry c n f hf).placeFor .updateRelay n d
    exact (k _ (by exact fun _ => rfl) _).ite ((k _ (by exact fun _ => rfl) _).recordLocks _ _)

theorem Moves.gate (h : Moves s t) (c n : Nat) : Moves s (gate c n t) := (h.applyBegin _ _).ite h

theorem Moves.gateOven (h : Moves s t) (n : Nat) : Moves s (gateOven n t) := by
  unfold Machine.gateOven
  split
  · exact h.gate _ _
  · exact h

theorem Moves.gateCampaign (h : Moves s t) (c : Nat) : Moves s (gateCampaign c t) := by
  unfold Machine.gateCampaign
  split
  · exact h.foldl (fun _ _ k => k.gate _ _) _
  · exact h

theorem Moves.gateAll (h : Moves s t) : Moves s (gateAll t) := h.foldl (fun _ _ k => k.gateCampaign _) _

theorem Moves.deriveLock (h : Moves s t) (n : Nat) : Moves s (deriveLock n t) := by
  unfold Machine.deriveLock
  dsimp only
  have k := (h.recordLocks n (t.lockView n)).gateOven n
  exact h.ite (k.slotChoice.ite k)

/-! ### Tickets and routing -/

theorem Moves.raiseTicketAs (h : Moves s t) (c b : Nat) (x : Ticket) : Moves s (raiseTicketAs c b x t) := h.raise _ _ _

theorem Moves.raiseTicket (h : Moves s t) (c n : Nat) : Moves s (raiseTicket c n t) := by
  unfold Machine.raiseTicket
  split
  · exact h.raiseTicketAs _ _ _
  · exact h

theorem Moves.reportTicket (h : Moves s t) (x : Ticket) : Moves s (reportTicket x t) := by
  have k := Moves.ite (c := (t.cls x.cls).severity = .lockout) (h.deriveLock x.oven) h
  exact h.ite (k.channelChoice.ite k)

/-- R46: a ticket number not in use is found: at most 64 are. -/
theorem freeTicket (k : s.TicketsOk) (c : Nat) :
    s.ticket (freeNumber (fun n => (s.ticket n).isSome) (Config.ticketPlaces + 1) c) = none := by
  have := freeNumber_unused (fun n => (s.ticket n).isSome) (s.tickets.map Ticket.number) (fun m hm => ?_)
    (Config.ticketPlaces + 1) c (by have := k.places; simp only [List.length_map]; omega) (by decide)
  · simpa using this
  · obtain ⟨x, hx⟩ := Option.isSome_iff_exists.1 hm
    have e := List.find?_some (p := fun t : Ticket => decide (t.number = m)) hx
    exact of_decide_eq_true e ▸ List.mem_map_of_mem (List.mem_of_find?_eq_some hx)

/-- The table of tickets written anew: what is left to show. -/
theorem State.RecordsOk.newTickets (k : s.RecordsOk) (h : t.TicketsOk) (loaded : t.loaded = s.loaded := by rfl)
    (slots : t.slots = s.slots := by rfl) (permits : t.permits = s.permits := by rfl)
    (campaigns : t.campaigns = s.campaigns := by rfl) : t.RecordsOk where
  tickets := h
  permits := by simpa only [State.PermitsOk, State.permit, permits] using k.permits
  loaded := by simpa only [State.loadedOf, loaded] using k.loaded
  slots := ⟨by simpa only [State.distSlot, State.loadedOf, slots, loaded] using k.slots.1, by
    simpa only [State.distSlot, slots] using k.slots.2⟩
  campaigns := by simpa only [State.CampaignsOk, State.campaign, campaigns] using k.campaigns

/-- R46, R138: a ticket joins a table with a free place, in a class that has room. -/
theorem Moves.createTicket (h : Moves s t) (n : Nat) (o : Origin) (code : Option Nat) (c : Nat) (a : Bool) (e : Option Nat)
    (hp : t.tickets.length < Config.ticketPlaces) (hc : t.hasRoom c = true) : Moves s (createTicket n o code c a e t) := by
  unfold Machine.createTicket
  dsimp only
  refine Moves.reportTicket (Moves.raiseTicket ?_ _ _) _
  have m : ∀ (x : Ticket) (q k : Nat), k = freeNumber (fun n => (t.ticket n).isSome) (Config.ticketPlaces + 1)
      t.ticketCounter → x.number = k → x.cls = c →
      Moves s { t with ticketCounter := q, tickets := insertBefore (fun y => k < y.number) x t.tickets } := by
    rintro x q _ hx rfl hxc
    refine h.change {} fun k => k.newTickets ⟨?_, ?_, fun d => ?_⟩
    · rw [(insertBefore_perm _ _ _).length_eq]; exact hp
    · refine insertBefore_ascending Ticket.number x _ k.tickets.ascending fun y hy hyx => ?_
      have := List.find?_eq_none.1 (freeTicket k.tickets t.ticketCounter) y hy
      simp [hyx, hx] at this
    · rw [(insertBefore_perm _ _ _).countP_eq, List.countP_cons]
      have cap := k.tickets.capped d
      split
      · rename_i hd
        simp only [decide_eq_true_eq] at hd
        have room : t.tickets.countP (fun y => y.cls = c) < (t.cls c).cap := of_decide_eq_true hc
        rw [← hd, hxc]
        exact room
      · exact cap
  split
  · refine Moves.setRoute ?_ _ _
    refine m _ _ _ rfl ?_ ?_ <;> rfl
  · refine m _ _ _ rfl ?_ ?_ <;> rfl

theorem Moves.closeTicket (h : Moves s t) (r n : Nat) : Moves s (closeTicket r n t) := by
  unfold Machine.closeTicket
  split
  · exact h
  · dsimp only
    have m : Moves s { t with tickets := t.tickets.filter (fun x => x.number ≠ n) } := by
      refine h.change {} fun k => k.newTickets ⟨?_, ?_, fun d => ?_⟩
      · exact (List.filter_sublist (l := t.tickets)).length_le.trans k.tickets.places
      · exact k.tickets.ascending.sublist ((List.filter_sublist (l := t.tickets)).map _)
      · exact ((List.filter_sublist (l := t.tickets)).countP_le).trans (k.tickets.capped d)
    have k := fun x => m.raiseTicketAs r 0 x
    exact ((k _).reportTicket _).ite (k _)

theorem Moves.withdrawTickets (h : Moves s t) (n : Nat) : Moves s (withdrawTickets n t) :=
  h.foldl (fun _ _ k => k.closeTicket _ _) _
theorem Moves.resolveTicket (h : Moves s t) (x : Ticket) : Moves s (resolveTicket x t) :=
  (h.closeTicket _ _).ite ((h.modTicket _ _).reportTicket _)
theorem Moves.raiseOverflow (h : Moves s t) (n c : Nat) (o : Origin) (k : Nat) : Moves s (raiseOverflow n c o k t) :=
  h.raise _ _ _
theorem Moves.foldFault (h : Moves s t) (x : Ticket) : Moves s (foldFault x t) :=
  ((h.modTicket _ _).raiseTicket _ _).ite (((h.modTicket _ _).raiseTicket _ _).reportTicket _)

/-- R138: a class that the scan takes has room. -/
theorem scanRoutes_taken {code model d : Nat} {e : Option Nat} {l : List Nat} {b : Bool}
    (h : scanRoutes s code model l b = .taken d e) : s.hasRoom d = true := by
  induction l generalizing b with
  | nil =>
    unfold scanRoutes at h
    split at h
    · rename_i hr
      simp only [Bool.and_eq_true] at hr
      cases h; exact hr.2
    · cases h
  | cons x l ih =>
    unfold scanRoutes at h
    dsimp only at h
    split at h
    · split at h
      · cases h
      · split at h
        · rename_i hr; cases h; exact hr
        · exact ih h
    · exact ih h

theorem Moves.routeFault (h : Moves s t) (n c : Nat) (o : Origin) : Moves s (routeFault n c o t) := by
  unfold Machine.routeFault
  refine h.ite ?_
  split
  · exact h.foldFault _
  · split
    · exact h.setRoute _ _
    · exact h.raiseOverflow _ _ _ _
    · rename_i d e hs
      split
      · exact h.raiseOverflow _ _ _ _
      · rename_i hp
        exact h.createTicket _ _ _ _ _ _ (by omega) (scanRoutes_taken hs)

theorem Moves.clearFault (h : Moves s t) (n c : Nat) : Moves s (clearFault n c t) := by
  unfold Machine.clearFault
  refine Moves.ite h ?_
  split
  · exact h
  · exact (((h.modTicket _ _).resolveTicket _).raiseTicket _ _).ite (h.modTicket _ _)

theorem Moves.linkTickets (h : Moves s t) (n k : Nat) : Moves s (linkTickets n k t) :=
  h.records {} ((Same.refl t).mapTickets _ fun x => by split <;> exact ⟨rfl, rfl⟩)
theorem Moves.settleTickets (h : Moves s t) (n : Nat) (b : Bool) : Moves s (settleTickets n b t) :=
  (h.foldl (fun _ _ k => k.closeTicket _ _) _).ite
    (h.records {} ((Same.refl t).mapTickets _ fun x => by split <;> exact ⟨rfl, rfl⟩))

/-! ### Failed tries, releases, failed attempts -/

theorem Moves.loadFailed (h : Moves s t) (n i v : Nat) : Moves s (loadFailed n i v t) := by
  refine Moves.slotChoice (Moves.raiseRecipeEntry (Moves.routeFault
    (h.tail ((MoveSteps.endTransfer .refl n).modEntry _ _ _ _) fun k => ?_) _ _ _) _ _ _ _)
  obtain ⟨c, d⟩ := endTransfer_calmer (n := n) k
  exact (modEntry_calmer c.ok (.inl d) _).ok

/-- R80: the entry in transfer keeps its slot. -/
theorem Moves.loadRetried (h : Moves s t) (n : Nat) {e : Entry} {k : Nat} (he : t.transferEntry n = some e)
    (hk : t.boundSlot n = some k) : Moves s (loadRetried n e.number e.version k t) := by
  have m : Moves s ((Machine.withdrawSegments k t).modEntry n e.number e.version (fun e =>
      { e with retries := e.retries + 1, deadline := none })) := (h.withdrawSegments k).modEntry _ _ _ _
  refine h.tail (((MoveSteps.withdrawSegments .refl k).modEntry _ _ _ _).offer _ _ _ _) fun ok => ?_
  have same : Same t ((Machine.withdrawSegments k t).modEntry n e.number e.version (fun e =>
      { e with retries := e.retries + 1, deadline := none })) := ((Same.refl t).setQueue .bulk _).modEntry _ _ _ _
  obtain ⟨hr, b, hb, ho⟩ := State.boundSlot_some hk
  have h1 := List.mem_of_find?_eq_some he
  have h2 := List.find?_some (p := fun e : Entry => e.state.inTransfer) he
  refine offer_ok (same.recordsOk ok) (same.mayOffer ⟨hr, fun c hc => ?_, fun j c hc e' => ?_, fun x hx ht => ?_⟩)
  · rw [hb] at hc; cases hc; exact ho
  · exact ok.slots.once j k c b hc hb (e'.trans ho.symm)
  · rw [(ok.loaded n).single hx h1 ht h2]; exact Entry.is_iff.2 ⟨rfl, rfl⟩

theorem Moves.failedTry (h : Moves s t) (n : Nat) : Moves s (failedTry n t) := by
  unfold Machine.failedTry
  split
  · exact h
  · rename_i e he
    split
    · rename_i k hk; exact (h.loadRetried n he hk).ite (h.loadFailed _ _ _)
    · exact h.loadFailed _ _ _

theorem Moves.releaseChannel (h : Moves s t) (ch o : Nat) (a : Bool) : Moves s (releaseChannel ch o a t) := by
  unfold Machine.releaseChannel
  split
  · exact h
  · dsimp only
    have k := (h.withdrawImage ch).setChannel ch none
    exact (((k.kickQuiet (Touches.enqueue .refl _)).ite k).raiseReleased _ _ _ _).modCEntry _ _ _

theorem Moves.releaseEntry (h : Moves s t) (c n o : Nat) (a : Bool) : Moves s (releaseEntry c n o a t) := by
  unfold Machine.releaseEntry
  split
  · exact h.releaseChannel _ _ _
  · exact h

theorem Moves.emptyCampaign (h : Moves s t) (c : Nat) : Moves s (emptyCampaign c t) := (h.setCampaign _ _).raise _ _ _

theorem Moves.settleCancelled (h : Moves s t) (c n k f : Nat) : Moves s (settleCancelled c n k f t) := by
  unfold Machine.settleCancelled
  dsimp only
  have k := fun g (hg : ∀ e : CEntry, (g e).oven = e.oven) x =>
    (((h.modCEntry c n g hg).deriveLock n).raiseUpdate k c n f x).removeCEntry c n
  split
  · exact ((k _ (by exact fun _ => rfl) _).emptyCampaign _).ite (k _ (by exact fun _ => rfl) _)
  · exact k _ (by exact fun _ => rfl) _

theorem Moves.countAttempt (h : Moves s t) (k c n : Nat) : Moves s (countAttempt k c n t) :=
  ((h.modCEntry _ _ _).ite ((h.modCEntry _ _ _).routeFault _ _ _)).raiseUpdate _ _ _ _ _

theorem Moves.failedAttempt (h : Moves s t) (k c n : Nat) : Moves s (failedAttempt k c n t) := by
  unfold Machine.failedAttempt
  split
  · exact h
  · dsimp only
    have m := fun a => (h.releaseEntry c n outcomeFailed a).modCEntry c n (fun e => { e with deadline := none, timeouts := 0 })
    exact ((m _).settleCancelled _ _ _ _).channelChoice.ite
      ((((m _).raiseUpdate _ _ _ _ _).removeCEntry _ _).finishCheck _ |>.channelChoice.ite
        (((m _).countAttempt _ _ _).finishCheck _).channelChoice)

theorem Moves.suspend (h : Moves s t) (ch : Nat) : Moves s (suspend ch t) := by
  unfold Machine.suspend
  split
  · exact h
  · exact ((h.modChannel _ _).modCEntry _ _ _).raiseUpdate _ _ _ _ _

theorem Moves.goBack (h : Moves s t) (ch : Nat) : Moves s (goBack ch t) := by
  unfold Machine.goBack
  split
  · exact h
  · dsimp only
    have k := fun g c n f (hf : ∀ e : CEntry, (f e).oven = e.oven) =>
      ((h.withdrawImage ch).modChannel ch g).modCEntry c n f hf
    refine ((k _ _ _ _ (by exact fun _ => rfl)).suspend _).ite ?_
    split
    · exact (k _ _ _ _ (by exact fun _ => rfl)).kick ((Touches.modChannel .refl _ _).enqueueBegin _)
    · exact (k _ _ _ _ (by exact fun _ => rfl)).kick (Touches.fillImage .refl _ _)
    · exact k _ _ _ _ (by exact fun _ => rfl)

theorem Moves.relaySilent (h : Moves s t) (n : Nat) : Moves s (relaySilent n t) := by
  unfold Machine.relaySilent
  split
  · exact h
  · split
    · exact h
    · exact ((h.withdrawImage _).modChannel _ _).suspend _

theorem Moves.reopen (h : Moves s t) (ch : Nat) : Moves s (reopen ch t) := by
  unfold Machine.reopen
  split
  · exact h
  · exact (((h.withdrawImage _).modChannel _ _).modCEntry _ _ _ |>.kick (Touches.enqueueBegin .refl _)).raiseFeed _ _ _ _

theorem Moves.reopenOven (h : Moves s t) (n : Nat) (p : CEntryState → Bool) : Moves s (reopenOven n p t) := by
  unfold Machine.reopenOven
  split
  · exact h.reopen _
  · exact h

theorem Moves.relayPresent (h : Moves s t) (n : Nat) : Moves s (relayPresent n t) :=
  ((h.reopenOven _ _).gateOven _).channelChoice

theorem Moves.restartImage (h : Moves s t) (ch : Nat) : Moves s (restartImage ch t) := by
  unfold Machine.restartImage
  split
  · exact h
  · exact ((h.withdrawImage _).modChannel _ _ |>.kick (Touches.enqueueBegin .refl _)).raiseFeed _ _ _ _

theorem Moves.abortEntry (h : Moves s t) (c n : Nat) : Moves s (abortEntry c n t) :=
  (h.releaseEntry _ _ _ _).removeCEntry _ _

theorem Moves.applyDone (h : Moves s t) (c n : Nat) : Moves s (applyDone c n t) := by
  unfold Machine.applyDone
  split
  · exact h
  · exact (h.settleCancelled _ _ _ _).channelChoice.ite
      ((((h.modCEntry _ _ _).raiseUpdate _ _ _ _ _).deriveLock _).finishCheck _).channelChoice

theorem Moves.applyFailed (h : Moves s t) (k c n : Nat) : Moves s (applyFailed k c n t) :=
  (h.failedAttempt _ _ _).deriveLock _

theorem Moves.judgeApply (h : Moves s t) (n : Nat) : Moves s (judgeApply n t) := by
  unfold Machine.judgeApply
  split
  · exact h
  · split
    · exact h
    · exact (h.applyDone _ _).ite (h.applyFailed _ _ _)

theorem Moves.relayRejoin (h : Moves s t) (n : Nat) : Moves s (relayRejoin n t) := (h.reopenOven _ _).judgeApply _

theorem Moves.stagedRejoin (h : Moves s t) (n : Nat) (b : Bool) : Moves s (stagedRejoin n b t) := by
  unfold Machine.stagedRejoin
  split
  · exact h
  · exact (h.gate _ _).ite (h.modCEntry _ _ _).channelChoice

/-- R156, R160: the entry made stands in its place, the one of a former oven of the slot gone. -/
theorem Moves.makeEntry (h : Moves s t) (c n : Nat) : Moves s (makeEntry c n t) := by
  refine h.change {} (setCampaign_sound c _ fun x hx k => ?_)
  obtain ⟨y, hy, rfl⟩ := Option.map_eq_some_iff.1 hx
  exact insertBefore_ascending CEntry.oven { oven := n, serial := _, state := _ } _
    ((k y hy).sublist ((List.filter_sublist (l := y.entries)).map _))
    fun z hz => by simpa using (List.mem_filter.1 hz).2

theorem Moves.entriesForOven (h : Moves s t) (n : Nat) : Moves s (entriesForOven n t) :=
  h.ite (h.foldl (fun _ _ k => (k.makeEntry _ _).finishCheck _) _).channelChoice

theorem Moves.entriesForCampaign (h : Moves s t) (c : Nat) : Moves s (entriesForCampaign c t) := by
  unfold Machine.entriesForCampaign
  split
  · exact h
  · exact h.foldl (fun _ _ k => k.makeEntry _ _) _

theorem Moves.cancelEntry (h : Moves s t) (c : Nat) (e : CEntry) : Moves s (cancelEntry c t e) := by
  unfold Machine.cancelEntry
  split
  · exact h.abortEntry _ _
  · exact h.abortEntry _ _
  · exact (h.drawn.placeFor _ _ _).removeCEntry _ _
  all_goals first | exact h | exact h.removeCEntry _ _

theorem Moves.cancelCampaign (h : Moves s t) (c : Nat) : Moves s (cancelCampaign c t) := by
  unfold Machine.cancelCampaign
  split
  · exact h
  · dsimp only
    have k := fun l1 l2 l3 => ((h.foldl (fun _ e k => k.cancelEntry c e) l1).foldl (fun _ e k => k.cancelEntry c e) l2).foldl
      (fun _ e k => k.cancelEntry c e) l3
    exact (((k _ _ _).modCampaign _ _).ite ((k _ _ _).emptyCampaign _)).channelChoice

theorem Moves.retireEntry (h : Moves s t) (n c : Nat) : Moves s (retireEntry n t c) := by
  unfold Machine.retireEntry
  split
  · exact h
  · split
    · exact (h.abortEntry _ _).finishCheck _
    · exact (h.abortEntry _ _).finishCheck _
    · exact (h.removeCEntry _ _).finishCheck _
    · exact (h.removeCEntry _ _).finishCheck _
    all_goals exact h

theorem Moves.retireEntries (h : Moves s t) (n : Nat) : Moves s (retireEntries n t) :=
  (h.foldl (fun _ _ k => k.retireEntry _ _) _).channelChoice

/-! ### The Hygiene Monitor -/

theorem Moves.placeHygieneState (h : Moves s t) (n : Nat) : Moves s (placeHygieneState n t) := by
  unfold Machine.placeHygieneState
  split
  · exact h.placeFor _ _ _
  · exact h.placeFor _ _ _
  · exact h

theorem Moves.raiseHygiene (h : Moves s t) (n c p q : Nat) : Moves s (raiseHygiene n c p q t) := by
  unfold Machine.raiseHygiene
  split
  · exact h.raise _ _ _
  · exact h

theorem Moves.raiseStanding (h : Moves s t) (n : Nat) : Moves s (raiseStanding n t) := by
  unfold Machine.raiseStanding
  split
  · exact h.raiseHygiene _ _ _ _
  · exact h.raiseHygiene _ _ _ _
  · exact h

theorem Moves.storeState (h : Moves s t) (n : Nat) : Moves s (storeState n t).2 := by
  unfold Machine.storeState
  split
  · exact h
  · split
    · exact h
    · have k := fun g => (h.modHygiene n g).placeHygieneState n
      exact ((k _).gateOven _).ite (k _)

theorem Moves.reevaluate (h : Moves s t) (n : Nat) : Moves s (reevaluate n t) := by
  have k := h.storeState n
  unfold Machine.reevaluate
  split <;> rename_i e <;> rw [e] at k
  · exact k.raiseStanding n
  · exact k

theorem Moves.reevaluateQuiet (h : Moves s t) (n : Nat) : Moves s (reevaluateQuiet n t) := h.storeState n
theorem Moves.chargeSoil (h : Moves s t) (n c : Nat) : Moves s (chargeSoil n c t) := (h.modHygiene _ _).reevaluate _
theorem Moves.createPart (h : Moves s t) (n : Nat) (x : Hygiene) : Moves s (createPart n x t) :=
  (h.modOven _ _).placeHygieneState _
theorem Moves.createHygiene (h : Moves s t) (n : Nat) : Moves s (createHygiene n t) := (h.modOven _ _).createPart _ _
theorem Moves.restoreHygiene (h : Moves s t) (n : Nat) (r : RestoreRecord) : Moves s (restoreHygiene n r t) :=
  (h.createPart _ _).raiseStanding _
theorem Moves.applySettings (h : Moves s t) (n : Nat) (x : Thresholds) : Moves s (applySettings n x t) :=
  (h.modHygiene _ _).reevaluate _
theorem Moves.allowClean (h : Moves s t) (n : Nat) (p : Programme) : Moves s (allowClean n p t) :=
  ((h.modHygiene _ _).reevaluate _).placeFor _ _ _

theorem Moves.refuseClean (h : Moves s t) (n c : Nat) (r : CleanReason) : Moves s (refuseClean n c r t) := by
  unfold Machine.refuseClean
  split
  · exact h.placeFor _ _ _
  · exact h.drawn.placeFor _ _ _

theorem Moves.cleanStart (h : Moves s t) (n c : Nat) : Moves s (cleanStart n c t) := by
  unfold Machine.cleanStart
  split
  · exact h.refuseClean _ _ _
  · exact h.placeFor _ _ _
  · exact h.allowClean _ _

theorem Moves.cleanPhase (h : Moves s t) (n p q : Nat) : Moves s (cleanPhase n p q t) := h.modHygiene _ _
theorem Moves.completeClean (h : Moves s t) (n : Nat) (c : Clean) : Moves s (completeClean n c t) :=
  ((h.modHygiene _ _).reevaluateQuiet _).raiseHygiene _ _ _ _
theorem Moves.abandonClean (h : Moves s t) (n k : Nat) (c : Clean) : Moves s (abandonClean n k c t) :=
  ((h.modHygiene _ _).reevaluateQuiet _).raiseHygiene _ _ _ _

theorem Moves.cleanEnd (h : Moves s t) (n p o : Nat) : Moves s (cleanEnd n p o t) := by
  unfold Machine.cleanEnd
  split
  · exact ((h.completeClean _ _).ite (h.abandonClean _ _ _)).ite h
  · exact h

theorem Moves.cleanLapse (h : Moves s t) (n : Nat) : Moves s (cleanLapse n t) := by
  unfold Machine.cleanLapse
  split
  · exact (h.abandonClean _ _ _).routeFault _ _ _
  · exact h

theorem Moves.hygieneRejoin (h : Moves s t) (n : Nat) : Moves s (hygieneRejoin n t) := by
  unfold Machine.hygieneRejoin
  refine Moves.placeHygieneState ?_ _
  split
  · exact h.abandonClean _ _ _
  · exact h

theorem Moves.orderClean (h : Moves s t) (n : Nat) (p : Option Programme) : Moves s (orderClean n p t) := by
  unfold Machine.orderClean
  split
  · exact h
  · exact h.ite (((h.modHygiene _ _).placeHygieneState _).reevaluate _)

theorem Moves.manualClean (h : Moves s t) (n : Nat) : Moves s (manualClean n t) := by
  unfold Machine.manualClean
  split
  · exact h
  · dsimp only
    refine Moves.raiseHygiene (Moves.drawn ?_) _ _ _ _
    have k := fun g => (h.modHygiene n g).storeState n
    split <;> rename_i e
    · have m := k (creditedManual t); rw [e] at m; exact m
    · have m := k (creditedManual t); rw [e] at m; exact (m.placeHygieneState _).ite m

/-! ### The Oven Registry -/

theorem Moves.placeUnassigned (h : Moves s t) (n : Nat) (p : Payload) : Moves s (placeUnassigned n p t) := h.place _
theorem Moves.placeAssign (h : Moves s t) (n : Nat) : Moves s (placeAssign n t) := h.placeUnassigned _ _
theorem Moves.placeBarred (h : Moves s t) (n : Nat) (b : Bool) : Moves s (placeBarred n b t) := h.placeUnassigned _ _
theorem Moves.placeTestOrder (h : Moves s t) (n : Nat) : Moves s (placeTestOrder n t) := h.placeFor _ _ _
theorem Moves.raisePresence (h : Moves s t) (n r : Nat) : Moves s (raisePresence n r t) := h.raise _ _ _
theorem Moves.raiseDiscovered (h : Moves s t) (n : Nat) (o : Oven) (b : Bool) : Moves s (raiseDiscovered n o b t) :=
  h.raise _ _ _
theorem Moves.raiseCommission (h : Moves s t) (n r : Nat) : Moves s (raiseCommission n r t) := h.raise _ _ _
theorem Moves.becomePresent (h : Moves s t) (n : Nat) : Moves s (becomePresent n t) :=
  ((h.modOven _ _).raisePresence _ _).slotChoice.relayPresent _
theorem Moves.heard (h : Moves s t) (n : Nat) : Moves s (heard n t) :=
  (h.modOven _ _).ite ((h.modOven _ _).becomePresent _)
theorem Moves.becomeSilent (h : Moves s t) (n : Nat) : Moves s (becomeSilent n t) :=
  (((h.modOven _ _).raisePresence _ _).distributionSilent _).relaySilent _
theorem Moves.vacate (h : Moves s t) (n : Nat) : Moves s (vacate n t) :=
  (((h.withdrawTickets _).setOven _ _).withdraw _ _ _).withdraw _ _ _
theorem Moves.leaveService (h : Moves s t) (n : Nat) : Moves s (leaveService n t) :=
  (((h.raiseCommission _ _).vacate _).placeBarred _ _).ite ((h.raiseCommission _ _).vacate _)
theorem Moves.leaveCheck (h : Moves s t) (n : Nat) : Moves s (leaveCheck n t) := (h.leaveService _).ite h

theorem Moves.removePermit (h : Moves s t) (n : Nat) (b : Bool) : Moves s (removePermit n b t) := by
  unfold Machine.removePermit
  split
  · exact h
  · have k := fun i v => (((h.closePermit n).dropRef i v).unloadDeferred n).gateOven n
    exact (k _ _).ite ((k _ _).leaveCheck _)

theorem Moves.raiseLapsed (h : Moves s t) (n : Nat) (p : Permit) (c : Nat) : Moves s (raiseLapsed n p c t) := h.raise _ _ _
theorem Moves.endCook (h : Moves s t) (n : Nat) (p : Permit) (o k : Nat) : Moves s (endCook n p o k t) :=
  ((((h.chargeSoil _ _).modOven _ _).ite (h.chargeSoil _ _)).settleTickets _ _).removePermit _ _
theorem Moves.closeNominal (h : Moves s t) (n : Nat) (p : Permit) (b : Bool) : Moves s (closeNominal n p b t) :=
  ((h.chargeSoil _ _).settleTickets _ _).removePermit _ _

theorem Moves.lapse (h : Moves s t) (n : Nat) : Moves s (lapse n t) := by
  unfold Machine.lapse
  split
  · exact h
  · exact ((h.closeNominal _ _ _).routeFault _ _ _).raiseLapsed _ _ _

theorem Moves.closeByRejoin (h : Moves s t) (n : Nat) : Moves s (closeByRejoin n t) := by
  unfold Machine.closeByRejoin
  split
  · exact h
  · exact (h.closeNominal _ _ _).raiseLapsed _ _ _

theorem Moves.discover (h : Moves s t) (n i m : Nat) (x : Option Nat) : Moves s (discover n i m x t) :=
  (h.setOven _ _).raiseDiscovered _ _ _
theorem Moves.assignAgain (h : Moves s t) (n : Nat) : Moves s (assignAgain n t) := by
  unfold Machine.assignAgain
  exact (h.placeAssign n).modOven n _
theorem Moves.rearmHold (h : Moves s t) (n : Nat) : Moves s (rearmHold n t) := h.modOven _ _

theorem Moves.claimSerial (h : Moves s t) (i m : Nat) : Moves s (claimSerial i m t) := by
  unfold Machine.claimSerial
  refine (h.placeBarred _ _).ite ?_
  split
  · dsimp only
    have k := fun n g => (h.modOven n g).heard n
    split
    · exact k _ _
    · exact (k _ _).rearmHold _
    · exact (k _ _).assignAgain _
    all_goals exact (k _ _).placeAssign _
  · split
    · exact h.discover _ _ _ _
    · exact h.placeBarred _ _

theorem Moves.backToDiscovered (h : Moves s t) (n : Nat) : Moves s (backToDiscovered n t) :=
  (h.modOven _ _).raiseCommission _ _
theorem Moves.assignFirst (h : Moves s t) (n : Nat) : Moves s (assignFirst n t) := (h.assignAgain _).modOven _ _
theorem Moves.admitOven (h : Moves s t) (n g : Nat) : Moves s (admitOven n g t) := (h.modOven _ _).assignFirst _
theorem Moves.takeNode (h : Moves s t) (n : Nat) : Moves s (takeNode n t) := h.modOven _ _

theorem Moves.refreshed (h : Moves s t) (n : Nat) (a : Option Profile) (b : Profile) : Moves s (refreshed n a b t) := by
  unfold Machine.refreshed
  dsimp only
  split
  · exact ((h.modOven _ _).capabilityChanged _ _ _).ite (h.modOven _ _)
  · exact h.modOven _ _

theorem Moves.pairComplete (h : Moves s t) (n : Nat) (p : Profile) (m : Nat) (f : Firmware) :
    Moves s (pairComplete n p m f t) := by
  unfold Machine.pairComplete
  dsimp only
  split
  · exact ((h.modOven _ _).modOven _ _).raiseCommission _ _
  · exact (h.modOven _ _).refreshed _ _ _
  · exact (h.modOven _ _).refreshed _ _ _
  all_goals exact h.modOven _ _

theorem Moves.gather (h : Moves s t) (n k : Nat) (d : List Byte) : Moves s (gather n k d t) := by
  unfold Machine.gather
  refine Moves.ite ?_ h
  have hs : ∀ u, u = (match k with
      | 0 => t.modOven n (fun o => { o with cap0 := some (gatheredProfile d) })
      | 1 => t.modOven n (fun o => { o with cap1 := some (numAt d 0 1, firmwareAt d 1) })
      | _ => t) → Moves s u := by
    rintro u rfl
    split
    · exact h.modOven _ _
    · exact h.modOven _ _
    · exact h
  dsimp only
  split
  · exact (hs _ rfl).pairComplete _ _ _ _
  · exact hs _ rfl

theorem Moves.testPassed (h : Moves s t) (n : Nat) : Moves s (testPassed n t) :=
  (((((h.modOven _ _).createHygiene _).placeFor _ _ _).raiseCommission _ _).recomputeOne _).entriesForOven _
theorem Moves.testFailed (h : Moves s t) (n r : Nat) : Moves s (testFailed n r t) :=
  ((h.modOven _ _).routeFault _ _ _).raiseCommission _ _

theorem Moves.rejoinService (h : Moves s t) (n : Nat) (r : Rejoin0) (f : Firmware) : Moves s (rejoinService n r f t) := by
  have a := (h.heard n).raisePresence n 2
  have b := Moves.ite (c := r.believed = n) a (a.placeAssign n)
  exact (((((((b.modOven n _).closeByRejoin n).hygieneRejoin n).relayRejoin n).distributionRejoin n _).stagedRejoin n _).placeFor
    _ _ _).leaveCheck _

theorem Moves.rejoinCommissioning (h : Moves s t) (n : Nat) (r : Rejoin0) (f : Firmware) :
    Moves s (rejoinCommissioning n r f t) := by
  have a := (h.heard n).modOven n (fun o => { o with firmware := some f, cap0 := none, cap1 := none })
  have b := Moves.ite (c := r.believed = n) a (a.placeAssign n)
  exact (b.placeTestOrder n).ite b

theorem Moves.rejoinUnknown (h : Moves s t) (r : Rejoin0) : Moves s (rejoinUnknown r t) := by
  unfold Machine.rejoinUnknown
  dsimp only
  refine (h.placeBarred _ _).ite ((h.claimSerial _ _).ite ?_)
  split
  · exact h.discover _ _ _ _
  · exact h.placeBarred _ _

theorem Moves.takeRejoin (h : Moves s t) (r : Rejoin0) (f : Firmware) : Moves s (takeRejoin r f t) := by
  unfold Machine.takeRejoin
  split
  · exact h.rejoinUnknown _
  · split
    · exact h
    · dsimp only
      split
      · exact ((h.heard _).rearmHold _).modOven _ _
      · exact (h.heard _).rearmHold _
    · exact ((h.heard _).takeNode _).ite ((h.heard _).assignAgain _)
    · exact h.rejoinCommissioning _ _ _
    · exact h.rejoinCommissioning _ _ _
    · exact h.rejoinCommissioning _ _ _
    · exact h.rejoinService _ _ _
    · exact h.rejoinService _ _ _

/-! ### The Permit Unit -/

theorem Moves.placeGrant (h : Moves s t) (n : Nat) (p : Permit) : Moves s (placeGrant n p t) := h.placeFor _ _ _

/-- R46: the number of a new permit is no other permit's: at most 32 are in use. -/
theorem permitNumber_unused (s : State) {m : Nat} {q : Permit} (h : s.permit m = some q) : s.permitNumber ≠ q.number := by
  have hm : isSlot m := by
    by_contra c
    rw [State.permit, vget_outside _ _ _ c] at h
    cases h
  have := freeNumber_unused
    (fun k => allSlots.any (fun n => match s.permit n with | some p => p.number = k | none => false))
    (allSlots.filterMap (fun n => (s.permit n).map Permit.number)) (fun k hk => ?_) 33 s.permitCounter
    (by have := List.length_filterMap_le (fun n => (s.permit n).map Permit.number) allSlots
        have : allSlots.length = 32 := by decide
        omega) (by decide)
  · intro e
    have hs : m ∈ allSlots := by simp [allSlots]; exact ⟨m - 1, by omega, by omega⟩
    have := List.any_eq_false.1 this m hs
    rw [h] at this
    exact this (decide_eq_true e.symm)
  · obtain ⟨n, hn, hp⟩ := List.any_eq_true.1 hk
    refine List.mem_filterMap.2 ⟨n, hn, ?_⟩
    split at hp
    · rename_i p e; rw [e]; exact congrArg some (of_decide_eq_true hp)
    · cases hp

theorem Moves.grantPermit (h : Moves s t) (n : Nat) (r : Recipe) : Moves s (grantPermit n r t) := by
  have k := h.records (u := { t with permitCounter := nextNumber (newPermit t n r).number }) {} {}
  have m : Moves s (State.setPermit { t with permitCounter := nextNumber (newPermit t n r).number } n (some (newPermit t n r))) :=
    k.change {} (setPermit_sound n _ fun x hx m q _ hq => by
      obtain rfl := Option.some.inj hx; exact permitNumber_unused t hq)
  exact ((m.addRef _ _).linkTickets _ _).placeGrant _ _

theorem Moves.startRequest (h : Moves s t) (n i v : Nat) : Moves s (startRequest n i v t) := by
  unfold Machine.startRequest
  split
  · exact h.placeFor _ _ _
  · exact h.placeGrant _ _
  · exact h.grantPermit _ _

theorem Moves.stageSummary (h : Moves s t) (n : Nat) (d : List Byte) : Moves s (stageSummary n d t) := by
  unfold Machine.stageSummary
  split
  · rename_i p hp
    exact (h.modPermit n hp (fun p => { p with summaries := storeSummary (summaryOf d) p.summaries })).ite h
  · exact h

theorem Moves.cookEnd (h : Moves s t) (n i o k : Nat) : Moves s (cookEnd n i o k t) := by
  unfold Machine.cookEnd
  split
  · exact (h.endCook _ _ _ _).ite h
  · exact h

theorem Moves.revoke (h : Moves s t) (n : Nat) {p : Permit} (hp : t.permit n = some p) : Moves s (revoke n p t) :=
  (h.modPermit n hp (fun p => { p with stopping := true })).placeFor _ _ _

end Sys2Proof.Machine
end

