-- ==== Sys2Proof/Laws/Events.lean ====
section
/-! SUPPORT. Deadlines and events: every expiry is moves, so is what a saturated clock adds to an event (R183), and an event
below the clock's maximum is what the command does and nothing more (R181, R183). -/

namespace Sys2Proof.Machine

set_option Elab.async false

variable {s t u : State}

/-! ### The expiries -/

theorem Moves.holdExpiry (h : Moves s t) (n : Nat) : Moves s (holdExpiry n t) :=
  ((h.vacate _).raiseDiscovered _ _ _).ite h
theorem Moves.assignReplyExpiry (h : Moves s t) (n : Nat) : Moves s (assignReplyExpiry n t) :=
  (((h.assignAgain _).modOven _ _).ite (h.backToDiscovered _)).ite h
theorem Moves.profileExpiry (h : Moves s t) (n : Nat) : Moves s (profileExpiry n t) := (h.backToDiscovered _).ite h
theorem Moves.testExpiry (h : Moves s t) (n : Nat) : Moves s (testExpiry n t) := (h.testFailed _ _).ite h
theorem Moves.silenceExpiry (h : Moves s t) (n : Nat) : Moves s (silenceExpiry n t) := (h.becomeSilent _).ite h
theorem Moves.gatheringExpiry (h : Moves s t) (n : Nat) : Moves s (gatheringExpiry n t) := (h.modOven _ _).ite h
theorem Moves.offerReplyExpiry (h : Moves s t) (n : Nat) : Moves s (offerReplyExpiry n t) := (h.failedTry _).ite h
theorem Moves.progressExpiry (h : Moves s t) (n : Nat) : Moves s (progressExpiry n t) := (h.failedTry _).ite h

theorem Moves.unloadAgain (h : Moves s t) (n i v : Nat) : Moves s (unloadAgain n i v t) := by
  unfold Machine.unloadAgain
  exact (h.placeFor _ _ _).modEntry _ _ _ _

theorem Moves.unloadExpiry (h : Moves s t) (n i v : Nat) : Moves s (unloadExpiry n i v t) := by
  unfold Machine.unloadExpiry
  split
  · rename_i e he
    split
    · rename_i hs
      exact (h.unloadAgain _ _ _).ite (h.unloaded he (by simp [Entry.Resting, hs.1, EntryState.inTransfer]))
    · exact h
  · exact h

theorem Moves.permitExpiry (h : Moves s t) (n : Nat) : Moves s (permitExpiry n t) := (h.lapse _).ite h
theorem Moves.hygieneExpiry (h : Moves s t) (n : Nat) : Moves s (hygieneExpiry n t) :=
  ((h.modHygiene _ _).reevaluate _).ite h
theorem Moves.advanceExpiry (h : Moves s t) (n : Nat) : Moves s (advanceExpiry n t) :=
  ((h.modHygiene _ _).reevaluate _).ite h
theorem Moves.cleanExpiry (h : Moves s t) (n : Nat) : Moves s (cleanExpiry n t) := (h.cleanLapse _).ite h
theorem Moves.escalate (h : Moves s t) (k : Nat) : Moves s (escalate k t) := (h.modTicket _ _).raiseTicket _ _
theorem Moves.escalationExpiry (h : Moves s t) (k : Nat) : Moves s (escalationExpiry k t) := (h.escalate _).ite h
theorem Moves.verificationExpiry (h : Moves s t) (k : Nat) : Moves s (verificationExpiry k t) :=
  (h.closeTicket _ _).ite h
theorem Moves.entryHoldExpiry (h : Moves s t) (c n : Nat) : Moves s (entryHoldExpiry c n t) :=
  (h.failedAttempt _ _ _).ite h
theorem Moves.applyExpiry (h : Moves s t) (c n : Nat) : Moves s (applyExpiry c n t) :=
  ((h.applyFailed _ _ _).leaveCheck _).ite h
theorem Moves.ackExpiry (h : Moves s t) (ch : Nat) : Moves s (ackExpiry ch t) := (h.goBack _).ite h

theorem Moves.checkExpiry (h : Moves s t) (ch : Nat) : Moves s (checkExpiry ch t) := by
  unfold Machine.checkExpiry
  split
  · exact (h.failedAttempt _ _ _).ite h
  · exact h

theorem Moves.windowStart (h : Moves s t) (c : Nat) : Moves s (windowStart c t) := (h.gateCampaign _).ite h

/-! ### The list of alarms -/

/-- What an alarm does is moves. -/
def Alarm.IsMoves (a : Alarm) : Prop := ∀ {s t : State}, Moves s t → Moves s (a.expire t)

theorem alarmAt_moves {i : Option Nat} {c : Instr} {f : State → State} (hf : ∀ {s t : State}, Moves s t → Moves s (f t))
    {a : Alarm} (h : a ∈ alarmAt i c f) : a.IsMoves := by
  cases i with
  | none => simp [alarmAt] at h
  | some t =>
    simp [alarmAt] at h
    subst h
    exact hf

theorem State.retainedAlarms_moves (s : State) {a : Alarm} (h : a ∈ s.retainedAlarms) : a.IsMoves := by
  simp only [State.retainedAlarms, List.mem_append, List.mem_flatMap] at h
  rcases h with (⟨n, -, h⟩ | ⟨k, -, h⟩) | ⟨c, -, h⟩
  · simp only [State.ovenAlarms, List.mem_append] at h
    rcases h with ((((((((h | h) | h) | h) | h) | h) | h) | h) | h) | h
    · exact alarmAt_moves (fun k => k.holdExpiry _) h
    · exact alarmAt_moves (fun k => k.assignReplyExpiry _) h
    · exact alarmAt_moves (fun k => k.profileExpiry _) h
    · exact alarmAt_moves (fun k => k.testExpiry _) h
    · exact alarmAt_moves (fun k => k.silenceExpiry _) h
    · exact alarmAt_moves (fun k => k.gatheringExpiry _) h
    · exact alarmAt_moves (fun k => k.permitExpiry _) h
    · exact alarmAt_moves (fun k => k.hygieneExpiry _) h
    · exact alarmAt_moves (fun k => k.advanceExpiry _) h
    · exact alarmAt_moves (fun k => k.cleanExpiry _) h
  · simp only [Ticket.alarms, List.mem_append] at h
    rcases h with h | h
    · exact alarmAt_moves (fun k => k.escalationExpiry _) h
    · exact alarmAt_moves (fun k => k.verificationExpiry _) h
  · unfold State.campaignAlarms at h
    split at h
    · simp only [List.mem_flatMap, List.mem_append] at h
      obtain ⟨e, -, h | h⟩ := h
      · exact alarmAt_moves (fun k => k.entryHoldExpiry _ _) h
      · exact alarmAt_moves (fun k => k.applyExpiry _ _) h
    · simp at h

theorem State.alarms_moves (s : State) {a : Alarm} (h : a ∈ s.alarms) : a.IsMoves := by
  simp only [State.alarms, List.mem_append, List.mem_flatMap] at h
  rcases h with (h | ⟨n, -, h⟩) | ⟨c, -, h⟩
  · exact s.retainedAlarms_moves h
  · simp only [State.loadedAlarms, List.mem_append, List.mem_flatMap] at h
    rcases h with (h | h) | ⟨e, -, h⟩
    · exact alarmAt_moves (fun k => k.offerReplyExpiry _) h
    · exact alarmAt_moves (fun k => k.progressExpiry _) h
    · exact alarmAt_moves (fun k => k.unloadExpiry _ _ _) h
  · unfold State.channelAlarms at h
    split at h
    · simp only [List.mem_append] at h
      rcases h with h | h
      · exact alarmAt_moves (fun k => k.ackExpiry _) h
      · exact alarmAt_moves (fun k => k.checkExpiry _) h
    · simp at h

/-- The alarms that are due are among those given, and their instants have been reached. -/
theorem State.mem_dueAlarms (s : State) (l : List Alarm) (a : Alarm) :
    a ∈ s.dueAlarms l ↔ a ∈ l ∧ a.instant ≤ s.clock := by
  simp [State.dueAlarms, sortByKey_mem]

theorem Moves.settleFrom (h : Moves s t) (fuel : Nat) : Moves s (settleFrom fuel t) := by
  induction fuel generalizing t with
  | zero => exact h
  | succ fuel ih =>
    unfold Machine.settleFrom
    split
    · exact h
    · rename_i a l e
      have m : a ∈ t.dueAlarms t.alarms := by rw [e]; simp
      exact ih (t.alarms_moves ((t.mem_dueAlarms _ _).1 m).1 h)

theorem Moves.settle (h : Moves s t) : Moves s (settle t) := h.ite (h.settleFrom _)

/-- R181, R183: below the clock's maximum an event of the running domain is what its command does. -/
theorem event_eq {f : State → State} (h : s.power = .running) (k : (f s).clock < Config.maxClock) : event f s = f s := by
  simp [event, h, settle, k]

/-- R181: while the main domain is held in reset no event is taken. -/
theorem event_held {f : State → State} (h : s.power ≠ .running) : event f s = s := by simp [event, h]

theorem Moves.event {f : State → State} (hf : ∀ {s t : State}, Moves s t → Moves s (f t)) (h : Moves s t) :
    Moves s (event f t) := (hf h).settle.ite h

/-! ### Resuming after a warm reset (R188) -/

theorem Moves.offersToPending (h : Moves s t) : Moves s (offersToPending t) := by
  refine h.change {} fun k => k.sets (fun n => ?_) ?_
  · show LoadedOk (vget (t.loaded.map _) n [])
    rw [show ([] : List Entry) = (fun l : List Entry => l.map (fun e =>
      if e.state.inTransfer then { e with state := .pending, deadline := none } else e)) [] from rfl, vget_map]
    refine (k.loaded n).map fun e _ => ?_
    split
    · exact ⟨rfl, rfl, fun h => by cases h⟩
    · exact ⟨rfl, rfl, id⟩
  · have none : ∀ j, (Machine.offersToPending t).distSlot j = none := fun j => by
      show vget (Vector.replicate 4 none) j none = none
      cases j with
      | zero => rfl
      | succ j => simp only [vget, Vector.getElem?_replicate]; split <;> rfl
    exact ⟨fun j b hb => (Option.some_ne_none b (hb.symm.trans (none j))).elim, fun j _ a _ ha _ =>
      (Option.some_ne_none a (ha.symm.trans (none j))).elim⟩

theorem Moves.transfersToWaiting (h : Moves s t) : Moves s (transfersToWaiting t) := by
  refine h.records {} { campaigns := fun c => ?_ }
  show Option.map _ (vget (t.campaigns.map _) c none) = _
  rw [show (none : Option Campaign) = (Option.map fun m : Campaign => { m with entries := m.entries.map transferToWaiting })
    none from rfl, vget_map]
  show Option.map _ (Option.map _ (t.campaign c)) = _
  cases t.campaign c with
  | none => rfl
  | some m =>
    simp only [Option.map_some, List.map_map]
    refine congrArg some (List.map_congr_left fun e _ => ?_)
    simp only [Function.comp, transferToWaiting]
    split <;> rfl

theorem Moves.expirePassed (h : Moves s t) : Moves s (expirePassed t) := by
  unfold Machine.expirePassed
  have hm : ∀ a ∈ t.dueAlarms t.retainedAlarms, a.IsMoves :=
    fun a ha => t.retainedAlarms_moves ((t.mem_dueAlarms _ _).1 ha).1
  generalize t.dueAlarms t.retainedAlarms = l at hm
  induction l generalizing t with
  | nil => exact h
  | cons a l ih =>
    exact ih (hm a (by simp) h) (fun b hb => hm b (by simp [hb]))

theorem Moves.passedWindows (h : Moves s t) (i : Nat) : Moves s (passedWindows i t) :=
  h.foldl (fun _ _ k => k.gateCampaign _) _

theorem Moves.registryResumes (h : Moves s t) : Moves s (registryResumes t) := by
  refine h.foldl (fun _ n k => ?_) _
  split
  · exact k.assignFirst n
  · exact k.placeTestOrder n
  all_goals exact k

theorem Moves.unloadResumes (h : Moves s t) (x : Nat × Entry) : Moves s (unloadResumes t x) := by
  unfold Machine.unloadResumes
  split
  · exact (h.sendUnload _ _ _).ite h
  · exact h

theorem Moves.distributionResumes (h : Moves s t) (l : List (Nat × Entry)) : Moves s (distributionResumes l t) :=
  (h.foldl (fun _ x k => k.unloadResumes x) l).slotChoice

theorem Moves.permitsResume (h : Moves s t) : Moves s (permitsResume t) := by
  refine h.foldl (fun _ n k => ?_) _
  split
  · exact (k.placeFor _ _ _).ite k
  · exact k

theorem Moves.applyResumes (h : Moves s t) (x : Nat × Nat) : Moves s (applyResumes t x) := by
  unfold Machine.applyResumes
  split
  · exact (h.placeFor _ _ _).ite h
  · exact h

theorem Moves.relayResumes (h : Moves s t) (l : List (Nat × Nat)) : Moves s (relayResumes l t) :=
  (h.foldl (fun _ x k => k.applyResumes x) l).gateAll

theorem Moves.takePassed (h : Moves s t) (i : Nat) (l : List (Nat × Nat)) : Moves s (takePassed i l t) :=
  (h.offersToPending.transfersToWaiting.expirePassed.relayResumes l).passedWindows i

theorem Moves.makeUps (h : Moves s t) (c : ResetCause) (l : List (Nat × Entry)) : Moves s (makeUps c l t) :=
  ((h.channelChoice.registryResumes.distributionResumes l).permitsResume).raise _ _ _

end Sys2Proof.Machine
end

