-- ==== Sys2Proof/Laws/Commands.lean ====
section
/-! SUPPORT. What the commands do, said once: the frames of the ovens and the requests of the site processor as moves, and the
equations that the statements about commands start from. -/

namespace Sys2Proof.Machine

set_option Elab.async false

variable {s t u : State}

/-! ### The frames' blocks -/

/-- R37: a REJOIN frame moves on from what is held of frames 0. -/
theorem rejoinFrame_moves (source tag : Nat) (data : List Byte) (s : State) :
    ∃ l, Moves { s with rejoinHeld := l } (rejoinFrame source tag data s) := by
  unfold rejoinFrame
  split
  · exact ⟨_, Moves.refl⟩
  · split
    · split
      · exact ⟨_, Moves.takeRejoin (s := dropHeld source s) Moves.refl _ _⟩
      · exact ⟨s.rejoinHeld, Moves.refl⟩
    · exact ⟨s.rejoinHeld, Moves.refl⟩
  · exact ⟨s.rejoinHeld, Moves.refl⟩

theorem Moves.assignAckFrame (h : Moves s t) (n : Nat) (f : InFrame) : Moves s (assignAckFrame n f t) :=
  (h.takeNode _).ite h
theorem Moves.capabilityFrame (h : Moves s t) (n : Nat) (f : InFrame) : Moves s (capabilityFrame n f t) := h.gather _ _ _
theorem Moves.statusFrame (h : Moves s t) (n : Nat) (f : InFrame) : Moves s (statusFrame n f t) := by
  unfold Machine.statusFrame
  exact h.modOven _ _
theorem Moves.testReportFrame (h : Moves s t) (n : Nat) (f : InFrame) : Moves s (testReportFrame n f t) :=
  ((h.testPassed _).ite (h.testFailed _ _)).ite h
theorem Moves.lookupFrame (h : Moves s t) (n : Nat) (f : InFrame) : Moves s (lookupFrame n f t) := h.placeFor _ _ _

/-- The entry that a payload names, in the state asked for. -/
theorem State.namedEntry_some {n : Nat} {st : EntryState} {d : List Byte} {e : Entry} (h : s.namedEntry n st d = some e) :
    s.entry n e.number e.version = some e ∧ e.state = st := by
  unfold State.namedEntry at h
  rw [Option.bind_eq_some_iff] at h
  obtain ⟨x, hx, hs⟩ := h
  split at hs
  · rename_i h
    obtain rfl := Option.some.inj hs
    obtain ⟨-, a, b⟩ := State.entry_some hx
    exact ⟨by rw [a, b]; exact hx, h⟩
  · cases hs

theorem Moves.pullFrame (h : Moves s t) (n : Nat) (f : InFrame) : Moves s (pullFrame n f t) := by
  unfold Machine.pullFrame
  split
  · rename_i e he
    obtain ⟨he, hs⟩ := State.namedEntry_some he
    exact h.startStream he (by simp [hs, EntryState.inTransfer])
  · exact h

theorem Moves.haveFrame (h : Moves s t) (n : Nat) (f : InFrame) : Moves s (haveFrame n f t) := by
  unfold Machine.haveFrame
  split
  · exact h.entryLoaded _ _ _
  · exact h

theorem Moves.declineFrame (h : Moves s t) (n : Nat) (f : InFrame) : Moves s (declineFrame n f t) := by
  unfold Machine.declineFrame
  split
  · rename_i e _
    refine Moves.slotChoice (h.tail ((MoveSteps.endTransfer .refl n).modEntry _ _ _ _) fun k => ?_)
    obtain ⟨c, d⟩ := endTransfer_calmer (n := n) k
    exact (modEntry_calmer c.ok (.inl d) _).ok
  · exact h

theorem Moves.loadDoneFrame (h : Moves s t) (n : Nat) (f : InFrame) : Moves s (loadDoneFrame n f t) := by
  unfold Machine.loadDoneFrame
  split
  · exact ((h.modEntry _ _ _ _).entryLoaded _ _ _).ite (h.failedTry _)
  · exact h

theorem Moves.unloadDoneFrame (h : Moves s t) (n : Nat) (f : InFrame) : Moves s (unloadDoneFrame n f t) := by
  unfold Machine.unloadDoneFrame
  split
  · rename_i e he
    obtain ⟨he, hs⟩ := State.namedEntry_some he
    exact h.unloaded he (by simp [Entry.Resting, hs, EntryState.inTransfer])
  · exact h

theorem Moves.startRequestFrame (h : Moves s t) (n : Nat) (f : InFrame) : Moves s (startRequestFrame n f t) :=
  h.startRequest _ _ _
theorem Moves.stageSummaryFrame (h : Moves s t) (n : Nat) (f : InFrame) : Moves s (stageSummaryFrame n f t) :=
  h.stageSummary _ _
theorem Moves.cookEndFrame (h : Moves s t) (n : Nat) (f : InFrame) : Moves s (cookEndFrame n f t) := h.cookEnd _ _ _ _
theorem Moves.cleanStartFrame (h : Moves s t) (n : Nat) (f : InFrame) : Moves s (cleanStartFrame n f t) := h.cleanStart _ _
theorem Moves.cleanPhaseFrame (h : Moves s t) (n : Nat) (f : InFrame) : Moves s (cleanPhaseFrame n f t) :=
  h.cleanPhase _ _ _
theorem Moves.cleanEndFrame (h : Moves s t) (n : Nat) (f : InFrame) : Moves s (cleanEndFrame n f t) := h.cleanEnd _ _ _
theorem Moves.faultFrame (h : Moves s t) (n : Nat) (f : InFrame) : Moves s (faultFrame n f t) :=
  (h.routeFault _ _ _).ite (h.clearFault _ _)

theorem Moves.imageReadyFrame (h : Moves s t) (n : Nat) (f : InFrame) : Moves s (imageReadyFrame n f t) := by
  unfold Machine.imageReadyFrame
  split
  · exact ((h.modChannel _ _).modCEntry _ _ _).kick (Touches.fillImage .refl _ _)
  · exact h

theorem Moves.imageRefuseFrame (h : Moves s t) (n : Nat) (f : InFrame) : Moves s (imageRefuseFrame n f t) := by
  unfold Machine.imageRefuseFrame
  split
  · exact (h.failedAttempt _ _ _).ite (h.restartImage _)
  · exact h

theorem Moves.imageAckFrame (h : Moves s t) (n : Nat) (f : InFrame) : Moves s (imageAckFrame n f t) := by
  unfold Machine.imageAckFrame
  split
  · exact (((h.modChannel _ _).modCEntry _ _ _).kick (Touches.fillImage .refl _ _)).ite h
  · exact h

theorem Moves.stage (h : Moves s t) (c n ch : Nat) : Moves s (stage c n ch t) :=
  ((((h.modCEntry _ _ _).releaseChannel _ _ _).raiseUpdate _ _ _ _ _).gate _ _).channelChoice

theorem Moves.imageCheckFrame (h : Moves s t) (n : Nat) (f : InFrame) : Moves s (imageCheckFrame n f t) := by
  unfold Machine.imageCheckFrame
  split
  · exact ((h.stage _ _ _).ite (h.failedAttempt _ _ _)).ite h
  · exact h

/-! ### The requests: what each leaves is moves from what it found -/

theorem okWith_snd (b : List Byte) (s : State) : (okWith b s).2 = s := rfl
theorem refuse_snd (x : Status) (s : State) : (refuse x s).2 = s := rfl
theorem okClamped_snd (c : Bool) (s : State) : (okClamped c s).2 = s := rfl
theorem ok_snd (s : State) : (ok s).2 = s := rfl

/-- Moves of a response's state, branch by branch. -/
theorem Moves.iteSnd {c : Prop} [Decidable c] {a b : Reply × State} (h : Moves s a.2) (k : Moves s b.2) :
    Moves s (if c then a else b).2 := by
  split
  · exact h
  · exact k

theorem Moves.onRecord (n : Nat) (act : Act) (h : Moves s t) (k : Moves s (act t).2) : Moves s (onRecord n act t).2 :=
  Moves.iteSnd h (Moves.iteSnd h k)

theorem Moves.onService (n : Nat) (act : Act) (h : Moves s t) (k : Moves s (act t).2) : Moves s (onService n act t).2 :=
  Moves.onRecord n _ h (Moves.iteSnd k h)

theorem Moves.onDraft (i : Nat) (act : Recipe → Act) (h : Moves s t) (k : ∀ r, Moves s (act r t).2) :
    Moves s (onDraft i act t).2 := by
  refine Moves.iteSnd h ?_
  split
  · exact k _
  · exact h

theorem Moves.onCampaign (c : Nat) (act : Campaign → Act) (h : Moves s t) (k : ∀ m, Moves s (act m t).2) :
    Moves s (onCampaign c act t).2 := by
  refine Moves.iteSnd h ?_
  split
  · exact k _
  · exact h

theorem Moves.reqOvenAdmit (h : Moves s t) (n g : Nat) : Moves s (reqOvenAdmit n g t).2 :=
  h.iteSnd (h.iteSnd (h.iteSnd (h.admitOven n g)))

theorem Moves.reqOvenCommission (h : Moves s t) (n : Nat) (c d : Int) (g : Nat) (x : Thresholds) :
    Moves s (reqOvenCommission n c d g x t).2 :=
  h.iteSnd (h.iteSnd (h.iteSnd ((h.modOven _ _).placeTestOrder n)))

theorem Moves.setGroup (h : Moves s t) (n : Nat) (g : Option Nat) : Moves s (setGroup n g t) := by
  unfold Machine.setGroup
  split
  · exact h.ite ((h.modOven _ _).recomputeOne _)
  · exact h

theorem Moves.setOffsets (h : Moves s t) (n : Nat) (c d : Option Int) : Moves s (setOffsets n c d t) :=
  h.ite ((h.setOven _ _).offsetsChanged _ _)

theorem Moves.reqOvenSet (h : Moves s t) (n : Nat) (g : Option Nat) (c d : Option Int) (x : Thresholds) :
    Moves s (reqOvenSet n g c d x t).2 := by
  refine h.iteSnd (Moves.onService n _ h ?_)
  have k := (h.setGroup n g).setOffsets n c d
  exact k.ite (k.applySettings n x)

theorem Moves.setLock (h : Moves s t) (n : Nat) (b : Bool) : Moves s (setLock n b t) := h.ite ((h.modOven _ _).deriveLock _)
theorem Moves.reqOvenLock (h : Moves s t) (n : Nat) : Moves s (reqOvenLock n t).2 := Moves.onRecord n _ h (h.setLock _ _)
theorem Moves.reqOvenUnlock (h : Moves s t) (n : Nat) : Moves s (reqOvenUnlock n t).2 :=
  Moves.onRecord n _ h (h.setLock _ _)

theorem Moves.restore (h : Moves s t) (n i : Nat) (r : RestoreRecord) : Moves s (restore n i r t) :=
  ((((h.foldl (fun _ _ k => k.vacate _) _).setOven _ _).restoreHygiene _ _).recordLocks _ _).recomputeOne _ |>.silenceExpiry _

theorem Moves.reqOvenRestore (h : Moves s t) (n i : Nat) (r : RestoreRecord) : Moves s (reqOvenRestore n i r t).2 :=
  h.iteSnd (h.iteSnd (h.iteSnd (h.iteSnd (h.restore n i r))))

theorem Moves.reqOvenRead (h : Moves s t) (n : Nat) : Moves s (reqOvenRead n t).2 := h.iteSnd (h.iteSnd h)

theorem Moves.reqRecipeDraft (h : Moves s t) (i : Nat) (x : List Byte) (f : Nat) (v : Option Nat) :
    Moves s (reqRecipeDraft i x f v t).2 :=
  h.iteSnd (h.iteSnd (h.iteSnd (h.iteSnd (h.records {} {}))))

theorem Moves.setSteps (h : Moves s t) (r : Recipe) (l : List Step) : Moves s (setSteps r l t).2 := h.modRecipe _ _ _

theorem Moves.reqRecipeStep (h : Moves s t) (i k : Nat) (x : RawStep) : Moves s (reqRecipeStep i k x t).2 := by
  refine Moves.onDraft i _ h (fun r => ?_)
  split
  · exact h
  · split
    · exact h.setSteps _ _
    · exact h

theorem Moves.reqRecipeTrim (h : Moves s t) (i k : Nat) : Moves s (reqRecipeTrim i k t).2 :=
  Moves.onDraft i _ h (fun _ => h.iteSnd (h.setSteps _ _))
theorem Moves.reqRecipeDiscardDraft (h : Moves s t) (i : Nat) : Moves s (reqRecipeDiscardDraft i t).2 :=
  Moves.onDraft i _ h (fun _ => h.records {} {})

theorem Moves.publish (h : Moves s t) (r : Recipe) (a : Option Recipe) : Moves s (publish r a t) := by
  have k : Moves s (publishRecords r a t) := by
    unfold publishRecords
    dsimp only
    split
    · exact (h.modRecipe _ _ _).modRecipe _ _ _
    · exact h.modRecipe _ _ _
  unfold Machine.publish
  dsimp only
  split
  · exact (k.publicationTold _).freeCheck _ _
  · exact k.publicationTold _

theorem Moves.reqRecipePublish (h : Moves s t) (i : Nat) : Moves s (reqRecipePublish i t).2 :=
  Moves.onDraft i _ h (fun _ => h.iteSnd (h.iteSnd (h.publish _ _)))

theorem Moves.reqRecipeWithdraw (h : Moves s t) (i : Nat) : Moves s (reqRecipeWithdraw i t).2 := by
  refine h.iteSnd ?_
  split
  · exact h
  · exact h.iteSnd (((h.modRecipe _ _ _).recomputeAll).freeCheck _ _)

theorem Moves.reqRecipeGroups (h : Moves s t) (i g : Nat) : Moves s (reqRecipeGroups i g t).2 := by
  have k : Moves s (setGroups i g t) := h.records {} {}
  refine h.iteSnd ?_
  split
  · exact h
  · exact k.ite k.recomputeAll
  · exact k

theorem Moves.reqRecipeRead (h : Moves s t) (i v : Nat) : Moves s (reqRecipeRead i v t).2 := by
  refine h.iteSnd ?_
  split <;> exact h

theorem Moves.reqRecipeList (h : Moves s t) (i v : Nat) : Moves s (reqRecipeList i v t).2 := h.iteSnd h
/-- R86: a FAILED entry of the oven goes back to PENDING. -/
theorem Moves.resend (h : Moves s t) (n : Nat) {e : Entry} (he : e ∈ t.loadedOf n) (hs : e.Resting) :
    Moves s (resend n e t) :=
  (h.tail (MoveSteps.modEntry .refl _ _ _ _) fun k => (modEntry_calmer k (k.loose he hs) _).ok).slotChoice

theorem Moves.reqRecipeResend (h : Moves s t) (n i : Nat) : Moves s (reqRecipeResend n i t).2 := by
  refine h.iteSnd (Moves.onService n _ h ?_)
  split
  · rename_i e he
    have hs := List.find?_some he
    simp only [Bool.and_eq_true, decide_eq_true_eq] at hs
    exact h.resend n (List.mem_of_find?_eq_some he) (by simp [Entry.Resting, hs.2, EntryState.inTransfer])
  · exact h

theorem Moves.reqLoadedSetRead (h : Moves s t) (n i : Nat) : Moves s (reqLoadedSetRead n i t).2 :=
  h.iteSnd (Moves.onService n _ h h)

theorem Moves.reqPermitRevoke (h : Moves s t) (n : Nat) : Moves s (reqPermitRevoke n t).2 := by
  refine Moves.onRecord n _ h ?_
  split
  · rename_i p hp; exact h.revoke n hp
  · exact h

theorem Moves.reqPermitRead (h : Moves s t) (n : Nat) : Moves s (reqPermitRead n t).2 := by
  refine Moves.onRecord n _ h ?_
  split <;> exact h

theorem Moves.reqCleanOrder (h : Moves s t) (n p : Nat) : Moves s (reqCleanOrder n p t).2 := by
  unfold Machine.reqCleanOrder
  split
  · exact h
  · exact Moves.onService n _ h (h.orderClean _ _)

theorem Moves.reqManualClean (h : Moves s t) (n : Nat) : Moves s (reqManualClean n t).2 :=
  Moves.onService n _ h (h.iteSnd (h.manualClean _))

theorem Moves.reqRoutePut (h : Moves s t) (e : Nat) (a : RouteArgs) : Moves s (reqRoutePut e a t).2 :=
  h.iteSnd (h.iteSnd (h.setRoute _ _))
theorem Moves.reqRouteEnable (h : Moves s t) (e : Nat) : Moves s (reqRouteEnable e t).2 := h.iteSnd (h.setRoute _ _)
theorem Moves.reqRouteDisable (h : Moves s t) (e : Nat) : Moves s (reqRouteDisable e t).2 := h.iteSnd (h.setRoute _ _)
theorem Moves.reqRouteRead (h : Moves s t) (b : Bool) : Moves s (reqRouteRead b t).2 := Moves.ite (h.records {} {}) h

theorem Moves.reqTicketOpen (h : Moves s t) (o c : Nat) (x : Option Nat) : Moves s (reqTicketOpen o c x t).2 := by
  unfold Machine.reqTicketOpen
  simp only [apply_ite Prod.snd, okWith_snd, refuse_snd]
  refine h.ite (h.ite (h.ite (h.ite ?_)))
  split
  · exact h
  · rename_i hf
    simp only [State.ticketsFull, Bool.or_eq_true, decide_eq_true_eq, Bool.not_eq_true', not_or] at hf
    exact h.createTicket _ _ _ _ _ _ (by omega) (by simpa using hf.1)

theorem Moves.reqTicketAck (h : Moves s t) (k : Nat) (x : Option (List Byte)) : Moves s (reqTicketAck k x t).2 := by
  refine h.iteSnd ?_
  split
  · exact h
  · exact h.iteSnd (h.modTicket _ _)

theorem Moves.reqTicketResolve (h : Moves s t) (k : Nat) : Moves s (reqTicketResolve k t).2 := by
  unfold Machine.reqTicketResolve
  split
  · exact h
  · exact h.iteSnd (h.resolveTicket _)

theorem Moves.reqTicketClose (h : Moves s t) (k : Nat) : Moves s (reqTicketClose k t).2 := by
  unfold Machine.reqTicketClose
  split
  · exact h
  · exact h.closeTicket _ _

theorem Moves.reqTicketRead (h : Moves s t) (k : Nat) : Moves s (reqTicketRead k t).2 := by
  unfold Machine.reqTicketRead
  split <;> exact h

theorem Moves.reqTicketList (h : Moves s t) (i : Nat) (o : Option Nat) : Moves s (reqTicketList i o t).2 := h.iteSnd h

theorem Moves.reqCampaignPut (h : Moves s t) (c : Nat) (a : CampaignArgs) : Moves s (reqCampaignPut c a t).2 :=
  h.iteSnd (h.iteSnd (h.setCampaign _ _ fun x hx => by obtain rfl := Option.some.inj hx; exact .nil))

theorem Moves.startCampaign (h : Moves s t) (c : Nat) : Moves s (startCampaign c t) :=
  (h.modCampaign _ _).entriesForCampaign _

theorem Moves.reqCampaignStart (h : Moves s t) (c : Nat) : Moves s (reqCampaignStart c t).2 :=
  Moves.onCampaign c _ h (fun _ => h.iteSnd (h.iteSnd (h.iteSnd
    (b := okWith _ (Machine.channelChoice (Machine.finishCheck c (Machine.startCampaign c t))))
    ((h.startCampaign c).finishCheck c).channelChoice)))

theorem Moves.reqCampaignPause (h : Moves s t) (c : Nat) : Moves s (reqCampaignPause c t).2 := by
  refine Moves.onCampaign c _ h (fun m => ?_)
  split
  · exact h.modCampaign _ _
  all_goals exact h

theorem Moves.resumeCampaign (h : Moves s t) (c : Nat) : Moves s (resumeCampaign c t) :=
  (((h.startCampaign _).finishCheck _).channelChoice).gateCampaign _

theorem Moves.reqCampaignResume (h : Moves s t) (c : Nat) : Moves s (reqCampaignResume c t).2 := by
  refine Moves.onCampaign c _ h (fun m => ?_)
  split
  · exact h.resumeCampaign _
  all_goals exact h

theorem Moves.reqCampaignCancel (h : Moves s t) (c : Nat) : Moves s (reqCampaignCancel c t).2 := by
  refine Moves.onCampaign c _ h (fun m => ?_)
  split
  · exact h
  · exact h.emptyCampaign _
  · exact h.emptyCampaign _
  · exact h.cancelCampaign _
  · exact h.cancelCampaign _

theorem Moves.reqCampaignClear (h : Moves s t) (c : Nat) : Moves s (reqCampaignClear c t).2 :=
  Moves.onCampaign c _ h (fun _ => (h.setCampaign _ _).iteSnd h)
theorem Moves.reqCampaignRead (h : Moves s t) (c : Nat) : Moves s (reqCampaignRead c t).2 := h.iteSnd h

theorem Moves.feed (h : Moves s t) (ch : Nat) (b : List Byte) : Moves s (feed ch b t) :=
  (h.modChannel _ _).kick (Touches.fillImage .refl _ _)

theorem Moves.reqImageBlock (h : Moves s t) (ch o : Nat) (b : List Byte) : Moves s (reqImageBlock ch o b t).2 := by
  refine h.iteSnd ?_
  split
  · exact h
  · exact h.iteSnd (h.iteSnd (h.iteSnd (h.feed _ _)))

theorem Moves.raiseStandings (h : Moves s t) (a b : BitVec 16) : Moves s (raiseStandings a b t) := by
  have p : ∀ {t}, Moves s t → Moves s (standingPresence t) := fun h => h.foldl (fun _ _ k => k.raisePresence _ _) _
  have q : ∀ {t}, Moves s t → Moves s (standingHygiene t) := fun h => h.foldl (fun _ _ k => k.raiseStanding _) _
  have r : ∀ {t}, Moves s t → Moves s (standingTickets t) := fun h => h.foldl (fun _ _ k => k.raiseTicket _ _) _
  have v : ∀ {t}, Moves s t → Moves s (standingBus t) := fun h => h.ite (h.raise _ _ _)
  have k1 := (p h).ite (c := newlyEnabled a b .ovenPresence = true) h
  have k2 := (q k1).ite (c := newlyEnabled a b .hygiene = true) k1
  have k3 := (r k2).ite (c := newlyEnabled a b .ticket = true) k2
  exact (v k3).ite k3

/-! ### The equations of the statements -/

/-- R190: below the clock's maximum a port that serves a request carries it out and holds its response. -/
theorem request_eq (i : Instr) (act : Act) (h : s.Serves i) (k : ((act s).2).clock < Config.maxClock) :
    request i act s = .next { (act s).2 with port := .ready (act s).1 } := by
  have e : onRequest i act s = { (act s).2 with port := .ready (act s).1 } := by
    rcases h.2 with p | p <;> simp [onRequest, State.admits, p, carryOut]
  rw [request, event_eq h.1.1 (by rw [e]; exact k), e]

/-- The same for a request whose effect is moves. -/
theorem request_moves (i : Instr) (act : Act) (h : s.Serves i) (k : Moves s (act s).2) :
    request i act s = .next { (act s).2 with port := .ready (act s).1 } :=
  request_eq i act h (by rw [k.still.clock]; exact h.1.2)

/-- R189: a port that is READY or executes another request discards the request and sets the overrun flag. -/
theorem request_busy (i : Instr) (act : Act) (h : s.Live) (k : s.admits i = false) :
    request i act s = .next { s with overrun := true } := by
  have e : onRequest i act s = { s with overrun := true } := by simp [onRequest, k]
  rw [request, event_eq h.1 (by rw [e]; exact h.2), e]

/-- R3 to R5: a frame at the head of the buffer from an accepted slot: the Registry is told, then the owning block. -/
theorem slotFrame_eq {k : InKind} {block : Nat → InFrame → State → State} {f : InFrame} {rest : List InFrame}
    (h : s.inbound = f :: rest) (a : acceptedKind f = some k) (b : s.acceptsSource f.source = true) :
    slotFrame k block s = block f.source f (heard f.source { s with inbound := rest }) := by
  have b' : State.acceptsSource { s with inbound := rest } f.source = true := b
  simp [slotFrame, takeHead, h, a, b']

/-- R10: in a settled state a frame placed with a slot's mark goes where `deliver` says. -/
theorem place_eq_deliver (h : s.Settled) (f : OutFrame) (n : Nat) (hm : f.mark = .oven n) : place f s = deliver f s := by
  have hk : ∀ u : State, u.held = true → kick u = u := by
    intro u hu
    have : takeFrame u = none := by
      simp only [State.held, Bool.or_eq_true] at hu
      simp [takeFrame, hu]
    simp [kick, this]
  by_cases hh : s.held = true
  · have : (enqueue f s).held = true := by
      have e := enqueue_still f s
      have b := enqueue_transmitter f s
      simpa [State.held, e.busOff, b] using hh
    simp [place, deliver, hh, hk _ this]
  · have hh' : s.held = false := by simpa using hh
    obtain ⟨a, b, c, d⟩ := h hh'
    have hq : ∀ q, s.queue q = [] := by intro q; cases q <;> assumption
    have e : enqueue f s = s.setQueue f.payload.kind.queue [f] := by
      unfold enqueue
      have : 0 < f.payload.kind.queue.capacity := by cases f.payload.kind.queue <;> decide
      simp [hq, this]
    have hs : s.transmitter = none ∧ s.busOff = false := by
      simpa [State.held, Option.isSome_eq_false_iff, Option.isNone_iff_eq_none] using hh'
    rw [place, deliver, e, hh']
    generalize f.payload.kind.queue = q
    have n1 : (s.setQueue q [f]).nextQueue = some q := by
      cases q <;> simp [State.nextQueue, State.setQueue, State.queue, a, b, c, d]
    have n2 : takeFrame (s.setQueue q [f]) = some (f, { s with transmitter := some f }) := by
      unfold takeFrame
      rw [n1]
      cases q <;> simp_all [State.setQueue, State.queue]
    simp [kick, n2, afterTaken, hm]

theorem placeFor_eq_deliver (h : s.Settled) (p : Producer) (n : Nat) (d : Payload) :
    placeFor p n d s = deliver { payload := d, producer := p, mark := .oven n, dest := n } s :=
  place_eq_deliver h _ n rfl

end Sys2Proof.Machine
end

