-- ==== Sys2Proof/Laws/Calm.lean ====
section
/-! SUPPORT. The choices and checks that follow a command, where they find no work, and the order in which a placed frame and a
change of the records may be taken. -/

namespace Sys2Proof.Machine

set_option Elab.async false

variable {s : State}

/-! ### Nothing follows -/

theorem kick_held (h : s.held = true) : kick s = s := by
  have : takeFrame s = none := by
    simp only [State.held, Bool.or_eq_true] at h
    simp [takeFrame, h]
  simp [kick, this]

theorem kick_settled_eq (h : s.Settled) : kick s = s := by
  by_cases hh : s.held = true
  · exact kick_held hh
  · obtain ⟨a, b, c, d⟩ := h (by simpa using hh)
    have : takeFrame s = none := by
      simp only [State.held, Bool.or_eq_true, not_or, Bool.not_eq_true] at hh
      simp [takeFrame, hh, State.nextQueue, State.queue, a, b, c, d]
    simp [kick, this]

theorem slotQualifies_false (h : s.NoOffers) (n : Nat) : s.slotQualifies n = false := by
  simp [State.slotQualifies, h n]

/-- R77: no oven qualifies, so no choice is made. -/
theorem slotChoice_none (h : ∀ n, s.slotQualifies n = false) : slotChoice s = s := by
  have : s.roundRobin.find? s.slotQualifies = none := by simp [h]
  simp only [slotChoice, chooseSlots, this]
  split
  · split <;> simp_all
  · rfl

theorem slotChoice_noOffers (h : s.NoOffers) : slotChoice s = s := slotChoice_none (slotQualifies_false h)

theorem slotChoice_noService (h : ∀ n, (s.oven n).state ≠ .inService) : slotChoice s = s :=
  slotChoice_none (fun n => by simp [State.slotQualifies, h n])

/-- R77: no slot is free, so no choice is made. -/
theorem slotChoice_full (h : ∀ k, 1 ≤ k → k ≤ 4 → (s.distSlot k).isSome = true) : slotChoice s = s := by
  have : allDistSlots.find? (fun k => (s.distSlot k).isNone) = none := by
    simp only [List.find?_eq_none, allDistSlots]
    intro k hk
    have := h k (by simp at hk; omega) (by simp at hk; omega)
    simp [Option.isNone_iff_eq_none, Option.isSome_iff_ne_none.1 this]
  simp [slotChoice, chooseSlots, this]

theorem candidate_none (h : s.NoCampaigns) : s.candidate = none := by
  simp [State.candidate, State.candidateIn, h _, List.findSome?_eq_none_iff]

theorem chooseChannels_none (h : s.NoCampaigns) (fuel : Nat) : chooseChannels fuel s = s := by
  cases fuel with
  | zero => rfl
  | succ fuel =>
    unfold chooseChannels
    rw [candidate_none h]
    split <;> simp_all

theorem channelChoice_none (h : s.NoCampaigns) (k : s.Settled) : channelChoice s = s := by
  rw [channelChoice, chooseChannels_none h, ite_self, kick_settled_eq k]

theorem centry_none (h : s.NoCampaigns) (c n : Nat) : s.centry c n = none := by simp [State.centry, h c]

theorem campaignWhere_none (h : s.NoCampaigns) (n : Nat) (p : CEntryState → Bool) : s.campaignWhere n p = none := by
  simp [State.campaignWhere, centry_none h]

theorem applying_none (h : s.NoCampaigns) (n : Nat) : s.applying n = false := by
  simp [State.applying, campaignWhere_none h]

theorem gateOven_none (h : s.NoCampaigns) (n : Nat) : gateOven n s = s := by simp [gateOven, campaignWhere_none h]

theorem gateCampaign_none (h : s.NoCampaigns) (c : Nat) : gateCampaign c s = s := by simp [gateCampaign, h c]

theorem gateAll_none (h : s.NoCampaigns) : gateAll s = s := by
  simp [gateAll, allCampaigns, gateCampaign_none h]

theorem reopenOven_none (h : s.NoCampaigns) (n : Nat) (p : CEntryState → Bool) : reopenOven n p s = s := by
  simp [reopenOven, campaignWhere_none h]

theorem relaySilent_none (h : s.NoCampaigns) (n : Nat) : relaySilent n s = s := by simp [relaySilent, campaignWhere_none h]

theorem judgeApply_none (h : s.NoCampaigns) (n : Nat) : judgeApply n s = s := by simp [judgeApply, campaignWhere_none h]

theorem relayRejoin_none (h : s.NoCampaigns) (n : Nat) : relayRejoin n s = s := by
  rw [relayRejoin, reopenOven_none h, judgeApply_none h]

theorem stagedRejoin_none (h : s.NoCampaigns) (n : Nat) (b : Bool) : stagedRejoin n b s = s := by
  simp [stagedRejoin, campaignWhere_none h]

theorem retireEntries_none (h : s.NoCampaigns) (k : s.Settled) (n : Nat) : retireEntries n s = s := by
  have : ∀ c, retireEntry n s c = s := fun c => by simp [retireEntry, centry_none h]
  simp [retireEntries, allCampaigns, this, channelChoice_none h k]

theorem entriesForOven_none (h : s.NoCampaigns) (n : Nat) : entriesForOven n s = s := by
  simp [entriesForOven, allCampaigns, h _]

theorem withdrawTickets_none {n : Nat} (h : s.NoTickets n) : withdrawTickets n s = s := by
  have : s.tickets.filter (fun t => t.oven = n) = [] := by
    simp only [List.filter_eq_nil_iff]
    intro t ht
    simpa using h t ht
  simp [withdrawTickets, this]

/-- R36: an oven that is PRESENT has been heard. -/
theorem heard_present {n : Nat} (hn : isSlot n) (h : (s.oven n).present = true) :
    heard n s = s.setOven n { s.oven n with
      lastHeard := s.clock
      silence := if (s.oven n).state.watched then some (s.after 10) else (s.oven n).silence } := by
  simp [heard, State.modOven, h, Config.silenceSeconds, hn.1, hn.2]

theorem storeState_same {n : Nat} {h : Hygiene} (hh : s.hygiene n = some h) (k : h.judged = h.state) :
    storeState n s = (false, s) := by simp [storeState, hh, k]

/-- R114: the state does not change, so nothing is stored, placed or raised. -/
theorem reevaluate_same {n : Nat} {h : Hygiene} (hh : s.hygiene n = some h) (k : h.judged = h.state) :
    reevaluate n s = s := by simp [reevaluate, storeState_same hh k]

theorem leaveCheck_service {n : Nat} (h : (s.oven n).state ≠ .retiring) : leaveCheck n s = s := by simp [leaveCheck, h]

/-- R99, R100: `setOven` of what a slot already holds. -/
theorem setOven_same {n : Nat} (hn : isSlot n) : s.setOven n (s.oven n) = s := by
  have : vset s.ovens n (s.oven n) = s.ovens := vset_vget s.ovens n {} hn
  simp [State.setOven, this]

theorem setLoaded_same {n : Nat} (hn : isSlot n) : s.setLoaded n (s.loadedOf n) = s := by
  have : vset s.loaded n (s.loadedOf n) = s.loaded := vset_vget s.loaded n [] hn
  simp [State.setLoaded, this]

end Sys2Proof.Machine
end

