-- ==== Sys2Proof/Laws/Commute.lean ====
section
/-! SUPPORT. A raise and the placing of a frame read and write the transport and the notice set alone: a change of a record may
be taken before or after them. One group of lemmas for each record. -/

namespace Sys2Proof.Machine

set_option Elab.async false

/-! ### ovens -/

theorem raise_ovens (k : NoticeKind) (n : Nat) (d : List Byte) (s : State) (v : Vector Oven 32) :
    raise k n d { s with ovens := v } = { raise k n d s with ovens := v } := by
  cases s
  simp only [raise, putNotice, State.enabled, State.ordinaryCount]
  split_ifs <;> rfl

theorem raiseBus_ovens (c : Nat) (s : State) (v : Vector Oven 32) :
    raiseBus c { s with ovens := v } = { raiseBus c s with ovens := v } := raise_ovens _ _ _ s v

theorem dropFrame_ovens (f : OutFrame) (s : State) (v : Vector Oven 32) :
    dropFrame f { s with ovens := v } = { dropFrame f s with ovens := v } := by
  by_cases h : f.payload.kind = .lookupAnswer
  · simp only [dropFrame, h, if_true]
  · simp only [dropFrame, h, if_false]
    exact raiseBus_ovens 2 { s with
      lastDropped := (f.payload.kind.code, f.dest)
      droppedFrames := satAdd 65535 s.droppedFrames 1 } v

theorem enqueue_ovens (f : OutFrame) (s : State) (v : Vector Oven 32) :
    enqueue f { s with ovens := v } = { enqueue f s with ovens := v } := by
  have hq : ∀ q, State.queue { s with ovens := v } q = s.queue q := by intro q; cases q <;> rfl
  have hs : ∀ q l, State.setQueue { s with ovens := v } q l = { s.setQueue q l with ovens := v } := by
    intro q l; cases q <;> rfl
  simp only [enqueue, hq, hs, dropFrame_ovens]
  split_ifs <;> rfl

theorem deliver_ovens (f : OutFrame) (s : State) (v : Vector Oven 32) :
    deliver f { s with ovens := v } = { deliver f s with ovens := v } := by
  have hh : State.held { s with ovens := v } = s.held := rfl
  simp only [deliver, hh, enqueue_ovens]
  split_ifs <;> rfl

@[simp] theorem raise_keeps_ovens (k : NoticeKind) (n : Nat) (d : List Byte) (s : State) : (raise k n d s).ovens = s.ovens := by
  rw [raise_eq]

@[simp] theorem deliver_keeps_ovens (f : OutFrame) (s : State) : (deliver f s).ovens = s.ovens := by
  have := congrArg State.ovens (deliver_ovens f s s.ovens)
  exact this

/-! ### loaded -/

theorem raise_loaded (k : NoticeKind) (n : Nat) (d : List Byte) (s : State) (v : Vector (List Entry) 32) :
    raise k n d { s with loaded := v } = { raise k n d s with loaded := v } := by
  cases s
  simp only [raise, putNotice, State.enabled, State.ordinaryCount]
  split_ifs <;> rfl

theorem raiseBus_loaded (c : Nat) (s : State) (v : Vector (List Entry) 32) :
    raiseBus c { s with loaded := v } = { raiseBus c s with loaded := v } := raise_loaded _ _ _ s v

theorem dropFrame_loaded (f : OutFrame) (s : State) (v : Vector (List Entry) 32) :
    dropFrame f { s with loaded := v } = { dropFrame f s with loaded := v } := by
  by_cases h : f.payload.kind = .lookupAnswer
  · simp only [dropFrame, h, if_true]
  · simp only [dropFrame, h, if_false]
    exact raiseBus_loaded 2 { s with
      lastDropped := (f.payload.kind.code, f.dest)
      droppedFrames := satAdd 65535 s.droppedFrames 1 } v

theorem enqueue_loaded (f : OutFrame) (s : State) (v : Vector (List Entry) 32) :
    enqueue f { s with loaded := v } = { enqueue f s with loaded := v } := by
  have hq : ∀ q, State.queue { s with loaded := v } q = s.queue q := by intro q; cases q <;> rfl
  have hs : ∀ q l, State.setQueue { s with loaded := v } q l = { s.setQueue q l with loaded := v } := by
    intro q l; cases q <;> rfl
  simp only [enqueue, hq, hs, dropFrame_loaded]
  split_ifs <;> rfl

theorem deliver_loaded (f : OutFrame) (s : State) (v : Vector (List Entry) 32) :
    deliver f { s with loaded := v } = { deliver f s with loaded := v } := by
  have hh : State.held { s with loaded := v } = s.held := rfl
  simp only [deliver, hh, enqueue_loaded]
  split_ifs <;> rfl

@[simp] theorem raise_keeps_loaded (k : NoticeKind) (n : Nat) (d : List Byte) (s : State) : (raise k n d s).loaded = s.loaded := by
  rw [raise_eq]

@[simp] theorem deliver_keeps_loaded (f : OutFrame) (s : State) : (deliver f s).loaded = s.loaded := by
  have := congrArg State.loaded (deliver_loaded f s s.loaded)
  exact this

/-! ### permits -/

theorem raise_permits (k : NoticeKind) (n : Nat) (d : List Byte) (s : State) (v : Vector (Option Permit) 32) :
    raise k n d { s with permits := v } = { raise k n d s with permits := v } := by
  cases s
  simp only [raise, putNotice, State.enabled, State.ordinaryCount]
  split_ifs <;> rfl

theorem raiseBus_permits (c : Nat) (s : State) (v : Vector (Option Permit) 32) :
    raiseBus c { s with permits := v } = { raiseBus c s with permits := v } := raise_permits _ _ _ s v

theorem dropFrame_permits (f : OutFrame) (s : State) (v : Vector (Option Permit) 32) :
    dropFrame f { s with permits := v } = { dropFrame f s with permits := v } := by
  by_cases h : f.payload.kind = .lookupAnswer
  · simp only [dropFrame, h, if_true]
  · simp only [dropFrame, h, if_false]
    exact raiseBus_permits 2 { s with
      lastDropped := (f.payload.kind.code, f.dest)
      droppedFrames := satAdd 65535 s.droppedFrames 1 } v

theorem enqueue_permits (f : OutFrame) (s : State) (v : Vector (Option Permit) 32) :
    enqueue f { s with permits := v } = { enqueue f s with permits := v } := by
  have hq : ∀ q, State.queue { s with permits := v } q = s.queue q := by intro q; cases q <;> rfl
  have hs : ∀ q l, State.setQueue { s with permits := v } q l = { s.setQueue q l with permits := v } := by
    intro q l; cases q <;> rfl
  simp only [enqueue, hq, hs, dropFrame_permits]
  split_ifs <;> rfl

theorem deliver_permits (f : OutFrame) (s : State) (v : Vector (Option Permit) 32) :
    deliver f { s with permits := v } = { deliver f s with permits := v } := by
  have hh : State.held { s with permits := v } = s.held := rfl
  simp only [deliver, hh, enqueue_permits]
  split_ifs <;> rfl

@[simp] theorem raise_keeps_permits (k : NoticeKind) (n : Nat) (d : List Byte) (s : State) : (raise k n d s).permits = s.permits := by
  rw [raise_eq]

@[simp] theorem deliver_keeps_permits (f : OutFrame) (s : State) : (deliver f s).permits = s.permits := by
  have := congrArg State.permits (deliver_permits f s s.permits)
  exact this

/-! ### slots -/

theorem raise_slots (k : NoticeKind) (n : Nat) (d : List Byte) (s : State) (v : Vector (Option DistSlot) 4) :
    raise k n d { s with slots := v } = { raise k n d s with slots := v } := by
  cases s
  simp only [raise, putNotice, State.enabled, State.ordinaryCount]
  split_ifs <;> rfl

theorem raiseBus_slots (c : Nat) (s : State) (v : Vector (Option DistSlot) 4) :
    raiseBus c { s with slots := v } = { raiseBus c s with slots := v } := raise_slots _ _ _ s v

theorem dropFrame_slots (f : OutFrame) (s : State) (v : Vector (Option DistSlot) 4) :
    dropFrame f { s with slots := v } = { dropFrame f s with slots := v } := by
  by_cases h : f.payload.kind = .lookupAnswer
  · simp only [dropFrame, h, if_true]
  · simp only [dropFrame, h, if_false]
    exact raiseBus_slots 2 { s with
      lastDropped := (f.payload.kind.code, f.dest)
      droppedFrames := satAdd 65535 s.droppedFrames 1 } v

theorem enqueue_slots (f : OutFrame) (s : State) (v : Vector (Option DistSlot) 4) :
    enqueue f { s with slots := v } = { enqueue f s with slots := v } := by
  have hq : ∀ q, State.queue { s with slots := v } q = s.queue q := by intro q; cases q <;> rfl
  have hs : ∀ q l, State.setQueue { s with slots := v } q l = { s.setQueue q l with slots := v } := by
    intro q l; cases q <;> rfl
  simp only [enqueue, hq, hs, dropFrame_slots]
  split_ifs <;> rfl

theorem deliver_slots (f : OutFrame) (s : State) (v : Vector (Option DistSlot) 4) :
    deliver f { s with slots := v } = { deliver f s with slots := v } := by
  have hh : State.held { s with slots := v } = s.held := rfl
  simp only [deliver, hh, enqueue_slots]
  split_ifs <;> rfl

@[simp] theorem raise_keeps_slots (k : NoticeKind) (n : Nat) (d : List Byte) (s : State) : (raise k n d s).slots = s.slots := by
  rw [raise_eq]

@[simp] theorem deliver_keeps_slots (f : OutFrame) (s : State) : (deliver f s).slots = s.slots := by
  have := congrArg State.slots (deliver_slots f s s.slots)
  exact this

/-! ### campaigns -/

theorem raise_campaigns (k : NoticeKind) (n : Nat) (d : List Byte) (s : State) (v : Vector (Option Campaign) 4) :
    raise k n d { s with campaigns := v } = { raise k n d s with campaigns := v } := by
  cases s
  simp only [raise, putNotice, State.enabled, State.ordinaryCount]
  split_ifs <;> rfl

theorem raiseBus_campaigns (c : Nat) (s : State) (v : Vector (Option Campaign) 4) :
    raiseBus c { s with campaigns := v } = { raiseBus c s with campaigns := v } := raise_campaigns _ _ _ s v

theorem dropFrame_campaigns (f : OutFrame) (s : State) (v : Vector (Option Campaign) 4) :
    dropFrame f { s with campaigns := v } = { dropFrame f s with campaigns := v } := by
  by_cases h : f.payload.kind = .lookupAnswer
  · simp only [dropFrame, h, if_true]
  · simp only [dropFrame, h, if_false]
    exact raiseBus_campaigns 2 { s with
      lastDropped := (f.payload.kind.code, f.dest)
      droppedFrames := satAdd 65535 s.droppedFrames 1 } v

theorem enqueue_campaigns (f : OutFrame) (s : State) (v : Vector (Option Campaign) 4) :
    enqueue f { s with campaigns := v } = { enqueue f s with campaigns := v } := by
  have hq : ∀ q, State.queue { s with campaigns := v } q = s.queue q := by intro q; cases q <;> rfl
  have hs : ∀ q l, State.setQueue { s with campaigns := v } q l = { s.setQueue q l with campaigns := v } := by
    intro q l; cases q <;> rfl
  simp only [enqueue, hq, hs, dropFrame_campaigns]
  split_ifs <;> rfl

theorem deliver_campaigns (f : OutFrame) (s : State) (v : Vector (Option Campaign) 4) :
    deliver f { s with campaigns := v } = { deliver f s with campaigns := v } := by
  have hh : State.held { s with campaigns := v } = s.held := rfl
  simp only [deliver, hh, enqueue_campaigns]
  split_ifs <;> rfl

@[simp] theorem raise_keeps_campaigns (k : NoticeKind) (n : Nat) (d : List Byte) (s : State) : (raise k n d s).campaigns = s.campaigns := by
  rw [raise_eq]

@[simp] theorem deliver_keeps_campaigns (f : OutFrame) (s : State) : (deliver f s).campaigns = s.campaigns := by
  have := congrArg State.campaigns (deliver_campaigns f s s.campaigns)
  exact this

/-! ### channels -/

theorem raise_channels (k : NoticeKind) (n : Nat) (d : List Byte) (s : State) (v : Vector (Option Binding) 2) :
    raise k n d { s with channels := v } = { raise k n d s with channels := v } := by
  cases s
  simp only [raise, putNotice, State.enabled, State.ordinaryCount]
  split_ifs <;> rfl

theorem raiseBus_channels (c : Nat) (s : State) (v : Vector (Option Binding) 2) :
    raiseBus c { s with channels := v } = { raiseBus c s with channels := v } := raise_channels _ _ _ s v

theorem dropFrame_channels (f : OutFrame) (s : State) (v : Vector (Option Binding) 2) :
    dropFrame f { s with channels := v } = { dropFrame f s with channels := v } := by
  by_cases h : f.payload.kind = .lookupAnswer
  · simp only [dropFrame, h, if_true]
  · simp only [dropFrame, h, if_false]
    exact raiseBus_channels 2 { s with
      lastDropped := (f.payload.kind.code, f.dest)
      droppedFrames := satAdd 65535 s.droppedFrames 1 } v

theorem enqueue_channels (f : OutFrame) (s : State) (v : Vector (Option Binding) 2) :
    enqueue f { s with channels := v } = { enqueue f s with channels := v } := by
  have hq : ∀ q, State.queue { s with channels := v } q = s.queue q := by intro q; cases q <;> rfl
  have hs : ∀ q l, State.setQueue { s with channels := v } q l = { s.setQueue q l with channels := v } := by
    intro q l; cases q <;> rfl
  simp only [enqueue, hq, hs, dropFrame_channels]
  split_ifs <;> rfl

theorem deliver_channels (f : OutFrame) (s : State) (v : Vector (Option Binding) 2) :
    deliver f { s with channels := v } = { deliver f s with channels := v } := by
  have hh : State.held { s with channels := v } = s.held := rfl
  simp only [deliver, hh, enqueue_channels]
  split_ifs <;> rfl

@[simp] theorem raise_keeps_channels (k : NoticeKind) (n : Nat) (d : List Byte) (s : State) : (raise k n d s).channels = s.channels := by
  rw [raise_eq]

@[simp] theorem deliver_keeps_channels (f : OutFrame) (s : State) : (deliver f s).channels = s.channels := by
  have := congrArg State.channels (deliver_channels f s s.channels)
  exact this

/-! ### recipes -/

theorem raise_recipes (k : NoticeKind) (n : Nat) (d : List Byte) (s : State) (v : List Recipe) :
    raise k n d { s with recipes := v } = { raise k n d s with recipes := v } := by
  cases s
  simp only [raise, putNotice, State.enabled, State.ordinaryCount]
  split_ifs <;> rfl

theorem raiseBus_recipes (c : Nat) (s : State) (v : List Recipe) :
    raiseBus c { s with recipes := v } = { raiseBus c s with recipes := v } := raise_recipes _ _ _ s v

theorem dropFrame_recipes (f : OutFrame) (s : State) (v : List Recipe) :
    dropFrame f { s with recipes := v } = { dropFrame f s with recipes := v } := by
  by_cases h : f.payload.kind = .lookupAnswer
  · simp only [dropFrame, h, if_true]
  · simp only [dropFrame, h, if_false]
    exact raiseBus_recipes 2 { s with
      lastDropped := (f.payload.kind.code, f.dest)
      droppedFrames := satAdd 65535 s.droppedFrames 1 } v

theorem enqueue_recipes (f : OutFrame) (s : State) (v : List Recipe) :
    enqueue f { s with recipes := v } = { enqueue f s with recipes := v } := by
  have hq : ∀ q, State.queue { s with recipes := v } q = s.queue q := by intro q; cases q <;> rfl
  have hs : ∀ q l, State.setQueue { s with recipes := v } q l = { s.setQueue q l with recipes := v } := by
    intro q l; cases q <;> rfl
  simp only [enqueue, hq, hs, dropFrame_recipes]
  split_ifs <;> rfl

theorem deliver_recipes (f : OutFrame) (s : State) (v : List Recipe) :
    deliver f { s with recipes := v } = { deliver f s with recipes := v } := by
  have hh : State.held { s with recipes := v } = s.held := rfl
  simp only [deliver, hh, enqueue_recipes]
  split_ifs <;> rfl

@[simp] theorem raise_keeps_recipes (k : NoticeKind) (n : Nat) (d : List Byte) (s : State) : (raise k n d s).recipes = s.recipes := by
  rw [raise_eq]

@[simp] theorem deliver_keeps_recipes (f : OutFrame) (s : State) : (deliver f s).recipes = s.recipes := by
  have := congrArg State.recipes (deliver_recipes f s s.recipes)
  exact this

/-! ### tickets -/

theorem raise_tickets (k : NoticeKind) (n : Nat) (d : List Byte) (s : State) (v : List Ticket) :
    raise k n d { s with tickets := v } = { raise k n d s with tickets := v } := by
  cases s
  simp only [raise, putNotice, State.enabled, State.ordinaryCount]
  split_ifs <;> rfl

theorem raiseBus_tickets (c : Nat) (s : State) (v : List Ticket) :
    raiseBus c { s with tickets := v } = { raiseBus c s with tickets := v } := raise_tickets _ _ _ s v

theorem dropFrame_tickets (f : OutFrame) (s : State) (v : List Ticket) :
    dropFrame f { s with tickets := v } = { dropFrame f s with tickets := v } := by
  by_cases h : f.payload.kind = .lookupAnswer
  · simp only [dropFrame, h, if_true]
  · simp only [dropFrame, h, if_false]
    exact raiseBus_tickets 2 { s with
      lastDropped := (f.payload.kind.code, f.dest)
      droppedFrames := satAdd 65535 s.droppedFrames 1 } v

theorem enqueue_tickets (f : OutFrame) (s : State) (v : List Ticket) :
    enqueue f { s with tickets := v } = { enqueue f s with tickets := v } := by
  have hq : ∀ q, State.queue { s with tickets := v } q = s.queue q := by intro q; cases q <;> rfl
  have hs : ∀ q l, State.setQueue { s with tickets := v } q l = { s.setQueue q l with tickets := v } := by
    intro q l; cases q <;> rfl
  simp only [enqueue, hq, hs, dropFrame_tickets]
  split_ifs <;> rfl

theorem deliver_tickets (f : OutFrame) (s : State) (v : List Ticket) :
    deliver f { s with tickets := v } = { deliver f s with tickets := v } := by
  have hh : State.held { s with tickets := v } = s.held := rfl
  simp only [deliver, hh, enqueue_tickets]
  split_ifs <;> rfl

@[simp] theorem raise_keeps_tickets (k : NoticeKind) (n : Nat) (d : List Byte) (s : State) : (raise k n d s).tickets = s.tickets := by
  rw [raise_eq]

@[simp] theorem deliver_keeps_tickets (f : OutFrame) (s : State) : (deliver f s).tickets = s.tickets := by
  have := congrArg State.tickets (deliver_tickets f s s.tickets)
  exact this

/-! ### routes -/

theorem raise_routes (k : NoticeKind) (n : Nat) (d : List Byte) (s : State) (v : Vector Route 32) :
    raise k n d { s with routes := v } = { raise k n d s with routes := v } := by
  cases s
  simp only [raise, putNotice, State.enabled, State.ordinaryCount]
  split_ifs <;> rfl

theorem raiseBus_routes (c : Nat) (s : State) (v : Vector Route 32) :
    raiseBus c { s with routes := v } = { raiseBus c s with routes := v } := raise_routes _ _ _ s v

theorem dropFrame_routes (f : OutFrame) (s : State) (v : Vector Route 32) :
    dropFrame f { s with routes := v } = { dropFrame f s with routes := v } := by
  by_cases h : f.payload.kind = .lookupAnswer
  · simp only [dropFrame, h, if_true]
  · simp only [dropFrame, h, if_false]
    exact raiseBus_routes 2 { s with
      lastDropped := (f.payload.kind.code, f.dest)
      droppedFrames := satAdd 65535 s.droppedFrames 1 } v

theorem enqueue_routes (f : OutFrame) (s : State) (v : Vector Route 32) :
    enqueue f { s with routes := v } = { enqueue f s with routes := v } := by
  have hq : ∀ q, State.queue { s with routes := v } q = s.queue q := by intro q; cases q <;> rfl
  have hs : ∀ q l, State.setQueue { s with routes := v } q l = { s.setQueue q l with routes := v } := by
    intro q l; cases q <;> rfl
  simp only [enqueue, hq, hs, dropFrame_routes]
  split_ifs <;> rfl

theorem deliver_routes (f : OutFrame) (s : State) (v : Vector Route 32) :
    deliver f { s with routes := v } = { deliver f s with routes := v } := by
  have hh : State.held { s with routes := v } = s.held := rfl
  simp only [deliver, hh, enqueue_routes]
  split_ifs <;> rfl

@[simp] theorem raise_keeps_routes (k : NoticeKind) (n : Nat) (d : List Byte) (s : State) : (raise k n d s).routes = s.routes := by
  rw [raise_eq]

@[simp] theorem deliver_keeps_routes (f : OutFrame) (s : State) : (deliver f s).routes = s.routes := by
  have := congrArg State.routes (deliver_routes f s s.routes)
  exact this

/-! ### permitCounter -/

theorem raise_permitCounter (k : NoticeKind) (n : Nat) (d : List Byte) (s : State) (v : Nat) :
    raise k n d { s with permitCounter := v } = { raise k n d s with permitCounter := v } := by
  cases s
  simp only [raise, putNotice, State.enabled, State.ordinaryCount]
  split_ifs <;> rfl

theorem raiseBus_permitCounter (c : Nat) (s : State) (v : Nat) :
    raiseBus c { s with permitCounter := v } = { raiseBus c s with permitCounter := v } := raise_permitCounter _ _ _ s v

theorem dropFrame_permitCounter (f : OutFrame) (s : State) (v : Nat) :
    dropFrame f { s with permitCounter := v } = { dropFrame f s with permitCounter := v } := by
  by_cases h : f.payload.kind = .lookupAnswer
  · simp only [dropFrame, h, if_true]
  · simp only [dropFrame, h, if_false]
    exact raiseBus_permitCounter 2 { s with
      lastDropped := (f.payload.kind.code, f.dest)
      droppedFrames := satAdd 65535 s.droppedFrames 1 } v

theorem enqueue_permitCounter (f : OutFrame) (s : State) (v : Nat) :
    enqueue f { s with permitCounter := v } = { enqueue f s with permitCounter := v } := by
  have hq : ∀ q, State.queue { s with permitCounter := v } q = s.queue q := by intro q; cases q <;> rfl
  have hs : ∀ q l, State.setQueue { s with permitCounter := v } q l = { s.setQueue q l with permitCounter := v } := by
    intro q l; cases q <;> rfl
  simp only [enqueue, hq, hs, dropFrame_permitCounter]
  split_ifs <;> rfl

theorem deliver_permitCounter (f : OutFrame) (s : State) (v : Nat) :
    deliver f { s with permitCounter := v } = { deliver f s with permitCounter := v } := by
  have hh : State.held { s with permitCounter := v } = s.held := rfl
  simp only [deliver, hh, enqueue_permitCounter]
  split_ifs <;> rfl

@[simp] theorem raise_keeps_permitCounter (k : NoticeKind) (n : Nat) (d : List Byte) (s : State) : (raise k n d s).permitCounter = s.permitCounter := by
  rw [raise_eq]

@[simp] theorem deliver_keeps_permitCounter (f : OutFrame) (s : State) : (deliver f s).permitCounter = s.permitCounter := by
  have := congrArg State.permitCounter (deliver_permitCounter f s s.permitCounter)
  exact this

/-! ### ticketCounter -/

theorem raise_ticketCounter (k : NoticeKind) (n : Nat) (d : List Byte) (s : State) (v : Nat) :
    raise k n d { s with ticketCounter := v } = { raise k n d s with ticketCounter := v } := by
  cases s
  simp only [raise, putNotice, State.enabled, State.ordinaryCount]
  split_ifs <;> rfl

theorem raiseBus_ticketCounter (c : Nat) (s : State) (v : Nat) :
    raiseBus c { s with ticketCounter := v } = { raiseBus c s with ticketCounter := v } := raise_ticketCounter _ _ _ s v

theorem dropFrame_ticketCounter (f : OutFrame) (s : State) (v : Nat) :
    dropFrame f { s with ticketCounter := v } = { dropFrame f s with ticketCounter := v } := by
  by_cases h : f.payload.kind = .lookupAnswer
  · simp only [dropFrame, h, if_true]
  · simp only [dropFrame, h, if_false]
    exact raiseBus_ticketCounter 2 { s with
      lastDropped := (f.payload.kind.code, f.dest)
      droppedFrames := satAdd 65535 s.droppedFrames 1 } v

theorem enqueue_ticketCounter (f : OutFrame) (s : State) (v : Nat) :
    enqueue f { s with ticketCounter := v } = { enqueue f s with ticketCounter := v } := by
  have hq : ∀ q, State.queue { s with ticketCounter := v } q = s.queue q := by intro q; cases q <;> rfl
  have hs : ∀ q l, State.setQueue { s with ticketCounter := v } q l = { s.setQueue q l with ticketCounter := v } := by
    intro q l; cases q <;> rfl
  simp only [enqueue, hq, hs, dropFrame_ticketCounter]
  split_ifs <;> rfl

theorem deliver_ticketCounter (f : OutFrame) (s : State) (v : Nat) :
    deliver f { s with ticketCounter := v } = { deliver f s with ticketCounter := v } := by
  have hh : State.held { s with ticketCounter := v } = s.held := rfl
  simp only [deliver, hh, enqueue_ticketCounter]
  split_ifs <;> rfl

@[simp] theorem raise_keeps_ticketCounter (k : NoticeKind) (n : Nat) (d : List Byte) (s : State) : (raise k n d s).ticketCounter = s.ticketCounter := by
  rw [raise_eq]

@[simp] theorem deliver_keeps_ticketCounter (f : OutFrame) (s : State) : (deliver f s).ticketCounter = s.ticketCounter := by
  have := congrArg State.ticketCounter (deliver_ticketCounter f s s.ticketCounter)
  exact this

/-! ### pointer -/

theorem raise_pointer (k : NoticeKind) (n : Nat) (d : List Byte) (s : State) (v : Nat) :
    raise k n d { s with pointer := v } = { raise k n d s with pointer := v } := by
  cases s
  simp only [raise, putNotice, State.enabled, State.ordinaryCount]
  split_ifs <;> rfl

theorem raiseBus_pointer (c : Nat) (s : State) (v : Nat) :
    raiseBus c { s with pointer := v } = { raiseBus c s with pointer := v } := raise_pointer _ _ _ s v

theorem dropFrame_pointer (f : OutFrame) (s : State) (v : Nat) :
    dropFrame f { s with pointer := v } = { dropFrame f s with pointer := v } := by
  by_cases h : f.payload.kind = .lookupAnswer
  · simp only [dropFrame, h, if_true]
  · simp only [dropFrame, h, if_false]
    exact raiseBus_pointer 2 { s with
      lastDropped := (f.payload.kind.code, f.dest)
      droppedFrames := satAdd 65535 s.droppedFrames 1 } v

theorem enqueue_pointer (f : OutFrame) (s : State) (v : Nat) :
    enqueue f { s with pointer := v } = { enqueue f s with pointer := v } := by
  have hq : ∀ q, State.queue { s with pointer := v } q = s.queue q := by intro q; cases q <;> rfl
  have hs : ∀ q l, State.setQueue { s with pointer := v } q l = { s.setQueue q l with pointer := v } := by
    intro q l; cases q <;> rfl
  simp only [enqueue, hq, hs, dropFrame_pointer]
  split_ifs <;> rfl

theorem deliver_pointer (f : OutFrame) (s : State) (v : Nat) :
    deliver f { s with pointer := v } = { deliver f s with pointer := v } := by
  have hh : State.held { s with pointer := v } = s.held := rfl
  simp only [deliver, hh, enqueue_pointer]
  split_ifs <;> rfl

@[simp] theorem raise_keeps_pointer (k : NoticeKind) (n : Nat) (d : List Byte) (s : State) : (raise k n d s).pointer = s.pointer := by
  rw [raise_eq]

@[simp] theorem deliver_keeps_pointer (f : OutFrame) (s : State) : (deliver f s).pointer = s.pointer := by
  have := congrArg State.pointer (deliver_pointer f s s.pointer)
  exact this

/-! ### draws -/

theorem raise_draws (k : NoticeKind) (n : Nat) (d : List Byte) (s : State) (v : Nat) :
    raise k n d { s with draws := v } = { raise k n d s with draws := v } := by
  cases s
  simp only [raise, putNotice, State.enabled, State.ordinaryCount]
  split_ifs <;> rfl

theorem raiseBus_draws (c : Nat) (s : State) (v : Nat) :
    raiseBus c { s with draws := v } = { raiseBus c s with draws := v } := raise_draws _ _ _ s v

theorem dropFrame_draws (f : OutFrame) (s : State) (v : Nat) :
    dropFrame f { s with draws := v } = { dropFrame f s with draws := v } := by
  by_cases h : f.payload.kind = .lookupAnswer
  · simp only [dropFrame, h, if_true]
  · simp only [dropFrame, h, if_false]
    exact raiseBus_draws 2 { s with
      lastDropped := (f.payload.kind.code, f.dest)
      droppedFrames := satAdd 65535 s.droppedFrames 1 } v

theorem enqueue_draws (f : OutFrame) (s : State) (v : Nat) :
    enqueue f { s with draws := v } = { enqueue f s with draws := v } := by
  have hq : ∀ q, State.queue { s with draws := v } q = s.queue q := by intro q; cases q <;> rfl
  have hs : ∀ q l, State.setQueue { s with draws := v } q l = { s.setQueue q l with draws := v } := by
    intro q l; cases q <;> rfl
  simp only [enqueue, hq, hs, dropFrame_draws]
  split_ifs <;> rfl

theorem deliver_draws (f : OutFrame) (s : State) (v : Nat) :
    deliver f { s with draws := v } = { deliver f s with draws := v } := by
  have hh : State.held { s with draws := v } = s.held := rfl
  simp only [deliver, hh, enqueue_draws]
  split_ifs <;> rfl

@[simp] theorem raise_keeps_draws (k : NoticeKind) (n : Nat) (d : List Byte) (s : State) : (raise k n d s).draws = s.draws := by
  rw [raise_eq]

@[simp] theorem deliver_keeps_draws (f : OutFrame) (s : State) : (deliver f s).draws = s.draws := by
  have := congrArg State.draws (deliver_draws f s s.draws)
  exact this

/-! ### barred -/

theorem raise_barred (k : NoticeKind) (n : Nat) (d : List Byte) (s : State) (v : List Nat) :
    raise k n d { s with barred := v } = { raise k n d s with barred := v } := by
  cases s
  simp only [raise, putNotice, State.enabled, State.ordinaryCount]
  split_ifs <;> rfl

theorem raiseBus_barred (c : Nat) (s : State) (v : List Nat) :
    raiseBus c { s with barred := v } = { raiseBus c s with barred := v } := raise_barred _ _ _ s v

theorem dropFrame_barred (f : OutFrame) (s : State) (v : List Nat) :
    dropFrame f { s with barred := v } = { dropFrame f s with barred := v } := by
  by_cases h : f.payload.kind = .lookupAnswer
  · simp only [dropFrame, h, if_true]
  · simp only [dropFrame, h, if_false]
    exact raiseBus_barred 2 { s with
      lastDropped := (f.payload.kind.code, f.dest)
      droppedFrames := satAdd 65535 s.droppedFrames 1 } v

theorem enqueue_barred (f : OutFrame) (s : State) (v : List Nat) :
    enqueue f { s with barred := v } = { enqueue f s with barred := v } := by
  have hq : ∀ q, State.queue { s with barred := v } q = s.queue q := by intro q; cases q <;> rfl
  have hs : ∀ q l, State.setQueue { s with barred := v } q l = { s.setQueue q l with barred := v } := by
    intro q l; cases q <;> rfl
  simp only [enqueue, hq, hs, dropFrame_barred]
  split_ifs <;> rfl

theorem deliver_barred (f : OutFrame) (s : State) (v : List Nat) :
    deliver f { s with barred := v } = { deliver f s with barred := v } := by
  have hh : State.held { s with barred := v } = s.held := rfl
  simp only [deliver, hh, enqueue_barred]
  split_ifs <;> rfl

@[simp] theorem raise_keeps_barred (k : NoticeKind) (n : Nat) (d : List Byte) (s : State) : (raise k n d s).barred = s.barred := by
  rw [raise_eq]

@[simp] theorem deliver_keeps_barred (f : OutFrame) (s : State) : (deliver f s).barred = s.barred := by
  have := congrArg State.barred (deliver_barred f s s.barred)
  exact this

/-! ### inbound -/

theorem raise_inbound (k : NoticeKind) (n : Nat) (d : List Byte) (s : State) (v : List InFrame) :
    raise k n d { s with inbound := v } = { raise k n d s with inbound := v } := by
  cases s
  simp only [raise, putNotice, State.enabled, State.ordinaryCount]
  split_ifs <;> rfl

theorem raiseBus_inbound (c : Nat) (s : State) (v : List InFrame) :
    raiseBus c { s with inbound := v } = { raiseBus c s with inbound := v } := raise_inbound _ _ _ s v

theorem dropFrame_inbound (f : OutFrame) (s : State) (v : List InFrame) :
    dropFrame f { s with inbound := v } = { dropFrame f s with inbound := v } := by
  by_cases h : f.payload.kind = .lookupAnswer
  · simp only [dropFrame, h, if_true]
  · simp only [dropFrame, h, if_false]
    exact raiseBus_inbound 2 { s with
      lastDropped := (f.payload.kind.code, f.dest)
      droppedFrames := satAdd 65535 s.droppedFrames 1 } v

theorem enqueue_inbound (f : OutFrame) (s : State) (v : List InFrame) :
    enqueue f { s with inbound := v } = { enqueue f s with inbound := v } := by
  have hq : ∀ q, State.queue { s with inbound := v } q = s.queue q := by intro q; cases q <;> rfl
  have hs : ∀ q l, State.setQueue { s with inbound := v } q l = { s.setQueue q l with inbound := v } := by
    intro q l; cases q <;> rfl
  simp only [enqueue, hq, hs, dropFrame_inbound]
  split_ifs <;> rfl

theorem deliver_inbound (f : OutFrame) (s : State) (v : List InFrame) :
    deliver f { s with inbound := v } = { deliver f s with inbound := v } := by
  have hh : State.held { s with inbound := v } = s.held := rfl
  simp only [deliver, hh, enqueue_inbound]
  split_ifs <;> rfl

@[simp] theorem raise_keeps_inbound (k : NoticeKind) (n : Nat) (d : List Byte) (s : State) : (raise k n d s).inbound = s.inbound := by
  rw [raise_eq]

@[simp] theorem deliver_keeps_inbound (f : OutFrame) (s : State) : (deliver f s).inbound = s.inbound := by
  have := congrArg State.inbound (deliver_inbound f s s.inbound)
  exact this

/-! ### port -/

theorem raise_port (k : NoticeKind) (n : Nat) (d : List Byte) (s : State) (v : Port) :
    raise k n d { s with port := v } = { raise k n d s with port := v } := by
  cases s
  simp only [raise, putNotice, State.enabled, State.ordinaryCount]
  split_ifs <;> rfl

theorem raiseBus_port (c : Nat) (s : State) (v : Port) :
    raiseBus c { s with port := v } = { raiseBus c s with port := v } := raise_port _ _ _ s v

theorem dropFrame_port (f : OutFrame) (s : State) (v : Port) :
    dropFrame f { s with port := v } = { dropFrame f s with port := v } := by
  by_cases h : f.payload.kind = .lookupAnswer
  · simp only [dropFrame, h, if_true]
  · simp only [dropFrame, h, if_false]
    exact raiseBus_port 2 { s with
      lastDropped := (f.payload.kind.code, f.dest)
      droppedFrames := satAdd 65535 s.droppedFrames 1 } v

theorem enqueue_port (f : OutFrame) (s : State) (v : Port) :
    enqueue f { s with port := v } = { enqueue f s with port := v } := by
  have hq : ∀ q, State.queue { s with port := v } q = s.queue q := by intro q; cases q <;> rfl
  have hs : ∀ q l, State.setQueue { s with port := v } q l = { s.setQueue q l with port := v } := by
    intro q l; cases q <;> rfl
  simp only [enqueue, hq, hs, dropFrame_port]
  split_ifs <;> rfl

theorem deliver_port (f : OutFrame) (s : State) (v : Port) :
    deliver f { s with port := v } = { deliver f s with port := v } := by
  have hh : State.held { s with port := v } = s.held := rfl
  simp only [deliver, hh, enqueue_port]
  split_ifs <;> rfl

@[simp] theorem raise_keeps_port (k : NoticeKind) (n : Nat) (d : List Byte) (s : State) : (raise k n d s).port = s.port := by
  rw [raise_eq]

@[simp] theorem deliver_keeps_port (f : OutFrame) (s : State) : (deliver f s).port = s.port := by
  have := congrArg State.port (deliver_port f s s.port)
  exact this

/-! ### The records by number -/

variable (s : State) (f : OutFrame)

theorem deliver_setOven (n : Nat) (o : Oven) : deliver f (s.setOven n o) = (deliver f s).setOven n o := by
  simp only [State.setOven, deliver_ovens, deliver_keeps_ovens]

theorem deliver_setLoaded (n : Nat) (l : List Entry) : deliver f (s.setLoaded n l) = (deliver f s).setLoaded n l := by
  simp only [State.setLoaded, deliver_loaded, deliver_keeps_loaded]

theorem deliver_setPermit (n : Nat) (p : Option Permit) : deliver f (s.setPermit n p) = (deliver f s).setPermit n p := by
  simp only [State.setPermit, deliver_permits, deliver_keeps_permits]

theorem raise_setOven (k : NoticeKind) (i : Nat) (d : List Byte) (n : Nat) (o : Oven) :
    raise k i d (s.setOven n o) = (raise k i d s).setOven n o := by
  simp only [State.setOven, raise_ovens, raise_keeps_ovens]

/-- What a placed frame leaves of the records. -/
@[simp] theorem deliver_oven (n : Nat) : (deliver f s).oven n = s.oven n := by simp only [State.oven, deliver_keeps_ovens]
@[simp] theorem raise_oven (k : NoticeKind) (i : Nat) (d : List Byte) (n : Nat) : (raise k i d s).oven n = s.oven n := by
  simp only [State.oven, raise_keeps_ovens]

theorem deliver_still : Still s (deliver f s) := by
  unfold deliver
  split
  · exact enqueue_still f s
  · exact {}

theorem deliver_settled : (deliver f s).Settled := by
  unfold deliver
  split
  · rename_i hh
    intro k
    have e := enqueue_still f s
    have b := enqueue_transmitter f s
    have : s.held = false := by simpa [State.held, e.busOff, b] using k
    simp [this] at hh
  · exact settled_of_transmitter rfl

end Sys2Proof.Machine
end

