-- ==== Sys2Proof/Laws/PerInstr.lean ====
section
/-! SUPPORT. One lemma for each row of the table: a row is a request of the site processor exactly when the request table of
section 10.3 gives it a kind byte, and that byte is below 128; and no row is a request and a reset. -/

namespace Sys2Proof.Laws.RowOf

set_option Elab.async false

open Sys2Proof.Machine

/-- Section 10.3: the row's place among the requests. -/
def Statement (i : Instr) : Prop :=
  (isRequest i = true ↔ ∃ kind body, requestParts i = some (kind, body) ∧ kind < 128) ∧
    ¬ (isRequest i = true ∧ isReset i = true)

theorem of_request {i : Instr} {kind : Nat} {body : List Byte} (h : isRequest i = true) (p : requestParts i = some (kind, body))
    (k : kind < 128) (r : isReset i = false) : Statement i :=
  ⟨⟨fun _ => ⟨kind, body, p, k⟩, fun _ => h⟩, fun x => by simp [r] at x⟩

theorem of_other {i : Instr} (h : isRequest i = false) (p : requestParts i = none) : Statement i :=
  ⟨⟨fun x => by simp [h] at x, fun ⟨_, _, q, _⟩ => by simp [p] at q⟩, fun x => by simp [h] at x⟩

theorem frameReceive (frame : InFrame) : Statement (.frameReceive frame) := of_other rfl rfl
theorem frameDiscard : Statement .frameDiscard := of_other rfl rfl
theorem claim : Statement .claim := of_other rfl rfl
theorem rejoin : Statement .rejoin := of_other rfl rfl
theorem assignAck : Statement .assignAck := of_other rfl rfl
theorem capability : Statement .capability := of_other rfl rfl
theorem status : Statement .status := of_other rfl rfl
theorem testReport : Statement .testReport := of_other rfl rfl
theorem lookup : Statement .lookup := of_other rfl rfl
theorem pull : Statement .pull := of_other rfl rfl
theorem have_ : Statement .have_ := of_other rfl rfl
theorem decline : Statement .decline := of_other rfl rfl
theorem loadDone : Statement .loadDone := of_other rfl rfl
theorem unloadDone : Statement .unloadDone := of_other rfl rfl
theorem startRequest : Statement .startRequest := of_other rfl rfl
theorem stageSummary : Statement .stageSummary := of_other rfl rfl
theorem cookEnd : Statement .cookEnd := of_other rfl rfl
theorem cleanStart : Statement .cleanStart := of_other rfl rfl
theorem cleanPhase : Statement .cleanPhase := of_other rfl rfl
theorem cleanEnd : Statement .cleanEnd := of_other rfl rfl
theorem fault : Statement .fault := of_other rfl rfl
theorem imageReady : Statement .imageReady := of_other rfl rfl
theorem imageRefuse : Statement .imageRefuse := of_other rfl rfl
theorem imageAck : Statement .imageAck := of_other rfl rfl
theorem imageCheck : Statement .imageCheck := of_other rfl rfl
theorem frameSent : Statement .frameSent := of_other rfl rfl
theorem arbitrationLost : Statement .arbitrationLost := of_other rfl rfl
theorem transmitError (noAcknowledge : Bool) : Statement (.transmitError noAcknowledge) := of_other rfl rfl
theorem receiveError (dominantAfterFlag : Bool) : Statement (.receiveError dominantAfterFlag) := of_other rfl rfl
theorem busOffRecovery : Statement .busOffRecovery := of_other rfl rfl
theorem holdDeadlineExpiry (slot : Nat) : Statement (.holdDeadlineExpiry slot) := of_other rfl rfl
theorem assignReplyDeadline (slot : Nat) : Statement (.assignReplyDeadline slot) := of_other rfl rfl
theorem profileDeadline (slot : Nat) : Statement (.profileDeadline slot) := of_other rfl rfl
theorem testDeadline (slot : Nat) : Statement (.testDeadline slot) := of_other rfl rfl
theorem silenceDeadline (slot : Nat) : Statement (.silenceDeadline slot) := of_other rfl rfl
theorem gatheringDeadline (slot : Nat) : Statement (.gatheringDeadline slot) := of_other rfl rfl
theorem offerReplyDeadline (slot : Nat) : Statement (.offerReplyDeadline slot) := of_other rfl rfl
theorem progressDeadline (slot : Nat) : Statement (.progressDeadline slot) := of_other rfl rfl
theorem unloadDeadline (slot number version : Nat) : Statement (.unloadDeadline slot number version) := of_other rfl rfl
theorem permitDeadline (slot : Nat) : Statement (.permitDeadline slot) := of_other rfl rfl
theorem hygieneDeadline (slot : Nat) : Statement (.hygieneDeadline slot) := of_other rfl rfl
theorem advancePoint (slot : Nat) : Statement (.advancePoint slot) := of_other rfl rfl
theorem cleanDeadline (slot : Nat) : Statement (.cleanDeadline slot) := of_other rfl rfl
theorem escalationDeadline (ticket : Nat) : Statement (.escalationDeadline ticket) := of_other rfl rfl
theorem verificationDeadline (ticket : Nat) : Statement (.verificationDeadline ticket) := of_other rfl rfl
theorem entryHoldDeadline (campaign slot : Nat) : Statement (.entryHoldDeadline campaign slot) := of_other rfl rfl
theorem applyDeadline (campaign slot : Nat) : Statement (.applyDeadline campaign slot) := of_other rfl rfl
theorem acknowledgementTimeout (channel : Nat) : Statement (.acknowledgementTimeout channel) := of_other rfl rfl
theorem checkDeadline (channel : Nat) : Statement (.checkDeadline channel) := of_other rfl rfl
theorem windowStart (campaign : Nat) : Statement (.windowStart campaign) := of_other rfl rfl
theorem spiWrite (bytes : List Byte) : Statement (.spiWrite bytes) := of_other rfl rfl
theorem spiRead (count : Nat) : Statement (.spiRead count) := of_other rfl rfl
theorem voidTransaction (command count : Nat) : Statement (.voidTransaction command count) := of_other rfl rfl
theorem busLevels (urgent answer bulk image : Nat) : Statement (.busLevels urgent answer bulk image) :=
  of_request rfl rfl (by decide) rfl
theorem busStatus (clear : Bool) : Statement (.busStatus clear) := of_request rfl rfl (by decide) rfl
theorem ovenAdmit (slot group : Nat) : Statement (.ovenAdmit slot group) := of_request rfl rfl (by decide) rfl
theorem ovenCommission (slot : Nat) (cavity humidity : Int) (group : Nat) (thresholds : Thresholds) : Statement (.ovenCommission slot cavity humidity group thresholds) :=
  of_request rfl rfl (by decide) rfl
theorem ovenDismiss (slot : Nat) (bar : Bool) : Statement (.ovenDismiss slot bar) := of_request rfl rfl (by decide) rfl
theorem ovenRetire (slot : Nat) (bar : Bool) : Statement (.ovenRetire slot bar) := of_request rfl rfl (by decide) rfl
theorem ovenSet (slot : Nat) (group : Option Nat) (cavity humidity : Option Int) (thresholds : Thresholds) : Statement (.ovenSet slot group cavity humidity thresholds) :=
  of_request rfl rfl (by decide) rfl
theorem ovenLock (slot : Nat) : Statement (.ovenLock slot) := of_request rfl rfl (by decide) rfl
theorem ovenUnlock (slot : Nat) : Statement (.ovenUnlock slot) := of_request rfl rfl (by decide) rfl
theorem ovenRestore (slot serial : Nat) (record : RestoreRecord) : Statement (.ovenRestore slot serial record) :=
  of_request rfl rfl (by decide) rfl
theorem siteOpen : Statement .siteOpen := of_request rfl rfl (by decide) rfl
theorem ovenRead (slot : Nat) : Statement (.ovenRead slot) := of_request rfl rfl (by decide) rfl
theorem ovenList : Statement .ovenList := of_request rfl rfl (by decide) rfl
theorem bar (serial : Nat) : Statement (.bar serial) := of_request rfl rfl (by decide) rfl
theorem unbar (serial : Nat) : Statement (.unbar serial) := of_request rfl rfl (by decide) rfl
theorem barList : Statement .barList := of_request rfl rfl (by decide) rfl
theorem recipeDraft (number : Nat) (name : List Byte) (fat : Nat) (version : Option Nat) : Statement (.recipeDraft number name fat version) :=
  of_request rfl rfl (by decide) rfl
theorem recipeStep (number index : Nat) (step : RawStep) : Statement (.recipeStep number index step) :=
  of_request rfl rfl (by decide) rfl
theorem recipeTrim (number count : Nat) : Statement (.recipeTrim number count) := of_request rfl rfl (by decide) rfl
theorem recipeDiscardDraft (number : Nat) : Statement (.recipeDiscardDraft number) := of_request rfl rfl (by decide) rfl
theorem recipePublish (number : Nat) : Statement (.recipePublish number) := of_request rfl rfl (by decide) rfl
theorem recipeWithdraw (number : Nat) : Statement (.recipeWithdraw number) := of_request rfl rfl (by decide) rfl
theorem recipeGroups (number groups : Nat) : Statement (.recipeGroups number groups) := of_request rfl rfl (by decide) rfl
theorem recipeRead (number version : Nat) : Statement (.recipeRead number version) := of_request rfl rfl (by decide) rfl
theorem recipeList (number version : Nat) : Statement (.recipeList number version) := of_request rfl rfl (by decide) rfl
theorem recipeResend (slot number : Nat) : Statement (.recipeResend slot number) := of_request rfl rfl (by decide) rfl
theorem loadedSetRead (slot start : Nat) : Statement (.loadedSetRead slot start) := of_request rfl rfl (by decide) rfl
theorem distStatus : Statement .distStatus := of_request rfl rfl (by decide) rfl
theorem permitRevoke (slot : Nat) : Statement (.permitRevoke slot) := of_request rfl rfl (by decide) rfl
theorem permitRead (slot : Nat) : Statement (.permitRead slot) := of_request rfl rfl (by decide) rfl
theorem permitList : Statement .permitList := of_request rfl rfl (by decide) rfl
theorem cleanOrder (slot programme : Nat) : Statement (.cleanOrder slot programme) := of_request rfl rfl (by decide) rfl
theorem manualClean (slot : Nat) : Statement (.manualClean slot) := of_request rfl rfl (by decide) rfl
theorem classSet (cls : Nat) (args : ClassArgs) : Statement (.classSet cls args) := of_request rfl rfl (by decide) rfl
theorem classRead : Statement .classRead := of_request rfl rfl (by decide) rfl
theorem routePut (entry : Nat) (args : RouteArgs) : Statement (.routePut entry args) := of_request rfl rfl (by decide) rfl
theorem routeEnable (entry : Nat) : Statement (.routeEnable entry) := of_request rfl rfl (by decide) rfl
theorem routeDisable (entry : Nat) : Statement (.routeDisable entry) := of_request rfl rfl (by decide) rfl
theorem routeRead (clear : Bool) : Statement (.routeRead clear) := of_request rfl rfl (by decide) rfl
theorem ticketOpen (oven cls : Nat) (code : Option Nat) : Statement (.ticketOpen oven cls code) :=
  of_request rfl rfl (by decide) rfl
theorem ticketAck (ticket : Nat) (reference : Option (List Byte)) : Statement (.ticketAck ticket reference) :=
  of_request rfl rfl (by decide) rfl
theorem ticketResolve (ticket : Nat) : Statement (.ticketResolve ticket) := of_request rfl rfl (by decide) rfl
theorem ticketClose (ticket : Nat) : Statement (.ticketClose ticket) := of_request rfl rfl (by decide) rfl
theorem ticketRead (ticket : Nat) : Statement (.ticketRead ticket) := of_request rfl rfl (by decide) rfl
theorem ticketList (start : Nat) (oven : Option Nat) : Statement (.ticketList start oven) := of_request rfl rfl (by decide) rfl
theorem campaignPut (slot : Nat) (args : CampaignArgs) : Statement (.campaignPut slot args) :=
  of_request rfl rfl (by decide) rfl
theorem campaignStart (slot : Nat) : Statement (.campaignStart slot) := of_request rfl rfl (by decide) rfl
theorem campaignPause (slot : Nat) : Statement (.campaignPause slot) := of_request rfl rfl (by decide) rfl
theorem campaignResume (slot : Nat) : Statement (.campaignResume slot) := of_request rfl rfl (by decide) rfl
theorem campaignCancel (slot : Nat) : Statement (.campaignCancel slot) := of_request rfl rfl (by decide) rfl
theorem campaignClear (slot : Nat) : Statement (.campaignClear slot) := of_request rfl rfl (by decide) rfl
theorem campaignRead (slot : Nat) : Statement (.campaignRead slot) := of_request rfl rfl (by decide) rfl
theorem imageBlock (channel offset : Nat) (bytes : List Byte) : Statement (.imageBlock channel offset bytes) :=
  of_request rfl rfl (by decide) rfl
theorem relayStatus : Statement .relayStatus := of_request rfl rfl (by decide) rfl
theorem clockSet (value : Nat) : Statement (.clockSet value) := of_request rfl rfl (by decide) rfl
theorem clockRead : Statement .clockRead := of_request rfl rfl (by decide) rfl
theorem noticeRead : Statement .noticeRead := of_request rfl rfl (by decide) rfl
theorem noticeEnable (kinds : Nat) : Statement (.noticeEnable kinds) := of_request rfl rfl (by decide) rfl
theorem coldStart (brsel : Bool) : Statement (.coldStart brsel) := of_other rfl rfl
theorem warmReset (cause : ResetCause) : Statement (.warmReset cause) := of_other rfl rfl
theorem warmResetEnd (brsel : Bool) : Statement (.warmResetEnd brsel) := of_other rfl rfl
theorem retentionDomainLoss : Statement .retentionDomainLoss := of_other rfl rfl
theorem filteredFrame : Statement .filteredFrame := of_other rfl rfl

end Sys2Proof.Laws.RowOf
end

