-- ==== Sys2Proof/Laws/Reading.lean ====
section
/-! SUPPORT. What each reader makes of the bytes that its encoder wrote: the value, and the bytes after it. -/

namespace Sys2Proof.Machine

set_option Elab.async false

theorem le_length (k n : Nat) : (le k n).length = k := by
  induction k generalizing n with
  | zero => rfl
  | succ k ih => simp [le, ih]

/-- Little-endian bytes hold their number. -/
theorem unle_le (k n : Nat) (h : FitsBytes k n) : unle (le k n) = n := by
  induction k generalizing n with
  | zero => simp [FitsBytes] at h; simp [le, unle, h]
  | succ k ih =>
    have : n / 256 < 256 ^ k := by
      rw [Nat.div_lt_iff_lt_mul (by decide)]
      simpa [FitsBytes, pow_succ] using h
    simp only [le, unle, ih _ this, BitVec.toNat_ofNat]
    have := Nat.mod_add_div n 256
    simpa using this

theorem bind_reader {α β : Type} (r : Reader α) (f : α → Reader β) (l m : List Byte) (x : α) (h : r l = some (x, m)) :
    (r >>= f) l = f x m := by
  show Option.bind _ _ = _
  rw [h]; rfl

theorem pure_reader {α : Type} (x : α) (l : List Byte) : (pure x : Reader α) l = some (x, l) := rfl

theorem readNum_le (k n : Nat) (l : List Byte) (h : FitsBytes k n) : readNum k (le k n ++ l) = some (n, l) := by
  simp [readNum, le_length, unle_le k n h]

theorem readBool_flag (b : Bool) (l : List Byte) : readBool (flagByte b :: l) = some (b, l) := by
  have := readNum_le 1 b.toNat l (by cases b <;> decide)
  have e : flagByte b :: l = le 1 b.toNat ++ l := by cases b <;> rfl
  unfold readBool
  rw [e, bind_reader _ _ _ _ _ this]
  cases b <;> rfl

theorem readSigned_byte (i : Int) (l : List Byte) (h : FitsSigned i) : readSigned (signedByte i :: l) = some (i, l) := by
  have e : signedByte i :: l = le 1 (signedByte i).toNat ++ l := by simp [le]
  unfold readSigned
  rw [e, bind_reader _ _ _ _ _ (readNum_le 1 _ _ (by simpa [FitsBytes] using (signedByte i).isLt)), pure_reader]
  have : signedOf (signedByte i).toNat = i := by
    simp only [signedOf, signedByte, BitVec.ofNat_toNat, BitVec.setWidth_eq, BitVec.toInt_ofInt]
    simp only [FitsSigned] at h
    rw [Int.bmod_eq_of_le] <;> omega
  simp [this]

/-- An optional field: the presence byte decides. -/
theorem readOpt_some {α : Type} (r : Reader α) (k : Nat) (bs l : List Byte) (x : α) (h : r (bs ++ l) = some (x, l)) :
    readOpt r (optBytes k (some bs) ++ l) = some (some x, l) := by
  unfold readOpt
  rw [optBytes, List.cons_append, bind_reader _ _ _ _ _ (show readBool (1 :: _) = some (true, _) from readBool_flag true _), bind_reader _ _ _ _ _ h]
  rfl

theorem readOpt_none {α : Type} (r : Reader α) (k : Nat) (l : List Byte) (x : α)
    (h : r (List.replicate k 0 ++ l) = some (x, l)) : readOpt r (optBytes k none ++ l) = some (none, l) := by
  unfold readOpt
  rw [optBytes, List.cons_append, bind_reader _ _ _ _ _ (show readBool (0 :: _) = some (false, _) from readBool_flag false _), bind_reader _ _ _ _ _ h]
  rfl

theorem readNum_zeros (k : Nat) (l : List Byte) : ∃ n, readNum k (List.replicate k 0 ++ l) = some (n, l) := by
  simp [readNum]

theorem readOpt_num (k : Nat) (o : Option Nat) (l : List Byte) (h : OptFits k o) :
    readOpt (readNum k) (optNum k o ++ l) = some (o, l) := by
  cases o with
  | none => obtain ⟨n, hn⟩ := readNum_zeros k l; exact readOpt_none _ _ _ n hn
  | some n => exact readOpt_some _ _ _ _ _ (readNum_le k n l (h n rfl))

theorem readOpt_signed (o : Option Int) (l : List Byte) (h : OptSigned o) :
    readOpt readSigned (optSigned o ++ l) = some (o, l) := by
  cases o with
  | none => exact readOpt_none _ _ _ 0 (readSigned_byte 0 l (by simp [FitsSigned]))
  | some i => exact readOpt_some _ _ _ _ _ (readSigned_byte i l (h i rfl))

theorem readBytes_append (bs l : List Byte) : readBytes bs.length (bs ++ l) = some (bs, l) := by simp [readBytes]

theorem readText_text (t l : List Byte) (h : t.length < 256) : readText (textBytes t ++ l) = some (t, l) := by
  have e : textBytes t ++ l = le 1 t.length ++ (t ++ l) := by simp [textBytes, le]
  unfold readText
  rw [e, bind_reader _ _ _ _ _ (readNum_le 1 _ _ (by simpa [FitsBytes] using h))]
  exact readBytes_append t l

theorem readOptText_text (o : Option (List Byte)) (l : List Byte) (h : ∀ t ∈ o, t.length < 256) :
    readOptText (optBytes 1 (o.map textBytes) ++ l) = some (o, l) := by
  cases o with
  | none => exact readOpt_none _ _ _ [] (readText_text [] l (by decide))
  | some t => exact readOpt_some _ _ _ _ _ (readText_text t l (h t rfl))

theorem readFirmware_bytes (v : Firmware) (l : List Byte) (h : v.WellFormed) :
    readFirmware (firmwareBytes v ++ l) = some (v, l) := by
  unfold readFirmware
  simp only [firmwareBytes, List.append_assoc]
  rw [bind_reader _ _ _ _ _ (readNum_le 1 _ _ h.1), bind_reader _ _ _ _ _ (readNum_le 1 _ _ h.2.1),
    bind_reader _ _ _ _ _ (readNum_le 2 _ _ h.2.2)]
  rfl

theorem readMany_items {α : Type} (r : Reader α) (enc : α → List Byte) (xs : List α) (l : List Byte)
    (h : ∀ x ∈ xs, ∀ l, r (enc x ++ l) = some (x, l)) :
    readMany r xs.length ((xs.map enc).flatten ++ l) = some (xs, l) := by
  induction xs with
  | nil => rfl
  | cons x xs ih =>
    simp only [List.length_cons, readMany, List.map_cons, List.flatten_cons, List.append_assoc]
    rw [bind_reader _ _ _ _ _ (h x (by simp) _), bind_reader _ _ _ _ _ (ih (fun y hy => h y (by simp [hy])))]
    rfl

theorem readList_items {α : Type} (r : Reader α) (enc : α → List Byte) (xs : List α) (l : List Byte)
    (hn : xs.length < 256) (h : ∀ x ∈ xs, ∀ l, r (enc x ++ l) = some (x, l)) :
    readList r (listBytes (xs.map enc) ++ l) = some (xs, l) := by
  have e : listBytes (xs.map enc) ++ l = le 1 xs.length ++ ((xs.map enc).flatten ++ l) := by simp [listBytes, le]
  unfold readList
  rw [e, bind_reader _ _ _ _ _ (readNum_le 1 _ _ (by simpa [FitsBytes] using hn))]
  exact readMany_items r enc xs l h

theorem readThresholds_fields (t : Thresholds) (l : List Byte) (h : t.WellFormed) :
    readThresholds (thresholdFields t ++ l) = some (t, l) := by
  unfold readThresholds
  simp only [thresholdFields, List.append_assoc]
  rw [bind_reader _ _ _ _ _ (readOpt_num 2 _ _ h.1), bind_reader _ _ _ _ _ (readOpt_num 2 _ _ h.2.1),
    bind_reader _ _ _ _ _ (readOpt_num 2 _ _ h.2.2)]
  rfl

theorem readStep_fields (t : RawStep) (l : List Byte) (h : t.WellFormed) : readStep (rawStepFields t ++ l) = some (t, l) := by
  obtain ⟨h1, h2, h3, h4, h5, h6, h7⟩ := h
  unfold readStep
  simp only [rawStepFields, List.append_assoc, List.cons_append, List.nil_append]
  rw [bind_reader _ _ _ _ _ (readNum_le 1 _ _ h1), bind_reader _ _ _ _ _ (readNum_le 2 _ _ h2),
    bind_reader _ _ _ _ _ (readNum_le 1 _ _ h3), bind_reader _ _ _ _ _ (readNum_le 1 _ _ h4),
    bind_reader _ _ _ _ _ (readNum_le 1 _ _ h5), bind_reader _ _ _ _ _ (readNum_le 2 _ _ h6),
    bind_reader _ _ _ _ _ (readNum_le 1 _ _ h7), bind_reader _ _ _ _ _ (readBool_flag _ _)]
  rfl

theorem readClass_fields (a : ClassArgs) (l : List Byte) (h : a.WellFormed) :
    readClass (classFields a ++ l) = some (a, l) := by
  obtain ⟨h1, h2, h3, h4, h5⟩ := h
  unfold readClass
  simp only [classFields, List.append_assoc, List.cons_append, List.nil_append]
  rw [bind_reader _ _ _ _ _ (readNum_le 1 _ _ h1), bind_reader _ _ _ _ _ (readBool_flag _ _),
    bind_reader _ _ _ _ _ (readBool_flag _ _), bind_reader _ _ _ _ _ (readBool_flag _ _),
    bind_reader _ _ _ _ _ (readNum_le 2 _ _ h2), bind_reader _ _ _ _ _ (readNum_le 2 _ _ h3),
    bind_reader _ _ _ _ _ (readNum_le 2 _ _ h4), bind_reader _ _ _ _ _ (readNum_le 1 _ _ h5)]
  rfl

theorem readRoute_fields (a : RouteArgs) (l : List Byte) (h : a.WellFormed) :
    readRoute (routeFields a ++ l) = some (a, l) := by
  obtain ⟨h1, h2, h3, h4, h5, h6⟩ := h
  unfold readRoute
  simp only [routeFields, List.append_assoc]
  rw [bind_reader _ _ _ _ _ (readNum_le 2 _ _ h1), bind_reader _ _ _ _ _ (readNum_le 2 _ _ h2),
    bind_reader _ _ _ _ _ (readNum_le 1 _ _ h3), bind_reader _ _ _ _ _ (readNum_le 1 _ _ h4),
    bind_reader _ _ _ _ _ (readNum_le 1 _ _ h5), bind_reader _ _ _ _ _ (readNum_le 1 _ _ h6)]
  rfl

theorem readCampaign_fields (a : CampaignArgs) (l : List Byte) (h : a.WellFormed) :
    readCampaign (campaignFields a ++ l) = some (a, l) := by
  obtain ⟨h1, h2, h3, h4, h5, h6, h7, h8, h9⟩ := h
  unfold readCampaign
  simp only [campaignFields, List.append_assoc]
  rw [bind_reader _ _ _ _ _ (readNum_le 1 _ _ h1),
    bind_reader _ _ _ _ _ (readList_items readFirmware firmwareBytes _ _ h2 (fun v hv l => readFirmware_bytes v l (h3 v hv))),
    bind_reader _ _ _ _ _ (readFirmware_bytes _ _ h4), bind_reader _ _ _ _ _ (readNum_le 3 _ _ h5),
    bind_reader _ _ _ _ _ (readNum_le 4 _ _ h6), bind_reader _ _ _ _ _ (readNum_le 2 _ _ h7),
    bind_reader _ _ _ _ _ (readNum_le 2 _ _ h8), bind_reader _ _ _ _ _ (readNum_le 1 _ _ h9)]
  rfl

theorem readRecord_fields (r : RestoreRecord) (l : List Byte) (h : r.WellFormed) :
    readRecord (recordFields r ++ l) = some (r, l) := by
  obtain ⟨h1, h2, h3, h4, h5, h6, h7, h8, h9, h10, h11, h12, h13, h14, h15, h16, h17⟩ := h
  unfold readRecord
  simp only [recordFields, List.append_assoc, List.cons_append, List.nil_append]
  rw [bind_reader _ _ _ _ _ (readNum_le 1 _ _ h1), bind_reader _ _ _ _ _ (readFirmware_bytes _ _ h2),
    bind_reader _ _ _ _ _ (readNum_le 2 _ _ h3), bind_reader _ _ _ _ _ (readBool_flag _ _),
    bind_reader _ _ _ _ _ (readBool_flag _ _), bind_reader _ _ _ _ _ (readNum_le 1 _ _ h4),
    bind_reader _ _ _ _ _ (readNum_le 1 _ _ h5), bind_reader _ _ _ _ _ (readSigned_byte _ _ h6),
    bind_reader _ _ _ _ _ (readSigned_byte _ _ h7), bind_reader _ _ _ _ _ (readNum_le 1 _ _ h8),
    bind_reader _ _ _ _ _ (readBool_flag _ _), bind_reader _ _ _ _ _ (readNum_le 2 _ _ h9),
    bind_reader _ _ _ _ _ (readNum_le 2 _ _ h10), bind_reader _ _ _ _ _ (readNum_le 2 _ _ h11),
    bind_reader _ _ _ _ _ (readNum_le 2 _ _ h12), bind_reader _ _ _ _ _ (readNum_le 2 _ _ h13),
    bind_reader _ _ _ _ _ (readNum_le 4 _ _ h14), bind_reader _ _ _ _ _ (readBool_flag _ _),
    bind_reader _ _ _ _ _ (readOpt_num 1 _ _ h15), bind_reader _ _ _ _ _ (readNum_le 2 _ _ h16),
    bind_reader _ _ _ _ _ (readNum_le 2 _ _ h17)]
  rfl

/-- R190: a request's frame is taken when its body is read back as the request. -/
theorem judgeFrame_request (i : Instr) (kind : Nat) (body : List Byte) (r : Reader Instr)
    (h : requestParts i = some (kind, body)) (hk : kind < 256) (hl : body.length ≤ 512) (hr : readRequest kind = some r)
    (hb : r (body ++ []) = some (i, [])) : judgeFrame (requestFrame i) = .take i := by
  rw [List.append_nil] at hb
  have e : unle (le 2 body.length) = body.length := unle_le 2 _ (by show _ < 65536; omega)
  have f : requestFrame i =
      BitVec.ofNat 8 kind :: BitVec.ofNat 8 body.length :: BitVec.ofNat 8 (body.length / 256) :: body := by
    simp [requestFrame, h, le]
  have e' : unle [BitVec.ofNat 8 body.length, BitVec.ofNat 8 (body.length / 256)] = body.length := by simpa [le] using e
  have : ¬ 512 < body.length := by omega
  simp [f, judgeFrame, e', this, judgeBody, Nat.mod_eq_of_lt hk, hr, hb]

end Sys2Proof.Machine
end

