-- ==== Sys2Proof/Laws/Sound.lean ====
section
/-! SUPPORT. The records stay sound through what is no moves from the state it finds: an event and a request as such, a frame taken
off the inbound buffer, the transport's own events, CLASS_SET, CLOCK_SET, a warm reset and an idle second. -/

namespace Sys2Proof.Machine

set_option Elab.async false

variable {s t : State}

/-! ### Events, requests, frames -/

theorem event_sound {f : State → State} (h : s.RecordsOk) (k : (f s).RecordsOk) : (event f s).RecordsOk := by
  unfold event
  split
  · exact (Moves.settle .refl).sound k
  · exact h

theorem onRequest_sound (i : Instr) (act : Act) (h : s.RecordsOk) (k : (act s).2.RecordsOk) : (onRequest i act s).RecordsOk := by
  unfold onRequest
  split
  · exact Same.recordsOk (s := (act s).2) {} k
  · exact Same.recordsOk (s := s) {} h

/-- A request that leaves the records sound. -/
theorem request_sound {i : Instr} {act : Act} (h : s.RecordsOk) (k : (act s).2.RecordsOk) (e : request i act s = .next t) :
    t.RecordsOk := by
  obtain rfl := Host.Outcome.next.inj e
  exact event_sound h (onRequest_sound i act h k)

theorem takeHead_same {k : InKind} {f : InFrame} (h : takeHead k s = some (f, t)) : Same s t := by
  unfold takeHead at h
  split at h
  · split at h
    · cases h; exact {}
    · cases h
  · cases h

theorem slotFrame_sound {k : InKind} {block : Nat → InFrame → State → State}
    (hb : ∀ {s t : State}, Moves s t → ∀ n f, Moves s (block n f t)) (h : s.RecordsOk) : (slotFrame k block s).RecordsOk := by
  unfold slotFrame
  split
  · rename_i f u hu
    have m := (takeHead_same hu).recordsOk h
    split
    · exact (hb (Moves.refl.heard f.source) f.source f).sound m
    · exact m
  · exact h

theorem claimFrame_sound (h : s.RecordsOk) : (claimFrame s).RecordsOk := by
  unfold claimFrame
  split
  · rename_i f u hu; exact (Moves.refl.claimSerial _ _).sound ((takeHead_same hu).recordsOk h)
  · exact h

theorem rejoinHead_sound (h : s.RecordsOk) : (rejoinHead s).RecordsOk := by
  unfold rejoinHead
  split
  · rename_i f u hu
    obtain ⟨l, m⟩ := rejoinFrame_moves f.source f.tag f.data u
    exact m.sound (Same.recordsOk {} ((takeHead_same hu).recordsOk h))
  · exact h

/-! ### The transport's own events -/

theorem noticeChange_same (b : Nat) (s : State) : Same s (noticeChange b s) := by
  unfold noticeChange
  split
  · exact .refl s
  · exact (Same.refl s).raise _ _ _

theorem countReceived_same (s : State) : Same s (countReceived s) :=
  Same.trans (t := { s with rec_ := receivedCount s.rec_ }) {} (noticeChange_same _ _)
theorem countReceiveError_same (d : Bool) (s : State) : Same s (countReceiveError d s) :=
  Same.trans (t := { s with rec_ := satAdd 255 s.rec_ (if d then 8 else 1) }) {} (noticeChange_same _ _)
theorem countSent_same (s : State) : Same s (countSent s) :=
  Same.trans (t := { s with tec := s.tec - 1 }) {} (noticeChange_same _ _)

theorem countTransmitError_same (b : Bool) (s : State) : Same s (countTransmitError b s) := by
  unfold countTransmitError
  split
  · exact .refl s
  · split
    · exact Same.trans (t := { s with tec := 255, busOff := true }) {} ((Same.refl _).raise _ _ _)
    · exact Same.trans (t := { s with tec := s.tec + 8 }) {} (noticeChange_same _ _)

theorem receiveFrame_same (f : InFrame) (s : State) : Same s (receiveFrame f s) := by
  unfold receiveFrame
  split
  · exact .refl s
  · refine (countReceived_same s).trans ?_
    unfold bufferFrame
    split
    · exact {}
    · exact Same.trans (t := { countReceived s with overruns := satAdd 65535 (countReceived s).overruns 1 }) {}
        ((Same.refl _).raise _ _ _)

theorem discardFrame_same (s : State) : Same s (discardFrame s) := by
  unfold discardFrame
  split
  · split
    · exact {}
    · exact .refl s
  · exact .refl s

theorem frameSent_same (s : State) : Same s (frameSent s) := by
  unfold frameSent
  split
  · exact ((countSent_same s).trans (u := { countSent s with transmitter := none }) {}).trans (Touches.kick .refl).same
  · exact .refl s

theorem transmitError_same (b : Bool) (s : State) : Same s (transmitError b s) := by
  unfold transmitError
  split
  · exact countTransmitError_same b s
  · exact .refl s

theorem busOffRecovery_same (s : State) : Same s (busOffRecovery s) := by
  unfold busOffRecovery
  split
  · exact (Same.trans (t := { s with busOff := false, tec := 0, rec_ := 0 }) {} ((Same.refl _).raise _ _ _)).trans
      (Touches.kick .refl).same
  · exact .refl s

theorem spiWrite_same (b : List Byte) (s : State) : Same s (spiWrite b s) := by
  unfold spiWrite
  dsimp only
  split
  · split <;> exact {}
  · exact {}
  · exact {}

theorem spiRead_same (n : Nat) (s : State) : Same s (spiRead n s) := by
  unfold spiRead
  dsimp only
  split <;> exact {}

/-! ### CLASS_SET (R134) -/

/-- R134: a class whose cap is at least its open count. -/
theorem setCls_sound (c : Nat) (x : TicketClass) (hc : s.openCount c ≤ x.cap) (h : s.RecordsOk) : (s.setCls c x).RecordsOk := by
  refine h.newTickets ⟨h.tickets.places, h.tickets.ascending, fun d => ?_⟩
  by_cases hd : d = c
  · subst hd
    by_cases hr : d ≤ 7
    · rw [s.setCls_cls _ _ hr]; exact hc
    · rw [show s.setCls d x = s from by simp [State.setCls, vset_outside s.classes (d + 1) x (by omega)]]
      exact h.tickets.capped d
  · rw [s.setCls_cls_ne _ _ _ hd]; exact h.tickets.capped d

theorem setClass_sound (c : Nat) (x : TicketClass) (hc : s.openCount c ≤ x.cap) (h : s.RecordsOk) : (setClass c x s).RecordsOk := by
  have m : Moves (s.setCls c x) (setClass c x s) := by
    unfold setClass
    dsimp only
    have k := Moves.ite (c := decide ((s.cls c).severity = .lockout) = decide (x.severity = .lockout)) (Moves.refl (s := s.setCls c x))
      (Moves.refl.foldl (f := fun s n => deriveLock n s) (fun _ n k => k.deriveLock n) ((s.setCls c x).ovensWithClass c))
    exact k.ite k.channelChoice
  exact m.sound (setCls_sound c x hc h)

theorem reqClassSet_sound (c : Nat) (a : ClassArgs) (h : s.RecordsOk) : (reqClassSet c a s).2.RecordsOk := by
  unfold reqClassSet
  split
  · exact h
  · split
    · exact h
    · exact setClass_sound c _ (by simp only [classOf]; omega) h

/-! ### Dismissal and retirement (R33, R34) -/

theorem barSerial_same (i : Nat) (s : State) : Same s (barSerial i s) := by
  unfold barSerial
  split
  · exact .refl s
  · exact {}

theorem ite_same {c : Prop} [Decidable c] (h : Same s t) : Same s (if c then t else s) := by
  split; exacts [h, .refl s]

theorem dismiss_sound (n : Nat) (b : Bool) (h : s.RecordsOk) : (dismiss n b s).RecordsOk := by
  unfold dismiss
  dsimp only
  have m := Moves.refl.vacate (s := if b = true then barSerial ((s.oven n).serial.getD 0) s else s) n
  exact ((m.placeBarred _ _).ite m).sound ((ite_same (barSerial_same _ s)).recordsOk h)

theorem retire_sound (n : Nat) (b : Bool) (h : s.RecordsOk) : (retire n b s).RecordsOk := by
  unfold retire
  dsimp only
  have m := Moves.refl (s := if b = true then barSerial ((s.oven n).serial.getD 0) s else s)
  exact (((((m.retireEntries n).clearLoaded n).withdrawTickets n).modOven _ _).leaveCheck n).sound
    ((ite_same (barSerial_same _ s)).recordsOk h)

/-! ### CLOCK_SET (R184, R185) -/

theorem stepClock_same (v : Nat) (s : State) : Same s (stepClock v s) where
  loaded n := by
    show List.map _ (vget (s.loaded.map _) n []) = _
    rw [show ([] : List Entry) = (fun l : List Entry => l.map (moveEntry s.clock v)) [] from rfl, vget_map]
    exact map_key (f := moveEntry s.clock v) (fun _ => rfl) _
  permits n := by
    show Option.map _ (vget (s.permits.map _) n none) = _
    rw [show (none : Option Permit) = (Option.map (movePermit s.clock v)) none from rfl, vget_map]
    show Option.map _ (Option.map _ (s.permit n)) = _
    cases s.permit n <;> rfl
  tickets := by
    show (s.tickets.map _).map _ = _
    rw [List.map_map]; rfl
  campaigns c := by
    show Option.map _ (vget (s.campaigns.map _) c none) = _
    rw [show (none : Option Campaign) = (Option.map (moveCampaign s.clock v)) none from rfl, vget_map]
    show Option.map _ (Option.map _ (s.campaign c)) = _
    cases s.campaign c with
    | none => rfl
    | some m => exact congrArg some (by simp only [moveCampaign, List.map_map]; rfl)

theorem reqClockSet_sound (v : Nat) (h : s.RecordsOk) : (reqClockSet v s).2.RecordsOk := by
  unfold reqClockSet
  split
  · exact h
  · exact (Moves.refl.gateAll).sound ((stepClock_same v s).recordsOk h)

/-! ### Warm reset and idle -/

theorem power_same (p : Power) (s : State) : Same s { s with power := p } := {}
theorem bitRate_same (b : Bool) (s : State) : Same s { s with bitRate500 := b } := {}

theorem loseTransport_sound (h : s.RecordsOk) : (loseTransport s).RecordsOk := by
  have none : ∀ j, (loseTransport s).distSlot j = none := fun j => by
    show vget (Vector.replicate 4 none) j none = none
    cases j with
    | zero => rfl
    | succ j => simp only [vget, Vector.getElem?_replicate]; split <;> rfl
  exact h.sets h.loaded ⟨fun j b hb => (Option.some_ne_none b (hb.symm.trans (none j))).elim, fun j _ a _ ha _ =>
    (Option.some_ne_none a (ha.symm.trans (none j))).elim⟩

theorem warmReset_sound (c : ResetCause) (h : s.RecordsOk) : (warmReset c s).RecordsOk := by
  unfold warmReset
  split
  · have k : (clockTaken s).RecordsOk := by
      unfold clockTaken
      split
      · exact reqClockSet_sound _ h
      · exact h
    exact (power_same _ _).recordsOk (loseTransport_sound k)
  all_goals exact h

theorem warmResetEnd_sound (b : Bool) (h : s.RecordsOk) : (warmResetEnd b s).RecordsOk := by
  unfold warmResetEnd
  split
  · rename_i since _
    have d := (Moves.refl.takePassed since (State.applyingEntries { s with bitRate500 := b })).sound ((bitRate_same b s).recordsOk h)
    exact ((Moves.refl.makeUps _ _).settle).sound ((power_same _ _).recordsOk d)
  all_goals exact h

theorem idle_sound (h : s.RecordsOk) : (idle s).RecordsOk := by
  unfold idle second tickClock
  split
  · exact h
  · exact Same.recordsOk (s := s) {} h
  · split <;> exact Same.recordsOk (s := s) {} h

end Sys2Proof.Machine
end

