-- ==== Sys2Proof/Laws/Standing.lean ====
section
/-! SUPPORT. R7: no operation gives URGENT a second unsent LOCK_STATE or HYGIENE_STATE for an oven; and with it, the operations of
the blocks keep the machine safe. -/

namespace Sys2Proof.Machine

set_option Elab.async false

variable {s t : State}

theorem setQueue_urgent_ne (s : State) (q : QueueName) (l : List OutFrame) (h : q ≠ .urgent) :
    (s.setQueue q l).urgent = s.urgent := by cases q <;> first | rfl | exact absurd rfl h

theorem raise_urgent (k : NoticeKind) (n : Nat) (d : List Byte) (s : State) : (raise k n d s).urgent = s.urgent := by
  rw [raise_eq]

theorem enqueue_standingOk (f : OutFrame) (s : State) (h : s.StandingOk) : (enqueue f s).StandingOk := by
  intro k hk n
  have hd : (dropFrame f s).urgent = s.urgent := dropFrame_queue f s .urgent
  unfold enqueue
  dsimp only
  split
  · rename_i hs
    by_cases hq : f.payload.kind.queue = .urgent
    · rw [hq]
      show (List.countP _ (List.map _ s.urgent)) ≤ 1
      rw [List.countP_map]
      refine le_trans (le_of_eq (List.countP_congr ?_)) (h k hk n)
      intro g _
      simp only [Function.comp]
      split
      · rename_i hg
        simp only [Bool.and_eq_true, decide_eq_true_eq] at hg
        simp [hg.1, hg.2]
      · rfl
    · rw [setQueue_urgent_ne _ _ _ hq]; exact h k hk n
  · rename_i hs
    split
    · by_cases hq : f.payload.kind.queue = .urgent
      · rw [hq]
        show List.countP _ (s.urgent ++ [f]) ≤ 1
        rw [List.countP_append, List.countP_singleton]
        split
        · rename_i hf
          simp only [Bool.and_eq_true, decide_eq_true_eq] at hf
          have : s.urgent.countP (fun g => g.payload.kind = k && g.dest = n) = 0 := by
            rw [List.countP_eq_zero]
            intro g hg
            simp only [hq, not_and, Bool.not_eq_true, List.any_eq_false] at hs
            have := hs (by rw [hf.1]; exact hk) g hg
            simpa [hf.1, hf.2] using this
          omega
        · have := h k hk n; omega
      · rw [setQueue_urgent_ne _ _ _ hq]; exact h k hk n
    · rw [hd]; exact h k hk n

theorem setQueue_standingOk (q : QueueName) (l : List OutFrame) (s : State) (hl : l.Sublist (s.queue q)) (h : s.StandingOk) :
    (s.setQueue q l).StandingOk := by
  intro k hk n
  cases q with
  | urgent => exact le_trans (hl.countP_le) (h k hk n)
  | _ => exact h k hk n

/-- R7 is kept by every sequence of moves. -/
theorem TouchSteps.standingOk (h : TouchSteps s t) (k : s.StandingOk) : t.StandingOk := by
  induction h with
  | refl => exact k
  | tail _ m ih =>
    cases m with
    | records r => intro c hc n; rw [r.urgent]; exact ih c hc n
    | raised _ _ _ _ _ => intro c hc n; rw [raise_urgent]; exact ih c hc n
    | placed f _ => exact enqueue_standingOk f _ ih
    | shrunk q l _ hl => exact setQueue_standingOk q l _ hl ih
    | taken q f l _ hq =>
      exact setQueue_standingOk q l _ (by rw [hq]; exact List.sublist_cons_self _ _) ih

/-- Moves keep every invariant of a safe machine. -/
theorem Moves.safe (h : Moves s t) (k : s.Safe) : t.Safe where
  bus := h.touches.busOk k.bus
  queues := h.touches.queuesOk k.queues
  notices := h.touches.noticesOk k.notices
  barred := h.touches.barredOk k.barred
  settled := h.settled k.settled
  standing := h.touches.standingOk k.standing

end Sys2Proof.Machine
end

