-- ==== Sys2Proof/Tests/Slice0.lean ====
section
/-! SUPPORT. The smoke test of WellFormed, the manual's worked examples and tables, one step each, and a witness for each
statement that has hypotheses. Every expected result is the manual's own figure or is worked from its rule by hand. -/

namespace Sys2Proof.Tests

open Sys2Proof.Machine

-- one theorem at a time: each `decide` in its own thread takes too much memory
set_option Elab.async false

/-! ### WellFormed refuses an operand that its place cannot carry -/

/-- The command is ill-formed. -/
abbrev Bad (i : Instr) : Prop := ¬ i.WellFormed

def wfFrame : InFrame := { priority := 7, kind := 127, source := 63, tag := 127, data := List.replicate 8 0 }
def noThresholds : Thresholds := { advise := none, lock := none, interval := none }
def wfRecord : RestoreRecord :=
  { model := 255, firmware := ⟨255, 255, 65535⟩, maxTemp := 65535, steam := true, probe := true, cleaning := 255
    capacity := 255, cavity := -128, humidity := 127, group := 255, manualLock := true, cooks := 65535, soil := 65535
    advise := 65535, lock := 65535, interval := 65535, lastFull := 4294967295, residue := true, order := some 255
    completed := 65535, aborted := 65535 }
def wfStep : RawStep :=
  { mode := 255, setpoint := 65535, humidity := 255, fan := 255, endKind := 255, seconds := 65535, target := 255
    prompt := true }
def wfClass : ClassArgs :=
  { severity := 255, blocksCleaning := true, blocksUpdates := true, autoClear := true, e1 := 65535, e2 := 65535
    e3 := 65535, cap := 255 }
def wfRoute : RouteArgs :=
  { codePattern := 65535, codeMask := 65535, modelPattern := 255, modelMask := 255, target := 255, action := 255 }
def wfCampaign : CampaignArgs :=
  { model := 255, fromVersions := [⟨255, 255, 65535⟩], toVersion := ⟨255, 255, 65535⟩, imageSize := 16777215
    imageCrc := 4294967295, windowStart := 65535, windowEnd := 65535, concurrency := 255 }

theorem smoke_frames : (Instr.frameReceive wfFrame).WellFormed ∧ Bad (.frameReceive { wfFrame with priority := 8 }) ∧
    Bad (.frameReceive { wfFrame with kind := 128 }) ∧ Bad (.frameReceive { wfFrame with source := 64 }) ∧
    Bad (.frameReceive { wfFrame with tag := 128 }) ∧
    Bad (.frameReceive { wfFrame with data := List.replicate 9 0 }) := by decide

theorem smoke_slot_deadlines : ∀ n ∈ [0, 33], Bad (.holdDeadlineExpiry n) ∧ Bad (.assignReplyDeadline n) ∧
    Bad (.profileDeadline n) ∧ Bad (.testDeadline n) ∧ Bad (.silenceDeadline n) ∧ Bad (.gatheringDeadline n) ∧
    Bad (.offerReplyDeadline n) ∧ Bad (.progressDeadline n) ∧ Bad (.unloadDeadline n 1 1) ∧ Bad (.permitDeadline n) ∧
    Bad (.hygieneDeadline n) ∧ Bad (.advancePoint n) ∧ Bad (.cleanDeadline n) ∧ Bad (.entryHoldDeadline 1 n) ∧
    Bad (.applyDeadline 1 n) := by decide

theorem smoke_other_deadlines : Bad (.unloadDeadline 1 65536 1) ∧ Bad (.unloadDeadline 1 1 256) ∧
    (∀ t ∈ [0, 65536], Bad (.escalationDeadline t) ∧ Bad (.verificationDeadline t)) ∧
    (∀ c ∈ [0, 5], Bad (.entryHoldDeadline c 1) ∧ Bad (.applyDeadline c 1) ∧ Bad (.windowStart c)) ∧
    (∀ c ∈ [0, 3], Bad (.acknowledgementTimeout c) ∧ Bad (.checkDeadline c)) ∧
    Bad (.voidTransaction 256 0) ∧ Bad (.voidTransaction 0x57 0) ∧ Bad (.voidTransaction 0x52 0) := by decide

theorem smoke_bus_and_ovens : Bad (.busLevels 256 0 0 0) ∧ Bad (.busLevels 0 256 0 0) ∧ Bad (.busLevels 0 0 256 0) ∧
    Bad (.busLevels 0 0 0 256) ∧ Bad (.ovenAdmit 256 0) ∧ Bad (.ovenAdmit 0 256) ∧
    Bad (.ovenCommission 256 0 0 0 noThresholds) ∧ Bad (.ovenCommission 1 128 0 0 noThresholds) ∧
    Bad (.ovenCommission 1 (-129) 0 0 noThresholds) ∧ Bad (.ovenCommission 1 0 128 0 noThresholds) ∧
    Bad (.ovenCommission 1 0 (-129) 0 noThresholds) ∧ Bad (.ovenCommission 1 0 0 256 noThresholds) ∧
    Bad (.ovenCommission 1 0 0 0 { noThresholds with advise := some 65536 }) ∧
    Bad (.ovenCommission 1 0 0 0 { noThresholds with lock := some 65536 }) ∧
    Bad (.ovenCommission 1 0 0 0 { noThresholds with interval := some 65536 }) ∧
    Bad (.ovenSet 256 none none none noThresholds) ∧ Bad (.ovenSet 1 (some 256) none none noThresholds) ∧
    Bad (.ovenSet 1 none (some 128) none noThresholds) ∧ Bad (.ovenSet 1 none none (some (-129)) noThresholds) ∧
    Bad (.ovenSet 1 none none none { noThresholds with lock := some 65536 }) := by
  repeat' apply And.intro
  all_goals decide

theorem smoke_one_byte : Bad (.ovenDismiss 256 true) ∧ Bad (.ovenRetire 256 true) ∧ Bad (.ovenLock 256) ∧
    Bad (.ovenUnlock 256) ∧ Bad (.ovenRead 256) ∧ Bad (.permitRevoke 256) ∧ Bad (.permitRead 256) ∧
    Bad (.manualClean 256) ∧ Bad (.routeEnable 256) ∧ Bad (.routeDisable 256) ∧ Bad (.campaignStart 256) ∧
    Bad (.campaignPause 256) ∧ Bad (.campaignResume 256) ∧ Bad (.campaignCancel 256) ∧ Bad (.campaignClear 256) ∧
    Bad (.campaignRead 256) := by
  repeat' apply And.intro
  all_goals decide

theorem smoke_restore : (Instr.ovenRestore 1 0 wfRecord).WellFormed ∧ Bad (.ovenRestore 256 0 wfRecord) ∧
    Bad (.ovenRestore 1 281474976710656 wfRecord) ∧ Bad (.ovenRestore 1 0 { wfRecord with model := 256 }) ∧
    Bad (.ovenRestore 1 0 { wfRecord with firmware := ⟨256, 0, 0⟩ }) ∧
    Bad (.ovenRestore 1 0 { wfRecord with firmware := ⟨0, 256, 0⟩ }) ∧
    Bad (.ovenRestore 1 0 { wfRecord with firmware := ⟨0, 0, 65536⟩ }) ∧
    Bad (.ovenRestore 1 0 { wfRecord with maxTemp := 65536 }) ∧ Bad (.ovenRestore 1 0 { wfRecord with cleaning := 256 }) ∧
    Bad (.ovenRestore 1 0 { wfRecord with capacity := 256 }) ∧ Bad (.ovenRestore 1 0 { wfRecord with cavity := 128 }) ∧
    Bad (.ovenRestore 1 0 { wfRecord with humidity := -129 }) ∧ Bad (.ovenRestore 1 0 { wfRecord with group := 256 }) ∧
    Bad (.ovenRestore 1 0 { wfRecord with cooks := 65536 }) ∧ Bad (.ovenRestore 1 0 { wfRecord with soil := 65536 }) ∧
    Bad (.ovenRestore 1 0 { wfRecord with advise := 65536 }) ∧ Bad (.ovenRestore 1 0 { wfRecord with lock := 65536 }) ∧
    Bad (.ovenRestore 1 0 { wfRecord with interval := 65536 }) ∧
    Bad (.ovenRestore 1 0 { wfRecord with lastFull := 4294967296 }) ∧
    Bad (.ovenRestore 1 0 { wfRecord with order := some 256 }) ∧
    Bad (.ovenRestore 1 0 { wfRecord with completed := 65536 }) ∧
    Bad (.ovenRestore 1 0 { wfRecord with aborted := 65536 }) := by
  repeat' apply And.intro
  all_goals decide

theorem smoke_recipes : Bad (.recipeDraft 65536 [] 0 none) ∧ Bad (.recipeDraft 1 [] 256 none) ∧
    Bad (.recipeDraft 1 [] 0 (some 256)) ∧ (Instr.recipeStep 1 1 wfStep).WellFormed ∧
    Bad (.recipeStep 65536 1 wfStep) ∧ Bad (.recipeStep 1 256 wfStep) ∧ Bad (.recipeStep 1 1 { wfStep with mode := 256 }) ∧
    Bad (.recipeStep 1 1 { wfStep with setpoint := 65536 }) ∧ Bad (.recipeStep 1 1 { wfStep with humidity := 256 }) ∧
    Bad (.recipeStep 1 1 { wfStep with fan := 256 }) ∧ Bad (.recipeStep 1 1 { wfStep with endKind := 256 }) ∧
    Bad (.recipeStep 1 1 { wfStep with seconds := 65536 }) ∧ Bad (.recipeStep 1 1 { wfStep with target := 256 }) ∧
    Bad (.recipeTrim 65536 0) ∧ Bad (.recipeTrim 1 256) ∧ Bad (.recipeDiscardDraft 65536) ∧ Bad (.recipePublish 65536) ∧
    Bad (.recipeWithdraw 65536) ∧ Bad (.recipeGroups 65536 0) ∧ Bad (.recipeGroups 1 256) ∧ Bad (.recipeRead 65536 0) ∧
    Bad (.recipeRead 1 256) ∧ Bad (.recipeList 65536 0) ∧ Bad (.recipeList 1 256) ∧ Bad (.recipeResend 256 1) ∧
    Bad (.recipeResend 1 65536) ∧ Bad (.loadedSetRead 256 0) ∧ Bad (.loadedSetRead 1 256) := by
  repeat' apply And.intro
  all_goals decide

theorem smoke_tickets_and_routes : Bad (.bar 281474976710656) ∧ Bad (.unbar 281474976710656) ∧ Bad (.cleanOrder 256 0) ∧
    Bad (.cleanOrder 1 256) ∧ (Instr.classSet 255 wfClass).WellFormed ∧ Bad (.classSet 256 wfClass) ∧
    Bad (.classSet 1 { wfClass with severity := 256 }) ∧ Bad (.classSet 1 { wfClass with e1 := 65536 }) ∧
    Bad (.classSet 1 { wfClass with e2 := 65536 }) ∧ Bad (.classSet 1 { wfClass with e3 := 65536 }) ∧
    Bad (.classSet 1 { wfClass with cap := 256 }) ∧ (Instr.routePut 255 wfRoute).WellFormed ∧ Bad (.routePut 256 wfRoute) ∧
    Bad (.routePut 1 { wfRoute with codePattern := 65536 }) ∧ Bad (.routePut 1 { wfRoute with codeMask := 65536 }) ∧
    Bad (.routePut 1 { wfRoute with modelPattern := 256 }) ∧ Bad (.routePut 1 { wfRoute with modelMask := 256 }) ∧
    Bad (.routePut 1 { wfRoute with target := 256 }) ∧ Bad (.routePut 1 { wfRoute with action := 256 }) ∧
    Bad (.ticketOpen 256 0 none) ∧ Bad (.ticketOpen 0 256 none) ∧ Bad (.ticketOpen 0 0 (some 65536)) ∧
    Bad (.ticketAck 65536 none) ∧ Bad (.ticketResolve 65536) ∧
    Bad (.ticketClose 65536) ∧ Bad (.ticketRead 65536) ∧ Bad (.ticketList 65536 none) ∧
    Bad (.ticketList 1 (some 256)) := by
  repeat' apply And.intro
  all_goals decide

theorem smoke_campaigns_and_port : (Instr.campaignPut 255 wfCampaign).WellFormed ∧ Bad (.campaignPut 256 wfCampaign) ∧
    Bad (.campaignPut 1 { wfCampaign with model := 256 }) ∧
    Bad (.campaignPut 1 { wfCampaign with fromVersions := [⟨256, 0, 0⟩] }) ∧
    Bad (.campaignPut 1 { wfCampaign with toVersion := ⟨0, 0, 65536⟩ }) ∧
    Bad (.campaignPut 1 { wfCampaign with imageSize := 16777216 }) ∧
    Bad (.campaignPut 1 { wfCampaign with imageCrc := 4294967296 }) ∧
    Bad (.campaignPut 1 { wfCampaign with windowStart := 65536 }) ∧
    Bad (.campaignPut 1 { wfCampaign with windowEnd := 65536 }) ∧
    Bad (.campaignPut 1 { wfCampaign with concurrency := 256 }) ∧ Bad (.imageBlock 256 0 []) ∧
    Bad (.imageBlock 1 16777216 []) ∧ Bad (.clockSet 4294967296) ∧
    Bad (.noticeEnable 65536) := by
  repeat' apply And.intro
  all_goals decide

theorem smoke_long_lists (n : Nat) (h : 256 ≤ n) : Bad (.recipeDraft 1 (List.replicate n 0x41) 0 none) ∧
    Bad (.ticketAck 1 (some (List.replicate n 0x41))) ∧
    Bad (.campaignPut 1 { wfCampaign with fromVersions := List.replicate n ⟨0, 0, 0⟩ }) ∧
    (509 ≤ n → Bad (.imageBlock 1 0 (List.replicate n 0))) := by
  simp
  omega

/-! ### The manual's tables and worked figures -/

/-- R75: the CRC of "123456789". -/
theorem test_crc : crc16 [0x31, 0x32, 0x33, 0x34, 0x35, 0x36, 0x37, 0x38, 0x39] = 0x29B1 := by decide +kernel

/-- Section 6.2: the table of stage increments. -/
theorem test_stage_increments :
    [stageIncrement .steam 30 100 1 0, stageIncrement .steam 30 100 30 0, stageIncrement .steam 30 100 31 0,
      stageIncrement .combi 120 50 600 1, stageIncrement .combi 120 49 600 1, stageIncrement .dry 0 0 900 2,
      stageIncrement .dry 300 0 14400 3, stageIncrement .dry 350 0 65535 3] =
    [1, 1, 2, 120, 180, 270, 43200, 65535] := by decide

/-- Section 6.2: the temperature weight at its edges. -/
theorem test_temperature_weights : [0, 100, 119, 120, 219, 300, 350].map weightT = [2, 2, 2, 3, 7, 12, 12] := by decide

def steps412 : List Step :=
  [{ mode := .combi, setpoint := 165, humidity := 60, fan := 3, ending := .time 1500, prompt := false },
   { mode := .dry, setpoint := 210, humidity := 0, fan := 4, ending := .time 600, prompt := false },
   { mode := .steam, setpoint := 98, humidity := 100, fan := 2, ending := .core 74 900, prompt := false }]

/-- Section 3.4: the figures of recipe 412 version 3. -/
theorem test_figures_412 : figuresOf 2 steps412 =
    { needsSteam := true, needsProbe := true, highest := 210, duration := 3000, stepSoil := [750, 630, 90]
      totalSoil := 1470 } := by decide

/-- R94: the deadline offsets of versions 3 and 2 (sections 3.4 and 11.2). -/
theorem test_permit_seconds : permitSeconds 3000 = 4350 ∧ permitSeconds 2800 = 4100 := by decide

/-- R182, section 9.4: the minute of the day. -/
theorem test_minute_of_day : [3700, 1700000000, 1000, 253405, 255600].map minuteOfDay = [61, 1333, 16, 1343, 1380] := by
  decide

/-! ### Small states -/

/-- The state a command leaves. -/
def run (c : Instr) (s : State) : State :=
  match exec c s with
  | .next t => t
  | .fault _ => s
  | .refused _ => s

def atClock (t : Nat) (s : State) : State := { s with clock := t }

def profile9 : Profile := { maxTemp := 300, steam := true, probe := true, cleaning := .full, capacity := 120 }

/-- The hygiene part of oven 9 at 186,000 (section 11.3). -/
def hygiene9 : Hygiene :=
  { soil := 38900, settings := {}, lastFull := 150000, deadline := .armed 236400, advance := .armed 229200
    state := .advised, residue := false, clean := none, order := none, completed := 0, aborted := 0 }

def oven9 : Oven :=
  { state := .inService, serial := some 0x3A0051A32C9E, model := 0x12, firmware := some ⟨4, 2, 310⟩
    profile := some profile9, cavity := -3, humidity := 5, group := 3, present := true, lastHeard := 199999
    silence := some 200009, hygiene := some hygiene9 }

def recipe412 : Recipe :=
  { number := 412, version := 3, state := .active, superseded := false, fat := 2, groups := 9, steps := steps412
    name := [0x52, 0x6F, 0x61, 0x73, 0x74, 0x20, 0x63, 0x68, 0x69, 0x63, 0x6B, 0x65, 0x6E, 0x20, 0x74, 0x68, 0x69, 0x67,
      0x68, 0x73], figures := some (figuresOf 2 steps412), refs := 1 }

/-- Some frame in the transmitter, so that placed frames stay in their queues. -/
def onWire : OutFrame := { payload := .imageAbort, producer := .updateRelay, mark := .oven 1, dest := 1 }

/-- An open site with a set clock, and nothing else. -/
def site : State :=
  { State.reset with siteOpen := true, clockUnset := false, clock := 200000, notices := [], transmitter := some onWire }

/-- A state with one oven in slot 9. -/
def withOven (o : Oven) (s : State) : State := s.setOven 9 o

/-- Oven 9 in service with recipe 412 version 3 LOADED (sections 11.3 to 11.5). -/
def kitchen : State :=
  withOven oven9 { site with
    permitCounter := 3104, recipes := [recipe412]
    loaded := vset (Vector.replicate 32 []) 9 [{ number := 412, version := 3, state := .loaded }] }

def frame (kind tag : Nat) (data : List Byte) : InFrame :=
  { priority := 4, kind := kind, source := 9, tag := tag, data := data }

/-- The frame waits in the inbound buffer. -/
def hearing (f : InFrame) (s : State) : State := { s with inbound := [f] }

def notice (s : State) : List (NoticeKind × Nat × List Byte) := s.notices.map fun e => (e.kind, e.subject, e.detail)

/-! ### The bus -/

def queued (p : Payload) (n : Nat) : OutFrame := { payload := p, producer := .siteBus, mark := .oven n, dest := n }
def segment (i : Nat) : OutFrame :=
  { payload := .segName i [0x41], producer := .distribution, mark := .distSlot 1, dest := 12 }

/-- Section 1.6: BULK holds three segments, ANSWER a lookup answer and an offer. -/
def fourChoices : State :=
  { site with
    transmitter := none, answer := [queued (.lookupAnswer 1 0 false false false false) 4, queued (.offer 1 1 1 0) 9]
    bulk := [segment 0, segment 1, segment 2] }

/-- Section 1.6: the four choices at the transmitter. -/
theorem test_four_choices :
    fourChoices.nextQueue = some .answer ∧
    { fourChoices with urgent := [queued (.permitRefused 1 {}) 7] }.nextQueue = some .urgent ∧
    { fourChoices with levels := ⟨3, 1, 3, 0⟩ }.nextQueue = some .bulk ∧
    { fourChoices with levels := ⟨3, 1, 3, 0⟩, urgent := [queued (.stop 1) 5] }.nextQueue = some .urgent := by decide

/-- R11, R13: the sent frame frees the transmitter, which takes the lookup answer; the transmit count falls by one. -/
theorem test_frame_sent :
    let t := run .frameSent { fourChoices with transmitter := some onWire, tec := 3 }
    t.transmitter.map OutFrame.dest = some 4 ∧ t.answer.length = 1 ∧ t.tec = 2 := by decide

/-- R2: the seventeenth frame is lost and counted. -/
theorem test_overrun :
    let t := run (.frameReceive (frame 5 0 [])) { site with inbound := List.replicate 16 (frame 5 0 []) }
    t.inbound.length = 16 ∧ t.overruns = 1 ∧ t.notices.map Notice.kind = [.bus] := by decide

/-- R3: FAULT with a part fault code is no oven's frame. -/
theorem test_frame_discard :
    (run .frameDiscard (hearing (frame 0x40 0 [0x00, 0xFF, 0x01]) site)).discarded = 1 := by decide

/-- R13, R14: the dominant bit after the own error flag counts 8, and 128 makes node 0 ERROR_PASSIVE. -/
theorem test_receive_error :
    let t := run (.receiveError true) { site with rec_ := 120 }
    t.rec_ = 128 ∧ t.confinement = 1 ∧ t.notices.map Notice.kind = [.bus] := by decide

/-- R15: a count that would pass 255 enters BUS_OFF. -/
theorem test_transmit_error :
    let t := run (.transmitError false) { site with tec := 248 }
    t.busOff = true ∧ t.transmitter = some onWire := by decide

/-- R16: the sixteen numbers of BUS_STATUS, then CLEAR. -/
theorem test_bus_status :
    let t := run (.busStatus true) { fourChoices with tec := 128, overruns := 258, discarded := 1 }
    t.port = .ready { status := .ok, body := [1, 128, 0, 0, 0, 2, 3, 0, 3, 2, 1, 0, 2, 1, 1, 0, 0, 0, 0, 0] } ∧
      t.overruns = 0 ∧ t.discarded = 0 := by decide

/-! ### The management port -/

/-- R190: OVEN_ADMIT(9, 3) written out byte by byte, and a frame one byte short of its length. -/
theorem test_spi_write :
    (run (.spiWrite [0x10, 2, 0, 9, 3]) site).port = .executing (.ovenAdmit 9 3) ∧
    (run (.spiWrite [0x10, 2, 0, 9]) site).port = .ready { status := .badLength, body := [] } ∧
    (run (.spiWrite [0x03, 0, 0]) site).port = .ready { status := .unknownRequest, body := [] } := by decide

/-- R191, R192: the response frame, zeros beyond it, and the overrun flag shown and cleared. -/
theorem test_spi_read :
    let t := run (.spiRead 8) { site with port := .ready { status := .offset, body := [0, 1, 0] }, overrun := true }
    t.miso = [10, 1, 3, 0, 0, 1, 0, 0] ∧ t.port = .idle ∧ t.overrun = false := by decide

/-- The kind bytes and fields of a request of each chapter, written out from section 10.3 and its rule. -/
theorem test_request_frames :
    judgeFrame [0x01, 4, 0, 3, 1, 3, 0] = .take (.busLevels 3 1 3 0) ∧
    judgeFrame [0x11, 13, 0, 9, 0xFD, 5, 3, 0, 0, 0, 0, 0, 0, 0, 0, 0] = .take (.ovenCommission 9 (-3) 5 3 ⟨none, none, none⟩) ∧
    judgeFrame [0x24, 2, 0, 0x9C, 1] = .take (.recipePublish 412) ∧
    judgeFrame [0x30, 3, 0, 9, 0x9C, 1] = .take (.recipeResend 9 412) ∧
    judgeFrame [0x38, 1, 0, 9] = .take (.permitRevoke 9) ∧
    judgeFrame [0x40, 2, 0, 9, 2] = .take (.cleanOrder 9 2) ∧
    judgeFrame [0x4E, 5, 0, 9, 3, 1, 0x23, 4] = .take (.ticketOpen 9 3 (some 0x0423)) ∧
    judgeFrame [0x5F, 6, 0, 1, 0, 0x4E, 0, 7, 8] = .take (.imageBlock 1 19968 [7, 8]) ∧
    judgeFrame [0x68, 4, 0, 0, 0xF1, 0x53, 0x65] = .take (.clockSet 1700000000) ∧
    judgeFrame [0x71, 2, 0, 0xFE, 0x3F] = .take (.noticeEnable 0x3FFE) := by decide

/-! ### A new oven in slot 9 (section 11.1) -/

/-- Slots 1..8 are in service; slot 9 holds the oven given. -/
def firstNight (t : Nat) (o : Oven) : State :=
  withOven o { site with
    clock := t, ovens := Vector.ofFn fun i => if i.val < 8 then { state := .inService, serial := some i.val } else {} }

def claiming : Oven :=
  { state := .discovered, serial := some 0x3A0051A32C9E, model := 0x12, present := true, lastHeard := 10050
    comm := some (.hold, 10650) }

theorem test_claim :
    let t := run .claim (hearing { priority := 4, kind := 1, source := 63, tag := 0x1E
                                   data := [0x9E, 0x2C, 0xA3, 0x51, 0x00, 0x3A, 0x12] } (firstNight 10000 {}))
    ((t.oven 9).state, (t.oven 9).comm, (t.oven 9).present) = (.discovered, some (.hold, 10600), true) ∧
      notice t = [(.ovenDiscovered, 9, [0x9E, 0x2C, 0xA3, 0x51, 0x00, 0x3A, 0x12, 0])] := by decide

theorem test_oven_admit :
    let t := run (.ovenAdmit 9 3) (firstNight 10300 claiming)
    ((t.oven 9).state, (t.oven 9).comm, (t.oven 9).tries, (t.oven 9).group) = (.assigning, some (.reply, 10305), 1, 3) ∧
      t.urgent.map (fun f => (f.payload, f.dest, f.payload.tag)) = [(.assign 0x3A0051A32C9E 9, 62, 0x1E)] := by decide

def assigned : Oven := { claiming with state := .assigning, group := 3, tries := 1, comm := some (.reply, 10305) }

theorem test_assign_reply_deadline :
    let t := run (.assignReplyDeadline 9) (firstNight 10305 assigned)
    ((t.oven 9).comm, (t.oven 9).tries, t.urgent.length) = (some (.reply, 10310), 2, 1) := by decide

theorem test_assign_reply_third :
    let t := run (.assignReplyDeadline 9) (firstNight 10315 { assigned with tries := 3, comm := some (.reply, 10315) })
    ((t.oven 9).state, (t.oven 9).comm) = (.discovered, some (.hold, 10915)) ∧
      notice t = [(.commissionResult, 9, [4, 0, 0, 0, 0, 0, 0, 0])] := by decide

theorem test_assign_ack :
    let t := run .assignAck (hearing (frame 3 0 [0x9E, 0x2C, 0xA3, 0x51, 0x00, 0x3A])
      (firstNight 10307 { assigned with tries := 2, comm := some (.reply, 10310) }))
    ((t.oven 9).state, (t.oven 9).comm, (t.oven 9).tries, (t.oven 9).silence) =
      (.profiling, some (.profile, 10337), 0, some 10317) := by decide

def profiling : Oven :=
  { claiming with
    state := .profiling, group := 3, comm := some (.profile, 10337), silence := some 10317, cap0 := some profile9 }

theorem test_capability :
    let t := run .capability (hearing (frame 4 1 [0x12, 4, 2, 0x36, 1]) (firstNight 10311 profiling))
    ((t.oven 9).state, (t.oven 9).comm, (t.oven 9).profile, (t.oven 9).firmware) =
      (.awaitingSetup, none, some profile9, some ⟨4, 2, 310⟩) ∧
      notice t = [(.commissionResult, 9, [0, 0, 0, 0, 0, 0, 0, 0])] := by decide

/-- R36: a record that returns to DISCOVERED is PRESENT, also one that was SILENT. -/
theorem test_profile_deadline_silent :
    let t := run (.profileDeadline 9) (firstNight 10337 { profiling with present := false, silence := none })
    ((t.oven 9).state, (t.oven 9).present, (t.oven 9).comm) = (.discovered, true, some (.hold, 10937)) := by decide

def waiting : Oven :=
  { claiming with
    state := .awaitingSetup, group := 3, comm := none, silence := some 10908, profile := some profile9
    firmware := some ⟨4, 2, 310⟩ }

theorem test_oven_commission :
    let t := run (.ovenCommission 9 (-3) 5 3 noThresholds) (firstNight 10900 waiting)
    ((t.oven 9).state, (t.oven 9).comm, (t.oven 9).cavity, (t.oven 9).humidity, (t.oven 9).setup, t.port) =
      (.testing, some (.test, 14500), -3, 5, some { advise := 24000, lock := 40000, interval := 1440 },
        .ready { status := .ok, body := [] }) ∧
      t.answer.map OutFrame.payload = [.testOrder (-3) 5] := by decide

theorem test_oven_commission_clamps :
    let t := run (.ovenCommission 9 16 (-11) 3 { advise := some 5000, lock := some 500, interval := some 3000 })
      (firstNight 10900 waiting)
    ((t.oven 9).cavity, (t.oven 9).humidity, (t.oven 9).setup, t.port) =
      (15, -10, some { advise := 999, lock := 1000, interval := 2880 }, .ready { status := .clamped, body := [] }) := by
  decide

def testing : Oven :=
  { waiting with
    state := .testing, cavity := -3, humidity := 5, setup := some {}, comm := some (.test, 14500), silence := some 13205 }

theorem test_test_report :
    let t := run .testReport (hearing (frame 6 0 [0]) (firstNight 13200 testing))
    ((t.oven 9).state, (t.oven 9).hygiene.map fun h => (h.soil, h.lastFull, h.deadline, h.advance, h.state)) =
      (.inService, some (0, 13200, .armed 99600, .armed 92400, .ok)) ∧
      t.urgent.map OutFrame.payload = [.hygieneState .ok none false 0 40000 1440, .lockState {}] ∧
      notice t = [(.commissionResult, 9, [1, 0, 0, 0, 0, 0, 0, 0])] := by
  refine ⟨?_, ?_, ?_⟩ <;> decide

/-! ### Recipe 412 (sections 3.4, 4.7 and 11.2) -/

def draft412 : Recipe := { recipe412 with state := .draft, figures := none, refs := 0 }
def old412 : Recipe := { recipe412 with version := 2, refs := 4 }

/-- Oven 9 holds version 2 LOADED; version 3 is a finished draft. -/
def revising (t : Nat) (entries : List Entry) (l : List Recipe) : State :=
  withOven { oven9 with silence := some (t + 9) } { site with
    clock := t, recipes := l, loaded := vset (Vector.replicate 32 []) 9 entries }

theorem test_recipe_publish :
    let t := run (.recipePublish 412) (revising 179000 [{ number := 412, version := 2, state := .loaded }] [old412, draft412])
    t.recipes.map (fun r => (r.version, r.state, r.superseded, r.refs)) =
      [(2, .withdrawing, true, 4), (3, .active, false, 1)] ∧
    (t.loadedOf 9).map (fun e => (e.version, e.state)) = [(2, .stale), (3, .offered)] ∧
    t.port = .ready { status := .ok, body := [3, 2, 1, 1, 210, 0, 0xB8, 0x0B, 0, 3, 0xEE, 2, 0x76, 2, 90, 0, 0xBE, 5] } := by
  refine ⟨?_, ?_, ?_⟩ <;> decide +kernel

theorem test_recipe_publish_in_use :
    (run (.recipePublish 412) (revising 180200 [] [{ old412 with state := .withdrawing }, { recipe412 with refs := 3 },
      { draft412 with version := 4 }])).port = .ready { status := .inUse, body := [] } := by decide

theorem test_lookup :
    let t := run .lookup (hearing (frame 0x10 0 [0x9C, 1])
      (revising 178500 [{ number := 412, version := 2, state := .loaded }] [old412, draft412]))
    t.answer.map OutFrame.payload = [.lookupAnswer 412 2 true true false false] := by decide

/-- Section 4.3: the steps of 412 version 3 as sent to oven 9. -/
theorem test_sent_steps :
    (contentOf oven9 recipe412).map (fun t => (t.setpoint, t.humidity)) = [(162, 65), (207, 0), (95, 100)] ∧
      transferTotal recipe412 = 7 := by decide

/-- Section 4.7: slots 1 and 2 are bound, the pointer is 7 and oven 9 alone has a PENDING entry. -/
def firstLoad : State :=
  { revising 179000 [{ number := 412, version := 3 }] [recipe412] with
    pointer := 7
    slots := ((Vector.replicate 4 (none : Option DistSlot)).set 0 (some ⟨1, 1, 1, 1, 9⟩)).set 1 (some ⟨2, 1, 1, 1, 9⟩) }

theorem test_slot_choice :
    let t := slotChoice firstLoad
    t.pointer = 9 ∧ t.distSlot 3 = some ⟨9, 412, 3, 0, 7⟩ ∧
      (t.loadedOf 9).map (fun e => (e.state, e.deadline)) = [(.offered, some (.reply, 179005))] := by
  refine ⟨?_, ?_, ?_⟩ <;> decide +kernel

def offered : State :=
  { revising 179002 [{ number := 412, version := 3, state := .offered, crc := some 7, deadline := some (.reply, 179005) }]
      [recipe412] with
    pointer := 9, slots := (Vector.replicate 4 none).set 2 (some ⟨9, 412, 3, 0, 7⟩) }

theorem test_pull :
    let t := run .pull (hearing (frame 0x11 0 [0x9C, 1, 3]) offered)
    (t.loadedOf 9).map (fun e => (e.state, e.deadline)) = [(.sending, none)] ∧ t.segmentsQueued 3 = 7 ∧
      t.bulk.map (fun f => f.payload.tag) = [0, 1, 2, 3, 4, 5, 6] := by
  refine ⟨?_, ?_, ?_⟩ <;> decide +kernel

def sending : State :=
  { offered with
    clock := 179650, ovens := vset (Vector.replicate 32 {}) 9 { oven9 with silence := some 179659 }
    recipes := [{ old412 with state := .withdrawing, superseded := true }, recipe412]
    loaded := vset (Vector.replicate 32 []) 9 [{ number := 412, version := 2, state := .stale },
      { number := 412, version := 3, state := .sending, crc := some 0x1234, deadline := some (.progress, 179654) }] }

/-- Section 11.2, 179,650: version 3 is LOADED, version 2 UNLOADING with UNLOAD placed. -/
theorem test_load_done :
    let t := run .loadDone (hearing (frame 0x14 0 [0x9C, 1, 3, 0x34, 0x12]) sending)
    (t.loadedOf 9).map (fun e => (e.version, e.state, e.sends, e.deadline)) =
      [(2, .unloading, 1, some (.unload, 179655)), (3, .loaded, 0, none)] ∧
    t.distSlot 3 = none ∧ t.answer.map OutFrame.payload = [.unload 412 2] := by decide

/-- Section 4.7: an unequal CRC offers the entry again in its slot, with retries 1. -/
theorem test_load_done_unequal :
    let t := run .loadDone (hearing (frame 0x14 0 [0x9C, 1, 3, 0x35, 0x12]) sending)
    (t.loadedOf 9).map (fun e => (e.version, e.state, e.retries, e.deadline)) =
      [(2, .stale, 0, none), (3, .offered, 1, some (.reply, 179655))] ∧ (t.distSlot 3).isSome = true := by
  refine ⟨?_, ?_⟩ <;> decide +kernel

/-- Section 11.2, 182,003: the last entry of version 2 goes, and the version is freed. -/
theorem test_unload_done :
    let t := run .unloadDone (hearing (frame 0x15 0 [0x9C, 1, 2]) (revising 182003
      [{ number := 412, version := 2, state := .unloading, sends := 1, deadline := some (.unload, 182005) },
        { number := 412, version := 3, state := .loaded }]
      [{ old412 with state := .withdrawing, superseded := true, refs := 1 }, recipe412]))
    t.recipes.map Recipe.version = [3] ∧ (t.loadedOf 9).map Entry.version = [3] := by decide

/-- Section 11.2, 182,000: the rejoin closes permit 3047 and UNLOAD is placed twice. -/
theorem test_rejoin_unloads_twice :
    let t := run .rejoin { hearing (frame 2 1 [0x9E, 0x2C, 0xA3, 0x51, 4, 2, 0x36, 1]) (revising 182000
      [{ number := 412, version := 2, state := .stale, deferred := true }, { number := 412, version := 3, state := .loaded }]
      [{ old412 with state := .withdrawing, superseded := true, refs := 2 }, recipe412]) with
      rejoinHeld := [(9, { serial := 0x3A0051A32C9E, believed := 9, storeEmpty := false, imageStaged := false })]
      permits := vset (Vector.replicate 32 none) 9 (some
        { number := 3047, recipe := 412, version := 2, stopping := false, grantedAt := 179100, deadline := 183200
          lastBeforeClean := false, target := false, summaries := [] }) }
    t.answer.map OutFrame.payload = [.unload 412 2, .unload 412 2] ∧ t.permit 9 = none ∧
      t.recipes.map Recipe.refs = [1, 1] ∧
      notice t = [(.ovenPresence, 9, [2, 0xF0, 0xC6, 2, 0, 0, 0, 0]),
        (.hygiene, 9, [0, 2, 0xB2, 0x9D, 0, 0, 0, 0]), (.permitLapsed, 9, [0xE7, 0x0B, 0x9C, 1, 2, 1, 0, 0])] := by
  decide
/-! ### A lockout, a cook and a clean on oven 9 (sections 11.3 to 11.5) -/

def class3 : TicketClass :=
  { severity := .lockout, blocksCleaning := true, blocksUpdates := true, autoClear := false, e1 := 30, e2 := 120, e3 := 0
    cap := 4 }

def ticket518 : Ticket :=
  { number := 518, oven := 9, origin := .fault, code := some 0x0423, cls := 3, state := .open, level := 0
    escalation := some 187800, reference := none, occurrences := 1, reopens := 0, active := true, firstSeen := 186000
    lastSeen := 186000, verification := none, permit := none }

/-- Entry 2 absorbs 0x01xx, entry 5 sends 0x04xx of model 0x12 to class 3. -/
def lockout (t : Nat) (o : Oven) (tickets : List Ticket) : State :=
  withOven { o with silence := some (t + 9) } { kitchen with
    clock := t, ticketCounter := 518, tickets := tickets
    classes := kitchen.classes.set 3 class3
    routes := (kitchen.routes.set 2 { enabled := true, codePattern := 0x0100, codeMask := 0xFF00, absorb := true }).set 5
      { enabled := true, codePattern := 0x0400, codeMask := 0xFF00, modelPattern := 0x12, modelMask := 0xFF, target := 3 } }

def locked9 : Oven := { oven9 with locks := { ticket := true } }

theorem test_fault_opens :
    let t := run .fault (hearing (frame 0x40 0 [0x23, 4, 1]) (lockout 186000 oven9 []))
    t.tickets = [ticket518] ∧ (t.oven 9).locks = { ticket := true } ∧ (t.route 5).hits = 1 ∧ t.ticketCounter = 519 ∧
      t.urgent.map OutFrame.payload = [.lockState { ticket := true }] ∧
      notice t = [(.ticket, 518, [0, 9, 3, 3, 1, 0, 1, 0])] := by decide

theorem test_fault_cleared :
    let t := run .fault (hearing (frame 0x40 0 [0x23, 4, 0])
      (lockout 190000 locked9 [{ ticket518 with state := .acknowledged, escalation := none }]))
    t.tickets.map (fun x => (x.state, x.active, x.lastSeen)) = [(.acknowledged, false, 190000)] := by decide

/-- R146: with auto-clear set, a cleared report of a fault whose active flag is clear already changes last seen alone. -/
theorem test_fault_cleared_again :
    let t := run .fault (hearing (frame 0x40 0 [0x23, 4, 0])
      { lockout 190000 oven9 [{ ticket518 with active := false }] with
        classes := kitchen.classes.set 3 { class3 with severity := .service, autoClear := true } })
    t.tickets = [{ ticket518 with active := false, lastSeen := 190000 }] ∧ t.notices = [] := by decide

/-- R136: the routing example of section 7.3: what each of the four faults does. -/
theorem test_route_scan :
    let s := { lockout 186000 oven9 [] with
      classes := ((kitchen.classes.set 3 { class3 with cap := 0 }).set 1 { cap := 16 }).set 2 { cap := 0 }
      routes := (((kitchen.routes.set 2 { enabled := true, codePattern := 0x0100, codeMask := 0xFF00, absorb := true }).set 5
        { enabled := true, codePattern := 0x0400, codeMask := 0xFF00, modelPattern := 0x12, modelMask := 0xFF, target := 3 }).set
        6 { enabled := true, codePattern := 0x0400, codeMask := 0xFC00, target := 1 }).set 9 { enabled := true, target := 2 } }
    [(0x0107, 0x12), (0x0423, 0x12), (0x0423, 0x15), (0x2210, 0x15)].map
      (fun (x : Nat × Nat) => scanRoutes s x.1 x.2 (List.range 32) false) =
      [.absorbed 2, .taken 1 (some 6), .taken 1 (some 6), .overflow] := by decide +kernel

theorem test_escalation :
    let t := run (.escalationDeadline 518) (lockout 187800 locked9 [ticket518])
    t.tickets.map (fun x => (x.level, x.escalation)) = [(1, some 195000)] := by decide

theorem test_ticket_ack :
    let t := run (.ticketAck 518 (some [0x53, 0x56, 0x43])) (lockout 188100 locked9 [{ ticket518 with level := 1 }])
    t.tickets.map (fun x => (x.state, x.escalation, x.reference)) = [(.acknowledged, none, some [0x53, 0x56, 0x43])] ∧
      notice t = [] := by decide

theorem test_clean_ticket_hold :
    let t := run .cleanStart (hearing (frame 0x30 0 [1])
      (lockout 188300 locked9 [{ ticket518 with state := .acknowledged, escalation := none }]))
    t.urgent.map OutFrame.payload = [.cleanRefuse 1 5 .advised] := by decide

theorem test_ticket_resolve :
    let t := run (.ticketResolve 518) (lockout 196000 locked9 [{ ticket518 with state := .acknowledged, escalation := none }])
    t.tickets.map (fun x => (x.state, x.verification, x.permit)) = [(.verifying, some 210400, none)] ∧
      (t.oven 9).locks = {} ∧ t.urgent.map OutFrame.payload = [.lockState {}] := by decide

def verifying518 : Ticket :=
  { ticket518 with state := .verifying, level := 1, escalation := none, verification := some 210400 }

def cooking (p : Permit) : State :=
  { lockout 202600 oven9 [{ verifying518 with permit := some 3104 }] with
    permits := vset (Vector.replicate 32 none) 9 (some p), recipes := [{ recipe412 with refs := 2 }], ticketCounter := 519 }

def permit3104 : Permit :=
  { number := 3104, recipe := 412, version := 3, stopping := false, grantedAt := 200000, deadline := 204350
    lastBeforeClean := true, target := true, summaries := [] }

def summaries : List Summary :=
  [{ index := 1, mode := .combi, temperature := 165, humidity := 60, seconds := 1500 },
   { index := 2, mode := .dry, temperature := 210, humidity := 0, seconds := 600 },
   { index := 3, mode := .steam, temperature := 98, humidity := 100, seconds := 420 }]

theorem test_start_request :
    let t := run .startRequest (hearing (frame 0x20 0 [0x9C, 1, 3]) (lockout 200000 oven9 [verifying518]))
    t.permit 9 = some permit3104 ∧ t.tickets.map Ticket.permit = [some 3104] ∧ t.permitCounter = 3105 ∧
      t.recipes.map Recipe.refs = [2] ∧ t.urgent.map OutFrame.payload = [.permitGranted 3104 true {}] := by
  refine ⟨?_, ?_, ?_, ?_, ?_⟩ <;> decide +kernel

/-- R93: the same request again is answered with the same grant; with a summary held it is refused BUSY. -/
theorem test_start_again :
    ((run .startRequest (hearing (frame 0x20 0 [0x9C, 1, 3]) (cooking permit3104))).urgent.map OutFrame.payload,
      (run .startRequest (hearing (frame 0x20 0 [0x9C, 1, 3]) (cooking { permit3104 with summaries := summaries }))).urgent.map
        OutFrame.payload) = ([.permitGranted 3104 true {}], [.permitRefused 7 {}]) := by decide

theorem test_stage_summary :
    let t := run .stageSummary (hearing (frame 0x21 0 [0x20, 12, 0x23, 98, 0, 100, 0xA4, 1])
      (cooking { permit3104 with summaries := summaries.take 2 }))
    (t.permit 9).map Permit.summaries = some summaries := by decide

theorem test_cook_end :
    let t := run .cookEnd (hearing (frame 0x22 0 [0x20, 12, 0, 3]) (cooking { permit3104 with summaries := summaries }))
    t.permit 9 = none ∧ (t.oven 9).hygiene.map (fun h => (h.soil, h.state)) = some (40322, .due) ∧ (t.oven 9).cooks = 1 ∧
      t.tickets = [] ∧ t.recipes.map Recipe.refs = [1] ∧
      t.urgent.map OutFrame.payload = [.hygieneState .due none false 40322 40000 563] ∧
      notice t = [(.hygiene, 9, [0, 2, 0x82, 0x9D, 0, 0, 0, 0]), (.ticket, 518, [5, 9, 3, 3, 0, 1, 1, 0])] := by
  refine ⟨?_, ?_, ?_, ?_, ?_, ?_, ?_⟩ <;> decide

/-- Section 5, "Deadline first": the lapse charges 1,470 whatever the summaries say, and ticket 518 stays VERIFYING. -/
theorem test_permit_deadline :
    let t := run (.permitDeadline 9) (atClock 204350 (cooking { permit3104 with summaries := summaries }))
    t.permit 9 = none ∧ (t.oven 9).hygiene.map Hygiene.soil = some 40370 ∧
      t.tickets.map (fun x => (x.number, x.state, x.permit, x.code)) =
        [(518, .verifying, none, some 0x0423), (519, .open, none, some 0xFF04)] ∧
      t.notices.map (fun e => (e.kind, e.subject)) = [(.hygiene, 9), (.ticket, 519), (.permitLapsed, 9)] := by
  refine ⟨?_, ?_, ?_, ?_⟩ <;> decide

/-- Oven 9 at 40,322 with a clean in progress, or none (section 11.5). -/
def cleaningAt (t : Nat) (soil : Nat) (st : CleaningState) (residue : Bool) (c : Option Clean) : State :=
  withOven { oven9 with
      silence := some (t + 9)
      hygiene := some { hygiene9 with soil := soil, state := st, residue := residue, clean := c } } { kitchen with clock := t }

def standard (t : Nat) (phase : Option Phase) : Clean :=
  { programme := .standard, startedAt := t, phase := phase, deadline := t + 9000 }

theorem test_clean_start :
    let t := run .cleanStart (hearing (frame 0x30 0 [1]) (cleaningAt 203000 40322 .due false none))
    (t.oven 9).hygiene.map (fun h => (h.state, h.clean)) = some (.cleaning, some (standard 203000 none)) ∧
      t.urgent.map OutFrame.payload = [.hygieneState .cleaning none false 40322 40000 556, .cleanAllow .standard] := by
  decide +kernel

theorem test_clean_phase :
    let t := run .cleanPhase (hearing (frame 0x31 0 [1, 1])
      (cleaningAt 204200 40322 .cleaning false (some (standard 203000 (some .soak)))))
    (t.oven 9).hygiene.map Hygiene.clean = some (some (standard 203000 (some .detergent))) := by decide

theorem test_clean_aborted :
    let t := run .cleanEnd (hearing (frame 0x32 0 [1, 1])
      (cleaningAt 205100 40322 .cleaning false (some (standard 203000 (some .detergent)))))
    (t.oven 9).hygiene.map (fun h => (h.state, h.residue, h.soil, h.aborted)) = some (.residue, true, 40322, 1) ∧
      t.urgent.map OutFrame.payload = [.hygieneState .residue none true 40322 40000 521] ∧
      notice t = [(.hygiene, 9, [3, 3, 0x82, 0x9D, 2, 2, 0, 0])] := by
  refine ⟨?_, ?_, ?_⟩ <;> decide

theorem test_clean_completed :
    let t := run .cleanEnd (hearing (frame 0x32 0 [0, 0]) (cleaningAt 206300 40322 .cleaning true
      (some { programme := .rinse, startedAt := 205400, phase := some .dry, deadline := 208100 })))
    (t.oven 9).hygiene.map (fun h => (h.state, h.residue, h.soil, h.completed, h.deadline)) =
      some (.advised, false, 25202, 1, .armed 236400) ∧
      t.urgent.map OutFrame.payload = [.hygieneState .advised none false 25202 40000 501] := by decide

/-- Section 6: the STANDARD that ends at 237,100, the deadline having passed, leaves 3,151 and rearms the interval. -/
theorem test_credit_standard :
    let h := credited { site with clock := 237100 } (standard 230000 (some .dry))
      { hygiene9 with soil := 25202, state := .cleaning, deadline := .passed, advance := .passed }
    (h.soil, h.deadline, h.lastFull) = (3151, .armed 323500, 237100) := by decide

theorem test_advance_point :
    let t := run (.advancePoint 9) (cleaningAt 229200 25202 .advised false none)
    (t.oven 9).hygiene.map (fun h => (h.advance, h.state)) = some (.passed, .advised) ∧ t.urgent = [] := by decide

theorem test_clean_deadline :
    let t := run (.cleanDeadline 9) (cleaningAt 212000 40322 .cleaning false (some (standard 203000 (some .soak))))
    (t.oven 9).hygiene.map (fun h => (h.state, h.residue, h.clean)) = some (.due, false, none) ∧
      t.tickets.map Ticket.code = [some 0xFF05] := by decide

/-! ### The overnight campaign (sections 8.7 and 11.6) -/

def campaign2 : Campaign :=
  { model := 0x12, fromVersions := [⟨4, 2, 310⟩], toVersion := ⟨4, 3, 12⟩, imageSize := 30000, imageCrc := 0xCAFE
    windowStart := 1380, windowEnd := 300, concurrency := 1, state := .defined, entries := [] }

def entry9 : CEntry := { oven := 9, serial := 0x3A0051A32C9E, state := .waiting }
def entry17 : CEntry := { oven := 17, serial := 17, state := .skipped }
def entry20 : CEntry := { oven := 20, serial := 20, state := .waiting }

/-- Ovens 9, 17 and 20 of model 0x12, with campaign 2 and channel 1 as given. -/
def overnight (t : Nat) (o : Oven) (m : Campaign) (b : Option Binding) : State :=
  atClock t (withOven o ((((site.setOven 17 { oven9 with serial := some 17, firmware := some ⟨4, 3, 12⟩ }).setOven 20
    { oven9 with serial := some 20 }).setCampaign 2 (some m)).setChannel 1 b))

def running (e : CEntry) : Campaign := { campaign2 with state := .running, entries := [e, entry17, entry20] }

def bound (taken sent acked : Nat) (st : Stream) (timeout : Option Nat) : Binding :=
  { campaign := 2, oven := 9, stream := st, taken := taken, sent := sent, acked := acked, timeout := timeout, check := none
    buffer := List.replicate (taken - acked) 0 }

theorem test_campaign_start :
    let t := run (.campaignStart 2) (overnight 248000 oven9 campaign2 none)
    (t.campaign 2).map (fun m => (m.state, m.entries.map fun e => (e.oven, e.state, e.channel))) =
      some (.running, [(9, .transferring, some 1), (17, .skipped, none), (20, .waiting, none)]) ∧
    t.channel 1 = some (bound 0 0 0 .opening (some 248002)) ∧ t.port = .ready { status := .ok, body := [2, 1] } ∧
    t.image.map OutFrame.payload = [.imageBegin0 30000 0, .imageBegin1 0xCAFE ⟨4, 3, 12⟩] ∧
    notice t = [(.relay, 1, [0, 2, 9, 0, 0, 0, 0, 0])] := by
  refine ⟨?_, ?_, ?_, ?_, ?_⟩ <;> decide +kernel

def transferring9 : CEntry := { entry9 with state := .transferring, channel := some 1 }

/-- Section 11.6, 250,500: silence suspends the entry. -/
theorem test_silence_suspends :
    let t := run (.silenceDeadline 9) (overnight 250500 { oven9 with lastHeard := 250490, silence := some 250500 }
      (running transferring9) (some { bound 18006 18000 18000 .streaming none with timeout := some 250501 }))
    (t.centry 2 9).map (fun e => (e.state, e.deadline)) = some (.suspended, some 251100) ∧
      (t.channel 1).map (fun b => (b.stream, b.timeout, b.sent)) = some (.held, none, 18000) ∧
      t.notices.map (fun e => (e.kind, e.subject)) = [(.ovenPresence, 9), (.update, 9)] := by
  refine ⟨?_, ?_, ?_⟩ <;> decide +kernel

/-- Section 11.6, 250,830: one IMAGE_BEGIN at 18,000 stands, the presence entry counts 2, feeding goes on at what was taken. -/
theorem test_rejoin_reopens :
    let t := run .rejoin { hearing (frame 2 1 [0x9E, 0x2C, 0xA3, 0x51, 4, 2, 0x36, 1])
      (overnight 250830 { oven9 with present := false, silence := none }
        (running { transferring9 with state := .suspended, deadline := some 251100 }) (some (bound 18006 18000 18000 .held none)))
      with rejoinHeld := [(9, { serial := 0x3A0051A32C9E, believed := 9, storeEmpty := false, imageStaged := false })] }
    (t.centry 2 9).map (fun e => (e.state, e.deadline)) = some (.transferring, none) ∧
      t.image.map OutFrame.payload = [.imageBegin0 30000 18000, .imageBegin1 0xCAFE ⟨4, 3, 12⟩] ∧
      t.notices.map (fun e => (e.kind, e.subject, e.count)) = [(.ovenPresence, 9, 2), (.relay, 1, 2)] ∧
      (t.oven 9).refreshPending = true := by
  refine ⟨?_, ?_, ?_, ?_⟩ <;> decide +kernel

/-- Section 8.7: IMAGE_READY with 256 bytes taken places eight frames and arms the timeout. -/
theorem test_image_ready :
    let t := run .imageReady (hearing (frame 0x50 0 []) (overnight 248001 oven9 (running transferring9)
      (some (bound 256 0 0 .opening (some 248003)))))
    (t.channel 1).map (fun b => (b.stream, b.taken, b.sent, b.acked, b.timeout)) =
      some (.streaming, 256, 48, 0, some 248003) ∧ t.image.length = 8 := by
  refine ⟨?_, ?_⟩ <;> decide +kernel

theorem test_image_ack :
    let t := run .imageAck (hearing (frame 0x52 0 [120, 0, 0]) (overnight 248010 oven9 (running transferring9)
      (some (bound 256 252 0 .streaming (some 248011)))))
    (t.channel 1).map (fun b => (b.taken, b.sent, b.acked, b.buffer.length, b.timeout)) =
      some (256, 252, 120, 136, some 248012) := by decide +kernel

/-- Section 11.6, 253,400: the last acknowledgement arms the check deadline. -/
theorem test_image_ack_last :
    let t := run .imageAck (hearing (frame 0x52 0 [0x30, 0x75, 0]) (overnight 253400 oven9 (running transferring9)
      (some (bound 30000 30000 29994 .streaming (some 253401)))))
    (t.channel 1).map (fun b => (b.acked, b.check, b.timeout)) = some (30000, some 253430, none) := by decide +kernel

/-- Section 8.7: the go-back at the first acknowledgement timeout. -/
theorem test_go_back :
    let t := run (.acknowledgementTimeout 1) (overnight 248020 oven9 (running transferring9)
      (some (bound 400 378 120 .streaming (some 248020))))
    (t.channel 1).map (fun b => (b.taken, b.sent, b.acked)) = some (400, 168, 120) ∧ t.image.length = 8 ∧
      (t.centry 2 9).map CEntry.timeouts = some 1 := by
  refine ⟨?_, ?_, ?_⟩ <;> decide +kernel

/-- Section 8.7: the refusals of IMAGE_BLOCK and the bodies they carry. -/
theorem test_image_block :
    (run (.imageBlock 1 512 [1]) (overnight 248010 oven9 (running transferring9) (some (bound 256 0 0 .opening none)))).port =
      .ready { status := .offset, body := [0, 1, 0] } ∧
    (run (.imageBlock 1 0 [1, 2]) (overnight 248010 oven9 (running transferring9) (some (bound 0 0 0 .opening none)))).channel 1 =
      some { bound 2 0 0 .opening none with buffer := [1, 2] } := by
  refine ⟨?_, ?_⟩ <;> decide +kernel

/-- Section 11.6, 253,405: the image is whole; outside the window the apply waits, and channel 1 goes to oven 20. -/
theorem test_image_check :
    let t := run .imageCheck (hearing (frame 0x53 0 [0]) (overnight 253405 oven9 (running transferring9)
      (some { bound 30000 30000 30000 .streaming none with check := some 253430 })))
    (t.campaign 2).map (fun m => m.entries.map fun e => (e.oven, e.state, e.channel)) =
      some [(9, .staged, none), (17, .skipped, none), (20, .transferring, some 1)] ∧
      (t.channel 1).map Binding.oven = some 20 := by
  refine ⟨?_, ?_⟩ <;> decide +kernel

/-- Section 11.6, 255,600: the window opens. -/
theorem test_window_start :
    let t := run (.windowStart 2) (overnight 255600 oven9 (running { entry9 with state := .staged }) none)
    (t.centry 2 9).map (fun e => (e.state, e.deadline)) = some (.applying, some 256500) ∧
      (t.oven 9).locks = { update := true } ∧
      t.urgent.map OutFrame.payload = [.apply ⟨4, 3, 12⟩, .lockState { update := true }] := by
  refine ⟨?_, ?_, ?_⟩ <;> decide +kernel

/-- Section 11.6, 255,780: the settling REJOIN. -/
theorem test_rejoin_settles :
    let t := run .rejoin { hearing (frame 2 1 [0x9E, 0x2C, 0xA3, 0x51, 4, 3, 12, 0])
      (overnight 255780 { oven9 with locks := { update := true } }
        (running { entry9 with state := .applying, deadline := some 256500 }) none)
      with rejoinHeld := [(9, { serial := 0x3A0051A32C9E, believed := 9, storeEmpty := false, imageStaged := false })] }
    (t.centry 2 9).map CEntry.state = some .done ∧ (t.oven 9).locks = {} ∧ (t.oven 9).firmware = some ⟨4, 3, 12⟩ ∧
      (t.campaign 2).map Campaign.state = some .running := by
  refine ⟨?_, ?_, ?_, ?_⟩ <;> decide +kernel

/-! ### The clock and the resets (chapter 9) -/

/-- Section 9.4: oven 9 commissioned at 1,200, a ticket first seen at 900, the clock set from 3,700 to 1,700,000,000. -/
theorem test_clock_set :
    let h : Hygiene := { hygiene9 with lastFull := 1200, deadline := .armed 87600, advance := .armed 80400 }
    let t := run (.clockSet 1700000000) (withOven { oven9 with hygiene := some h, silence := none }
      { site with clock := 3700, clockUnset := true, tickets := [{ ticket518 with firstSeen := 900 }] })
    (t.clock, t.clockUnset) = (1700000000, false) ∧
      (t.oven 9).hygiene.map (fun h => (h.lastFull, h.deadline)) = some (1699997500, .armed 1700083900) ∧
      t.tickets.map Ticket.firstSeen = [1699997200] := by
  refine ⟨?_, ?_, ?_⟩ <;> decide +kernel

/-- Section 9.4: the step back to 1,000 saturates the past instants and keeps the seconds remaining. -/
theorem test_clock_set_back :
    let h : Hygiene := { hygiene9 with lastFull := 1699997500, deadline := .armed 1700083900, advance := .armed 1700076700 }
    let t := run (.clockSet 1000) (withOven { oven9 with hygiene := some h, silence := none } { site with clock := 1700000000 })
    (t.oven 9).hygiene.map (fun h => (h.lastFull, h.deadline)) = some (0, .armed 84900) ∧
      t.port = .ready { status := .ok, body := [0, 0xF1, 0x53, 0x65, 0xE8, 3, 0, 0] } := by
  refine ⟨?_, ?_⟩ <;> decide +kernel

/-- Section 9.6: the warm reset at 300,000 that ends at 310,800: oven 9's silence, its permit's lapse, the escalation. -/
theorem test_mains_failure :
    let t := run (.warmResetEnd true) { cooking { permit3104 with deadline := 305000 } with
      power := .warmReset .supply 300000, clock := 310800, transmitter := none, tickets := [{ ticket518 with
        number := 530, oven := 4, cls := 1, escalation := some 302000 }] }
    (t.oven 9).present = false ∧ t.permit 9 = none ∧ t.bitRate500 = true ∧
      t.tickets.map (fun x => (x.number, x.level, x.escalation)) = [(519, 0, some 314400), (530, 1, some 325200)] ∧
      t.notices.getLast?.map (fun e => (e.kind, e.detail)) = some (.siteRestarted, [1, 2, 0, 0, 0, 0, 0, 0]) := by
  refine ⟨?_, ?_, ?_, ?_, ?_⟩ <;> decide +kernel

/-- R184: a reset after the frame of a CLOCK_SET is complete leaves the clock set; another request has no effect (A59). -/
theorem test_warm_reset_after_clock_set :
    let t := run (.warmReset .supply) { site with port := .executing (.clockSet 5) }
    (t.clock, t.power, t.port) = (5, .warmReset .supply 5, .idle) ∧
      (run (.warmReset .supply) { site with siteOpen := false, port := .executing .siteOpen }).siteOpen = false := by
  refine ⟨?_, ?_⟩ <;> decide +kernel

/-- R187: a cold start leaves the state of reset, with BRSEL sampled. -/
theorem test_cold_start : exec (.coldStart true) kitchen = .next { State.reset with bitRate500 := true } := rfl

/-! ### Witnesses

For each statement with hypotheses, states and operands that meet them together, clause by clause, at the edges of the ranges. -/

theorem vget_all {α : Type} {k : Nat} {P : α → Prop} (v : Vector α k) (d : α) (hd : P d) (h : ∀ x ∈ v.toList, P x) (n : Nat) :
    P (vget v n d) := by
  cases n with
  | zero => exact hd
  | succ m =>
    simp only [vget]
    by_cases hm : m < k
    · rw [Vector.getElem?_eq_getElem hm]
      exact h _ (by simp)
    · rw [Vector.getElem?_eq_none (by omega)]
      exact hd

theorem settled_of_held {s : State} (h : s.held = true) : s.Settled := by simp [State.Settled, h]

theorem noCampaigns_of {s : State} (h : ∀ m ∈ s.campaigns.toList, m = none) : s.NoCampaigns :=
  fun c => vget_all (P := (· = none)) s.campaigns none rfl h c

theorem noOffers_of {s : State} (h : ∀ l ∈ s.loaded.toList, l.find? (fun e => e.state = .pending && !e.noRoom) = none) :
    s.NoOffers := fun n => vget_all (P := fun l => l.find? (fun e => e.state = .pending && !e.noRoom) = none) s.loaded [] rfl h n

/-- The six parts of `State.Hears`, where one frame waits. -/
theorem hears_of {s : State} {k : InKind} {f : InFrame}
    (h : s.Live ∧ s.inbound = [f] ∧ acceptedKind f = some k ∧ isSlot f.source ∧
      (s.oven f.source).state.accepted = true ∧ (s.oven f.source).present = true) : s.Hears k f [] :=
  ⟨h.1, h.2.1, h.2.2.1, h.2.2.2.1, h.2.2.2.2.1, h.2.2.2.2.2⟩

/-- An IDLE port serves every request. -/
theorem serves_idle {s : State} (live : s.Live) (h : s.port = .idle) (i : Instr) : s.Serves i := ⟨live, .inl h⟩

theorem witness_IdleSecondQueuesWhatFallsDue :
    let s := { kitchen with clock := 4294967294 }
    s.Live ∧ s.pending = [] ∧ (∀ i, s.port ≠ .executing i) ∧ s.inbound = [] ∧
      ∃ a ∈ s.alarms, a.instant ≤ s.clock + 1 ∧ a.command = .silenceDeadline 9 := by
  refine ⟨by decide, rfl, nofun, rfl, ?_⟩
  decide +kernel

theorem witness_IdleDispatchTakesTheHeadFrame :
    let s := hearing (frame 5 0 [0, 0, 20, 0]) kitchen
    s.Live ∧ s.pending = [] ∧ (∀ i, s.port ≠ .executing i) ∧ s.inbound = [frame 5 0 [0, 0, 20, 0]] :=
  ⟨by decide, rfl, nofun, rfl⟩

theorem witness_WarmResetLosesTheMainDomain : kitchen.power = .running ∧
    (∀ v, { kitchen with port := .executing .siteOpen }.port ≠ .executing (.clockSet v)) ∧
    { kitchen with port := .executing (.clockSet 5) }.Live ∧
    { kitchen with port := .executing (.clockSet 5) }.port = .executing (.clockSet 5) := ⟨rfl, nofun, by decide, rfl⟩

theorem witness_WarmResetEndRestarts : ∀ cause ∈ [ResetCause.resetPin, .supply, .oscillator],
    let s := { kitchen with power := .warmReset cause 200000, clock := 4294967294 }
    s.power = .warmReset cause 200000 ∧ s.clock < Config.maxClock := by decide

theorem witness_HeldInResetTakesNoEvent : isReset (.frameReceive wfFrame) = false ∧
    { kitchen with power := .warmReset .supply 0 }.power ≠ .running ∧ { kitchen with power := .coldHeld }.power ≠ .running ∧
    ∀ b, Instr.warmResetEnd true ≠ .coldStart b := by
  refine ⟨rfl, by decide, by decide, nofun⟩

theorem witness_FrameReceiveFillsTheBuffer :
    let full := fun k => { site with inbound := List.replicate k (frame 5 0 []), rec_ := 128, tec := 127 }
    site.Live ∧ site.busOff = false ∧ (full 15).Live ∧ (full 15).busOff = false ∧ (full 15).inbound.length < 16 ∧
      (full 16).Live ∧ (full 16).busOff = false ∧ 16 ≤ (full 16).inbound.length := by decide

theorem witness_FrameDiscardCountsTheFrame : ∀ f ∈ [frame 0x07 0 [], frame 1 0x1F [0x9E, 0, 0, 0, 0, 0, 1],
      frame 0x21 0 [0, 0, 0x61, 0, 0, 0, 0, 0], frame 0x40 0 [0, 0, 2], frame 0x40 0 [0, 0xFF, 1]],
    let s := hearing f site
    s.Live ∧ s.inbound = [f] ∧ acceptedKind f = none := by decide

theorem witness_ErrorCountsMove :
    let off := { site with tec := 255, busOff := true }
    site.Live ∧ site.busOff = false ∧ site.transmitter.isSome = true ∧ off.Live ∧ off.busOff = true := by decide

theorem witness_ConfinementFollowsTheCounts :
    let s := fun t r b => { site with tec := t, rec_ := r, busOff := b }
    ((s 127 127 false).busOff = false ∧ (s 127 127 false).tec ≤ 127 ∧ (s 127 127 false).rec_ ≤ 127) ∧
      ((s 128 0 false).busOff = false ∧ 128 ≤ (s 128 0 false).tec) ∧
      ((s 0 128 false).busOff = false ∧ 128 ≤ (s 0 128 false).rec_) ∧ (s 255 0 true).busOff = true ∧
      0 ≠ (s 128 0 false).confinement := by decide

/-- ANSWER holds two frames and is the highest queue that is not empty. -/
def answering : State := { fourChoices with transmitter := some onWire, bulk := [], image := [] }

theorem answering_chooses : answering.Chooses .answer (queued (.lookupAnswer 1 0 false false false false) 4)
    [queued (.offer 1 1 1 0) 9] := ⟨rfl, by intro r; cases r <;> decide⟩

theorem witness_FrameSentTakesTheHighestQueue : site.Live ∧ site.busOff = false ∧ site.transmitter.isSome = true ∧
    (∀ q, site.queue q = []) ∧ answering.Live ∧ answering.busOff = false ∧ answering.transmitter.isSome = true ∧
    (∃ f rest, answering.Chooses .answer f rest ∧ f.mark = .oven 4) :=
  ⟨by decide, rfl, rfl, by intro q; cases q <;> rfl, by decide, rfl, rfl, _, _, answering_chooses, rfl⟩

/-- A recipe of 16 steps, whose transfer has 20 frames, 8 of them placed. -/
def long412 : Recipe := { recipe412 with steps := List.replicate 16 (steps412.headD
  { mode := .dry, setpoint := 30, humidity := 0, fan := 1, ending := .time 1, prompt := false }) }

def streaming : State :=
  { site with
    recipes := [long412], bulk := (List.range 8).map segment
    slots := (Vector.replicate 4 none).set 0 (some ⟨9, 412, 3, 8, 20⟩) }

theorem witness_SegmentStreamIsRefilled : streaming.Live ∧ streaming.busOff = false ∧ streaming.transmitter.isSome = true ∧
    streaming.Chooses .bulk (segment 0) ((List.range 7).map fun i => segment (i + 1)) ∧ (segment 0).mark = .distSlot 1 ∧
    streaming.distSlot 1 = some ⟨9, 412, 3, 8, 20⟩ ∧ streaming.recipe 412 3 = some long412 ∧
    (segment 0).payload.tag + 1 ≠ 20 ∧
    ((List.range 7).map fun i => segment (i + 1)).countP (fun g => g.mark = .distSlot 1) = 7 ∧
    ((List.range 7).map fun i => segment (i + 1)).length < 32 :=
  ⟨by decide, rfl, rfl, ⟨rfl, by intro r; cases r <;> decide⟩, rfl, rfl, by decide, by decide, by decide, by decide⟩

theorem witness_BusOffRecoveryResumes :
    let off := fun s : State => { s with tec := 255, busOff := true }
    ((off site).Live ∧ (off site).busOff = true ∧ (off site).transmitter.isSome = true) ∧
      ((off { site with transmitter := none }).transmitter = none ∧ ∀ q, (off { site with transmitter := none }).queue q = []) ∧
      ∃ f rest, (off { answering with transmitter := none }).Chooses .answer f rest ∧ f.mark = .oven 4 :=
  ⟨by decide, ⟨rfl, by intro q; cases q <;> rfl⟩, _, _, ⟨rfl, by intro r; cases r <;> decide⟩, rfl⟩

theorem witness_PlacingAFrame :
    let lock : OutFrame := ovenFrame .registry 9 (.lockState {})
    let same := fun g : OutFrame => decide (g.payload.kind = lock.payload.kind) && decide (g.dest = lock.dest)
    ({ site with urgent := [lock] }.queue lock.payload.kind.queue).any same = true ∧
      ({ site with urgent := List.replicate 7 onWire }.queue lock.payload.kind.queue).any same = false ∧
      ({ site with urgent := List.replicate 7 onWire }.queue .urgent).length = 7 ∧
      ({ site with urgent := List.replicate 8 onWire }.queue .urgent).length = 8 ∧
      (queued (.lookupAnswer 1 0 false false false false) 4).payload.kind = .lookupAnswer ∧
      ({ site with answer := List.replicate 16 onWire }.queue .answer).length = 16 := by decide

theorem witness_BusLevelsReplacesTheLevels : site.Serves (.busLevels 3 3 3 3) ∧ site.Serves (.busLevels 4 0 0 0) ∧
    { site with port := .executing (.busLevels 0 0 0 0) }.Serves (.busLevels 0 0 0 0) := by decide

theorem witness_BusStatusReportsAndClears : site.Serves (.busStatus true) ∧ site.Serves (.busStatus false) := by decide

theorem witness_RequestFramesAreReadBack :
    (isRequest (.ovenRestore 1 0 wfRecord) = true ∧ (Instr.ovenRestore 1 0 wfRecord).WellFormed ∧
      requestLength (.ovenRestore 1 0 wfRecord) ≤ 512) ∧
    (isRequest (.campaignPut 4 wfCampaign) = true ∧ (Instr.campaignPut 4 wfCampaign).WellFormed ∧
      requestLength (.campaignPut 4 wfCampaign) ≤ 512) ∧
    ∀ l : List Byte, l.length = 508 → isRequest (.imageBlock 2 0 l) = true ∧ (Instr.imageBlock 2 0 l).WellFormed ∧
      requestLength (.imageBlock 2 0 l) ≤ 512 := by
  refine ⟨by decide, ⟨by decide, by decide, by decide⟩, fun l h => ?_⟩
  simp [isRequest, Instr.WellFormed, requestLength, requestParts, h, FitsBytes, le]

theorem witness_WriteIsTakenAndJudged :
    (site.Live ∧ site.port = .idle ∧ judgeFrame [] = .answer .badLength ∧ judgeFrame [0x18, 0, 0] = .take .siteOpen ∧
      { site with port := .ready ⟨.ok, []⟩ }.port ≠ .idle ∧ { site with port := .executing .siteOpen }.port ≠ .idle) ∧
    ([0x18, 0] : List Byte).length < 3 ∧ 512 < numAt [0x18, 1, 2] 1 2 ∧
    ([0x18, 1, 0] : List Byte).length ≠ 3 + numAt [0x18, 1, 0] 1 2 ∧
    (3 ≤ ([0x03, 0, 0] : List Byte).length ∧ ([0x03, 0, 0] : List Byte).length = 3 + numAt [0x03, 0, 0] 1 2) ∧
    judgeFrame [0x18, 0, 0] = .take .siteOpen := by decide

theorem witness_ReadShiftsTheResponse : site.Live ∧ { site with port := .ready ⟨.clamped, []⟩ }.port = .ready ⟨.clamped, []⟩ ∧
    (∀ r, site.port ≠ .ready r) ∧ 0x56 ≠ 0x57 ∧ 0x53 ≠ 0x52 := ⟨by decide, rfl, nofun, by decide, by decide⟩

theorem witness_BusyPortLosesTheRequest :
    ∀ p ∈ [Port.ready ⟨.ok, []⟩, .executing .ovenList],
      let s := { site with port := p }
      isRequest .siteOpen = true ∧ s.Live ∧ s.port ≠ .idle ∧ s.port ≠ .executing .siteOpen := by decide

theorem witness_RefusedRequestChangesNothing : isRequest .siteOpen = true ∧ site.Serves .siteOpen ∧
    (run .siteOpen site).port = .ready ⟨.siteState, []⟩ := by decide

theorem witness_ListsOnlyAnswer : kitchen.Serves .ovenList ∧ kitchen.Serves .barList ∧ kitchen.Serves .distStatus ∧
    kitchen.Serves .permitList ∧ kitchen.Serves .classRead ∧ kitchen.Serves .relayStatus ∧ kitchen.Serves .clockRead := by
  decide

theorem witness_RecordReadsOnlyAnswer : ∀ n ∈ [0, 1, 32, 33, 412],
    kitchen.Serves (.ovenRead n) ∧ kitchen.Serves (.recipeRead n 255) ∧ kitchen.Serves (.recipeList n 0) ∧
      kitchen.Serves (.loadedSetRead n 63) ∧ kitchen.Serves (.permitRead n) ∧ kitchen.Serves (.ticketRead n) ∧
      kitchen.Serves (.ticketList n (some 32)) ∧ kitchen.Serves (.campaignRead n) := by decide

theorem witness_ClockSetKeepsRemainingTimes : kitchen.Serves (.clockSet 4000000000) ∧ kitchen.Serves (.clockSet 4000000001) ∧
    kitchen.NoCampaigns ∧ (∀ a ∈ kitchen.alarms, a.instant - kitchen.clock ≤ 294967295) ∧ kitchen.alarms.length = 3 := by
  refine ⟨by decide, by decide, noCampaigns_of (by decide), ?_, ?_⟩ <;> decide +kernel

theorem witness_NoticeReadTakesTheHead : site.Serves .noticeRead ∧ site.notices = [] ∧ State.reset.Serves .noticeRead ∧
    State.reset.notices = [coldNotice] := by decide

/-- 63 ordinary notices, of 63 tickets. -/
def crowded : List Notice :=
  (List.range 63).map fun i => { coldNotice with kind := .ticket, subject := i + 1 }

theorem witness_RaisePutsOneNotice :
    (NoticeKind.hygiene ≠ .resync ∧ ([0, 2, 1, 1, 0, 0, 0, 0] : List Byte).length ≤ 8 ∧ NoticeKind.hygiene ≠ .siteRestarted) ∧
    ({ site with enables := 0 }.enables.getLsbD NoticeKind.hygiene.code = false ∧
      site.enables.getLsbD NoticeKind.hygiene.code = true) ∧
    (∃ e ∈ crowded, e.kind = .ticket ∧ e.subject = 63) ∧
    ((¬ ∃ e ∈ crowded.tail, e.kind = .hygiene ∧ e.subject = 9) ∧
      ¬ 63 ≤ crowded.tail.countP (fun e => e.kind ≠ .resync)) ∧
    ((¬ ∃ e ∈ crowded, e.kind = .hygiene ∧ e.subject = 9) ∧ 63 ≤ crowded.countP (fun e => e.kind ≠ .resync) ∧
      ∀ e ∈ crowded, ¬ (e.kind = .resync ∧ e.subject = 0)) ∧
    ∃ e ∈ crowded ++ [{ coldNotice with kind := .resync }], e.kind = .resync ∧ e.subject = 0 := by
  refine ⟨?_, ?_, ?_, ?_, ?_, ?_⟩ <;> decide +kernel

theorem witness_NoticeEnableRecordsTheSet :
    let s := { site with enables := BitVec.ofNat 16 0xDFFF, tec := 128 }
    65535 < 65536 ∧ s.Serves (.noticeEnable 65535) ∧
      (∀ k ∈ [3, 7, 8], s.enables.getLsbD k = true ∨ (65535).testBit k = false) ∧
      (s.enables.getLsbD 13 = false ∧ (65535).testBit 13 = true ∧ s.confinement ≠ 0) := by decide

/-- The site with every slot in service: 32 ovens. -/
def fullHouse : State := { site with ovens := Vector.ofFn fun i => { state := .inService, serial := some (i.val + 1) } }

theorem witness_BarUnbarAndSiteOpen :
    ∀ s ∈ [site, { site with barred := [5] }, { site with barred := [1, 2, 3, 4, 6, 7, 8, 9], siteOpen := false }],
      s.Serves (.bar 5) ∧ s.Serves (.unbar 5) ∧ s.Serves .siteOpen := by decide

theorem witness_OvenAdmitAssigns :
    let s := firstNight 10300 claiming
    (∀ x ∈ [(0, 0), (33, 0), (9, 8), (10, 7), (1, 7), (9, 7)], s.Serves (.ovenAdmit x.1 x.2)) ∧
      (s.oven 10).state = .vacant ∧ (s.oven 1).state = .inService ∧ (s.oven 9).state = .discovered ∧
      (s.oven 9).serial = some 0x3A0051A32C9E ∧ s.Settled :=
  ⟨by decide, by decide, by decide, by decide, by decide, settled_of_held rfl⟩

theorem witness_OvenCommissionStartsTheTest :
    let s := firstNight 10900 waiting
    (∀ n ∈ [0, 33, 10, 1, 9], s.Serves (.ovenCommission n 16 (-11) 7 { noThresholds with lock := some 999 })) ∧
      (s.oven 10).state = .vacant ∧ (s.oven 1).state = .inService ∧ (s.oven 9).state = .awaitingSetup ∧ s.Settled :=
  ⟨by decide, by decide, by decide, by decide, settled_of_held rfl⟩

theorem witness_OvenDismissVacates :
    let s := firstNight 10300 claiming
    let full := { s with barred := [1, 2, 3, 4, 5, 6, 7, 8] }
    (∀ n ∈ [0, 33, 10, 1, 9], s.Serves (.ovenDismiss n true) ∧ full.Serves (.ovenDismiss n true)) ∧
      (s.oven 10).state = .vacant ∧ (s.oven 1).state = .inService ∧
      ((s.oven 9).state ≠ .vacant ∧ (s.oven 9).state ≠ .inService ∧ (s.oven 9).state ≠ .retiring ∧
        (s.oven 9).serial = some 0x3A0051A32C9E) ∧
      (0x3A0051A32C9E ∉ full.barred ∧ 8 ≤ full.barred.length) ∧ s.NoTickets 9 ∧ s.Settled ∧ s.barred.length < 8 :=
  ⟨by decide, by decide, by decide, by decide, by decide, by simp [State.NoTickets, firstNight, withOven, site, State.setOven, State.reset],
    settled_of_held rfl, by decide⟩

/-- Oven 9 in service, with nothing loaded. -/
def bare (o : Oven) : State := withOven o site

theorem bare_calm (o : Oven) : (bare o).Settled ∧ (bare o).NoCampaigns ∧ (bare o).NoOffers ∧ ∀ n, (bare o).NoTickets n :=
  ⟨settled_of_held rfl, noCampaigns_of (by simp [bare, withOven, site, State.setOven, State.reset]),
    noOffers_of (by simp [bare, withOven, site, State.setOven, State.reset]),
    by simp [State.NoTickets, bare, withOven, site, State.setOven, State.reset]⟩

theorem witness_OvenRetireLeavesService :
    let s := bare oven9
    (∀ bar, s.Serves (.ovenRetire 9 bar)) ∧ isSlot 9 ∧
      ((bare waiting).Serves (.ovenRetire 9 true) ∧ ((bare waiting).oven 9).state = .awaitingSetup) ∧
      8 ≤ { s with barred := [1, 2, 3, 4, 5, 6, 7, 8] }.barred.length ∧
      ((s.oven 9).state = .inService ∧ (s.oven 9).serial = some 0x3A0051A32C9E ∧ s.barred.length < 8) ∧
      (s.Settled ∧ s.NoCampaigns ∧ s.NoOffers ∧ ∀ n, s.NoTickets n) ∧ s.loadedOf 9 = [] ∧ s.boundSlot 9 = none ∧
      s.permit 9 = none ∧ 0x3A0051A32C9E ∉ s.barred ∧ (0x3A0051A32C9E ∈ { s with barred := [0x3A0051A32C9E] }.barred) ∧
      ((s.setPermit 9 (some permit3104)).permit 9).isSome = true :=
  ⟨by decide, by decide, by decide, by decide, by decide, bare_calm _, by decide, by decide, by decide, by decide, by decide,
    by decide⟩

theorem witness_OvenSetRecordsWhatIsGiven :
    let s := bare oven9
    let t : Thresholds := { noThresholds with lock := some 38901, interval := some 2880 }
    let lock := max 1000 (min 65535 (t.lock.getD hygiene9.settings.lock))
    let h' : Hygiene := { hygiene9 with
      settings := { advise := min (lock - 1) 24000, lock := lock, interval := 2880 }, deadline := .armed 322800
      advance := .armed 315600 }
    s.Serves (.ovenSet 9 (some 7) (some 16) none t) ∧ (∀ x ∈ some 7, x ≤ 7) ∧ isSlot 9 ∧ (s.oven 9).state = .inService ∧
      (s.oven 9).hygiene = some hygiene9 ∧ s.loadedOf 9 = [] ∧ s.NoOffers ∧ (∀ r ∈ s.recipes, r.state ≠ .active) ∧
      (t.advise.isSome = true ∨ t.lock.isSome = true ∨ t.interval.isSome = true) ∧ h'.judged = hygiene9.state :=
  ⟨by decide, by decide, by decide, by decide, by decide, by decide, (bare_calm _).2.2.1, by decide, by decide, by decide⟩

theorem witness_LocksAreToldToTheOven :
    let s := bare oven9
    let locked := bare { oven9 with manualLock := true, locks := { manual := true } }
    (∀ n ∈ [0, 33, 1, 9], s.Serves (.ovenLock n) ∧ s.Serves (.ovenUnlock n)) ∧ (s.oven 1).state = .vacant ∧
      ((s.oven 9).state ≠ .vacant ∧ (s.oven 9).manualLock = false ∧ (s.oven 9).locks = s.lockView 9 ∧ s.Settled ∧
        s.campaignWhere 9 (fun x => x = .staged) = none) ∧
      (locked.oven 9).manualLock = true ∧ (locked.oven 9).locks = locked.lockView 9 ∧ locked.Serves (.ovenUnlock 9) :=
  ⟨by decide, by decide, ⟨by decide, by decide, by decide, settled_of_held rfl, by decide⟩, by decide, by decide, by decide⟩

theorem witness_OvenRestoreRecreatesTheOven :
    let s := { site with siteOpen := false }
    (site.Serves (.ovenRestore 9 5 wfRecord) ∧ site.siteOpen = true) ∧
      ({ s with clockUnset := true }.Serves (.ovenRestore 9 5 wfRecord) ∧ { s with clockUnset := true }.clockUnset = true) ∧
      (s.Serves (.ovenRestore 33 5 wfRecord) ∧ 7 < wfRecord.group) ∧
      ((withOven oven9 s).oven 9).serial ≠ some 5 ∧
      (s.Serves (.ovenRestore 32 5 { wfRecord with group := 7 }) ∧ s.siteOpen = false ∧ s.clockUnset = false ∧ isSlot 32 ∧
        (s.oven 32).state = .vacant ∧ (∀ k, (s.oven k).serial ≠ some 5) ∧ s.Settled ∧ s.NoCampaigns ∧ s.NoTickets 32 ∧
        s.NoOffers ∧ s.loadedOf 32 = [] ∧ ∀ x ∈ s.recipes, x.state ≠ .active) :=
  ⟨by decide, by decide, by decide, by decide, by decide, rfl, rfl, by decide, by decide,
    fun k => vget_all (P := fun o : Oven => o.serial ≠ some 5) _ _ (by decide) (by decide) k, settled_of_held rfl,
    noCampaigns_of (by decide), by simp [State.NoTickets, site, State.reset], noOffers_of (by decide), by decide, by decide⟩

def claimFrame9 : InFrame :=
  { priority := 4, kind := 1, source := 63, tag := 0x1E, data := [0x9E, 0x2C, 0xA3, 0x51, 0x00, 0x3A, 0x12] }

theorem witness_ClaimIsAnsweredBySerial :
    let s := fun o => hearing claimFrame9 (firstNight 10050 o)
    (∀ o ∈ [{}, claiming, assigned, waiting], (s o).Live ∧ (s o).inbound = [claimFrame9] ∧
      acceptedKind claimFrame9 = some .claim) ∧ (s {}).Settled ∧
      numAt claimFrame9.data 0 6 ∈ { s {} with barred := [0x3A0051A32C9E] }.barred ∧
      ((s {}).barred = [] ∧ (s {}).slotOfSerial 0x3A0051A32C9E = none ∧ (s {}).lowestVacant = some 9) ∧
      ((hearing claimFrame9 fullHouse).slotOfSerial 0x3A0051A32C9E = none ∧
        (hearing claimFrame9 fullHouse).lowestVacant = none) ∧
      ∀ o ∈ [claiming, assigned, waiting], (s o).slotOfSerial 0x3A0051A32C9E = some 9 ∧ ((s o).oven 9).present = true :=
  ⟨by decide, settled_of_held rfl, by decide, by decide, by decide +kernel, by decide⟩

theorem witness_ReportsFillTheRecord :
    (let f := frame 3 0 [0x9E, 0x2C, 0xA3, 0x51, 0x00, 0x3A];
      (hearing f (bare assigned)).Hears .assignAck f [] ∧ assigned.state = .assigning ∧
        assigned.serial = some (numAt f.data 0 6) ∧ (hearing f (bare waiting)).Hears .assignAck f [] ∧
        waiting.state ≠ .assigning) ∧
    (hearing (frame 5 0 [3, 1, 200, 0]) (bare oven9)).Hears .status (frame 5 0 [3, 1, 200, 0]) [] ∧
    (let f := frame 4 0 [0x2C, 1, 1, 1, 2, 120];
      (hearing f (bare assigned)).Hears .capability f [] ∧ (hearing f (bare waiting)).Hears .capability f [] ∧
        waiting.cap1 = none ∧ (hearing f (bare { waiting with state := .profiling, cap1 := some (0x12, ⟨4, 2, 310⟩) })).Hears
          .capability f []) ∧
    (let f := frame 4 1 [0x12, 4, 2, 0x36, 1];
      (hearing f (bare { oven9 with cap0 := some profile9 })).Hears .capability f [] ∧ oven9.profile = some profile9 ∧
        (hearing (frame 4 2 []) (bare oven9)).Hears .capability (frame 4 2 []) []) :=
  ⟨⟨hears_of (by decide), rfl, by decide, hears_of (by decide), by decide⟩, hears_of (by decide),
    ⟨hears_of (by decide), hears_of (by decide), rfl, hears_of (by decide)⟩, hears_of (by decide), rfl, hears_of (by decide)⟩

theorem witness_TestReportDecidesService :
    let s := fun b o => hearing (frame 6 0 [b]) (bare o)
    (s 0 oven9).Hears .testReport (frame 6 0 [0]) [] ∧ oven9.state ≠ .testing ∧
      ((s 1 testing).Hears .testReport (frame 6 0 [1]) [] ∧ testing.state = .testing ∧ numAt [1] 0 1 ≠ 0) ∧
      ((s 0 testing).Hears .testReport (frame 6 0 [0]) [] ∧ numAt [0] 0 1 = 0 ∧ (s 0 testing).Settled ∧
        (s 0 testing).NoCampaigns ∧ (s 0 testing).NoOffers ∧ (s 0 testing).loadedOf 9 = [] ∧
        ∀ r ∈ (s 0 testing).recipes, r.state ≠ .active) :=
  ⟨hears_of (by decide), by decide, ⟨hears_of (by decide), rfl, by decide⟩, hears_of (by decide), by decide,
    settled_of_held rfl, (bare_calm testing).2.1, (bare_calm testing).2.2.1, by decide, by decide⟩

def heldRejoin : Rejoin0 := { serial := 0x3A0051A32C9E, believed := 8, storeEmpty := false, imageStaged := true }

theorem witness_RejoinTellsTheOven :
    let s := fun tag => { hearing (frame 2 tag [0x9E, 0x2C, 0xA3, 0x51, 4, 2, 0x36, 1]) (bare oven9) with
      rejoinHeld := [(9, heldRejoin)] }
    (∀ tag ∈ [0, 1, 2, 127], (s tag).Live ∧ acceptedKind (frame 2 tag [0x9E, 0x2C, 0xA3, 0x51, 4, 2, 0x36, 1]) = some .rejoin) ∧
      (s 1).Settled ∧ { s 1 with rejoinHeld := [] }.heldRejoin 9 = none ∧ (s 1).heldRejoin 9 = some heldRejoin ∧
      numAt [0x9F, 0x2C, 0xA3, 0x51] 0 4 ≠ heldRejoin.serial % 4294967296 ∧
      numAt [0x9E, 0x2C, 0xA3, 0x51] 0 4 = heldRejoin.serial % 4294967296 ∧
      { hearing (frame 2 1 []) site with barred := [0x3A0051A32C9E] }.slotOfSerial 0x3A0051A32C9E = none ∧
      (s 1).slotOfSerial 0x3A0051A32C9E = some 9 ∧
      ((s 1).oven 9).state = .inService ∧ ((s 1).oven 9).present = true ∧ ((s 1).oven 9).hygiene = some hygiene9 ∧
      hygiene9.clean = none ∧ (s 1).permit 9 = none ∧ (s 1).NoCampaigns ∧ (s 1).NoOffers ∧ (s 1).loadedOf 9 = [] ∧
      ∀ x ∈ (s 1).recipes, x.state ≠ .active :=
  ⟨by decide, settled_of_held rfl, by decide, by decide, by decide, by decide, by decide, by decide, by decide, by decide,
    by decide, rfl, by decide, (bare_calm oven9).2.1, (bare_calm oven9).2.2.1, by decide, by decide⟩

theorem witness_CommissioningDeadlines : ∀ x ∈ [(CommKind.hold, claiming), (.reply, { assigned with tries := 2 }),
      (.reply, { assigned with tries := 3 }), (.profile, profiling), (.test, testing)],
    let s := bare { x.2 with comm := some (x.1, 200000) }
    s.Live ∧ s.Settled ∧ isSlot 9 ∧ 200000 ≤ s.clock ∧ (s.oven 9).serial = some 0x3A0051A32C9E ∧
      (s.oven 9).comm = some (x.1, 200000) ∧ s.NoTickets 9 := by
  intro x hx
  refine ⟨(by decide : site.Live), (bare_calm _).1, by decide, (by decide : 200000 ≤ site.clock), ?_, ?_,
    (bare_calm _).2.2.2 9⟩
  all_goals revert x; decide

theorem witness_WatchDeadlines :
    let s := bare { oven9 with silence := some 200000, gathering := some 200000 }
    s.Live ∧ isSlot 9 ∧ (s.oven 9).silence = some 200000 ∧ (s.oven 9).gathering = some 200000 ∧ 200000 ≤ s.clock ∧
      s.NoCampaigns ∧ s.NoOffers ∧ s.transferEntry 9 = none ∧ (bare oven9).due (oven9.silence) = false ∧
      (bare oven9).due none = false ∧ ∀ k t, (s.oven 9).comm = some (k, t) → s.clock < t :=
  ⟨by decide, by decide, by decide, by decide, by decide, (bare_calm oven9).2.1, (bare_calm oven9).2.2.1, by decide, by decide, rfl,
    fun _ _ h => nomatch h⟩

def rawStep : RawStep :=
  { mode := 2, setpoint := 300, humidity := 99, fan := 5, endKind := 1, seconds := 14400, target := 99, prompt := true }

theorem witness_DraftingWritesTheDraft :
    let s := revising 178000 [] [recipe412, { draft412 with version := 4 }]
    (s.Serves (.recipeDraft 4095 [0x7E] 3 (some 255)) ∧ s.Serves (.recipeDraft 412 [] 4 (some 0))) ∧
      (∀ n ∈ [0, 4096, 411, 412], s.Serves (.recipeStep n 4 rawStep) ∧ s.Serves (.recipeTrim n 3) ∧
        s.Serves (.recipeDiscardDraft n)) ∧
      s.recipeIn 411 .draft = none ∧ s.recipeIn 412 .draft = some { draft412 with version := 4 } := by
  refine ⟨by decide, by decide, by decide, by decide⟩

/-- No oven is in service. -/
def library (l : List Recipe) : State := { site with recipes := l }

theorem witness_PublicationMovesTheRecords :
    let s := library [{ old412 with refs := 0 }, draft412]
    let w := library [{ old412 with state := .withdrawing }, recipe412, { draft412 with version := 4 }]
    (∀ n, (s.oven n).state ≠ .inService) ∧ (∀ n, s.loadedOf n = []) ∧ (∀ n ∈ [1, 4095, 412],
      s.Serves (.recipePublish n) ∧ s.Serves (.recipeWithdraw n) ∧ s.Serves (.recipeGroups n 255)) ∧
      s.recipeIn 1 .draft = none ∧ s.recipeIn 412 .draft = some draft412 ∧ (w.recipeIn 412 .withdrawing).isSome = true ∧
      w.recipeIn 412 .active = some recipe412 ∧ s.recipeIn 412 .withdrawing = none ∧ draft412.steps ≠ [] ∧
      (library [{ draft412 with steps := [] }]).recipeIn 412 .draft = some { draft412 with steps := [] } ∧
      (library [draft412]).recipeIn 412 .active = none ∧ s.recipeIn 412 .active = some { old412 with refs := 0 } :=
  ⟨fun n => vget_all (P := fun o : Oven => o.state ≠ .inService) _ _ (by decide) (by decide) n,
    fun n => vget_all (P := fun l : List Entry => l = []) _ _ rfl (by decide) n, by decide, by decide, by decide, by decide,
    by decide, by decide, by decide, by decide, by decide, by decide⟩

def failed412 : Entry := { number := 412, version := 3, state := .failed, retries := 2 }

theorem witness_RecipeResendOffersAgain :
    let s := { revising 179000 [failed412] [recipe412] with slots := (Vector.replicate 4 none).set 0 (some ⟨1, 1, 1, 1, 9⟩) }
    (∀ x ∈ [(0, 1), (33, 1), (1, 0), (1, 4096), (32, 4095), (9, 411), (9, 412)], s.Serves (.recipeResend x.1 x.2)) ∧
      (s.oven 32).state = .vacant ∧ (bare waiting).Serves (.recipeResend 9 1) ∧
      ((s.oven 9).state = .inService ∧ ∀ x ∈ s.loadedOf 9, x.number = 411 → x.state ≠ .failed) ∧
      s.Holds 9 failed412 ∧ (∀ x ∈ s.loadedOf 9, x.number = 412 → x.state = .failed → x = failed412) ∧
      (∀ k, 1 ≤ k → k ≤ 4 →
        ({ s with slots := Vector.replicate 4 (some ⟨1, 1, 1, 1, 9⟩) }.distSlot k).isSome = true) ∧
      (s.distSlot 2 = none ∧ (∀ j, 1 ≤ j → j < 2 → (s.distSlot j).isSome = true)) ∧ s.recipe 412 3 = some recipe412 ∧
      s.NoOffers ∧ s.Settled ∧ s.transferEntry 9 = none ∧ (s.oven 9).present = true ∧ (s.oven 9).locks.update = false ∧
      (s.loadedOf 9).countP (·.state.counted) < (s.oven 9).effectiveCapacity := by
  refine ⟨by decide, by decide, by decide, by decide, ⟨by decide, by decide, by decide⟩, by decide, ?_, ⟨by decide, ?_⟩,
    by decide, noOffers_of (by decide +kernel), settled_of_held rfl, by decide, by decide, by decide, by decide⟩
  · intro k a b
    obtain rfl | rfl | rfl | rfl : k = 1 ∨ k = 2 ∨ k = 3 ∨ k = 4 := by omega
    all_goals decide
  · intro j a b
    obtain rfl : j = 1 := by omega
    decide

def offered412 : Entry :=
  { number := 412, version := 3, state := .offered, crc := some 7, deadline := some (.reply, 179005) }
def sending412 : Entry :=
  { number := 412, version := 3, state := .sending, crc := some 0x1234, deadline := some (.progress, 179654) }
def unloading412 : Entry :=
  { number := 412, version := 2, state := .unloading, sends := 1, deadline := some (.unload, 179005) }

/-- Oven 9 holds one entry, bound to slot 3. -/
def holding (e : Entry) : State :=
  { revising 179654 [e] [recipe412] with slots := (Vector.replicate 4 none).set 2 (some ⟨9, 412, 3, 0, 7⟩) }

theorem holding_holds (e : Entry) : (holding e).Holds 9 e := by
  have h : (holding e).loadedOf 9 = [e] := rfl
  constructor <;> simp [h]

theorem holding_noOffers : ∀ e ∈ [offered412, sending412, unloading412], (holding e).NoOffers := by
  intro e he
  refine noOffers_of ?_
  revert e
  decide +kernel

theorem witness_RepliesMoveTheEntry :
    let hear := fun k e => hearing (frame k 0 [0x9C, 1, 3, 0x34, 0x12]) (holding e)
    (∀ x ∈ (holding sending412).loadedOf 9, x.state ≠ .offered) ∧ (∀ x ∈ (holding offered412).loadedOf 9, x.state ≠ .sending) ∧
      (∀ x ∈ (holding offered412).loadedOf 9, x.state ≠ .unloading) ∧
      (∀ x ∈ [(0x11, InKind.pull), (0x12, .have_), (0x13, .decline)],
        (hear x.1 offered412).Hears x.2 (frame x.1 0 [0x9C, 1, 3, 0x34, 0x12]) []) ∧
      (∀ x ∈ [(0x14, InKind.loadDone), (0x15, .unloadDone)],
        (hear x.1 sending412).Hears x.2 (frame x.1 0 [0x9C, 1, 3, 0x34, 0x12]) []) ∧
      ((holding unloading412).loadedOf 9 = [unloading412] ∧ (holding unloading412).NoOffers ∧
        { holding unloading412 with recipes := [] }.NoWants 9) ∧
      ((holding sending412).Holds 9 sending412 ∧ (holding sending412).boundSlot 9 = some 3 ∧
        some 0x1234 = some (numAt [0x9C, 1, 3, 0x34, 0x12] 3 2)) ∧
      ((holding offered412).NoOffers ∧ ∀ x ∈ (holding offered412).loadedOf 9, x.state ≠ .stale) ∧
      ((holding offered412).recipe 412 3 = some recipe412 ∧ (holding offered412).held = true ∧
        (holding offered412).distSlot 3 = some ⟨9, 412, 3, 0, 7⟩ ∧ (holding offered412).segmentsQueued 3 = 0 ∧
        (holding offered412).bulk.length ≤ 24) := by
  refine ⟨by decide, by decide, by decide, ?_, ?_, ⟨rfl, holding_noOffers _ (by decide), by simp [State.NoWants]⟩,
    ⟨holding_holds _, by decide, by decide⟩, ⟨holding_noOffers _ (by decide), by decide⟩, by decide⟩
  all_goals intro x hx; refine hears_of ?_; revert x; decide

theorem witness_DistributionDeadlines :
    (∀ e ∈ [offered412, { offered412 with retries := 2 }, sending412, unloading412, { unloading412 with sends := 3 }],
      (holding e).Live ∧ isSlot 9) ∧ (holding offered412).Settled ∧ (holding offered412).Holds 9 offered412 ∧
      (179005 ≤ (holding offered412).clock ∧ offered412.deadline = some (.reply, 179005)) ∧
      (179654 ≤ (holding sending412).clock ∧ sending412.deadline = some (.progress, 179654)) ∧
      (offered412.state.inTransfer = true ∧ (holding offered412).boundSlot 9 = some 3 ∧
        (holding offered412).recipe 412 3 = some recipe412) ∧
      (unloading412.deadline = some (.unload, 179005) ∧ 179005 ≤ (holding unloading412).clock ∧ unloading412.sends < 3 ∧
        (holding unloading412).NoOffers ∧ { holding unloading412 with recipes := [] }.NoWants 9) :=
  ⟨by decide, settled_of_held rfl, holding_holds _, by decide, by decide, by decide, by decide, by decide, by decide,
    holding_noOffers _ (by decide), by simp [State.NoWants]⟩

theorem witness_StartRequestIsJudged :
    let s := hearing (frame 0x20 0 [0x9C, 1, 3]) kitchen
    s.Hears .startRequest (frame 0x20 0 [0x9C, 1, 3]) [] ∧ s.Settled ∧
      ∀ m, isSlot m → ∀ p ∈ s.permit m, p.number ≠ s.permitCounter :=
  ⟨hears_of (by decide), settled_of_held rfl, fun m _ => vget_all
    (P := fun o : Option Permit => ∀ p ∈ o, p.number ≠ kitchen.permitCounter) kitchen.permits none (by simp)
    (by simp [kitchen, withOven, State.setOven, site, State.reset]) m⟩

/-- Oven 9 cooks under permit 3104, and no ticket waits for it. -/
def cooking9 : State := { kitchen with permits := vset (Vector.replicate 32 none) 9 (some permit3104) }

theorem witness_PermitsRunAndClose :
    (∀ n ∈ [0, 33, 1, 32, 9], cooking9.Serves (.permitRevoke n) ∧ kitchen.Serves (.permitRevoke n)) ∧
      ((kitchen.oven 32).state = .vacant ∧ (kitchen.oven 9).state ≠ .vacant ∧ kitchen.permit 9 = none ∧
        cooking9.permit 9 = some permit3104 ∧ cooking9.Settled) ∧
      (let f := frame 0x21 0 [0x20, 12, 0x50, 98, 0, 100, 0xA4, 1];
        (hearing f cooking9).Hears .stageSummary f [] ∧ permit3104.number = numAt f.data 0 2 ∧
          cooking9.recipe 412 3 = some recipe412 ∧ ∀ p ∈ kitchen.permit 9, p.number ≠ 3104) ∧
      (let f := frame 0x22 0 [0x20, 12, 0, 3];
        let h' := { hygiene9 with soil := min 65535 (38900 + 750) };
        (hearing f cooking9).Hears .cookEnd f [] ∧ permit3104.number = numAt f.data 0 2 ∧
          recipe412.figures = some (figuresOf 2 steps412) ∧ (figuresOf 2 steps412).stepSoil.length = recipe412.steps.length ∧
          (cooking9.oven 9).state = .inService ∧ (cooking9.oven 9).hygiene = some hygiene9 ∧
          (∀ t ∈ cooking9.tickets, t.permit ≠ some 3104) ∧ (∀ e ∈ cooking9.loadedOf 9, e.deferred = false) ∧
          cooking9.NoCampaigns ∧ h'.judged = hygiene9.state) ∧
      { cooking9 with clock := 204350 }.Live ∧ permit3104.deadline ≤ { cooking9 with clock := 204350 }.clock :=
  ⟨by decide, ⟨by decide, by decide, by decide, by decide, settled_of_held rfl⟩,
    ⟨hears_of (by decide), by decide, by decide, by decide⟩,
    ⟨hears_of (by decide), by decide, by decide, by decide, by decide, by decide, by decide, by decide,
      noCampaigns_of (by decide), by decide⟩, by decide, by decide⟩

/-- Oven 9 with a hygiene part, and no campaign. -/
def tended (h : Hygiene) : State := bare { oven9 with hygiene := some h }

theorem witness_OrdersAndManualCleans :
    let h : Hygiene := { hygiene9 with soil := 0, state := .ok }
    isSlot 9 ∧ ((tended h).oven 9).state = .inService ∧ ((tended h).oven 9).hygiene = some h ∧ (tended h).Settled ∧
      (∀ code ∈ [0, 2, 3, 4], (tended h).Serves (.cleanOrder 9 code)) ∧ h.order = none ∧
      (tended hygiene9).Serves (.cleanOrder 9 0) ∧ { hygiene9 with order := some .rinse }.judged = hygiene9.state ∧
      ({ h with order := some .rinse }.judged = .advised ∧ h.state ≠ .cleaning) ∧ (tended h).Serves (.manualClean 9) ∧
      (tended h).permit 9 = none ∧ (cooking9.permit 9).isSome = true :=
  ⟨by decide, by decide, by decide, (bare_calm _).1, by decide, by decide, by decide, by decide, by decide, by decide,
    by decide, by decide⟩

def cleaningPart (c : Clean) : Hygiene := { hygiene9 with soil := 40322, state := .cleaning, clean := some c }

theorem witness_CleansStartAndEnd :
    (∀ code ∈ [0, 2, 3], (hearing (frame 0x30 0 [code]) kitchen).Hears .cleanStart (frame 0x30 0 [code]) [] ∧
      (kitchen.oven 9).hygiene = some hygiene9) ∧
    (let c := standard 199000 (some .soak);
      let s := tended (cleaningPart c);
      (s.oven 9).hygiene = some (cleaningPart c) ∧ (cleaningPart c).clean = some c ∧ s.Settled ∧ s.NoCampaigns ∧
        (∀ d ∈ [[1, 0], [1, 3], [0, 1]], (hearing (frame 0x31 0 d) s).Hears .cleanPhase (frame 0x31 0 d) []) ∧
        (∀ d ∈ [[1, 0], [1, 1], [0, 0]], (hearing (frame 0x32 0 d) s).Hears .cleanEnd (frame 0x32 0 d) []) ∧
        c.programme.code = numAt [1, 0] 0 1 ∧ c.programme.code ≠ numAt [0, 0] 0 1 ∧
        Phase.ofCode (numAt [1, 3] 1 1) = some .dry ∧ (s.oven 9).state = .inService) := by
  refine ⟨?_, by decide, rfl, (bare_calm _).1, (bare_calm _).2.1, ?_, ?_, by decide, by decide, by decide, by decide⟩
  · intro code hc
    refine ⟨hears_of ?_, by decide⟩
    revert code
    decide
  all_goals intro d hd; refine hears_of ?_; revert d; decide

theorem witness_HygieneDeadlines :
    let c := { standard 191000 (some .detergent) with deadline := 200000 }
    ∀ h ∈ [{ hygiene9 with deadline := .armed 200000 }, { hygiene9 with advance := .armed 200000 }, cleaningPart c],
      (tended h).Live ∧ (tended h).Settled ∧ isSlot 9 ∧ (tended h).NoCampaigns ∧ ((tended h).oven 9).state = .inService ∧
        ((tended h).oven 9).hygiene = some h ∧ 200000 ≤ (tended h).clock := by
  intro c h _
  exact ⟨(by decide : site.Live), (bare_calm _).1, by decide, (bare_calm _).2.1, rfl, rfl, (by decide : 200000 ≤ site.clock)⟩

theorem witness_ClassesAndRoutesAreSet :
    let a : ClassArgs := { severity := 3, blocksCleaning := true, blocksUpdates := true, autoClear := false, e1 := 1440, e2 := 0
                           e3 := 1440, cap := 64 }
    let r : RouteArgs := { wfRoute with target := 7, action := 1 }
    (∀ c ∈ [0, 7, 8], kitchen.Serves (.classSet c a)) ∧ Severity.ofCode 3 = some .lockout ∧
      (∀ t ∈ kitchen.tickets, t.cls = 7 → t.oven = 0) ∧
      (let s := lockout 186000 oven9 [ticket518];
        (s.cls 3).blocksUpdates = a.blocksUpdates ∧ ((s.cls 3).severity = .lockout ↔ Severity.lockout = .lockout)) ∧
      (∀ e ∈ [0, 31, 32], kitchen.Serves (.routePut e r) ∧ kitchen.Serves (.routeEnable e) ∧
        kitchen.Serves (.routeDisable e)) ∧ kitchen.Serves (.routeRead true) := by decide

/-- A ticket of class 1, which is reported to no other block. -/
def ticket7 : Ticket :=
  { ticket518 with number := 7, cls := 1, state := .open, escalation := some 200000, code := some 0x0777 }

def ticketed (t : Ticket) : State := { bare oven9 with tickets := [t], ticketCounter := 65535 }

theorem quiet_class (t : Ticket) (c : Nat) (h : c = 0 ∨ c = 1) : (ticketed t).Quiet c := by
  rcases h with rfl | rfl
  · exact ⟨(by decide : (site.cls 0).severity ≠ .lockout), rfl⟩
  · exact ⟨(by decide : (site.cls 1).severity ≠ .lockout), rfl⟩

theorem witness_TicketsOpenAndClose :
    let s := ticketed ticket7
    (∀ x ∈ [(0, 7), (9, 1), (32, 0), (33, 0), (9, 8)], s.Serves (.ticketOpen x.1 x.2 (some 0x0777))) ∧
      (∀ x ∈ s.tickets, x.number ≠ s.ticketCounter) ∧ s.Quiet 1 ∧ s.ticket 8 = none ∧ s.ticket 7 = some ticket7 ∧
      (∀ k ∈ [7, 8], s.Serves (.ticketAck k none) ∧ s.Serves (.ticketAck k (some [0x7E])) ∧ s.Serves (.ticketResolve k) ∧
        s.Serves (.ticketClose k)) ∧ s.Quiet ticket7.cls :=
  ⟨by decide, by decide, quiet_class _ 1 (.inr rfl), by decide, by decide, by decide, quiet_class _ 1 (.inr rfl)⟩

/-- The routing entry matches the fault of the oven and the code. -/
abbrev Hit (s : State) (code model e : Nat) : Prop :=
  (s.route e).enabled = true ∧ code &&& (s.route e).codeMask = (s.route e).codePattern &&& (s.route e).codeMask ∧
    model &&& (s.route e).modelMask = (s.route e).modelPattern &&& (s.route e).modelMask

/-- Entry 31 is the first that matches, absorbing or sending to class 1. -/
def routed (absorb : Bool) : State :=
  { ticketed ticket7 with
    classes := site.classes.set 1 { cap := 2 }
    routes := site.routes.set 31 { enabled := true, codePattern := 0x0423, codeMask := 0xFFFF, target := 1, absorb := absorb } }

theorem witness_FaultsAreRouted :
    let f := frame 0x40 0 [0x23, 4, 1]
    let again := frame 0x40 0 [0x77, 7, 1]
    (hearing f (routed true)).Hears .fault f [] ∧ (hearing f (routed false)).Hears .fault f [] ∧ oven9.state ≠ .retiring ∧
      (∀ t ∈ (routed true).tickets, ¬ (t.oven = 9 ∧ t.code = some 0x0423)) ∧
      (Hit (routed true) 0x0423 0x12 31 ∧ (∀ e < 31, ¬ Hit (routed true) 0x0423 0x12 e) ∧
        ((routed true).route 31).absorb = true ∧ ((routed false).route 31).absorb = false) ∧
      ((routed false).tickets.countP fun x => decide (x.cls = 1)) < ((routed false).cls 1).cap ∧
      (routed false).tickets.length < 64 ∧ (∀ x ∈ (routed false).tickets, x.number ≠ (routed false).ticketCounter) ∧
      (routed false).Quiet 1 ∧ (∀ e ≤ 31, ¬ Hit (ticketed ticket7) 0x0423 0x12 e) ∧ (ticketed ticket7).Quiet 0 ∧
      (hearing again (routed true)).Hears .fault again [] ∧
      (routed true).tickets.find? (fun x => decide (x.oven = 9 ∧ x.code = some 0x0777)) = some ticket7 ∧
      (hearing (frame 0x40 0 [0x77, 7, 0]) (routed true)).Hears .fault (frame 0x40 0 [0x77, 7, 0]) [] ∧
      ((routed true).cls 1).autoClear = false ∧
      (hearing (frame 0x10 0 [0x9C, 1]) kitchen).Hears .lookup (frame 0x10 0 [0x9C, 1]) [] ∧ kitchen.Settled ∧
      ((ticketed ticket7).Live ∧ ticket7.escalation = some 200000 ∧ 200000 ≤ (ticketed ticket7).clock ∧
        (ticketed { verifying518 with verification := some 200000 }).ticket 518 =
          some { verifying518 with verification := some 200000 }) := by
  refine ⟨hears_of (by decide), hears_of (by decide), by decide, by decide, by decide, by decide, by decide, by decide,
    ⟨by decide, by decide⟩, by decide, quiet_class _ 0 (.inl rfl), hears_of (by decide), by decide, hears_of (by decide),
    by decide, hears_of (by decide), settled_of_held rfl, by decide, by decide, by decide, by decide⟩

theorem vget_above {α : Type} {k n : Nat} (v : Vector α k) (d : α) (h : k ≤ n) : vget v (n + 1) d = d := by
  simp [vget, Vector.getElem?_eq_none h]

/-- Campaign 2 in a state, with entries for the three ovens of its model. -/
def campaigning (t : Nat) (st : CampaignState) (l : List CEntry) : State :=
  overnight t oven9 { campaign2 with state := st, entries := l } none

theorem witness_CampaignsStartAndEnd :
    let args : CampaignArgs := { model := 0x12, fromVersions := List.replicate 4 ⟨4, 2, 310⟩, toVersion := ⟨4, 3, 12⟩
                                 imageSize := 1048576, imageCrc := 0, windowStart := 1439, windowEnd := 0, concurrency := 2 }
    let defined := campaigning 248000 .defined []
    let paused := campaigning 248000 .paused [entry9, entry17, entry20]
    let opening := campaigning 255600 .running [{ entry9 with state := .staged }, entry17, entry20]
    (∀ c ∈ [0, 1, 2, 4, 5], defined.Serves (.campaignPut c args) ∧ defined.Serves (.campaignStart c) ∧
      defined.Serves (.campaignPause c) ∧ defined.Serves (.campaignResume c) ∧ defined.Serves (.campaignCancel c) ∧
      defined.Serves (.campaignClear c)) ∧ defined.campaign 1 = none ∧
      defined.campaign 2 = some { campaign2 with state := .defined, entries := [] } ∧
      (defined.siteOpen = true ∧ defined.clockUnset = false ∧ { defined with siteOpen := false }.siteOpen = false ∧
        { defined with clockUnset := true }.clockUnset = true) ∧
      (paused.Serves (.campaignResume 2) ∧ ∀ n ∈ allSlots.filter fun n => decide ((paused.oven n).state = .inService ∧
        (paused.oven n).model = 0x12), ∃ e ∈ [entry9, entry17, entry20], e.oven = n ∧ (paused.oven n).serial = some e.serial) ∧
      (paused.Serves (.campaignCancel 2) ∧ paused.Settled ∧ (∀ c' ≠ 2, paused.campaign c' = none) ∧
        ∀ e ∈ [entry9, entry17, entry20], e.state = .waiting ∨ e.state = .done ∨ e.state = .failed ∨ e.state = .skipped) ∧
      (opening.Live ∧ campaign2.windowStart ≠ campaign2.windowEnd ∧ opening.clock % 60 = 0 ∧
        opening.clock / 60 % 1440 = campaign2.windowStart ∧ defined.clock % 60 ≠ 0) ∧
      ([{ entry9 with state := .staged }, entry17, entry20].filter (fun x => x.state = .staged) =
        [{ entry9 with state := .staged }] ∧ opening.centry 2 9 = some { entry9 with state := .staged } ∧ opening.Settled ∧
        (opening.oven 9).state = .inService ∧ (opening.oven 9).present = true ∧ opening.permit 9 = none ∧
        (∀ h ∈ (opening.oven 9).hygiene, h.state ≠ .cleaning) ∧ (opening.oven 9).locks = {} ∧ opening.lockView 9 = {}) := by
  refine ⟨by decide +kernel, by decide, by decide, by decide, by decide +kernel,
    ⟨by decide, settled_of_held rfl, ?_, by decide⟩, by decide, by decide, by decide, settled_of_held rfl, by decide, by decide,
    by decide, by decide, by decide, by decide +kernel⟩
  intro c hc
  match c, hc with
  | 0, _ => rfl
  | 1, _ => rfl
  | 3, _ => rfl
  | 4, _ => rfl
  | n + 5, _ => exact vget_above _ _ (by omega)

/-- Oven 9 takes the image of campaign 2 through channel 1. -/
def relaying (b : Binding) (image : List OutFrame) : State :=
  { overnight 248010 oven9 (running transferring9) (some b) with image := image }

def imageOnWire (k : Nat) : List OutFrame := List.replicate k (imageFrame 1 9 (.imageData 0 [0]))

theorem witness_ImagesAreRelayed :
    let streaming := relaying (bound 378 372 330 .streaming none) (imageOnWire 7)
    let opening := relaying (bound 0 0 0 .opening (some 248010)) []
    let held := relaying (bound 378 330 330 .held none) []
    let whole := relaying { bound 30000 30000 30000 .streaming none with check := some 248010 } []
    (∀ x ∈ [(0, 256), (1, 0), (1, 257), (2, 1), (3, 1)],
      streaming.Serves (.imageBlock x.1 378 (List.replicate x.2 0))) ∧
      (streaming.channel 2 = none ∧ streaming.channel 1 = some (bound 378 372 330 .streaming none) ∧
        streaming.campaign 2 = some (running transferring9)) ∧
      ((held.channel 1).map Binding.stream ≠ some .streaming ∧ held.Settled) ∧
      (streaming.framesQueued 1 = 7 ∧ streaming.held = true ∧ streaming.image.length < 16 ∧ 372 + 6 ≤ 378 + 1) ∧
      ((running transferring9).state = .running ∧ (streaming.oven 9).state = .inService ∧
        streaming.centry 2 20 = some entry20 ∧ entry20.channel = none) ∧
      (∀ k b', streaming.channel k = some b' → b'.oven = 9 → k = 1) ∧
      ((∀ k ∈ [(0x50, InKind.imageReady), (0x51, .imageRefuse)],
          (hearing (frame k.1 0 []) opening).Hears k.2 (frame k.1 0 []) [] ∧
            (hearing (frame k.1 0 []) held).Hears k.2 (frame k.1 0 []) []) ∧
        opening.Settled ∧ frameReady 30000 (bound 0 0 0 .opening (some 248010)) = false) ∧
      ((∀ d ∈ [[0x4A, 1, 0], [0x50, 1, 0], [0x74, 1, 0], [0x7A, 1, 0]],
          (hearing (frame 0x52 0 d) (relaying (bound 372 372 330 .streaming none) [])).Hears .imageAck (frame 0x52 0 d) []) ∧
        (330 < numAt [0x50, 1, 0] 0 3 ∧ numAt [0x50, 1, 0] 0 3 ≤ 372 ∧ numAt [0x50, 1, 0] 0 3 % 6 = 0) ∧
        numAt [0x74, 1, 0] 0 3 = 372 ∧ frameReady 30000 (bound 372 372 330 .streaming none) = false) ∧
      ((∀ d ∈ [[0], [1]], (hearing (frame 0x53 0 d) whole).Hears .imageCheck (frame 0x53 0 d) []) ∧
        whole.centry 2 9 = some transferring9) ∧
      (opening.Live ∧ 248010 ≤ opening.clock ∧ (bound 0 0 0 .opening (some 248010)).timeout = some 248010 ∧
        opening.centry 2 9 = some transferring9 ∧ transferring9.timeouts + 1 < 3) ∧
      (∀ e ∈ [{ entry9 with state := .suspended, deadline := some 248010 },
          { entry9 with state := .applying, deadline := some 248010 }],
        (overnight 248010 oven9 (running e) none).centry 2 9 = some e) := by
  refine ⟨by decide +kernel, by decide +kernel, ⟨by decide +kernel, settled_of_held rfl⟩, by decide +kernel,
    by decide +kernel, ?_, ⟨?_, settled_of_held rfl, by decide⟩, ⟨?_, by decide, by decide, by decide⟩,
    ⟨?_, by decide +kernel⟩, by decide +kernel, by decide +kernel⟩
  · intro k b' h _
    match k, h with
    | 1, _ => rfl
    | n + 3, h => exact nomatch (vget_above _ none (by omega)).symm.trans h
  · intro k hk
    refine ⟨hears_of ?_, hears_of ?_⟩
    all_goals revert k; decide +kernel
  all_goals intro d hd; refine hears_of ?_; revert d; decide +kernel

/-- A safe state with an oven in service, and a step from it. -/
theorem witness_EveryStepKeepsSafe : kitchen.Safe ∧ step kitchen = .next (idle kitchen) := by
  refine ⟨⟨?_, ?_, ?_, ?_, settled_of_held rfl, ?_⟩, rfl⟩
  · constructor <;> decide
  · intro q
    cases q <;> decide
  · constructor <;> decide
  · exact ⟨by decide, by decide⟩
  · intro k _ n
    exact Nat.zero_le 1

/-! ### Witnesses of further clauses -/

/-- What stands after a reset of ten seconds in which nothing passed, and of nine hours in which deadlines and campaign 2's
window start passed. -/
theorem witness_WarmResetEndMakesUp :
    (let s := { kitchen with
        power := .warmReset .supply 199990, transmitter := none, permits := vset (Vector.replicate 32 none) 9 (some permit3104) };
      s.transmitter = none ∧ s.busOff = false ∧ (∀ q, s.queue q = []) ∧
        (∀ n, ((s.loadedOf n).map fun e => (e.number, e.version)).Nodup) ∧ s.NoCampaigns ∧
        s.retainedAlarms.length = 4 ∧ ∀ a ∈ s.retainedAlarms, s.clock < a.instant) ∧
    (let s := { overnight 257000 oven9 campaign2 none with power := .warmReset .supply 225000 };
      (s.retainedAlarms.filter fun a => decide (a.instant ≤ s.clock)).length = 9 ∧
        startsBy campaign2.windowStart 225000 < startsBy campaign2.windowStart s.clock) ∧
    kitchen.Live ∧ kitchen.alarms ≠ [] := by
  refine ⟨⟨rfl, rfl, by intro q; cases q <;> rfl, fun n => vget_all (P := fun l : List Entry =>
      (l.map fun e => (e.number, e.version)).Nodup) _ _ (by decide) (by decide) n, noCampaigns_of (by decide), ?_⟩, ?_, ?_⟩
  all_goals decide +kernel

/-- A FAULT from a node that is no slot, from a VACANT record and from a DISCOVERED one. -/
theorem witness_FrameDiscardCountsTheFrame_ignored :
    let f := fun n => { frame 0x40 0 [1, 0, 1] with source := n }
    let s := fun n => hearing (f n) (bare claiming)
    (∀ n ∈ [0, 33, 32, 9], (s n).Live ∧ (s n).inbound = [f n] ∧ acceptedKind (f n) = some .fault) ∧
      ((s 32).oven 32).state = .vacant ∧ ((s 9).oven 9).state = .discovered := by decide

/-- A transfer of 20 frames that are all placed, the frames given in BULK. -/
def placed (l : List OutFrame) : State :=
  { streaming with bulk := l, slots := (Vector.replicate 4 none).set 0 (some ⟨9, 412, 3, 20, 20⟩) }

theorem placed_chooses (f : OutFrame) (rest : List OutFrame) (hf : f.mark = .distSlot 1) (tag : f.payload.tag + 1 ≠ 20)
    (t : Option OutFrame) (k : Nat) (off : Bool) :
    { placed (f :: rest) with transmitter := t, tec := k, busOff := off }.Chooses .bulk f rest ∧
      { placed (f :: rest) with transmitter := t, tec := k, busOff := off }.Unfollowed f := by
  refine ⟨⟨rfl, fun r h => ?_⟩, ?_⟩
  · cases r
    case bulk => exact .inr ⟨rfl, Nat.le_refl _⟩
    all_goals exact absurd rfl h
  simp only [State.Unfollowed, hf]
  intro b h
  obtain rfl : (⟨9, 412, 3, 20, 20⟩ : DistSlot) = b := Option.some.inj h
  exact ⟨Nat.le_refl _, tag⟩

theorem witness_FrameSentTakesTheHighestQueue_stream :
    ∃ f rest, f.mark = .distSlot 1 ∧ (placed (f :: rest)).Live ∧ (placed (f :: rest)).transmitter.isSome = true ∧
      (placed (f :: rest)).Chooses .bulk f rest ∧ (placed (f :: rest)).Unfollowed f :=
  ⟨segment 12, [segment 13], rfl, by decide, rfl, placed_chooses _ _ rfl (by decide) (some onWire) 0 false⟩

theorem witness_BusOffRecoveryResumes_stream :
    let s := { placed [segment 12, segment 13] with transmitter := none, tec := 255, busOff := true }
    s.Live ∧ s.busOff = true ∧ s.transmitter = none ∧ s.Chooses .bulk (segment 12) [segment 13] ∧ s.Unfollowed (segment 12) :=
  ⟨by decide, rfl, rfl, placed_chooses (segment 12) [segment 13] rfl (by decide) none 255 true⟩

/-- A SEGMENT frame that is the last of its transfer, and an IMAGE frame with 7 behind it and a frame ready. -/
theorem witness_SegmentStreamIsRefilled_ends :
    (let s := placed [segment 19];
      s.Live ∧ s.busOff = false ∧ s.transmitter.isSome = true ∧ s.Chooses .bulk (segment 19) [] ∧
        (segment 19).mark = .distSlot 1 ∧ s.distSlot 1 = some ⟨9, 412, 3, 20, 20⟩ ∧ (segment 19).payload.tag + 1 = 20) ∧
    (let s := relaying (bound 378 372 330 .streaming none) (imageOnWire 8);
      s.Live ∧ s.busOff = false ∧ s.transmitter.isSome = true ∧
        s.Chooses .image (imageFrame 1 9 (.imageData 0 [0])) (imageOnWire 7) ∧
        (imageFrame 1 9 (.imageData 0 [0])).mark = .channel 1 ∧
        s.channel 1 = some (bound 378 372 330 .streaming none) ∧ s.campaign 2 = some (running transferring9) ∧
        (imageOnWire 7).countP (fun g => g.mark = .channel 1) = 7 ∧ (imageOnWire 7).length < 16 ∧ 372 + 6 ≤ 378) :=
  ⟨⟨by decide, rfl, rfl, ⟨rfl, by intro r; cases r <;> decide⟩, rfl, rfl, by decide⟩,
    by decide +kernel, rfl, rfl, ⟨rfl, by intro r; cases r <;> decide +kernel⟩, rfl, by decide +kernel, by decide +kernel,
    by decide +kernel, by decide, by decide⟩

/-- Every kind newly enabled, with a SILENT oven in DUE, a ticket OPEN at level 1 and node 0 ERROR_PASSIVE. -/
theorem witness_NoticeEnableRecordsTheSet_standing :
    let s := { withOven { oven9 with present := false, hygiene := some { hygiene9 with state := .due } } site with
      enables := 0, tec := 128, tickets := [{ ticket518 with level := 1 }] }
    16382 < 65536 ∧ s.Serves (.noticeEnable 16382) ∧ (∀ t ∈ s.tickets, s.ticket t.number = some t) ∧
      (∀ k ∈ [3, 7, 8, 13], s.enables.getLsbD k = false ∧ (16382).testBit k = true) ∧ s.confinement ≠ 0 := by decide

def loaded412 : Entry := { number := 412, version := 3, state := .loaded }

/-- Every distribution slot is bound. -/
def allBound : Vector (Option DistSlot) 4 := Vector.replicate 4 (some ⟨1, 1, 1, 1, 9⟩)

theorem vget_replicate {α : Type} (k n : Nat) (d : α) : vget (Vector.replicate k d) n d = d :=
  vget_all (P := (· = d)) _ _ rfl (by simp) n

theorem loadedAt (t : Nat) (l : List Entry) (r : List Recipe) (m : Nat) (h : m ≠ 9) : (revising t l r).loadedOf m = [] :=
  (vget_vset_ne _ _ _ _ _ h).trans (vget_replicate _ _ _)

theorem witness_OvenSetRecordsWhatIsGiven_content :
    let s := { revising 179000 [loaded412] [recipe412] with slots := allBound }
    s.Serves (.ovenSet 9 none (some 16) none noThresholds) ∧ isSlot 9 ∧ (s.oven 9).state = .inService ∧
      s.loadedOf 9 = [loaded412] ∧ loaded412.state ≠ .offered ∧ loaded412.state ≠ .sending ∧ s.recipe 412 3 = some recipe412 ∧
      (∀ k, 1 ≤ k → k ≤ 4 → (s.distSlot k).isSome = true) ∧
      (∀ h ∈ (s.oven 9).hygiene, 1000 ≤ h.settings.lock ∧ h.settings.lock ≤ 65535 ∧ h.settings.advise < h.settings.lock ∧
        240 ≤ h.settings.interval ∧ h.settings.interval ≤ 2880) ∧ ∀ m, m ≠ 9 → s.loadedOf m = [] := by
  refine ⟨by decide, by decide, by decide, rfl, by decide, by decide, by decide, ?_, by decide, loadedAt 179000 [loaded412] [recipe412]⟩
  intro k a b
  obtain rfl | rfl | rfl | rfl : k = 1 ∨ k = 2 ∨ k = 3 ∨ k = 4 := by omega
  all_goals decide

/-- CAPABILITY 1 first and second, from an oven before service, and in service with another profile, with and without steam. -/
theorem witness_ReportsFillTheRecord_pairs :
    let f := frame 4 1 [0x12, 4, 2, 0x36, 1]
    let colder := { profile9 with maxTemp := 250 }
    let dry := { profile9 with steam := false }
    let steamless := hearing f (withOven { oven9 with cap0 := some dry } kitchen)
    (∀ o ∈ [{ waiting with cap0 := none }, { waiting with state := .profiling, cap0 := some profile9 },
        { waiting with cap0 := some colder }, { testing with cap0 := some colder }, { oven9 with cap0 := some colder }],
      (hearing f (bare o)).Hears .capability f []) ∧
    ((bare oven9).loadedOf 9 = [] ∧ (bare oven9).NoOffers ∧ ∀ x ∈ (bare oven9).recipes, x.state ≠ .active) ∧
    (steamless.Hears .capability f [] ∧ oven9.profile = some profile9 ∧ profile9.steam = true ∧ dry.steam = false ∧
      steamless.loadedOf 9 = [loaded412] ∧ steamless.recipe 412 3 = some recipe412 ∧
      recipe412.figures = some (figuresOf 2 steps412) ∧ (figuresOf 2 steps412).needsSteam = true ∧ steamless.Settled ∧
      steamless.NoOffers ∧ ∀ x ∈ steamless.recipes, x.state = .active → x = recipe412) := by
  refine ⟨fun o ho => hears_of ?_, ⟨rfl, (bare_calm oven9).2.2.1, by decide⟩, hears_of (by decide), rfl, rfl, rfl, rfl, by decide,
    by decide, by decide, settled_of_held rfl, noOffers_of (by decide +kernel), by decide⟩
  revert o
  decide

/-- REJOIN frame 1 of oven 9, whose frame 0 is held. -/
def rejoining (r : Rejoin0) (s : State) : State :=
  { hearing (frame 2 1 [0x9E, 0x2C, 0xA3, 0x51, 4, 2, 0x36, 1]) s with rejoinHeld := [(9, r)] }

/-- An unknown serial, in RESTORING and in OPEN, with its believed slot VACANT, taken, or no slot VACANT. -/
theorem witness_RejoinTellsTheOven_unknown :
    let s := { site with siteOpen := false }
    let full := { fullHouse with siteOpen := false }
    (∀ x ∈ [site, s, full, fullHouse], (rejoining heldRejoin x).slotOfSerial 0x3A0051A32C9E = none ∧
        0x3A0051A32C9E ∉ (rejoining heldRejoin x).barred) ∧
      (isSlot heldRejoin.believed ∧ (s.oven heldRejoin.believed).state = .vacant) ∧
      (s.lowestVacant = some 1 ∧ ¬ isSlot { heldRejoin with believed := 33 }.believed) ∧
      ((full.oven 8).state ≠ .vacant ∧ full.lowestVacant = none ∧ fullHouse.lowestVacant = none) := by decide +kernel

def cooked : Hygiene := { hygiene9 with soil := 20000, state := .ok }

/-- A record in each state of R37's table, and a RETIRING oven whose permit is open. -/
theorem witness_RejoinTellsTheOven_states :
    (∀ o ∈ [claiming, assigned, profiling, waiting, testing], (rejoining heldRejoin (bare o)).Live ∧
      (rejoining heldRejoin (bare o)).slotOfSerial 0x3A0051A32C9E = some 9 ∧
      ((rejoining heldRejoin (bare o)).oven 9).present = true) ∧
    (rejoining heldRejoin (bare claiming)).Settled ∧ heldRejoin.believed ≠ 9 ∧ { heldRejoin with believed := 9 }.believed = 9 ∧
    (let s := { rejoining heldRejoin (bare { oven9 with state := .retiring, hygiene := some cooked }) with
        permits := vset (Vector.replicate 32 none) 9 (some permit3104), recipes := [recipe412] };
      (s.oven 9).state = .retiring ∧ s.permit 9 = some permit3104 ∧ s.recipe 412 3 = some recipe412 ∧
        recipe412.figures = some (figuresOf 2 steps412) ∧ (s.oven 9).hygiene = some cooked ∧ cooked.clean = none ∧
        s.NoCampaigns ∧ s.NoTickets 9 ∧ (∀ t ∈ s.tickets, t.permit ≠ some 3104) ∧ s.loadedOf 9 = [] ∧
        { cooked with soil := min 65535 (20000 + 1470) }.judged = cooked.state) := by
  refine ⟨by decide, settled_of_held rfl, by decide, rfl, rfl, by decide, by decide, by decide, rfl, rfl,
    (bare_calm oven9).2.1, (bare_calm oven9).2.2.2 9, by decide, by decide, by decide⟩

theorem inServiceAt (t : Nat) (l : List Entry) (r : List Recipe) (m : Nat) (h : m ≠ 9) :
    ((revising t l r).oven m).state ≠ .inService := by
  have : (revising t l r).oven m = {} := (vget_vset_ne _ _ _ _ _ h).trans (vget_replicate _ _ _)
  simp [this]

def stale412 : Entry := { number := 412, version := 2, state := .loaded }

/-- Oven 9 alone in service: a first publication, one that supersedes what it holds, wanted here or not, a withdrawal and a
group set that leaves it out. -/
theorem witness_PublicationMovesTheRecords_membership :
    let first := revising 179000 [] [draft412]
    let second := revising 179000 [stale412] [old412, draft412]
    let apart := revising 179000 [stale412] [old412, { draft412 with groups := 1 }]
    let only := revising 179000 [loaded412] [recipe412]
    (∀ s ∈ [first, second, apart, only], (s.oven 9).state = .inService ∧ (s.recipes.map fun r => (r.number, r.version)).Nodup) ∧
      ((∀ m, m ≠ 9 → (second.oven m).state ≠ .inService) ∧ (∀ m, m ≠ 9 → second.loadedOf m = []) ∧ second.Settled) ∧
      (first.Serves (.recipePublish 412) ∧ first.recipeIn 412 .draft = some draft412 ∧ draft412.steps ≠ [] ∧
        first.recipeIn 412 .withdrawing = none ∧ (∀ r ∈ first.recipes, r.state ≠ .active) ∧ first.loadedOf 9 = []) ∧
      (second.recipeIn 412 .active = some old412 ∧ (∀ r ∈ second.recipes, r.state = .active → r = old412) ∧
        old412.version < draft412.version ∧ 0 < old412.refs ∧ second.loadedOf 9 = [stale412]) ∧
      (draft412.groups.getLsbD 3 = true ∧ profile9.steam = true ∧ profile9.probe = true ∧
        (apart.recipeIn 412 .draft).map (fun r => r.groups.getLsbD 3) = some false) ∧
      (only.Serves (.recipeWithdraw 412) ∧ only.recipeIn 412 .active = some recipe412 ∧ 0 < recipe412.refs ∧
        only.Serves (.recipeGroups 412 1) ∧ recipe412.groups ≠ BitVec.ofNat 8 1 ∧
        (BitVec.ofNat 8 1).getLsbD 3 = false) ∧
      { only with slots := allBound }.slots = allBound := by
  refine ⟨by decide, ⟨inServiceAt _ _ _, loadedAt _ _ _, settled_of_held rfl⟩, by decide, by decide, by decide, by decide, rfl⟩

/-- A cook whose charge makes oven 9 DUE, whose verification ticket is linked, and whose entry waits to be unloaded. -/
theorem witness_PermitsRunAndClose_charge :
    let f := frame 0x22 0 [0x20, 12, 0, 3]
    let deferred := { loaded412 with deferred := true }
    let s := cooking { permit3104 with summaries := summaries }
    let waits := { hearing f s with loaded := vset (Vector.replicate 32 []) 9 [deferred] }
    ((hearing f s).Hears .cookEnd f [] ∧ s.Settled ∧ s.NoCampaigns ∧ numAt f.data 2 1 = 0) ∧
      (s.permit 9 = some { permit3104 with summaries := summaries } ∧ s.recipe 412 3 = some { recipe412 with refs := 2 } ∧
        (figuresOf 2 steps412).stepSoil.length = steps412.length ∧ (s.oven 9).state = .inService ∧
        (s.oven 9).hygiene = some hygiene9) ∧
      ((∀ t ∈ s.tickets, s.ticket t.number = some t) ∧ (∀ t ∈ s.tickets, t.permit = some 3104 → t.state = .verifying)) ∧
      { hygiene9 with soil := 40322 }.judged = .due ∧ (∀ e ∈ s.loadedOf 9, e.deferred = false) ∧
      (waits.Hears .cookEnd f [] ∧ waits.Holds 9 deferred ∧ ∀ x ∈ waits.loadedOf 9, x.deferred = true → x = deferred) := by
  refine ⟨⟨hears_of (by decide), settled_of_held rfl, noCampaigns_of (by decide), by decide⟩, by decide, by decide, by decide,
    by decide, hears_of (by decide), ?_, by decide⟩
  constructor <;> decide

/-- Entry 31 catches the fault behind entry 30, whose class 1 is full; and no class below entry 31 has room. -/
def passing (absorb : Bool) (cap : Nat) : State :=
  { ticketed ticket7 with
    classes := (site.classes.set 1 { cap := 1 }).set 2 { cap := cap }
    routes := (site.routes.set 30 { enabled := true, target := 1 }).set 31 { enabled := true, target := 2, absorb := absorb } }

theorem witness_FaultsAreRouted_passed :
    let f := frame 0x40 0 [0x23, 4, 1]
    let Passed := fun (s : State) e => (s.route e).absorb = false ∧
      ¬ (s.tickets.countP fun x => decide (x.cls = (s.route e).target)) < (s.cls (s.route e).target).cap
    (hearing f (passing true 0)).Hears .fault f [] ∧ (hearing f (passing false 1)).Hears .fault f [] ∧
      (Hit (passing true 0) 0x0423 0x12 30 ∧ Hit (passing true 0) 0x0423 0x12 31 ∧
        (∀ e < 31, Hit (passing true 0) 0x0423 0x12 e → Passed (passing true 0) e) ∧
        ((passing true 0).route 31).absorb = true) ∧
      (∀ e < 31, Hit (passing false 1) 0x0423 0x12 e → Passed (passing false 1) e) ∧ ¬ Passed (passing false 1) 31 ∧
      (passing false 1).Quiet 2 ∧
      (∀ e ≤ 31, Hit (passing false 0) 0x0423 0x12 e → Passed (passing false 0) e) := by
  refine ⟨hears_of (by decide), hears_of (by decide), by decide +kernel, by decide +kernel, by decide, ⟨by decide, rfl⟩,
    by decide +kernel⟩

/-- A RETIRING source, and a class with auto-clear whose ticket is active or no longer. -/
theorem witness_FaultsAreRouted_cleared :
    let f := frame 0x40 0 [0x77, 7, 0]
    let s := fun b => { ticketed { ticket7 with active := b } with classes := site.classes.set 1 { autoClear := true, cap := 4 } }
    (hearing f (bare { oven9 with state := .retiring })).Hears .fault f [] ∧
      (∀ b, (hearing f (s b)).Hears .fault f [] ∧ ((s b).cls 1).autoClear = true) ∧ ticket7.state ≠ .verifying ∧
      (s true).tickets.find? (fun x => decide (x.oven = 9 ∧ x.code = some 0x0777)) = some ticket7 ∧
      (s true).ticket 7 = some ticket7 ∧ ticket7.active = true ∧ (s true).Quiet 1 :=
  ⟨hears_of (by decide), fun b => ⟨hears_of (by cases b <;> decide), by cases b <;> decide⟩, by decide, by decide, by decide, rfl,
    by decide, rfl⟩

/-- Records of every kind: a permit, two tickets, a bound distribution slot, a campaign with three entries. -/
def records : State :=
  { offered with
    slots := vset (Vector.replicate 4 none) 3 (some ⟨9, 412, 3, 0, 7⟩)
    permits := vset (Vector.replicate 32 none) 9 (some permit3104), tickets := [ticket7, ticket518]
    classes := (site.classes.set 1 { cap := 1 }).set 3 class3
    campaigns := vset (Vector.replicate 4 none) 2 (some (running entry9)) }

theorem vget_single {α : Type} {k i n : Nat} {x p : α} (hi : 1 ≤ i ∧ i ≤ k)
    (h : vget (vset (Vector.replicate k none) i (some x)) n none = some p) : n = i ∧ p = x := by
  by_cases hn : n = i
  · rw [hn, vget_vset_same _ _ _ _ hi] at h
    exact ⟨hn, (Option.some.inj h).symm⟩
  · rw [vget_vset_ne _ _ _ _ _ hn, vget_replicate] at h
    exact nomatch h

theorem witness_EveryStepKeepsSafe_records : records.RecordsOk ∧ step records = .next (idle records) := by
  refine ⟨⟨⟨by decide, by decide, fun c => ?_⟩, ?_, ?_, ⟨?_, ?_⟩, ?_⟩, rfl⟩
  · match c with
    | 0 | 1 | 2 | 3 => decide
    | c + 4 =>
      simp [records, ticket7, ticket518]
  · intro n m p q hp hq _
    rw [(vget_single (by decide) hp).1, (vget_single (by decide) hq).1]
  · intro n
    refine vget_all (P := LoadedOk) records.loaded [] (by constructor <;> decide) (fun l hl => ?_) n
    have : ∀ l ∈ records.loaded.toList, l.length ≤ 64 ∧ (l.map fun e => (e.number, e.version)).Nodup ∧
        l.countP (fun e => e.state.inTransfer) ≤ 1 := by decide +kernel
    exact ⟨(this l hl).1, (this l hl).2.1, (this l hl).2.2⟩
  · intro k b h
    rw [(vget_single (by decide) h).2]
    decide
  · intro j k a b ha hb _
    rw [(vget_single (by decide) ha).1, (vget_single (by decide) hb).1]
  · intro c m h
    rw [(vget_single (by decide) h).2]
    decide

/-- A frame one byte longer than its kind needs, one of the length it needs, and an IMAGE_BLOCK with and without its header. -/
theorem witness_WriteIsTakenAndJudged_lengths :
    ∀ x ∈ [(([0x24, 3, 0, 0x9C, 1, 0] : List Byte), 0x24, 3), ([0x24, 2, 0, 0x9C, 1], 0x24, 2),
        ([0x20, 6, 0, 1, 0, 0, 0, 0, 0], 0x20, 6), ([0x5F, 3, 0, 1, 0, 0], 0x5F, 3), ([0x5F, 4, 0, 1, 0, 0, 0], 0x5F, 4)],
      3 ≤ x.1.length ∧ x.1.length = 3 + numAt x.1 1 2 ∧ numAt x.1 0 1 = x.2.1 ∧ numAt x.1 1 2 = x.2.2 := by decide

theorem ungated_of {s : State} {n : Nat} (h : s.held = true ∧ s.campaignWhere n (fun x => x = .staged) = none ∧
    (s.oven n).locks.update = s.applying n) : s.Ungated n := ⟨settled_of_held h.1, h.2.1, h.2.2⟩

/-- A record in AWAITING_SETUP with the ticket of a LOCKOUT class that blocks updates. -/
theorem witness_OvenDismissVacates_tickets :
    let s := lockout 200000 { waiting with locks := { ticket := true } } [ticket518]
    (∀ bar, s.Serves (.ovenDismiss 9 bar)) ∧ (s.oven 9).state = .awaitingSetup ∧
      (s.oven 9).serial = some 0x3A0051A32C9E ∧ s.Ungated 9 ∧ (∀ t ∈ s.tickets, s.ticket t.number = some t) ∧
      s.barred.length < 8 ∧ ticket518 ∈ s.tickets ∧ ticket518.oven = 9 ∧ (s.cls ticket518.cls).severity = .lockout :=
  ⟨by decide, by decide, by decide, ungated_of (by decide), by decide, by decide, by decide, rfl, by decide⟩

theorem overnight_alone (t : Nat) (o : Oven) (m : Campaign) (b : Option Binding) :
    ∀ c ≠ 2, (overnight t o m b).campaign c = none :=
  fun _ h => (vget_vset_ne _ _ _ _ _ h).trans (vget_replicate _ _ _)

theorem overnight_entry_alone (t n : Nat) (o : Oven) (m : Campaign) (b : Option Binding) :
    ∀ c ≠ 2, (overnight t o m b).centry c n = none :=
  fun c h => by simp [State.centry, overnight_alone t o m b c h]

theorem overnight_settled (t : Nat) (o : Oven) (m : Campaign) (b : Option Binding) : (overnight t o m b).Settled :=
  settled_of_held rfl

/-- Oven 9 SENDING with a ticket; its campaign entry in each state; and RETIRING, with a permit, an APPLYING entry or neither. -/
theorem witness_OvenRetireLeavesService_parts :
    (let s := { sending with tickets := [ticket518] };
      (∀ bar, s.Serves (.ovenRetire 9 bar)) ∧ isSlot 9 ∧ (s.oven 9).state = .inService ∧
        (s.oven 9).serial = some 0x3A0051A32C9E ∧ s.barred.length < 8 ∧ s.boundSlot 9 = some 3) ∧
    (∀ c, (bare oven9).centry c 9 = none) ∧
    (∀ st : CEntryState, let e := { entry9 with state := st }
      (overnight 248010 oven9 (running e) none).campaign 2 = some (running e) ∧
        (overnight 248010 oven9 (running e) none).centry 2 9 = some e) ∧
    (let b := bound 378 372 330 .streaming none;
      let s := overnight 248010 oven9 (running transferring9) (some b);
      s.centry 2 9 = some transferring9 ∧ transferring9.state = .transferring ∧ transferring9.channel = some 1 ∧
        s.channel 1 = some b ∧ b.campaign = 2 ∧ b.oven = 9 ∧ s.Settled ∧ ∀ c' ≠ 2, s.centry c' 9 = none) ∧
    ((lockout 200000 locked9 [ticket518]).Ungated 9 ∧
      ∀ t ∈ (lockout 200000 locked9 [ticket518]).tickets, (lockout 200000 locked9 [ticket518]).ticket t.number = some t) ∧
    (let o := { oven9 with state := .retiring };
      (cooking9.setOven 9 o).permit 9 = some permit3104 ∧
        (overnight 248010 o (running { entry9 with state := .applying }) none).applying 9 = true ∧
        (((bare o).oven 9).state = .retiring ∧ (bare o).permit 9 = none ∧ (bare o).applying 9 = false ∧ (bare o).NoTickets 9 ∧
          (bare o).Settled ∧ ((bare o).oven 9).serial = some 0x3A0051A32C9E)) := by
  refine ⟨by decide +kernel, fun c => by simp [State.centry, (bare_calm oven9).2.1 c], fun st => ⟨rfl, rfl⟩,
    ⟨rfl, rfl, rfl, rfl, rfl, rfl, overnight_settled _ _ _ _, overnight_entry_alone _ _ _ _ _⟩, ⟨ungated_of (by decide), by decide⟩,
    by decide, by decide +kernel, by decide, by decide, by decide, (bare_calm _).2.2.2 9, (bare_calm _).1, by decide⟩

def cooler9 : Profile := { profile9 with maxTemp := 200 }

/-- Oven 9 in service reports 200 degrees, which clamps the 207 of recipe 412; and a capacity below what is counted. -/
theorem witness_ReportsFillTheRecord_changes :
    let f := frame 4 1 [0x12, 4, 2, 0x36, 1]
    let colder := { revising 179000 [loaded412] [recipe412] with
      slots := allBound, ovens := vset (Vector.replicate 32 {}) 9 { oven9 with profile := some cooler9 } }
    let smaller := { revising 179654 [stale412, sending412] [old412, recipe412] with
      slots := (Vector.replicate 4 none).set 2 (some ⟨9, 412, 3, 0, 7⟩)
      ovens := vset (Vector.replicate 32 {}) 9 { oven9 with profile := some { profile9 with capacity := 1 } } }
    ((hearing f (bare { oven9 with cap0 := some cooler9 })).Hears .capability f [] ∧ oven9.profile = some profile9) ∧
      (colder.power = .running ∧ (colder.oven 9).state = .inService ∧ (colder.oven 9).profile = some cooler9 ∧
        cooler9 = { profile9 with maxTemp := cooler9.maxTemp } ∧ cooler9.maxTemp ≠ profile9.maxTemp ∧
        1 ≤ cooler9.capacity ∧ colder.loadedOf 9 = [loaded412] ∧ colder.recipe 412 3 = some recipe412 ∧
        recipe412.figures = some (figuresOf 2 steps412) ∧ (∀ x ∈ colder.recipes, x.state = .active → x = recipe412) ∧
        wants (colder.oven 9) recipe412 = true ∧
        (min profile9.maxTemp cooler9.maxTemp : Int) < (figuresOf 2 steps412).highest + (colder.oven 9).cavity) ∧
      (∀ k, 1 ≤ k → k ≤ 4 → (colder.distSlot k).isSome = true) ∧
      (smaller.Settled ∧ LoadedOk (smaller.loadedOf 9) ∧ smaller.boundSlot 9 = some 3 ∧
        1 < (smaller.loadedOf 9).countP fun e => e.state.counted) := by
  refine ⟨⟨hears_of (by decide), rfl⟩, by decide, ?_, settled_of_held rfl, by constructor <;> decide, by decide, by decide⟩
  intro k a b
  obtain rfl | rfl | rfl | rfl : k = 1 ∨ k = 2 ∨ k = 3 ∨ k = 4 := by omega
  all_goals decide

/-- Oven 9 in service and RETIRING rejoins while it cooks, cleans, waits for an image, applies it or has it STAGED, with entries
LOADED and waiting for their unload, UNLOADING and SENDING. -/
theorem witness_RejoinTellsTheOven_steps :
    let c := standard 199000 (some .soak)
    let deferred := { loaded412 with deferred := true }
    (∀ o ∈ [oven9, { oven9 with state := .retiring }], (rejoining heldRejoin (bare o)).Live ∧
      (rejoining heldRejoin (bare o)).heldRejoin 9 = some heldRejoin ∧
      numAt (frame 2 1 [0x9E, 0x2C, 0xA3, 0x51, 4, 2, 0x36, 1]).data 0 4 = heldRejoin.serial % 4294967296 ∧
      (rejoining heldRejoin (bare o)).slotOfSerial heldRejoin.serial = some 9 ∧
      ((rejoining heldRejoin (bare o)).oven 9).present = true) ∧
    (let s := bare { oven9 with hygiene := some cooked };
      let cooks := { s with
        permits := vset (Vector.replicate 32 none) 9 (some permit3104), recipes := [recipe412], tickets := [verifying518]
        loaded := vset (Vector.replicate 32 []) 9 [deferred] };
      cooks.Settled ∧ cooks.permit 9 = some permit3104 ∧ cooks.recipe 412 3 = some recipe412 ∧
        (cooks.oven 9).hygiene = some cooked ∧ cooks.NoCampaigns ∧
        { cooked with soil := min 65535 (20000 + 1470) }.judged = cooked.state ∧ cooks.Holds 9 deferred ∧
        (∀ x ∈ cooks.loadedOf 9, x.deferred = true → x = deferred) ∧ ∀ e ∈ s.loadedOf 9, e.deferred = false) ∧
    (((tended (cleaningPart c)).oven 9).hygiene = some (cleaningPart c) ∧ (cleaningPart c).clean = some c ∧
      (cleaningPart c).state = .cleaning ∧ (tended (cleaningPart c)).NoCampaigns ∧ hygiene9.clean = none) ∧
    (let b := bound 378 372 330 .streaming none;
      let s := fun e => overnight 248010 oven9 (running e) (some b);
      (∀ e, (s e).campaign 2 = some (running e) ∧ (s e).Settled ∧ ∀ c' ≠ 2, (s e).centry c' 9 = none) ∧
        (∀ e ∈ [transferring9, { transferring9 with state := .suspended }, { entry9 with state := .applying },
          { entry9 with state := .staged }, entry9], (s e).centry 2 9 = some e) ∧
        (s transferring9).channel 1 = some b ∧ b.campaign = 2 ∧ b.oven = 9 ∧
        (oven9.firmware ≠ some campaign2.toVersion ∧ { oven9 with firmware := some ⟨4, 3, 12⟩ }.firmware =
          some campaign2.toVersion)) ∧
    (let s := { revising 179654 [{ unloading412 with noRoom := true }, sending412] [recipe412] with
        slots := (Vector.replicate 4 none).set 2 (some ⟨9, 412, 3, 0, 7⟩) };
      LoadedOk (s.loadedOf 9) ∧ (s.oven 9).state = .inService ∧ ({ s with recipes := [] }.NoWants 9)) := by
  refine ⟨by decide, ?_, ⟨rfl, rfl, rfl, (bare_calm _).2.1, rfl⟩,
    ⟨fun e => ⟨rfl, overnight_settled _ _ _ _, overnight_entry_alone _ _ _ _ _⟩, by decide, rfl, rfl, rfl, by decide⟩,
    by constructor <;> decide, by decide, by simp [State.NoWants]⟩
  exact ⟨settled_of_held rfl, by decide, by decide, by decide, noCampaigns_of (by decide), by decide,
    by constructor <;> decide, by decide, by decide⟩

/-- Oven 9 falls silent SENDING, and TRANSFERRING. -/
theorem witness_WatchDeadlines_transfers :
    let b := bound 18006 18000 18000 .streaming none
    let s := overnight 250500 { oven9 with silence := some 250500 } (running transferring9) (some b)
    (LoadedOk (sending.loadedOf 9) ∧ sending.boundSlot 9 = some 3) ∧
      (s.Live ∧ isSlot 9 ∧ (s.oven 9).silence = some 250500 ∧ 250500 ≤ s.clock) ∧
      (s.centry 2 9 = some transferring9 ∧ (∀ c' ≠ 2, s.centry c' 9 = none) ∧ transferring9.state = .transferring ∧
        transferring9.channel = some 1 ∧ s.channel 1 = some b ∧ b.campaign = 2 ∧ b.oven = 9) :=
  ⟨⟨by constructor <;> decide, by decide⟩, by decide, by decide, overnight_entry_alone _ _ _ _ _, rfl, rfl, rfl, rfl, rfl⟩

/-- R46: the permit counter stands at a number in use, which is passed over. -/
theorem witness_StartRequestIsJudged_number :
    (∃ m, isSlot m ∧ ∃ p ∈ cooking9.permit m, p.number = cooking9.permitCounter) ∧ cooking9.permitNumber = 3105 :=
  ⟨⟨9, by decide, permit3104, by decide, by decide⟩, by decide +kernel⟩

theorem witness_OrdersAndManualCleans_refusals :
    let s := bare waiting
    (∀ n ∈ [0, 33, 32, 9], (∀ code ∈ [0, 3, 4], s.Serves (.cleanOrder n code)) ∧ s.Serves (.manualClean n)) ∧
      isSlot 32 ∧ (s.oven 32).state = .vacant ∧ isSlot 9 ∧ (s.oven 9).state = .awaitingSetup := by decide

/-- A class with a standing ticket made LOCKOUT and no longer LOCKOUT, its blocks-updates flag changed. -/
theorem witness_ClassesAndRoutesAreSet_told :
    let a : ClassArgs := { severity := 3, blocksCleaning := true, blocksUpdates := true, autoClear := false, e1 := 0, e2 := 0
                           e3 := 0, cap := 4 }
    let quiet := ticketed ticket7
    let locked := lockout 186000 locked9 [ticket518]
    (quiet.Serves (.classSet 1 a) ∧ Severity.ofCode 3 = some .lockout ∧ (quiet.cls 1).severity ≠ .lockout ∧
      (quiet.cls 1).blocksUpdates = false ∧
      (allSlots.filter fun n => quiet.tickets.any fun t => decide (t.oven = n ∧ t.cls = 1)) = [9] ∧ quiet.Ungated 9) ∧
    (locked.Serves (.classSet 3 { a with severity := 0, blocksUpdates := false }) ∧ Severity.ofCode 0 = some .info ∧
      (locked.cls 3).severity = .lockout ∧ (locked.cls 3).blocksUpdates = true ∧
      (allSlots.filter fun n => locked.tickets.any fun t => decide (t.oven = n ∧ t.cls = 3)) = [9] ∧ locked.Ungated 9) := by
  refine ⟨⟨by decide, rfl, by decide, by decide, by decide, ungated_of (by decide)⟩, by decide, rfl, by decide, by decide,
    by decide, ungated_of (by decide)⟩

/-- The counter at a number in use, and a ticket of a LOCKOUT class opened, resolved and closed. -/
theorem witness_TicketsOpenAndClose_told :
    let s := lockout 186000 locked9 [ticket518]
    (s.Serves (.ticketOpen 0 3 none) ∧ s.tickets.length < 64 ∧
      (s.tickets.countP fun x => decide (x.cls = 3)) < (s.cls 3).cap ∧
      ∃ x ∈ s.tickets, x.number = s.ticketCounter) ∧
    ({ s with ticketCounter := 519 }.Serves (.ticketOpen 9 3 none) ∧ { s with ticketCounter := 519 }.Ungated 9 ∧
      ∀ x ∈ s.tickets, x.number ≠ 519) ∧
    (s.ticket 518 = some ticket518 ∧ ¬ s.Quiet 3 ∧ s.Ungated 9 ∧ s.Serves (.ticketResolve 518) ∧ s.Serves (.ticketClose 518)) :=
  ⟨by decide, ⟨by decide, ungated_of (by decide), by decide⟩, by decide, fun h => h.1 (by decide), ungated_of (by decide), by decide,
    by decide⟩

/-- A part fault: of a record that is not routed, opening in a LOCKOUT class, folding into an open ticket and into one in
VERIFYING. -/
theorem witness_FaultsAreRouted_part :
    let s := lockout 186000 oven9 []
    ((bare claiming).oven 9).state = .discovered ∧
      ((s.oven 9).state = .inService ∧ (∀ t ∈ s.tickets, ¬ (t.oven = 9 ∧ t.code = some 0x0423)) ∧ Hit s 0x0423 0x12 5 ∧
        (∀ e < 5, ¬ Hit s 0x0423 0x12 e) ∧ (s.route 5).absorb = false ∧
        (s.tickets.countP fun x => decide (x.cls = 3)) < (s.cls 3).cap ∧ s.tickets.length < 64 ∧ s.Ungated 9 ∧ ¬ s.Quiet 3) ∧
      ∀ t ∈ [ticket518, verifying518], let s := lockout 200000 oven9 [t]
        s.tickets.find? (fun x => decide (x.oven = 9 ∧ x.code = some 0x0423)) = some t ∧ s.ticket 518 = some t := by
  refine ⟨by decide, ⟨by decide, by decide, by decide, by decide, by decide, by decide, by decide, ungated_of (by decide),
    fun h => h.1 (by decide)⟩, by decide⟩

/-- Campaign 2 starts with ovens 9 and 20 WAITING and channel 1 or only channel 2 free; with every oven blocked; with no channel
free; and a campaign whose entries are all at an end. -/
theorem witness_CampaignsStartAndEnd_binds :
    let made : List CEntry := [entry9, { entry17 with serial := 17 }, entry20]
    let s := overnight 248000 oven9 campaign2 none
    let taken := some { bound 0 0 0 .opening none with campaign := 3 }
    let blocked := { s with
      tickets := [{ ticket518 with oven := 9 }, { ticket518 with number := 519, oven := 20 }]
      classes := site.classes.set 3 class3 }
    (s.Serves (.campaignStart 2) ∧ s.campaign 2 = some campaign2 ∧ campaign2.state = .defined ∧ s.siteOpen = true ∧
      s.clockUnset = false ∧ campaign2.entries = [] ∧ s.Settled ∧ (∀ c' ≠ 2, s.campaign c' = none) ∧
      campaign2.concurrency = 1) ∧
    ((allSlots.filter fun n => decide ((s.oven n).state = .inService ∧ (s.oven n).model = 0x12)) = [9, 17, 20] ∧
      (s.oven 17).firmware = some campaign2.toVersion) ∧
    ((∀ e ∈ made, e.state = .waiting → (s.oven e.oven).present = true) ∧ s.tickets = [] ∧
      (∀ x ∈ made, x.state = .waiting → x ≠ entry9 → entry9.oven < x.oven)) ∧
    ((s.channel 1 = none ∧ s.framesQueued 1 = 0) ∧ (s.setChannel 1 taken).channel 1 ≠ none ∧
      (s.setChannel 1 taken).channel 2 = none ∧ ((s.setChannel 1 taken).setChannel 2 taken).channel 2 ≠ none) ∧
    (blocked.Serves (.campaignStart 2) ∧ blocked.Settled ∧ ∀ e ∈ made, e.state = .waiting →
      ∃ t ∈ blocked.tickets, t.oven = e.oven ∧ t.state ≠ .verifying ∧ (blocked.cls t.cls).blocksUpdates = true) ∧
    ((running { entry9 with state := .done }).entries ≠ [] ∧
      ∀ e ∈ [{ entry9 with state := .done }, entry17, { entry20 with state := .failed }],
        e.state = .done ∨ e.state = .skipped ∨ e.state = .failed) := by
  refine ⟨⟨by decide, rfl, rfl, rfl, rfl, rfl, overnight_settled _ _ _ _, overnight_alone _ _ _ _, rfl⟩, by decide +kernel,
    by decide +kernel, by decide +kernel, ⟨by decide, settled_of_held rfl, by decide +kernel⟩, by decide⟩

/-- An attempt fails at its HOLD deadline, of an oven in service and of a RETIRING one, with its channel; and without one, with
the campaign CANCELLING. -/
theorem witness_ImagesAreRelayed_failed :
    let b := bound 378 330 330 .held none
    let e := { transferring9 with state := .suspended, deadline := some 248010 }
    (∀ o ∈ [oven9, { oven9 with state := .retiring }], let s := overnight 248010 o (running e) (some b)
      s.campaign 2 = some (running e) ∧ s.centry 2 9 = some e ∧ s.channel 1 = some b ∧ (s.oven 9).state = o.state) ∧
    (e.channel = some 1 ∧ b.campaign = 2 ∧ b.oven = 9 ∧ (running e).state ≠ .cancelling ∧
      ∀ o, (overnight 248010 o (running e) (some b)).Settled) ∧
    ∀ l ∈ [[], [entry20]], let a := { entry9 with state := .applying, deadline := some 248010 }
      let m := { campaign2 with state := .cancelling, entries := a :: l }
      let s := overnight 248010 oven9 m none
      s.campaign 2 = some m ∧ s.centry 2 9 = some a ∧ a.channel = none := by
  refine ⟨by decide +kernel, ⟨rfl, rfl, rfl, by decide, fun o => overnight_settled _ _ _ _⟩, by decide +kernel⟩

theorem witness_IdleSecondQueuesWhatFallsDue_others :
    let s := { kitchen with clock := 4294967295 }
    (s.pending = [] ∧ s.power = .running ∧ (∀ i, s.port ≠ .executing i) ∧ s.inbound = [] ∧
      ∃ a ∈ s.alarms, a.instant ≤ min 4294967295 (s.clock + 1) ∧ a.command = .silenceDeadline 9) ∧
    ({ s with port := .executing .siteOpen }.power = .running ∧
      { s with port := .executing .siteOpen }.port = .executing .siteOpen) ∧
    { s with power := .warmReset .supply 7 }.power = .warmReset .supply 7 ∧ { s with power := .coldHeld }.power = .coldHeld := by
  refine ⟨⟨rfl, rfl, nofun, rfl, ?_⟩, ⟨rfl, rfl⟩, rfl, rfl⟩
  decide +kernel

/-- R82 step 4, A70: the UNLOADING entry of an emptied store is PENDING with its count of sends as it was. -/
theorem test_store_empty_keeps_sends :
    ((emptyStore 9 (revising 179000 [{ unloading412 with version := 3 }] [recipe412])).loadedOf 9).map
      (fun e => (e.version, e.state, e.sends)) = [(3, .pending, 1)] := by decide +kernel

theorem witness_OvenRetireLeavesService_refusals :
    (∀ n ∈ [0, 33], ∀ bar, site.Serves (.ovenRetire n bar)) ∧ isSlot 32 ∧ site.Serves (.ovenRetire 32 true) ∧
      (site.oven 32).state = .vacant := by decide

/-- A slot or group out of range, a VACANT record, one that is not in service; a lock threshold that makes oven 9 DUE; and an
entry in transfer whose content an offset changes. -/
theorem witness_OvenSetRecordsWhatIsGiven_moves :
    (∀ x ∈ [(0, 7), (33, 7), (9, 8), (32, 7)], site.Serves (.ovenSet x.1 (some x.2) none none noThresholds)) ∧
    (isSlot 32 ∧ (site.oven 32).state = .vacant ∧ (bare waiting).Serves (.ovenSet 9 none none none noThresholds) ∧
      ((bare waiting).oven 9).state ≠ .vacant ∧ ((bare waiting).oven 9).state ≠ .inService) ∧
    (let h' : Hygiene := { hygiene9 with settings := { hygiene9.settings with lock := 38900 } };
      h'.judged = .due ∧ h'.judged ≠ hygiene9.state ∧ 24000 = min (38900 - 1) 24000 ∧
      (bare oven9).Serves (.ovenSet 9 none none none { noThresholds with lock := some 38900 }) ∧
      (bare oven9).Settled ∧ (bare oven9).NoCampaigns) ∧
    ∀ e ∈ [offered412, sending412], let s := holding e
      s.Serves (.ovenSet 9 none (some 16) none noThresholds) ∧ (s.oven 9).state = .inService ∧ s.loadedOf 9 = [e] ∧
        (e.state = .offered ∨ e.state = .sending) ∧ s.boundSlot 9 = some 3 ∧ s.recipe 412 3 = some recipe412 ∧ s.Settled ∧
        (∀ h ∈ (s.oven 9).hygiene, 1000 ≤ h.settings.lock ∧ h.settings.lock ≤ 65535 ∧ h.settings.advise < h.settings.lock ∧
          240 ≤ h.settings.interval ∧ h.settings.interval ≤ 2880) ∧
        contentOf (s.oven 9) recipe412 ≠ contentOf { s.oven 9 with cavity := 15 } recipe412 := by
  refine ⟨by decide, by decide, ⟨by decide, by decide, by decide, by decide, (bare_calm _).1, (bare_calm _).2.1⟩, ?_⟩
  have settled : ∀ e, (holding e).Settled := fun e => settled_of_held rfl
  intro e he
  refine ⟨?_, ?_, ?_, ?_, ?_, ?_, settled e, ?_, ?_⟩ <;> revert e <;> decide +kernel

/-- Version 3 comes to stand LOADED beside a STALE version 2, which a permit names or not. -/
theorem witness_RepliesMoveTheEntry_stale :
    let older : Entry := { number := 412, version := 2, state := .stale }
    let named := sending.setPermit 9 (some { permit3104 with version := 2 })
    let data := [0x9C, 1, 3, 0x34, 0x12]
    ∀ e ∈ [offered412, sending412], ∀ t ∈ [sending, named], let s := t.setLoaded 9 [older, e]
      (hearing (frame 0x12 0 data) s).Hears .have_ (frame 0x12 0 data) [] ∧
      (hearing (frame 0x14 0 data) s).Hears .loadDone (frame 0x14 0 data) [] ∧
      s.Holds 9 e ∧ s.boundSlot 9 = some 3 ∧ s.NoOffers ∧ s.Settled ∧ older ∈ s.loadedOf 9 ∧ older.number = e.number ∧
      older.version < e.version ∧ older.state = .stale ∧ (numAt data 0 2, numAt data 2 1) = (e.number, e.version) ∧
      (∀ y ∈ s.loadedOf 9, y.number = e.number → y.state = .stale → y = older) := by
  intro older named data e he t ht
  have he' : e.number = 412 ∧ e.version = 3 ∧ e.state.inTransfer = true := by revert e; decide
  have held : (t.setLoaded 9 [older, e]).loadedOf 9 = [older, e] := by
    rcases List.mem_pair.mp ht with rfl | rfl <;> rfl
  refine ⟨hears_of ?_, hears_of ?_, ?_, ?_, noOffers_of ?_, settled_of_held ?_, ?_, ?_, ?_, rfl, ?_, ?_⟩
  all_goals (try (revert t e; decide +kernel))
  constructor <;> simp [held, older, he', EntryState.inTransfer]

theorem witness_TicketsOpenAndClose_unknown :
    let s := ticketed ticket7
    s.ticket 8 = none ∧ s.Serves (.ticketAck 8 (some [0x7E])) ∧ s.Serves (.ticketAck 8 (some [])) ∧
      (∃ r ∈ some ([] : List Byte), ¬ (1 ≤ r.length ∧ r.length ≤ 16 ∧ ∀ c ∈ r, 0x20 ≤ c.toNat ∧ c.toNat ≤ 0x7E)) := by
  decide

/-- Frames ready in every channel state that places them, the transmitter held or free. -/
theorem witness_ImagesAreRelayed_streams :
    ∀ o ∈ [some onWire, none],
      let channel : Binding → State := fun b => { relaying b [] with transmitter := o }
      let taken := bound 400 396 120 .streaming (some 248010)
      let opening := bound 256 0 0 .opening (some 248012)
      ¬ taken.Ready (running transferring9) ∧ ({ taken with taken := 402 } : Binding).Ready (running transferring9) ∧
        opening.Ready (running transferring9) ∧ ({ taken with sent := 120 } : Binding).Ready (running transferring9) ∧
      (channel taken).Serves (.imageBlock 1 400 [0, 0]) ∧ (channel taken).channel 1 = some taken ∧
        (channel taken).campaign 2 = some (running transferring9) ∧
      (hearing (frame 0x50 0 []) (channel opening)).Hears .imageReady (frame 0x50 0 []) [] ∧
      (hearing (frame 0x52 0 [0x7A, 1, 0]) (channel { taken with taken := 402 })).Hears .imageAck (frame 0x52 0 [0x7A, 1, 0]) [] ∧
        (120 < numAt [0x7A, 1, 0] 0 3 ∧ numAt [0x7A, 1, 0] 0 3 ≤ 396 ∧ numAt [0x7A, 1, 0] 0 3 % 6 = 0) ∧
      ((channel taken).Live ∧ 248010 ≤ (channel taken).clock ∧ (channel taken).centry 2 9 = some transferring9 ∧
        transferring9.timeouts + 1 < 3) ∧
      ∀ b, (channel b).Settled := by
  intro o ho
  refine ⟨?_, ?_, ?_, ?_, ?_, ?_, ?_, hears_of ?_, hears_of ?_, ?_, ?_, fun _ _ => ⟨rfl, rfl, rfl, rfl⟩⟩ <;> revert o <;>
    decide +kernel

/-- A SILENT oven 9 is heard: with nothing waiting for it; and its campaign entry STAGED, SUSPENDED with a channel or WAITING. -/
theorem witness_WatchDeadlines_heard :
    let f := frame 5 0 [2, 0, 0xB4, 0]
    let silent := { oven9 with present := false, silence := none }
    let s := hearing f (bare silent)
    let b := bound 378 372 330 .held none
    (s.Live ∧ s.inbound = [f] ∧ acceptedKind f = some .status ∧ isSlot f.source ∧
      (s.oven f.source).state.accepted = true ∧ (s.oven f.source).present = false ∧ s.Settled ∧ s.NoCampaigns ∧ s.NoOffers) ∧
    (∀ e ∈ [{ entry9 with state := .staged }, { transferring9 with state := .suspended, deadline := some 248010 }, entry9],
      (overnight 248005 silent (running e) (some b)).campaign 2 = some (running e) ∧
        (overnight 248005 silent (running e) (some b)).centry 2 9 = some e) ∧
    (∀ e, (overnight 248005 silent (running e) (some b)).Settled ∧
      ∀ c' ≠ 2, (overnight 248005 silent (running e) (some b)).centry c' 9 = none) ∧
    ({ transferring9 with state := .suspended }.channel = some 1 ∧ b.campaign = 2 ∧ b.oven = 9 ∧
      ∀ e, (overnight 248005 silent (running e) (some b)).channel 1 = some b) := by
  refine ⟨⟨by decide, rfl, by decide, by decide, by decide, by decide, settled_of_held rfl, ?_, ?_⟩, by decide +kernel,
    fun e => ⟨overnight_settled _ _ _ _, overnight_entry_alone _ _ _ _ _⟩, rfl, rfl, rfl, fun _ => rfl⟩
  · exact (bare_calm { oven9 with present := false, silence := none }).2.1
  · exact (bare_calm { oven9 with present := false, silence := none }).2.2.1

/-- Campaign 2 cancelled with oven 9 TRANSFERRING or SUSPENDED, 17 STAGED, and 20 APPLYING or WAITING; no other campaign. -/
theorem witness_CampaignsStartAndEnd_cancel :
    let b := bound 378 372 330 .streaming (some 248011)
    ∀ e ∈ [transferring9, { transferring9 with state := .suspended, deadline := some 248600 }],
      ∀ a ∈ [{ entry20 with state := .applying, deadline := some 248900 }, entry20], ∀ st ∈ [CampaignState.running, .paused],
      let m := { campaign2 with state := st, entries := [e, { entry17 with state := .staged }, a] }
      let s := overnight 248010 oven9 m (some b)
      s.Serves (.campaignCancel 2) ∧ s.campaign 2 = some m ∧ s.Settled ∧ (m.entries.map CEntry.oven).Nodup ∧
        (∀ x ∈ m.entries, x.state = .transferring ∨ x.state = .suspended →
          ∃ ch ∈ x.channel, 1 ≤ ch ∧ ch ≤ 2 ∧ ∃ y ∈ s.channel ch, y.campaign = 2 ∧ y.oven = x.oven) ∧
        ∀ c' ≠ 2, s.campaign c' = none := by
  intro b e he a ha st hst
  refine ⟨?_, rfl, overnight_settled _ _ _ _, ?_, ?_, overnight_alone _ _ _ _⟩ <;> revert e a st <;> decide +kernel

/-- R173 at 23:00, in the window from 23:00 to 05:00, with oven 9 STAGED: each condition failing alone, and all holding. -/
theorem witness_CampaignsStartAndEnd_gate :
    let e := { entry9 with state := .staged }
    let m := running e
    let s := fun (t : Nat) (o : Oven) => overnight t o m none
    let inside := fun t : Nat => m.windowStart = m.windowEnd ∨
      (m.windowStart < m.windowEnd ∧ m.windowStart ≤ t / 60 % 1440 ∧ t / 60 % 1440 < m.windowEnd) ∨
      (m.windowEnd < m.windowStart ∧ (m.windowStart ≤ t / 60 % 1440 ∨ t / 60 % 1440 < m.windowEnd))
    (∀ t o, (s t o).centry 2 9 = some e ∧ (s t o).Settled) ∧
    ((overnight 255600 oven9 { m with state := .paused } none).centry 2 9 = some e ∧
      { s 255600 oven9 with clockUnset := true }.clockUnset = true ∧ (¬ inside 255599 ∧ inside 255600 ∧ ¬ inside 277200) ∧
      ((s 255600 { oven9 with present := false }).oven 9).present = false ∧
      (((s 255600 oven9).setPermit 9 (some permit3104)).permit 9).isSome = true ∧
      (cleaningPart (standard 255000 none)).state = .cleaning ∧
      ((s 255600 { oven9 with hygiene := some (cleaningPart (standard 255000 none)) }).oven 9).hygiene =
        some (cleaningPart (standard 255000 none)) ∧
      ((s 255600 { oven9 with locks := { manual := true } }).oven 9).locks ≠ {}) ∧
    (let w := s 255600 oven9;
      w.campaign 2 = some m ∧ e.state = .staged ∧ m.state = .running ∧ w.clockUnset = false ∧ (w.oven 9).present = true ∧
        w.permit 9 = none ∧ (∀ h ∈ (w.oven 9).hygiene, h.state ≠ .cleaning) ∧ (w.oven 9).locks = {} ∧ isSlot 9 ∧
        (w.oven 9).state = .inService ∧ w.lockView 9 = {}) := by
  refine ⟨fun t o => ⟨rfl, overnight_settled _ _ _ _⟩, by decide +kernel, by decide +kernel⟩

/-- A cleaning request of an oven that is not in service yet, and frames about a clean where none is in progress. -/
theorem witness_CleansStartAndEnd_none :
    (∀ o ∈ [waiting, testing], ∀ c ∈ [true, false], let s := { bare o with siteOpen := c }
      (hearing (frame 0x30 0 [1]) s).Hears .cleanStart (frame 0x30 0 [1]) [] ∧ s.Settled ∧ (s.oven 9).hygiene = none ∧
        (s.oven 9).state ≠ .inService) ∧
    (∀ o ∈ [oven9, testing], (hearing (frame 0x31 0 [1, 0]) (bare o)).Hears .cleanPhase (frame 0x31 0 [1, 0]) [] ∧
      (hearing (frame 0x32 0 [1, 0]) (bare o)).Hears .cleanEnd (frame 0x32 0 [1, 0]) [] ∧
      ∀ h ∈ ((bare o).oven 9).hygiene, h.clean = none) := by
  refine ⟨fun o ho c hc => ⟨hears_of ?_, settled_of_held rfl, ?_, ?_⟩, fun o ho => ⟨hears_of ?_, hears_of ?_, ?_⟩⟩
  all_goals (first | (revert o c; decide) | (revert o; decide))

/-- Oven 9 of group 3 moves to group 0, where recipe 412 is meant for it too, and to group 1, where it is not; from group 1
to group 3 with nothing held. -/
theorem witness_OvenSetRecordsWhatIsGiven_group :
    (∀ g ∈ [0, 1], ∀ e ∈ [loaded412, failed412, sending412, { loaded412 with state := .stale }],
      let s := holding e
      s.Serves (.ovenSet 9 (some g) none none noThresholds) ∧ g ≠ (s.oven 9).group ∧ (s.oven 9).state = .inService ∧
        s.Settled ∧ (s.recipes.map fun r => (r.number, r.version)).Nodup ∧ s.loadedOf 9 = [e] ∧
        s.recipe e.number e.version = some recipe412 ∧ (∀ r ∈ s.recipes, r.state = .active → r = recipe412) ∧
        wants ((s.setOven 9 { s.oven 9 with group := g }).oven 9) recipe412 = decide (g = 0) ∧
        ∀ h ∈ (s.oven 9).hygiene, 1000 ≤ h.settings.lock ∧ h.settings.lock ≤ 65535 ∧
          h.settings.advise < h.settings.lock ∧ 240 ≤ h.settings.interval ∧ h.settings.interval ≤ 2880) ∧
    (let s := { bare { oven9 with group := 1 } with recipes := [recipe412] };
      s.Serves (.ovenSet 9 (some 3) none none noThresholds) ∧ (s.oven 9).group ≠ 3 ∧ (s.oven 9).state = .inService ∧
        s.loadedOf 9 = [] ∧ s.Settled ∧ (s.recipes.map fun r => (r.number, r.version)).Nodup ∧
        (s.recipes.filter (wants { oven9 with group := 3 })).length = 1) := by
  refine ⟨fun g hg e he => ⟨?_, ?_, ?_, settled_of_held rfl, ?_, ?_, ?_, ?_, ?_, ?_⟩, by decide, by decide, by decide, by decide,
    settled_of_held rfl, by decide, by decide⟩ <;> revert g e <;> decide +kernel

/-- A record of oven 9 for its restore. -/
def record9 : RestoreRecord :=
  { wfRecord with model := 0x12, firmware := ⟨4, 2, 310⟩, maxTemp := 300, group := 3, capacity := 120, cleaning := 2
                  lock := 40000, advise := 24000, interval := 1440, soil := 45000, lastFull := 150000, residue := false
                  order := none, cavity := -3, humidity := 5 }

/-- The site is CLOSED and recipe 412 published; one slot holds the record given. -/
def restoring (k : Nat) (o : Oven) : State := { site with siteOpen := false, recipes := [recipe412] }.setOven k o

/-- The serial stands DISCOVERED in the slot named, in another slot, past its silence or not; nowhere; and in service elsewhere. -/
theorem witness_OvenRestoreRecreatesTheOven_discovered :
    let serial := 0x3A0051A32C9E
    (∀ k ∈ [9, 5], ∀ t ∈ [199995, 199990], let o := { claiming with lastHeard := t }
      let s := restoring k o
      s.Serves (.ovenRestore 9 serial record9) ∧ s.siteOpen = false ∧ s.clockUnset = false ∧ (s.oven k).serial = some serial ∧
        (s.oven k).state = .discovered ∧ (s.oven k).lastHeard = t ∧ s.Settled ∧ s.NoTickets 9 ∧ s.NoTickets k ∧
        s.loadedOf 9 = [] ∧ (s.recipes.map fun x => (x.number, x.version)).Nodup ∧
        (∀ j, isSlot j → (s.oven j).serial = some serial → j = k) ∧ s.NoCampaigns) ∧
    (199995 + 10 > (restoring 5 claiming).clock ∧ 199990 + 10 ≤ (restoring 5 claiming).clock) ∧
    ((restoring 5 claiming).oven 9).state = .vacant ∧ isSlot 9 ∧ record9.group ≤ 7 ∧
    (∀ j, isSlot j → ((restoring 9 {}).oven j).serial ≠ some serial) ∧
    ((restoring 5 oven9).Serves (.ovenRestore 9 serial record9) ∧ ((restoring 5 oven9).oven 5).serial = some serial ∧
      ((restoring 5 oven9).oven 5).state = .inService) := by
  have quiet : ∀ k o n, (restoring k o).NoTickets n := by simp [restoring, State.NoTickets, State.setOven, site, State.reset]
  refine ⟨fun k hk t ht => ⟨?_, rfl, rfl, ?_, ?_, ?_, settled_of_held rfl, quiet _ _ _, quiet _ _ _, ?_, ?_, ?_,
    noCampaigns_of ?_⟩, by decide, by decide, by decide, by decide, ?_, by decide, by decide, by decide⟩
  case refine_7 =>
    rintro j - hj
    by_contra hk'
    have : (restoring k { claiming with lastHeard := t }).oven j = {} := (vget_vset_ne _ _ _ _ _ hk').trans (vget_replicate _ _ _)
    simp [this] at hj
  case refine_9 =>
    exact fun j _ => vget_all (P := fun o : Oven => o.serial ≠ some 0x3A0051A32C9E) _ _ (by decide) (by decide) j
  all_goals (revert k t; decide +kernel)

/-- Oven 9 passes its test where recipe 412 is meant for its group, and campaign 2 of its model class runs with ovens 17 and 20. -/
theorem witness_TestReportDecidesService_built :
    let f := frame 6 0 [0]
    let s := hearing f { bare testing with recipes := [recipe412] }
    let m := { campaign2 with state := .running, entries := [entry17, entry20] }
    let w := overnight 248000 oven9 m none
    (s.Hears .testReport f [] ∧ (s.oven 9).state = .testing ∧ numAt f.data 0 1 = 0 ∧ s.Settled ∧ s.loadedOf 9 = [] ∧
      (s.recipes.map fun r => (r.number, r.version)).Nodup ∧
      (s.recipes.filter (wants { testing with state := .inService })).length = 1) ∧
    (w.campaign 2 = some m ∧ m.state = .running ∧ m.model = (w.oven 9).model ∧ (m.entries.map CEntry.oven).Pairwise (· < ·) ∧
      (∀ c' m', w.campaign c' = some m' → m'.state = .running → m'.model = (w.oven 9).model → c' = 2)) ∧
    ∀ c m', s.campaign c = some m' → m'.state = .running → m'.model ≠ (s.oven 9).model := by
  refine ⟨⟨hears_of (by decide), by decide, by decide, settled_of_held rfl, by decide, by decide, by decide⟩,
    ⟨rfl, rfl, rfl, by decide, ?_⟩, ?_⟩
  · intro c' m' h _ _
    by_contra hc
    simp [overnight_alone _ _ _ _ c' hc] at h
  · intro c m' h
    exact absurd (((bare_calm testing).2.1 c).symm.trans h) nofun

/-- Ovens 9 and 12 of two slots both have a version PENDING, after the last choice of oven 10: 12 comes first; and every slot is
bound. -/
theorem witness_ResendOffersAgain_round :
    let e : Entry := { number := 412, version := 3 }
    let s : State := { site with
      pointer := 10, recipes := [recipe412]
      ovens := vset (vset (Vector.replicate 32 {}) 9 oven9) 12 { oven9 with serial := some 12 }
      loaded := vset (vset (Vector.replicate 32 []) 9 [e]) 12 [e]
      slots := (Vector.replicate 4 none).set 0 (some ⟨1, 1, 1, 1, 9⟩) }
    let qualifies := fun n : Nat => isSlot n ∧ (s.oven n).state = .inService ∧ (s.oven n).present = true ∧
      (s.oven n).locks.update = false ∧ (∀ x ∈ s.loadedOf n, x.state ≠ .offered ∧ x.state ≠ .sending) ∧
      (s.loadedOf n).countP (·.state.counted) < (s.oven n).effectiveCapacity ∧ (s.oldestPending n).isSome = true
    let turn := fun n : Nat => (n + 63 - s.pointer) % 32
    (s.power = .running ∧ s.pointer ≤ 32 ∧ qualifies 9 ∧ qualifies 12 ∧ (∀ m, qualifies m → turn 12 ≤ turn m) ∧ turn 12 < turn 9) ∧
      s.oldestPending 12 = some e ∧ s.distSlot 2 = none ∧ (∀ j, 1 ≤ j → j < 2 → (s.distSlot j).isSome = true) ∧
      s.recipe 412 3 = some recipe412 ∧ s.Holds 12 e ∧ s.Settled ∧
      (∀ m, ∀ x ∈ s.loadedOf m, (s.recipe x.number x.version).isSome = true) ∧
      ∀ k, 1 ≤ k → k ≤ 4 → ({ s with slots := allBound }.distSlot k).isSome = true := by
  intro e s qualifies turn
  have only : ∀ m, m ≠ 9 → m ≠ 12 → s.oven m = {} := fun m h h' =>
    ((vget_vset_ne _ _ _ _ _ h').trans (vget_vset_ne _ _ _ _ _ h)).trans (vget_replicate _ _ _)
  refine ⟨⟨rfl, by decide, by decide, by decide, ?_, by decide⟩, by decide, by decide, ?_, by decide, ?_, settled_of_held rfl, ?_, ?_⟩
  · intro m h
    by_cases h9 : m = 9
    · subst h9; decide
    by_cases h12 : m = 12
    · subst h12; decide
    have := h.2.1
    simp [only m h9 h12] at this
  · intro j a b
    obtain rfl : j = 1 := by omega
    decide
  · constructor <;> decide
  · exact fun m => vget_all (P := fun l : List Entry => ∀ x ∈ l, (s.recipe x.number x.version).isSome = true) _ _ (by decide)
      (by decide) m
  · intro k a b
    obtain rfl | rfl | rfl | rfl : k = 1 ∨ k = 2 ∨ k = 3 ∨ k = 4 := by omega
    all_goals decide

end Sys2Proof.Tests
end

section
/-! PROOF. What a raise does to the notice set (R196, R198, R201), one equation for each case, and what NOTICE_READ takes from it
(R199). -/

namespace Sys2Proof.Machine

variable {s : State} {k : NoticeKind} {n : Nat}

/-! ### An entry of a key -/

theorem Notice.isOf_iff (e : Notice) (k : NoticeKind) (n : Nat) : e.isOf k n = true ↔ e.kind = k ∧ e.subject = n := by
  simp [Notice.isOf]

theorem any_isOf_iff (l : List Notice) (k : NoticeKind) (n : Nat) :
    l.any (·.isOf k n) = true ↔ ∃ e ∈ l, e.kind = k ∧ e.subject = n := by
  simp only [List.any_eq_true, Notice.isOf_iff]

theorem putNotice_of_listed (d : List Byte) (h : ∃ e ∈ s.notices, e.kind = k ∧ e.subject = n) :
    putNotice k n d s = { s with
      notices := s.notices.map fun e =>
        if e.kind = k ∧ e.subject = n then { e with last := s.clock, count := min 255 (e.count + 1), detail := d } else e } := by
  rw [putNotice_eq, putNotice_updated k n d s ((any_isOf_iff _ _ _).2 h)]
  simp only [Notice.isOf_iff, satAdd]

theorem putNotice_of_unlisted (d : List Byte) (h : ¬ ∃ e ∈ s.notices, e.kind = k ∧ e.subject = n) :
    putNotice k n d s = { s with
      notices := s.notices ++ [{ kind := k, subject := n, first := s.clock, last := s.clock, count := 1, detail := d }] } := by
  rw [← any_isOf_iff, Bool.not_eq_true] at h
  rw [putNotice_eq, putNotice_added k n d s h]

/-! ### Enabled kinds -/

/-- R201: every kind follows its bit of the enable set but the two that are raised whatever it holds. -/
theorem State.enabled_iff (s : State) (k : NoticeKind) :
    s.enabled k = true ↔ k = .siteRestarted ∨ k = .resync ∨ s.enables.getLsbD k.code = true := by
  cases k <;> simp [State.enabled]

/-! ### A raise -/

theorem raise_of_disabled (n : Nat) (d : List Byte) (h : ¬ s.enabled k = true) : raise k n d s = s := by
  simp [raise, h]

/-- R196: the raise has its entry, or the set has a place for it. -/
theorem raise_of_place (d : List Byte) (hk : s.enabled k = true)
    (h : (∃ e ∈ s.notices, e.kind = k ∧ e.subject = n) ∨ s.ordinaryCount < Config.ordinaryNotices) :
    raise k n d s = putNotice k n (padDetail d) s := by
  rw [← any_isOf_iff] at h
  rw [raise, if_neg (by simp [hk]), if_pos h]

/-- R198: a raise that finds no place leaves its kind and subject in RESYNC. -/
theorem raise_of_full (d : List Byte) (hk : s.enabled k = true) (hl : ¬ ∃ e ∈ s.notices, e.kind = k ∧ e.subject = n)
    (hf : Config.ordinaryNotices ≤ s.ordinaryCount) :
    raise k n d s = putNotice .resync 0 (padDetail (le 1 k.code ++ le 2 n)) s := by
  rw [← any_isOf_iff] at hl
  rw [raise, if_neg (by simp [hk]), if_neg (not_or.2 ⟨hl, hf.not_gt⟩)]

/-- R198: kind and subject take three bytes of the detail. -/
theorem padDetail_lost (k : NoticeKind) (n : Nat) :
    padDetail (le 1 k.code ++ le 2 n) = le 1 k.code ++ le 2 n ++ List.replicate 5 0 := rfl

/-! ### NOTICE_READ (R199) -/

theorem reqNoticeRead_nil (h : s.notices = []) : reqNoticeRead s = refuse .noRecord s := by
  simp only [reqNoticeRead, h]

theorem reqNoticeRead_cons {e : Notice} {rest : List Notice} (h : s.notices = e :: rest) :
    reqNoticeRead s = okWith (noticeBytes e rest.length) { s with notices := rest } := by
  simp only [reqNoticeRead, h]

theorem exec_noticeRead (s : State) : exec .noticeRead s = request .noticeRead reqNoticeRead s := rfl

/-- The request is answered with what it makes of the set; neither outcome moves the clock. -/
theorem exec_noticeRead_of_serves {r : Reply} {t : State} (h : s.Serves .noticeRead) (hr : reqNoticeRead s = (r, t))
    (hc : t.clock = s.clock) : exec .noticeRead s = .next { t with port := .ready r } := by
  have e := request_eq .noticeRead reqNoticeRead h
  rw [hr] at e
  rw [exec_noticeRead]
  exact e (hc ▸ h.1.2)

/-! ### Bodies that a reader does not use up (R190) -/

theorem judgeBody_badLength {kind : Nat} {body : List Byte} {r : Reader Instr} (hr : readRequest kind = some r)
    (hb : ∀ i, r body ≠ some (i, [])) : judgeBody kind body = .answer .badLength := by
  rw [judgeBody, hr]
  dsimp only
  split
  next i h => exact absurd h (hb i)
  next => rfl

/-- The header is a kind byte and two length bytes; whatever these make of the body's length, the frame is refused. -/
theorem judgeFrame_badLength (kind : Byte) (body : List Byte) {r : Reader Instr} (hr : readRequest kind.toNat = some r)
    (hb : ∀ i, r body ≠ some (i, [])) : judgeFrame (kind :: le 2 body.length ++ body) = .answer .badLength := by
  show (if _ then _ else _) = _
  split
  · rfl
  · exact judgeBody_badLength hr hb

theorem judgeFrame_noticeRead_body (b : Byte) (body : List Byte) :
    judgeFrame (0x70 :: le 2 (b :: body).length ++ b :: body) = .answer .badLength := by
  refine judgeFrame_badLength 0x70 (b :: body) rfl fun i h => ?_
  rw [pure_reader, Option.some.injEq, Prod.mk.injEq] at h
  exact List.cons_ne_nil b body h.2

/-! ### The statements -/

/-- Settles O27: the two cases of the list, and a reader that takes no byte of a body. -/
theorem noticeReadTakesTheHead : Obligations.NoticeReadTakesTheHead := by
  refine ⟨fun s h => ⟨fun hn => ?_, fun e rest hn => ?_⟩, judgeFrame_noticeRead_body⟩
  · exact exec_noticeRead_of_serves h (reqNoticeRead_nil hn) rfl
  · exact exec_noticeRead_of_serves h (reqNoticeRead_cons hn) rfl

/-- Settles O28: a disabled kind is dropped; an enabled one goes to its own entry, listed or new, or to that of RESYNC.
The bound on the detail is not needed: R197's padding cuts a longer one. -/
theorem raisePutsOneNotice : Obligations.RaisePutsOneNotice := by
  intro k n d s hr _
  refine ⟨fun hs off => ?disabled, fun on => ?enabled⟩
  case disabled =>
    exact raise_of_disabled n d (by simp [State.enabled_iff, hs, hr, off])
  case enabled =>
    have hk : s.enabled k = true := (s.enabled_iff k).2 (on.imp_right .inr)
    refine ⟨fun listed => ?_, fun unlisted room => ?_, fun unlisted full fresh => ?_, fun unlisted full listed => ?_⟩
    · rw [raise_of_place d hk (.inl listed), putNotice_of_listed _ listed, padDetail]
    · rw [raise_of_place d hk (.inr (Nat.lt_of_not_le room)), putNotice_of_unlisted _ unlisted, padDetail]
    · rw [raise_of_full d hk unlisted full, padDetail_lost,
        putNotice_of_unlisted _ (fun ⟨e, he, key⟩ => fresh e he key)]
    · rw [raise_of_full d hk unlisted full, padDetail_lost, putNotice_of_listed _ listed]

end Sys2Proof.Machine
end

section
/-! PROOF. Every command keeps the machine safe and its records sound: what is moves does (`Moves.safe`, `Moves.sound`); what is
no
moves changes the transport's counts, the commands' own fields, the barred list or the clock, and is dealt with one by one. -/

namespace Sys2Proof.Machine

set_option Elab.async false

variable {s t u : State}

/-! ### What safety depends on -/

/-- The same frames wait, at the same transmitter, with the same notices and barred serials. -/
structure SameWaiting (s t : State) : Prop where
  urgent : t.urgent = s.urgent := by rfl
  answer : t.answer = s.answer := by rfl
  bulk : t.bulk = s.bulk := by rfl
  image : t.image = s.image := by rfl
  transmitter : t.transmitter = s.transmitter := by rfl
  busOff : t.busOff = s.busOff := by rfl
  notices : t.notices = s.notices := by rfl
  barred : t.barred = s.barred := by rfl

/-- The transport's counts, its levels, its buffer and the clock are the same. -/
structure SameCounts (s t : State) : Prop where
  tec : t.tec = s.tec := by rfl
  receive : t.rec_ = s.rec_ := by rfl
  busOff : t.busOff = s.busOff := by rfl
  levels : t.levels = s.levels := by rfl
  inbound : t.inbound = s.inbound := by rfl
  overruns : t.overruns = s.overruns := by rfl
  discarded : t.discarded = s.discarded := by rfl
  droppedAnswers : t.droppedAnswers = s.droppedAnswers := by rfl
  droppedFrames : t.droppedFrames = s.droppedFrames := by rfl
  clock : t.clock = s.clock := by rfl

theorem SameCounts.busOk (k : SameCounts s t) (h : s.BusOk) : t.BusOk where
  tec := k.tec ▸ h.tec
  receive := k.receive ▸ h.receive
  off := by rw [k.busOff, k.tec]; exact h.off
  levels := k.levels ▸ h.levels
  inbound := k.inbound ▸ h.inbound
  overruns := k.overruns ▸ h.overruns
  discarded := k.discarded ▸ h.discarded
  droppedAnswers := k.droppedAnswers ▸ h.droppedAnswers
  droppedFrames := k.droppedFrames ▸ h.droppedFrames
  clock := k.clock ▸ h.clock

theorem noticesOk_of_eq (h : s.NoticesOk) (e : t.notices = s.notices := by rfl) : t.NoticesOk where
  ordinary := by unfold State.ordinaryCount; rw [e]; exact h.ordinary
  distinct := e ▸ h.distinct
  resync := e ▸ h.resync
  counts := e ▸ h.counts
  details := e ▸ h.details

theorem queuesOk_of_eq (h : s.QueuesOk) (urgent : t.urgent = s.urgent := by rfl) (answer : t.answer = s.answer := by rfl)
    (bulk : t.bulk = s.bulk := by rfl) (image : t.image = s.image := by rfl) : t.QueuesOk := fun q => by
  cases q
  case urgent => exact (congrArg List.length urgent).trans_le (h .urgent)
  case answer => exact (congrArg List.length answer).trans_le (h .answer)
  case bulk => exact (congrArg List.length bulk).trans_le (h .bulk)
  case image => exact (congrArg List.length image).trans_le (h .image)

theorem SameWaiting.settled (k : SameWaiting s t) (h : s.Settled) : t.Settled := by
  unfold State.Settled State.held at h ⊢
  rw [k.urgent, k.answer, k.bulk, k.image, k.transmitter, k.busOff]
  exact h

/-- Where the same frames, notices and barred serials stand, safety is a matter of the counts. -/
theorem SameWaiting.safe (k : SameWaiting s t) (b : t.BusOk) (h : s.Safe) : t.Safe where
  bus := b
  queues := queuesOk_of_eq h.queues k.urgent k.answer k.bulk k.image
  notices := noticesOk_of_eq h.notices k.notices
  barred := by unfold State.BarredOk; rw [k.barred]; exact h.barred
  settled := k.settled h.settled
  standing := by unfold State.StandingOk; rw [k.urgent]; exact h.standing

/-- All that safety depends on is the same. -/
theorem State.Safe.of_same (h : s.Safe) (k : SameWaiting s t) (m : SameCounts s t) : t.Safe := k.safe (m.busOk h.bus) h

/-! ### What a command keeps -/

/-- From s to t safety is kept, and the soundness of the records. -/
structure Keeps (s t : State) : Prop where
  safe : s.Safe → t.Safe
  sound : s.RecordsOk → t.RecordsOk

theorem Keeps.refl : Keeps s s := ⟨id, id⟩
theorem Keeps.trans (h : Keeps s t) (k : Keeps t u) : Keeps s u := ⟨k.safe ∘ h.safe, k.sound ∘ h.sound⟩
theorem Moves.keeps (h : Moves s t) : Keeps s t := ⟨h.safe, h.sound⟩

/-- A change of what neither invariant speaks of. -/
theorem Keeps.of_same (k : SameWaiting s t) (m : SameCounts s t) (r : Same s t) : Keeps s t :=
  ⟨fun h => h.of_same k m, r.recordsOk⟩

theorem Keeps.ite {c : Prop} [Decidable c] {a b : State} (h : Keeps s a) (k : Keeps s b) : Keeps s (if c then a else b) := by
  split
  · exact h
  · exact k

theorem Keeps.event {f : State → State} (h : Keeps s (f s)) : Keeps s (event f s) := by
  unfold Machine.event
  split
  · exact h.trans (Moves.settle .refl).keeps
  · exact .refl

theorem Keeps.onRequest {act : Act} (i : Instr) (h : Keeps s (act s).2) : Keeps s (onRequest i act s) := by
  unfold Machine.onRequest
  split
  · exact h.trans (.of_same {} {} {})
  · exact .of_same {} {} {}

/-- A request keeps what its effect keeps. -/
theorem Keeps.request {act : Act} (i : Instr) (h : Keeps s (act s).2) : Keeps s (Machine.event (Machine.onRequest i act) s) :=
  (h.onRequest i).event

/-! ### Frames on and off the wire -/

theorem raiseBus_keeps (c : Nat) (s : State) : Keeps s (raiseBus c s) := (Moves.refl.raise _ _ _).keeps

theorem noticeChange_safe (b : Nat) (h : s.Safe) : (noticeChange b s).Safe := by
  unfold noticeChange
  split
  · exact h
  · exact (raiseBus_keeps 0 s).safe h

theorem receivedCount_le {r : Nat} (h : r ≤ 255) : receivedCount r ≤ 255 := by unfold receivedCount; split <;> omega

theorem countReceived_keeps (s : State) : Keeps s (countReceived s) where
  safe h := noticeChange_safe _ (SameWaiting.safe {} { h.bus with receive := receivedCount_le h.bus.receive } h)
  sound := (countReceived_same s).recordsOk

theorem countReceiveError_keeps (d : Bool) (s : State) : Keeps s (countReceiveError d s) where
  safe h := noticeChange_safe _ (SameWaiting.safe {} { h.bus with receive := Nat.min_le_left _ _ } h)
  sound := (countReceiveError_same d s).recordsOk

theorem bufferFrame_keeps (f : InFrame) (s : State) : Keeps s (bufferFrame f s) := by
  unfold bufferFrame
  split
  · rename_i room
    refine ⟨fun h => SameWaiting.safe {} { h.bus with inbound := ?_ } h, Same.recordsOk {}⟩
    rw [List.length_append]
    exact room
  · refine Keeps.trans ⟨fun h => ?_, Same.recordsOk {}⟩ (raiseBus_keeps 1 _)
    exact SameWaiting.safe {} { h.bus with overruns := Nat.min_le_left _ _ } h

theorem receiveFrame_keeps (f : InFrame) (s : State) : Keeps s (receiveFrame f s) := by
  unfold receiveFrame
  split
  · exact .refl
  · exact (countReceived_keeps s).trans (bufferFrame_keeps f _)

/-- A frame has left the inbound buffer. -/
theorem popped_safe {f : InFrame} {rest : List InFrame} (hi : s.inbound = f :: rest) (h : s.Safe) :
    State.Safe { s with inbound := rest } :=
  SameWaiting.safe {} { h.bus with
    inbound := (Nat.le_succ _).trans ((congrArg List.length hi).symm.trans_le h.bus.inbound) } h

theorem discardFrame_keeps (s : State) : Keeps s (discardFrame s) where
  safe h := by
    unfold discardFrame
    split
    · rename_i f rest hi
      split
      · exact SameWaiting.safe (s := { s with inbound := rest }) {}
          { (popped_safe hi h).bus with discarded := Nat.min_le_left _ _ } (popped_safe hi h)
      · exact h
    · exact h
  sound := (discardFrame_same s).recordsOk

/-- R10: the choice serves the transmitter of a state that is safe but for that. -/
theorem kick_safe (bus : s.BusOk) (queues : s.QueuesOk) (notices : s.NoticesOk) (barred : s.BarredOk)
    (standing : s.StandingOk) : (kick s).Safe :=
  have k : TouchSteps s (kick s) := (Touches.kick .refl).steps
  { bus := k.busOk bus, queues := k.queuesOk queues, notices := k.noticesOk notices, barred := k.barredOk barred
    settled := kick_settled s, standing := k.standingOk standing }

theorem countSent_safe (on : s.busOff = false) (h : s.Safe) : (countSent s).Safe :=
  noticeChange_safe _ (SameWaiting.safe {}
    { h.bus with tec := (Nat.sub_le _ _).trans h.bus.tec, off := fun off => absurd (on.symm.trans off) Bool.false_ne_true } h)

theorem frameSent_keeps (s : State) : Keeps s (frameSent s) where
  safe h := by
    unfold frameSent
    split
    · rename_i hc
      have k := countSent_safe hc.2 h
      exact kick_safe (SameCounts.busOk {} k.bus) (queuesOk_of_eq k.queues)
        (noticesOk_of_eq k.notices) k.barred k.standing
    · exact h
  sound := (frameSent_same s).recordsOk

theorem held_of_busOff (h : s.busOff = true) : s.held = true := by simp [State.held, h]

theorem settled_of_held (h : s.held = true) : s.Settled := fun e => absurd (h.symm.trans e) (by decide)

theorem transmitError_keeps (b : Bool) (s : State) : Keeps s (transmitError b s) where
  safe h := by
    unfold transmitError countTransmitError
    split
    · rename_i hc
      split
      · exact h
      · split
        · refine (raiseBus_keeps 0 _).safe ?_
          exact { bus := { h.bus with tec := Nat.le_refl _, off := fun _ => rfl }
                  queues := queuesOk_of_eq h.queues
                  notices := noticesOk_of_eq h.notices, barred := h.barred
                  settled := settled_of_held (held_of_busOff rfl), standing := h.standing }
        · rename_i hle
          refine noticeChange_safe _ (SameWaiting.safe {} { h.bus with tec := Nat.le_of_not_lt hle, off := fun off => ?_ } h)
          exact absurd (hc.2.symm.trans off) Bool.false_ne_true
    · exact h
  sound := (transmitError_same b s).recordsOk

theorem busOffRecovery_keeps (s : State) : Keeps s (busOffRecovery s) where
  safe h := by
    unfold busOffRecovery
    split
    · let u : State := { s with busOff := false, tec := 0, rec_ := 0 }
      have bus : u.BusOk := { h.bus with tec := Nat.zero_le _, receive := Nat.zero_le _, off := fun off => by cases off }
      have k : TouchSteps u (raiseBus 0 u) := .tail .refl (.raised _ _ _ _ (by decide))
      exact kick_safe (k.busOk bus) (k.queuesOk (queuesOk_of_eq h.queues))
        (k.noticesOk (noticesOk_of_eq h.notices)) (k.barredOk h.barred) (k.standingOk h.standing)
    · exact h
  sound := (busOffRecovery_same s).recordsOk

/-! ### Frames of the ovens -/

theorem takeHead_keeps {k : InKind} {f : InFrame} (h : takeHead k s = some (f, t)) : Keeps s t where
  safe hs := by
    unfold takeHead at h
    split at h
    · rename_i hi
      split at h
      · cases h; exact popped_safe hi hs
      · cases h
    · cases h
  sound := (takeHead_same h).recordsOk

theorem slotFrame_keeps {k : InKind} {block : Nat → InFrame → State → State}
    (hb : ∀ {s t : State}, Moves s t → ∀ n f, Moves s (block n f t)) (s : State) : Keeps s (slotFrame k block s) := by
  unfold slotFrame
  split
  · rename_i f u hu
    refine (takeHead_keeps hu).trans ?_
    split
    · exact (hb (Moves.refl.heard f.source) f.source f).keeps
    · exact .refl
  · exact .refl

theorem claimFrame_keeps (s : State) : Keeps s (claimFrame s) := by
  unfold claimFrame
  split
  · rename_i f u hu
    exact (takeHead_keeps hu).trans (Moves.refl.claimSerial _ _).keeps
  · exact .refl

theorem rejoinHead_keeps (s : State) : Keeps s (rejoinHead s) := by
  unfold rejoinHead
  split
  · rename_i f u hu
    obtain ⟨l, m⟩ := rejoinFrame_moves f.source f.tag f.data u
    exact ((takeHead_keeps hu).trans (.of_same {} {} {})).trans m.keeps
  · exact .refl

/-! ### Transactions and requests -/

theorem spiWrite_keeps (b : List Byte) (s : State) : Keeps s (spiWrite b s) := by
  unfold spiWrite
  dsimp only
  split
  · split <;> exact .of_same {} {} {}
  · exact .of_same {} {} {}
  · exact .of_same {} {} {}

theorem spiRead_keeps (n : Nat) (s : State) : Keeps s (spiRead n s) := by
  unfold spiRead
  dsimp only
  split <;> exact .of_same {} {} {}

theorem voidTransaction_keeps (c n : Nat) (s : State) :
    Keeps s ((if c = 0x57 ∨ c = 0x52 then id else voidTransaction n) s) := by
  split
  · exact .refl
  · exact .of_same {} {} {}

theorem Keeps.iteSnd {c : Prop} [Decidable c] {a b : Reply × State} (h : Keeps s a.2) (k : Keeps s b.2) :
    Keeps s (if c then a else b).2 := by
  split
  · exact h
  · exact k

theorem reqBusLevels_keeps (a b c d : Nat) (s : State) : Keeps s (reqBusLevels a b c d s).2 := by
  unfold reqBusLevels
  split
  · rename_i hl
    exact ⟨fun h => SameWaiting.safe {} { h.bus with levels := hl } h, Same.recordsOk {}⟩
  · exact .refl

theorem reqBusStatus_keeps (b : Bool) (s : State) : Keeps s (reqBusStatus b s).2 := by
  show Keeps s (if b = true then _ else s)
  split
  · refine ⟨fun h => SameWaiting.safe {} { h.bus with
      overruns := Nat.zero_le _, discarded := Nat.zero_le _, droppedAnswers := Nat.zero_le _
      droppedFrames := Nat.zero_le _ } h, Same.recordsOk {}⟩
  · exact .refl

theorem reqSiteOpen_keeps (s : State) : Keeps s (reqSiteOpen s).2 := Keeps.iteSnd .refl (.of_same {} {} {})

/-- Another list of barred serials. -/
theorem barred_keeps {l : List Nat} (hl : s.BarredOk → l.length ≤ Config.barredPlaces ∧ l.Nodup) :
    Keeps s { s with barred := l } where
  safe h :=
    { bus := SameCounts.busOk {} h.bus, queues := queuesOk_of_eq h.queues
      notices := noticesOk_of_eq h.notices, barred := hl h.barred, settled := h.settled, standing := h.standing }
  sound := Same.recordsOk {}

/-- R24: a serial is added where the list has a place for it. -/
theorem barSerial_keeps {serial : Nat} (room : serial ∉ s.barred → s.barred.length < Config.barredPlaces) :
    Keeps s (barSerial serial s) := by
  unfold barSerial
  split
  · exact .refl
  · rename_i fresh
    refine barred_keeps fun hb => ⟨?_, ?_⟩
    · rw [List.length_append]
      exact room fresh
    · exact List.nodup_append.2 ⟨hb.2, List.nodup_singleton _, fun a ha b hb' e =>
        fresh (List.mem_singleton.1 hb' ▸ e ▸ ha)⟩

theorem reqBar_keeps (i : Nat) (s : State) : Keeps s (reqBar i s).2 := by
  unfold reqBar
  split
  · exact .refl
  · split
    · exact .refl
    · rename_i room
      exact barSerial_keeps fun _ => Nat.lt_of_not_le room

theorem reqUnbar_keeps (i : Nat) (s : State) : Keeps s (reqUnbar i s).2 := by
  unfold reqUnbar
  split
  · exact barred_keeps fun hb => ⟨(List.length_filter_le _ _).trans hb.1, hb.2.filter _⟩
  · exact .refl

theorem onRecord_keeps {n : Nat} {act : Act} (h : Keeps s (act s).2) : Keeps s (onRecord n act s).2 :=
  Keeps.iteSnd .refl (Keeps.iteSnd .refl h)

theorem reqOvenDismiss_keeps (n : Nat) (b : Bool) (s : State) : Keeps s (reqOvenDismiss n b s).2 := by
  have act : Keeps s (if s.dismissFull ((s.oven n).serial.getD 0) b then refuse .tableFull s else ok (dismiss n b s)).2 := by
    split
    · exact .refl
    · rename_i full
      have bars : Keeps s (if b = true then barSerial ((s.oven n).serial.getD 0) s else s) := by
        split
        · rename_i hb
          refine barSerial_keeps fun fresh => Nat.lt_of_not_le fun hf => full ?_
          simp [State.dismissFull, hb, fresh, hf]
        · exact .refl
      have m := Moves.refl.vacate (s := if b = true then barSerial ((s.oven n).serial.getD 0) s else s) n
      exact bars.trans ((m.placeBarred _ _).ite m).keeps
  refine onRecord_keeps ?_
  split
  all_goals first | exact .refl | exact act

theorem reqOvenRetire_keeps (n : Nat) (b : Bool) (s : State) : Keeps s (reqOvenRetire n b s).2 := by
  refine onRecord_keeps (Keeps.iteSnd ?_ .refl)
  dsimp only
  split
  · exact .refl
  · rename_i full
    have bars : Keeps s (if b = true then barSerial ((s.oven n).serial.getD 0) s else s) := by
      split
      · rename_i hb
        refine barSerial_keeps fun _ => Nat.lt_of_not_le fun hf => full ?_
        simp [State.retireFull, hb, hf]
      · exact .refl
    have m := Moves.refl (s := if b = true then barSerial ((s.oven n).serial.getD 0) s else s)
    exact bars.trans (((((m.retireEntries n).clearLoaded n).withdrawTickets n).modOven _ _).leaveCheck n).keeps

theorem reqClassSet_keeps (c : Nat) (a : ClassArgs) (s : State) : Keeps s (reqClassSet c a s).2 where
  safe h := by
    unfold reqClassSet
    split
    · exact h
    · split
      · exact h
      · rename_i sev _ _
        have set : (s.setCls c (classOf s c sev a)).Safe := h.of_same {} {}
        show (setClass c (classOf s c sev a) s).Safe
        unfold setClass
        dsimp only
        have told := Moves.ite (c := decide ((s.cls c).severity = .lockout) = decide ((classOf s c sev a).severity = .lockout))
          (Moves.refl (s := s.setCls c (classOf s c sev a)))
          (Moves.refl.foldl (f := fun s n => deriveLock n s) (fun _ n k => k.deriveLock n)
            ((s.setCls c (classOf s c sev a)).ovensWithClass c))
        exact (told.ite told.channelChoice).safe set
  sound := reqClassSet_sound c a

theorem reqNoticeRead_keeps (s : State) : Keeps s (reqNoticeRead s).2 := by
  unfold reqNoticeRead
  split
  · exact .refl
  · rename_i e rest hn
    have sub : rest.Sublist s.notices := hn ▸ List.sublist_cons_self e rest
    refine ⟨fun h => ?_, Same.recordsOk {}⟩
    exact
      { bus := SameCounts.busOk {} h.bus, queues := queuesOk_of_eq h.queues
        notices :=
          { ordinary := (sub.countP_le).trans h.notices.ordinary
            distinct := (sub.map _).nodup h.notices.distinct
            resync := fun x hx => h.notices.resync x (sub.subset hx)
            counts := fun x hx => h.notices.counts x (sub.subset hx)
            details := fun x hx => h.notices.details x (sub.subset hx) }
        barred := h.barred, settled := h.settled, standing := h.standing }

theorem reqNoticeEnable_keeps (k : Nat) (s : State) : Keeps s (reqNoticeEnable k s).2 :=
  .trans (t := { s with enables := BitVec.ofNat 16 k }) (.of_same {} {} {}) (Moves.refl.raiseStandings _ _).keeps

/-! ### The clock and the resets -/

/-- R184: the clock and the instants of the notices move, the notices' keys, counts and details do not. -/
theorem stepClock_safe {v : Nat} (hv : v ≤ Config.maxClock) (h : s.Safe) : (stepClock v s).Safe where
  bus := { h.bus with clock := hv }
  queues := queuesOk_of_eq h.queues
  notices :=
    { ordinary := by
        show List.countP _ (s.notices.map _) ≤ _
        rw [List.countP_map]
        exact h.notices.ordinary
      distinct := by
        show (List.map _ (s.notices.map _)).Nodup
        rw [List.map_map]
        exact h.notices.distinct
      resync := List.forall_mem_map.2 h.notices.resync
      counts := List.forall_mem_map.2 h.notices.counts
      details := List.forall_mem_map.2 h.notices.details }
  barred := h.barred
  settled := h.settled
  standing := h.standing

theorem reqClockSet_keeps (v : Nat) (s : State) : Keeps s (reqClockSet v s).2 where
  safe h := by
    unfold reqClockSet
    split
    · exact h
    · rename_i hv
      exact Moves.refl.gateAll.safe (stepClock_safe ((Nat.le_of_not_lt hv).trans (by decide)) h)
  sound := reqClockSet_sound v

theorem vget_replicate {α : Type} (k n : Nat) (a : α) : vget (Vector.replicate k a) n a = a := by
  cases n with
  | zero => rfl
  | succ m => simp only [vget, Vector.getElem?_replicate]; split <;> rfl

/-- R187: nothing waits, nothing is counted, and one notice stands. -/
theorem reset_safe : State.reset.Safe where
  bus := by constructor <;> decide
  queues := fun q => by cases q <;> decide
  notices := by constructor <;> decide
  barred := ⟨Nat.zero_le _, List.nodup_nil⟩
  settled := fun _ => ⟨rfl, rfl, rfl, rfl⟩
  standing := fun _ _ _ => Nat.zero_le _

theorem reset_recordsOk : State.reset.RecordsOk where
  tickets := ⟨Nat.zero_le _, List.Pairwise.nil, fun _ => Nat.zero_le _⟩
  permits n m p q hp _ _ := by
    have hn : State.reset.permit n = none := vget_replicate 32 n none
    exact absurd (hn.symm.trans hp) (by simp)
  loaded n := by
    have hn : State.reset.loadedOf n = [] := vget_replicate 32 n []
    rw [hn]
    exact ⟨Nat.zero_le _, List.nodup_nil, Nat.zero_le _⟩
  slots := by
    have hk : ∀ k, State.reset.distSlot k = none := fun k => vget_replicate 4 k none
    exact ⟨fun k b hb => absurd ((hk k).symm.trans hb) (by simp), fun j _ a _ ha _ _ => absurd ((hk j).symm.trans ha) (by simp)⟩
  campaigns c m hm := by
    have hc : State.reset.campaign c = none := vget_replicate 4 c none
    exact absurd (hc.symm.trans hm) (by simp)

theorem coldStart_keeps (b : Bool) (s : State) : Keeps s (coldStart b s) :=
  ⟨fun _ => reset_safe.of_same {} {}, fun _ => Same.recordsOk (s := State.reset) {} reset_recordsOk⟩

theorem retentionLoss_keeps (s : State) : Keeps s (retentionLoss s) :=
  ⟨fun _ => reset_safe.of_same {} {}, fun _ => Same.recordsOk (s := State.reset) {} reset_recordsOk⟩

/-- R20: the transport's fields are those of a reset; levels, notices and barred serials are kept. -/
theorem loseTransport_safe (h : s.Safe) : (loseTransport s).Safe where
  bus := { reset_safe.bus with levels := h.bus.levels, clock := h.bus.clock }
  queues := fun q => by cases q <;> exact Nat.zero_le _
  notices := noticesOk_of_eq h.notices
  barred := h.barred
  settled := fun _ => ⟨rfl, rfl, rfl, rfl⟩
  standing := fun _ _ _ => Nat.zero_le _

theorem clockTaken_safe (h : s.Safe) : (clockTaken s).Safe := by
  unfold clockTaken
  split
  · exact (reqClockSet_keeps _ s).safe h
  · exact h

theorem warmReset_keeps (c : ResetCause) (s : State) : Keeps s (warmReset c s) where
  safe h := by
    unfold warmReset
    split
    · exact (loseTransport_safe (clockTaken_safe h)).of_same {} {}
    · exact h
    · exact h
  sound := warmReset_sound c

theorem power_keeps (p : Power) (s : State) : Keeps s { s with power := p } := .of_same {} {} {}

theorem warmResetEnd_keeps (b : Bool) (s : State) : Keeps s (warmResetEnd b s) where
  safe h := by
    unfold warmResetEnd
    split
    · rename_i since _
      have sampled : State.Safe { s with bitRate500 := b } := h.of_same {} {}
      have passed := (Moves.refl.takePassed since (State.applyingEntries { s with bitRate500 := b })).safe sampled
      exact (Moves.refl.makeUps _ _).settle.safe ((power_keeps .running _).safe passed)
    · exact h
    · exact h
  sound := warmResetEnd_sound b

theorem tickClock_keeps (s : State) : Keeps s (tickClock s) :=
  ⟨fun h => SameWaiting.safe {} { h.bus with clock := Nat.min_le_left _ _ } h, Same.recordsOk {}⟩

theorem idle_keeps (s : State) : Keeps s (idle s) := by
  unfold idle
  split
  · exact .refl
  · exact tickClock_keeps s
  · split
    · exact .of_same {} {} {}
    · exact .of_same {} {} {}
    · exact (tickClock_keeps s).trans (.of_same {} {} {})

/-! ### Every command -/

/-- A request that only reads. -/
theorem reads_keeps {act : Act} (i : Instr) (h : (act s).2 = s := by rfl) :
    Keeps s (Machine.event (Machine.onRequest i act) s) := .request i (h.symm ▸ .refl)

theorem Moves.keepsRequest {act : Act} (i : Instr) (h : Moves s (act s).2) :
    Keeps s (Machine.event (Machine.onRequest i act) s) := h.keeps.request i

theorem Moves.keepsEvent {f : State → State} (h : Moves s (f s)) : Keeps s (Machine.event f s) := h.keeps.event

/-- Every command answers a state that keeps both invariants. -/
theorem exec_keeps (i : Instr) (s : State) : ∃ t, exec i s = .next t ∧ Keeps s t := by
  cases i
  -- frames on and off the bus
  case frameReceive f => exact ⟨_, rfl, (receiveFrame_keeps f s).event⟩
  case frameDiscard => exact ⟨_, rfl, (discardFrame_keeps s).event⟩
  case claim => exact ⟨_, rfl, (claimFrame_keeps s).event⟩
  case rejoin => exact ⟨_, rfl, (rejoinHead_keeps s).event⟩
  case assignAck => exact ⟨_, rfl, (slotFrame_keeps Moves.assignAckFrame s).event⟩
  case capability => exact ⟨_, rfl, (slotFrame_keeps Moves.capabilityFrame s).event⟩
  case status => exact ⟨_, rfl, (slotFrame_keeps Moves.statusFrame s).event⟩
  case testReport => exact ⟨_, rfl, (slotFrame_keeps Moves.testReportFrame s).event⟩
  case lookup => exact ⟨_, rfl, (slotFrame_keeps Moves.lookupFrame s).event⟩
  case pull => exact ⟨_, rfl, (slotFrame_keeps Moves.pullFrame s).event⟩
  case have_ => exact ⟨_, rfl, (slotFrame_keeps Moves.haveFrame s).event⟩
  case decline => exact ⟨_, rfl, (slotFrame_keeps Moves.declineFrame s).event⟩
  case loadDone => exact ⟨_, rfl, (slotFrame_keeps Moves.loadDoneFrame s).event⟩
  case unloadDone => exact ⟨_, rfl, (slotFrame_keeps Moves.unloadDoneFrame s).event⟩
  case startRequest => exact ⟨_, rfl, (slotFrame_keeps Moves.startRequestFrame s).event⟩
  case stageSummary => exact ⟨_, rfl, (slotFrame_keeps Moves.stageSummaryFrame s).event⟩
  case cookEnd => exact ⟨_, rfl, (slotFrame_keeps Moves.cookEndFrame s).event⟩
  case cleanStart => exact ⟨_, rfl, (slotFrame_keeps Moves.cleanStartFrame s).event⟩
  case cleanPhase => exact ⟨_, rfl, (slotFrame_keeps Moves.cleanPhaseFrame s).event⟩
  case cleanEnd => exact ⟨_, rfl, (slotFrame_keeps Moves.cleanEndFrame s).event⟩
  case fault => exact ⟨_, rfl, (slotFrame_keeps Moves.faultFrame s).event⟩
  case imageReady => exact ⟨_, rfl, (slotFrame_keeps Moves.imageReadyFrame s).event⟩
  case imageRefuse => exact ⟨_, rfl, (slotFrame_keeps Moves.imageRefuseFrame s).event⟩
  case imageAck => exact ⟨_, rfl, (slotFrame_keeps Moves.imageAckFrame s).event⟩
  case imageCheck => exact ⟨_, rfl, (slotFrame_keeps Moves.imageCheckFrame s).event⟩
  case frameSent => exact ⟨_, rfl, (frameSent_keeps s).event⟩
  case arbitrationLost => exact ⟨_, rfl, .refl⟩
  case transmitError b => exact ⟨_, rfl, (transmitError_keeps b s).event⟩
  case receiveError d => exact ⟨_, rfl, (Keeps.ite .refl (countReceiveError_keeps d s)).event⟩
  case busOffRecovery => exact ⟨_, rfl, (busOffRecovery_keeps s).event⟩
  case filteredFrame => exact ⟨_, rfl, (Keeps.ite .refl (countReceived_keeps s)).event⟩
  -- deadlines
  case holdDeadlineExpiry n => exact ⟨_, rfl, (Moves.refl.holdExpiry n).keepsEvent⟩
  case assignReplyDeadline n => exact ⟨_, rfl, (Moves.refl.assignReplyExpiry n).keepsEvent⟩
  case profileDeadline n => exact ⟨_, rfl, (Moves.refl.profileExpiry n).keepsEvent⟩
  case testDeadline n => exact ⟨_, rfl, (Moves.refl.testExpiry n).keepsEvent⟩
  case silenceDeadline n => exact ⟨_, rfl, (Moves.refl.silenceExpiry n).keepsEvent⟩
  case gatheringDeadline n => exact ⟨_, rfl, (Moves.refl.gatheringExpiry n).keepsEvent⟩
  case offerReplyDeadline n => exact ⟨_, rfl, (Moves.refl.offerReplyExpiry n).keepsEvent⟩
  case progressDeadline n => exact ⟨_, rfl, (Moves.refl.progressExpiry n).keepsEvent⟩
  case unloadDeadline n r v => exact ⟨_, rfl, (Moves.refl.unloadExpiry n r v).keepsEvent⟩
  case permitDeadline n => exact ⟨_, rfl, (Moves.refl.permitExpiry n).keepsEvent⟩
  case hygieneDeadline n => exact ⟨_, rfl, (Moves.refl.hygieneExpiry n).keepsEvent⟩
  case advancePoint n => exact ⟨_, rfl, (Moves.refl.advanceExpiry n).keepsEvent⟩
  case cleanDeadline n => exact ⟨_, rfl, (Moves.refl.cleanExpiry n).keepsEvent⟩
  case escalationDeadline k => exact ⟨_, rfl, (Moves.refl.escalationExpiry k).keepsEvent⟩
  case verificationDeadline k => exact ⟨_, rfl, (Moves.refl.verificationExpiry k).keepsEvent⟩
  case entryHoldDeadline c n => exact ⟨_, rfl, (Moves.refl.entryHoldExpiry c n).keepsEvent⟩
  case applyDeadline c n => exact ⟨_, rfl, (Moves.refl.applyExpiry c n).keepsEvent⟩
  case acknowledgementTimeout ch => exact ⟨_, rfl, (Moves.refl.ackExpiry ch).keepsEvent⟩
  case checkDeadline ch => exact ⟨_, rfl, (Moves.refl.checkExpiry ch).keepsEvent⟩
  case windowStart c => exact ⟨_, rfl, (Moves.refl.windowStart c).keepsEvent⟩
  -- the management port
  case spiWrite b => exact ⟨_, rfl, (spiWrite_keeps b s).event⟩
  case spiRead n => exact ⟨_, rfl, (spiRead_keeps n s).event⟩
  case voidTransaction c n => exact ⟨_, rfl, (voidTransaction_keeps c n s).event⟩
  -- requests
  case busLevels a b c d => exact ⟨_, rfl, (reqBusLevels_keeps a b c d s).request _⟩
  case busStatus b => exact ⟨_, rfl, (reqBusStatus_keeps b s).request _⟩
  case ovenAdmit n g => exact ⟨_, rfl, (Moves.refl.reqOvenAdmit n g).keepsRequest _⟩
  case ovenCommission n c d g x => exact ⟨_, rfl, (Moves.refl.reqOvenCommission n c d g x).keepsRequest _⟩
  case ovenDismiss n b => exact ⟨_, rfl, (reqOvenDismiss_keeps n b s).request _⟩
  case ovenRetire n b => exact ⟨_, rfl, (reqOvenRetire_keeps n b s).request _⟩
  case ovenSet n g c d x => exact ⟨_, rfl, (Moves.refl.reqOvenSet n g c d x).keepsRequest _⟩
  case ovenLock n => exact ⟨_, rfl, (Moves.refl.reqOvenLock n).keepsRequest _⟩
  case ovenUnlock n => exact ⟨_, rfl, (Moves.refl.reqOvenUnlock n).keepsRequest _⟩
  case ovenRestore n i r => exact ⟨_, rfl, (Moves.refl.reqOvenRestore n i r).keepsRequest _⟩
  case siteOpen => exact ⟨_, rfl, (reqSiteOpen_keeps s).request _⟩
  case ovenRead n => exact ⟨_, rfl, (Moves.refl.reqOvenRead n).keepsRequest _⟩
  case ovenList => exact ⟨_, rfl, reads_keeps _⟩
  case bar i => exact ⟨_, rfl, (reqBar_keeps i s).request _⟩
  case unbar i => exact ⟨_, rfl, (reqUnbar_keeps i s).request _⟩
  case barList => exact ⟨_, rfl, reads_keeps _⟩
  case recipeDraft i x f v => exact ⟨_, rfl, (Moves.refl.reqRecipeDraft i x f v).keepsRequest _⟩
  case recipeStep i k x => exact ⟨_, rfl, (Moves.refl.reqRecipeStep i k x).keepsRequest _⟩
  case recipeTrim i k => exact ⟨_, rfl, (Moves.refl.reqRecipeTrim i k).keepsRequest _⟩
  case recipeDiscardDraft i => exact ⟨_, rfl, (Moves.refl.reqRecipeDiscardDraft i).keepsRequest _⟩
  case recipePublish i => exact ⟨_, rfl, (Moves.refl.reqRecipePublish i).keepsRequest _⟩
  case recipeWithdraw i => exact ⟨_, rfl, (Moves.refl.reqRecipeWithdraw i).keepsRequest _⟩
  case recipeGroups i g => exact ⟨_, rfl, (Moves.refl.reqRecipeGroups i g).keepsRequest _⟩
  case recipeRead i v => exact ⟨_, rfl, (Moves.refl.reqRecipeRead i v).keepsRequest _⟩
  case recipeList i v => exact ⟨_, rfl, (Moves.refl.reqRecipeList i v).keepsRequest _⟩
  case recipeResend n i => exact ⟨_, rfl, (Moves.refl.reqRecipeResend n i).keepsRequest _⟩
  case loadedSetRead n i => exact ⟨_, rfl, (Moves.refl.reqLoadedSetRead n i).keepsRequest _⟩
  case distStatus => exact ⟨_, rfl, reads_keeps _⟩
  case permitRevoke n => exact ⟨_, rfl, (Moves.refl.reqPermitRevoke n).keepsRequest _⟩
  case permitRead n => exact ⟨_, rfl, (Moves.refl.reqPermitRead n).keepsRequest _⟩
  case permitList => exact ⟨_, rfl, reads_keeps _⟩
  case cleanOrder n p => exact ⟨_, rfl, (Moves.refl.reqCleanOrder n p).keepsRequest _⟩
  case manualClean n => exact ⟨_, rfl, (Moves.refl.reqManualClean n).keepsRequest _⟩
  case classSet c a => exact ⟨_, rfl, (reqClassSet_keeps c a s).request _⟩
  case classRead => exact ⟨_, rfl, reads_keeps _⟩
  case routePut e a => exact ⟨_, rfl, (Moves.refl.reqRoutePut e a).keepsRequest _⟩
  case routeEnable e => exact ⟨_, rfl, (Moves.refl.reqRouteEnable e).keepsRequest _⟩
  case routeDisable e => exact ⟨_, rfl, (Moves.refl.reqRouteDisable e).keepsRequest _⟩
  case routeRead b => exact ⟨_, rfl, (Moves.refl.reqRouteRead b).keepsRequest _⟩
  case ticketOpen o c x => exact ⟨_, rfl, (Moves.refl.reqTicketOpen o c x).keepsRequest _⟩
  case ticketAck k x => exact ⟨_, rfl, (Moves.refl.reqTicketAck k x).keepsRequest _⟩
  case ticketResolve k => exact ⟨_, rfl, (Moves.refl.reqTicketResolve k).keepsRequest _⟩
  case ticketClose k => exact ⟨_, rfl, (Moves.refl.reqTicketClose k).keepsRequest _⟩
  case ticketRead k => exact ⟨_, rfl, (Moves.refl.reqTicketRead k).keepsRequest _⟩
  case ticketList i o => exact ⟨_, rfl, (Moves.refl.reqTicketList i o).keepsRequest _⟩
  case campaignPut c a => exact ⟨_, rfl, (Moves.refl.reqCampaignPut c a).keepsRequest _⟩
  case campaignStart c => exact ⟨_, rfl, (Moves.refl.reqCampaignStart c).keepsRequest _⟩
  case campaignPause c => exact ⟨_, rfl, (Moves.refl.reqCampaignPause c).keepsRequest _⟩
  case campaignResume c => exact ⟨_, rfl, (Moves.refl.reqCampaignResume c).keepsRequest _⟩
  case campaignCancel c => exact ⟨_, rfl, (Moves.refl.reqCampaignCancel c).keepsRequest _⟩
  case campaignClear c => exact ⟨_, rfl, (Moves.refl.reqCampaignClear c).keepsRequest _⟩
  case campaignRead c => exact ⟨_, rfl, (Moves.refl.reqCampaignRead c).keepsRequest _⟩
  case imageBlock ch o b => exact ⟨_, rfl, (Moves.refl.reqImageBlock ch o b).keepsRequest _⟩
  case relayStatus => exact ⟨_, rfl, reads_keeps _⟩
  case clockSet v => exact ⟨_, rfl, (reqClockSet_keeps v s).request _⟩
  case clockRead => exact ⟨_, rfl, reads_keeps _⟩
  case noticeRead => exact ⟨_, rfl, (reqNoticeRead_keeps s).request _⟩
  case noticeEnable k => exact ⟨_, rfl, (reqNoticeEnable_keeps k s).request _⟩
  -- power and resets
  case coldStart b => exact ⟨_, rfl, coldStart_keeps b s⟩
  case warmReset c => exact ⟨_, rfl, warmReset_keeps c s⟩
  case warmResetEnd b => exact ⟨_, rfl, warmResetEnd_keeps b s⟩
  case retentionDomainLoss => exact ⟨_, rfl, retentionLoss_keeps s⟩

/-- A command is taken off the queue and carried out; with none waiting the block idles. -/
theorem step_keeps (h : step s = .next t) : Keeps s t := by
  unfold step at h
  split at h
  · cases h
    exact idle_keeps s
  · rename_i c rest _
    obtain ⟨u, hu, k⟩ := exec_keeps c { s with pending := rest }
    obtain rfl : u = t := Host.Outcome.next.inj (hu.symm.trans h)
    exact .trans (.of_same {} {} {}) k

/-! ### The statements -/

/-- Settles O60: a step is a command or an idle second, and each keeps both invariants. -/
theorem everyStepKeepsSafe : Obligations.EveryStepKeepsSafe := fun _ _ hs h => ⟨(step_keeps h).safe hs, (step_keeps h).sound⟩

/-- Settles O59. -/
theorem resetIsSafe : Obligations.ResetIsSafe := ⟨reset_safe, reset_recordsOk⟩

/-- Settles O2: the invariants' case split names every command's answer. -/
theorem everyCommandAnswers : Obligations.EveryCommandAnswers := fun c s => (exec_keeps c s).imp fun _ h => h.1

/-- Settles O1: by the definition of a step. -/
theorem stepRunsFrontCommand : Obligations.StepRunsFrontCommand := fun _ _ _ => rfl

end Sys2Proof.Machine
end

section
/-! PROOF. The bus (chapter 01): error counts and confinement, reception, where a placed frame goes, the transmitter's choice and
the refill of the stream it takes from. -/

namespace Sys2Proof.Machine

set_option Elab.async false

variable {s : State}

/-! ### Events and requests of a running machine -/

/-- R181, R183: an event that leaves the clock is what its command does. -/
theorem event_live {f : State → State} (h : s.Live) (k : (f s).clock = s.clock) : event f s = f s :=
  event_eq h.1 (k ▸ h.2)

/-- The same for an event that is moves. -/
theorem event_moves {f : State → State} (h : s.Live) (k : Moves s (f s)) : event f s = f s := event_live h k.still.clock

/-- R190: a request that is carried out leaves its response in the port. -/
theorem request_answers {i : Instr} {act : Act} {r : Reply} {t : State} (h : s.Serves i) (e : act s = (r, t))
    (hc : t.clock = s.clock) : request i act s = .next { t with port := .ready r } := by
  have k := request_eq i act h (by rw [e]; exact hc ▸ h.1.2)
  rw [e] at k
  exact k

/-- R193: a refused request changes the port alone. -/
theorem request_refuses {i : Instr} {act : Act} {x : Status} (h : s.Serves i) (e : act s = refuse x s) :
    request i act s = .next (s.reply x []) := request_answers h e rfl

/-! ### Confinement (R14) -/

theorem confinement_off (h : s.busOff = true) : s.confinement = 2 := by simp [State.confinement, h]

theorem confinement_on (h : s.busOff = false) : s.confinement = if 128 ≤ s.tec ∨ 128 ≤ s.rec_ then 1 else 0 := by
  simp [State.confinement, h]

theorem noticeChange_same_confinement {c : Nat} (h : s.confinement = c) : noticeChange c s = s := by simp [noticeChange, h]

theorem noticeChange_of_ne {c : Nat} (h : s.confinement ≠ c) : noticeChange c s = raiseBus 0 s := by simp [noticeChange, h]

theorem noticeChange_eq (c : Nat) (s : State) : noticeChange c s = { s with notices := (noticeChange c s).notices } := by
  unfold noticeChange
  split
  · rfl
  · exact raiseBus_eq 0 s

theorem noticeChange_still (c : Nat) (s : State) : Still s (noticeChange c s) := by
  rw [noticeChange_eq]
  exact {}

theorem noticeChange_queue (c : Nat) (s : State) (q : QueueName) : (noticeChange c s).queue q = s.queue q := by
  rw [noticeChange_eq]
  cases q <;> rfl

/-! ### Reception (R2, R13) -/

/-- R13, R14: only the receive count can have made the node passive, and it does no longer. -/
theorem countReceived_eq (h : s.busOff = false) :
    let u : State := { s with rec_ := receivedCount s.rec_ }
    countReceived s = if 128 ≤ s.rec_ ∧ s.tec ≤ 127 then raiseBus 0 u else u := by
  have low : ¬ 128 ≤ receivedCount s.rec_ := by unfold receivedCount; split <;> omega
  have now : State.confinement { s with rec_ := receivedCount s.rec_ } = if 128 ≤ s.tec then 1 else 0 := by
    rw [confinement_on (s := { s with rec_ := receivedCount s.rec_ }) h]
    simp [low]
  have before := confinement_on h
  by_cases hr : 128 ≤ s.rec_ ∧ s.tec ≤ 127
  · have ht : ¬ 128 ≤ s.tec := by omega
    simp only [hr, and_self, if_true]
    exact noticeChange_of_ne (by rw [now, before]; simp [ht, hr.1])
  · simp only [hr, if_false]
    refine noticeChange_same_confinement ?_
    rw [now, before]
    by_cases ht : 128 ≤ s.tec
    · simp [ht]
    · have : ¬ 128 ≤ s.rec_ := fun h => hr ⟨h, by omega⟩
      simp [ht, this]

theorem countReceived_still (s : State) : Still { s with rec_ := receivedCount s.rec_ } (countReceived s) :=
  noticeChange_still _ _

theorem bufferFrame_room (f : InFrame) (h : s.inbound.length < 16) :
    bufferFrame f s = { s with inbound := s.inbound ++ [f] } := if_pos h

theorem bufferFrame_full (f : InFrame) (h : 16 ≤ s.inbound.length) :
    bufferFrame f s = raiseBus 1 { s with overruns := min 65535 (s.overruns + 1) } := if_neg (Nat.not_lt.2 h)

theorem receiveFrame_eq (f : InFrame) (h : s.busOff = false) : receiveFrame f s = bufferFrame f (countReceived s) := by
  simp [receiveFrame, h]

theorem receiveFrame_clock (f : InFrame) (s : State) : (receiveFrame f s).clock = s.clock := by
  unfold receiveFrame bufferFrame
  split
  · rfl
  · split
    · exact (countReceived_still s).clock
    · rw [raiseBus_eq]
      exact (countReceived_still s).clock

/-- Settles O9: the receive count first (A33), then the buffer. -/
theorem frameReceiveFillsTheBuffer : Obligations.FrameReceiveFillsTheBuffer := by
  intro s f hl hb
  have run : exec (.frameReceive f) s = .next (bufferFrame f (countReceived s)) := by
    rw [← receiveFrame_eq f hb]
    exact congrArg _ (event_live hl (receiveFrame_clock f s))
  have inb : (countReceived s).inbound = s.inbound := (countReceived_still s).inbound
  have lost : (countReceived s).overruns = s.overruns := (countReceived_still s).overruns
  have counted := countReceived_eq hb
  refine ⟨fun room => ?_, fun full => ?_⟩
  · rw [run, bufferFrame_room f (inb.symm ▸ room), inb, counted]
    rfl
  · rw [run, bufferFrame_full f (inb.symm ▸ full), lost, counted]
    rfl

/-! ### Acceptance and source (R3, R4) -/

theorem discardFrame_eq {f : InFrame} {rest : List InFrame} (h : s.inbound = f :: rest) (a : acceptedKind f = none) :
    discardFrame s = { s with inbound := rest, discarded := min 65535 (s.discarded + 1) } := by
  simp only [discardFrame, h, a, if_true, satAdd]

/-- R4: a frame from a source that is not accepted is taken off the buffer, and nothing else. -/
theorem slotFrame_ignored {k : InKind} {block : Nat → InFrame → State → State} {f : InFrame} {rest : List InFrame}
    (h : s.inbound = f :: rest) (a : acceptedKind f = some k) (b : s.acceptsSource f.source = false) :
    slotFrame k block s = { s with inbound := rest } := by
  have b' : State.acceptsSource { s with inbound := rest } f.source = false := b
  simp [slotFrame, takeHead, h, a, b']

theorem acceptsSource_false {n : Nat}
    (h : n < 1 ∨ 32 < n ∨ (s.oven n).state = .vacant ∨ (s.oven n).state = .discovered) : s.acceptsSource n = false := by
  rcases h with h | h | h | h
  · simp [State.acceptsSource, isSlot, Nat.not_le.2 h]
  · simp [State.acceptsSource, isSlot, Nat.not_le.2 h]
  · simp [State.acceptsSource, OvenState.accepted, h]
  · simp [State.acceptsSource, OvenState.accepted, h]

theorem dispatchOf_accepted {f : InFrame} {k : InKind} (h : acceptedKind f = some k) : dispatchOf f = k.command := by
  simp [dispatchOf, h]

/-- A frame's row is that of a slot frame of its kind, but for CLAIM and REJOIN. -/
theorem exec_command {k : InKind} (s : State) (hc : k ≠ .claim) (hr : k ≠ .rejoin) :
    ∃ block, exec k.command s = .next (event (slotFrame k block) s) := by
  cases k
  case claim => exact absurd rfl hc
  case rejoin => exact absurd rfl hr
  all_goals exact ⟨_, rfl⟩

theorem ofCode_none_or (n : Nat) : InKind.ofCode n = none ∨ ∃ k, InKind.ofCode n = some k := by
  cases InKind.ofCode n <;> simp

/-- The three kinds of which R3 checks more than the code. -/
theorem ofCode_claim_iff (n : Nat) : InKind.ofCode n = some .claim ↔ n = 0x01 := by
  constructor
  · intro h; unfold InKind.ofCode at h; split at h <;> simp_all
  · rintro rfl; rfl

theorem ofCode_stageSummary_iff (n : Nat) : InKind.ofCode n = some .stageSummary ↔ n = 0x21 := by
  constructor
  · intro h; unfold InKind.ofCode at h; split at h <;> simp_all
  · rintro rfl; rfl

theorem ofCode_fault_iff (n : Nat) : InKind.ofCode n = some .fault ↔ n = 0x40 := by
  constructor
  · intro h; unfold InKind.ofCode at h; split at h <;> simp_all
  · rintro rfl; rfl

theorem acceptedKind_none_iff (f : InFrame) : acceptedKind f = none ↔
    InKind.ofCode f.kind = none ∨ (f.kind = 0x01 ∧ f.tag ≠ numAt f.data 0 6 % 128) ∨
      (f.kind = 0x21 ∧ 3 ≤ numAt f.data 2 1 / 32) ∨
      (f.kind = 0x40 ∧ (2 ≤ numAt f.data 2 1 ∨ 0xFF00 ≤ numAt f.data 0 2)) := by
  rw [← ofCode_claim_iff, ← ofCode_stageSummary_iff, ← ofCode_fault_iff]
  unfold acceptedKind
  split
  case h_1 hk => simp [hk]
  case h_2 hk => rw [hk]; split <;> simp_all
  case h_3 hk =>
    rw [hk]
    split
    · rename_i le
      simp [Nat.not_le.2 (Nat.lt_succ_of_le le)]
    · rename_i nle
      simp [Nat.succ_le_of_lt (Nat.lt_of_not_le nle)]
  case h_4 hk =>
    rw [hk]
    split <;> simp_all
    omega
  case h_5 k hc hs hf hk => simp_all

/-- Settles O10: the three clauses are R3's discard, R4's source test, and the kinds' own checks. -/
theorem frameDiscardCountsTheFrame : Obligations.FrameDiscardCountsTheFrame := by
  refine ⟨fun s f rest hl hi ha => ?_, fun s f rest k hl hi ha hc hr hs => ?_, acceptedKind_none_iff⟩
  · have e := discardFrame_eq hi ha
    rw [← e]
    exact congrArg _ (event_live hl (by rw [e]))
  · obtain ⟨block, run⟩ := exec_command (k := k) s hc hr
    have e := slotFrame_ignored (block := block) hi ha (acceptsSource_false hs)
    rw [dispatchOf_accepted ha, run, event_live hl (by rw [e]), e]

/-! ### Errors (R13 to R15) -/

theorem countReceiveError_eq (d : Bool) (s : State) : countReceiveError d s =
    noticeChange s.confinement { s with rec_ := min 255 (s.rec_ + if d then 8 else 1) } := rfl

/-- R13: an ERROR_PASSIVE node's count does not move without acknowledgement; past 255 the node enters BUS_OFF. -/
theorem countTransmitError_eq (b : Bool) (h : s.busOff = false) : countTransmitError b s =
    if b = true ∧ (128 ≤ s.tec ∨ 128 ≤ s.rec_) then s
    else if s.tec + 8 ≤ 255 then noticeChange s.confinement { s with tec := s.tec + 8 }
    else raiseBus 0 { s with tec := 255, busOff := true } := by
  have passive : s.confinement = 1 ↔ 128 ≤ s.tec ∨ 128 ≤ s.rec_ := by
    rw [confinement_on h]
    split <;> simp_all
  have past : 255 < s.tec + 8 ↔ ¬ s.tec + 8 ≤ 255 := by omega
  unfold countTransmitError enterBusOff
  simp only [passive, past, ite_not]

theorem countTransmitError_clock (b : Bool) (s : State) : (countTransmitError b s).clock = s.clock := by
  unfold countTransmitError enterBusOff
  split
  · rfl
  · split
    · rw [raiseBus_eq]
    · exact (noticeChange_still _ _).clock

/-- Settles O11: each event by its count's equation; BUS_OFF shuts out all of them. -/
theorem errorCountsMove : Obligations.ErrorCountsMove := by
  intro s hl
  refine ⟨fun on => ⟨fun d => ?_, ?_, fun b ht => ?_⟩, fun off => ⟨fun d => ?_, ?_, fun n => ?_, ?_, fun f => ?_⟩, rfl⟩
  · have e : (if s.busOff = true then s else countReceiveError d s) = countReceiveError d s := by simp [on]
    exact congrArg _ ((event_live hl ((congrArg _ e).trans (noticeChange_still _ _).clock)).trans e)
  · have e : (if s.busOff = true then s else countReceived s) = countReceived s := by simp [on]
    exact congrArg _ ((event_live hl ((congrArg _ e).trans (countReceived_still s).clock)).trans e)
  · have e : transmitError b s = countTransmitError b s := by simp [transmitError, ht, on]
    rw [← countTransmitError_eq b on, ← e]
    exact congrArg _ (event_live hl (e ▸ countTransmitError_clock b s))
  · have e : (if s.busOff = true then s else countReceiveError d s) = s := by simp [off]
    exact congrArg _ ((event_live hl (congrArg _ e)).trans e)
  · have e : (if s.busOff = true then s else countReceived s) = s := by simp [off]
    exact congrArg _ ((event_live hl (congrArg _ e)).trans e)
  · have e : transmitError n s = s := by simp [transmitError, off]
    exact congrArg _ ((event_live hl (congrArg _ e)).trans e)
  · have e : frameSent s = s := by simp [frameSent, off]
    exact congrArg _ ((event_live hl (congrArg _ e)).trans e)
  · have e : receiveFrame f s = s := by simp [receiveFrame, off]
    exact congrArg _ ((event_live hl (congrArg _ e)).trans e)

/-- Settles O12: by the definition of the confinement state and of its notice. -/
theorem confinementFollowsTheCounts : Obligations.ConfinementFollowsTheCounts := by
  refine fun s => ⟨fun on ht hr => ?_, fun on h => ?_, confinement_off, noticeChange_same_confinement rfl, fun c hc => ?_⟩
  · rw [confinement_on on, if_neg (by omega)]
  · rw [confinement_on on, if_pos h]
  · rw [noticeChange_of_ne (Ne.symm hc), raiseBus, Nat.zero_add]

/-! ### Where a placed frame goes (R6, R7) -/

theorem standing_iff (k : OutKind) : k.standing = true ↔ k = .lockState ∨ k = .hygieneState := by
  cases k <;> simp [OutKind.standing]

theorem enqueue_replaces {f : OutFrame} (h : f.payload.kind.standing = true)
    (a : (s.queue f.payload.kind.queue).any (fun g => g.payload.kind = f.payload.kind && g.dest = f.dest) = true) :
    enqueue f s = s.setQueue f.payload.kind.queue ((s.queue f.payload.kind.queue).map fun g =>
      if (g.payload.kind = f.payload.kind && g.dest = f.dest) = true then { g with payload := f.payload } else g) :=
  if_pos ⟨h, a⟩

/-- R7: the frame takes the place of no queued one. -/
def State.Fresh (s : State) (f : OutFrame) : Prop := ¬ (f.payload.kind.standing = true ∧
  (s.queue f.payload.kind.queue).any (fun g => g.payload.kind = f.payload.kind && g.dest = f.dest) = true)

theorem enqueue_room {f : OutFrame} (h : s.Fresh f)
    (room : (s.queue f.payload.kind.queue).length < f.payload.kind.queue.capacity) :
    enqueue f s = s.setQueue f.payload.kind.queue (s.queue f.payload.kind.queue ++ [f]) := by
  unfold enqueue
  rw [if_neg h, if_pos room]

theorem enqueue_full {f : OutFrame} (h : s.Fresh f)
    (full : f.payload.kind.queue.capacity ≤ (s.queue f.payload.kind.queue).length) : enqueue f s = dropFrame f s := by
  unfold enqueue
  rw [if_neg h, if_neg (Nat.not_lt.2 full)]

/-- Settles O16: the branches of `enqueue` in turn. -/
theorem placingAFrame : Obligations.PlacingAFrame := by
  intro f s
  dsimp only
  rw [← standing_iff]
  have places : (match f.payload.kind.queue with | .urgent => 8 | .answer => 16 | .bulk => 32 | .image => 16) =
      f.payload.kind.queue.capacity := by cases f.payload.kind.queue <;> rfl
  refine ⟨fun h => enqueue_replaces h.1 h.2, fun h room => enqueue_room h (room.trans_eq places),
    fun h full k => ?_, fun h full k => ?_⟩
  · rw [enqueue_full h (places.symm.trans_le full), dropFrame, if_pos k]
    rfl
  · rw [enqueue_full h (places.symm.trans_le full), dropFrame, if_neg k]
    rfl

end Sys2Proof.Machine
end

section
/-! PROOF. The transmitter's choice (R10), what the producer of a frame taken does (R8, R79, R167), and the recovery from BUS_OFF
(R15). -/

namespace Sys2Proof.Machine

set_option Elab.async false

variable {s : State} {q : QueueName} {f : OutFrame} {rest : List OutFrame}

/-! ### The queue chosen (R10) -/

/-- How the choice goes on from the best queue so far to the next in the natural order. -/
def State.better (s : State) (best : Option QueueName) (q : QueueName) : Option QueueName :=
  if (s.queue q).isEmpty then best
  else match best with
    | none => some q
    | some b => if s.level b < s.level q then some q else some b

theorem nextQueue_eq (s : State) :
    s.nextQueue = [QueueName.urgent, .answer, .bulk, .image].foldl s.better none := by
  unfold State.nextQueue
  congr 1

/-- b is the best of the queues looked at: none where all are empty. -/
def State.BestOf (s : State) (l : List QueueName) : Option QueueName → Prop
  | none => ∀ r ∈ l, s.queue r = []
  | some b => b ∈ l ∧ ∀ r ∈ l, s.queue r ≠ [] → s.level r < s.level b ∨ (s.level r = s.level b ∧ b.place ≤ r.place)

/-- One queue more, later in the natural order than those looked at. -/
theorem better_bestOf {l : List QueueName} {b : Option QueueName} (h : s.BestOf l b) (later : ∀ r ∈ l, r.place < q.place) :
    s.BestOf (l ++ [q]) (s.better b q) := by
  unfold State.better
  by_cases hq : s.queue q = []
  · rw [if_pos (by simp [hq])]
    cases b with
    | none => exact List.forall_mem_append.2 ⟨h, by simpa using hq⟩
    | some b =>
      refine ⟨List.mem_append_left _ h.1, List.forall_mem_append.2 ⟨h.2, ?_⟩⟩
      simp [hq]
  · rw [if_neg (by simpa using hq)]
    cases b with
    | none =>
      refine ⟨by simp, List.forall_mem_append.2 ⟨fun r hr ne => absurd (h r hr) ne, ?_⟩⟩
      simp
    | some b =>
      dsimp only
      split
      · rename_i lt
        refine ⟨by simp, List.forall_mem_append.2 ⟨fun r hr ne => .inl ?_, by simp⟩⟩
        rcases h.2 r hr ne with k | k <;> omega
      · rename_i nlt
        refine ⟨List.mem_append_left _ h.1, List.forall_mem_append.2 ⟨h.2, ?_⟩⟩
        have := later b h.1
        simp only [List.mem_singleton, forall_eq]
        intro _
        omega

theorem nextQueue_bestOf (s : State) : s.BestOf [.urgent, .answer, .bulk, .image] s.nextQueue := by
  rw [nextQueue_eq]
  have none : s.BestOf [] none := by simp [State.BestOf]
  have u := better_bestOf (q := .urgent) none (by simp)
  have a := better_bestOf (q := .answer) u (by decide)
  have b := better_bestOf (q := .bulk) a (by decide)
  exact better_bestOf (q := .image) b (by decide)

theorem place_injective {q r : QueueName} (h : q.place = r.place) : q = r := by cases q <;> cases r <;> first | rfl | cases h

theorem mem_queueNames (q : QueueName) : q ∈ [QueueName.urgent, .answer, .bulk, .image] := by cases q <;> decide

theorem nextQueue_of_chooses (h : s.Chooses q f rest) : s.nextQueue = some q := by
  have ne : s.queue q ≠ [] := by rw [h.head]; exact List.cons_ne_nil _ _
  have best := nextQueue_bestOf s
  cases hb : s.nextQueue with
  | none => rw [hb] at best; exact absurd (best q (mem_queueNames q)) ne
  | some b =>
    rw [hb] at best
    have hbq := best.2 q (mem_queueNames q) ne
    have hqb := h.best b (nextQueue_nonempty hb)
    exact congrArg some (place_injective (by omega))

/-! ### The choice made -/

theorem State.held_false_iff (s : State) : s.held = false ↔ s.transmitter = none ∧ s.busOff = false := by
  simp [State.held]

theorem takeFrame_of_chooses (h : s.Chooses q f rest) (free : s.held = false) :
    takeFrame s = some (f, State.setQueue { s with transmitter := some f } q rest) := by
  obtain ⟨ht, hb⟩ := s.held_false_iff.1 free
  unfold takeFrame
  rw [if_neg (by simp [ht, hb]), nextQueue_of_chooses h]
  dsimp only
  rw [h.head]
  cases q <;> rfl

theorem kick_of_chooses (h : s.Chooses q f rest) (free : s.held = false) :
    kick s = afterTaken f (State.setQueue { s with transmitter := some f } q rest) := by
  unfold kick
  rw [takeFrame_of_chooses h free]

theorem kick_of_empty (h : ∀ q, s.queue q = []) : kick s = s :=
  kick_settled_eq fun _ => ⟨h .urgent, h .answer, h .bulk, h .image⟩

/-- The choice depends on the queues and the levels alone. -/
theorem State.Chooses.congr {t : State} (h : s.Chooses q f rest) (queues : ∀ r, t.queue r = s.queue r)
    (levels : ∀ r, t.level r = s.level r) : t.Chooses q f rest where
  head := (queues q).trans h.head
  best r hr := by
    rw [levels, levels]
    exact h.best r (by rwa [queues] at hr)

/-! ### A producer with nothing to place (R8) -/

/-- Only the last frame of a transfer arms a deadline, and only frames left are placed. -/
theorem fillSegments_none {k : Nat} {b : DistSlot} (hb : s.distSlot k = some b) (hn : b.total ≤ b.next) (fuel : Nat) :
    fillSegments fuel k s = s := by
  cases fuel with
  | zero => rfl
  | succ fuel =>
    unfold fillSegments
    rw [hb]
    dsimp only
    split
    · rfl
    · rw [if_neg (fun h => Nat.not_lt.2 hn h.1)]

theorem fillImage_none {ch : Nat} {b : Binding} {m : Campaign} (hb : s.channel ch = some b)
    (hm : s.campaign b.campaign = some m) (hr : b.stream = .streaming → frameReady m.imageSize b = false) (fuel : Nat) :
    fillImage fuel ch s = s := by
  cases fuel with
  | zero => rfl
  | succ fuel =>
    unfold fillImage
    rw [hb]
    dsimp only
    rw [hm]
    dsimp only
    exact if_neg fun h => by simp [hr h.1] at h

theorem afterTaken_unfollowed (h : s.Unfollowed f) : afterTaken f s = s := by
  unfold State.Unfollowed at h
  unfold afterTaken
  split
  · rename_i k hk
    rw [hk] at h
    unfold segmentTaken
    cases hb : s.distSlot k with
    | none => rfl
    | some b =>
      obtain ⟨hn, ht⟩ := h b hb
      simp only [fillSegments_none hb hn, if_neg ht]
  · rename_i ch hc
    rw [hc] at h
    unfold imageTaken
    rcases h with ⟨b, m, hb, hm, hr⟩ | ⟨hb, hm⟩
    · rw [hb]
      exact fillImage_none hb hm hr _
    · rw [hb]
      exact chooseChannels_none hm _
  · rfl

/-- What the producers look at is not in the transport. -/
theorem State.Unfollowed.congr {t : State} (h : s.Unfollowed f) (slots : t.slots = s.slots) (channels : t.channels = s.channels)
    (campaigns : t.campaigns = s.campaigns) : t.Unfollowed f := by
  have d : ∀ k, t.distSlot k = s.distSlot k := fun k => by simp only [State.distSlot, slots]
  have c : ∀ k, t.channel k = s.channel k := fun k => by simp only [State.channel, channels]
  have m : ∀ k, t.campaign k = s.campaign k := fun k => by simp only [State.campaign, campaigns]
  unfold State.Unfollowed at h ⊢
  simpa only [d, c, m] using h

theorem unfollowed_of_oven {n : Nat} (h : f.mark = .oven n) : s.Unfollowed f := by simp [State.Unfollowed, h]

/-! ### FRAME_SENT (R11, R13) -/

/-- R13: what a sent frame leaves of the counts. -/
abbrev State.sentCount (s : State) : State := noticeChange s.confinement { s with tec := s.tec - 1 }

theorem sentCount_eq (s : State) : s.sentCount = { s with tec := s.tec - 1, notices := s.sentCount.notices } := by
  unfold State.sentCount
  rw [noticeChange_eq]

theorem frameSent_eq (ht : s.transmitter.isSome = true) (hb : s.busOff = false) :
    frameSent s = kick { s.sentCount with transmitter := none } := by
  rw [frameSent, if_pos ⟨ht, hb⟩]
  rfl

theorem frameSent_clock (s : State) : (frameSent s).clock = s.clock := by
  unfold frameSent
  split
  · have k : TouchSteps _ (kick { countSent s with transmitter := none }) := (Touches.kick .refl).steps
    exact k.still.clock.trans (noticeChange_still _ _).clock
  · rfl

theorem exec_frameSent (hl : s.Live) (hb : s.busOff = false) (ht : s.transmitter.isSome = true) :
    exec .frameSent s = .next (kick { s.sentCount with transmitter := none }) := by
  rw [← frameSent_eq ht hb]
  exact congrArg _ (event_live hl (frameSent_clock s))

theorem sentCount_queue (q : QueueName) : State.queue { s.sentCount with transmitter := none } q = s.queue q := by
  rw [sentCount_eq]
  cases q <;> rfl

theorem sentCount_chooses (h : s.Chooses q f rest) : State.Chooses { s.sentCount with transmitter := none } q f rest :=
  h.congr sentCount_queue fun r => by rw [sentCount_eq]; cases r <;> rfl

theorem sentCount_free (hb : s.busOff = false) : State.held { s.sentCount with transmitter := none } = false :=
  (State.held_false_iff _).2 ⟨rfl, by rw [sentCount_eq]; exact hb⟩

/-- R10, R11: the frame chosen is in the transmitter, and its producer is told. -/
theorem exec_frameSent_of_chooses (hl : s.Live) (hb : s.busOff = false) (ht : s.transmitter.isSome = true)
    (h : s.Chooses q f rest) : exec .frameSent s =
      .next (afterTaken f (State.setQueue { s.sentCount with transmitter := some f } q rest)) := by
  rw [exec_frameSent hl hb ht, kick_of_chooses (sentCount_chooses h) (sentCount_free hb)]

theorem setQueue_records (s : State) (q : QueueName) (l : List OutFrame) : (s.setQueue q l).slots = s.slots ∧
    (s.setQueue q l).channels = s.channels ∧ (s.setQueue q l).campaigns = s.campaigns := by
  cases q <;> exact ⟨rfl, rfl, rfl⟩

theorem taken_unfollowed (h : s.Unfollowed f) :
    State.Unfollowed (State.setQueue { s.sentCount with transmitter := some f } q rest) f := by
  obtain ⟨a, b, c⟩ := setQueue_records { s.sentCount with transmitter := some f } q rest
  refine h.congr (a.trans ?_) (b.trans ?_) (c.trans ?_) <;> rw [sentCount_eq]

/-- Settles O13: the choice of R10, where the producer of the frame taken has nothing to place. -/
theorem frameSentTakesTheHighestQueue : Obligations.FrameSentTakesTheHighestQueue := by
  intro s hl hb ht
  have taken : ∀ q f rest, s.Chooses q f rest → s.Unfollowed f →
      exec .frameSent s = .next (State.setQueue { s.sentCount with transmitter := some f } q rest) := fun q f rest h k => by
    rw [exec_frameSent_of_chooses hl hb ht h, afterTaken_unfollowed (taken_unfollowed k)]
  refine ⟨fun empty => ?_, fun q f rest n h hm => taken q f rest h (unfollowed_of_oven hm), taken⟩
  rw [exec_frameSent hl hb ht, kick_of_empty fun q => (sentCount_queue q).trans (empty q)]

/-! ### The refill (R8, R79, R167) -/

/-- R79: the next frame of a bound transfer. -/
def segmentFrame (s : State) (k : Nat) (b : DistSlot) (r : Recipe) : OutFrame :=
  { payload := transferFrame (s.oven b.oven) r b.next, producer := .distribution, mark := .distSlot k, dest := b.oven }

theorem fillSegments_succ {k : Nat} {b : DistSlot} {r : Recipe} (hb : s.distSlot k = some b)
    (hr : s.recipe b.number b.version = some r) (fuel : Nat) :
    fillSegments (fuel + 1) k s = if b.next < b.total ∧ s.segmentsQueued k < 8 then
      fillSegments fuel k (enqueue (segmentFrame s k b r) (s.setDistSlot k (some { b with next := b.next + 1 }))) else s := by
  conv_lhs => unfold fillSegments
  rw [hb]
  dsimp only
  rw [hr]
  rfl

/-- R8: with eight frames queued nothing is placed. -/
theorem fillSegments_full {k : Nat} (h : 8 ≤ s.segmentsQueued k) (fuel : Nat) : fillSegments fuel k s = s := by
  cases fuel with
  | zero => rfl
  | succ fuel =>
    unfold fillSegments
    split
    · rfl
    · split
      · rfl
      · exact if_neg fun c => Nat.not_lt.2 h c.2

theorem transferFrame_kind (o : Oven) (r : Recipe) (i : Nat) : (transferFrame o r i).kind = .segment := by
  unfold transferFrame
  split
  · rfl
  · split
    · rfl
    · split <;> rfl

theorem segmentFrame_kind (s : State) (k : Nat) (b : DistSlot) (r : Recipe) :
    (segmentFrame s k b r).payload.kind = .segment := transferFrame_kind _ _ _

/-- R6: a SEGMENT frame is added at the tail of BULK while there is room. -/
theorem enqueue_segment {g : OutFrame} (hk : g.payload.kind = .segment) (room : s.bulk.length < 32) :
    enqueue g s = { s with bulk := s.bulk ++ [g] } := by
  have fresh : s.Fresh g := fun h => by simp [hk, OutKind.standing] at h
  have hq : g.payload.kind.queue = .bulk := by rw [hk]; rfl
  rw [enqueue_room fresh (by rw [hq]; exact room), hq]
  rfl

/-- R8, R79: one frame behind the seven that are queued. -/
theorem fillSegments_one {k : Nat} {b : DistSlot} {r : Recipe} (hb : s.distSlot k = some b)
    (hr : s.recipe b.number b.version = some r) (hn : b.next < b.total) (seven : s.segmentsQueued k = 7)
    (room : s.bulk.length < 32) (fuel : Nat) : fillSegments (fuel + 1) k s =
      State.setDistSlot { s with bulk := s.bulk ++ [segmentFrame s k b r] } k (some { b with next := b.next + 1 }) := by
  rw [fillSegments_succ hb hr, if_pos ⟨hn, by omega⟩,
    enqueue_segment (s := s.setDistSlot k _) (segmentFrame_kind s k b r) room]
  refine fillSegments_full (s := State.setDistSlot { s with bulk := s.bulk ++ [segmentFrame s k b r] } k _) ?_ fuel
  show 8 ≤ List.countP _ (s.bulk ++ [segmentFrame s k b r])
  rw [List.countP_append, show List.countP _ s.bulk = 7 from seven]
  simp [segmentFrame]

theorem segmentTaken_of_slot {k i : Nat} {b : DistSlot} (hb : s.distSlot k = some b) (hi : i + 1 ≠ b.total) :
    segmentTaken k i s = fillSegments 8 k s := by
  simp only [segmentTaken, hb, if_neg hi]
  rfl

/-- R79: the last frame of a transfer arms the PROGRESS deadline. -/
theorem segmentTaken_last {k i : Nat} {b : DistSlot} (hb : s.distSlot k = some b) (hn : b.total ≤ b.next)
    (hi : i + 1 = b.total) : segmentTaken k i s = s.setLoaded b.oven ((s.loadedOf b.oven).map fun e =>
      if e.number = b.number && e.version = b.version && e.state = .sending then
        { e with deadline := some (.progress, s.after 5) } else e) := by
  simp only [segmentTaken, hb, if_pos hi, fillSegments_none hb hn]
  rfl

/-- R8: with eight frames queued nothing is placed. -/
theorem fillImage_full {ch : Nat} (h : 8 ≤ s.framesQueued ch) (fuel : Nat) : fillImage fuel ch s = s := by
  cases fuel with
  | zero => rfl
  | succ fuel =>
    unfold fillImage
    split
    · rfl
    · split
      · rfl
      · exact if_neg fun c => Nat.not_lt.2 h c.2.1

theorem fillImage_succ {ch : Nat} {b : Binding} {m : Campaign} (hb : s.channel ch = some b)
    (hm : s.campaign b.campaign = some m) (fuel : Nat) : fillImage (fuel + 1) ch s =
      if b.stream = .streaming ∧ s.framesQueued ch < 8 ∧ frameReady m.imageSize b = true then
        fillImage fuel ch (placeImageFrame ch b m.imageSize s) else s := by
  conv_lhs => unfold fillImage
  rw [hb]
  dsimp only
  rw [hm]
  rfl

theorem frameReady_iff (m : Campaign) (b : Binding) : frameReady m.imageSize b = true ↔ b.Ready m := by
  simp [frameReady, Binding.Ready]

/-- R6: an IMAGE_DATA frame is added at the tail of IMAGE while there is room. -/
theorem enqueue_image {g : OutFrame} (hk : g.payload.kind.queue = .image) (room : s.image.length < 16) :
    enqueue g s = { s with image := s.image ++ [g] } := by
  have fresh : s.Fresh g := fun h => by
    have := (standing_iff _).1 h.1
    rcases this with e | e <;> simp [e, OutKind.queue] at hk
  rw [enqueue_room fresh (by rw [hk]; exact room), hk]
  rfl

/-- R167: sent moves on by the bytes placed, and the acknowledgement timeout is armed if none was. -/
theorem placeImageFrame_eq {ch : Nat} {b : Binding} (m : Campaign) (hb : s.channel ch = some b) (room : s.image.length < 16) :
    placeImageFrame ch b m.imageSize s =
      State.setChannel { s with image := s.image ++ [imageAt ch m b] } ch (some (s.sentOn m b)) := by
  unfold placeImageFrame
  dsimp only
  rw [enqueue_image rfl room]
  show State.setChannel _ ch (Option.map _ (s.channel ch)) = _
  rw [hb, Option.map_some]
  congr 2
  unfold State.sentOn
  cases b.timeout <;> simp only [frameBytes, reduceCtorEq, false_and, true_and, if_false]
  rfl

/-- R8, R167: one frame behind the seven that are queued. -/
theorem fillImage_one {ch : Nat} {b : Binding} {m : Campaign} (hb : s.channel ch = some b)
    (hm : s.campaign b.campaign = some m) (hs : b.stream = .streaming) (ready : b.Ready m) (seven : s.framesQueued ch = 7)
    (room : s.image.length < 16) (fuel : Nat) : fillImage (fuel + 1) ch s =
      State.setChannel { s with image := s.image ++ [imageAt ch m b] } ch (some (s.sentOn m b)) := by
  rw [fillImage_succ hb hm, if_pos ⟨hs, by omega, (frameReady_iff m b).2 ready⟩, placeImageFrame_eq m hb room]
  refine fillImage_full (s := State.setChannel { s with image := s.image ++ [imageAt ch m b] } ch _) ?_ fuel
  show 8 ≤ List.countP _ (s.image ++ [imageAt ch m b])
  rw [List.countP_append, show List.countP _ s.image = 7 from seven]
  simp [imageAt, imageFrame]

theorem imageTaken_of_channel {ch : Nat} {b : Binding} (hb : s.channel ch = some b) : imageTaken ch s = fillImage 8 ch s := by
  unfold imageTaken
  rw [hb]
  rfl

/-- Settles O14: the frame taken leaves seven of its stream, and the next is placed behind them. -/
theorem segmentStreamIsRefilled : Obligations.SegmentStreamIsRefilled := by
  refine ⟨?segment, ?last, ?image⟩
  case segment =>
    intro s f rest k b r hl hb ht hc hm _ _ hk hr hn hi seven room
    rw [exec_frameSent_of_chooses hl hb ht hc]
    have slot : State.distSlot { s.sentCount with transmitter := some f, bulk := rest } k = some b := by
      rw [sentCount_eq]; exact hk
    have record : State.recipe { s.sentCount with transmitter := some f, bulk := rest } b.number b.version = some r := by
      rw [sentCount_eq]; exact hr
    have oven : State.oven { s.sentCount with transmitter := some f, bulk := rest } b.oven = s.oven b.oven := by
      rw [sentCount_eq]; rfl
    have e := fillSegments_one slot record hn seven room 7
    simp only [segmentFrame, oven] at e
    simp only [afterTaken, hm]
    rw [← e]
    exact congrArg _ (segmentTaken_of_slot slot hi)
  case last =>
    intro s f rest k b hl hb ht hc hm hk hn hi
    rw [exec_frameSent_of_chooses hl hb ht hc]
    have slot : State.distSlot { s.sentCount with transmitter := some f, bulk := rest } k = some b := by
      rw [sentCount_eq]; exact hk
    have entries : State.loadedOf { s.sentCount with transmitter := some f, bulk := rest } b.oven = s.loadedOf b.oven := by
      rw [sentCount_eq]; rfl
    have after : State.after { s.sentCount with transmitter := some f, bulk := rest } 5 = min 4294967295 (s.clock + 5) := by
      rw [sentCount_eq]; rfl
    have e := segmentTaken_last slot hn hi
    rw [entries, after] at e
    simp only [Bool.and_eq_true, decide_eq_true_eq, and_assoc] at e
    simp only [afterTaken, hm]
    exact congrArg _ e
  case image =>
    intro s f rest ch b m hl hb ht hc hm _ _ hch hca hst seven room ready
    rw [exec_frameSent_of_chooses hl hb ht hc]
    have bound : State.channel { s.sentCount with transmitter := some f, image := rest } ch = some b := by
      rw [sentCount_eq]; exact hch
    have record : State.campaign { s.sentCount with transmitter := some f, image := rest } b.campaign = some m := by
      rw [sentCount_eq]; exact hca
    have on : State.sentOn { s.sentCount with transmitter := some f, image := rest } m b = s.sentOn m b := by
      rw [sentCount_eq]; rfl
    have e := fillImage_one bound record hst ready seven room 7
    rw [on] at e
    simp only [afterTaken, hm]
    exact congrArg _ ((imageTaken_of_channel bound).trans e)

/-! ### Recovery (R15) -/

/-- R15: what the recovery leaves before the choice. -/
abbrev State.recovered (s : State) : State := raiseBus 0 { s with busOff := false, tec := 0, rec_ := 0 }

theorem recovered_eq (s : State) :
    s.recovered = { s with busOff := false, tec := 0, rec_ := 0, notices := s.recovered.notices } := by
  unfold State.recovered
  rw [raiseBus_eq]

theorem exec_busOffRecovery (hl : s.Live) (hb : s.busOff = true) : exec .busOffRecovery s = .next (kick s.recovered) := by
  have e : busOffRecovery s = kick s.recovered := if_pos hb
  have k : TouchSteps _ (kick s.recovered) := (Touches.kick .refl).steps
  rw [← e]
  refine congrArg _ (event_live hl ?_)
  rw [e, k.still.clock, recovered_eq]

theorem recovered_queue (q : QueueName) : s.recovered.queue q = s.queue q := by
  rw [recovered_eq]
  cases q <;> rfl

/-- R13: a count of 0 stays 0 as a frame is sent, and nothing is noticed. -/
theorem sentCount_zero (h : s.tec = 0) : s.sentCount = s := by
  have e : ({ s with tec := s.tec - 1 } : State) = s:=
    congrArg (fun n => ({ s with tec := n } : State)) (by omega : s.tec - 1 = s.tec)
  unfold State.sentCount
  rw [e]
  exact noticeChange_same_confinement rfl

/-- Settles O15: the counts are cleared and noticed, and then the choice is R10's. -/
theorem busOffRecoveryResumes : Obligations.BusOffRecoveryResumes := by
  intro s hl hb
  have run := exec_busOffRecovery hl hb
  have free : s.transmitter = none → s.recovered.held = false := fun ht =>
    (State.held_false_iff _).2 (by rw [recovered_eq]; exact ⟨ht, rfl⟩)
  have taken : ∀ q f rest, s.transmitter = none → s.Chooses q f rest → s.Unfollowed f →
      exec .busOffRecovery s = .next (State.setQueue { s.recovered with transmitter := some f } q rest) :=
    fun q f rest ht h k => by
      have c : s.recovered.Chooses q f rest := h.congr recovered_queue fun r => by rw [recovered_eq]; cases r <;> rfl
      obtain ⟨x, y, z⟩ := setQueue_records { s.recovered with transmitter := some f } q rest
      have u : State.Unfollowed (State.setQueue { s.recovered with transmitter := some f } q rest) f := by
        refine k.congr (x.trans ?_) (y.trans ?_) (z.trans ?_) <;> rw [recovered_eq]
      rw [run, kick_of_chooses c (free ht), afterTaken_unfollowed u]
  refine ⟨fun ht => ?_, fun ht empty => ?_, fun q f rest n ht h hm => taken q f rest ht h (unfollowed_of_oven hm), taken,
    fun sent ht => ?_⟩
  · rw [run, kick_held]
    simp only [State.held]
    rw [recovered_eq]
    simp [ht]
  · rw [run, kick_of_empty fun q => (recovered_queue q).trans (empty q)]
  · have live : State.Live { s.recovered with transmitter := some sent } := by rw [recovered_eq]; exact hl
    have same : { s.recovered with transmitter := none } = s.recovered := by rw [recovered_eq, ht]
    rw [run, exec_frameSent live (by rw [recovered_eq]) rfl, sentCount_zero (by rw [recovered_eq]), same]

end Sys2Proof.Machine
end

section
/-! PROOF. Steps and resets: what an idle step does (A3), what a reset leaves (R180, R187), and what is taken while the main
domain is
held (R181). -/

namespace Sys2Proof.Machine

set_option Elab.async false

variable {s : State}

/-! ### An idle step (A3) -/

theorem step_idle (h : s.pending = []) : step s = .next (idle s) := by simp only [step, h]

theorem idle_second (h : s.power = .running) (p : ∀ i, s.port ≠ .executing i) (e : s.inbound = []) : idle s = second s := by
  unfold idle
  rw [h]
  dsimp only
  split
  · rename_i i hp
    exact absurd hp (p i)
  · rename_i _ hi _
    exact absurd (e.symm.trans hi) (List.cons_ne_nil _ _).symm
  · rfl

theorem idle_executing {i : Instr} (h : s.power = .running) (p : s.port = .executing i) :
    idle s = { s with pending := s.pending ++ [i] } := by simp only [idle, h, p]

theorem idle_dispatch {f : InFrame} {rest : List InFrame} (h : s.power = .running) (p : ∀ i, s.port ≠ .executing i)
    (e : s.inbound = f :: rest) : idle s = { s with pending := s.pending ++ [dispatchOf f] } := by
  unfold idle
  rw [h, e]
  dsimp only
  split
  · rename_i i hp
    exact absurd hp (p i)
  · rename_i g _ hg _
    rw [(List.cons.inj hg).1]
  · rename_i hg _
    cases hg

theorem tickClock_alarms (s : State) : (tickClock s).alarms = s.alarms := rfl

theorem windowOpens_iff (s : State) (c : Nat) :
    s.windowOpens c = true ↔ ∃ m, s.campaign c = some m ∧ m.windowStart ≠ m.windowEnd ∧ s.clock % 60 = 0 ∧
      minuteOfDay s.clock = m.windowStart := by
  unfold State.windowOpens
  cases s.campaign c <;> simp [and_assoc]

theorem mem_allCampaigns (c : Nat) : c ∈ allCampaigns ↔ 1 ≤ c ∧ c ≤ 4 := by
  simp only [allCampaigns, List.mem_cons, List.not_mem_nil, or_false]
  omega

/-- R183, R173: what falls due is the rows of the deadlines reached and of the window starts reached. -/
theorem mem_fallDue (s : State) (i : Instr) :
    i ∈ s.fallDue ↔ (∃ a ∈ s.alarms, a.instant ≤ s.clock ∧ a.command = i) ∨
      ∃ c m, 1 ≤ c ∧ c ≤ 4 ∧ s.campaign c = some m ∧ m.windowStart ≠ m.windowEnd ∧ s.clock % 60 = 0 ∧
        minuteOfDay s.clock = m.windowStart ∧ i = .windowStart c := by
  simp only [State.fallDue, List.mem_append, List.mem_map, State.mem_dueAlarms, List.mem_filter, mem_allCampaigns,
    windowOpens_iff]
  refine or_congr ⟨?_, ?_⟩ ⟨?_, ?_⟩
  · rintro ⟨a, ⟨ha, ht⟩, hc⟩
    exact ⟨a, ha, ht, hc⟩
  · rintro ⟨a, ha, ht, hc⟩
    exact ⟨a, ⟨ha, ht⟩, hc⟩
  · rintro ⟨c, ⟨⟨lo, hi⟩, m, hm, hw, hz, ho⟩, rfl⟩
    exact ⟨c, m, lo, hi, hm, hw, hz, ho, rfl⟩
  · rintro ⟨c, m, lo, hi, hm, hw, hz, ho, rfl⟩
    exact ⟨c, ⟨⟨lo, hi⟩, m, hm, hw, hz, ho⟩, rfl⟩

theorem second_eq (h : s.pending = []) :
    second s = { s with clock := min 4294967295 (s.clock + 1), pending := (tickClock s).fallDue } := by
  simp only [second, h, List.nil_append, tickClock, satAdd, Config.maxClock]

/-- Settles O3: with nothing to do a second passes and what falls due is queued. -/
theorem idleSecondQueuesWhatFallsDue : Obligations.IdleSecondQueuesWhatFallsDue := by
  intro s hp
  refine ⟨fun hr he hi => ⟨(tickClock s).fallDue, ?_, ?_⟩, fun i hr he => ?_, fun cause since hw => ?_, fun hc => ?_⟩
  · rw [step_idle hp, idle_second hr he hi, second_eq hp]
  · have now : (tickClock s).clock = min 4294967295 (s.clock + 1) := by simp only [tickClock, satAdd, Config.maxClock]
    intro i
    rw [mem_fallDue, now, tickClock_alarms]
    exact Iff.rfl
  · rw [step_idle hp, idle_executing hr he, hp]
    rfl
  · rw [step_idle hp]
    simp only [idle, hw, tickClock, satAdd, Config.maxClock]
  · rw [step_idle hp]
    simp only [idle, hc]

/-! ### Dispatch of the head frame (R3) -/

/-- Each kind but CLAIM and REJOIN has a row that takes its frame as a slot frame, with a block whose work is moves. -/
theorem exec_command_moves {k : InKind} (hc : k ≠ .claim) (hr : k ≠ .rejoin) :
    ∃ block : Nat → InFrame → State → State, (∀ n f (u : State), Moves u (block n f u)) ∧
      ∀ u, exec k.command u = .next (event (slotFrame k block) u) := by
  cases k
  case claim => exact absurd rfl hc
  case rejoin => exact absurd rfl hr
  case assignAck => exact ⟨_, fun n f _ => Moves.refl.assignAckFrame n f, fun _ => rfl⟩
  case capability => exact ⟨_, fun n f _ => Moves.refl.capabilityFrame n f, fun _ => rfl⟩
  case status => exact ⟨_, fun n f _ => Moves.refl.statusFrame n f, fun _ => rfl⟩
  case testReport => exact ⟨_, fun n f _ => Moves.refl.testReportFrame n f, fun _ => rfl⟩
  case lookup => exact ⟨_, fun n f _ => Moves.refl.lookupFrame n f, fun _ => rfl⟩
  case pull => exact ⟨_, fun n f _ => Moves.refl.pullFrame n f, fun _ => rfl⟩
  case have_ => exact ⟨_, fun n f _ => Moves.refl.haveFrame n f, fun _ => rfl⟩
  case decline => exact ⟨_, fun n f _ => Moves.refl.declineFrame n f, fun _ => rfl⟩
  case loadDone => exact ⟨_, fun n f _ => Moves.refl.loadDoneFrame n f, fun _ => rfl⟩
  case unloadDone => exact ⟨_, fun n f _ => Moves.refl.unloadDoneFrame n f, fun _ => rfl⟩
  case startRequest => exact ⟨_, fun n f _ => Moves.refl.startRequestFrame n f, fun _ => rfl⟩
  case stageSummary => exact ⟨_, fun n f _ => Moves.refl.stageSummaryFrame n f, fun _ => rfl⟩
  case cookEnd => exact ⟨_, fun n f _ => Moves.refl.cookEndFrame n f, fun _ => rfl⟩
  case cleanStart => exact ⟨_, fun n f _ => Moves.refl.cleanStartFrame n f, fun _ => rfl⟩
  case cleanPhase => exact ⟨_, fun n f _ => Moves.refl.cleanPhaseFrame n f, fun _ => rfl⟩
  case cleanEnd => exact ⟨_, fun n f _ => Moves.refl.cleanEndFrame n f, fun _ => rfl⟩
  case fault => exact ⟨_, fun n f _ => Moves.refl.faultFrame n f, fun _ => rfl⟩
  case imageReady => exact ⟨_, fun n f _ => Moves.refl.imageReadyFrame n f, fun _ => rfl⟩
  case imageRefuse => exact ⟨_, fun n f _ => Moves.refl.imageRefuseFrame n f, fun _ => rfl⟩
  case imageAck => exact ⟨_, fun n f _ => Moves.refl.imageAckFrame n f, fun _ => rfl⟩
  case imageCheck => exact ⟨_, fun n f _ => Moves.refl.imageCheckFrame n f, fun _ => rfl⟩

/-- R3: a slot frame is moves from the state with the frame taken off the buffer. -/
theorem slotFrame_moves {k : InKind} {block : Nat → InFrame → State → State} (hb : ∀ n f (u : State), Moves u (block n f u))
    {f : InFrame} {rest : List InFrame} (h : s.inbound = f :: rest) (a : acceptedKind f = some k) :
    Moves { s with inbound := rest } (slotFrame k block s) := by
  cases b : s.acceptsSource f.source
  · rw [slotFrame_ignored h a b]
    exact .refl
  · rw [slotFrame_eq h a b]
    exact (Moves.refl.heard f.source).trans (hb _ _ _)

theorem claimFrame_eq {f : InFrame} {rest : List InFrame} (h : s.inbound = f :: rest) (a : acceptedKind f = some .claim) :
    claimFrame s = claimSerial (numAt f.data 0 6) (numAt f.data 6 1) { s with inbound := rest } := by
  simp [claimFrame, takeHead, h, a]

theorem rejoinHead_eq {f : InFrame} {rest : List InFrame} (h : s.inbound = f :: rest) (a : acceptedKind f = some .rejoin) :
    rejoinHead s = rejoinFrame f.source f.tag f.data { s with inbound := rest } := by
  simp [rejoinHead, takeHead, h, a]

/-- The row of the head frame of an accepted kind takes that frame and nothing else off the buffer. -/
theorem exec_command_inbound {k : InKind} {f : InFrame} {rest : List InFrame} (hl : s.Live) (h : s.inbound = f :: rest)
    (a : acceptedKind f = some k) : ∃ t, exec k.command s = .next t ∧ t.inbound = rest := by
  by_cases hc : k = .claim
  · subst hc
    have m : Still { s with inbound := rest } (claimFrame s) := by
      rw [claimFrame_eq h a]
      exact (Moves.refl.claimSerial _ _).still
    exact ⟨_, congrArg Host.Outcome.next (event_live (f := claimFrame) hl m.clock), m.inbound⟩
  by_cases hr : k = .rejoin
  · subst hr
    obtain ⟨l, m⟩ := rejoinFrame_moves f.source f.tag f.data { s with inbound := rest }
    rw [← rejoinHead_eq h a] at m
    exact ⟨_, congrArg Host.Outcome.next (event_live (f := rejoinHead) hl m.still.clock), m.still.inbound⟩
  obtain ⟨block, hb, run⟩ := exec_command_moves hc hr
  have m := (slotFrame_moves hb h a).still
  exact ⟨_, (run s).trans (congrArg _ (event_live hl m.clock)), m.inbound⟩

/-- Settles O4: the head frame's row is queued, and takes that frame. -/
theorem idleDispatchTakesTheHeadFrame : Obligations.IdleDispatchTakesTheHeadFrame := by
  intro s f rest hl hp he hi
  refine ⟨by rw [step_idle hp, idle_dispatch hl.1 he hi, hp]; rfl, ?_⟩
  cases a : acceptedKind f with
  | none =>
    have d : dispatchOf f = .frameDiscard := by simp [dispatchOf, a]
    have e := discardFrame_eq hi a
    rw [d]
    exact ⟨_, congrArg Host.Outcome.next (event_live (f := discardFrame) hl (by rw [e])), by rw [e]⟩
  | some k =>
    rw [dispatchOf_accepted a]
    exact exec_command_inbound hl hi a

/-! ### Held in reset (R181, R187) -/

theorem exec_held (c : Instr) (h : isReset c = false) (k : s.power ≠ .running) : exec c s = .next s := by
  cases c
  case coldStart => cases h
  case warmReset => cases h
  case warmResetEnd => cases h
  case retentionDomainLoss => cases h
  case arbitrationLost => rfl
  all_goals exact congrArg _ (event_held k)

theorem exec_coldHeld (c : Instr) (h : s.power = .coldHeld) (k : ∀ b, c ≠ .coldStart b) (l : c ≠ .retentionDomainLoss) :
    exec c s = .next s := by
  cases hr : isReset c with
  | false => exact exec_held c hr (by simp [h])
  | true =>
    cases c
    case coldStart b => exact absurd rfl (k b)
    case retentionDomainLoss => exact absurd rfl l
    case warmReset cause => exact congrArg Host.Outcome.next (by simp only [warmReset, h])
    case warmResetEnd b => exact congrArg Host.Outcome.next (by simp only [warmResetEnd, h])
    all_goals cases hr

/-- Settles O8. -/
theorem heldInResetTakesNoEvent : Obligations.HeldInResetTakesNoEvent := by
  refine ⟨fun c s h k => exec_held c h k, fun s => ⟨retentionLoss s, rfl, rfl, fun c hc => ?_, fun b => rfl⟩⟩
  by_cases l : c = .retentionDomainLoss
  · subst l
    rfl
  · exact exec_coldHeld c rfl hc l

/-! ### What a reset leaves -/

/-- R187: nothing is armed after a cold start. -/
theorem coldStart_alarms (b : Bool) (s : State) : (coldStart b s).alarms = [] := by
  have oven : ∀ n, (coldStart b s).oven n = {} := fun n => vget_replicate 32 n _
  have permit : ∀ n, (coldStart b s).permit n = none := fun n => vget_replicate 32 n _
  have loaded : ∀ n, (coldStart b s).loadedOf n = [] := fun n => vget_replicate 32 n _
  have campaign : ∀ c, (coldStart b s).campaign c = none := fun c => vget_replicate 4 c _
  have channel : ∀ c, (coldStart b s).channel c = none := fun c => vget_replicate 2 c _
  have ovens : ∀ n, (coldStart b s).ovenAlarms n = [] := fun n => by
    simp [State.ovenAlarms, oven, permit, State.hygiene, State.clean, Oven.commAt, alarmAt]
  have sets : ∀ n, (coldStart b s).loadedAlarms n = [] := fun n => by
    simp [State.loadedAlarms, State.transferTimer, State.transferEntry, loaded, alarmAt]
  have campaigns : ∀ c, (coldStart b s).campaignAlarms c = [] := fun c => by simp [State.campaignAlarms, campaign]
  have channels : ∀ c, (coldStart b s).channelAlarms c = [] := fun c => by simp [State.channelAlarms, channel]
  have tickets : (coldStart b s).tickets = [] := rfl
  simp [State.alarms, State.retainedAlarms, ovens, sets, campaigns, channels, tickets]

theorem reset_cls {c : Nat} (h : c ≤ 7) : State.reset.cls c = { cap := if c = 0 then 64 else 0 } := by
  interval_cases c <;> rfl

theorem reset_enabled (k : NoticeKind) : State.reset.enabled k = true := by cases k <;> rfl

/-- Settles O5. -/
theorem coldStartState : Obligations.ColdStartState := by
  intro s b
  refine ⟨coldStart b s, rfl, rfl, rfl, rfl, rfl, rfl, rfl, rfl, rfl, fun q => by cases q <;> rfl, rfl, rfl, rfl, rfl, rfl, rfl,
    rfl, fun n => ?_, rfl, rfl, rfl, rfl, rfl, rfl, fun n => vget_replicate 32 n _, fun k => vget_replicate 4 k _, rfl,
    fun n => vget_replicate 32 n _, fun c hc => reset_cls hc, fun e => vget_replicate 32 (e + 1) _, rfl,
    fun c => vget_replicate 4 c _, fun c => vget_replicate 2 c _, rfl, rfl, rfl, reset_enabled, coldStart_alarms b s, rfl, rfl⟩
  have e : (coldStart b s).oven n = {} := vget_replicate 32 n _
  exact ⟨by rw [e], by rw [e]⟩

/-! ### CLOCK_SET and a warm reset (R184) -/

theorem reqClockSet_high {v : Nat} (h : 4000000000 < v) : reqClockSet v s = refuse .range s := if_pos h

theorem reqClockSet_low {v : Nat} (h : v ≤ 4000000000) :
    reqClockSet v s = okWith (le 4 s.clock ++ le 4 v) (gateAll (stepClock v s)) := if_neg (Nat.not_lt.2 h)

/-- R182, R184: CLOCK_SET leaves a running clock below its maximum. -/
theorem reqClockSet_live (v : Nat) (h : s.Live) : (reqClockSet v s).2.Live := by
  by_cases hv : 4000000000 < v
  · rw [reqClockSet_high hv]
    exact h
  · have m := (Moves.refl (s := stepClock v s)).gateAll.still
    rw [reqClockSet_low (Nat.not_lt.1 hv)]
    have clock : (gateAll (stepClock v s)).clock = v := m.clock
    have power : (gateAll (stepClock v s)).power = s.power := m.power
    refine ⟨power.trans h.1, ?_⟩
    show (gateAll (stepClock v s)).clock < 4294967295
    rw [clock]
    omega

theorem exec_clockSet {v : Nat} (h : s.Serves (.clockSet v)) :
    exec (.clockSet v) s = .next { (reqClockSet v s).2 with port := .ready (reqClockSet v s).1 } :=
  request_eq _ _ h (reqClockSet_live v h.1).2

theorem clockTaken_other (h : ∀ v, s.port ≠ .executing (.clockSet v)) : clockTaken s = s := by
  unfold clockTaken
  split
  · rename_i v hv
    exact absurd hv (h v)
  · rfl

theorem clockTaken_clockSet {v : Nat} (h : s.port = .executing (.clockSet v)) : clockTaken s = (reqClockSet v s).2 := by
  simp only [clockTaken, h]

theorem warmReset_running (cause : ResetCause) (h : s.power = .running) :
    warmReset cause s = { loseTransport (clockTaken s) with power := .warmReset cause (clockTaken s).clock } := by
  simp only [warmReset, h]

/-- Settles O6: what the main domain holds is lost; a CLOCK_SET being executed is taken first (R184). -/
theorem warmResetLosesTheMainDomain : Obligations.WarmResetLosesTheMainDomain := by
  intro s cause hr
  refine ⟨fun h => congrArg Host.Outcome.next ?_, fun v hl hp => ⟨_, exec_clockSet ⟨hl, .inr hp⟩, congrArg Host.Outcome.next ?_⟩⟩
  · rw [warmReset_running cause hr, clockTaken_other h]
    rfl
  · let t : State := { (reqClockSet v s).2 with port := .ready (reqClockSet v s).1 }
    have live : (reqClockSet v s).2.power = .running := (reqClockSet_live v hl).1
    have taken : clockTaken t = t := clockTaken_other (fun _ e => Port.noConfusion e)
    show warmReset cause s = warmReset cause t
    rw [warmReset_running cause hr, warmReset_running (s := t) cause live, taken, clockTaken_clockSet hp]
    rfl

end Sys2Proof.Machine
end

section
/-! PROOF. The management port (chapter 10): transactions, the checks that requests share, BUS_LEVELS and BUS_STATUS, and the
reads. -/

namespace Sys2Proof.Machine

set_option Elab.async false

variable {s : State}

/-! ### Transactions (R189 to R192) -/

theorem responseFrame_eq (b : Bool) (r : Reply) :
    responseFrame b r = le 1 r.status.code ++ le 1 (b.toNat + 2 * (decide (r.status = Status.clamped)).toNat) ++
      le 2 r.body.length ++ r.body := by simp [responseFrame, flagBits]

theorem spiRead_ready {r : Reply} (count : Nat) (h : s.port = .ready r) :
    spiRead count s = { s with
      miso := (responseFrame s.overrun r ++ List.replicate count 0).take count
      port := .idle, overrun := false } := by
  simp only [spiRead, State.shiftedOut, h]

theorem spiRead_other (count : Nat) (h : ∀ r, s.port ≠ .ready r) :
    spiRead count s = { s with miso := List.replicate count 0xFF } := by
  cases hp : s.port with
  | ready r => exact absurd hp (h r)
  | idle => simp only [spiRead, State.shiftedOut, hp]
  | executing i => simp only [spiRead, State.shiftedOut, hp]

theorem rdy_iff (s : State) : s.rdy = true ↔ s.power = .running ∧ ∃ r, s.port = .ready r := by
  cases hp : s.port <;> simp [State.rdy, hp]

theorem attn_iff (s : State) : s.attn = true ↔ s.power = .running ∧ s.notices ≠ [] := by simp [State.attn]

/-- Settles O21. -/
theorem readShiftsTheResponse : Obligations.ReadShiftsTheResponse := by
  refine ⟨fun s => ⟨rdy_iff s, attn_iff s⟩, fun s count hl => ⟨fun r hr => ?_, fun hr => ?_, fun c h1 h2 => ?_⟩⟩
  · have e := spiRead_ready count hr
    rw [responseFrame_eq] at e
    exact congrArg Host.Outcome.next ((event_live hl (by rw [e])).trans e)
  · have e := spiRead_other count hr
    exact congrArg Host.Outcome.next ((event_live hl (by rw [e])).trans e)
  · have e : (if c = 0x57 ∨ c = 0x52 then id else voidTransaction count) = voidTransaction count :=
      if_neg (not_or.2 ⟨h1, h2⟩)
    show Host.Outcome.next (event (if c = 0x57 ∨ c = 0x52 then id else voidTransaction count) s) = _
    rw [e]
    exact congrArg Host.Outcome.next (event_live hl rfl)

/-! ### A request at a busy port (A4) -/

/-- Every request row is a request in the model's sense: taken when the port admits it. -/
theorem exec_request (i : Instr) (h : isRequest i = true) : ∃ act : Act, ∀ s, exec i s = request i act s := by
  cases i <;> first | exact absurd h Bool.false_ne_true | exact ⟨_, fun _ => rfl⟩

/-- Settles O22. -/
theorem busyPortLosesTheRequest : Obligations.BusyPortLosesTheRequest := by
  intro i s hi hl h1 h2
  obtain ⟨act, run⟩ := exec_request i hi
  rw [run]
  exact request_busy i act hl (by simp [State.admits, h1, h2])

/-! ### The checks that requests share -/

theorem onRecord_range {n : Nat} {act : Act} (h : ¬ isSlot n) : onRecord n act s = refuse .range s := if_pos h

theorem onRecord_vacant {n : Nat} {act : Act} (h : isSlot n) (v : (s.oven n).state = .vacant) :
    onRecord n act s = refuse .noRecord s := by
  rw [onRecord, if_neg (not_not.2 h), if_pos v]

theorem onRecord_held {n : Nat} {act : Act} (h : isSlot n) (v : (s.oven n).state ≠ .vacant) : onRecord n act s = act s := by
  rw [onRecord, if_neg (not_not.2 h), if_neg v]

theorem onService_range {n : Nat} {act : Act} (h : ¬ isSlot n) : onService n act s = refuse .range s := onRecord_range h

theorem onService_vacant {n : Nat} {act : Act} (h : isSlot n) (v : (s.oven n).state = .vacant) :
    onService n act s = refuse .noRecord s := onRecord_vacant h v

theorem onService_other {n : Nat} {act : Act} (h : isSlot n) (v : (s.oven n).state ≠ .vacant)
    (w : (s.oven n).state ≠ .inService) : onService n act s = refuse .wrongState s := (onRecord_held h v).trans (if_neg w)

theorem onService_of {n : Nat} {act : Act} (h : isSlot n) (w : (s.oven n).state = .inService) : onService n act s = act s :=
  (onRecord_held h (by simp [w])).trans (if_pos w)

/-- A request that reads leaves its answer in the port, and nothing else moves. -/
theorem request_reads {i : Instr} {act : Act} {x : Status} {body : List Byte} (h : s.Serves i)
    (e : act s = ({ status := x, body := body }, s)) : request i act s = .next (s.reply x body) := request_answers h e rfl

/-! ### BUS_LEVELS and BUS_STATUS (R9, R16) -/

/-- Settles O17. -/
theorem busLevelsReplacesTheLevels : Obligations.BusLevelsReplacesTheLevels := by
  intro s u a b i h
  show request (.busLevels u a b i) (reqBusLevels u a b i) s = _
  split <;> rename_i hc
  · exact request_answers h (if_pos hc) rfl
  · exact request_refuses h (if_neg hc)

/-- Settles O18. -/
theorem busStatusReportsAndClears : Obligations.BusStatusReportsAndClears := by
  intro s clear h
  exact request_answers h (e := rfl) (by cases clear <;> rfl)

/-! ### The lists (R24, R45, R106, R153) -/

theorem presenceCode_eq (o : Oven) : o.presenceCode = if o.present ∨ o.state = .vacant then 0 else 1 := by
  simp [Oven.presenceCode]

theorem ovenListBody_eq (s : State) :
    ovenListBody s = allSlots.flatMap fun n => le 1 (s.oven n).state.code ++
      le 1 (if (s.oven n).present ∨ (s.oven n).state = .vacant then 0 else 1) ++ le 1 (s.oven n).locks.bits := by
  simp only [ovenListBody, presenceCode_eq]

theorem listBytes_map {α : Type} (f : α → List Byte) (l : List α) : listBytes (l.map f) = le 1 l.length ++ l.flatMap f := by
  simp [listBytes, le, List.flatMap]

/-- Settles O24. -/
theorem listsOnlyAnswer : Obligations.ListsOnlyAnswer := by
  intro s
  refine ⟨fun h => ?_, fun h => ?_, fun h => request_reads h rfl, fun h => request_reads h rfl, fun h => request_reads h ?_,
    fun h => request_reads h ?_, fun h => request_reads h rfl⟩
  · rw [← ovenListBody_eq]
    exact request_reads h rfl
  · rw [← listBytes_map]
    exact request_reads h rfl
  · rfl
  · simp [reqRelayStatus, okWith, allChannels]

/-! ### The reads of a record (R45, R64, R65, R87, R106, R153, R179) -/

theorem reqOvenRead_eq (n : Nat) (s : State) : reqOvenRead n s =
    if 1 ≤ n ∧ n ≤ 32 then okWith (if (s.oven n).state = .vacant then [0] else s.ovenBytes (s.oven n)) s
    else refuse .range s := by
  unfold reqOvenRead
  by_cases hn : isSlot n
  · rw [if_neg (not_not.2 hn), if_pos hn]
    split <;> rfl
  · rw [if_pos hn, if_neg hn]

theorem named_eq (s : State) (n k : Nat) :
    s.named n k = s.recipes.find? fun r => r.number = n && if k = 0 then r.state = .active else r.version = k := by
  unfold State.named State.recipeIn State.recipe
  by_cases hk : k = 0 <;> simp [hk]

/-- Settles O25. -/
theorem recordReadsOnlyAnswer : Obligations.RecordReadsOnlyAnswer := by
  intro s n k
  refine ⟨fun h => ?_, fun h => ?_, fun h => ?_, fun h => ?_, fun h => ?_, fun h => ?_, fun o h => ?_, fun h => ?_⟩
  · have e := reqOvenRead_eq n s
    split <;> rename_i hn
    · exact request_reads h (e.trans (if_pos hn))
    · exact request_refuses h (e.trans (if_neg hn))
  · split <;> rename_i hn
    · have e : reqRecipeRead n k s = match s.named n k with
          | some r => okWith (recipeBytes r) s
          | none => refuse .noRecord s :=
        if_neg fun c => c.elim (fun a => a ⟨hn.1, hn.2.1⟩) fun a => absurd hn.2.2 (Nat.not_le.2 a)
      rw [← named_eq]
      cases hr : s.named n k <;> rw [hr] at e
      · exact request_refuses h e
      · exact request_reads h e
    · refine request_refuses h (if_pos ?_)
      by_contra hc
      rw [not_or, not_not] at hc
      exact hn ⟨hc.1.1, hc.1.2, by omega⟩
  · split <;> rename_i hn
    · exact request_reads h (if_neg (by omega))
    · exact request_refuses h (if_pos (by omega))
  · split <;> rename_i hn
    · have e : reqLoadedSetRead n k s = onService n (fun s => okWith (loadedSetBody s n k) s) s := if_neg (by omega)
      split
      · rename_i hv
        exact request_refuses h (e.trans (onService_vacant hn.2 hv))
      · rename_i hv
        split
        · rename_i hs
          exact request_reads h (e.trans (onService_of hn.2 hs))
        · rename_i hs
          exact request_refuses h (e.trans (onService_other hn.2 hv hs))
    · by_cases hk : 63 < k
      · exact request_refuses h (if_pos hk)
      · exact request_refuses h ((if_neg hk).trans (onService_range fun hs => hn ⟨by omega, hs⟩))
  · split <;> rename_i hn
    · split <;> rename_i hv
      · exact request_refuses h (onRecord_vacant hn hv)
      · have e : reqPermitRead n s = _ := onRecord_held hn hv
        cases hp : s.permit n <;> simp only [hp] at e
        · exact request_refuses h e
        · exact request_reads h e
    · exact request_refuses h (onRecord_range hn)
  · have e : reqTicketRead n s = match s.ticket n with
        | none => refuse .noRecord s
        | some t => okWith (s.ticketBytes t) s := rfl
    show _ = Host.Outcome.next (match s.ticket n with
      | some t => s.reply .ok (s.ticketBytes t)
      | none => s.reply .noRecord [])
    cases ht : s.ticket n <;> rw [ht] at e
    · exact request_refuses h e
    · exact request_reads h e
  · have c : (∀ m ∈ o, m ≤ 32) ↔ ¬ o.any (fun n => 32 < n) = true := by cases o <;> simp
    split <;> rename_i hn
    · exact request_reads h (if_neg (c.1 hn))
    · exact request_refuses h (if_pos (not_not.1 fun x => hn (c.2 x)))
  · split <;> rename_i hn
    · exact request_reads h (if_neg (not_not.2 hn))
    · exact request_refuses h (if_pos hn)

end Sys2Proof.Machine
end

section
/-! PROOF. The written frame (R189, R190): every request's frame is read back as the request, and a frame is judged by its
length field,
its kind byte and the length that its fields need. -/

namespace Sys2Proof.Machine

set_option Elab.async false

variable {s : State} {α β : Type}

/-! ### Readers and their encoders -/

/-- A reader takes what an encoder wrote: the value, and the bytes after it. -/
def Reads (r : Reader α) (bs : List Byte) (x : α) : Prop := ∀ l, r (bs ++ l) = some (x, l)

theorem Reads.bind {r : Reader α} {f : α → Reader β} {bs cs : List Byte} {x : α} {y : β} (h : Reads r bs x)
    (k : Reads (f x) cs y) : Reads (r >>= f) (bs ++ cs) y := fun l => by
  rw [List.append_assoc, bind_reader _ _ _ _ _ (h _)]
  exact k l

/-- The last field of a body. -/
theorem Reads.last {r : Reader α} {f : α → β} {bs : List Byte} {x : α} (h : Reads r bs x) :
    Reads (r >>= fun y => pure (f y)) bs (f x) := fun l => by
  rw [bind_reader _ _ _ _ _ (h _), pure_reader]

theorem Reads.num {k n : Nat} (h : FitsBytes k n) : Reads (readNum k) (le k n) n := fun l => readNum_le k n l h
theorem Reads.bool (b : Bool) : Reads readBool [flagByte b] b := readBool_flag b
theorem Reads.signed {i : Int} (h : FitsSigned i) : Reads readSigned [signedByte i] i := fun l => readSigned_byte i l h
theorem Reads.optNum {k : Nat} {o : Option Nat} (h : OptFits k o) : Reads (readOpt (readNum k)) (optNum k o) o :=
  fun l => readOpt_num k o l h
theorem Reads.optSigned {o : Option Int} (h : OptSigned o) : Reads (readOpt readSigned) (optSigned o) o :=
  fun l => readOpt_signed o l h
theorem Reads.thresholds {t : Thresholds} (h : t.WellFormed) : Reads readThresholds (thresholdFields t) t :=
  fun l => readThresholds_fields t l h
theorem Reads.record {a : RestoreRecord} (h : a.WellFormed) : Reads readRecord (recordFields a) a :=
  fun l => readRecord_fields a l h
theorem Reads.step {a : RawStep} (h : a.WellFormed) : Reads readStep (rawStepFields a) a := fun l => readStep_fields a l h
theorem Reads.class {a : ClassArgs} (h : a.WellFormed) : Reads readClass (classFields a) a := fun l => readClass_fields a l h
theorem Reads.route {a : RouteArgs} (h : a.WellFormed) : Reads readRoute (routeFields a) a := fun l => readRoute_fields a l h
theorem Reads.campaign {a : CampaignArgs} (h : a.WellFormed) : Reads readCampaign (campaignFields a) a :=
  fun l => readCampaign_fields a l h
theorem Reads.text {t : List Byte} (h : t.length < 256) : Reads readText (textBytes t) t := fun l => readText_text t l h
theorem Reads.optText {o : Option (List Byte)} (h : ∀ t ∈ o, t.length < 256) :
    Reads readOptText (optBytes 1 (o.map textBytes)) o := fun l => readOptText_text o l h

/-- R190: a request whose body is read back is taken. -/
theorem judge_reads {i : Instr} {kind : Nat} {bs body : List Byte} {r : Reader Instr} (hl : requestLength i ≤ 512)
    (h : requestParts i = some (kind, body)) (hr : readRequest kind = some r) (hb : Reads r bs i)
    (hk : kind < 256 := by decide) (e : bs = body := by simp) : judgeFrame (requestFrame i) = .take i := by
  subst e
  exact judgeFrame_request i kind bs r h hk (by simpa only [requestLength, h] using hl) hr (hb [])

/-- A request without operands. -/
theorem Reads.none (i : Instr) : Reads (pure i) [] i := fun _ => rfl

/-- Settles O19, request by request. -/
theorem requestFramesAreReadBack : Obligations.RequestFramesAreReadBack := by
  intro i hi hw hl
  cases i
  -- the bus and the registry
  case busLevels =>
    obtain ⟨h1, h2, h3, h4⟩ := hw
    exact judge_reads hl rfl rfl (.bind (.num h1) (.bind (.num h2) (.bind (.num h3) (.last (.num h4)))))
  case busStatus => exact judge_reads hl rfl rfl (.last (.bool _))
  case ovenAdmit => exact judge_reads hl rfl rfl (.bind (.num hw.1) (.last (.num hw.2)))
  case ovenCommission =>
    obtain ⟨h1, h2, h3, h4, h5⟩ := hw
    exact judge_reads hl rfl rfl
      (.bind (.num h1) (.bind (.signed h2) (.bind (.signed h3) (.bind (.num h4) (.last (.thresholds h5))))))
  case ovenDismiss => exact judge_reads hl rfl rfl (.bind (.num hw) (.last (.bool _)))
  case ovenRetire => exact judge_reads hl rfl rfl (.bind (.num hw) (.last (.bool _)))
  case ovenSet =>
    obtain ⟨h1, h2, h3, h4, h5⟩ := hw
    exact judge_reads hl rfl rfl
      (.bind (.num h1) (.bind (.optNum h2) (.bind (.optSigned h3) (.bind (.optSigned h4) (.last (.thresholds h5))))))
  case ovenLock => exact judge_reads hl rfl rfl (.last (.num hw))
  case ovenUnlock => exact judge_reads hl rfl rfl (.last (.num hw))
  case ovenRestore =>
    obtain ⟨h1, h2, h3⟩ := hw
    exact judge_reads hl rfl rfl (.bind (.num h1) (.bind (.num h2) (.last (.record h3))))
  case siteOpen => exact judge_reads hl rfl rfl (.none _)
  case ovenRead => exact judge_reads hl rfl rfl (.last (.num hw))
  case ovenList => exact judge_reads hl rfl rfl (.none _)
  case bar => exact judge_reads hl rfl rfl (.last (.num hw))
  case unbar => exact judge_reads hl rfl rfl (.last (.num hw))
  case barList => exact judge_reads hl rfl rfl (.none _)
  -- the library and the loaded sets
  case recipeDraft =>
    obtain ⟨h1, h2, h3, h4⟩ := hw
    exact judge_reads hl rfl rfl (.bind (.num h1) (.bind (.text h2) (.bind (.num h3) (.last (.optNum h4)))))
  case recipeStep =>
    obtain ⟨h1, h2, h3⟩ := hw
    exact judge_reads hl rfl rfl (.bind (.num h1) (.bind (.num h2) (.last (.step h3))))
  case recipeTrim => exact judge_reads hl rfl rfl (.bind (.num hw.1) (.last (.num hw.2)))
  case recipeDiscardDraft => exact judge_reads hl rfl rfl (.last (.num hw))
  case recipePublish => exact judge_reads hl rfl rfl (.last (.num hw))
  case recipeWithdraw => exact judge_reads hl rfl rfl (.last (.num hw))
  case recipeGroups => exact judge_reads hl rfl rfl (.bind (.num hw.1) (.last (.num hw.2)))
  case recipeRead => exact judge_reads hl rfl rfl (.bind (.num hw.1) (.last (.num hw.2)))
  case recipeList => exact judge_reads hl rfl rfl (.bind (.num hw.1) (.last (.num hw.2)))
  case recipeResend => exact judge_reads hl rfl rfl (.bind (.num hw.1) (.last (.num hw.2)))
  case loadedSetRead => exact judge_reads hl rfl rfl (.bind (.num hw.1) (.last (.num hw.2)))
  case distStatus => exact judge_reads hl rfl rfl (.none _)
  -- permits, cleaning, tickets
  case permitRevoke => exact judge_reads hl rfl rfl (.last (.num hw))
  case permitRead => exact judge_reads hl rfl rfl (.last (.num hw))
  case permitList => exact judge_reads hl rfl rfl (.none _)
  case cleanOrder => exact judge_reads hl rfl rfl (.bind (.num hw.1) (.last (.num hw.2)))
  case manualClean => exact judge_reads hl rfl rfl (.last (.num hw))
  case classSet => exact judge_reads hl rfl rfl (.bind (.num hw.1) (.last (.class hw.2)))
  case classRead => exact judge_reads hl rfl rfl (.none _)
  case routePut => exact judge_reads hl rfl rfl (.bind (.num hw.1) (.last (.route hw.2)))
  case routeEnable => exact judge_reads hl rfl rfl (.last (.num hw))
  case routeDisable => exact judge_reads hl rfl rfl (.last (.num hw))
  case routeRead => exact judge_reads hl rfl rfl (.last (.bool _))
  case ticketOpen =>
    obtain ⟨h1, h2, h3⟩ := hw
    exact judge_reads hl rfl rfl (.bind (.num h1) (.bind (.num h2) (.last (.optNum h3))))
  case ticketAck => exact judge_reads hl rfl rfl (.bind (.num hw.1) (.last (.optText hw.2)))
  case ticketResolve => exact judge_reads hl rfl rfl (.last (.num hw))
  case ticketClose => exact judge_reads hl rfl rfl (.last (.num hw))
  case ticketRead => exact judge_reads hl rfl rfl (.last (.num hw))
  case ticketList => exact judge_reads hl rfl rfl (.bind (.num hw.1) (.last (.optNum hw.2)))
  -- campaigns, clock, notices
  case campaignPut => exact judge_reads hl rfl rfl (.bind (.num hw.1) (.last (.campaign hw.2)))
  case campaignStart => exact judge_reads hl rfl rfl (.last (.num hw))
  case campaignPause => exact judge_reads hl rfl rfl (.last (.num hw))
  case campaignResume => exact judge_reads hl rfl rfl (.last (.num hw))
  case campaignCancel => exact judge_reads hl rfl rfl (.last (.num hw))
  case campaignClear => exact judge_reads hl rfl rfl (.last (.num hw))
  case campaignRead => exact judge_reads hl rfl rfl (.last (.num hw))
  case imageBlock ch o bytes =>
    -- the block is the rest of the body, so the reader of the last field takes everything
    obtain ⟨h1, h2, -⟩ := hw
    refine judgeFrame_request (.imageBlock ch o bytes) 0x5F (le 1 ch ++ le 3 o ++ bytes) _ rfl (by decide) hl rfl ?_
    simp only [List.append_nil, List.append_assoc]
    rw [bind_reader _ _ _ _ _ (readNum_le 1 ch _ h1), bind_reader _ _ _ _ _ (readNum_le 3 o _ h2)]
    rfl
  case relayStatus => exact judge_reads hl rfl rfl (.none _)
  case clockSet => exact judge_reads hl rfl rfl (.last (.num hw))
  case clockRead => exact judge_reads hl rfl rfl (.none _)
  case noticeRead => exact judge_reads hl rfl rfl (.none _)
  case noticeEnable => exact judge_reads hl rfl rfl (.last (.num hw))
  all_goals exact absurd hi Bool.false_ne_true

/-! ### How many bytes a reader takes -/

/-- A reader fails on a list shorter than its fields, whose number of bytes the list itself may give, and else takes just these.
-/
def Takes (r : Reader α) (len : List Byte → Nat) : Prop :=
  ∀ bs, (bs.length < len bs → r bs = none) ∧ (len bs ≤ bs.length → ∃ x, r bs = some (x, bs.drop (len bs)))

/-- A reader of a fixed number of bytes. -/
abbrev TakesJust (r : Reader α) (k : Nat) : Prop := Takes r fun _ => k

theorem bind_none {r : Reader α} {f : α → Reader β} {l : List Byte} (h : r l = none) : (r >>= f) l = none := by
  show Option.bind (r l) _ = none
  rw [h]
  rfl

theorem Takes.bind {r : Reader α} {f : α → Reader β} {l m : List Byte → Nat} (h : Takes r l) (k : ∀ x, Takes (f x) m) :
    Takes (r >>= f) fun bs => l bs + m (bs.drop (l bs)) := fun bs => by
  refine ⟨fun short => ?_, fun enough => ?_⟩
  · change bs.length < l bs + m (bs.drop (l bs)) at short
    by_cases hl : bs.length < l bs
    · exact bind_none ((h bs).1 hl)
    · obtain ⟨x, hx⟩ := (h bs).2 (Nat.not_lt.1 hl)
      rw [bind_reader _ _ _ _ _ hx]
      exact (k x _).1 (by rw [List.length_drop]; omega)
  · change l bs + m (bs.drop (l bs)) ≤ bs.length at enough
    obtain ⟨x, hx⟩ := (h bs).2 (by omega)
    obtain ⟨y, hy⟩ := (k x (bs.drop (l bs))).2 (by rw [List.length_drop]; omega)
    exact ⟨y, by rw [bind_reader _ _ _ _ _ hx, hy, List.drop_drop]⟩

theorem Takes.none (x : α) : TakesJust (pure x) 0 := fun _ => ⟨fun h => absurd h (Nat.not_lt_zero _), fun _ => ⟨x, rfl⟩⟩

theorem Takes.num (k : Nat) : TakesJust (readNum k) k := fun _ =>
  ⟨fun h => if_neg (Nat.not_le.2 h), fun h => ⟨_, if_pos h⟩⟩

theorem Takes.bytes (k : Nat) : TakesJust (readBytes k) k := fun _ =>
  ⟨fun h => if_neg (Nat.not_le.2 h), fun h => ⟨_, if_pos h⟩⟩

theorem TakesJust.bind {r : Reader α} {f : α → Reader β} {j k : Nat} (h : TakesJust r j) (g : ∀ x, TakesJust (f x) k) :
    TakesJust (r >>= f) (j + k) := Takes.bind h g

theorem Takes.last {r : Reader α} {f : α → β} {l : List Byte → Nat} (h : Takes r l) : Takes (r >>= fun y => pure (f y)) l :=
  Takes.bind h fun x => Takes.none (f x)

theorem Takes.bool : TakesJust readBool 1 := (num 1).last
theorem Takes.signed : TakesJust readSigned 1 := (num 1).last

theorem Takes.opt {r : Reader α} {k : Nat} (h : TakesJust r k) : TakesJust (readOpt r) (1 + k) := Takes.bool.bind fun _ => h.last

theorem Takes.firmware : TakesJust readFirmware 4 := (num 1).bind fun _ => (num 1).bind fun _ => (num 2).last

theorem Takes.thresholds : TakesJust readThresholds 9 :=
  (opt (num 2)).bind fun _ => (opt (num 2)).bind fun _ => (opt (num 2)).last

theorem Takes.step : TakesJust readStep 10 :=
  (num 1).bind fun _ => (num 2).bind fun _ => (num 1).bind fun _ => (num 1).bind fun _ => (num 1).bind fun _ =>
    (num 2).bind fun _ => (num 1).bind fun _ => bool.last

theorem Takes.class_ : TakesJust readClass 11 :=
  (num 1).bind fun _ => bool.bind fun _ => bool.bind fun _ => bool.bind fun _ => (num 2).bind fun _ => (num 2).bind fun _ =>
    (num 2).bind fun _ => (num 1).last

theorem Takes.route : TakesJust readRoute 8 :=
  (num 2).bind fun _ => (num 2).bind fun _ => (num 1).bind fun _ => (num 1).bind fun _ => (num 1).bind fun _ => (num 1).last

theorem Takes.record : TakesJust readRecord 36 :=
  (num 1).bind fun _ => firmware.bind fun _ => (num 2).bind fun _ => bool.bind fun _ => bool.bind fun _ => (num 1).bind fun _ =>
    (num 1).bind fun _ => signed.bind fun _ => signed.bind fun _ => (num 1).bind fun _ => bool.bind fun _ => (num 2).bind fun _ =>
    (num 2).bind fun _ => (num 2).bind fun _ => (num 2).bind fun _ => (num 2).bind fun _ => (num 4).bind fun _ =>
    bool.bind fun _ => (opt (num 1)).bind fun _ => (num 2).bind fun _ => (num 2).last

/-! ### Fields whose length the body gives -/

theorem numAt_head (b : Byte) (bs : List Byte) : numAt (b :: bs) 0 1 = b.toNat := by simp [numAt, unle]

theorem readNum_head (b : Byte) (bs : List Byte) : readNum 1 (b :: bs) = some (numAt (b :: bs) 0 1, bs) := by
  simp [readNum, numAt]

theorem numAt_drop (bs : List Byte) (i j k : Nat) : numAt (bs.drop i) j k = numAt bs (i + j) k := by
  simp [numAt, List.drop_drop]

/-- A count in one byte, then as many bytes of fields as it asks for. -/
theorem Takes.counted {f : Nat → Reader α} {k : Nat} (h : ∀ n, TakesJust (f n) (k * n)) :
    Takes (readNum 1 >>= f) fun bs => 1 + k * numAt bs 0 1 := fun bs => by
  cases bs with
  | nil => exact ⟨fun _ => rfl, fun enough => absurd enough (by simp)⟩
  | cons b bs =>
    have e : (readNum 1 >>= f) (b :: bs) = f (numAt (b :: bs) 0 1) bs := bind_reader _ _ _ _ _ (readNum_head b bs)
    have drop : (b :: bs).drop (1 + k * numAt (b :: bs) 0 1) = bs.drop (k * numAt (b :: bs) 0 1) := by
      rw [Nat.add_comm, List.drop_succ_cons]
    have taken := h (numAt (b :: bs) 0 1) bs
    dsimp only at taken ⊢
    rw [e, drop, List.length_cons]
    exact ⟨fun short => taken.1 (by omega), fun enough => taken.2 (by omega)⟩

theorem Takes.of_eq {r : Reader α} {l m : List Byte → Nat} (h : Takes r l) (e : ∀ bs, l bs = m bs) : Takes r m := by
  rw [← funext e]
  exact h

theorem Takes.text : Takes readText fun bs => 1 + numAt bs 0 1 :=
  of_eq (counted (f := readBytes) (k := 1) fun n => by rw [Nat.one_mul]; exact bytes n) fun bs => by rw [Nat.one_mul]

theorem Takes.optText : Takes readOptText fun bs => 2 + numAt bs 1 1 :=
  of_eq (Takes.bind bool fun _ => Takes.last text) fun bs => by
    rw [numAt_drop, Nat.add_zero]
    omega

theorem Takes.many {r : Reader α} {k : Nat} (h : TakesJust r k) (n : Nat) : TakesJust (readMany r n) (k * n) := by
  induction n with
  | zero => exact Takes.none []
  | succ n ih =>
    rw [Nat.mul_succ, Nat.add_comm (k * n)]
    exact TakesJust.bind h fun _ => Takes.last ih

theorem Takes.list : Takes (readList readFirmware) fun bs => 1 + 4 * numAt bs 0 1 := counted firmware.many

theorem Takes.campaign : Takes readCampaign fun bs => 18 + 4 * numAt bs 1 1 :=
  of_eq (Takes.bind (num 1) fun _ => Takes.bind list fun _ => firmware.bind fun _ => (num 3).bind fun _ => (num 4).bind fun _ =>
    (num 2).bind fun _ => (num 2).bind fun _ => (num 1).last) fun bs => by
    simp only [numAt_drop, Nat.add_zero]
    omega

/-- A reader of some bytes and then of the rest of the body (A21). -/
def TakesAll (r : Reader α) (k : Nat) : Prop :=
  ∀ bs, (bs.length < k → r bs = none) ∧ (k ≤ bs.length → ∃ x, r bs = some (x, []))

theorem TakesAll.rest {f : List Byte → β} : TakesAll (readRest >>= fun y => pure (f y)) 0 := fun bs =>
  ⟨fun h => absurd h (Nat.not_lt_zero _), fun _ => ⟨f bs, rfl⟩⟩

theorem TakesAll.bind {r : Reader α} {f : α → Reader β} {j k : Nat} (h : TakesJust r j) (g : ∀ x, TakesAll (f x) k) :
    TakesAll (r >>= f) (j + k) := fun bs => by
  by_cases hj : bs.length < j
  · exact ⟨fun _ => bind_none ((h bs).1 hj), fun enough => absurd enough (by omega)⟩
  · obtain ⟨x, hx⟩ := (h bs).2 (Nat.not_lt.1 hj)
    rw [bind_reader _ _ _ _ _ hx]
    have left := g x (bs.drop j)
    rw [List.length_drop] at left
    exact ⟨fun short => left.1 (by omega), fun enough => left.2 (by omega)⟩

/-! ### What a reader can make -/

/-- Whatever a reader makes has a property. -/
def Makes (r : Reader α) (P : α → Prop) : Prop := ∀ bs x l, r bs = some (x, l) → P x

theorem Makes.bind {r : Reader α} {f : α → Reader β} {P : β → Prop} (h : ∀ x, Makes (f x) P) : Makes (r >>= f) P := by
  intro bs y l e
  obtain ⟨⟨x, m⟩, hx, hy⟩ := Option.bind_eq_some_iff.1 (show Option.bind (r bs) (fun p => f p.1 p.2) = some (y, l) from e)
  exact h x m y l hy

theorem Makes.just {P : α → Prop} {x : α} (h : P x) : Makes (pure x) P := by
  intro bs y l e
  obtain ⟨rfl, -⟩ := Prod.mk.inj (Option.some.inj e)
  exact h

/-- Section 10.3: the kind bytes of the request table. -/
def requestKinds : List Nat :=
  [0x01, 0x02, 0x10, 0x11, 0x12, 0x13, 0x14, 0x15, 0x16, 0x17, 0x18, 0x19, 0x1A, 0x1B, 0x1C, 0x1D,
    0x20, 0x21, 0x22, 0x23, 0x24, 0x25, 0x26, 0x27, 0x28, 0x30, 0x31, 0x32, 0x38, 0x39, 0x3A, 0x40, 0x41, 0x48, 0x49,
    0x4A, 0x4B, 0x4C, 0x4D, 0x4E, 0x4F, 0x50, 0x51, 0x52, 0x53, 0x58, 0x59, 0x5A, 0x5B, 0x5C, 0x5D, 0x5E, 0x5F, 0x60,
    0x68, 0x69, 0x70, 0x71]

/-- A row is a request of the table's kind byte. -/
def IsOfKind (kind : Nat) (i : Instr) : Prop := isRequest i = true ∧ (requestParts i).map Prod.fst = some kind

/-- The reader of a kind byte stands for a kind of the table, and makes requests of this kind alone. -/
theorem readRequest_some {kind : Nat} {r : Reader Instr} (h : readRequest kind = some r) :
    kind ∈ requestKinds ∧ Makes r (IsOfKind kind) := by
  unfold readRequest at h
  split at h
  all_goals first
    | cases h
      refine ⟨by decide, ?_⟩
      repeat refine Makes.bind fun _ => ?_
      exact Makes.just ⟨rfl, rfl⟩
    | cases h

theorem readRequest_none {kind : Nat} (h : kind ∉ requestKinds) : readRequest kind = none := by
  cases e : readRequest kind with
  | none => rfl
  | some r => exact absurd (readRequest_some e).1 h

/-! ### How a frame is judged (R190) -/

theorem judgeFrame_badHeader {bytes : List Byte}
    (h : bytes.length < 3 ∨ 512 < numAt bytes 1 2 ∨ bytes.length ≠ 3 + numAt bytes 1 2) :
    judgeFrame bytes = .answer .badLength := by
  match bytes with
  | [] | [_] | [_, _] => rfl
  | k :: l0 :: l1 :: body =>
    refine if_pos ?_
    have len : (k :: l0 :: l1 :: body).length = body.length + 3 := rfl
    have size : numAt (k :: l0 :: l1 :: body) 1 2 = unle [l0, l1] := rfl
    rw [len, size] at h
    omega

/-- The three bytes before the body say how long it is. -/
structure GoodHeader (bytes : List Byte) : Prop where
  head : 3 ≤ bytes.length
  small : numAt bytes 1 2 ≤ 512
  length : bytes.length = 3 + numAt bytes 1 2

theorem judgeFrame_goodHeader {bytes : List Byte} (h : GoodHeader bytes) :
    judgeFrame bytes = judgeBody (numAt bytes 0 1) (bytes.drop 3) := by
  obtain ⟨h3, hs, hl⟩ := h
  match bytes with
  | k :: l0 :: l1 :: body =>
    have len : (k :: l0 :: l1 :: body).length = body.length + 3 := rfl
    have size : numAt (k :: l0 :: l1 :: body) 1 2 = unle [l0, l1] := rfl
    rw [len, size] at hl
    rw [size] at hs
    rw [numAt_head]
    exact if_neg (by omega)

theorem GoodHeader.body {bytes : List Byte} (h : GoodHeader bytes) : (bytes.drop 3).length = numAt bytes 1 2 := by
  rw [List.length_drop, h.length]
  omega

/-- A frame whose kind byte names a request is taken when its body has just the length its fields need. -/
theorem GoodHeader.judged {bytes : List Byte} (h : GoodHeader bytes) {kind : Nat} {r : Reader Instr} {len : List Byte → Nat}
    (hk : numAt bytes 0 1 = kind) (hr : readRequest kind = some r) (ht : Takes r len) :
    (numAt bytes 1 2 ≠ len (bytes.drop 3) → judgeFrame bytes = .answer .badLength) ∧
      (numAt bytes 1 2 = len (bytes.drop 3) → ∃ i, judgeFrame bytes = .take i) := by
  obtain ⟨short, enough⟩ := ht (bytes.drop 3)
  rw [h.body] at short enough
  rw [judgeFrame_goodHeader h, hk]
  refine ⟨fun ne => judgeBody_badLength hr fun i hi => ?_, fun e => ?_⟩
  · rcases Nat.lt_or_gt_of_ne ne with lt | gt
    · rw [short lt] at hi
      cases hi
    · obtain ⟨x, hx⟩ := enough gt.le
      rw [hx, Option.some.injEq, Prod.mk.injEq] at hi
      have left := congrArg List.length hi.2
      rw [List.length_drop, h.body, List.length_nil] at left
      omega
  · obtain ⟨x, hx⟩ := enough e.ge
    have nil : (bytes.drop 3).drop (len (bytes.drop 3)) = [] := List.drop_eq_nil_of_le (by rw [h.body, e])
    rw [nil] at hx
    exact ⟨x, by simp only [judgeBody, hr, hx]⟩

/-- The same for fields of a fixed length. -/
theorem GoodHeader.fixed {bytes : List Byte} (h : GoodHeader bytes) {kind j k : Nat} {r : Reader Instr}
    (hk : numAt bytes 0 1 = kind) (hr : readRequest kind = some r) (ht : TakesJust r j) (e : j = k := by rfl) :
    (numAt bytes 1 2 ≠ k → judgeFrame bytes = .answer .badLength) ∧ (numAt bytes 1 2 = k → ∃ i, judgeFrame bytes = .take i) :=
  e ▸ h.judged hk hr ht

/-- The same for fields whose length stands in the body. -/
theorem GoodHeader.varying {bytes : List Byte} (h : GoodHeader bytes) {kind k : Nat} {r : Reader Instr} {len : List Byte → Nat}
    (hk : numAt bytes 0 1 = kind) (hr : readRequest kind = some r) (ht : Takes r len) (e : len (bytes.drop 3) = k) :
    (numAt bytes 1 2 ≠ k → judgeFrame bytes = .answer .badLength) ∧ (numAt bytes 1 2 = k → ∃ i, judgeFrame bytes = .take i) :=
  e ▸ h.judged hk hr ht

/-- A frame whose last field is the rest of its body is taken when what comes before is there. -/
theorem GoodHeader.rest {bytes : List Byte} (h : GoodHeader bytes) {kind j k : Nat} {r : Reader Instr}
    (hk : numAt bytes 0 1 = kind) (hr : readRequest kind = some r) (ht : TakesAll r j) (e : j = k := by rfl) :
    (numAt bytes 1 2 < k → judgeFrame bytes = .answer .badLength) ∧ (k ≤ numAt bytes 1 2 → ∃ i, judgeFrame bytes = .take i) := by
  subst e
  obtain ⟨short, enough⟩ := ht (bytes.drop 3)
  rw [h.body] at short enough
  rw [judgeFrame_goodHeader h, hk]
  refine ⟨fun lt => judgeBody_badLength hr fun i hi => ?_, fun le => ?_⟩
  · rw [short lt] at hi
    cases hi
  · obtain ⟨x, hx⟩ := enough le
    exact ⟨x, by simp only [judgeBody, hr, hx]⟩

theorem judgeBody_take {kind : Nat} {body : List Byte} {i : Instr} (h : judgeBody kind body = .take i) :
    ∃ r, readRequest kind = some r ∧ r body = some (i, []) := by
  unfold judgeBody at h
  split at h
  · cases h
  · rename_i r hr
    split at h
    · rename_i j hj
      cases h
      exact ⟨r, hr, hj⟩
    · cases h

theorem goodHeader_of_take {bytes : List Byte} {i : Instr} (h : judgeFrame bytes = .take i) : GoodHeader bytes := by
  by_contra hg
  have bad : judgeFrame bytes = .answer .badLength := judgeFrame_badHeader (by
    by_contra hc
    push Not at hc
    exact hg ⟨hc.1, hc.2.1, hc.2.2⟩)
  rw [bad] at h
  cases h

/-- R190: what is taken is a request of the frame's kind byte. -/
theorem isOfKind_of_take {bytes : List Byte} {i : Instr} (h : judgeFrame bytes = .take i) : IsOfKind (numAt bytes 0 1) i := by
  rw [judgeFrame_goodHeader (goodHeader_of_take h)] at h
  obtain ⟨r, hr, hb⟩ := judgeBody_take h
  exact (readRequest_some hr).2 _ _ _ hb

/-! ### A WRITE (R189) -/

theorem exec_spiWrite (bytes : List Byte) (h : s.Live) : exec (.spiWrite bytes) s = .next (spiWrite bytes s) :=
  congrArg Host.Outcome.next (event_live h (by unfold spiWrite; dsimp only; split <;> [split <;> rfl; rfl; rfl]))

theorem spiWrite_answer {bytes : List Byte} {x : Status} (h : s.port = .idle) (hx : judgeFrame bytes = .answer x) :
    spiWrite bytes s = { s with miso := List.replicate bytes.length 0, port := .ready { status := x, body := [] } } := by
  simp only [spiWrite, h, hx]

theorem spiWrite_take {bytes : List Byte} {i : Instr} (h : s.port = .idle) (hi : judgeFrame bytes = .take i) :
    spiWrite bytes s = { s with miso := List.replicate bytes.length 0, port := .executing i } := by
  simp only [spiWrite, h, hi]

theorem spiWrite_busy (bytes : List Byte) (h : s.port ≠ .idle) :
    spiWrite bytes s = { s with miso := List.replicate bytes.length 0, overrun := true } := by
  cases hp : s.port with
  | idle => exact absurd hp h
  | executing i => simp only [spiWrite, hp]
  | ready r => simp only [spiWrite, hp]

/-- Settles O20: the port's state, then the header, the kind byte and the length of each kind's fields. -/
theorem writeIsTakenAndJudged : Obligations.WriteIsTakenAndJudged := by
  refine ⟨fun s bytes hl => ⟨fun hp x hx => ?_, fun hp i hi => ?_, fun hp => ?_⟩, fun bytes => ⟨judgeFrame_badHeader,
    fun h1 h2 h3 hk => ?_, fun i hi => isOfKind_of_take hi, fun h1 h2 h3 => ⟨?_, fun hk => ?_⟩⟩⟩
  · rw [exec_spiWrite bytes hl, spiWrite_answer hp hx]
  · rw [exec_spiWrite bytes hl, spiWrite_take hp hi]
  · rw [exec_spiWrite bytes hl, spiWrite_busy bytes hp]
  · rw [judgeFrame_goodHeader ⟨h1, h2, h3⟩, judgeBody, readRequest_none hk]
  · have h : GoodHeader bytes := ⟨h1, h2, h3⟩
    have text : ∀ i, numAt (bytes.drop 3) i 1 = numAt bytes (3 + i) 1 := fun i => numAt_drop bytes 3 i 1
    simp only [List.forall_mem_cons]
    refine ⟨fun hk => h.fixed hk rfl (.bind (.num 1) fun _ => .bind (.num 1) fun _ => .bind (.num 1) fun _ => .last (.num 1)),
      fun hk => h.fixed hk rfl (.last .bool),
      fun hk => h.fixed hk rfl (.bind (.num 1) fun _ => .last (.num 1)),
      fun hk => h.fixed hk rfl (.bind (.num 1) fun _ => .bind .signed fun _ => .bind .signed fun _ => .bind (.num 1) fun _ =>
        .last .thresholds),
      fun hk => h.fixed hk rfl (.bind (.num 1) fun _ => .last .bool),
      fun hk => h.fixed hk rfl (.bind (.num 1) fun _ => .last .bool),
      fun hk => h.fixed hk rfl (.bind (.num 1) fun _ => .bind (.opt (.num 1)) fun _ => .bind (.opt .signed) fun _ => .bind (.opt
        .signed) fun _ => .last .thresholds),
      fun hk => h.fixed hk rfl (.last (.num 1)),
      fun hk => h.fixed hk rfl (.last (.num 1)),
      fun hk => h.fixed hk rfl (.bind (.num 1) fun _ => .bind (.num 6) fun _ => .last .record),
      fun hk => h.fixed hk rfl (.none _),
      fun hk => h.fixed hk rfl (.last (.num 1)),
      fun hk => h.fixed hk rfl (.none _),
      fun hk => h.fixed hk rfl (.last (.num 6)),
      fun hk => h.fixed hk rfl (.last (.num 6)),
      fun hk => h.fixed hk rfl (.none _),
      fun hk => h.varying hk rfl (.bind (.num 2) fun _ => .bind .text fun _ => .bind (.num 1) fun _ => .last (.opt (.num 1)))
        (by simp only [numAt_drop, Nat.reduceAdd]; omega),
      fun hk => h.fixed hk rfl (.bind (.num 2) fun _ => .bind (.num 1) fun _ => .last .step),
      fun hk => h.fixed hk rfl (.bind (.num 2) fun _ => .last (.num 1)),
      fun hk => h.fixed hk rfl (.last (.num 2)),
      fun hk => h.fixed hk rfl (.last (.num 2)),
      fun hk => h.fixed hk rfl (.last (.num 2)),
      fun hk => h.fixed hk rfl (.bind (.num 2) fun _ => .last (.num 1)),
      fun hk => h.fixed hk rfl (.bind (.num 2) fun _ => .last (.num 1)),
      fun hk => h.fixed hk rfl (.bind (.num 2) fun _ => .last (.num 1)),
      fun hk => h.fixed hk rfl (.bind (.num 1) fun _ => .last (.num 2)),
      fun hk => h.fixed hk rfl (.bind (.num 1) fun _ => .last (.num 1)),
      fun hk => h.fixed hk rfl (.none _),
      fun hk => h.fixed hk rfl (.last (.num 1)),
      fun hk => h.fixed hk rfl (.last (.num 1)),
      fun hk => h.fixed hk rfl (.none _),
      fun hk => h.fixed hk rfl (.bind (.num 1) fun _ => .last (.num 1)),
      fun hk => h.fixed hk rfl (.last (.num 1)),
      fun hk => h.fixed hk rfl (.bind (.num 1) fun _ => .last .class_),
      fun hk => h.fixed hk rfl (.none _),
      fun hk => h.fixed hk rfl (.bind (.num 1) fun _ => .last .route),
      fun hk => h.fixed hk rfl (.last (.num 1)),
      fun hk => h.fixed hk rfl (.last (.num 1)),
      fun hk => h.fixed hk rfl (.last .bool),
      fun hk => h.fixed hk rfl (.bind (.num 1) fun _ => .bind (.num 1) fun _ => .last (.opt (.num 2))),
      fun hk => h.varying hk rfl (.bind (.num 2) fun _ => .last .optText) (by simp only [numAt_drop, Nat.reduceAdd]; omega),
      fun hk => h.fixed hk rfl (.last (.num 2)),
      fun hk => h.fixed hk rfl (.last (.num 2)),
      fun hk => h.fixed hk rfl (.last (.num 2)),
      fun hk => h.fixed hk rfl (.bind (.num 2) fun _ => .last (.opt (.num 1))),
      fun hk => h.varying hk rfl (.bind (.num 1) fun _ => .last .campaign) (by simp only [numAt_drop, Nat.reduceAdd]; omega),
      fun hk => h.fixed hk rfl (.last (.num 1)),
      fun hk => h.fixed hk rfl (.last (.num 1)),
      fun hk => h.fixed hk rfl (.last (.num 1)),
      fun hk => h.fixed hk rfl (.last (.num 1)),
      fun hk => h.fixed hk rfl (.last (.num 1)),
      fun hk => h.fixed hk rfl (.last (.num 1)),
      fun hk => h.fixed hk rfl (.none _),
      fun hk => h.fixed hk rfl (.last (.num 4)),
      fun hk => h.fixed hk rfl (.none _),
      fun hk => h.fixed hk rfl (.none _),
      fun hk => h.fixed hk rfl (.last (.num 2)), by simp⟩
  · have h : GoodHeader bytes := ⟨h1, h2, h3⟩
    exact h.rest hk rfl (.bind (.num 1) fun _ => .bind (.num 3) fun _ => .rest)

end Sys2Proof.Machine
end

section
/-! PROOF. A request's answer (R193): every request that is carried out leaves its response, and a refused one changes nothing but
the port. -/

namespace Sys2Proof.Machine

set_option Elab.async false

variable {s : State}

/-! ### Answers -/

/-- R193: the request was carried out, or it was refused and the state is as it was; only OFFSET and FULL carry a body. -/
def Answers (s : State) (x : Reply × State) : Prop :=
  x.1.status = .ok ∨ x.1.status = .clamped ∨ (x.2 = s ∧ (x.1.body = [] ∨ x.1.status = .offset ∨ x.1.status = .full))

namespace Answers

theorem ok (t : State) : Answers s (Machine.ok t) := .inl rfl
theorem okWith (b : List Byte) (t : State) : Answers s (Machine.okWith b t) := .inl rfl
theorem okClamped (b : Bool) (t : State) : Answers s (Machine.okClamped b t) := by
  cases b
  · exact .inl rfl
  · exact .inr (.inl rfl)
theorem refuse (x : Status) : Answers s (Machine.refuse x s) := .inr (.inr ⟨rfl, .inl rfl⟩)

theorem ite {c : Prop} [Decidable c] {x y : Reply × State} (h : Answers s x) (k : Answers s y) :
    Answers s (if c then x else y) := by
  split
  · exact h
  · exact k

theorem onRecord {n : Nat} {act : Act} (h : Answers s (act s)) : Answers s (Machine.onRecord n act s) :=
  ite (refuse _) (ite (refuse _) h)

theorem onService {n : Nat} {act : Act} (h : Answers s (act s)) : Answers s (Machine.onService n act s) :=
  onRecord (ite h (refuse _))

theorem onDraft {n : Nat} {act : Recipe → Act} (h : ∀ r, Answers s (act r s)) : Answers s (Machine.onDraft n act s) := by
  refine ite (refuse _) ?_
  cases s.recipeIn n .draft with
  | some r => exact h r
  | none => exact refuse _

theorem onCampaign {c : Nat} {act : Campaign → Act} (h : ∀ m, Answers s (act m s)) : Answers s (Machine.onCampaign c act s) := by
  refine ite (refuse _) ?_
  cases s.campaign c with
  | some m => exact h m
  | none => exact refuse _

theorem setSteps (r : Recipe) (l : List Step) : Answers s (Machine.setSteps r l s) := okWith _ _

theorem setEnabled (e : Nat) (b : Bool) : Answers s (Machine.setEnabled e b s) := ite (refuse _) (ok _)

end Answers

/-! ### The requests whose checks are not a chain of conditions -/

theorem reqOvenDismiss_answers (n : Nat) (b : Bool) : Answers s (reqOvenDismiss n b s) := by
  refine .onRecord ?_
  cases (s.oven n).state
  case inService => exact .refuse _
  case retiring => exact .refuse _
  case vacant => exact .refuse _
  all_goals exact .ite (.refuse _) (.ok _)

theorem reqRecipeStep_answers (i k : Nat) (x : RawStep) : Answers s (reqRecipeStep i k x s) := by
  refine .onDraft fun r => ?_
  cases checkStep x with
  | none => exact .refuse _
  | some t =>
    dsimp only
    cases writeStep r.steps k t with
    | none => exact .refuse _
    | some l => exact .setSteps r l

theorem reqRecipeWithdraw_answers (i : Nat) : Answers s (reqRecipeWithdraw i s) := by
  refine .ite (.refuse _) ?_
  cases s.recipeIn i .active with
  | none => exact .refuse _
  | some r => exact .ite (.refuse _) (.ok _)

theorem reqRecipeGroups_answers (i g : Nat) : Answers s (reqRecipeGroups i g s) := by
  refine .ite (.refuse _) ?_
  cases s.recipeIn i .active with
  | some r => exact .ok _
  | none =>
    cases s.recipeIn i .draft with
    | none => exact .refuse _
    | some r => exact .ok _

theorem reqRecipeRead_answers (i v : Nat) : Answers s (reqRecipeRead i v s) := by
  refine .ite (.refuse _) ?_
  cases s.named i v with
  | none => exact .refuse _
  | some r => exact .okWith _ _

theorem reqRecipeResend_answers (n i : Nat) : Answers s (reqRecipeResend n i s) := by
  refine .ite (.refuse _) (.onService ?_)
  cases (s.loadedOf n).find? fun e => e.number = i && e.state = .failed with
  | none => exact .refuse _
  | some e => exact .ok _

theorem reqPermitRevoke_answers (n : Nat) : Answers s (reqPermitRevoke n s) := by
  refine .onRecord ?_
  cases s.permit n with
  | none => exact .refuse _
  | some p => exact .okWith _ _

theorem reqPermitRead_answers (n : Nat) : Answers s (reqPermitRead n s) := by
  refine .onRecord ?_
  cases s.permit n with
  | none => exact .refuse _
  | some p => exact .okWith _ _

theorem reqCleanOrder_answers (n p : Nat) : Answers s (reqCleanOrder n p s) := by
  unfold reqCleanOrder
  cases orderOf p with
  | none => exact .refuse _
  | some o => exact .onService (.ok _)

theorem reqClassSet_answers (c : Nat) (a : ClassArgs) : Answers s (reqClassSet c a s) := by
  unfold reqClassSet
  cases Severity.ofCode a.severity with
  | none => exact .refuse _
  | some x => exact .ite (.refuse _) (.okClamped _ _)

theorem reqTicketAck_answers (k : Nat) (x : Option (List Byte)) : Answers s (reqTicketAck k x s) := by
  refine .ite (.refuse _) ?_
  cases s.ticket k with
  | none => exact .refuse _
  | some t => exact .ite (.refuse _) (.ok _)

theorem reqTicketResolve_answers (k : Nat) : Answers s (reqTicketResolve k s) := by
  unfold reqTicketResolve
  cases s.ticket k with
  | none => exact .refuse _
  | some t => exact .ite (.refuse _) (.ok _)

theorem reqTicketClose_answers (k : Nat) : Answers s (reqTicketClose k s) := by
  unfold reqTicketClose
  cases s.ticket k with
  | none => exact .refuse _
  | some t => exact .ok _

theorem reqTicketRead_answers (k : Nat) : Answers s (reqTicketRead k s) := by
  unfold reqTicketRead
  cases s.ticket k with
  | none => exact .refuse _
  | some t => exact .okWith _ _

theorem reqCampaignPause_answers (c : Nat) : Answers s (reqCampaignPause c s) := by
  refine .onCampaign fun m => ?_
  cases m.state
  case running => exact .ok _
  case paused => exact .ok _
  all_goals exact .refuse _

theorem reqCampaignResume_answers (c : Nat) : Answers s (reqCampaignResume c s) := by
  refine .onCampaign fun m => ?_
  cases m.state
  case running => exact .ok _
  case paused => exact .ok _
  all_goals exact .refuse _

theorem reqCampaignCancel_answers (c : Nat) : Answers s (reqCampaignCancel c s) := by
  refine .onCampaign fun m => ?_
  cases m.state <;> exact .ok _

/-- R166: the two refusals with a body are OFFSET and FULL. -/
theorem reqImageBlock_answers (ch o : Nat) (l : List Byte) : Answers s (reqImageBlock ch o l s) := by
  refine .ite (.refuse _) ?_
  cases s.channel ch with
  | none => exact .refuse _
  | some b =>
    exact .ite (.inr (.inr ⟨rfl, .inr (.inl rfl)⟩)) (.ite (.refuse _) (.ite (.inr (.inr ⟨rfl, .inr (.inr rfl)⟩)) (.ok _)))

theorem reqNoticeRead_answers : Answers s (reqNoticeRead s) := by
  unfold reqNoticeRead
  split
  · exact .refuse _
  · exact .okWith _ _

/-! ### What the requests leave, from the state their first writes give -/

/-- R33: a dismissal is moves from the state with the serial barred, where bar is asked. -/
theorem dismiss_moves (n : Nat) (b : Bool) (s : State) :
    Moves (if b then barSerial ((s.oven n).serial.getD 0) s else s) (dismiss n b s) := by
  have m := Moves.refl.vacate (s := if b then barSerial ((s.oven n).serial.getD 0) s else s) n
  exact (m.placeBarred _ _).ite m

/-- R34: so is a retirement. -/
theorem retire_moves (n : Nat) (b : Bool) (s : State) :
    Moves (if b then barSerial ((s.oven n).serial.getD 0) s else s) (retire n b s) := by
  have m := Moves.refl (s := if b then barSerial ((s.oven n).serial.getD 0) s else s)
  exact ((((m.retireEntries n).clearLoaded n).withdrawTickets n).modOven _ _).leaveCheck n

/-- R134: a class change is moves from the state with the class replaced. -/
theorem setClass_moves (c : Nat) (new : TicketClass) (s : State) : Moves (s.setCls c new) (setClass c new s) := by
  have told := Moves.ite (c := decide ((s.cls c).severity = .lockout) = decide (new.severity = .lockout))
    (Moves.refl (s := s.setCls c new))
    (Moves.refl.foldl (f := fun s n => deriveLock n s) (fun _ n k => k.deriveLock n) ((s.setCls c new).ovensWithClass c))
  exact told.ite told.channelChoice

theorem barSerial_clock (i : Nat) (s : State) : (barSerial i s).clock = s.clock := by
  unfold barSerial
  split <;> rfl

theorem barred_clock (b : Bool) (i : Nat) (s : State) : (if b then barSerial i s else s).clock = s.clock := by
  cases b
  · rfl
  · exact barSerial_clock i s

theorem dismiss_clock (n : Nat) (b : Bool) (s : State) : (dismiss n b s).clock = s.clock :=
  (dismiss_moves n b s).still.clock.trans (barred_clock _ _ _)

theorem retire_clock (n : Nat) (b : Bool) (s : State) : (retire n b s).clock = s.clock :=
  (retire_moves n b s).still.clock.trans (barred_clock _ _ _)

theorem iteSnd_clock {c : Prop} [Decidable c] {x y : Reply × State} (h : x.2.clock = s.clock) (k : y.2.clock = s.clock) :
    (if c then x else y).2.clock = s.clock := by
  split
  · exact h
  · exact k

theorem reqBusLevels_clock (a b c d : Nat) (s : State) : (reqBusLevels a b c d s).2.clock = s.clock := by
  unfold reqBusLevels
  split <;> rfl

theorem reqSiteOpen_clock (s : State) : (reqSiteOpen s).2.clock = s.clock := by
  unfold reqSiteOpen
  split <;> rfl

theorem reqUnbar_clock (i : Nat) (s : State) : (reqUnbar i s).2.clock = s.clock := by
  unfold reqUnbar
  split <;> rfl

theorem reqBar_clock (i : Nat) (s : State) : (reqBar i s).2.clock = s.clock :=
  iteSnd_clock rfl (iteSnd_clock rfl (barSerial_clock i s))

theorem reqOvenDismiss_clock (n : Nat) (b : Bool) (s : State) : (reqOvenDismiss n b s).2.clock = s.clock := by
  refine iteSnd_clock rfl (iteSnd_clock rfl ?_)
  dsimp only
  cases (s.oven n).state
  case inService => rfl
  case retiring => rfl
  case vacant => rfl
  all_goals exact iteSnd_clock rfl (dismiss_clock n b s)

theorem reqOvenRetire_clock (n : Nat) (b : Bool) (s : State) : (reqOvenRetire n b s).2.clock = s.clock :=
  iteSnd_clock rfl (iteSnd_clock rfl (iteSnd_clock (iteSnd_clock rfl (retire_clock n b s)) rfl))

theorem reqClassSet_clock (c : Nat) (a : ClassArgs) (s : State) : (reqClassSet c a s).2.clock = s.clock := by
  unfold reqClassSet
  cases Severity.ofCode a.severity with
  | none => rfl
  | some x => exact iteSnd_clock rfl (setClass_moves c (classOf s c x a) s).still.clock

theorem reqNoticeEnable_clock (k : Nat) (s : State) : (reqNoticeEnable k s).2.clock = s.clock :=
  (Moves.refl.raiseStandings _ _ (s := { s with enables := BitVec.ofNat 16 k })).still.clock

/-! ### Every request -/

/-- What O23 says of a request and the state it finds. -/
def Answered (i : Instr) (s : State) : Prop :=
  ∃ t r, exec i s = .next t ∧ t.port = .ready r ∧
    (r.status = .ok ∨ r.status = .clamped ∨
      (t = s.reply r.status r.body ∧ (r.body = [] ∨ r.status = .offset ∨ r.status = .full)))

theorem answered_of_live {i : Instr} {act : Act} (h : s.Serves i) (run : exec i s = request i act s)
    (hc : (act s).2.clock < Config.maxClock) (a : Answers s (act s)) : Answered i s := by
  refine ⟨_, (act s).1, run.trans (request_eq i act h hc), rfl, a.imp_right (Or.imp_right fun ⟨e, b⟩ => ⟨?_, b⟩)⟩
  rw [e]

theorem answered {i : Instr} {act : Act} (h : s.Serves i) (hc : (act s).2.clock = s.clock) (a : Answers s (act s))
    (run : exec i s = request i act s := by rfl) : Answered i s := answered_of_live h run (hc ▸ h.1.2) a

theorem answered_moves {i : Instr} {act : Act} (h : s.Serves i) (m : Moves s (act s).2) (a : Answers s (act s))
    (run : exec i s = request i act s := by rfl) : Answered i s := answered h m.still.clock a run

/-- Settles O23, request by request. -/
theorem refusedRequestChangesNothing : Obligations.RefusedRequestChangesNothing := by
  intro i s hi h
  show Answered i s
  cases i
  case busLevels a b c d => exact answered h (reqBusLevels_clock a b c d s) (.ite (.ok _) (.refuse _))
  case busStatus b => exact answered h (act := reqBusStatus b) (by cases b <;> rfl) (.okWith _ _)
  case ovenAdmit n g =>
    exact answered_moves h (Moves.refl.reqOvenAdmit n g)
      (.ite (.refuse _) (.ite (.refuse _) (.ite (.refuse _) (.ok _))))
  case ovenCommission n c d g x =>
    exact answered_moves h (Moves.refl.reqOvenCommission n c d g x)
      (.ite (.refuse _) (.ite (.refuse _) (.ite (.refuse _) (.okClamped _ _))))
  case ovenDismiss n b => exact answered h (reqOvenDismiss_clock n b s) (reqOvenDismiss_answers n b)
  case ovenRetire n b => exact answered h (reqOvenRetire_clock n b s) (.onService (.ite (.refuse _) (.ok _)))
  case ovenSet n g c d x =>
    exact answered_moves h (Moves.refl.reqOvenSet n g c d x) (.ite (.refuse _) (.onService (.okClamped _ _)))
  case ovenLock n => exact answered_moves h (Moves.refl.reqOvenLock n) (.onRecord (.ok _))
  case ovenUnlock n => exact answered_moves h (Moves.refl.reqOvenUnlock n) (.onRecord (.ok _))
  case ovenRestore n i r =>
    exact answered_moves h (Moves.refl.reqOvenRestore n i r)
      (.ite (.refuse _) (.ite (.refuse _) (.ite (.refuse _) (.ite (.refuse _) (.okClamped _ _)))))
  case siteOpen => exact answered h (reqSiteOpen_clock s) (.ite (.refuse _) (.ok _))
  case ovenRead n =>
    exact answered_moves h (Moves.refl.reqOvenRead n) (.ite (.refuse _) (.ite (.okWith _ _) (.okWith _ _)))
  case ovenList => exact answered h (act := reqOvenList) rfl (.okWith _ _)
  case bar i => exact answered h (reqBar_clock i s) (.ite (.ok _) (.ite (.refuse _) (.ok _)))
  case unbar i => exact answered h (reqUnbar_clock i s) (.ite (.ok _) (.refuse _))
  case barList => exact answered h (act := reqBarList) rfl (.okWith _ _)
  case recipeDraft i x f v =>
    exact answered_moves h (Moves.refl.reqRecipeDraft i x f v)
      (.ite (.refuse _) (.ite (.refuse _) (.ite (.refuse _) (.ite (.refuse _) (.okWith _ _)))))
  case recipeStep i k x => exact answered_moves h (Moves.refl.reqRecipeStep i k x) (reqRecipeStep_answers i k x)
  case recipeTrim i k =>
    exact answered_moves h (Moves.refl.reqRecipeTrim i k) (.onDraft fun r => .ite (.refuse _) (.setSteps r _))
  case recipeDiscardDraft i => exact answered_moves h (Moves.refl.reqRecipeDiscardDraft i) (.onDraft fun _ => .ok _)
  case recipePublish i =>
    exact answered_moves h (Moves.refl.reqRecipePublish i)
      (.onDraft fun _ => .ite (.refuse _) (.ite (.refuse _) (.okWith _ _)))
  case recipeWithdraw i => exact answered_moves h (Moves.refl.reqRecipeWithdraw i) (reqRecipeWithdraw_answers i)
  case recipeGroups i g => exact answered_moves h (Moves.refl.reqRecipeGroups i g) (reqRecipeGroups_answers i g)
  case recipeRead i v => exact answered_moves h (Moves.refl.reqRecipeRead i v) (reqRecipeRead_answers i v)
  case recipeList i v => exact answered_moves h (Moves.refl.reqRecipeList i v) (.ite (.refuse _) (.okWith _ _))
  case recipeResend n i => exact answered_moves h (Moves.refl.reqRecipeResend n i) (reqRecipeResend_answers n i)
  case loadedSetRead n i =>
    exact answered_moves h (Moves.refl.reqLoadedSetRead n i) (.ite (.refuse _) (.onService (.okWith _ _)))
  case distStatus => exact answered h (act := reqDistStatus) rfl (.okWith _ _)
  case permitRevoke n => exact answered_moves h (Moves.refl.reqPermitRevoke n) (reqPermitRevoke_answers n)
  case permitRead n => exact answered_moves h (Moves.refl.reqPermitRead n) (reqPermitRead_answers n)
  case permitList => exact answered h (act := reqPermitList) rfl (.okWith _ _)
  case cleanOrder n p => exact answered_moves h (Moves.refl.reqCleanOrder n p) (reqCleanOrder_answers n p)
  case manualClean n => exact answered_moves h (Moves.refl.reqManualClean n) (.onService (.ite (.refuse _) (.ok _)))
  case classSet c a => exact answered h (reqClassSet_clock c a s) (reqClassSet_answers c a)
  case classRead => exact answered h (act := reqClassRead) rfl (.okWith _ _)
  case routePut e a =>
    exact answered_moves h (Moves.refl.reqRoutePut e a) (.ite (.refuse _) (.ite (.refuse _) (.ok _)))
  case routeEnable e => exact answered_moves h (Moves.refl.reqRouteEnable e) (.setEnabled e true)
  case routeDisable e => exact answered_moves h (Moves.refl.reqRouteDisable e) (.setEnabled e false)
  case routeRead b => exact answered_moves h (Moves.refl.reqRouteRead b) (.okWith _ _)
  case ticketOpen o c x =>
    exact answered_moves h (Moves.refl.reqTicketOpen o c x)
      (.ite (.refuse _) (.ite (.refuse _) (.ite (.refuse _) (.ite (.refuse _) (.ite (.refuse _) (.okWith _ _))))))
  case ticketAck k x => exact answered_moves h (Moves.refl.reqTicketAck k x) (reqTicketAck_answers k x)
  case ticketResolve k => exact answered_moves h (Moves.refl.reqTicketResolve k) (reqTicketResolve_answers k)
  case ticketClose k => exact answered_moves h (Moves.refl.reqTicketClose k) (reqTicketClose_answers k)
  case ticketRead k => exact answered_moves h (Moves.refl.reqTicketRead k) (reqTicketRead_answers k)
  case ticketList i o => exact answered_moves h (Moves.refl.reqTicketList i o) (.ite (.refuse _) (.okWith _ _))
  case campaignPut c a =>
    exact answered_moves h (Moves.refl.reqCampaignPut c a) (.ite (.refuse _) (.ite (.refuse _) (.ok _)))
  case campaignStart c =>
    exact answered_moves h (Moves.refl.reqCampaignStart c)
      (.onCampaign fun _ => .ite (.refuse _) (.ite (.refuse _) (.ite (.refuse _) (.okWith _ _))))
  case campaignPause c => exact answered_moves h (Moves.refl.reqCampaignPause c) (reqCampaignPause_answers c)
  case campaignResume c => exact answered_moves h (Moves.refl.reqCampaignResume c) (reqCampaignResume_answers c)
  case campaignCancel c => exact answered_moves h (Moves.refl.reqCampaignCancel c) (reqCampaignCancel_answers c)
  case campaignClear c =>
    exact answered_moves h (Moves.refl.reqCampaignClear c) (.onCampaign fun _ => .ite (.ok _) (.refuse _))
  case campaignRead c => exact answered_moves h (Moves.refl.reqCampaignRead c) (.ite (.refuse _) (.okWith _ _))
  case imageBlock ch o b => exact answered_moves h (Moves.refl.reqImageBlock ch o b) (reqImageBlock_answers ch o b)
  case relayStatus => exact answered h (act := reqRelayStatus) rfl (.okWith _ _)
  case clockSet v => exact answered_of_live h rfl (reqClockSet_live v h.1).2 (.ite (.refuse _) (.okWith _ _))
  case clockRead => exact answered h (act := reqClockRead) rfl (.okWith _ _)
  case noticeRead =>
    refine answered h (act := reqNoticeRead) ?_ reqNoticeRead_answers
    unfold reqNoticeRead
    split <;> rfl
  case noticeEnable k => exact answered h (reqNoticeEnable_clock k s) (.okWith _ _)
  all_goals exact absurd hi Bool.false_ne_true

end Sys2Proof.Machine
end

section
/-! PROOF. CLOCK_SET (R184, R185), NOTICE_ENABLE (R201, R202), the barred list and SITE_OPEN (R24, R43). -/

namespace Sys2Proof.Machine

set_option Elab.async false

variable {s : State}

/-! ### The armed deadlines under a step of the clock (R184) -/

/-- Two lists of alarms with the same commands, the instants of the first as a function moves those of the second. -/
def Shifted (f : Nat → Nat) (l m : List Alarm) : Prop :=
  l.map (fun a => (a.command, a.instant)) = m.map fun a => (a.command, f a.instant)

namespace Shifted

variable {f : Nat → Nat} {l m l' m' : List Alarm}

theorem append (h : Shifted f l m) (k : Shifted f l' m') : Shifted f (l ++ l') (m ++ m') := by
  unfold Shifted at *
  rw [List.map_append, List.map_append, h, k]

theorem alarm {t u : Option Nat} {c : Instr} {e e' : State → State} (h : t = u.map f) :
    Shifted f (alarmAt t c e) (alarmAt u c e') := by
  subst h
  cases u <;> rfl

theorem flatMap {α : Type} {xs : List α} {g k : α → List Alarm} (h : ∀ x ∈ xs, Shifted f (g x) (k x)) :
    Shifted f (xs.flatMap g) (xs.flatMap k) := by
  induction xs with
  | nil => rfl
  | cons x xs ih =>
    rw [List.flatMap_cons, List.flatMap_cons]
    exact (h x (by simp)).append (ih fun y hy => h y (by simp [hy]))

theorem flatMap_map {α β : Type} {xs : List α} {y : α → β} {g : β → List Alarm} {k : α → List Alarm}
    (h : ∀ x ∈ xs, Shifted f (g (y x)) (k x)) : Shifted f ((xs.map y).flatMap g) (xs.flatMap k) := by
  rw [List.flatMap_map]
  exact flatMap h

end Shifted

theorem mem_allSlots (n : Nat) : n ∈ allSlots ↔ isSlot n := by
  simp only [allSlots, List.mem_map, List.mem_range, isSlot]
  constructor
  · rintro ⟨m, hm, rfl⟩
    omega
  · rintro ⟨h1, h2⟩
    exact ⟨n - 1, by omega, by omega⟩

theorem vget_map_of_isSlot {α β : Type} (v : Vector α 32) (f : α → β) {n : Nat} (d : α) (e : β) (h : isSlot n) :
    vget (v.map f) n e = f (vget v n d) := by
  obtain ⟨m, rfl⟩ : ∃ m, n = m + 1 := ⟨n - 1, by omega⟩
  have hm : m < 32 := by omega
  simp [vget, hm]

theorem vget_map_none {α β : Type} {k : Nat} (v : Vector (Option α) k) (f : α → β) (n : Nat) :
    vget (v.map (Option.map f)) n none = (vget v n none).map f := vget_map v (Option.map f) n none

section
variable (v : Nat)

theorem stepClock_oven {n : Nat} (h : isSlot n) : (stepClock v s).oven n = moveOven s.clock v (s.oven n) :=
  vget_map_of_isSlot s.ovens (moveOven s.clock v) {} {} h

theorem stepClock_loadedOf (n : Nat) : (stepClock v s).loadedOf n = (s.loadedOf n).map (moveEntry s.clock v) :=
  vget_map s.loaded (fun l => l.map (moveEntry s.clock v)) n []

theorem stepClock_permit (n : Nat) : (stepClock v s).permit n = (s.permit n).map (movePermit s.clock v) :=
  vget_map_none s.permits _ n

theorem stepClock_campaign (c : Nat) : (stepClock v s).campaign c = (s.campaign c).map (moveCampaign s.clock v) :=
  vget_map_none s.campaigns _ c

theorem stepClock_channel (c : Nat) : (stepClock v s).channel c = (s.channel c).map (moveBinding s.clock v) :=
  vget_map_none s.channels _ c

theorem moveOven_commAt (a : Nat) (o : Oven) (k : CommKind) : (moveOven a v o).commAt k = (o.commAt k).map (moveDeadline a v) :=
  by
  unfold moveOven Oven.commAt
  rcases o.comm with _ | ⟨j, t⟩
  · rfl
  · by_cases h : j = k <;> simp [h]

theorem movePoint_instant (a : Nat) (p : Point) : (movePoint a v p).instant = p.instant.map (moveDeadline a v) := by
  cases p <;> rfl

theorem moveEntry_timerAt (a : Nat) (e : Entry) (k : EntryTimer) :
    (moveEntry a v e).timerAt k = (e.timerAt k).map (moveDeadline a v) := by
  unfold moveEntry Entry.timerAt
  rcases e.deadline with _ | ⟨j, t⟩
  · rfl
  · by_cases h : j = k <;> simp [h]

theorem stepClock_hygiene {n : Nat} (h : isSlot n) :
    (stepClock v s).hygiene n = (s.hygiene n).map (moveHygiene s.clock v) := by
  unfold State.hygiene
  rw [stepClock_oven v h]
  rfl

theorem stepClock_point {n : Nat} (h : isSlot n) (p : Hygiene → Point)
    (hp : ∀ h, p (moveHygiene s.clock v h) = movePoint s.clock v (p h)) :
    ((stepClock v s).hygiene n).bind (fun h => (p h).instant) =
      ((s.hygiene n).bind fun h => (p h).instant).map (moveDeadline s.clock v) := by
  rw [stepClock_hygiene v h]
  cases s.hygiene n with
  | none => rfl
  | some h =>
    rw [Option.map_some, Option.bind_some, hp]
    exact movePoint_instant v s.clock (p h)

theorem stepClock_clean {n : Nat} (h : isSlot n) :
    ((stepClock v s).clean n).map Clean.deadline = ((s.clean n).map Clean.deadline).map (moveDeadline s.clock v) := by
  unfold State.clean
  rw [stepClock_hygiene v h]
  cases s.hygiene n with
  | none => rfl
  | some h => simp [moveHygiene, Function.comp_def]

theorem stepClock_ovenAlarms {n : Nat} (h : isSlot n) :
    Shifted (moveDeadline s.clock v) ((stepClock v s).ovenAlarms n) (s.ovenAlarms n) := by
  have comm : ∀ k, ((stepClock v s).oven n).commAt k = ((s.oven n).commAt k).map (moveDeadline s.clock v) := fun k => by
    rw [stepClock_oven v h, moveOven_commAt]
  have permit : ((stepClock v s).permit n).map Permit.deadline =
      ((s.permit n).map Permit.deadline).map (moveDeadline s.clock v) := by
    rw [stepClock_permit]
    cases s.permit n <;> rfl
  have silence : ((stepClock v s).oven n).silence = (s.oven n).silence.map (moveDeadline s.clock v) := by
    rw [stepClock_oven v h]
    rfl
  have gathering : ((stepClock v s).oven n).gathering = (s.oven n).gathering.map (moveDeadline s.clock v) := by
    rw [stepClock_oven v h]
    rfl
  have deadline := stepClock_point (s := s) v h Hygiene.deadline fun _ => rfl
  have advance := stepClock_point (s := s) v h Hygiene.advance fun _ => rfl
  exact (((((((((Shifted.alarm (comm _)).append (.alarm (comm _))).append (.alarm (comm _))).append (.alarm (comm _))).append
    (.alarm silence)).append (.alarm gathering)).append (.alarm permit)).append (.alarm deadline)).append
    (.alarm advance)).append (.alarm (stepClock_clean v h))

theorem stepClock_transferTimer (n : Nat) (k : EntryTimer) :
    (stepClock v s).transferTimer n k = (s.transferTimer n k).map (moveDeadline s.clock v) := by
  unfold State.transferTimer State.transferEntry
  rw [stepClock_loadedOf, List.find?_map]
  have same : ((fun e : Entry => e.state.inTransfer) ∘ moveEntry s.clock v) = fun e => e.state.inTransfer := rfl
  rw [same]
  cases (s.loadedOf n).find? fun e => e.state.inTransfer with
  | none => rfl
  | some e => exact moveEntry_timerAt v s.clock e k

theorem stepClock_loadedAlarms (n : Nat) :
    Shifted (moveDeadline s.clock v) ((stepClock v s).loadedAlarms n) (s.loadedAlarms n) := by
  have unloads : Shifted (moveDeadline s.clock v)
      (((stepClock v s).loadedOf n |>.filter fun e => e.state = .unloading).flatMap fun e =>
        alarmAt (e.timerAt .unload) (.unloadDeadline n e.number e.version) (unloadExpiry n e.number e.version))
      (((s.loadedOf n).filter fun e => e.state = .unloading).flatMap fun e =>
        alarmAt (e.timerAt .unload) (.unloadDeadline n e.number e.version) (unloadExpiry n e.number e.version)) := by
    rw [stepClock_loadedOf, List.filter_map]
    exact .flatMap_map fun e _ => .alarm (moveEntry_timerAt v s.clock e .unload)
  exact ((Shifted.alarm (stepClock_transferTimer v n .reply)).append (.alarm (stepClock_transferTimer v n .progress))).append
    unloads

theorem stepClock_centry (c n : Nat) : (stepClock v s).centry c n =
    (s.centry c n).map fun e => { e with deadline := e.deadline.map (moveDeadline s.clock v) } := by
  unfold State.centry
  rw [stepClock_campaign]
  cases s.campaign c with
  | none => rfl
  | some m =>
    show Campaign.entry (moveCampaign s.clock v m) n = (m.entry n).map _
    unfold Campaign.entry moveCampaign
    rw [List.find?_map]
    rfl

theorem stepClock_entryDeadline (c n : Nat) (st : CEntryState) :
    (stepClock v s).entryDeadline c n st = (s.entryDeadline c n st).map (moveDeadline s.clock v) := by
  unfold State.entryDeadline
  rw [stepClock_centry]
  cases s.centry c n with
  | none => rfl
  | some e => by_cases h : e.state = st <;> simp [h]

theorem stepClock_campaignAlarms (c : Nat) :
    Shifted (moveDeadline s.clock v) ((stepClock v s).campaignAlarms c) (s.campaignAlarms c) := by
  unfold State.campaignAlarms
  rw [stepClock_campaign]
  cases s.campaign c with
  | none => rfl
  | some m =>
    exact .flatMap_map fun e _ => (Shifted.alarm (stepClock_entryDeadline v c e.oven _)).append
      (.alarm (stepClock_entryDeadline v c e.oven _))

theorem stepClock_channelAlarms (c : Nat) :
    Shifted (moveDeadline s.clock v) ((stepClock v s).channelAlarms c) (s.channelAlarms c) := by
  unfold State.channelAlarms
  rw [stepClock_channel]
  cases s.channel c with
  | none => rfl
  | some b => exact (Shifted.alarm rfl).append (.alarm rfl)

/-- R184, R185: every armed deadline stays armed, at its seconds remaining from the new value. -/
theorem stepClock_alarms (s : State) : Shifted (moveDeadline s.clock v) (stepClock v s).alarms s.alarms :=
  have ovens := Shifted.flatMap (xs := allSlots) fun n h => stepClock_ovenAlarms (s := s) v ((mem_allSlots n).1 h)
  have tickets : Shifted (moveDeadline s.clock v) ((stepClock v s).tickets.flatMap Ticket.alarms)
      (s.tickets.flatMap Ticket.alarms) := .flatMap_map fun _ _ => (Shifted.alarm rfl).append (.alarm rfl)
  have campaigns := Shifted.flatMap (xs := allCampaigns) fun c _ => stepClock_campaignAlarms (s := s) v c
  have sets := Shifted.flatMap (xs := allSlots) fun n _ => stepClock_loadedAlarms (s := s) v n
  have channels := Shifted.flatMap (xs := allChannels) fun c _ => stepClock_channelAlarms (s := s) v c
  (((ovens.append tickets).append campaigns).append sets).append channels

end

/-! ### CLOCK_SET -/

/-- R173: where no entry is STAGED the gating changes nothing. -/
theorem gateCampaign_noStaged {c : Nat} (h : ∀ m, s.campaign c = some m → ∀ e ∈ m.entries, e.state ≠ .staged) :
    gateCampaign c s = s := by
  unfold gateCampaign
  cases hm : s.campaign c with
  | none => rfl
  | some m =>
    have none : m.entries.filter (fun e => e.state = .staged) = [] := by
      simpa [List.filter_eq_nil_iff] using h m hm
    simp only [none, List.foldl_nil]

theorem gateAll_noStaged (h : ∀ c m, s.campaign c = some m → ∀ e ∈ m.entries, e.state ≠ .staged) : gateAll s = s := by
  have each : ∀ c, gateCampaign c s = s := fun c => gateCampaign_noStaged (h c)
  simp only [gateAll, allCampaigns, List.foldl_cons, List.foldl_nil, each]

theorem stepClock_noStaged (v : Nat) (h : ∀ c m, s.campaign c = some m → ∀ e ∈ m.entries, e.state ≠ .staged) :
    ∀ c m, (stepClock v s).campaign c = some m → ∀ e ∈ m.entries, e.state ≠ .staged := by
  intro c m hm
  rw [stepClock_campaign, Option.map_eq_some_iff] at hm
  obtain ⟨k, hk, rfl⟩ := hm
  exact List.forall_mem_map.2 (h c k hk)

theorem movePoint_eq (a v : Nat) (p : Point) :
    movePoint a v p = match p with | .armed t => .armed (min 4294967295 (v + (t - a))) | .passed => .passed := by
  cases p <;> rfl

/-- Below the maximum of the clock a deadline keeps its seconds remaining. -/
theorem moveDeadline_remaining {a v t : Nat} (hv : v ≤ 4000000000) (ht : t - a ≤ 294967295) : moveDeadline a v t - v = t - a := by
  have e : moveDeadline a v t = min 4294967295 (v + (t - a)) := rfl
  rw [e]
  omega

/-- Settles O26. -/
theorem clockSetKeepsRemainingTimes : Obligations.ClockSetKeepsRemainingTimes := by
  intro s v h
  refine ⟨fun hv => ?_, fun hv => ?_⟩
  · exact (exec_clockSet h).trans (by rw [reqClockSet_high hv]; rfl)
  have run := exec_clockSet h
  rw [reqClockSet_low hv] at run
  intro ahead moved point hygiene w
  have hw : w = stepClock v s := by
    have hp : point = movePoint s.clock v := funext fun p => by cases p <;> rfl
    have hh : hygiene = moveHygiene s.clock v := funext fun h => by
      simp only [hygiene, hp]
      rfl
    have ho : (fun o : Oven => ({ o with
        lastHeard := moved o.lastHeard, comm := o.comm.map fun x => (x.1, ahead x.2), gathering := o.gathering.map ahead
        silence := o.silence.map ahead, hygiene := o.hygiene.map hygiene } : Oven)) = moveOven s.clock v := by
      rw [hh]
      rfl
    exact congrArg (fun f => ({ stepClock v s with ovens := s.ovens.map f } : State)) ho
  rw [hw]
  refine ⟨run, fun hs => gateAll_noStaged (stepClock_noStaged v hs), stepClock_alarms v s, fun hr => ?_, _, run, ?_, ?_, rfl⟩
  · have shifted := congrArg (List.map fun x : Instr × Nat => (x.1, x.2 - v)) (stepClock_alarms v s)
    rw [List.map_map, List.map_map] at shifted
    refine shifted.trans (List.map_congr_left fun a ha => Prod.ext rfl ?_)
    exact moveDeadline_remaining hv (hr a ha)
  · exact (Moves.refl (s := stepClock v s)).gateAll.still.clock
  · exact (Moves.refl (s := stepClock v s)).gateAll.still.clockUnset

/-! ### The standing conditions (R202) -/

/-- Only the notice set differs. -/
def OnlyNotices (s t : State) : Prop := t = { s with notices := t.notices }

theorem OnlyNotices.refl (s : State) : OnlyNotices s s := rfl

theorem OnlyNotices.raise {t : State} (h : OnlyNotices s t) (k : NoticeKind) (n : Nat) (d : List Byte) :
    OnlyNotices s (raise k n d t) := by
  unfold OnlyNotices at *
  rw [raise_eq, h]

theorem OnlyNotices.raiseBus {t : State} (h : OnlyNotices s t) (c : Nat) : OnlyNotices s (raiseBus c t) := h.raise _ _ _

theorem OnlyNotices.ite {t u : State} {c : Prop} [Decidable c] (h : OnlyNotices s t) (k : OnlyNotices s u) :
    OnlyNotices s (if c then t else u) := by
  split
  · exact h
  · exact k

/-- Raises made one after the other leave the records, so each may be read off the first state. -/
theorem foldl_raises {α : Type} {u : State} {f g : State → α → State} (l : List α)
    (hg : ∀ t, OnlyNotices u t → ∀ x ∈ l, f t x = g t x ∧ OnlyNotices u (g t x)) {t : State} (ht : OnlyNotices u t) :
    l.foldl f t = l.foldl g t ∧ OnlyNotices u (l.foldl g t) := by
  induction l generalizing t with
  | nil => exact ⟨rfl, ht⟩
  | cons x l ih =>
    obtain ⟨e, k⟩ := hg t ht x List.mem_cons_self
    simp only [List.foldl_cons, e]
    exact ih (fun t ht y hy => hg t ht y (List.mem_cons_of_mem x hy)) k

theorem newlyEnabled_iff (k : NoticeKind) (old : BitVec 16) (kinds : Nat) (hk : k.code < 16) :
    newlyEnabled old (BitVec.ofNat 16 kinds) k = true ↔ old.getLsbD k.code = false ∧ kinds.testBit k.code = true := by
  have new : (BitVec.ofNat 16 kinds).getLsbD k.code = kinds.testBit k.code := by rw [BitVec.getLsbD_ofNat]; simp [hk]
  rw [newlyEnabled, new, Bool.and_eq_true, Bool.not_eq_true']

/-- R202: the ovens that are SILENT. -/
theorem watched_silent (o : Oven) : (o.state.watched && !o.present) = decide (o.present = false ∧ o.state ≠ .vacant ∧
    o.state ≠ .discovered ∧ o.state ≠ .assigning) := by
  cases o.state <;> cases o.present <;> decide

/-- R202: the notice of a standing DUE or RESIDUE. -/
def raisedStanding (s t : State) (n : Nat) : State :=
  match (s.oven n).hygiene with
  | some h =>
    if h.state = .due then raise .hygiene n (hygieneDetail 0 h 0 0) t
    else if h.state = .residue then raise .hygiene n (hygieneDetail 1 h 0 0) t else t
  | none => t

theorem raiseStanding_eq {t : State} {n : Nat} (h : (t.oven n).hygiene = (s.oven n).hygiene) :
    raiseStanding n t = raisedStanding s t n := by
  unfold raiseStanding raisedStanding raiseHygiene State.hygiene
  rw [h]
  cases hh : (s.oven n).hygiene with
  | none => rfl
  | some x =>
    rw [Option.map_some]
    cases hx : x.state <;> simp [hygieneDetail, hx]

theorem raisedStanding_onlyNotices {u t : State} (h : OnlyNotices u t) (n : Nat) : OnlyNotices u (raisedStanding s t n) := by
  unfold raisedStanding
  cases (s.oven n).hygiene with
  | none => exact h
  | some x => exact (h.raise _ _ _).ite ((h.raise _ _ _).ite h)

theorem OnlyNotices.ovens {t : State} (h : OnlyNotices s t) : t.ovens = s.ovens := by rw [h]
theorem OnlyNotices.oven {t : State} (h : OnlyNotices s t) (n : Nat) : t.oven n = s.oven n := by rw [State.oven, h.ovens]; rfl
theorem OnlyNotices.tickets {t : State} (h : OnlyNotices s t) : t.tickets = s.tickets := by rw [h]
theorem OnlyNotices.cls {t : State} (h : OnlyNotices s t) (c : Nat) : t.cls c = s.cls c := by rw [h]; rfl
theorem OnlyNotices.confinement {t : State} (h : OnlyNotices s t) : t.confinement = s.confinement := by rw [h]; rfl

/-- What the conditions of OVEN_PRESENCE raise, read off the first state. -/
theorem standingPresence_eq {u t : State} (h : OnlyNotices u t) :
    let raised := (allSlots.filter fun n => decide ((u.oven n).present = false ∧ (u.oven n).state ≠ .vacant ∧
      (u.oven n).state ≠ .discovered ∧ (u.oven n).state ≠ .assigning)).foldl
        (fun t n => raise .ovenPresence n (le 1 1 ++ le 4 (u.oven n).lastHeard) t) t
    standingPresence t = raised ∧ OnlyNotices u raised := by
  intro raised
  unfold standingPresence
  have same : (allSlots.filter fun n => (t.oven n).state.watched && !(t.oven n).present) = allSlots.filter fun n =>
      decide ((u.oven n).present = false ∧ (u.oven n).state ≠ .vacant ∧ (u.oven n).state ≠ .discovered ∧
        (u.oven n).state ≠ .assigning) :=
    List.filter_congr fun n _ => by rw [watched_silent, h.oven n]
  rw [same]
  refine foldl_raises _ (fun t ht n _ => ⟨?_, ht.raise _ _ _⟩) h
  rw [raisePresence, ht.oven n]

/-- The same for HYGIENE. -/
theorem standingHygiene_eq {u t : State} (h : OnlyNotices u t) :
    standingHygiene t = allSlots.foldl (raisedStanding u) t ∧ OnlyNotices u (allSlots.foldl (raisedStanding u) t) :=
  foldl_raises allSlots (fun _ ht n _ => ⟨raiseStanding_eq (by rw [ht.oven n]), raisedStanding_onlyNotices ht n⟩) h

/-- The same for TICKET, where a ticket's number names it. -/
theorem standingTickets_eq {u t : State} (h : OnlyNotices u t) (named : ∀ x ∈ u.tickets, u.ticket x.number = some x) :
    let raised := (u.tickets.filter fun x => decide (x.state = .open ∧ 1 ≤ x.level)).foldl
      (fun t x => raise .ticket x.number (ticketDetail u 3 1 x) t) t
    standingTickets t = raised ∧ OnlyNotices u raised := by
  intro raised
  unfold standingTickets
  have same : (t.tickets.filter fun x => x.state = .open && decide (1 ≤ x.level)) =
      u.tickets.filter fun x => decide (x.state = .open ∧ 1 ≤ x.level) := by
    rw [h.tickets]
    exact List.filter_congr fun x _ => by simp
  rw [same]
  refine foldl_raises _ (fun t ht x hx => ⟨?_, ht.raise _ _ _⟩) h
  rw [List.mem_filter, decide_eq_true_eq] at hx
  obtain ⟨hm, ho, -⟩ := hx
  have found : t.ticket x.number = some x := by rw [State.ticket, ht.tickets]; exact named x hm
  simp only [raiseTicket, found, raiseTicketAs, ho, noticeTicketState, ht.cls]

theorem standingBus_eq {u t : State} (h : OnlyNotices u t) :
    standingBus t = if u.confinement ≠ 0 then raiseBus 0 t else t := by
  rw [standingBus, h.confinement]
  by_cases e : u.confinement = 0 <;> simp [e]

theorem exec_noticeEnable {kinds : Nat} (hk : kinds < 65536) (h : s.Serves (.noticeEnable kinds)) :
    exec (.noticeEnable kinds) s = .next (State.reply (raiseStandings s.enables (BitVec.ofNat 16 kinds)
      { s with enables := BitVec.ofNat 16 kinds }) .ok (le 2 kinds)) := by
  have run := request_answers (act := reqNoticeEnable kinds) h rfl (reqNoticeEnable_clock kinds s)
  rwa [BitVec.toNat_ofNat, Nat.mod_eq_of_lt hk] at run

/-- A step that is taken where a kind is newly enabled. -/
def staged (b : Bool) (f : State → State) (t : State) : State := if b then f t else t

theorem raiseStandings_eq (old new : BitVec 16) (t : State) : raiseStandings old new t =
    staged (newlyEnabled old new .bus) standingBus (staged (newlyEnabled old new .ticket) standingTickets
      (staged (newlyEnabled old new .hygiene) standingHygiene (staged (newlyEnabled old new .ovenPresence) standingPresence t)))
        :=
  rfl

theorem staged_off {b : Bool} {f : State → State} {t : State} (h : b ≠ true) : staged b f t = t := if_neg h

theorem staged_of {b : Bool} {c : Prop} [Decidable c] {f : State → State} {t t' : State} (h : b = true ↔ c) (e : f t = t') :
    staged b f t = if c then t' else t := by
  subst e
  by_cases hc : c
  · rw [if_pos hc, staged, if_pos (h.2 hc)]
  · rw [if_neg hc, staged, if_neg fun hb => hc (h.1 hb)]

/-- Settles O29: each kind newly enabled in turn, every notice read off the state that NOTICE_ENABLE found. -/
theorem noticeEnableRecordsTheSet : Obligations.NoticeEnableRecordsTheSet := by
  intro s kinds hk h u
  rw [exec_noticeEnable hk h]
  have three := newlyEnabled_iff .ovenPresence s.enables kinds (by decide)
  have seven := newlyEnabled_iff .hygiene s.enables kinds (by decide)
  have eight := newlyEnabled_iff .ticket s.enables kinds (by decide)
  have thirteen := newlyEnabled_iff .bus s.enables kinds (by decide)
  have ok {t : State} : OnlyNotices u t → standingBus t = if s.confinement ≠ 0 then raiseBus 0 t else t := standingBus_eq
  refine ⟨fun old => congrArg (fun t : State => Host.Outcome.next (t.reply .ok (le 2 kinds))) ?_, fun named => ?_⟩
  · have off {k : NoticeKind} (hc : k.code ∈ [3, 7, 8]) (e : newlyEnabled s.enables (BitVec.ofNat 16 kinds) k = true ↔
        s.enables.getLsbD k.code = false ∧ kinds.testBit k.code = true) :
        newlyEnabled s.enables (BitVec.ofNat 16 kinds) k ≠ true := fun hn => by
      obtain ⟨a, b⟩ := e.1 hn
      rcases old k.code hc with x | x
      · rw [x] at a
        cases a
      · rw [x] at b
        cases b
    rw [raiseStandings_eq, staged_off (off (by decide) three), staged_off (off (by decide) seven),
      staged_off (off (by decide) eight), staged_of thirteen (ok (.refl u)), ← ite_and]
    exact if_congr and_assoc rfl rfl
  · intro newly silent presence hygiene tickets
    obtain ⟨e1, k1⟩ := standingPresence_eq (OnlyNotices.refl u)
    have p : staged (newlyEnabled s.enables (BitVec.ofNat 16 kinds) .ovenPresence) standingPresence u = presence :=
      staged_of three e1
    have kp : OnlyNotices u presence := k1.ite (.refl u)
    obtain ⟨e2, k2⟩ := standingHygiene_eq kp
    have q : staged (newlyEnabled s.enables (BitVec.ofNat 16 kinds) .hygiene) standingHygiene presence = hygiene :=
      staged_of seven e2
    have kq : OnlyNotices u hygiene := k2.ite kp
    obtain ⟨e3, k3⟩ := standingTickets_eq kq named
    have r : staged (newlyEnabled s.enables (BitVec.ofNat 16 kinds) .ticket) standingTickets hygiene = tickets :=
      staged_of eight e3
    have kr : OnlyNotices u tickets := k3.ite kq
    refine congrArg (fun t : State => Host.Outcome.next (t.reply .ok (le 2 kinds))) ?_
    rw [raiseStandings_eq, p, q, r, staged_of thirteen (ok kr), ← ite_and]
    exact if_congr Iff.rfl rfl rfl

/-! ### The barred list and the site (R24, R43) -/

theorem barSerial_fresh {i : Nat} (h : i ∉ s.barred) : barSerial i s = { s with barred := s.barred ++ [i] } := if_neg h

theorem barSerial_listed {i : Nat} (h : i ∈ s.barred) : barSerial i s = s := if_pos h

/-- Settles O30. -/
theorem barUnbarAndSiteOpen : Obligations.BarUnbarAndSiteOpen := by
  intro s i
  refine ⟨fun h => ?_, fun h => ?_, fun h => ?_⟩
  · split
    · rename_i hm
      exact request_answers h (if_pos hm) rfl
    · rename_i hm
      split
      · rename_i hl
        have e : reqBar i s = ok (barSerial i s) := (if_neg hm).trans (if_neg (Nat.not_le.2 hl))
        rw [barSerial_fresh hm] at e
        exact request_answers h e rfl
      · rename_i hl
        exact request_refuses h ((if_neg hm).trans (if_pos (Nat.not_lt.1 hl)))
  · split
    · rename_i hm
      exact request_answers h (if_pos hm) rfl
    · rename_i hm
      exact request_refuses h (if_neg hm)
  · split
    · rename_i ho
      exact request_refuses h (if_pos ho)
    · rename_i ho
      exact request_answers h (if_neg ho) rfl

end Sys2Proof.Machine
end

section
/-! PROOF. The Oven Registry's rules (chapter 02): frames of the Registry as `deliver`, the serial's slot, what becomes of a VACANT
record, and admission, setup, the commissioning deadlines, CLAIM and the locks. -/

namespace Sys2Proof.Machine

set_option Elab.async false

variable {s t : State} {n serial : Nat}

/-! ### What a placed frame and a notice leave -/

@[simp] theorem deliver_clock (f : OutFrame) (s : State) : (deliver f s).clock = s.clock := (deliver_still s f).clock
@[simp] theorem deliver_power (f : OutFrame) (s : State) : (deliver f s).power = s.power := (deliver_still s f).power
@[simp] theorem deliver_classes (f : OutFrame) (s : State) : (deliver f s).classes = s.classes := (deliver_still s f).classes
@[simp] theorem raise_clock (k : NoticeKind) (i : Nat) (d : List Byte) (s : State) : (raise k i d s).clock = s.clock :=
  (raise_still k i d s).clock
@[simp] theorem raise_power (k : NoticeKind) (i : Nat) (d : List Byte) (s : State) : (raise k i d s).power = s.power :=
  (raise_still k i d s).power
@[simp] theorem raise_classes (k : NoticeKind) (i : Nat) (d : List Byte) (s : State) : (raise k i d s).classes = s.classes :=
  (raise_still k i d s).classes

section
variable (f : OutFrame) (k : NoticeKind) (i m : Nat) (d : List Byte) (s : State)

@[simp] theorem deliver_loadedOf : (deliver f s).loadedOf m = s.loadedOf m := by simp [State.loadedOf]
@[simp] theorem raise_loadedOf : (raise k i d s).loadedOf m = s.loadedOf m := by simp [State.loadedOf]
@[simp] theorem deliver_permit : (deliver f s).permit m = s.permit m := by simp [State.permit]
@[simp] theorem raise_permit : (raise k i d s).permit m = s.permit m := by simp [State.permit]
@[simp] theorem deliver_distSlot : (deliver f s).distSlot m = s.distSlot m := by simp [State.distSlot]
@[simp] theorem raise_distSlot : (raise k i d s).distSlot m = s.distSlot m := by simp [State.distSlot]
@[simp] theorem deliver_campaign : (deliver f s).campaign m = s.campaign m := by simp [State.campaign]
@[simp] theorem raise_campaign : (raise k i d s).campaign m = s.campaign m := by simp [State.campaign]
@[simp] theorem deliver_channel : (deliver f s).channel m = s.channel m := by simp [State.channel]
@[simp] theorem raise_channel : (raise k i d s).channel m = s.channel m := by simp [State.channel]
@[simp] theorem deliver_cls : (deliver f s).cls m = s.cls m := by simp [State.cls]
@[simp] theorem raise_cls : (raise k i d s).cls m = s.cls m := by simp [State.cls]
@[simp] theorem deliver_after : (deliver f s).after m = s.after m := by simp [State.after]
@[simp] theorem raise_after : (raise k i d s).after m = s.after m := by simp [State.after]

end

/-- R183: an instant n seconds away. -/
theorem after_eq (s : State) (k : Nat) : s.after k = min 4294967295 (s.clock + k) := rfl

/-- R183: an armed deadline that has been reached. -/
theorem due_some {i : Nat} (h : i ≤ s.clock) : s.due (some i) = true := decide_eq_true h

/-! ### The slot of a serial -/

theorem slotOfSerial_congr (h : ∀ m, isSlot m → ((t.oven m).state = .vacant ↔ (s.oven m).state = .vacant) ∧
    (t.oven m).serial = (s.oven m).serial) (x : Nat) : t.slotOfSerial x = s.slotOfSerial x := by
  refine List.find?_congr fun m hm => ?_
  obtain ⟨hv, hx⟩ := h m ((mem_allSlots m).1 hm)
  have : (t.oven m).state ≠ .vacant ↔ (s.oven m).state ≠ .vacant := not_congr hv
  rw [hx]
  exact congrArg (· && _) (by rw [decide_eq_decide]; exact this)

/-- A record that keeps its serial, and does not become or cease to be VACANT, leaves every serial where it is. -/
theorem slotOfSerial_setOven {o : Oven} (hv : o.state = .vacant ↔ (s.oven n).state = .vacant)
    (hx : o.serial = (s.oven n).serial) (x : Nat) : (s.setOven n o).slotOfSerial x = s.slotOfSerial x := by
  refine slotOfSerial_congr (fun m hm => ?_) x
  by_cases e : m = n
  · subst e
    rw [s.setOven_oven m o hm]
    exact ⟨hv, hx⟩
  · rw [s.setOven_oven_ne n m o e]
    exact ⟨Iff.rfl, rfl⟩

/-- What a slot's serial says of its record. -/
theorem slotOfSerial_some (h : s.slotOfSerial serial = some n) :
    isSlot n ∧ (s.oven n).state ≠ .vacant ∧ (s.oven n).serial = some serial := by
  have p := List.find?_some h
  simp only [Bool.and_eq_true, decide_eq_true_eq] at p
  exact ⟨(mem_allSlots n).1 (List.mem_of_find?_eq_some h), p⟩

/-! ### Frames of the Registry -/

theorem placeAssign_eq (h : s.Settled) (hx : (s.oven n).serial = some serial) :
    placeAssign n s = deliver (assignFrame s serial n) s := by
  unfold placeAssign placeUnassigned
  rw [hx]
  exact place_eq_deliver h _ _ rfl

theorem placeBarred_eq (h : s.Settled) (serial : Nat) (full : Bool) :
    placeBarred serial full s = deliver (barredFrame s serial full) s := place_eq_deliver h _ _ rfl

theorem placeTestOrder_eq (h : s.Settled) (n : Nat) :
    placeTestOrder n s = deliver (ovenFrame .registry n (.testOrder (s.oven n).cavity (s.oven n).humidity)) s :=
  placeFor_eq_deliver h _ _ _

/-- R22: ASSIGN goes out and the reply deadline is armed again. -/
theorem assignAgain_eq (h : s.Settled) (hx : (s.oven n).serial = some serial) :
    assignAgain n s = (deliver (assignFrame s serial n) s).setOven n { s.oven n with
      comm := some (.reply, min 4294967295 (s.clock + 5)) } := by
  unfold assignAgain
  rw [placeAssign_eq h hx]
  simp only [State.modOven, deliver_oven, deliver_after]
  rfl

/-- R25, R48: ASSIGN goes out for the first time. -/
theorem assignFirst_eq (h : s.Settled) (hn : isSlot n) (hx : (s.oven n).serial = some serial) :
    assignFirst n s = (deliver (assignFrame s serial n) s).setOven n { s.oven n with
      comm := some (.reply, min 4294967295 (s.clock + 5)), tries := 1 } := by
  unfold assignFirst
  rw [assignAgain_eq h hx, State.modOven, State.setOven_oven _ _ _ hn, State.setOven_setOven]

/-! ### OVEN_ADMIT (R25) -/

theorem admitOven_eq (g : Nat) (h : s.Settled) (hn : isSlot n) (hx : (s.oven n).serial = some serial)
    (hd : (s.oven n).state = .discovered) :
    admitOven n g s = (deliver (assignFrame s serial n) s).setOven n { s.oven n with
      group := g, hint := none, state := .assigning, tries := 1, comm := some (.reply, min 4294967295 (s.clock + 5)) } := by
  let p : Oven := { s.oven n with group := g, hint := none, comm := none, state := .assigning }
  have o : (s.setOven n p).oven n = p := s.setOven_oven n p hn
  have same : (s.setOven n p).slotOfSerial serial = s.slotOfSerial serial :=
    slotOfSerial_setOven (o := p) (iff_of_false OvenState.noConfusion (by simp [hd])) rfl serial
  have e := assignFirst_eq (s := s.setOven n p) h hn (by rw [o]; exact hx)
  rw [assignFrame, same, o, deliver_setOven, State.setOven_setOven] at e
  exact e

/-- Settles O31. -/
theorem ovenAdmitAssigns : Obligations.OvenAdmitAssigns := by
  intro s n g h
  refine ⟨fun hr => ?_, fun h1 h2 hg => ?_⟩
  · exact request_refuses h (if_pos (by rw [not_and_or, Nat.not_le, Nat.not_le, or_assoc]; exact hr))
  have range : ¬ (¬ isSlot n ∨ 7 < g) := by simp [isSlot, h1, h2, hg]
  refine ⟨fun hv => ?_, fun hv hd => ?_, fun serial hd hx hs => ?_⟩
  · exact request_refuses h ((if_neg range).trans (if_pos hv))
  · exact request_refuses h ((if_neg range).trans ((if_neg hv).trans (if_pos hd)))
  · have e : reqOvenAdmit n g s = ok (admitOven n g s) :=
      (if_neg range).trans ((if_neg (by simp [hd])).trans (if_neg (not_not.2 hd)))
    rw [admitOven_eq g hs ⟨h1, h2⟩ hx hd] at e
    exact request_answers h e (by simp)

/-! ### OVEN_COMMISSION (R30, R112) -/

/-- R112: the settings that form. -/
theorem formSettings_fst (t : Thresholds) (held : Settings) :
    let lock := max 1000 (min 65535 (t.lock.getD held.lock))
    (formSettings t held).1 =
      { advise := min (lock - 1) (t.advise.getD held.advise), lock := lock
        interval := max 240 (min 2880 (t.interval.getD held.interval)) } := by
  simp only [formSettings, clampNat, Nat.zero_max]

/-- R112: whether a setting was clamped. -/
theorem formSettings_snd (t : Thresholds) (held : Settings) :
    let x := (formSettings t held).1
    (formSettings t held).2 = true ↔
      ¬ (x.lock = t.lock.getD held.lock ∧ x.advise = t.advise.getD held.advise ∧ x.interval = t.interval.getD held.interval) := by
  intro x
  show (decide (x.lock ≠ _) || decide (x.advise ≠ _) || decide (x.interval ≠ _)) = true ↔ _
  rw [Bool.or_eq_true, Bool.or_eq_true, decide_eq_true_eq, decide_eq_true_eq, decide_eq_true_eq, not_and_or, not_and_or, or_assoc]

theorem commission_eq (c h : Int) (g : Nat) (t : Thresholds) (hs : s.Settled) (hn : isSlot n) :
    commission n c h g t s = (deliver (ovenFrame .registry n (.testOrder (clampCavity c) (clampHumidity h))) s).setOven n
      { s.oven n with
        state := .testing, cavity := clampCavity c, humidity := clampHumidity h, group := g
        setup := some ((s.oven n).formSetup t).1, comm := some (.test, min 4294967295 (s.clock + 3600)) } := by
  refine (placeTestOrder_eq (s := s.modOven n _) hs n).trans ?_
  rw [State.modOven_oven _ _ _ hn, State.modOven, deliver_setOven]
  rfl

/-- CLAMPED is answered exactly when a value was clamped. -/
theorem okClamped_eq {b : Bool} {c : Prop} [Decidable c] (h : b = true ↔ ¬ c) (t : State) :
    okClamped b t = ({ status := if c then .ok else .clamped, body := [] }, t) := by
  by_cases hc : c
  · have : b = false := by rw [← Bool.not_eq_true, h]; exact not_not.2 hc
    simp [okClamped, this, hc]
  · simp [okClamped, h.2 hc, hc]

/-- Settles O32. -/
theorem ovenCommissionStartsTheTest : Obligations.OvenCommissionStartsTheTest := by
  intro s n cavity humidity g t h
  refine ⟨fun hr => ?_, fun h1 h2 hg => ?_⟩
  · exact request_refuses h (if_pos (by rw [not_and_or, Nat.not_le, Nat.not_le, or_assoc]; exact hr))
  have range : ¬ (¬ isSlot n ∨ 7 < g) := by simp [isSlot, h1, h2, hg]
  refine ⟨fun hv => ?_, fun hv hd => ?_, fun hw hs => ?_⟩
  · exact request_refuses h ((if_neg range).trans (if_pos hv))
  · exact request_refuses h ((if_neg range).trans ((if_neg hv).trans (if_pos hd)))
  · intro c d held lock advise interval exact_
    have form : ((s.oven n).formSetup t).1 = { advise := advise, lock := lock, interval := interval } := formSettings_fst t held
    have flag : ((s.oven n).formSetup t).2 = true ↔ ¬ (lock = t.lock.getD held.lock ∧ advise = t.advise.getD held.advise ∧
        interval = t.interval.getD held.interval) := by
      refine (formSettings_snd t held).trans ?_
      rw [formSettings_fst]
    have clamped : (clampCavity cavity ≠ cavity || clampHumidity humidity ≠ humidity || ((s.oven n).formSetup t).2) = true ↔
        ¬ exact_ := by
      rw [Bool.or_eq_true, Bool.or_eq_true, decide_eq_true_eq, decide_eq_true_eq, flag]
      show (c ≠ cavity ∨ d ≠ humidity) ∨ ¬ _ ↔ ¬ (c = cavity ∧ d = humidity ∧ _)
      rw [or_assoc, ← not_and_or, ← not_and_or]
    have e : reqOvenCommission n cavity humidity g t s = okClamped _ (commission n cavity humidity g t s) :=
      (if_neg range).trans ((if_neg (by simp [hw])).trans (if_neg (not_not.2 hw)))
    rw [okClamped_eq clamped, commission_eq cavity humidity g t hs ⟨h1, h2⟩, form] at e
    exact request_answers h e (by simp)

end Sys2Proof.Machine
end

section
/-! PROOF. The lock view told to the oven (R42, R151), the commissioning deadlines (R23, R26, R29, R32), and a CLAIM judged by its
serial (R22). -/

namespace Sys2Proof.Machine

set_option Elab.async false

variable {s t : State} {n serial : Nat}

/-! ### The lock view -/

theorem campaignWhere_congr (h : t.campaigns = s.campaigns) (n : Nat) (p : CEntryState → Bool) :
    t.campaignWhere n p = s.campaignWhere n p := by
  have : ∀ c m, t.centry c m = s.centry c m := fun c m => by simp only [State.centry, State.campaign, h]
  simp only [State.campaignWhere, this]

theorem applying_congr (h : t.campaigns = s.campaigns) (n : Nat) : t.applying n = s.applying n := by
  simp only [State.applying, campaignWhere_congr h]

/-- R173: no STAGED entry waits for the oven. -/
theorem gateOven_unstaged (h : s.campaignWhere n (fun x => x = .staged) = none) : gateOven n s = s := by
  unfold gateOven
  rw [h]

theorem recordLocks_told (hs : s.Settled) (hn : isSlot n) (l : Locks)
    (h : (s.oven n).state = .inService ∨ (s.oven n).state = .retiring) :
    recordLocks n l s = deliver (ovenFrame .registry n (.lockState l)) (s.setOven n { s.oven n with locks := l }) := by
  have state : ∀ x, (s.oven n).state = x → ((s.modOven n fun o => { o with locks := l }).oven n).state = x := fun x hx => by
    rw [State.modOven_oven _ _ _ hn]
    exact hx
  have e := placeFor_eq_deliver (s := s.setOven n { s.oven n with locks := l }) hs .registry n (.lockState l)
  rcases h with h | h
  · simp only [recordLocks, state _ h]
    exact e
  · simp only [recordLocks, state _ h]
    exact e

theorem recordLocks_untold (hn : isSlot n) (l : Locks)
    (h : ¬ ((s.oven n).state = .inService ∨ (s.oven n).state = .retiring)) :
    recordLocks n l s = s.setOven n { s.oven n with locks := l } := by
  simp only [recordLocks, State.modOven, State.setOven_oven _ _ _ hn]
  cases e : (s.oven n).state with
  | inService => exact absurd (.inl e) h
  | retiring => exact absurd (.inr e) h
  | vacant | discovered | assigning | profiling | awaitingSetup | testing => rfl

theorem recordLocks_campaigns (hs : s.Settled) (hn : isSlot n) (l : Locks) : (recordLocks n l s).campaigns = s.campaigns := by
  by_cases h : (s.oven n).state = .inService ∨ (s.oven n).state = .retiring
  · rw [recordLocks_told hs hn l h, deliver_keeps_campaigns]
    rfl
  · rw [recordLocks_untold hn l h]
    rfl

/-- R42: a changed lock view is recorded and told, where no STAGED entry waits and UPDATE stays. -/
theorem deriveLock_changed (hs : s.Settled) (hn : isSlot n) (hc : s.campaignWhere n (fun x => x = .staged) = none)
    (hu : (s.oven n).locks.update = s.applying n) (hl : s.lockView n ≠ (s.oven n).locks) (hv : (s.oven n).state ≠ .vacant) :
    deriveLock n s = recordLocks n (s.lockView n) s := by
  have g := gateOven_unstaged (n := n) ((campaignWhere_congr (recordLocks_campaigns hs hn (s.lockView n)) n _).trans hc)
  have same : ((s.oven n).locks.update && !(s.lockView n).update) = false := by
    rw [hu]
    exact Bool.and_not_self _
  simp only [deriveLock, or_iff_left hv, if_neg hl, g, same, Bool.false_eq_true, if_false]

theorem deriveLock_same (hl : s.lockView n = (s.oven n).locks) : deriveLock n s = s := by
  simp only [deriveLock, hl, true_or, if_true]

theorem deriveLock_vacant (hv : (s.oven n).state = .vacant) : deriveLock n s = s := by
  simp only [deriveLock, hv, or_true, if_true]

theorem oven_of_not_slot (h : ¬ isSlot n) : s.oven n = {} := by
  rcases n with _ | m
  · rfl
  · have : 32 ≤ m := by simp only [isSlot] at h; omega
    simp [State.oven, vget, this]

theorem isSlot_of_held (h : (s.oven n).state ≠ .vacant) : isSlot n := by
  by_contra k
  rw [oven_of_not_slot k] at h
  exact h rfl

/-- R152: a ticket's effects hold in every state but VERIFYING. -/
theorem holds_iff (x : Ticket) : x.holds = true ↔ x.state ≠ .verifying := by
  cases e : x.state <;> simp [Ticket.holds, e]

theorem lockView_eq (hu : (s.oven n).locks.update = s.applying n) :
    s.lockView n = { (s.oven n).locks with
      manual := (s.oven n).manualLock
      ticket := s.tickets.any fun x => decide (x.oven = n ∧ x.state ≠ .verifying ∧ (s.cls x.cls).severity = .lockout) } := by
  have any : ∀ x : Ticket, (x.oven = n && x.holds && (s.cls x.cls).severity = .lockout) =
      decide (x.oven = n ∧ x.state ≠ .verifying ∧ (s.cls x.cls).severity = .lockout) := fun x => by
    rw [Bool.eq_iff_iff, Bool.and_eq_true, Bool.and_eq_true, holds_iff, decide_eq_true_eq, decide_eq_true_eq, decide_eq_true_eq,
      and_assoc]
  simp only [State.lockView, any, hu]

/-- R42, R151: the lock view is derived again where nothing waits for it. -/
theorem deriveLock_eq_relocked (h : s.Ungated n) : deriveLock n s = relocked n s := by
  have view := lockView_eq (s := s) (n := n) h.update
  by_cases hv : (s.oven n).state = .vacant
  · rw [deriveLock_vacant hv, relocked, if_pos (.inl hv)]
  by_cases hl : s.lockView n = (s.oven n).locks
  · rw [deriveLock_same hl, relocked, if_pos (.inr (view.symm.trans hl))]
  have hn := isSlot_of_held hv
  rw [deriveLock_changed h.settled hn h.staged h.update hl hv, relocked, if_neg (not_or.2 ⟨hv, fun e => hl (view.trans e)⟩), ← view]
  split_ifs with k
  · exact recordLocks_told h.settled hn _ k
  · exact recordLocks_untold hn _ k

/-! ### OVEN_LOCK and OVEN_UNLOCK (R42) -/

theorem setLock_same {on : Bool} (h : (s.oven n).manualLock = on) : setLock n on s = s := if_pos h

/-- R42: the manual lock is recorded, and the lock set derived from the records again. -/
theorem setLock_changed {on : Bool} (hs : s.Settled) (hn : isSlot n) (hv : (s.oven n).state ≠ .vacant)
    (hm : (s.oven n).manualLock = !on) (hl : (s.oven n).locks = s.lockView n)
    (hc : s.campaignWhere n (fun x => x = .staged) = none) :
    setLock n on s =
      let locks : Locks := { (s.oven n).locks with manual := on }
      let u := s.setOven n { s.oven n with manualLock := on, locks := locks }
      if (s.oven n).state = .inService ∨ (s.oven n).state = .retiring then
        deliver (ovenFrame .registry n (.lockState locks)) u
      else u := by
  let p : Oven := { s.oven n with manualLock := on }
  let u := s.setOven n p
  have hp : u.oven n = p := s.setOven_oven n p hn
  have view : u.lockView n = { (s.oven n).locks with manual := on } := by
    rw [State.lockView, hp, hl]
    rfl
  have hx : u.lockView n ≠ (u.oven n).locks := by
    rw [view, hp]
    intro e
    have : on = (s.oven n).locks.manual := congrArg Locks.manual e
    rw [hl] at this
    have : on = !on := this.trans hm
    cases on <;> cases this
  have hu : (u.oven n).locks.update = u.applying n := by
    rw [hp]
    show (s.oven n).locks.update = _
    rw [hl]
    rfl
  have d : deriveLock n u = recordLocks n (u.lockView n) u := deriveLock_changed (s := u) hs hn hc hu hx (by rw [hp]; exact hv)
  have go : setLock n on s = deriveLock n u := if_neg (by rw [hm]; cases on <;> decide)
  rw [go, d, view]
  have hw : ∀ x, (u.oven n).state = x ↔ (s.oven n).state = x := fun x => by rw [hp]
  split_ifs with k
  · rw [recordLocks_told (s := u) hs hn _ (by rw [hw, hw]; exact k), hp, State.setOven_setOven]
  · rw [recordLocks_untold (s := u) hn _ (by rw [hw, hw]; exact k), hp, State.setOven_setOven]

/-- Settles O36. -/
theorem locksAreToldToTheOven : Obligations.LocksAreToldToTheOven := by
  intro s n on h c o locks
  have served : ∀ {r : Reply} {u : State}, onRecord n (fun s => ok (setLock n on s)) s = (r, u) → u.clock = s.clock →
      exec c s = .next (u.reply r.status r.body) := by
    intro r u e k
    cases on
    · exact request_answers (act := reqOvenUnlock n) h e k
    · exact request_answers (act := reqOvenLock n) h e k
  refine ⟨fun hr => ?_, fun hn hv => ?_, fun hn hv hm => ?_, fun hn hv hm hl hs hc => ?_⟩
  · exact served (onRecord_range (by simp only [isSlot]; omega)) rfl
  · exact served (onRecord_vacant hn hv) rfl
  · exact served ((onRecord_held hn hv).trans (congrArg ok (setLock_same hm))) rfl
  · exact served ((onRecord_held hn hv).trans (congrArg ok (setLock_changed hs hn hv hm hl hc))) (by
      show State.clock (if _ then deliver _ _ else _) = _
      split_ifs
      · exact deliver_clock _ _
      · rfl)

/-! ### The commissioning deadlines (R23, R26, R29, R32) -/

theorem commAt_some {k : CommKind} {i : Nat} (h : (s.oven n).comm = some (k, i)) : (s.oven n).commAt k = some i := by
  simp [Oven.commAt, h]

/-- A commissioning deadline of the kind that is due. -/
theorem due_commAt {k : CommKind} {i : Nat} (h : (s.oven n).comm = some (k, i)) (hi : i ≤ s.clock) :
    s.due ((s.oven n).commAt k) = true := by
  rw [commAt_some h]
  exact due_some hi

/-- R21: a record with no ticket becomes VACANT. -/
theorem vacate_untold (h : s.NoTickets n) : vacate n s = (s.setOven n {}).clearedOf n := by
  rw [vacate, withdrawTickets_none h]

theorem holdExpiry_due {i : Nat} (h : (s.oven n).comm = some (.hold, i)) (hi : i ≤ s.clock) :
    holdExpiry n s = raiseDiscovered n (s.oven n) true (vacate n s) := if_pos (due_commAt h hi)

theorem assignReplyExpiry_again {i : Nat} (h : (s.oven n).comm = some (.reply, i)) (hi : i ≤ s.clock) (ht : (s.oven n).tries < 3) :
    assignReplyExpiry n s = (assignAgain n s).modOven n (fun o => { o with tries := o.tries + 1 }) :=
  (if_pos (due_commAt h hi)).trans (if_pos ht)

theorem assignReplyExpiry_last {i : Nat} (h : (s.oven n).comm = some (.reply, i)) (hi : i ≤ s.clock) (ht : 3 ≤ (s.oven n).tries) :
    assignReplyExpiry n s = backToDiscovered n s :=
  (if_pos (due_commAt h hi)).trans (if_neg (Nat.not_lt.2 ht))

theorem profileExpiry_due {i : Nat} (h : (s.oven n).comm = some (.profile, i)) (hi : i ≤ s.clock) :
    profileExpiry n s = backToDiscovered n s := if_pos (due_commAt h hi)

theorem testExpiry_due {i : Nat} (h : (s.oven n).comm = some (.test, i)) (hi : i ≤ s.clock) :
    testExpiry n s = testFailed n 3 s := if_pos (due_commAt h hi)

/-- Settles O42. -/
theorem commissioningDeadlines : Obligations.CommissioningDeadlines := by
  intro s n t serial hl hs hn ht hx o back
  have taken : ∀ {f : State → State} {u : State}, Moves s (f s) → f s = u → (Host.Outcome.next (event f s) : Result) = .next u :=
    fun m e => congrArg Host.Outcome.next ((event_moves hl m).trans e)
  refine ⟨fun hc hk => ?_, fun hc hk => ?_, fun hc hk => ?_, fun hc => ?_, fun hc => ?_⟩
  · refine taken (f := holdExpiry n) (Moves.refl.holdExpiry n) ((holdExpiry_due hc ht).trans ?_)
    rw [vacate_untold hk, raiseDiscovered, hx]
    rfl
  · refine taken (f := assignReplyExpiry n) (Moves.refl.assignReplyExpiry n) ((assignReplyExpiry_again hc ht hk).trans ?_)
    rw [assignAgain_eq hs hx, State.modOven, State.setOven_oven _ _ _ hn, State.setOven_setOven]
  · exact taken (f := assignReplyExpiry n) (Moves.refl.assignReplyExpiry n) (assignReplyExpiry_last hc ht hk)
  · exact taken (f := profileExpiry n) (Moves.refl.profileExpiry n) (profileExpiry_due hc ht)
  · exact taken (f := testExpiry n) (Moves.refl.testExpiry n) (testExpiry_due hc ht)

/-! ### CLAIM (R22) -/

theorem claimSerial_barred (model : Nat) (h : serial ∈ s.barred) : claimSerial serial model s = placeBarred serial false s := if_pos h

theorem claimSerial_discovers {model : Nat} (h : serial ∉ s.barred) (hx : s.slotOfSerial serial = none)
    (hv : s.lowestVacant = some n) : claimSerial serial model s = discover n serial model none s := by
  simp only [claimSerial, if_neg h, hx, hv]

theorem claimSerial_full (model : Nat) (h : serial ∉ s.barred) (hx : s.slotOfSerial serial = none) (hv : s.lowestVacant = none) :
    claimSerial serial model s = placeBarred serial true s := by
  simp only [claimSerial, if_neg h, hx, hv]

/-- The record as a CLAIM of a PRESENT oven leaves it before its answer. -/
def claimed (n model : Nat) (s : State) : Oven :=
  { s.oven n with
    model := model, lastHeard := s.clock
    silence := if (s.oven n).state.watched then some (min 4294967295 (s.clock + 10)) else (s.oven n).silence }

theorem heard_claimed (model : Nat) (hn : isSlot n) (hp : (s.oven n).present = true) :
    heard n (s.modOven n (fun o => { o with model := model })) = s.setOven n (claimed n model s) := by
  let p : Oven := { s.oven n with model := model }
  have o : (s.setOven n p).oven n = p := s.setOven_oven n p hn
  have e := heard_present (s := s.setOven n p) hn (by rw [o]; exact hp)
  rw [o, State.setOven_setOven] at e
  exact e

/-- What a CLAIM of a PRESENT oven is answered with, by the state of its record. -/
theorem claimSerial_held {model : Nat} (h : serial ∉ s.barred) (hx : s.slotOfSerial serial = some n)
    (hp : (s.oven n).present = true) :
    let u := s.setOven n (claimed n model s)
    ((s.oven n).state = .discovered → claimSerial serial model s = rearmHold n u) ∧
    ((s.oven n).state = .assigning → claimSerial serial model s = assignAgain n u) ∧
    ((s.oven n).state ≠ .discovered → (s.oven n).state ≠ .assigning → claimSerial serial model s = placeAssign n u) := by
  intro u
  obtain ⟨hn, hv, -⟩ := slotOfSerial_some hx
  have state : ∀ x, (s.oven n).state = x → (u.oven n).state = x := fun x k => by
    rw [State.setOven_oven _ _ _ hn]
    exact k
  have go : claimSerial serial model s = match (u.oven n).state with
      | .vacant => u
      | .discovered => rearmHold n u
      | .assigning => assignAgain n u
      | .profiling | .awaitingSetup | .testing | .inService | .retiring => placeAssign n u := by
    simp only [claimSerial, if_neg h, hx, heard_claimed model hn hp]
    rfl
  rw [go]
  refine ⟨fun k => ?_, fun k => ?_, fun k k' => ?_⟩
  · rw [state _ k]
  · rw [state _ k]
  · cases e : (s.oven n).state with
    | vacant => exact absurd e hv
    | discovered => exact absurd e k
    | assigning => exact absurd e k'
    | profiling | awaitingSetup | testing | inService | retiring => rw [state _ e]

/-- Settles O38. -/
theorem claimIsAnsweredBySerial : Obligations.ClaimIsAnsweredBySerial := by
  intro s f rest hl hs hi ha serial model u
  have taken : ∀ {v : State}, claimSerial serial model u = v → exec .claim s = .next v := fun {v} e => by
    have k : claimFrame s = claimSerial serial model u := claimFrame_eq hi ha
    have m := Moves.refl (s := u).claimSerial serial model
    exact congrArg Host.Outcome.next ((event_live hl (by rw [k, m.still.clock])).trans (k.trans e))
  refine ⟨fun hb => ?_, fun hb hx => ⟨fun n hv => ?_, fun hv => ?_⟩, fun n hb hx hp => ?_⟩
  · exact taken ((claimSerial_barred (s := u) model hb).trans (placeBarred_eq (s := u) hs serial false))
  · exact taken (claimSerial_discovers (s := u) hb hx hv)
  · exact taken ((claimSerial_full (s := u) model hb hx hv).trans (placeBarred_eq (s := u) hs serial true))
  · obtain ⟨hn, hv, hser⟩ := slotOfSerial_some hx
    let p := claimed n model u
    have o : (u.setOven n p).oven n = p := u.setOven_oven n p hn
    have same : (u.setOven n p).slotOfSerial serial = u.slotOfSerial serial :=
      slotOfSerial_setOven (s := u) (n := n) (o := p) Iff.rfl rfl serial
    obtain ⟨discovered, assigning, others⟩ := claimSerial_held (s := u) (model := model) hb hx hp
    refine ⟨fun k => ?_, fun k => ?_, fun k k' => ?_⟩
    · refine taken ((discovered k).trans ?_)
      have idle : (u.oven n).state.watched = false := by rw [show (u.oven n).state = .discovered from k]; rfl
      rw [rearmHold, State.modOven, o, State.setOven_setOven]
      simp only [p, claimed, idle]
      rfl
    · refine taken ((assigning k).trans ?_)
      have idle : (u.oven n).state.watched = false := by rw [show (u.oven n).state = .assigning from k]; rfl
      have e := assignAgain_eq (s := u.setOven n p) (n := n) (serial := serial) hs (by rw [o]; exact hser)
      rw [assignFrame, same, o, deliver_setOven, State.setOven_setOven] at e
      refine e.trans ?_
      simp only [p, claimed, idle]
      rfl
    · refine taken ((others k k').trans ?_)
      have watched : (u.oven n).state.watched = true := by
        have : (u.oven n).state ≠ .vacant := hv
        change (u.oven n).state ≠ _ at k k'
        cases e : (u.oven n).state <;> simp_all [OvenState.watched]
      have e := placeAssign_eq (s := u.setOven n p) (n := n) (serial := serial) hs (by rw [o]; exact hser)
      rw [assignFrame, same, deliver_setOven] at e
      refine e.trans ?_
      simp only [p, claimed, watched]
      rfl

end Sys2Proof.Machine
end

section
/-! PROOF. What the channel choice (R162) and the transmitter's choice (R10) leave of the records of other blocks: the ovens, the
permits, the tickets and the library, and which entries of a campaign are STAGED or APPLYING. -/

namespace Sys2Proof.Machine

set_option Elab.async false

variable {s t u : State} {n : Nat}

/-- The oven's entry in a campaign is in a state. -/
def State.entryIs (s : State) (c n : Nat) (x : CEntryState) : Prop := ∃ e, s.centry c n = some e ∧ e.state = x

/-- The entry states that the lock view and the apply gating read (R42, R173). -/
def CEntryState.gated (x : CEntryState) : Prop := x = .staged ∨ x = .applying

/-- What the Update Relay's own choices leave as it is. -/
structure Relays (s t : State) : Prop where
  ovens : t.ovens = s.ovens := by rfl
  permits : t.permits = s.permits := by rfl
  tickets : t.tickets = s.tickets := by rfl
  recipes : t.recipes = s.recipes := by rfl
  entries : ∀ c n x, x.gated → (t.entryIs c n x ↔ s.entryIs c n x) := by exact fun _ _ _ _ => Iff.rfl

theorem Relays.refl : Relays s s := {}

theorem Relays.trans (h : Relays s t) (k : Relays t u) : Relays s u where
  ovens := k.ovens.trans h.ovens
  permits := k.permits.trans h.permits
  tickets := k.tickets.trans h.tickets
  recipes := k.recipes.trans h.recipes
  entries c n x g := (k.entries c n x g).trans (h.entries c n x g)

theorem State.entryIs_congr (h : t.campaigns = s.campaigns) (c n : Nat) (x : CEntryState) : t.entryIs c n x ↔ s.entryIs c n x := by
  simp only [State.entryIs, State.centry, State.campaign, h]

theorem Relays.raise (h : Relays s t) (k : NoticeKind) (i : Nat) (d : List Byte) : Relays s (raise k i d t) :=
  h.trans {
    ovens := raise_keeps_ovens k i d t
    permits := raise_keeps_permits k i d t
    tickets := raise_keeps_tickets k i d t
    recipes := raise_keeps_recipes k i d t
    entries := fun c n x _ => State.entryIs_congr (raise_keeps_campaigns k i d t) c n x }

theorem Relays.setQueue (h : Relays s t) (q : QueueName) (l : List OutFrame) : Relays s (t.setQueue q l) := by
  cases q <;> exact h.trans {}

theorem Relays.enqueue (h : Relays s t) (f : OutFrame) : Relays s (enqueue f t) := by
  unfold Machine.enqueue dropFrame
  dsimp only
  split
  · exact h.setQueue _ _
  · split
    · exact h.setQueue _ _
    · split
      · exact h.trans {}
      · exact (h.trans {}).raise _ _ _

theorem Relays.modChannel (h : Relays s t) (ch : Nat) (f : Binding → Binding) : Relays s (t.modChannel ch f) := h.trans {}

/-! ### Entries of a campaign -/

theorem campaign_some_iff {c : Nat} {m : Campaign} (h : s.campaign c = some m) : 1 ≤ c ∧ c ≤ 4 := by
  unfold State.campaign at h
  rcases c with _ | k
  · cases h
  · by_contra x
    have : 4 ≤ k := by omega
    simp [vget, this] at h

/-- A change of a campaign's entries touches no other campaign. -/
theorem centry_modCampaign_ne {c d : Nat} (f : Campaign → Campaign) (n : Nat) (h : d ≠ c) :
    (s.modCampaign c f).centry d n = s.centry d n := by
  unfold State.centry State.modCampaign
  rw [State.setCampaign_campaign_ne _ _ _ _ h]

theorem campaign_modCampaign {c : Nat} {m : Campaign} (f : Campaign → Campaign) (h : s.campaign c = some m) :
    (s.modCampaign c f).campaign c = some (f m) := by
  unfold State.modCampaign
  rw [State.setCampaign_campaign _ _ _ (campaign_some_iff h), h]
  rfl

theorem centry_of_campaign {c : Nat} {m : Campaign} (h : s.campaign c = some m) (n : Nat) : s.centry c n = m.entry n := by
  rw [State.centry, h]
  rfl

theorem modCampaign_none {c : Nat} (f : Campaign → Campaign) (h : s.campaign c = none) : (s.modCampaign c f).campaign c = none := by
  rw [State.modCampaign, h]
  by_cases k : 1 ≤ c ∧ c ≤ 4
  · rw [State.setCampaign_campaign _ _ _ k]
    rfl
  · rcases c with _ | c
    · rfl
    · have : 4 ≤ c := by omega
      simp [State.campaign, vget, this]

/-- What becomes of the entries of an oven: the change where the campaign and the oven are those named. -/
theorem centry_modCEntry (s : State) (c n : Nat) (f : CEntry → CEntry) (hf : ∀ e, (f e).oven = e.oven) (d m : Nat) :
    (s.modCEntry c n f).centry d m = if d = c ∧ m = n then (s.centry d m).map f else s.centry d m := by
  by_cases hd : d = c
  · subst hd
    cases hc : s.campaign d with
    | none =>
      have hu : (s.modCEntry d n f).campaign d = none := modCampaign_none _ hc
      simp [State.centry, hu, hc]
    | some k =>
      rw [State.modCEntry, centry_of_campaign (campaign_modCampaign _ hc), centry_of_campaign hc]
      simp only [Campaign.entry, true_and, List.find?_map]
      have same : ((fun e : CEntry => decide (e.oven = m)) ∘ fun e => if e.oven = n then f e else e) =
          fun e : CEntry => decide (e.oven = m) := by
        funext e
        show decide (CEntry.oven (if _ then _ else _) = m) = _
        split_ifs
        · rw [hf]
        · rfl
      rw [same]
      cases he : k.entries.find? fun e => decide (e.oven = m) with
      | none => simp
      | some e =>
        have : e.oven = m := by simpa using List.find?_some he
        by_cases hm : m = n <;> simp [this, hm]
  · rw [if_neg (fun x => hd x.1)]
    exact centry_modCampaign_ne _ m hd

/-- A change that keeps the entries keeps each oven's. -/
theorem centry_modCampaign_entries {c : Nat} {f : Campaign → Campaign} (hf : ∀ m, (f m).entries = m.entries) (d n : Nat) :
    (s.modCampaign c f).centry d n = s.centry d n := by
  by_cases hd : d = c
  · subst hd
    cases hc : s.campaign d with
    | none =>
      have hu : (s.modCampaign d f).campaign d = none := modCampaign_none _ hc
      simp [State.centry, hu, hc]
    | some k => rw [centry_of_campaign (campaign_modCampaign _ hc), centry_of_campaign hc, Campaign.entry, hf, Campaign.entry]
  · exact centry_modCampaign_ne _ n hd

theorem Relays.modCampaign (h : Relays s t) (c : Nat) {f : Campaign → Campaign} (hf : ∀ m, (f m).entries = m.entries) :
    Relays s (t.modCampaign c f) :=
  h.trans { entries := fun d n x _ => by simp only [State.entryIs, centry_modCampaign_entries hf] }

/-- The entry that a choice serves is neither STAGED nor APPLYING before, nor after. -/
theorem Relays.modCEntry (h : Relays s t) (c : Nat) {f : CEntry → CEntry} (hf : ∀ e, (f e).oven = e.oven)
    (before : ∀ x, x.gated → ¬ t.entryIs c n x) (after : ∀ e, ¬ (f e).state.gated) : Relays s (t.modCEntry c n f) := by
  refine h.trans { entries := fun d m x g => ?_ }
  simp only [State.entryIs, centry_modCEntry t c n f hf]
  split_ifs with k
  · obtain ⟨rfl, rfl⟩ := k
    refine iff_of_false ?_ (before x g)
    rintro ⟨e, he, rfl⟩
    obtain ⟨e', -, rfl⟩ := Option.map_eq_some_iff.1 he
    exact after e' g
  · rfl

/-! ### The channel choice -/

theorem Relays.raiseUpdate (h : Relays s t) (a c n f k : Nat) : Relays s (raiseUpdate a c n f k t) := h.raise _ _ _

theorem Relays.finishCheck (h : Relays s t) (c : Nat) : Relays s (finishCheck c t) := by
  unfold Machine.finishCheck
  split
  · exact h
  · split
    · exact (h.modCampaign c (fun _ => by rfl)).raise _ _ _
    · exact h

theorem Relays.enqueueBegin (h : Relays s t) (ch : Nat) : Relays s (enqueueBegin ch t) := by
  unfold Machine.enqueueBegin
  split
  · exact h
  · split
    · exact h
    · exact (h.enqueue _).enqueue _

theorem Relays.fillImage (h : Relays s t) (fuel ch : Nat) : Relays s (fillImage fuel ch t) := by
  induction fuel generalizing t with
  | zero => exact h
  | succ fuel ih =>
    unfold Machine.fillImage
    split
    · exact h
    · split
      · exact h
      · split
        · exact ih ((h.enqueue _).modChannel _ _)
        · exact h

theorem ungated_transferring : ¬ CEntryState.gated .transferring := by simp [CEntryState.gated]
theorem ungated_skipped : ¬ CEntryState.gated .skipped := by simp [CEntryState.gated]
theorem ungated_done : ¬ CEntryState.gated .done := by simp [CEntryState.gated]

theorem Relays.bindChannel (h : Relays s t) {c : Nat} (before : ∀ x, x.gated → ¬ t.entryIs c n x) (ch : Nat) :
    Relays s (bindChannel c n ch t) :=
  (((h.trans (u := t.setChannel ch _) {}).modCEntry c (fun _ => by rfl) before fun _ => by exact ungated_transferring).enqueueBegin ch).raise
    _ _ _

theorem Relays.serveEntry (h : Relays s t) {c : Nat} {e : CEntry} (before : ∀ x, x.gated → ¬ t.entryIs c e.oven x) (ch : Nat) :
    Relays s (serveEntry c e ch t) := by
  unfold Machine.serveEntry
  split
  · exact h
  · dsimp only
    split
    · exact (h.modCEntry c (fun _ => by rfl) before fun _ => by exact ungated_skipped).finishCheck c
    · split
      · exact ((h.modCEntry c (fun _ => by rfl) before fun _ => by exact ungated_done).raiseUpdate _ _ _ _ _).finishCheck c
      · split
        · exact h.bindChannel before ch
        · exact (h.modCEntry c (fun _ => by rfl) before fun _ => by exact ungated_skipped).finishCheck c

/-- R162: the oven of an entry that is served has no entry in a state that excludes another transfer. -/
theorem candidate_ungated {c : Nat} {e : CEntry} (h : s.candidate = some (c, e)) (x : CEntryState) (g : x.gated) :
    ¬ s.entryIs c e.oven x := by
  obtain ⟨d, hd, hc⟩ := List.exists_of_findSome?_eq_some h
  obtain ⟨e', he, rfl, rfl⟩ : ∃ e', s.candidateIn d = some e' ∧ d = c ∧ e' = e := by
    simpa [Prod.ext_iff] using hc
  have quiet : s.campaignWhere e'.oven CEntryState.isActive = none := by
    unfold State.candidateIn at he
    split at he
    · cases he
    · split at he
      · have q := List.find?_some he
        simp only [Bool.and_eq_true, State.transferQualifies, Option.isNone_iff_eq_none] at q
        exact q.2.2
      · cases he
  rintro ⟨a, ha, rfl⟩
  have := List.find?_eq_none.1 quiet d hd
  rw [ha] at this
  rcases g with g | g <;> simp [g, CEntryState.isActive] at this

theorem Relays.chooseChannels (h : Relays s t) (fuel : Nat) : Relays s (chooseChannels fuel t) := by
  induction fuel generalizing t with
  | zero => exact h
  | succ fuel ih =>
    unfold Machine.chooseChannels
    split
    · rename_i ch c e hch hc
      exact ih (h.serveEntry (candidate_ungated hc) ch)
    · exact h

/-! ### The transmitter's choice -/

theorem Relays.fillSegments (h : Relays s t) (fuel k : Nat) : Relays s (fillSegments fuel k t) := by
  induction fuel generalizing t with
  | zero => exact h
  | succ fuel ih =>
    unfold Machine.fillSegments
    split
    · exact h
    · split
      · exact h
      · split
        · exact ih ((h.trans {}).enqueue _)
        · exact h

theorem Relays.segmentTaken (h : Relays s t) (k i : Nat) : Relays s (segmentTaken k i t) := by
  unfold Machine.segmentTaken
  split
  · exact h
  · dsimp only
    split
    · exact (h.fillSegments _ k).trans {}
    · exact h.fillSegments _ k

theorem Relays.afterTaken (h : Relays s t) (f : OutFrame) : Relays s (afterTaken f t) := by
  unfold Machine.afterTaken
  split
  · exact h.segmentTaken _ _
  · unfold Machine.imageTaken
    split
    · exact h.fillImage _ _
    · exact h.chooseChannels _
  · exact h

theorem Relays.kick (h : Relays s t) : Relays s (kick t) := by
  unfold Machine.kick
  split
  · rename_i f u hu
    obtain ⟨-, q, l, -, hl, rfl⟩ := takeFrame_some hu
    exact ((h.setQueue q l).trans {}).afterTaken f
  · exact h

/-- R162: what the channel choice leaves as it is. -/
theorem Relays.channelChoice (h : Relays s t) : Relays s (channelChoice t) := by
  unfold Machine.channelChoice
  split
  · exact (h.chooseChannels _).kick
  · exact h.kick

/-! ### The gated entries of an oven -/

theorem campaignWhere_relays (h : Relays s t) {x : CEntryState} (g : x.gated) (n : Nat) :
    t.campaignWhere n (fun y => y = x) = s.campaignWhere n (fun y => y = x) := by
  refine List.find?_congr fun c _ => ?_
  have e := h.entries c n x g
  simp only [State.entryIs] at e
  cases ht : t.centry c n <;> cases hs : s.centry c n <;> simp [ht, hs] at e ⊢ <;> exact e

theorem applying_relays (h : Relays s t) (n : Nat) : t.applying n = s.applying n :=
  congrArg Option.isSome (campaignWhere_relays h (.inr rfl) n)

theorem channelChoice_settled (h : s.Settled) : (channelChoice s).Settled := Moves.refl.channelChoice.settled h

end Sys2Proof.Machine
end

section
/-! PROOF. Refutations of OVEN_DISMISS and OVEN_RETIRE: what the two statements say of the tickets that are closed WITHDRAWN asks that
the tickets are found by their numbers, not that none stands twice in the table. A table that holds one ticket twice meets the
hypothesis; the model closes both copies as it closes the first and raises one notice, the statement's `withdrawn` raises two. -/

namespace Sys2Proof.Machine

set_option Elab.async false

/-- A ticket in VERIFYING of the oven in slot 1: its closure is reported to no other block. -/
def twin : Ticket where
  number := 1
  oven := 1
  origin := .part
  code := none
  cls := 0
  state := .verifying
  level := 0
  escalation := none
  reference := none
  occurrences := 1
  reopens := 0
  active := false
  firstSeen := 0
  lastSeen := 0
  verification := some 100
  permit := none

/-- The reset state with an oven in slot 1, that ticket twice in the table, and every notice enabled. -/
def twinned (o : Oven) : State := { State.reset.setOven 1 o with tickets := [twin, twin], enables := 0xFFFF }

/-- The ticket is found by its number. -/
theorem twinned_found (o : Oven) : ∀ t ∈ (twinned o).tickets, (twinned o).ticket t.number = some t := by
  simp [twinned, State.ticket]

theorem twinned_settled (o : Oven) : (twinned o).Settled := fun _ => ⟨rfl, rfl, rfl, rfl⟩

/-- One copy too many is counted on the notice. -/
theorem twinned_withdrawn : ((withdrawn 1 (twinned {})).notices.map Notice.count) ≠
    ((withdrawTickets 1 (twinned {})).notices.map Notice.count) := by decide

/-- Refutes O34: two equal tickets of a slot give one notice, and `withdrawn` counts two. -/
theorem not_ovenRetireLeavesService : ¬ Obligations.OvenRetireLeavesService := by
  rintro ⟨-, -, -, parts⟩
  obtain ⟨-, -, -, closed, -⟩ := parts (twinned {}) 1
  have ungated : (twinned {}).Ungated 1 := ⟨twinned_settled {}, by decide, by decide⟩
  exact twinned_withdrawn (congrArg (fun s : State => s.notices.map Notice.count) (closed ungated (twinned_found {}))).symm

/-- Slot 1's record, DISCOVERED. -/
def claimant : Oven := { state := .discovered, serial := some 5 }

/-- Refutes O33: the same two tickets, of a DISCOVERED record that is dismissed. -/
theorem not_ovenDismissVacates : ¬ Obligations.OvenDismissVacates := by
  intro h
  have serves : (twinned claimant).Serves (.ovenDismiss 1 false) := by decide
  obtain ⟨-, dismissed⟩ := h (twinned claimant) 1 false serves
  obtain ⟨-, -, vacated⟩ := dismissed (by decide) (by decide)
  obtain ⟨-, -, -, closed⟩ := vacated 5 (by decide) (by decide) (by decide) (by decide)
  have ungated : (twinned claimant).Ungated 1 := ⟨twinned_settled claimant, by decide, by decide⟩
  have e := closed ungated (twinned_found claimant) (by decide)
  have counts : ∀ x : State, exec (.ovenDismiss 1 false) (twinned claimant) = .next x → x.notices.map Notice.count = [1, 1] := by
    intro x hx
    have go : exec (.ovenDismiss 1 false) (twinned claimant) =
        .next ((dismiss 1 false (twinned claimant)).reply .ok []) := rfl
    rw [go] at hx
    cases hx
    decide
  have := counts _ e
  revert this
  decide

end Sys2Proof.Machine
end

section
/-! PROOF. Refutations of the capability reports (R85) and of the end of a cook (R148): two more statements whose hypotheses allow
records that the model and the statement treat differently. -/

namespace Sys2Proof.Machine

set_option Elab.async false

/-! ### The order of a capacity reduction (R85)

`reductionOrder` sorts by number * 256 + version, the statement by number and then by version. The two agree on versions of one
byte, which the statement does not ask for: recipe 1 in version 300 comes before recipe 2 in version 1 in the model alone. -/

def high : Entry := { number := 1, version := 300, state := .loaded }
def low : Entry := { number := 2, version := 1, state := .loaded }

/-- The reset state with an oven of capacity 1 in slot 1, whose store holds two versions. -/
def crowded : State :=
  (State.reset.setOven 1 { profile := some { maxTemp := 180, steam := false, probe := false, cleaning := .none, capacity := 1 } }).setLoaded
    1 [high, low]

theorem crowded_loadedOk : LoadedOk (crowded.loadedOf 1) := ⟨by decide, by decide, by decide⟩

theorem crowded_permit : crowded.permit 1 = none := rfl

/-- The model brings down the version 300 of recipe 1. -/
theorem crowded_reduced : (((reductionOrder (crowded.loadedOf 1)).foldl (reduceEntry 1) crowded).loadedOf 1).map Entry.state =
    [.pending, .loaded] := by decide

/-- Refutes O39: by the statement's order recipe 2 is brought down first. -/
theorem not_reportsFillTheRecord : ¬ Obligations.ReportsFillTheRecord := by
  intro h
  obtain ⟨-, -, -, -, -, -, reduction⟩ := h crowded ⟨0, 0, 1, 0, []⟩ []
  obtain ⟨l, mem, sorted, same⟩ := reduction (by decide) (fun _ => ⟨rfl, rfl, rfl, rfl⟩) crowded_loadedOk
  have members : ∀ e, e ∈ l ↔ e = high ∨ e = low := by
    intro e
    rw [mem e]
    show e ∈ [high, low] ∧ _ ↔ _
    simp only [List.mem_cons, List.not_mem_nil, or_false]
    refine ⟨And.left, fun k => ⟨k, ?_⟩⟩
    rcases k with rfl | rfl <;> exact ⟨by decide, fun ⟨p, hp, _⟩ => by cases crowded_permit ▸ hp⟩
  match l, members, sorted with
  | [], members, _ => exact absurd ((members high).2 (.inl rfl)) List.not_mem_nil
  | x :: rest, members, sorted =>
    have first : x = low := by
      rcases (members x).1 List.mem_cons_self with rfl | rfl
      · rcases List.mem_cons.1 ((members low).2 (.inr rfl)) with e | e
        · exact absurd e (by decide)
        · exact absurd (List.rel_of_pairwise_cons sorted e) (by decide)
      · rfl
    subst first
    have states := congrArg (fun s : State => (s.loadedOf 1).map Entry.state) same
    have cut : ∀ k, k = 1 → (low :: rest).take k = [low] := by rintro _ rfl; rfl
    rw [crowded_reduced, cut _ (by decide)] at states
    exact absurd states (by decide)

/-! ### The end of a verification cook (R148)

As at a withdrawal, the statement's tickets are found by their numbers but may stand twice, and each copy raises its notice there. -/

def plainRecipe : Recipe where
  number := 1
  version := 1
  state := .active
  superseded := false
  name := []
  fat := 0
  groups := 0
  steps := []
  figures := some { needsSteam := false, needsProbe := false, highest := 0, duration := 0, stepSoil := [], totalSoil := 0 }
  refs := 2

def openPermit : Permit where
  number := 1
  recipe := 1
  version := 1
  stopping := false
  grantedAt := 0
  deadline := 100
  lastBeforeClean := false
  target := true
  summaries := []

def cleanPart : Hygiene where
  soil := 0
  settings := {}
  lastFull := 0
  deadline := .armed 86400
  advance := .armed 79200
  state := .ok
  residue := false
  clean := none
  order := none
  completed := 0
  aborted := 0

/-- COOK_END of permit 1, outcome COMPLETE, no stage. -/
def cookEnds : InFrame := { priority := 0, kind := 0x22, source := 1, tag := 0, data := [1, 0, 0, 0] }

/-- A verification cook about to end in slot 1, its ticket twice in the table. -/
def verifying : State :=
  { State.setPermit (twinned { state := .inService, present := true, hygiene := some cleanPart }) 1 (some openPermit) with
    tickets := [{ twin with permit := some 1 }, { twin with permit := some 1 }]
    recipes := [plainRecipe], inbound := [cookEnds] }

theorem verifying_hears : verifying.Hears .cookEnd cookEnds [] :=
  ⟨by decide, rfl, by decide, by decide, by decide, by decide⟩

theorem verifying_found : ∀ t ∈ verifying.tickets, verifying.ticket t.number = some t := by
  simp [verifying, State.ticket]

/-- The model closes the ticket once. -/
theorem verifying_cookEnd : ∀ x : State, exec .cookEnd verifying = .next x → x.notices.map Notice.count = [1, 1] := by
  intro x hx
  have go : exec .cookEnd verifying = .next (event (slotFrame .cookEnd cookEndFrame) verifying) := rfl
  rw [go] at hx
  cases hx
  decide

/-- Refutes O50: the statement counts a second notice for the same ticket. -/
theorem not_permitsRunAndClose : ¬ Obligations.PermitsRunAndClose := by
  rintro ⟨-, -, -, charged, -⟩
  obtain ⟨undeferred, -⟩ := charged verifying cookEnds [] openPermit plainRecipe _ cleanPart verifying_hears
    (fun _ => ⟨rfl, rfl, rfl, rfl⟩) (fun _ => vget_replicate _ _ _) rfl (by decide) (by decide) rfl rfl rfl rfl verifying_found
    (by decide)
  have := verifying_cookEnd _ (undeferred (by decide))
  revert this
  decide

end Sys2Proof.Machine
end

section
/-! PROOF. What a block finds when its frame has been dispatched (R3 to R5), and the Hygiene Monitor's rules (chapter 06): the state
of a hygiene part judged again, told and raised, and the cleans, the orders and the deadlines that rest on it. -/

namespace Sys2Proof.Machine

set_option Elab.async false

variable {s t : State} {n : Nat} {h : Hygiene}

/-! ### A frame from a PRESENT oven -/

section
variable {k : InKind} {f : InFrame} {rest : List InFrame}

theorem State.Hears.accepts (h : s.Hears k f rest) : s.acceptsSource f.source = true := by
  exact Bool.and_eq_true_iff.2 ⟨decide_eq_true h.slot, h.accepted⟩

theorem slotFrame_heard {block : Nat → InFrame → State → State} (h : s.Hears k f rest) :
    slotFrame k block s = block f.source f (s.afterHearing f rest) := by
  rw [slotFrame_eq h.head h.kind h.accepts]
  exact congrArg (block f.source f) (heard_present (s := { s with inbound := rest }) h.slot h.present)

/-- The row of a frame that is heard does what its block does. -/
theorem event_heard {block : Nat → InFrame → State → State} (h : s.Hears k f rest)
    (m : Moves (s.afterHearing f rest) (block f.source f (s.afterHearing f rest))) :
    event (slotFrame k block) s = block f.source f (s.afterHearing f rest) := by
  rw [event_live h.live, slotFrame_heard h]
  rw [slotFrame_heard h]
  exact m.still.clock

theorem afterHearing_oven (h : isSlot f.source) : (s.afterHearing f rest).oven f.source = { s.oven f.source with
    lastHeard := s.clock
    silence := if (s.oven f.source).state.watched then some (s.after 10) else (s.oven f.source).silence } :=
  State.setOven_oven _ _ _ h

theorem afterHearing_settled (h : s.Settled) : (s.afterHearing f rest).Settled := h

end

/-! ### The hygiene part of a record -/

theorem withHygiene_oven (hn : isSlot n) (h : Hygiene) : (s.withHygiene n h).oven n = { s.oven n with hygiene := some h } :=
  State.setOven_oven _ _ _ hn

theorem withHygiene_hygiene (hn : isSlot n) (h : Hygiene) : (s.withHygiene n h).hygiene n = some h := by
  rw [State.hygiene, withHygiene_oven hn]

theorem withHygiene_withHygiene (hn : isSlot n) (h g : Hygiene) : (s.withHygiene n h).withHygiene n g = s.withHygiene n g := by
  show State.setOven (s.setOven n _) n _ = _
  rw [withHygiene_oven hn, State.setOven_setOven]

theorem modHygiene_eq (hh : s.hygiene n = some h) (f : Hygiene → Hygiene) : s.modHygiene n f = s.withHygiene n (f h) := by
  have : (s.oven n).hygiene.map f = some (f h) := by rw [show (s.oven n).hygiene = some h from hh]; rfl
  simp only [State.modHygiene, State.modOven, this]

theorem withHygiene_same (hn : isSlot n) (hh : s.hygiene n = some h) : s.withHygiene n h = s := by
  have : { s.oven n with hygiene := some h } = s.oven n := by rw [← show (s.oven n).hygiene = some h from hh]
  show s.setOven n { s.oven n with hygiene := some h } = s
  rw [this, setOven_same hn]

theorem slot_of_hygiene (hh : s.hygiene n = some h) : isSlot n := by
  by_contra k
  rw [State.hygiene, oven_of_not_slot k] at hh
  cases hh

/-- R115: the states in which HYGIENE_STATE is told. -/
def State.inService (s : State) (n : Nat) : Prop := (s.oven n).state = .inService ∨ (s.oven n).state = .retiring

theorem placeHygieneState_eq (hs : s.Settled) (hw : s.inService n) (hh : s.hygiene n = some h) :
    placeHygieneState n s = deliver (hygieneFrame s n h) s := by
  have e := placeFor_eq_deliver hs .hygieneMonitor n
    (.hygieneState h.state h.order h.residue h.soil h.settings.lock (s.minutesTo h.deadline))
  have minutes : s.minutesTo h.deadline = (match h.deadline with | .armed t => (t - s.clock) / 60 | .passed => 0) := by
    cases h.deadline <;> rfl
  rw [minutes] at e
  unfold placeHygieneState
  rcases hw with w | w <;> rw [w, hh] <;> simp only [minutes] <;> exact e

/-- R116: the notice of a state of DUE or RESIDUE. -/
theorem raiseStanding_of (hh : t.hygiene n = some h) : raiseStanding n t =
    if h.state = .due then raise .hygiene n (hygieneDetail 0 h 0 0) t
    else if h.state = .residue then raise .hygiene n (hygieneDetail 1 h 0 0) t else t := by
  unfold raiseStanding raiseHygiene
  rw [hh]
  cases e : h.state <;> simp [e]

theorem raiseHygiene_of (hh : t.hygiene n = some h) (cause programme phase : Nat) :
    raiseHygiene n cause programme phase t = raise .hygiene n (hygieneDetail cause h programme phase) t := by
  rw [raiseHygiene, hh]

theorem noCampaigns_congr (h : t.campaigns = s.campaigns) (k : s.NoCampaigns) : t.NoCampaigns := fun c =>
  (congrArg (fun v => vget v c none) h).trans (k c)

/-- R114, R115: a changed state is stored and told; no STAGED entry waits for the end of a clean. -/
theorem storeState_changed (hs : s.Settled) (hw : s.inService n) (hh : s.hygiene n = some h) (hj : h.judged ≠ h.state)
    (hg : h.state = .cleaning → s.NoCampaigns) :
    storeState n s = (true, deliver (hygieneFrame s n h.restated) (s.withHygiene n h.restated)) := by
  have hn := slot_of_hygiene hh
  have told := placeHygieneState_eq (s := s.withHygiene n h.restated) (n := n) (h := h.restated) hs
    (by rw [State.inService, withHygiene_oven hn]; exact hw) (withHygiene_hygiene hn _)
  simp only [storeState, hh, if_neg hj, modHygiene_eq hh]
  rw [told]
  split
  · rename_i clean
    have none : (deliver (hygieneFrame s n h.restated) (s.withHygiene n h.restated)).NoCampaigns :=
      noCampaigns_congr (deliver_keeps_campaigns _ _) (hg clean)
    exact congrArg (Prod.mk true) (gateOven_none none n)
  · rfl

/-- R114 to R116: the state judged again, told and raised. -/
def judgedAgain (n : Nat) (was : CleaningState) (h : Hygiene) (s : State) : State :=
  let told := deliver (hygieneFrame s n h.restated) (s.withHygiene n h.restated)
  if h.judged = was then s.withHygiene n h
  else if h.judged = .due then raise .hygiene n (hygieneDetail 0 h.restated 0 0) told
  else if h.judged = .residue then raise .hygiene n (hygieneDetail 1 h.restated 0 0) told
  else told

theorem reevaluate_eq (hs : s.Settled) (hw : s.inService n) (hh : s.hygiene n = some h)
    (hg : h.judged ≠ h.state → h.state = .cleaning → s.NoCampaigns) : reevaluate n s = judgedAgain n h.state h s := by
  have hn := slot_of_hygiene hh
  by_cases hj : h.judged = h.state
  · rw [reevaluate_same hh hj, judgedAgain, if_pos hj, withHygiene_same hn hh]
  · have told : (deliver (hygieneFrame s n h.restated) (s.withHygiene n h.restated)).hygiene n = some h.restated := by
      rw [State.hygiene, deliver_oven]
      exact withHygiene_hygiene hn _
    simp only [reevaluate, storeState_changed hs hw hh hj (hg hj), raiseStanding_of told]
    rw [judgedAgain, if_neg hj]

/-- A change of the hygiene part, the state judged again. -/
theorem reevaluate_modHygiene (hs : s.Settled) (hw : s.inService n) (hh : s.hygiene n = some h) {f : Hygiene → Hygiene}
    (hf : (f h).state = h.state) (hg : h.state = .cleaning → s.NoCampaigns) :
    reevaluate n (s.modHygiene n f) = judgedAgain n h.state (f h) s := by
  have hn := slot_of_hygiene hh
  rw [modHygiene_eq hh, reevaluate_eq (s := s.withHygiene n (f h)) (h := f h) hs
    (by rw [State.inService, withHygiene_oven hn]; exact hw) (withHygiene_hygiene hn _) (fun _ c => hg (hf ▸ c)), hf]
  unfold judgedAgain
  simp only [withHygiene_withHygiene hn]
  rfl

/-- What a record reads after the state has been judged again. -/
theorem judgedAgain_settled (hs : s.Settled) (was : CleaningState) : (judgedAgain n was h s).Settled := by
  unfold judgedAgain
  split_ifs
  · exact hs
  · exact raise_settled _ _ _ (deliver_settled _ _)
  · exact raise_settled _ _ _ (deliver_settled _ _)
  · exact deliver_settled _ _

/-! ### The hygiene deadline, the advance point and the clean deadline (R113 to R116, R124) -/

theorem judged_eq (h : Hygiene) : h.judged =
    if h.clean ≠ none then .cleaning else if h.residue = true then .residue
    else if h.settings.lock ≤ h.soil ∨ h.deadline = .passed then .due
    else if h.settings.advise ≤ h.soil ∨ h.order ≠ none ∨ h.advance = .passed then .advised else .ok := by
  simp only [Hygiene.judged, Option.isSome_iff_ne_none]

theorem judged_of_clean_none (hc : h.clean = none) : h.judged ≠ .cleaning := by
  rw [judged_eq, if_neg (not_not.2 hc)]
  split_ifs <;> decide

theorem leavesResidue_eq (c : Clean) : c.leavesResidue =
    decide ((c.programme = .standard ∨ c.programme = .intensive) ∧ (c.phase = some .detergent ∨ c.phase = some .rinse)) := by
  have full : c.programme.isFull = decide (c.programme = .standard ∨ c.programme = .intensive) := by
    cases e : c.programme <;> rfl
  rw [Clean.leavesResidue, full, Bool.decide_and, Bool.decide_or (c.phase = some .detergent)]

/-- R123: the hygiene part as an abandoned clean leaves it. -/
def Hygiene.abandoned (h : Hygiene) (c : Clean) : Hygiene :=
  { h with residue := h.residue || c.leavesResidue, aborted := satAdd 65535 h.aborted 1, clean := none }

/-- R123: a clean in progress is abandoned: the state is stored and told, and the notice raised. -/
theorem abandonClean_eq (hs : s.Settled) (hw : s.inService n) (hh : s.hygiene n = some h) (c : Clean) (cause : Nat)
    (hc : h.state = .cleaning) (hm : s.NoCampaigns) :
    let h' := (h.abandoned c).restated
    abandonClean n cause c s = raise .hygiene n (hygieneDetail cause h' (c.programme.code + 1) ((c.phase.map fun q => q.code + 1).getD 0))
      (deliver (hygieneFrame s n h') (s.withHygiene n h')) := by
  intro h'
  have hn := slot_of_hygiene hh
  have hj : (h.abandoned c).judged ≠ (h.abandoned c).state := by
    rw [show (h.abandoned c).state = .cleaning from hc]
    exact judged_of_clean_none rfl
  have e := storeState_changed (s := s.withHygiene n (h.abandoned c)) (n := n) (h := h.abandoned c) hs
    (by rw [State.inService, withHygiene_oven hn]; exact hw) (withHygiene_hygiene hn _) hj (fun _ => hm)
  rw [withHygiene_withHygiene hn] at e
  have phase : noticePhase c.phase = (c.phase.map fun q => q.code + 1).getD 0 := by cases c.phase <;> rfl
  unfold abandonClean reevaluateQuiet
  rw [modHygiene_eq hh]
  show raiseHygiene n cause _ _ (storeState n (s.withHygiene n (h.abandoned c))).2 = _
  rw [e, phase]
  exact raiseHygiene_of (by rw [State.hygiene, deliver_oven]; exact withHygiene_hygiene hn _) _ _ _

theorem hygieneExpiry_due {i : Nat} (hh : s.hygiene n = some h) (hd : h.deadline = .armed i) (hi : i ≤ s.clock) :
    hygieneExpiry n s = reevaluate n (s.modHygiene n (fun h => { h with deadline := .passed })) := by
  rw [hygieneExpiry, if_pos]
  simp [hh, State.reached, hd, hi]

theorem advanceExpiry_due {i : Nat} (hh : s.hygiene n = some h) (hd : h.advance = .armed i) (hi : i ≤ s.clock) :
    advanceExpiry n s = reevaluate n (s.modHygiene n (fun h => { h with advance := .passed })) := by
  rw [advanceExpiry, if_pos]
  simp [hh, State.reached, hd, hi]

theorem clean_eq {c : Clean} (hh : s.hygiene n = some h) (hc : h.clean = some c) : s.clean n = some c := by
  rw [State.clean, hh]
  exact hc

theorem cleanExpiry_due {c : Clean} (hh : s.hygiene n = some h) (hc : h.clean = some c) (hi : c.deadline ≤ s.clock) :
    cleanExpiry n s = routeFault n 0xFF05 .part (abandonClean n 4 c s) := by
  rw [cleanExpiry, cleanLapse, clean_eq hh hc]
  exact if_pos (due_some hi)

/-- Settles O53. -/
theorem hygieneDeadlines : Obligations.HygieneDeadlines := by
  refine ⟨judged_eq, ?_⟩
  intro s n t h hl hs hn hm hw hh ht judge
  have told : s.inService n := .inl hw
  refine ⟨fun hd => ?_, fun hd => ?_, fun c hc hi hst => ?_⟩
  · refine congrArg Host.Outcome.next ((event_moves (f := hygieneExpiry n) hl (Moves.refl.hygieneExpiry n)).trans ?_)
    rw [hygieneExpiry_due hh hd ht]
    exact reevaluate_modHygiene hs told hh rfl fun _ => hm
  · refine congrArg Host.Outcome.next ((event_moves (f := advanceExpiry n) hl (Moves.refl.advanceExpiry n)).trans ?_)
    rw [advanceExpiry_due hh hd ht]
    exact reevaluate_modHygiene hs told hh rfl fun _ => hm
  · intro full h'
    refine congrArg Host.Outcome.next ((event_moves (f := cleanExpiry n) hl (Moves.refl.cleanExpiry n)).trans ?_)
    rw [cleanExpiry_due hh hc (hi ▸ ht), abandonClean_eq hs told hh c 4 hst hm]
    simp only [Hygiene.abandoned, leavesResidue_eq]
    rfl

/-! ### Clean orders and manual cleans (R126, R127) -/

theorem orderOf_eq {code : Nat} (h : code ≤ 3) : orderOf code =
    some (if code = 0 then some Programme.rinse else if code = 1 then some .standard else if code = 2 then some .intensive else none) := by
  interval_cases code <;> rfl

theorem orderOf_none {code : Nat} (h : 3 < code) : orderOf code = none := by
  match code, h with
  | k + 4, _ => rfl

theorem reqCleanOrder_eq {code : Nat} (h : code ≤ 3) : reqCleanOrder n code s = onService n (fun s => ok (orderClean n
    (if code = 0 then some Programme.rinse else if code = 1 then some .standard else if code = 2 then some .intensive else none) s)) s := by
  rw [reqCleanOrder, orderOf_eq h]

theorem reqCleanOrder_range {code : Nat} (h : 3 < code) : reqCleanOrder n code s = refuse .range s := by
  rw [reqCleanOrder, orderOf_none h]

theorem orderClean_same {order : Option Programme} (hh : s.hygiene n = some h) (ho : h.order = order) : orderClean n order s = s := by
  rw [orderClean, hh]
  exact if_pos ho

/-- R126: a changed order is told, and the state judged again. -/
theorem orderClean_changed {order : Option Programme} (hs : s.Settled) (hw : s.inService n) (hh : s.hygiene n = some h)
    (ho : h.order ≠ order)
    (hg : Hygiene.judged { h with order := order } ≠ h.state → h.state = .cleaning → s.NoCampaigns) :
    let h1 := { h with order := order }
    orderClean n order s = judgedAgain n h.state h1 (deliver (hygieneFrame s n h1) (s.withHygiene n h1)) := by
  intro h1
  have hn := slot_of_hygiene hh
  let u := s.withHygiene n h1
  have told : placeHygieneState n u = deliver (hygieneFrame s n h1) u :=
    placeHygieneState_eq (s := u) (h := h1) hs (by rw [State.inService, withHygiene_oven hn]; exact hw) (withHygiene_hygiene hn _)
  have go : orderClean n order s = reevaluate n (placeHygieneState n u) := by
    rw [orderClean, hh]
    exact (if_neg ho).trans (by rw [modHygiene_eq hh])
  rw [go, told]
  refine reevaluate_eq (s := deliver _ u) (h := h1) (deliver_settled _ _) ?_ ?_ fun j c => ?_
  · rw [State.inService, deliver_oven, withHygiene_oven hn]
    exact hw
  · rw [State.hygiene, deliver_oven]
    exact withHygiene_hygiene hn _
  · exact noCampaigns_congr (deliver_keeps_campaigns _ _) (hg j c)

theorem satAdd_eq (cap a b : Nat) : satAdd cap a b = min cap (a + b) := rfl

/-- R127: the part as a manual clean leaves it, with the hygiene deadline `t`, its state apart. -/
def creditedAt (s : State) (h : Hygiene) (t : Nat) : Hygiene := { h with
  soil := 0, residue := false, lastFull := s.clock, deadline := s.point t, advance := s.point (t - 7200)
  order := none, completed := min 65535 (h.completed + 1) }

theorem creditedManual_eq (s : State) (h : Hygiene) :
    creditedManual s h = creditedAt s h (satAdd Config.maxClock s.clock (h.settings.interval * 60)) := by
  unfold creditedManual rearmed creditedAt
  rw [← satAdd_eq 65535]

/-- R127: what is told of the part of a manual clean. -/
def manuallyTold (n : Nat) (ordered : Bool) (s : State) : State :=
  match storeState n s with
  | (true, t) => t
  | (false, t) => if ordered then placeHygieneState n t else t

theorem manuallyTold_eq (hs : s.Settled) (hw : s.inService n) (hh : s.hygiene n = some h) (hc : h.state ≠ .cleaning) (b : Bool) :
    manuallyTold n b s = if h.judged ≠ h.state ∨ b = true then deliver (hygieneFrame s n h.restated) (s.withHygiene n h.restated)
      else s.withHygiene n h.restated := by
  have hn := slot_of_hygiene hh
  by_cases hj : h.judged = h.state
  · have same : h.restated = h := by
      show ({ h with state := h.judged } : Hygiene) = h
      rw [hj]
    have told : manuallyTold n b s = if b then placeHygieneState n s else s := by simp only [manuallyTold, storeState_same hh hj]
    rw [told, same, withHygiene_same hn hh, placeHygieneState_eq hs hw hh]
    simp only [hj, ne_eq, not_true_eq_false, false_or]
  · rw [if_pos (.inl hj)]
    simp only [manuallyTold, storeState_changed hs hw hh hj (fun c => absurd c hc)]

theorem manualClean_eq (hs : s.Settled) (hw : s.inService n) (hh : s.hygiene n = some h) (hc : h.state ≠ .cleaning) :
    let h1 := creditedManual s h
    let w := s.withHygiene n h1.restated
    manualClean n s = { raise .hygiene n (hygieneDetail 6 h1.restated (Config.manualCleanProgramme s.draws).val 0)
      (if h1.judged ≠ h.state ∨ h.order ≠ none then deliver (hygieneFrame s n h1.restated) w else w) with draws := s.draws + 1 } := by
  intro h1 w
  have hn := slot_of_hygiene hh
  let u := s.withHygiene n h1
  let v := if h1.judged ≠ h.state ∨ h.order ≠ none then deliver (hygieneFrame s n h1.restated) w else w
  have told : manuallyTold n h.order.isSome u = v := by
    rw [manuallyTold_eq (s := u) (h := h1) hs (by rw [State.inService, withHygiene_oven hn]; exact hw) (withHygiene_hygiene hn _) hc,
      withHygiene_withHygiene hn]
    simp only [Option.isSome_iff_ne_none]
    rfl
  have read : v.hygiene n = some h1.restated := by
    show State.hygiene (if _ then _ else _) n = _
    split_ifs
    · rw [State.hygiene, deliver_oven]
      exact withHygiene_hygiene hn _
    · exact withHygiene_hygiene hn _
  have drawn : v.draws = s.draws := by
    show State.draws (if _ then _ else _) = _
    split_ifs
    · exact deliver_keeps_draws _ _
    · rfl
  have go : manualClean n s = raiseHygiene n 6 (Config.manualCleanProgramme (manuallyTold n h.order.isSome u).draws).val 0
      (manuallyTold n h.order.isSome u).drawn := by
    rw [manualClean, hh]
    simp only [modHygiene_eq hh]
    rfl
  rw [go, told, raiseHygiene_of (t := v.drawn) read, drawn, State.drawn, raise_draws, drawn]

theorem isCleaning_eq (hh : (s.oven n).hygiene = some h) : (s.oven n).isCleaning = decide (h.state = .cleaning) := by
  rw [Oven.isCleaning, hh]

/-- Settles O51. -/
theorem ordersAndManualCleans : Obligations.OrdersAndManualCleans := by
  refine ⟨fun s n code h => ⟨fun hr => ?_, fun hn hk hv => ?_, fun hn hk hv hw => ?_⟩,
    fun s n h => ⟨fun hr => ?_, fun hn hv => ?_, fun hn hv hw => ?_⟩, ?_⟩
  · refine request_refuses (x := .range) h ?_
    by_cases hk : code ≤ 3
    · rw [reqCleanOrder_eq hk]
      exact onService_range (by simp only [isSlot]; omega)
    · exact reqCleanOrder_range (Nat.lt_of_not_le hk)
  · exact request_refuses h ((reqCleanOrder_eq hk).trans (onService_vacant hn hv))
  · exact request_refuses h ((reqCleanOrder_eq hk).trans (onService_other hn hv hw))
  · exact request_refuses h (onService_range (by simp only [isSlot]; omega))
  · exact request_refuses h (onService_vacant hn hv)
  · exact request_refuses h (onService_other hn hv hw)
  intro s n h hn hw hh
  have told : s.inService n := .inl hw
  refine ⟨fun code hq => ?_, fun hq => ⟨fun hb => ?_, fun hp hc hs => ?_⟩⟩
  intro order h1 told1
  refine ⟨fun hr => ?_, fun hk ho => ?_, fun hk ho hs => ?_⟩
  · exact request_refuses hq (reqCleanOrder_range hr)
  · have e : reqCleanOrder n code s = ok s :=
      (reqCleanOrder_eq hk).trans ((onService_of hn hw).trans (congrArg ok (orderClean_same hh ho)))
    exact request_answers hq e rfl
  · have run : ∀ t, orderClean n order s = t → exec (.cleanOrder n code) s = .next (t.reply .ok []) := fun t ht => by
      have e : reqCleanOrder n code s = ok t := (reqCleanOrder_eq hk).trans ((onService_of hn hw).trans (congrArg ok ht))
      exact request_answers hq e (ht ▸ (Moves.refl.orderClean n order).still.clock)
    have h1w : told1.withHygiene n h1 = told1 := withHygiene_same hn (by
      rw [State.hygiene, deliver_oven]
      exact withHygiene_hygiene hn _)
    have frames : ∀ g : Hygiene, hygieneFrame told1 n g = hygieneFrame s n g := fun g => by
      simp only [hygieneFrame, told1, deliver_clock]
      rfl
    have changed := fun hg => orderClean_changed (order := order) hs told hh ho hg
    refine ⟨fun hj => run _ ?_, fun hj hc ho' => run _ ?_⟩
    · exact (changed fun j => absurd hj j).trans ((if_pos hj).trans h1w)
    · refine (changed fun _ c => absurd c hc).trans ((if_neg hj).trans ?_)
      rw [if_neg (by rcases ho' with e | e <;> rw [e] <;> decide), if_neg (by rcases ho' with e | e <;> rw [e] <;> decide), frames]
  · have e : reqManualClean n s = refuse .wrongState s := (onService_of hn hw).trans (if_pos (hb.imp id fun c => by
      rw [isCleaning_eq hh]
      exact decide_eq_true c))
    exact request_refuses hq e
  · have open_ : ¬ ((s.permit n).isSome = true ∨ (s.oven n).isCleaning = true) := by
      rw [isCleaning_eq hh, hp, decide_eq_true_eq]
      simp [hc]
    have e : reqManualClean n s = ok (manualClean n s) := (onService_of hn hw).trans (if_neg open_)
    have done := manualClean_eq hs told hh hc
    rw [creditedManual_eq] at done
    exact request_answers hq (e.trans (congrArg ok done)) (done ▸ (Moves.refl.manualClean n).still.clock)

end Sys2Proof.Machine
end

section
/-! PROOF. The cleaning protocol (R118 to R123): the answer to a CLEAN_START, the phases, and the end of a clean. -/

namespace Sys2Proof.Machine

set_option Elab.async false

variable {s t : State} {n code : Nat} {h : Hygiene} {f : InFrame} {rest : List InFrame}

/-! ### CLEAN_START (R118 to R120) -/

theorem cleaningBlocked_iff : s.cleaningBlocked n = true ↔
    ∃ t ∈ s.tickets, t.oven = n ∧ (t.state = .open ∨ t.state = .acknowledged) ∧ (s.cls t.cls).blocksCleaning = true := by
  have held : ∀ t : Ticket, t.holds = true ↔ t.state = .open ∨ t.state = .acknowledged := fun t => by
    rw [holds_iff]
    cases t.state <;> simp
  simp only [State.cleaningBlocked, List.any_eq_true, Bool.and_eq_true, decide_eq_true_eq, held, and_assoc]

theorem refuseClean_of (hs : s.Settled) (hh : s.hygiene n = some h) (r : CleanReason) :
    refuseClean n code r s = deliver (ovenFrame .hygieneMonitor n (.cleanRefuse code r.code h.state)) s := by
  rw [refuseClean, hh]
  exact placeFor_eq_deliver hs _ _ _

theorem refuseClean_free (hs : s.Settled) (hh : s.hygiene n = none) (r : CleanReason) :
    refuseClean n code r s = deliver (ovenFrame .hygieneMonitor n
      (.cleanRefuse code r.code (CleaningState.ofFree (Config.absentCleaningState s.draws)))) s.drawn := by
  rw [refuseClean, hh]
  exact placeFor_eq_deliver (s := s.drawn) hs _ _ _

/-- R120: the part as an allowed clean leaves it. -/
def Hygiene.begun (h : Hygiene) (s : State) (p : Programme) : Hygiene := { h with
  state := .cleaning, clean := some { programme := p, startedAt := s.clock, phase := none, deadline := s.after p.deadlineSeconds } }

theorem allowClean_eq (hs : s.Settled) (hw : (s.oven n).state = .inService) (hh : s.hygiene n = some h)
    (hc : h.state ≠ .cleaning) (p : Programme) : allowClean n p s =
      deliver (ovenFrame .hygieneMonitor n (.cleanAllow p)) (deliver (hygieneFrame s n (h.begun s p)) (s.withHygiene n (h.begun s p))) := by
  let h' : Hygiene :=
    { h with clean := some { programme := p, startedAt := s.clock, phase := none, deadline := s.after p.deadlineSeconds } }
  have judged : h'.judged = .cleaning := rfl
  have moved : h'.judged ≠ h.state := fun e => hc (e.symm.trans judged)
  have told := reevaluate_modHygiene (f := fun h =>
    { h with clean := some { programme := p, startedAt := s.clock, phase := none, deadline := s.after p.deadlineSeconds } })
    hs (.inl hw) hh rfl fun c => absurd c hc
  rw [allowClean, told]
  have quiet : judgedAgain n h.state h' s = deliver (hygieneFrame s n (h.begun s p)) (s.withHygiene n (h.begun s p)) :=
    (if_neg moved).trans ((if_neg (by rw [judged]; decide)).trans (if_neg (by rw [judged]; decide)))
  rw [quiet]
  exact placeFor_eq_deliver (deliver_settled _ _) _ _ _

/-- R119: the checks of a CLEAN_START, of an oven with a hygiene part. -/
theorem judgeClean_of (hh : s.hygiene n = some h) : judgeClean s n code =
    if s.siteOpen = false then .refuse .siteClosed
    else if (s.oven n).state ≠ .inService then .refuse .notInService
    else if s.permit n ≠ none then .refuse .permitOpen
    else if h.state = .cleaning then
      h.clean.elim (.refuse .cleaning) fun c => if c.programme.code = code ∧ c.phase = none then .repeated c.programme else .refuse .cleaning
    else if (s.oven n).locks.update = true then .refuse .update
    else if (∃ t ∈ s.tickets, t.oven = n ∧ (t.state = .open ∨ t.state = .acknowledged) ∧ (s.cls t.cls).blocksCleaning = true) then
      .refuse .ticketHold
    else ((s.oven n).runs code).elim (.refuse .unsupported) .allow := by
  have part : (s.oven n).hygiene = some h := hh
  have cleaning : ((s.oven n).isCleaning = true) = (h.state = .cleaning) := by rw [isCleaning_eq part, decide_eq_true_eq]
  unfold judgeClean
  simp only [Option.isSome_iff_ne_none, cleaning, part, Option.bind_some, Clean.repeats, Bool.and_eq_true, decide_eq_true_eq,
    cleaningBlocked_iff]
  cases h.clean <;> cases (s.oven n).runs code <;> rfl

/-- R121: a CLEAN_PHASE, of a clean of that programme. -/
theorem cleanPhase_of {c : Clean} {p : Phase} {k : Nat} (hn : isSlot n) (hh : s.hygiene n = some h) (hc : h.clean = some c)
    (hp : c.programme.code = code) (hk : Phase.ofCode k = some p) : cleanPhase n code k s =
      if (c.programme = .rinse → p = .rinse ∨ p = .dry) ∧ ∀ q ∈ c.phase, q.code ≤ p.code then
        s.withHygiene n { h with clean := some { c with phase := some p } }
      else s := by
  have own : p ∈ c.programme.phases ↔ (c.programme = .rinse → p = .rinse ∨ p = .dry) := by
    cases c.programme <;> cases p <;> decide
  have forward : (c.phase.map Phase.code).getD 0 ≤ p.code ↔ ∀ q ∈ c.phase, q.code ≤ p.code := by
    cases c.phase <;> simp
  rw [cleanPhase, modHygiene_eq hh]
  simp only [hc, if_pos hp, Clean.takesPhase, hk, own, forward]
  split_ifs
  · rfl
  · exact withHygiene_same hn hh

theorem modHygiene_same {g : Hygiene → Hygiene} (hn : isSlot n) (hg : ∀ h ∈ s.hygiene n, g h = h) : s.modHygiene n g = s := by
  cases hh : s.hygiene n with
  | none =>
    have part : (s.oven n).hygiene = none := hh
    rw [State.modHygiene, State.modOven, part]
    show s.setOven n { s.oven n with hygiene := none } = s
    rw [← part]
    exact setOven_same hn
  | some h => rw [modHygiene_eq hh, hg h hh, withHygiene_same hn hh]

/-- A CLEAN_PHASE of another programme, or with no clean in progress, is ignored. -/
theorem cleanPhase_ignored {k : Nat} (hn : isSlot n) (hp : ∀ h ∈ s.hygiene n, ∀ c ∈ h.clean, c.programme.code ≠ code) :
    cleanPhase n code k s = s := by
  refine modHygiene_same hn fun h hh => ?_
  cases hc : h.clean with
  | none => rfl
  | some c => exact if_neg (hp h hh c hc)

theorem cleanEnd_ignored {k : Nat} (hp : ∀ h ∈ s.hygiene n, ∀ c ∈ h.clean, c.programme.code ≠ code) :
    cleanEnd n code k s = s := by
  rw [cleanEnd, State.clean]
  cases hh : s.hygiene n with
  | none => rfl
  | some h =>
    rw [Option.bind_some]
    cases hc : h.clean with
    | none => rfl
    | some c => exact if_neg (hp h hh c hc)

theorem isFull_iff (p : Programme) : p.isFull = true ↔ p = .standard ∨ p = .intensive := by
  cases p <;> decide

/-- R122: the part as a completed clean leaves it, with the hygiene deadline `t`, its state apart. -/
def completedAt (s : State) (h : Hygiene) (c : Clean) (t : Nat) : Hygiene := { h with
  soil := h.soil - h.soil * c.programme.removal / 8
  residue := false, lastFull := if c.programme.isFull = true then s.clock else h.lastFull
  deadline := if c.programme.isFull = true then s.point t else h.deadline
  advance := if c.programme.isFull = true then s.point (t - 7200) else h.advance
  order := h.order.filter fun p => decide (c.programme.code < p.code)
  completed := min 65535 (h.completed + 1), clean := none }

theorem credited_eq (s : State) (h : Hygiene) (c : Clean) :
    credited s c h = completedAt s h c (satAdd Config.maxClock s.clock (h.settings.interval * 60)) := by
  unfold credited rearmed completedAt
  rw [← satAdd_eq 65535]
  cases ho : h.order with
  | none => by_cases k : c.programme.isFull = true <;> simp only [k, Option.filter_none, ↓reduceIte, Bool.false_eq_true]
  | some p =>
    have keep : (if p.code ≤ c.programme.code then none else some p) = (some p).filter fun p => decide (c.programme.code < p.code) := by
      by_cases j : p.code ≤ c.programme.code <;> simp [j, Option.filter]
    by_cases k : c.programme.isFull = true <;> simp only [k, keep, ↓reduceIte, Bool.false_eq_true]

/-- R122: a completed clean is credited, told and noticed. -/
theorem completeClean_eq {c : Clean} (hs : s.Settled) (hw : s.inService n) (hh : s.hygiene n = some h)
    (hc : h.state = .cleaning) (hm : s.NoCampaigns) :
    let h' := (credited s c h).restated
    completeClean n c s = raise .hygiene n (hygieneDetail 2 h' (c.programme.code + 1) ((c.phase.map fun q => q.code + 1).getD 0))
      (deliver (hygieneFrame s n h') (s.withHygiene n h')) := by
  intro h'
  have hn := slot_of_hygiene hh
  let k := credited s c h
  have was : k.state = .cleaning := by rw [show k = completedAt s h c _ from credited_eq s h c]; exact hc
  have ended : k.clean = none := by rw [show k = completedAt s h c _ from credited_eq s h c]; rfl
  have e := storeState_changed (s := s.withHygiene n k) (n := n) (h := k) hs
    (by rw [State.inService, withHygiene_oven hn]; exact hw) (withHygiene_hygiene hn _)
    (by rw [was]; exact judged_of_clean_none ended) (fun _ => hm)
  rw [withHygiene_withHygiene hn] at e
  have phase : noticePhase c.phase = (c.phase.map fun q => q.code + 1).getD 0 := by cases c.phase <;> rfl
  unfold completeClean reevaluateQuiet
  rw [modHygiene_eq hh]
  show raiseHygiene n 2 _ _ (storeState n (s.withHygiene n k)).2 = _
  rw [e, phase]
  exact raiseHygiene_of (by rw [State.hygiene, deliver_oven]; exact withHygiene_hygiene hn _) _ _ _

theorem hears_cleanStart (he : s.Hears .cleanStart f rest) :
    exec .cleanStart s = .next (cleanStart f.source (numAt f.data 0 1) (s.afterHearing f rest)) :=
  congrArg Host.Outcome.next (event_heard (block := cleanStartFrame) he (Moves.refl.cleanStart _ _))

theorem hears_cleanPhase (he : s.Hears .cleanPhase f rest) : exec .cleanPhase s =
    .next (cleanPhase f.source (numAt f.data 0 1) (numAt f.data 1 1) (s.afterHearing f rest)) :=
  congrArg Host.Outcome.next (event_heard (block := cleanPhaseFrame) he (Moves.refl.cleanPhase _ _ _))

theorem hears_cleanEnd (he : s.Hears .cleanEnd f rest) : exec .cleanEnd s =
    .next (cleanEnd f.source (numAt f.data 0 1) (numAt f.data 1 1) (s.afterHearing f rest)) :=
  congrArg Host.Outcome.next (event_heard (block := cleanEndFrame) he (Moves.refl.cleanEnd _ _ _))

theorem afterHearing_hygiene (h : isSlot f.source) : (s.afterHearing f rest).hygiene f.source = s.hygiene f.source := by
  rw [State.hygiene, afterHearing_oven h]
  rfl

/-- Settles O52. -/
theorem cleansStartAndEnd : Obligations.CleansStartAndEnd := by
  refine ⟨fun s f rest => ?_, fun s f rest h hh => ?_⟩
  · intro n u
    have idles : (∀ h ∈ (s.oven n).hygiene, h.clean = none) → isSlot n →
        ∀ h ∈ u.hygiene n, ∀ c ∈ h.clean, c.programme.code ≠ numAt f.data 0 1 := fun idle hn h hh c hc => by
      rw [afterHearing_hygiene hn] at hh
      rw [idle h hh] at hc
      cases hc
    refine ⟨fun he hs hg hw => (hears_cleanStart he).trans (congrArg _ ?_),
      fun idle => ⟨fun he => (hears_cleanPhase he).trans (congrArg _ (cleanPhase_ignored he.slot (idles idle he.slot))),
        fun he => (hears_cleanEnd he).trans (congrArg _ (cleanEnd_ignored (idles idle he.slot)))⟩⟩
    have oven := afterHearing_oven (s := s) (rest := rest) he.slot
    have verdict : judgeClean u n (numAt f.data 0 1) = .refuse (if s.siteOpen = false then .siteClosed else .notInService) := by
      by_cases k : s.siteOpen = false
      · rw [if_pos k]
        exact if_pos k
      · rw [if_neg k]
        refine (if_neg k).trans (if_pos ?_)
        rw [oven]
        exact hw.resolve_left k
    rw [cleanStart, verdict]
    refine (refuseClean_free (s := u) hs ?_ _).trans ?_
    · rw [afterHearing_hygiene he.slot]
      exact hg
    · by_cases k : s.siteOpen = false
      · simp only [if_pos k]
        rfl
      · simp only [if_neg k]
        rfl
  · intro n u o code refuse allow begun
    have part : isSlot n → u.hygiene n = some h := fun hn => (afterHearing_hygiene hn).trans hh
    have others : ∀ c, h.clean = some c → isSlot n → c.programme.code ≠ code →
        ∀ g ∈ u.hygiene n, ∀ c ∈ g.clean, c.programme.code ≠ code := fun c hc hn hp g hg d hd => by
      rw [part hn] at hg
      cases hg
      rw [hc] at hd
      cases hd
      exact hp
    refine ⟨fun he hs => (hears_cleanStart he).trans (congrArg _ ?_), fun c hc => ⟨fun he => ⟨fun hp =>
        (hears_cleanPhase he).trans (congrArg _ (cleanPhase_ignored he.slot (others c hc he.slot hp))), fun p hp hk =>
        (hears_cleanPhase he).trans (congrArg _ (cleanPhase_of he.slot (part he.slot) hc hp hk))⟩, fun he => ⟨fun hp =>
        (hears_cleanEnd he).trans (congrArg _ (cleanEnd_ignored (others c hc he.slot hp))), ?_⟩⟩⟩
    · have oven := afterHearing_oven (s := s) (rest := rest) he.slot
      have refused : ∀ r : CleanReason, refuseClean n code r u = refuse r.code := fun r => refuseClean_of (s := u) hs (part he.slot) r
      have allowed : ∀ p, (u.oven n).state = .inService → h.state ≠ .cleaning → allowClean n p u =
          allow p (deliver (hygieneFrame s n (begun p)) (u.withHygiene n (begun p))) := fun p hw hc =>
        (allowClean_eq (s := u) hs hw (part he.slot) hc p).trans (by cases p <;> rfl)
      have verdict : judgeClean u n code = judgeClean s n code := by
        unfold judgeClean
        rw [oven]
        rfl
      rw [cleanStart, show judgeClean (s.afterHearing f rest) f.source (numAt f.data 0 1) = judgeClean s n code from verdict,
        judgeClean_of hh]
      split_ifs with h0 h1 h2 h3 h4 h5
      · exact refused _
      · exact refused _
      · exact refused _
      · cases hc : h.clean with
        | none => exact refused _
        | some c =>
          dsimp only [Option.elim_some]
          split_ifs with k
          · exact placeFor_eq_deliver (s := u) hs _ _ _
          · exact refused _
      · exact refused _
      · exact refused _
      · have mine : (u.oven n).state = .inService := by
          rw [oven]
          exact not_not.1 h1
        unfold Oven.runs
        cases Programme.ofCode code with
        | none => exact refused _
        | some p =>
          cases (s.oven f.source).profile with
          | none => cases p <;> exact refused _
          | some q =>
            rw [Option.map_some]
            cases e : q.cleaning with
            | full =>
              simp only [e, CleaningSystem.canRun, if_true]
              exact allowed p mine h3
            | rinseOnly =>
              cases p with
              | rinse =>
                simp only [e, CleaningSystem.canRun, if_true]
                exact allowed .rinse mine h3
              | standard =>
                simp only [e, CleaningSystem.canRun]
                exact refused .unsupported
              | intensive =>
                simp only [e, CleaningSystem.canRun]
                exact refused .unsupported
            | none =>
              simp only [e, CleaningSystem.canRun]
              cases p <;> exact refused .unsupported
    · intro hp hst hw hm hs full t clean dirty phase ends
      have run := hears_cleanEnd he
      have mine : u.clean n = some c := clean_eq (part he.slot) hc
      have told : u.inService n := .inl (by rw [afterHearing_oven he.slot]; exact hw)
      have shown : c.programme.code + 1 = code + 1 := congrArg (· + 1) hp
      refine ⟨fun hz => run.trans (congrArg _ ?_), fun hz => run.trans (congrArg _ ?_)⟩
      · rw [cleanEnd, mine]
        refine (if_pos hp).trans ((if_pos hz).trans ((completeClean_eq (s := u) hs told (part he.slot) hst hm).trans ?_))
        have credit : credited u c h = clean := by
          have due : satAdd Config.maxClock u.clock (h.settings.interval * 60) = t := rfl
          rw [credited_eq, due, completedAt]
          simp only [isFull_iff]
          rfl
        rw [credit, shown]
        rfl
      · rw [cleanEnd, mine]
        refine (if_pos hp).trans ((if_neg hz).trans ((abandonClean_eq (s := u) hs told (part he.slot) c 3 hst hm).trans ?_))
        have left : h.abandoned c = dirty := by
          rw [Hygiene.abandoned, leavesResidue_eq]
          rfl
        rw [left, shown]
        rfl

end Sys2Proof.Machine
end

section
/-! PROOF. The life of a ticket (chapter 07): its number, what its events tell, and the requests that set classes and routes, open,
acknowledge, resolve and close. -/

namespace Sys2Proof.Machine

set_option Elab.async false

variable {s t : State} {n c k : Nat} {x : Ticket}

/-! ### Free numbers (R46) -/

theorem numberTried_nodup (n k : Nat) (h : k ≤ 65535) : ((List.range k).map (numberTried n)).Nodup := by
  refine List.Nodup.map_on (fun a ha b hb e => ?_) List.nodup_range
  simp only [List.mem_range] at ha hb
  unfold numberTried at e
  split_ifs at e <;> omega

/-- R46: of more numbers tried than are in use one is not in use. -/
theorem exists_unused (l : List Nat) (n k : Nat) (hl : l.length < k) (hk : k ≤ 65535) : ∃ j < k, numberTried n j ∉ l := by
  by_contra none
  push Not at none
  have sub : (List.range k).map (numberTried n) ⊆ l := fun m hm => by
    obtain ⟨j, hj, rfl⟩ := List.mem_map.1 hm
    exact none j (List.mem_range.1 hj)
  have few := (List.subperm_of_subset (numberTried_nodup n k hk) sub).length_le
  rw [List.length_map, List.length_range] at few
  omega

theorem numberTried_iterate (n j : Nat) (h : j ≤ 65535) :
    (fun k => if 65535 ≤ k then 1 else k + 1)^[j] n = numberTried n j := by
  induction j generalizing n with
  | zero => rfl
  | succ j ih => rw [Function.iterate_succ_apply, ih _ (by omega), numberTried_succ n j (by omega)]

/-- R46: the number issued is the first of those tried that is not in use. -/
theorem freeNumber_first {used : Nat → Bool} {fuel : Nat} (hk : k ≤ fuel) (hf : fuel ≤ 65535)
    (hu : ∀ j < k, used (numberTried n j) = true) (hn : used (numberTried n k) = false) :
    freeNumber used fuel n = numberTried n k := by
  induction k generalizing n fuel with
  | zero =>
    cases fuel with
    | zero => rfl
    | succ fuel => exact if_neg (by rw [show used n = false from hn]; decide)
  | succ k ih =>
    obtain ⟨f, rfl⟩ : ∃ f, fuel = f + 1 := ⟨fuel - 1, by omega⟩
    have tried := fun j (hj : j ≤ k) => numberTried_succ n j (by omega)
    have first : used n = true := hu 0 (Nat.succ_pos k)
    rw [freeNumber, if_pos first, ih (by omega) (by omega), tried k le_rfl]
    · exact fun j hj => by rw [tried j (by omega)]; exact hu (j + 1) (by omega)
    · rw [tried k le_rfl]; exact hn

/-! ### What an event of a ticket tells (R151, R152) -/

theorem State.Ungated.congr (h : s.Ungated n) (hs : t.Settled) (hc : t.campaigns = s.campaigns)
    (hu : (t.oven n).locks.update = (s.oven n).locks.update) : t.Ungated n :=
  ⟨hs, (campaignWhere_congr hc n _).trans h.staged, hu.trans (h.update.trans (applying_congr hc n).symm)⟩

theorem State.Ungated.raise (h : s.Ungated n) (k : NoticeKind) (m : Nat) (d : List Byte) :
    (Machine.raise k m d s).Ungated n :=
  h.congr (raise_settled _ _ _ h.settled) (raise_keeps_campaigns _ _ _ _) (by rw [raise_oven])

/-- R42: deriving the lock view of one oven leaves the others as they are. -/
theorem relocked_ungated (h : s.Ungated n) (m : Nat) : (relocked m s).Ungated n := by
  unfold relocked
  dsimp only
  split_ifs with k j
  · exact h
  all_goals
    have kept : ∀ l : Locks, l.update = (s.oven m).locks.update →
        ((s.setOven m { s.oven m with locks := l }).oven n).locks.update = (s.oven n).locks.update := fun l e => by
      by_cases mn : n = m
      · subst mn
        rw [State.setOven_oven _ _ _ (isSlot_of_held fun v => k (.inl v))]
        exact e
      · rw [State.setOven_oven_ne _ _ _ _ mn]
  · refine h.congr (deliver_settled _ _) (deliver_keeps_campaigns _ _) ?_
    rw [deliver_oven]
    exact kept _ rfl
  · exact h.congr h.settled rfl (kept _ rfl)

@[simp] theorem relocked_tickets (m : Nat) : (relocked m s).tickets = s.tickets := by
  unfold relocked
  dsimp only
  split_ifs
  · rfl
  · exact deliver_keeps_tickets _ _
  · rfl

/-- R151: several lock views derived again. -/
theorem foldl_deriveLock (l : List Nat) (h : ∀ n ∈ l, s.Ungated n) :
    l.foldl (fun t n => deriveLock n t) s = l.foldl (fun t n => relocked n t) s := by
  induction l generalizing s with
  | nil => rfl
  | cons m l ih =>
    rw [List.foldl_cons, List.foldl_cons, deriveLock_eq_relocked (h m List.mem_cons_self)]
    exact ih fun n hn => relocked_ungated (h n (List.mem_cons_of_mem _ hn)) m

@[simp] theorem relocked_cls (m c : Nat) : (relocked m s).cls c = s.cls c := by
  unfold relocked
  dsimp only
  split_ifs
  · rfl
  · exact deliver_cls _ _ _
  · rfl

theorem foldl_relocked_tickets (l : List Nat) : (l.foldl (fun t n => relocked n t) s).tickets = s.tickets := by
  induction l generalizing s with
  | nil => rfl
  | cons m l ih => rw [List.foldl_cons, ih, relocked_tickets]

/-- R151, R152: a ticket is reported. -/
theorem reportTicket_eq (x : Ticket) (h : s.Quiet x.cls ∨ x.oven = 0 ∨ s.Ungated x.oven) :
    reportTicket x s = reported x.oven x.cls s := by
  unfold reportTicket reported
  by_cases h0 : x.oven = 0
  · rw [if_pos h0, if_pos h0]
  · rw [if_neg h0, if_neg h0]
    rcases h with ⟨quiet, _⟩ | zero | ungated
    · simp only [if_neg quiet]
    · exact absurd zero h0
    · dsimp only
      rw [deriveLock_eq_relocked ungated]
      by_cases lockout : (s.cls x.cls).severity = .lockout
      · simp only [if_pos lockout, relocked_cls]
      · simp only [if_neg lockout]

/-! ### A ticket created, closed and resolved (R143, R145, R150) -/

theorem escalationFor_eq (s : State) (c level : Nat) : s.escalationFor c level =
    if level = 0 then escalationAt s (s.cls c).e1 else if level = 1 then escalationAt s (s.cls c).e2
    else if level = 2 then escalationAt s (s.cls c).e3 else none := by
  have armed : ∀ m, (if level < 3 ∧ 0 < m then some (s.after (m * 60)) else none) =
      if level < 3 then escalationAt s m else none := fun m => by
    by_cases hl : level < 3 <;> by_cases hm : m = 0 <;> simp [hl, hm, escalationAt, after_eq, Nat.pos_iff_ne_zero]
  unfold State.escalationFor
  rw [armed]
  match level with
  | 0 | 1 | 2 => rfl
  | k + 3 => simp

/-- R139, R143: the ticket an opening creates. -/
def newTicket (s : State) (number oven : Nat) (origin : Origin) (code : Option Nat) (c : Nat) (active : Bool) : Ticket :=
  { number := number, oven := oven, origin := origin, code := code, cls := c, state := .open, level := 0
    escalation := escalationAt s (s.cls c).e1, reference := none, occurrences := 1, reopens := 0, active := active
    firstSeen := s.clock, lastSeen := s.clock, verification := none, permit := none }

/-- R46, R141: the table with a new ticket in its place. -/
def State.ticketAdded (s : State) (x : Ticket) : State :=
  { s with
    ticketCounter := if 65535 ≤ x.number then 1 else x.number + 1
    tickets := insertBefore (fun y => x.number < y.number) x s.tickets }

/-- R135, R139: the hit of the entry that took a fault. -/
def State.hit (s : State) : Option Nat → State
  | some e => s.setRoute e { s.route e with hits := min 65535 ((s.route e).hits + 1) }
  | none => s

theorem find_insertBefore {α : Type} {p q : α → Bool} {x : α} {l : List α} (hx : q x = true) (hl : ∀ y ∈ l, q y = false) :
    (insertBefore p x l).find? q = some x := by
  induction l with
  | nil => simp [insertBefore, hx]
  | cons y l ih =>
    rw [insertBefore]
    split_ifs
    · rw [List.find?_cons_of_pos hx]
    · rw [List.find?_cons_of_neg (by rw [hl y List.mem_cons_self]; decide)]
      exact ih fun z hz => hl z (List.mem_cons_of_mem _ hz)

theorem ticket_isSome_iff : (s.ticket k).isSome = true ↔ ∃ x ∈ s.tickets, x.number = k := by
  rw [State.ticket, List.find?_isSome]
  simp only [decide_eq_true_eq]

theorem ticket_number (h : s.ticket k = some x) : x.number = k := by
  have := List.find?_some h
  exact of_decide_eq_true this

theorem createTicket_eq {oven : Nat} {origin : Origin} {code : Option Nat} {active : Bool} {entry : Option Nat}
    (hk : freeNumber (fun n => (s.ticket n).isSome) 65 s.ticketCounter = k) (free : ∀ x ∈ s.tickets, x.number ≠ k)
    (hr : s.Quiet c ∨ oven = 0 ∨ s.Ungated oven) :
    let x := newTicket s k oven origin code c active
    createTicket oven origin code c active entry s =
      reported oven c (raise .ticket k (ticketDetail s 0 1 x) ((s.ticketAdded x).hit entry)) := by
  intro x
  have made : createTicket oven origin code c active entry s =
      reportTicket x (raiseTicket 0 k ((s.ticketAdded x).hit entry)) := by
    have escalation := escalationFor_eq s c 0
    subst hk
    rw [if_pos rfl] at escalation
    unfold createTicket
    rw [escalation]
    cases entry <;> rfl
  have found : ((s.ticketAdded x).hit entry).ticket k = some x := by
    have inserted : (s.ticketAdded x).ticket k = some x :=
      find_insertBefore (decide_eq_true rfl) fun y hy => decide_eq_false (free y hy)
    cases entry <;> exact inserted
  have noticed : raiseTicket 0 k ((s.ticketAdded x).hit entry) =
      raise .ticket k (ticketDetail s 0 1 x) ((s.ticketAdded x).hit entry) := by
    rw [raiseTicket, found]
    cases entry <;> rfl
  rw [made, noticed]
  refine reportTicket_eq x (hr.imp (fun q => ?_) (.imp id fun u => State.Ungated.raise ?_ _ _ _))
  · exact State.Quiet.eq_1 _ _ ▸ by
      rw [raise_cls]
      cases entry <;> exact q
  · cases entry <;> exact u.congr u.settled rfl rfl

/-- R150: a closed ticket leaves the table, and what its notice shows. -/
def State.ticketGone (s : State) (k : Nat) : State := { s with tickets := s.tickets.filter fun x => decide (x.number ≠ k) }

theorem closeTicket_eq {reason : Nat} (h : s.ticket k = some x)
    (hr : s.Quiet x.cls ∨ x.oven = 0 ∨ x.state = .verifying ∨ s.Ungated x.oven) :
    let closed := raise .ticket k (ticketDetail s reason 0 x) (s.ticketGone k)
    closeTicket reason k s = if x.state = .verifying then closed else reported x.oven x.cls closed := by
  intro closed
  have told : raiseTicketAs reason 0 x (s.ticketGone k) = closed := by
    rw [show closed = raise .ticket k (ticketDetail s reason 0 x) (s.ticketGone k) from rfl, ← ticket_number h]
    rfl
  have go : closeTicket reason k s = if x.holds = true then reportTicket x closed else closed := by
    rw [closeTicket, h, ← told]
    rfl
  rw [go]
  by_cases hv : x.state = .verifying
  · rw [if_pos hv, if_neg (by rw [holds_iff]; exact not_not.2 hv)]
  · rw [if_neg hv, if_pos ((holds_iff x).2 hv)]
    refine reportTicket_eq x ?_
    rcases hr with q | z | v | u
    · exact .inl ⟨by rw [raise_cls]; exact q.1, by rw [raise_cls]; exact q.2⟩
    · exact .inr (.inl z)
    · exact absurd v hv
    · exact .inr (.inr (State.Ungated.raise (s := s.ticketGone k) (u.congr u.settled rfl rfl) _ _ _))

/-- R145: a resolve of an oven's ticket sends it to VERIFYING. -/
def Ticket.resolved (s : State) (x : Ticket) : Ticket := { x with
  state := .verifying, escalation := none, verification := some (min 4294967295 (s.clock + 14400)), permit := none }

theorem resolveTicket_eq (h : s.ticket k = some x) (hv : x.state ≠ .verifying)
    (hr : s.Quiet x.cls ∨ x.oven = 0 ∨ s.Ungated x.oven) :
    resolveTicket x s = if x.oven = 0 then raise .ticket k (ticketDetail s 7 0 x) (s.ticketGone k)
      else reported x.oven x.cls (s.modTicket k (Ticket.resolved s)) := by
  have hk := ticket_number h
  by_cases h0 : x.oven = 0
  · rw [if_pos h0, resolveTicket, if_pos h0, hk, closeTicket_eq h (.inr (.inl h0)), if_neg hv, reported, if_pos h0]
    rfl
  · rw [if_neg h0, resolveTicket, if_neg h0, hk]
    exact reportTicket_eq x (hr.imp id (.imp id fun u => u.congr u.settled rfl rfl))

end Sys2Proof.Machine
end

section
/-! PROOF. The requests of the Ticket Table and Fault Router: classes and routes (R134, R135), and the tickets opened, acknowledged,
resolved and closed by request (R143 to R145, R150). -/

namespace Sys2Proof.Machine

set_option Elab.async false

variable {s t : State} {n c k : Nat} {x : Ticket}

/-! ### Classes (R134) -/

theorem severity_code {code : Nat} {v : Severity} (h : Severity.ofCode code = some v) : code ≤ 3 := by
  by_contra k
  obtain ⟨m, rfl⟩ : ∃ m, code = m + 4 := ⟨code - 4, by omega⟩
  cases h

theorem severity_none {code : Nat} (h : 3 < code) : Severity.ofCode code = none := by
  obtain ⟨m, rfl⟩ : ∃ m, code = m + 4 := ⟨code - 4, by omega⟩
  rfl

/-- R134: the ovens with an open ticket of a class. -/
theorem ovensWithClass_eq (s : State) (c : Nat) : s.ovensWithClass c =
    allSlots.filter fun n => s.tickets.any fun t => decide (t.oven = n ∧ t.cls = c) := by
  simp only [State.ovensWithClass, Bool.decide_and]

theorem ovensWithClass_empty (h : ∀ t ∈ s.tickets, t.cls = c → t.oven = 0) : s.ovensWithClass c = [] := by
  rw [ovensWithClass_eq, List.filter_eq_nil_iff]
  intro n hn found
  obtain ⟨t, ht, e⟩ := List.any_eq_true.1 found
  obtain ⟨ho, hc⟩ := of_decide_eq_true e
  have slot : isSlot n := (mem_allSlots n).1 hn
  rw [← ho, h t ht hc] at slot
  exact absurd slot (by decide)

/-- R134: a class nothing depends on is replaced, and nothing else follows. -/
theorem setClass_plain {new : TicketClass}
    (h : s.ovensWithClass c = [] ∨
      ((s.cls c).blocksUpdates = new.blocksUpdates ∧ ((s.cls c).severity = .lockout ↔ new.severity = .lockout))) :
    setClass c new s = s.setCls c new := by
  have relocks : (if decide ((s.cls c).severity = .lockout) = decide (new.severity = .lockout) then s.setCls c new
      else ((s.setCls c new).ovensWithClass c).foldl (fun s n => deriveLock n s) (s.setCls c new)) = s.setCls c new := by
    rcases h with none | ⟨_, same⟩
    · rw [show (s.setCls c new).ovensWithClass c = [] from none]
      exact ite_self _
    · exact if_pos (decide_eq_decide.2 same)
  unfold setClass
  dsimp only
  rw [relocks]
  exact if_pos (h.symm.imp And.left id)

/-- R134: what the changes of a class tell. -/
theorem setClass_told {new : TicketClass} (h : ∀ n ∈ s.ovensWithClass c, s.Ungated n) :
    let relocks := if (s.cls c).severity = .lockout ↔ new.severity = .lockout then s.setCls c new
      else (s.ovensWithClass c).foldl (fun t n => relocked n t) (s.setCls c new)
    setClass c new s =
      if (s.cls c).blocksUpdates ≠ new.blocksUpdates ∧ s.ovensWithClass c ≠ [] then channelChoice relocks else relocks := by
  intro relocks
  have folded : (if decide ((s.cls c).severity = .lockout) = decide (new.severity = .lockout) then s.setCls c new
      else ((s.setCls c new).ovensWithClass c).foldl (fun s n => deriveLock n s) (s.setCls c new)) = relocks := by
    show _ = if _ then _ else _
    simp only [decide_eq_decide]
    split_ifs
    · rfl
    · exact foldl_deriveLock (s := s.setCls c new) _ fun n hn => State.Ungated.congr (h n hn) (h n hn).settled rfl rfl
  have table : relocks.tickets = s.tickets := by
    show State.tickets (if _ then _ else _) = _
    split_ifs
    · rfl
    · exact foldl_relocked_tickets _
  have ovens : relocks.ovensWithClass c = s.ovensWithClass c := by
    rw [ovensWithClass_eq, ovensWithClass_eq, table]
  unfold setClass
  dsimp only
  rw [folded, ovens]
  by_cases k : (s.cls c).blocksUpdates = new.blocksUpdates
  · rw [if_pos (.inl k), if_neg fun j => j.1 k]
  by_cases e : s.ovensWithClass c = []
  · rw [if_pos (.inr e), if_neg fun j => j.2 e]
  rw [if_neg (not_or.2 ⟨k, e⟩), if_pos ⟨k, e⟩]

/-- R134: the answer to a CLASS_SET in range. -/
theorem reqClassSet_eq {a : ClassArgs} {v : Severity} (hc : c ≤ 7) (hv : Severity.ofCode a.severity = some v) (h1 : a.e1 ≤ 1440)
    (h2 : a.e2 ≤ 1440) (h3 : a.e3 ≤ 1440) (h4 : a.cap ≤ 64) :
    reqClassSet c a s = ({ status := if a.cap < s.openCount c then .clamped else .ok, body := [] },
      setClass c (classOf s c v a) s) := by
  have inside : ¬ (7 < c ∨ 1440 < a.e1 ∨ 1440 < a.e2 ∨ 1440 < a.e3 ∨ 64 < a.cap) := by omega
  rw [reqClassSet, hv]
  refine (if_neg inside).trans ?_
  simp only [okClamped, decide_eq_true_eq]

theorem reqClassSet_range {a : ClassArgs}
    (h : 7 < c ∨ 3 < a.severity ∨ 1440 < a.e1 ∨ 1440 < a.e2 ∨ 1440 < a.e3 ∨ 64 < a.cap) :
    reqClassSet c a s = refuse .range s := by
  rw [reqClassSet]
  cases hv : Severity.ofCode a.severity with
  | none => rfl
  | some v =>
    have := severity_code hv
    exact if_pos (by omega)

/-- Settles O54. -/
theorem classesAndRoutesAreSet : Obligations.ClassesAndRoutesAreSet := by
  refine ⟨fun s c a h => ?_, fun s c a v h hc hv h1 h2 h3 h4 => ?_, fun s e => ⟨fun a h => ?_, fun h => ?_, fun h => ?_, fun b h => ?_⟩⟩
  · intro count
    refine ⟨fun hr => request_refuses h (reqClassSet_range hr), fun v hc hv h1 h2 h3 h4 hq => ?_⟩
    have e := reqClassSet_eq (s := s) hc hv h1 h2 h3 h4
    rw [setClass_plain (hq.imp ovensWithClass_empty id)] at e
    exact request_answers h e rfl
  · intro count changed told hu relocks
    have same : s.ovensWithClass c = told := ovensWithClass_eq s c
    have e := reqClassSet_eq (s := s) hc hv h1 h2 h3 h4
    have clock := (setClass_moves c (classOf s c v a) s).still.clock
    rw [setClass_told (new := classOf s c v a) (same ▸ hu), same] at e clock
    exact request_answers h e clock
  · split_ifs with k j
    · exact request_refuses h (if_pos k)
    · exact request_refuses h ((if_neg k).trans (if_pos j))
    · exact request_answers h ((if_neg k).trans (if_neg j)) rfl
  · split_ifs with k
    · exact request_refuses h (if_pos k)
    · exact request_answers h (if_neg k) rfl
  · split_ifs with k
    · exact request_refuses h (if_pos k)
    · exact request_answers h (if_neg k) rfl
  · refine request_answers (act := reqRouteRead b) h rfl ?_
    cases b <;> rfl

/-! ### Tickets by request (R143 to R145, R150) -/

/-- R143 step 5. -/
theorem ticketsFull_iff : s.ticketsFull c = true ↔
    (s.cls c).cap ≤ (s.tickets.countP fun x => decide (x.cls = c)) ∨ 64 ≤ s.tickets.length := by
  have room : (!s.hasRoom c) = true ↔ (s.cls c).cap ≤ (s.tickets.countP fun x => decide (x.cls = c)) := by
    rw [Bool.not_eq_true', State.hasRoom, decide_eq_false_iff_not, Nat.not_lt]
    rfl
  rw [State.ticketsFull, Bool.or_eq_true, room, decide_eq_true_eq]
  rfl

theorem ticketOf_oven_code (oven : Nat) (code : Option Nat) : (s.tickets.any fun t => t.oven = oven && t.code = code) = true ↔
    ∃ x ∈ s.tickets, x.oven = oven ∧ x.code = code := by
  simp only [List.any_eq_true, Bool.and_eq_true, decide_eq_true_eq]

/-- R144: a reference that is no reference of a technician. -/
theorem badReference_iff (reference : Option (List Byte)) : reference.any (fun r => !referenceOk r) = true ↔
    ∃ r ∈ reference, ¬ (1 ≤ r.length ∧ r.length ≤ 16 ∧ ∀ c ∈ r, 0x20 ≤ c.toNat ∧ c.toNat ≤ 0x7E) := by
  have good : ∀ r, referenceOk r = true ↔ 1 ≤ r.length ∧ r.length ≤ 16 ∧ ∀ c ∈ r, 0x20 ≤ c.toNat ∧ c.toNat ≤ 0x7E := fun r => by
    simp only [referenceOk, printable, Bool.and_eq_true, decide_eq_true_eq, List.all_eq_true, and_assoc]
  simp only [Option.any_eq_true, Bool.not_eq_true', ← Bool.not_eq_true, good, Option.mem_def]

/-- A request whose effect is moves. -/
theorem request_moved {i : Instr} {act : Act} {r : Reply} {u : State} (h : s.Serves i) (e : act s = (r, u))
    (m : Moves s (act s).2) : request i act s = .next { u with port := .ready r } :=
  request_answers h e ((congrArg (fun p => p.2.clock) e).symm.trans m.still.clock)

/-- R143: the checks of a TICKET_OPEN. -/
theorem reqTicketOpen_eq (oven c : Nat) (code : Option Nat) (s : State) : reqTicketOpen oven c code s =
    if 32 < oven ∨ 7 < c then refuse .range s
    else if oven ≠ 0 ∧ (s.oven oven).state = .vacant then refuse .noRecord s
    else if oven ≠ 0 ∧ ((s.oven oven).state = .discovered ∨ (s.oven oven).state = .retiring) then refuse .wrongState s
    else if code ≠ none ∧ ∃ x ∈ s.tickets, x.oven = oven ∧ x.code = code then refuse .inUse s
    else if (s.cls c).cap ≤ (s.tickets.countP fun x => decide (x.cls = c)) ∨ 64 ≤ s.tickets.length then refuse .tableFull s
    else ({ status := .ok, body := le 2 (freeNumber (fun n => (s.ticket n).isSome) 65 s.ticketCounter) },
      createTicket oven .site code c false none s) := by
  unfold reqTicketOpen
  simp only [Option.isSome_iff_ne_none, ticketOf_oven_code, ticketsFull_iff]
  rfl

theorem ticket_isSome_false (free : ∀ x ∈ s.tickets, x.number ≠ k) : (s.ticket k).isSome = false := by
  rw [← Bool.not_eq_true, ticket_isSome_iff]
  rintro ⟨x, hx, e⟩
  exact free x hx e

/-- R46: the counter itself is issued while no ticket has its number. -/
theorem freeTicket_counter (free : ∀ x ∈ s.tickets, x.number ≠ s.ticketCounter) :
    freeNumber (fun n => (s.ticket n).isSome) 65 s.ticketCounter = s.ticketCounter :=
  freeNumber_first (k := 0) (by decide) (by decide) (fun j hj => absurd hj (Nat.not_lt_zero j)) (ticket_isSome_false free)

/-- Settles O55. -/
theorem ticketsOpenAndClose : Obligations.TicketsOpenAndClose := by
  refine ⟨fun s oven c code h => ?_, fun s c h hc hl hcap => ?_, fun s k => ⟨fun none => ⟨fun r h => ?_, fun h => ?_, fun h => ?_⟩,
    fun t ht => ?_⟩⟩
  · intro t opened free quiet
    have e := reqTicketOpen_eq oven c code s
    have m := Moves.refl (s := s) |>.reqTicketOpen oven c code
    rw [freeTicket_counter free, createTicket_eq (freeTicket_counter free) free quiet] at e
    split_ifs at e ⊢
    · exact request_refuses h e
    · exact request_refuses h e
    · exact request_refuses h e
    · exact request_refuses h e
    · exact request_refuses h e
    · exact request_moved h e m
  · intro following used
    obtain ⟨k, hk, free, tried⟩ : ∃ k < 64, numberTried s.ticketCounter k ∉ s.tickets.map Ticket.number ∧
        ∀ j < k, numberTried s.ticketCounter j ∈ s.tickets.map Ticket.number := by
      have found := exists_unused (s.tickets.map Ticket.number) s.ticketCounter 64 (by rw [List.length_map]; exact hl) (by decide)
      classical
      obtain ⟨hlt, hfree⟩ := Nat.find_spec found
      exact ⟨Nat.find found, hlt, hfree, fun j hj => by
        by_contra no
        exact Nat.find_min found hj ⟨hj.trans hlt, no⟩⟩
    have steps : ∀ j ≤ k, following^[j] s.ticketCounter = numberTried s.ticketCounter j := fun j hj =>
      numberTried_iterate _ _ (by omega)
    have used_iff : ∀ m, used m ↔ m ∈ s.tickets.map Ticket.number := fun m => List.mem_map.symm
    refine ⟨k, by omega, fun j hj => (steps j hj.le).symm ▸ (used_iff _).2 (tried j hj), ?_⟩
    intro number
    have issued : number = numberTried s.ticketCounter k := steps k le_rfl
    have unused : ¬ used number := by rw [issued, used_iff]; exact free
    refine ⟨unused, ?_⟩
    intro t
    have fresh : ∀ x ∈ s.tickets, x.number ≠ number := fun x hx e => unused ⟨x, hx, e⟩
    have first : freeNumber (fun n => (s.ticket n).isSome) 65 s.ticketCounter = number := by
      rw [issued]
      refine freeNumber_first (by omega) (by decide) (fun j hj => ?_) (ticket_isSome_false (issued ▸ fresh))
      exact ticket_isSome_iff.2 (List.mem_map.1 (tried j hj))
    have e := reqTicketOpen_eq 0 c none s
    have m := Moves.refl (s := s) |>.reqTicketOpen 0 c none
    rw [first, createTicket_eq first fresh (.inr (.inl rfl)), if_neg (by omega), if_neg (by simp), if_neg (by simp),
      if_neg (by simp), if_neg (by omega)] at e
    exact request_moved h e m
  · split_ifs with bad
    · exact request_refuses h (if_pos ((badReference_iff r).2 bad))
    · exact request_refuses h ((if_neg (fun b => bad ((badReference_iff r).1 b))).trans (by rw [none]))
  · exact request_refuses h (by rw [reqTicketResolve, none])
  · exact request_refuses h (by rw [reqTicketClose, none])
  · intro gone
    refine ⟨fun r h => ?_, fun h hq => ?_, fun h hq => ?_⟩
    · split_ifs with bad hv
      · exact request_refuses h (if_pos ((badReference_iff r).2 bad))
      · refine request_refuses h ((if_neg fun b => bad ((badReference_iff r).1 b)).trans ?_)
        rw [ht]
        exact if_pos hv
      · refine request_answers (act := reqTicketAck k r) h ((if_neg fun b => bad ((badReference_iff r).1 b)).trans ?_) rfl
        rw [ht]
        refine (if_neg hv).trans ?_
        cases r <;> rfl
    · have m := Moves.refl (s := s) |>.reqTicketResolve k
      have e : reqTicketResolve k s = if t.state = .verifying then refuse .wrongState s else ok (resolveTicket t s) := by
        rw [reqTicketResolve, ht]
      split_ifs at e ⊢ with hv h0
      · exact request_refuses h e
      · rw [resolveTicket_eq ht hv hq, if_pos h0] at e
        exact request_moved h e m
      · rw [resolveTicket_eq ht hv hq, if_neg h0] at e
        exact request_moved h e m
    · have m := Moves.refl (s := s) |>.reqTicketClose k
      have e : reqTicketClose k s = ok (closeTicket reasonHostClosed k s) := by rw [reqTicketClose, ht]
      rw [closeTicket_eq ht hq] at e
      exact request_moved h e m

end Sys2Proof.Machine
end

section
/-! PROOF. The routing of faults (R136 to R140, R146), the look-up of recipes (R17) and the deadlines of tickets (R142, R149). -/

namespace Sys2Proof.Machine

set_option Elab.async false

variable {s t : State} {n c k code model e : Nat} {x : Ticket} {origin : Origin}

/-! ### The scan of the routing table (R135, R138) -/

/-- R135: an entry is enabled and matches a fault. -/
def State.hits (s : State) (code model e : Nat) : Prop :=
  (s.route e).enabled = true ∧ code &&& (s.route e).codeMask = (s.route e).codePattern &&& (s.route e).codeMask ∧
    model &&& (s.route e).modelMask = (s.route e).modelPattern &&& (s.route e).modelMask

/-- R133: a class has room for a ticket. -/
def State.room (s : State) (c : Nat) : Prop := (s.tickets.countP fun x => decide (x.cls = c)) < (s.cls c).cap

/-- R138: a TICKET entry is passed over, its class being full. -/
def State.passes (s : State) (e : Nat) : Prop := (s.route e).absorb = false ∧ ¬ s.room (s.route e).target

theorem hits_iff : ((s.route e).enabled && (s.route e).matchesFault code model) = true ↔ s.hits code model e := by
  simp only [Route.matchesFault, Bool.and_eq_true, decide_eq_true_eq, State.hits]

theorem hasRoom_iff : s.hasRoom c = true ↔ s.room c := decide_eq_true_iff

theorem scanRoutes_miss {l : List Nat} {b : Bool} (h : ¬ s.hits code model e) :
    scanRoutes s code model (e :: l) b = scanRoutes s code model l b := by
  rw [scanRoutes]
  exact if_neg (fun k => h (hits_iff.1 k))

theorem scanRoutes_absorbs {l : List Nat} {b : Bool} (h : s.hits code model e) (ha : (s.route e).absorb = true) :
    scanRoutes s code model (e :: l) b = .absorbed e := by
  rw [scanRoutes]
  exact (if_pos (hits_iff.2 h)).trans (if_pos ha)

theorem scanRoutes_takes {l : List Nat} {b : Bool} (h : s.hits code model e) (ha : (s.route e).absorb = false)
    (hr : s.room (s.route e).target) : scanRoutes s code model (e :: l) b = .taken (s.route e).target (some e) := by
  rw [scanRoutes]
  exact (if_pos (hits_iff.2 h)).trans ((if_neg (by rw [ha]; decide)).trans (if_pos (hasRoom_iff.2 hr)))

theorem scanRoutes_passes {l : List Nat} {b : Bool} (h : s.hits code model e) (hp : s.passes e) :
    scanRoutes s code model (e :: l) b = scanRoutes s code model l true := by
  rw [scanRoutes]
  exact (if_pos (hits_iff.2 h)).trans ((if_neg (by rw [hp.1]; decide)).trans (if_neg fun r => hp.2 (hasRoom_iff.1 r)))

/-- R138: entries that do not match or are passed over only leave behind whether one of them matched. -/
theorem scanRoutes_skip {l r : List Nat} (b : Bool) (h : ∀ e ∈ l, s.hits code model e → s.passes e) :
    ∃ b', scanRoutes s code model (l ++ r) b = scanRoutes s code model r b' ∧
      (b' = true ↔ b = true ∨ ∃ e ∈ l, s.hits code model e) := by
  induction l generalizing b with
  | nil => exact ⟨b, rfl, by simp⟩
  | cons e l ih =>
    have rest := fun b => ih b fun x hx => h x (List.mem_cons_of_mem _ hx)
    by_cases k : s.hits code model e
    · obtain ⟨b', scan, matched⟩ := rest true
      exact ⟨b', (scanRoutes_passes k (h e List.mem_cons_self k)).trans scan, by simp [matched, k]⟩
    · obtain ⟨b', scan, matched⟩ := rest b
      exact ⟨b', (scanRoutes_miss k).trans scan, by simp [matched, k]⟩

/-- R138: the scan comes to an entry once those before it are passed. -/
theorem scanRoutes_reaches (he : e ≤ 31) (h : ∀ e' < e, s.hits code model e' → s.passes e') :
    ∃ b l, scanRoutes s code model (List.range 32) false = scanRoutes s code model (e :: l) b := by
  have split : List.range 32 = List.range e ++ e :: ((List.range (31 - e)).map Nat.succ).map (e + ·) := by
    rw [show 32 = e + (31 - e + 1) by omega, List.range_add, List.range_succ_eq_map]
    simp
  obtain ⟨b, scan, _⟩ := scanRoutes_skip (r := e :: ((List.range (31 - e)).map Nat.succ).map (e + ·)) (l := List.range e) (s := s) (code := code)
    (model := model) false fun x hx => h x (List.mem_range.1 hx)
  exact ⟨b, _, split ▸ scan⟩

theorem scanRoutes_entry (he : e ≤ 31) (hit : s.hits code model e) (first : ∀ e' < e, s.hits code model e' → s.passes e')
    (ha : (s.route e).absorb = false) (hc : s.room (s.route e).target) :
    scanRoutes s code model (List.range 32) false = .taken (s.route e).target (some e) := by
  obtain ⟨b, l, scan⟩ := scanRoutes_reaches he first
  exact scan.trans (scanRoutes_takes hit ha hc)

/-- R138: the scan that comes to the end of the table. -/
theorem scanRoutes_ends (h : ∀ e ≤ 31, s.hits code model e → s.passes e) :
    ∃ b, scanRoutes s code model (List.range 32) false = scanRoutes s code model [] b ∧
      (b = true ↔ ∃ e ≤ 31, s.hits code model e) := by
  obtain ⟨b, scan, matched⟩ := scanRoutes_skip (r := []) (l := List.range 32) (s := s) (code := code) (model := model) false
    fun x hx => h x (Nat.le_of_lt_succ (List.mem_range.1 hx))
  refine ⟨b, (List.append_nil (List.range 32)) ▸ scan, matched.trans ?_⟩
  simp only [Bool.false_eq_true, false_or, List.mem_range, Nat.lt_succ_iff]

/-- R138: a fault no entry matches is for class 0. -/
theorem scanRoutes_default (h : ∀ e ≤ 31, ¬ s.hits code model e) (hr : s.room 0) :
    scanRoutes s code model (List.range 32) false = .taken 0 none := by
  obtain ⟨b, scan, matched⟩ := scanRoutes_ends fun e he k => absurd k (h e he)
  have none : b = false := by
    rw [← Bool.not_eq_true, matched]
    rintro ⟨e, he, k⟩
    exact h e he k
  rw [scan, none, scanRoutes]
  exact if_pos (hasRoom_iff.2 hr)

/-- R138: the scan overflows when no entry that matches can take the fault. -/
theorem scanRoutes_overflow (h : ∀ e ≤ 31, s.hits code model e → s.passes e) (hr : (∃ e ≤ 31, s.hits code model e) ∨ ¬ s.room 0) :
    scanRoutes s code model (List.range 32) false = .overflow := by
  obtain ⟨b, scan, matched⟩ := scanRoutes_ends h
  rw [scan, scanRoutes]
  refine if_neg fun k => ?_
  obtain ⟨unmatched, room⟩ := Bool.and_eq_true_iff.1 k
  rcases hr with some | full
  · rw [matched.2 some] at unmatched
    cases unmatched
  · exact full (hasRoom_iff.1 room)

/-! ### A fault is routed (R136 to R140) -/

theorem ticketOf_none (h : ∀ t ∈ s.tickets, ¬ (t.oven = n ∧ t.code = some code)) :
    (s.tickets.find? fun t => t.oven = n && t.code = some code) = none := by
  rw [List.find?_eq_none]
  intro t ht k
  rw [Bool.and_eq_true, decide_eq_true_eq, decide_eq_true_eq] at k
  exact h t ht k

/-- R138 to R140: what is done with the scan's answer. -/
def scanned (n code : Nat) (origin : Origin) (s : State) : ScanResult → State
  | .absorbed e => s.hit (some e)
  | .overflow => raiseOverflow n code origin 0 s
  | .taken c entry =>
    if 64 ≤ s.tickets.length then raiseOverflow n code origin 1 s else createTicket n origin (some code) c true entry s

section
variable (hr : (s.oven n).state.routed = true)
include hr

section
variable (hm : (s.oven n).model = model) (hf : ∀ t ∈ s.tickets, ¬ (t.oven = n ∧ t.code = some code))
include hm hf

/-- R136, R138: a fault without an open ticket goes where the scan takes it. -/
theorem routeFault_scanned :
    routeFault n code origin s = scanned n code origin s (scanRoutes s code model (List.range 32) false) := by
  have running : ¬ (s.oven n).state.routed = false := by rw [hr]; decide
  rw [routeFault, if_neg running, ticketOf_none hf, hm]
  cases scanRoutes s code model (List.range 32) false <;> rfl

theorem routeFault_absorbs (he : e ≤ 31) (hit : s.hits code model e)
    (first : ∀ e' < e, s.hits code model e' → s.passes e') (ha : (s.route e).absorb = true) :
    routeFault n code origin s = s.hit (some e) := by
  obtain ⟨b, l, scan⟩ := scanRoutes_reaches he first
  rw [routeFault_scanned hr hm hf, scan, scanRoutes_absorbs hit ha]
  rfl

theorem routeFault_takes {scan : ScanResult} {entry : Option Nat}
    (hs : scanRoutes s code model (List.range 32) false = scan) (ht : scan = .taken c entry) :
    (64 ≤ s.tickets.length → routeFault n code origin s = raiseOverflow n code origin 1 s) ∧
    (s.tickets.length < 64 → (∀ x ∈ s.tickets, x.number ≠ s.ticketCounter) → s.Quiet c ∨ s.Ungated n →
      let x := newTicket s s.ticketCounter n origin (some code) c true
      routeFault n code origin s = reported n c
        (raise .ticket s.ticketCounter (ticketDetail s 0 1 x) ((s.ticketAdded x).hit entry))) := by
  have go := routeFault_scanned (origin := origin) hr hm hf
  rw [hs, ht] at go
  refine ⟨fun full => go.trans (if_pos full), fun few free quiet => go.trans ((if_neg (Nat.not_le.2 few)).trans ?_)⟩
  exact createTicket_eq (freeTicket_counter free) free (quiet.imp id .inr)

theorem routeFault_overflows (h : ∀ e ≤ 31, s.hits code model e → s.passes e)
    (hc : (∃ e ≤ 31, s.hits code model e) ∨ ¬ s.room 0) :
    routeFault n code origin s = raiseOverflow n code origin 0 s := by
  rw [routeFault_scanned hr hm hf, scanRoutes_overflow h hc]
  rfl

end

end

/-! ### A fault folds into its ticket (R137), a fault cleared (R146) -/

theorem ticket_modTicket {g : Ticket → Ticket} (h : s.ticket k = some x) (hg : ∀ y, (g y).number = y.number) :
    (s.modTicket k g).ticket k = some (g x) := by
  have keeps : (fun t : Ticket => decide (t.number = k)) ∘ (fun t => if t.number = k then g t else t) =
      fun t => decide (t.number = k) := funext fun t => by
    by_cases e : t.number = k <;> simp [Function.comp, e, hg]
  have own := ticket_number h
  rw [State.ticket] at h
  rw [State.ticket, State.modTicket]
  dsimp only
  rw [List.find?_map, keeps, h, Option.map_some, if_pos own]

theorem raiseTicket_modTicket {g : Ticket → Ticket} (h : s.ticket k = some x) (hg : ∀ y, (g y).number = y.number)
    (cause : Nat) : raiseTicket cause k (s.modTicket k g) =
      raise .ticket k (ticketDetail s cause (noticeTicketState (g x).state) (g x)) (s.modTicket k g) := by
  rw [raiseTicket, ticket_modTicket h hg]
  show raise .ticket (g x).number _ _ = _
  rw [hg, ticket_number h]
  rfl

/-- R137: a ticket that takes one more occurrence of its fault. -/
def Ticket.again (s : State) (x : Ticket) : Ticket :=
  { x with occurrences := min 65535 (x.occurrences + 1), lastSeen := s.clock, active := true }

/-- R137: a ticket in VERIFYING that its fault opens again. -/
def Ticket.reopened (s : State) (x : Ticket) : Ticket := { x.again s with
  state := .open, reopens := min 255 (x.reopens + 1), permit := none, verification := none
  escalation := if x.level = 0 then escalationAt s (s.cls x.cls).e1
    else if x.level = 1 then escalationAt s (s.cls x.cls).e2
    else if x.level = 2 then escalationAt s (s.cls x.cls).e3 else none }

/-- R146: a ticket whose fault is cleared. -/
def Ticket.noted (s : State) (x : Ticket) : Ticket := { x with active := false, lastSeen := s.clock }

theorem found_ticket (hf : s.tickets.find? (fun x => decide (x.oven = n ∧ x.code = some code)) = some x) :
    (s.tickets.find? fun t => t.oven = n && t.code = some code) = some x ∧ x.oven = n := by
  refine ⟨?_, (of_decide_eq_true (p := x.oven = n ∧ x.code = some code) (by simpa using List.find?_some hf)).1⟩
  simpa only [Bool.decide_and] using hf

section
variable (hr : (s.oven n).state.routed = true)
  (hf : s.tickets.find? (fun x => decide (x.oven = n ∧ x.code = some code)) = some x) (ht : s.ticket x.number = some x)
include hr hf ht

theorem routeFault_folds (hv : x.state ≠ .verifying) : routeFault n code origin s = raise .ticket x.number
    (ticketDetail s 1 (if x.state = .open then 1 else 2) (x.again s)) (s.modTicket x.number (Ticket.again s)) := by
  have running : ¬ (s.oven n).state.routed = false := by rw [hr]; decide
  have shown : noticeTicketState (x.again s).state = if x.state = .open then 1 else 2 := by
    show noticeTicketState x.state = _
    cases e : x.state
    · rfl
    · rfl
    · exact absurd e hv
  rw [routeFault, if_neg running, (found_ticket hf).1]
  refine (if_pos ((holds_iff x).2 hv)).trans ?_
  rw [← shown]
  exact raiseTicket_modTicket (g := Ticket.again s) ht (fun _ => rfl) 1

theorem routeFault_reopens (hv : x.state = .verifying) (hq : s.Quiet x.cls ∨ s.Ungated n) : routeFault n code origin s =
    reported n x.cls (raise .ticket x.number (ticketDetail s 2 1 (x.reopened s)) (s.modTicket x.number (Ticket.reopened s))) := by
  have running : ¬ (s.oven n).state.routed = false := by rw [hr]; decide
  have own := (found_ticket hf).2
  have opens : ∀ y : Ticket, ({ y with
      occurrences := satAdd 65535 y.occurrences 1, lastSeen := s.clock, active := true
      state := .open, reopens := satAdd 255 y.reopens 1, permit := none, verification := none
      escalation := s.escalationFor y.cls y.level } : Ticket) = y.reopened s := fun y => by
    rw [escalationFor_eq]
    rfl
  rw [routeFault, if_neg running, (found_ticket hf).1]
  have go : foldFault x s = reportTicket x (raiseTicket 2 x.number (s.modTicket x.number (Ticket.reopened s))) := by
    refine (if_neg (fun k => (holds_iff x).1 k hv)).trans ?_
    simp only [opens]
  show foldFault x s = _
  rw [go, raiseTicket_modTicket (g := Ticket.reopened s) ht fun _ => rfl, ← own]
  refine reportTicket_eq x (hq.imp (fun q => ⟨?_, ?_⟩) fun u => .inr (State.Ungated.raise (s := s.modTicket _ _) ?_ _ _ _))
  · rw [raise_cls]; exact q.1
  · rw [raise_cls]; exact q.2
  · rw [own]
    exact u.congr u.settled rfl rfl

end

/-- What an event of a ticket tells leaves the tickets and the classes as they are. -/
theorem reported_tickets (n c : Nat) : (reported n c s).tickets = s.tickets := by
  have told : (if (s.cls c).severity = .lockout then relocked n s else s).tickets = s.tickets := by
    split_ifs
    · exact relocked_tickets n
    · rfl
  unfold reported
  dsimp only
  generalize (if (s.cls c).severity = .lockout then relocked n s else s) = w at told ⊢
  split_ifs with h0 hb
  · rfl
  · exact (Relays.refl.channelChoice).tickets.trans told
  · exact told

theorem reported_cls (n c d : Nat) : (reported n c s).cls d = s.cls d := by
  have told : (if (s.cls c).severity = .lockout then relocked n s else s).cls d = s.cls d := by
    split_ifs
    · exact relocked_cls n d
    · rfl
  unfold reported
  dsimp only
  generalize (if (s.cls c).severity = .lockout then relocked n s else s) = w at told ⊢
  split_ifs with h0 hb
  · rfl
  · rw [State.cls, Moves.refl.channelChoice.still.classes]
    exact told
  · exact told

theorem modTicket_modTicket {f g : Ticket → Ticket} (hf : ∀ y, (f y).number = y.number) :
    (s.modTicket k f).modTicket k g = s.modTicket k fun y => g (f y) := by
  have twice : (fun t : Ticket => if t.number = k then g t else t) ∘ (fun t => if t.number = k then f t else t) =
      fun t => if t.number = k then g (f t) else t := funext fun t => by
    by_cases e : t.number = k <;> simp [Function.comp, e, hf]
  simp only [State.modTicket, List.map_map, twice]

section
variable (hr : (s.oven n).state.routed = true)
include hr

theorem clearFault_unknown (hf : ∀ t ∈ s.tickets, ¬ (t.oven = n ∧ t.code = some code)) : clearFault n code s = s := by
  have running : ¬ (s.oven n).state.routed = false := by rw [hr]; decide
  rw [clearFault, if_neg running, ticketOf_none hf]

variable (hf : s.tickets.find? (fun x => decide (x.oven = n ∧ x.code = some code)) = some x)
include hf

theorem clearFault_found : clearFault n code s =
    if (s.cls x.cls).autoClear = true ∧ x.holds = true ∧ x.active = true then
      raiseTicket 4 x.number (resolveTicket x (s.modTicket x.number (Ticket.noted s)))
    else s.modTicket x.number (Ticket.noted s) := by
  have running : ¬ (s.oven n).state.routed = false := by rw [hr]; decide
  rw [clearFault, if_neg running, (found_ticket hf).1]
  rfl

theorem clearFault_notes (hk : (s.cls x.cls).autoClear = false ∨ x.state = .verifying ∨ x.active = false) :
    clearFault n code s = s.modTicket x.number (Ticket.noted s) := by
  rw [clearFault_found hr hf]
  refine if_neg fun ⟨auto, holds, active⟩ => ?_
  rcases hk with k | k | k
  · rw [k] at auto
    cases auto
  · exact (holds_iff x).1 holds k
  · rw [k] at active
    cases active

/-- R146, R145: the ticket of a cleared fault goes to VERIFYING on an auto-clear class. -/
theorem clearFault_resolves (hn : isSlot n) (ht : s.ticket x.number = some x) (ha : (s.cls x.cls).autoClear = true)
    (hv : x.state ≠ .verifying) (hc : x.active = true) (hq : s.Quiet x.cls ∨ s.Ungated n) :
    clearFault n code s = raise .ticket x.number (ticketDetail s 4 3 x)
      (reported n x.cls (s.modTicket x.number fun y => (y.noted s).resolved s)) := by
  have own := (found_ticket hf).2
  have oven : x.oven ≠ 0 := by
    rw [own]
    exact fun k => absurd hn (k ▸ by decide)
  let w := s.modTicket x.number fun y => (y.noted s).resolved s
  have resolves : resolveTicket x (s.modTicket x.number (Ticket.noted s)) = reported n x.cls w := by
    have twice : (s.modTicket x.number (Ticket.noted s)).modTicket x.number (Ticket.resolved s) = w :=
      modTicket_modTicket fun _ => rfl
    rw [resolveTicket, if_neg oven, ← twice, ← own]
    exact reportTicket_eq (s := State.modTicket _ _ _) x (hq.imp id fun u => .inr (by rw [own]; exact u.congr u.settled rfl rfl))
  have read : (reported n x.cls w).ticket x.number = some ((x.noted s).resolved s) := by
    rw [State.ticket, reported_tickets]
    exact ticket_modTicket (g := fun y => (y.noted s).resolved s) ht fun _ => rfl
  rw [clearFault_found hr hf, if_pos ⟨ha, (holds_iff x).2 hv, hc⟩, resolves, raiseTicket, read]
  show raise .ticket _ _ _ = _
  rw [reported_cls]
  rfl

end

/-! ### A LOOKUP (R17) -/

theorem lookupAnswer_eq (n number : Nat) : lookupAnswer s n number =
    if (s.oven n).state ≠ .inService then .lookupAnswer number 0 false false false true
    else .lookupAnswer number ((s.recipeIn number .active).map Recipe.version |>.getD 0)
      (s.recipeIn number .active |>.any fun r => decide ((s.entry n number r.version).map Entry.state = some .loaded))
      (s.recipeIn number .draft).isSome (s.recipeIn number .withdrawing |>.any fun r => !r.superseded) false := by
  unfold lookupAnswer
  by_cases h : (s.oven n).state = .inService
  · rw [if_pos h, if_neg (not_not.2 h)]
    cases s.recipeIn number .active <;> cases s.recipeIn number .withdrawing <;> rfl
  · rw [if_neg h, if_pos h]

/-! ### The deadlines of a ticket (R142, R149) -/

theorem escalationExpiry_due {i : Nat} (h : s.ticket k = some x) (he : x.escalation = some i) (hi : i ≤ s.clock)
    (ho : x.state = .open) :
    let up := fun x : Ticket => { x with
      level := x.level + 1
      escalation := if x.level = 0 then escalationAt s (s.cls x.cls).e2
        else if x.level = 1 then escalationAt s (s.cls x.cls).e3 else none }
    escalationExpiry k s = raise .ticket k (ticketDetail s 3 1 (up x)) (s.modTicket k up) := by
  intro up
  have climbs : ∀ t : Ticket, ({ t with level := t.level + 1, escalation := s.escalationFor t.cls (t.level + 1) } : Ticket) = up t :=
    fun t => by
      have next : s.escalationFor t.cls (t.level + 1) = if t.level = 0 then escalationAt s (s.cls t.cls).e2
          else if t.level = 1 then escalationAt s (s.cls t.cls).e3 else none := by
        rw [escalationFor_eq, if_neg (Nat.succ_ne_zero _)]
        simp only [Nat.add_eq_right, Nat.reduceEqDiff]
      show ({ t with level := t.level + 1, escalation := s.escalationFor t.cls (t.level + 1) } : Ticket) = _
      rw [next]
  have due : s.due ((s.ticket k).bind Ticket.escalation) = true := by
    rw [h, Option.bind_some, he]
    exact due_some hi
  rw [escalationExpiry, if_pos due, escalate]
  simp only [climbs]
  rw [raiseTicket_modTicket (g := up) h fun _ => rfl]
  show raise .ticket k (ticketDetail s 3 (noticeTicketState x.state) (up x)) _ = _
  rw [ho]
  rfl

theorem verificationExpiry_due {i : Nat} (h : s.ticket k = some x) (he : x.verification = some i) (hi : i ≤ s.clock)
    (hv : x.state = .verifying) : verificationExpiry k s = raise .ticket k (ticketDetail s 6 0 x) (s.ticketGone k) := by
  have due : s.due ((s.ticket k).bind Ticket.verification) = true := by
    rw [h, Option.bind_some, he]
    exact due_some hi
  rw [verificationExpiry, if_pos due]
  exact (closeTicket_eq h (.inr (.inr (.inl hv)))).trans (if_pos hv)

end Sys2Proof.Machine
end

section
/-! PROOF. Faults of ovens and of parts (O56), assembled from the routing, the folding and the clearing of faults. -/

namespace Sys2Proof.Machine

set_option Elab.async false

variable {s : State} {f : InFrame} {rest : List InFrame}

theorem routed_iff (st : OvenState) : st.routed = true ↔
    st = .assigning ∨ st = .profiling ∨ st = .awaitingSetup ∨ st = .testing ∨ st = .inService := by
  cases st <;> decide

theorem routed_of_accepted {st : OvenState} (h : st.accepted = true) (k : st ≠ .retiring) : st.routed = true := by
  revert h k
  cases st <;> decide

theorem hears_fault (h : s.Hears .fault f rest) : exec .fault s = .next (faultFrame f.source f (s.afterHearing f rest)) :=
  congrArg Host.Outcome.next (event_heard (block := faultFrame) h (Moves.refl.faultFrame _ _))

theorem hears_lookup (h : s.Hears .lookup f rest) : exec .lookup s = .next (lookupFrame f.source f (s.afterHearing f rest)) :=
  congrArg Host.Outcome.next (event_heard (block := lookupFrame) h (Moves.refl.lookupFrame _ _))

theorem afterHearing_ungated {n : Nat} (h : s.Ungated n) : (s.afterHearing f rest).Ungated n := by
  refine h.congr (afterHearing_settled h.settled) rfl ?_
  by_cases e : n = f.source
  · subst e
    by_cases hn : isSlot f.source
    · rw [afterHearing_oven hn]
    · rw [oven_of_not_slot hn, oven_of_not_slot hn]
  · exact congrArg (fun o : Oven => o.locks.update) (State.setOven_oven_ne _ _ _ _ e)

/-- R136: the record of a source whose faults are routed. -/
theorem afterHearing_routed (hn : isSlot f.source) (ha : (s.oven f.source).state.accepted = true)
    (hr : (s.oven f.source).state ≠ .retiring) : ((s.afterHearing f rest).oven f.source).state.routed = true := by
  rw [afterHearing_oven hn]
  exact routed_of_accepted ha hr

theorem afterHearing_model (hn : isSlot f.source) : ((s.afterHearing f rest).oven f.source).model = (s.oven f.source).model := by
  rw [afterHearing_oven hn]

theorem afterHearing_state (hn : isSlot f.source) : ((s.afterHearing f rest).oven f.source).state = (s.oven f.source).state := by
  rw [afterHearing_oven hn]

/-- R136: of an oven whose faults are not routed none is. -/
theorem routeFault_unrouted {n code : Nat} {origin : Origin} (h : ¬ (s.oven n).state.routed = true) : routeFault n code origin s = s :=
  if_pos (Bool.not_eq_true _ ▸ h)

theorem clearFault_unrouted {n code : Nat} (h : ¬ (s.oven n).state.routed = true) : clearFault n code s = s :=
  if_pos (Bool.not_eq_true _ ▸ h)

/-- Settles O56. -/
theorem faultsAreRouted : Obligations.FaultsAreRouted := by
  refine ⟨fun s f rest => ?_, fun s n code hn => ?_, fun s k i t hl ht hi => ⟨fun he ho => ?_, fun he hv => ?_⟩⟩
  · intro n u o code hit counted overflow ticket opened room passed
    have stated := fun hn : isSlot n => afterHearing_state (s := s) (rest := rest) hn
    have model := fun hn : isSlot n => afterHearing_model (s := s) (rest := rest) hn
    have routed := fun (h : s.Hears .fault f rest) hr => afterHearing_routed (rest := rest) h.slot h.accepted hr
    have shown := fun (h : s.Hears .fault f rest) (cause : Nat)
      (e : routeFault n code .fault u = raiseOverflow n code .fault cause u) => e.trans (show _ = overflow cause by
        rw [raiseOverflow, model h.slot]; rfl)
    refine ⟨fun h hr => (hears_fault h).trans (congrArg _ ?_), fun h h1 hr => ?_, fun h h1 hr => ?_, fun h hs => ?_⟩
    · have still : ¬ (u.oven n).state.routed = true := by
        rw [stated h.slot, hr]
        decide
      rw [faultFrame]
      split_ifs
      · exact routeFault_unrouted still
      · exact clearFault_unrouted still
    · have go : ∀ t, routeFault n code .fault u = t → exec .fault s = .next t := fun t e =>
        (hears_fault h).trans (congrArg _ ((if_pos h1).trans e))
      have hu := routed h hr
      have hm := model h.slot
      refine ⟨fun hf => ⟨fun e he hit first ha => ?_, fun e he hit first ha hc => ?_, fun none hc hl free hq => ?_,
        fun none hc => ?_, fun some all => ?_⟩, fun t hf ht hq => ?_⟩
      · exact go _ (routeFault_absorbs hu hm hf he hit first ha)
      · have takes := routeFault_takes (origin := .fault) (s := u) hu hm hf (scanRoutes_entry (s := u) he hit first ha hc) rfl
        exact ⟨fun hl => go _ (shown h _ (takes.1 hl)), fun hl free hq => go _ (takes.2 hl free (hq.imp id afterHearing_ungated))⟩
      · have takes := routeFault_takes (origin := .fault) (s := u) hu hm hf (scanRoutes_default (s := u) none hc) rfl
        exact go _ (takes.2 hl free (hq.imp id afterHearing_ungated))
      · exact go _ (shown h _ (routeFault_overflows (s := u) hu hm hf (fun e he k => absurd k (none e he)) (.inr hc)))
      · exact go _ (shown h _ (routeFault_overflows (s := u) hu hm hf all (.inl some)))
      · refine ⟨fun hv => go _ (routeFault_folds (s := u) hu hf ht hv), fun hv => go _ (routeFault_reopens (s := u) hu hf ht hv ?_)⟩
        exact (hq.resolve_left (not_not.2 hv)).imp id afterHearing_ungated
    · have go : ∀ t, clearFault n code u = t → exec .fault s = .next t := fun t e =>
        (hears_fault h).trans (congrArg _ ((if_neg h1).trans e))
      have hu := routed h hr
      refine ⟨fun hf => go _ (clearFault_unknown (s := u) hu hf), fun t hf ht => ?_⟩
      exact ⟨fun hk => go _ (clearFault_notes (s := u) hu hf hk), fun ha hv hc hq =>
        go _ (clearFault_resolves (s := u) hu hf h.slot ht ha hv hc (hq.imp id afterHearing_ungated))⟩
    · refine (hears_lookup h).trans (congrArg _ ?_)
      rw [lookupFrame, lookupAnswer_eq, stated h.slot]
      exact placeFor_eq_deliver (s := u) hs _ _ _
  · intro o routed hit counted overflow ticket opened room passed
    refine ⟨fun hr => routeFault_unrouted (fun k => hr ((routed_iff _).1 k)), fun hr => ?_⟩
    have hu := (routed_iff _).2 hr
    refine ⟨fun hf => ⟨fun e he hit first => ⟨fun ha => ?_, fun ha hc => ?_⟩, fun none => ⟨fun hc => ?_, fun hc => ?_⟩,
      fun some all => ?_⟩, fun t hf ht => ?_⟩
    · exact routeFault_absorbs hu rfl hf he hit first ha
    · have takes := routeFault_takes (origin := .part) hu rfl hf (scanRoutes_entry he hit first ha hc) rfl
      exact ⟨takes.1, takes.2⟩
    · exact routeFault_overflows hu rfl hf (fun e he k => absurd k (none e he)) (.inr hc)
    · have takes := routeFault_takes (origin := .part) hu rfl hf (scanRoutes_default none hc) rfl
      exact takes.2
    · exact routeFault_overflows hu rfl hf all (.inl some)
    · exact ⟨routeFault_folds hu hf ht, routeFault_reopens hu hf ht⟩
  · intro up
    exact congrArg Host.Outcome.next ((event_moves (f := escalationExpiry k) hl (Moves.refl.escalationExpiry k)).trans
      (escalationExpiry_due ht he hi ho))
  · exact congrArg Host.Outcome.next ((event_moves (f := verificationExpiry k) hl (Moves.refl.verificationExpiry k)).trans
      (verificationExpiry_due ht he hi hv))

end Sys2Proof.Machine
end

section
/-! PROOF. Drafting a version of a recipe (R50 to R55). -/

namespace Sys2Proof.Machine

set_option Elab.async false

variable {s : State} {number : Nat} {r : Recipe}

theorem printable_iff (l : List Byte) : printable l = true ↔ ∀ c ∈ l, 0x20 ≤ c.toNat ∧ c.toNat ≤ 0x7E := by
  simp only [printable, List.all_eq_true, Bool.and_eq_true, decide_eq_true_eq]

theorem recipeIn_isSome_iff (st : RecipeState) :
    (s.recipeIn number st).isSome = true ↔ ∃ r ∈ s.recipes, r.number = number ∧ r.state = st := by
  simp only [State.recipeIn, List.find?_isSome, Bool.and_eq_true, decide_eq_true_eq]

theorem recipeIn_some {st : RecipeState} (h : s.recipeIn number st = some r) : r ∈ s.recipes ∧ r.number = number ∧ r.state = st := by
  have holds := List.find?_some h
  rw [Bool.and_eq_true, decide_eq_true_eq, decide_eq_true_eq] at holds
  exact ⟨List.mem_of_find?_eq_some h, holds⟩

/-- R52: the checks of a RECIPE_DRAFT. -/
theorem draftInRange_iff (name : List Byte) (fat : Nat) (version : Option Nat) : draftInRange number name fat version = true ↔
    1 ≤ number ∧ number ≤ 4095 ∧ 1 ≤ name.length ∧ name.length ≤ 24 ∧ (∀ c ∈ name, 0x20 ≤ c.toNat ∧ c.toNat ≤ 0x7E) ∧ fat ≤ 3 ∧
      version ≠ some 0 := by
  simp only [draftInRange, Bool.and_eq_true, decide_eq_true_eq, printable_iff, isRecipe, and_assoc]

/-! ### A step of a draft (R50, R53) -/

/-- R50: setpoint and humidity in the ranges of the mode. -/
def rawModeOk (t : RawStep) : Prop := (t.mode = 0 ∧ 30 ≤ t.setpoint ∧ t.setpoint ≤ 300 ∧ t.humidity = 0) ∨
  (t.mode = 1 ∧ 30 ≤ t.setpoint ∧ t.setpoint ≤ 130 ∧ t.humidity = 100) ∨
  (t.mode = 2 ∧ 30 ≤ t.setpoint ∧ t.setpoint ≤ 300 ∧ 1 ≤ t.humidity ∧ t.humidity ≤ 99)

/-- R50: the values of the end in the ranges of its kind. -/
def rawEndOk (t : RawStep) : Prop := (t.endKind = 0 ∧ 1 ≤ t.seconds ∧ t.seconds ≤ 14400) ∨
  (t.endKind = 1 ∧ 40 ≤ t.target ∧ t.target ≤ 99 ∧ 60 ≤ t.seconds ∧ t.seconds ≤ 14400)

/-- R50: the step as it is stored. -/
def storedStep (t : RawStep) : Step :=
  { mode := if t.mode = 0 then .dry else if t.mode = 1 then .steam else .combi
    setpoint := t.setpoint, humidity := t.humidity, fan := t.fan, prompt := t.prompt
    ending := if t.endKind = 0 then .time t.seconds else .core t.target t.seconds }

theorem endOf_eq (t : RawStep) : (rawEndOk t ∧ endOf t.endKind t.seconds t.target = some (storedStep t).ending) ∨
    (¬ rawEndOk t ∧ endOf t.endKind t.seconds t.target = none) := by
  unfold rawEndOk storedStep endOf
  match t.endKind with
  | 0 => by_cases k : 1 ≤ t.seconds ∧ t.seconds ≤ 14400 <;> simp [k]
  | 1 => by_cases k : 40 ≤ t.target ∧ t.target ≤ 99 ∧ 60 ≤ t.seconds ∧ t.seconds ≤ 14400 <;> simp [k]
  | k + 2 => simp

theorem modeOf_eq (t : RawStep) :
    (rawModeOk t ∧ Mode.ofCode t.mode = some (storedStep t).mode ∧ modeInRange (storedStep t).mode t.setpoint t.humidity = true) ∨
    (¬ rawModeOk t ∧ ∀ m, Mode.ofCode t.mode = some m → modeInRange m t.setpoint t.humidity = false) := by
  have ranges : ∀ m : Mode, modeInRange m t.setpoint t.humidity = true ↔ match m with
      | .dry => 30 ≤ t.setpoint ∧ t.setpoint ≤ 300 ∧ t.humidity = 0
      | .steam => 30 ≤ t.setpoint ∧ t.setpoint ≤ 130 ∧ t.humidity = 100
      | .combi => 30 ≤ t.setpoint ∧ t.setpoint ≤ 300 ∧ 1 ≤ t.humidity ∧ t.humidity ≤ 99 := fun m => by
    cases m <;> simp only [modeInRange, Bool.and_eq_true, decide_eq_true_eq, and_assoc]
  unfold rawModeOk storedStep
  simp only [← Bool.not_eq_true, ranges]
  match t.mode with
  | 0 => simp [Mode.ofCode, Classical.em]
  | 1 => simp [Mode.ofCode, Classical.em]
  | 2 =>
    simp only [Mode.ofCode, Option.some.injEq, forall_eq', OfNat.ofNat_ne_zero, OfNat.ofNat_ne_one, false_and, true_and, false_or, if_false, and_self]
    exact Classical.em _
  | k + 3 => simp [Mode.ofCode]

/-- R50: a step is stored when it passes every check. -/
theorem checkStep_some {t : RawStep} (h : rawModeOk t ∧ rawEndOk t ∧ 1 ≤ t.fan ∧ t.fan ≤ 5) : checkStep t = some (storedStep t) := by
  obtain ⟨hm, he, hf⟩ := h
  obtain ⟨_, mode, range⟩ := (modeOf_eq t).resolve_right fun k => k.1 hm
  obtain ⟨_, ending⟩ := (endOf_eq t).resolve_right fun k => k.1 he
  rw [checkStep, mode, ending]
  exact if_pos ⟨range, hf⟩

theorem checkStep_none {t : RawStep} (h : ¬ (rawModeOk t ∧ rawEndOk t ∧ 1 ≤ t.fan ∧ t.fan ≤ 5)) : checkStep t = none := by
  unfold checkStep
  rcases endOf_eq t with ⟨he, ending⟩ | ⟨_, ending⟩
  · rw [ending]
    cases mode : Mode.ofCode t.mode with
    | none => rfl
    | some m =>
      refine if_neg fun ⟨range, hf⟩ => h ⟨?_, he, hf⟩
      refine ((modeOf_eq t).resolve_right fun k => ?_).1
      rw [k.2 m mode] at range
      cases range
  · rw [ending]
    cases Mode.ofCode t.mode <;> rfl

theorem onDraft_range {act : Recipe → Act} (h : number < 1 ∨ 4095 < number) : onDraft number act s = refuse .range s :=
  if_pos (by simp only [isRecipe]; omega)

theorem onDraft_of {act : Recipe → Act} (h1 : 1 ≤ number) (h2 : number ≤ 4095) (h : s.recipeIn number .draft = some r) :
    onDraft number act s = act r s := by
  rw [onDraft, if_neg (not_not.2 ⟨h1, h2⟩), h]

theorem onDraft_none {act : Recipe → Act} (h1 : 1 ≤ number) (h2 : number ≤ 4095) (h : s.recipeIn number .draft = none) :
    onDraft number act s = refuse .wrongState s := by
  rw [onDraft, if_neg (not_not.2 ⟨h1, h2⟩), h]

/-- Settles O44. -/
theorem draftingWritesTheDraft : Obligations.DraftingWritesTheDraft := by
  refine ⟨fun s number name fat version h => ?_, fun s number k t => ⟨fun hr => ⟨fun h => ?_, fun h => ?_, fun h => ?_⟩,
    fun h1 h2 none => ⟨fun h => ?_, fun h => ?_, fun h => ?_⟩, fun r h1 h2 hd => ?_⟩⟩
  · intro chosen inRange draft
    have e : reqRecipeDraft number name fat version s =
        if ¬ inRange then refuse .range s
        else if ∃ r ∈ s.recipes, r.number = number ∧ r.state = .draft then refuse .wrongState s
        else if 255 < chosen ∨ chosen ≤ s.highestVersion number then refuse .range s
        else if 256 ≤ s.recipes.length then refuse .tableFull s
        else okWith (le 1 chosen) (addRecipe draft s) := by
      unfold reqRecipeDraft
      simp only [← Bool.not_eq_true, draftInRange_iff, recipeIn_isSome_iff]
      rfl
    split_ifs at e ⊢
    · exact request_refuses h e
    · exact request_refuses h e
    · exact request_refuses h e
    · exact request_answers h e rfl
    · exact request_refuses h e
  · exact request_refuses h (onDraft_range hr)
  · exact request_refuses h (onDraft_range hr)
  · exact request_refuses h (onDraft_range hr)
  · exact request_refuses h (onDraft_none h1 h2 none)
  · exact request_refuses h (onDraft_none h1 h2 none)
  · exact request_refuses h (onDraft_none h1 h2 none)
  · intro mode ending step put
    have own : r.number = number := (recipeIn_some hd).2.1
    have putting : ∀ l, setSteps r l s = okWith (le 1 l.length) (s.modRecipe number r.version fun x => { x with steps := l }) :=
      fun l => by rw [setSteps, own]
    refine ⟨fun h => ?_, fun h => ?_, fun h => ?_⟩
    · have e : reqRecipeStep number k t s = _ := onDraft_of h1 h2 hd
      split_ifs with good j j'
      · have w : writeStep r.steps k (storedStep t) = some (r.steps.set (k - 1) (storedStep t)) := if_pos j
        simp only [checkStep_some good, w] at e
        exact request_answers h (e.trans (putting _)) rfl
      · have w : writeStep r.steps k (storedStep t) = some (r.steps ++ [storedStep t]) := (if_neg j).trans (if_pos j')
        simp only [checkStep_some good, w] at e
        exact request_answers h (e.trans (putting _)) rfl
      · have w : writeStep r.steps k (storedStep t) = none := (if_neg j).trans (if_neg j')
        simp only [checkStep_some good, w] at e
        exact request_refuses h e
      · simp only [checkStep_none good] at e
        exact request_refuses h e
    · have e : reqRecipeTrim number k s = _ := onDraft_of h1 h2 hd
      split_ifs with j
      · exact request_answers h ((e.trans (if_neg (Nat.not_lt.2 j))).trans (putting _)) rfl
      · exact request_refuses h (e.trans (if_pos (Nat.lt_of_not_le j)))
    · have e : reqRecipeDiscardDraft number s = _ := onDraft_of h1 h2 hd
      rw [own] at e
      exact request_answers h e rfl

end Sys2Proof.Machine
end

section
/-! PROOF. A START_REQUEST is judged, granted or refused (R91 to R95). -/

namespace Sys2Proof.Machine

set_option Elab.async false

variable {s t : State} {n number version k : Nat} {f : InFrame} {rest : List InFrame} {o : Oven} {r : Recipe} {p : Permit}

/-! ### The number of a permit (R46) -/

/-- The permit numbers in use. -/
def State.permitNumbers (s : State) : List Nat := allSlots.filterMap fun m => (s.permit m).map Permit.number

theorem mem_permitNumbers : k ∈ s.permitNumbers ↔ ∃ m, isSlot m ∧ ∃ p ∈ s.permit m, p.number = k := by
  simp only [State.permitNumbers, List.mem_filterMap, mem_allSlots, Option.map_eq_some_iff, Option.mem_def]

theorem permitNumber_used (s : State) : (fun k => allSlots.any fun n => match s.permit n with | some p => p.number = k | none => false) =
    fun k => decide (k ∈ s.permitNumbers) := funext fun k => by
  have used : ∀ n, (match s.permit n with | some p => decide (p.number = k) | none => false) = true ↔
      (s.permit n).map Permit.number = some k := fun n => by cases s.permit n <;> simp
  rw [Bool.eq_iff_iff, List.any_eq_true, decide_eq_true_eq, State.permitNumbers, List.mem_filterMap]
  exact exists_congr fun n => and_congr_right fun _ => used n

theorem permitNumber_eq (s : State) :
    s.permitNumber = freeNumber (fun k => decide (k ∈ s.permitNumbers)) 33 s.permitCounter := by
  rw [← permitNumber_used]
  rfl

/-- R46: of 33 numbers tried one belongs to no permit. -/
theorem permitNumber_tried (s : State) : ∃ k ≤ 32, s.permitNumber = numberTried s.permitCounter k ∧
    s.permitNumber ∉ s.permitNumbers ∧ ∀ j < k, numberTried s.permitCounter j ∈ s.permitNumbers := by
  have few : s.permitNumbers.length < 33 := Nat.lt_succ_of_le (List.length_filterMap_le _ _)
  have found := exists_unused s.permitNumbers s.permitCounter 33 few (by decide)
  classical
  obtain ⟨hlt, hfree⟩ := Nat.find_spec found
  have tried : ∀ j < Nat.find found, numberTried s.permitCounter j ∈ s.permitNumbers := fun j hj => by
    by_contra no
    exact Nat.find_min found hj ⟨hj.trans hlt, no⟩
  have issued : s.permitNumber = numberTried s.permitCounter (Nat.find found) := by
    rw [permitNumber_eq]
    exact freeNumber_first hlt.le (by decide) (fun j hj => decide_eq_true (tried j hj)) (decide_eq_false hfree)
  exact ⟨_, Nat.le_of_lt_succ hlt, issued, issued ▸ hfree, tried⟩

/-! ### The verdict (R91 to R93) -/

theorem isEmpty_iff (l : Locks) : l.isEmpty = false ↔ l ≠ {} := by
  obtain ⟨a, b, c⟩ := l
  cases a <;> cases b <;> cases c <;> decide

theorem repeats_iff (p : Permit) : p.repeats number version = true ↔
    p.stopping = false ∧ p.recipe = number ∧ p.version = version ∧ p.summaries = [] := by
  simp only [Permit.repeats, Bool.and_eq_true, Bool.not_eq_true', decide_eq_true_eq, List.isEmpty_iff, and_assoc]

theorem lastBeforeClean_eq (o : Oven) (r : Recipe) : lastBeforeClean o r =
    o.hygiene.any fun h => r.figures.any fun f => decide (h.settings.lock ≤ h.soil + f.totalSoil) := by
  unfold lastBeforeClean
  cases o.hygiene <;> cases r.figures <;> rfl

theorem unlinked_any : (!(s.unlinked n).isEmpty) =
    s.tickets.any fun t => decide (t.oven = n ∧ t.state = .verifying ∧ t.permit = none) := by
  rw [Bool.eq_iff_iff, Bool.not_eq_true', List.isEmpty_eq_false_iff_exists_mem, List.any_eq_true]
  simp only [State.unlinked, List.mem_filter, Bool.and_eq_true, decide_eq_true_eq, Option.isNone_iff_eq_none, and_assoc]

theorem linkTickets_eq (i k : Nat) (t : State) : linkTickets i k t = { t with tickets := t.tickets.map fun x =>
    if x.oven = i ∧ x.state = .verifying ∧ x.permit = none then { x with permit := some k } else x } := by
  unfold linkTickets
  simp only [Bool.and_eq_true, decide_eq_true_eq, Option.isNone_iff_eq_none, and_assoc]

theorem addRef_eq (k v : Nat) (t : State) : addRef k v t = { t with recipes := t.recipes.map fun x =>
    if x.number = k ∧ x.version = v then { x with refs := x.refs + 1 } else x } := by
  unfold addRef State.modRecipe
  simp only [Bool.and_eq_true, decide_eq_true_eq]

theorem recipe_named (h : s.recipe number version = some r) : r ∈ s.recipes ∧ r.number = number ∧ r.version = version := by
  have holds := List.find?_some h
  rw [Bool.and_eq_true, decide_eq_true_eq, decide_eq_true_eq] at holds
  exact ⟨List.mem_of_find?_eq_some h, holds⟩

/-! ### The answer (R93, R94) -/

theorem placeGrant_eq (hs : s.Settled) (p : Permit) : placeGrant n p s =
    deliver (ovenFrame .permitUnit n (.permitGranted p.number p.lastBeforeClean (s.oven n).locks)) s :=
  placeFor_eq_deliver hs _ _ _

/-- R94, R95: the permit as it is created. -/
def freshPermit (s : State) (o : Oven) (n number version : Nat) (r : Recipe) : Permit :=
  { number := s.permitNumber, recipe := number, version := version, stopping := false, grantedAt := s.clock
    deadline := min 4294967295 (s.clock + (((r.figures.map Figures.duration).getD 0 * 5 + 3) / 4 + 600))
    lastBeforeClean := o.hygiene.any fun h => r.figures.any fun f => decide (h.settings.lock ≤ h.soil + f.totalSoil)
    target := s.tickets.any fun t => decide (t.oven = n ∧ t.state = .verifying ∧ t.permit = none)
    summaries := [] }

theorem newPermit_eq (h : s.recipe number version = some r) : newPermit s n r = freshPermit s (s.oven n) n number version r := by
  obtain ⟨_, hn, hv⟩ := recipe_named h
  unfold newPermit freshPermit
  rw [lastBeforeClean_eq, unlinked_any, hn, hv, after_eq]
  cases r.figures <;> rfl

/-- R94: a grant. -/
theorem grantPermit_eq (hs : s.Settled) (h : s.recipe number version = some r) :
    let p := freshPermit s (s.oven n) n number version r
    grantPermit n r s = deliver (ovenFrame .permitUnit n (.permitGranted p.number p.lastBeforeClean (s.oven n).locks))
      (linkTickets n s.permitNumber (addRef number version (State.setPermit
        { s with permitCounter := if 65535 ≤ s.permitNumber then 1 else s.permitNumber + 1 } n (some p)))) := by
  intro p
  obtain ⟨_, own, ver⟩ := recipe_named h
  unfold grantPermit
  rw [newPermit_eq h, own, ver]
  exact placeGrant_eq (s := linkTickets n s.permitNumber (addRef number version
    (State.setPermit { s with permitCounter := nextNumber s.permitNumber } n (some p)))) hs p

theorem hears_startRequest (h : s.Hears .startRequest f rest) :
    exec .startRequest s = .next (startRequest f.source (numAt f.data 0 2) (numAt f.data 2 1) (s.afterHearing f rest)) :=
  congrArg Host.Outcome.next (event_heard (block := startRequestFrame) h (Moves.refl.startRequest _ _ _))

/-- R92, R93: the checks that follow those of the oven. -/
def judgeCook (s : State) (n number version : Nat) : PermitVerdict :=
  match s.permit n with
  | some p => if p.repeats number version then .again p else .refuse .busy
  | none => recipeCheck s n number version

/-- R91: the answer to a verdict. -/
def answerStart (n : Nat) (s : State) : PermitVerdict → State
  | .refuse reason => placeFor .permitUnit n (.permitRefused reason.code (s.oven n).locks) s
  | .again p => placeGrant n p s
  | .grant r => grantPermit n r s

theorem startRequest_eq : startRequest n number version s = answerStart n s (judgeStart s n number version) := by
  rw [startRequest]
  cases judgeStart s n number version <;> rfl

/-- Settles O49. -/
theorem startRequestIsJudged : Obligations.StartRequestIsJudged := by
  intro s f rest h hs n u o number version refuse grant fresh granted
  refine ⟨fun free => ?_, ?_, fun t k i v => ⟨linkTickets_eq i k t, addRef_eq k v t⟩, (hears_startRequest h).trans (congrArg _ ?_)⟩
  · rw [permitNumber_eq]
    refine freeNumber_first (k := 0) (by decide) (by decide) (fun j hj => absurd hj (Nat.not_lt_zero j)) (decide_eq_false ?_)
    intro used
    obtain ⟨m, hm, p, hp, e⟩ := mem_permitNumbers.1 used
    exact free m hm p hp e
  · intro following used
    obtain ⟨k, hk, issued, unused, tried⟩ := permitNumber_tried s
    have steps : ∀ j ≤ k, following^[j] s.permitCounter = numberTried s.permitCounter j := fun j hj =>
      numberTried_iterate _ _ (by omega)
    exact ⟨k, hk, issued.trans (steps k le_rfl).symm, fun j => unused (mem_permitNumbers.2 j), fun j hj =>
      (steps j hj.le).symm ▸ mem_permitNumbers.1 (tried j hj)⟩
  · have oven := afterHearing_oven (s := s) (rest := rest) h.slot
    have verdict : judgeStart u n number version = judgeStart s n number version := by
      unfold judgeStart
      rw [oven]
      rfl
    have locks : (u.oven n).locks = o.locks := by rw [oven]
    have refused : ∀ reason : PermitReason, placeFor .permitUnit n (.permitRefused reason.code (u.oven n).locks) u =
        refuse reason.code := fun reason => by
      rw [locks]
      exact placeFor_eq_deliver (s := u) hs _ _ _
    have again : ∀ p, placeGrant n p u = grant p u := fun p => by
      rw [placeGrant_eq (s := u) hs, locks]
    have grants : ∀ r, s.recipe number version = some r → grantPermit n r u = granted r := fun r hr => by
      rw [grantPermit_eq (s := u) hs hr, locks, oven]
      rfl
    have later : answerStart n u (judgeCook s n number version) = (match s.permit n with
        | some p =>
          if p.stopping = false ∧ p.recipe = number ∧ p.version = version ∧ p.summaries = [] then grant p u else refuse 7
        | none => match s.recipe number version with
          | none => refuse 8
          | some r =>
            if r.state = .withdrawing ∧ r.superseded = false then refuse 10
            else match (s.entry n number version).map Entry.state with
              | some .loaded => granted r
              | some .stale => granted r
              | some .unloading => refuse (if r.state = .withdrawing then 9 else 8)
              | _ => refuse 8) := by
      unfold judgeCook
      cases s.permit n with
      | some p =>
        simp only [repeats_iff]
        split_ifs
        · exact again p
        · exact refused _
      | none =>
        unfold recipeCheck
        cases hr : s.recipe number version with
        | none => exact refused _
        | some r =>
          by_cases hw : r.state = .withdrawing ∧ r.superseded = false
          · simp only [if_pos hw]
            exact refused _
          · simp only [if_neg hw]
            cases (s.entry n number version).map Entry.state with
            | none => exact refused _
            | some st =>
              cases st with
              | loaded => exact grants r hr
              | stale => exact grants r hr
              | pending => exact refused _
              | offered => exact refused _
              | sending => exact refused _
              | failed => exact refused _
              | unloading =>
                dsimp only
                split_ifs
                · exact refused .superseded
                · exact refused .notLoaded
    show startRequest n number version u = _
    rw [startRequest_eq, verdict]
    unfold judgeStart
    simp only [isEmpty_iff]
    split_ifs with h0 h1 h2
    · exact refused _
    · exact refused _
    · exact refused _
    · show answerStart n u (match (o.hygiene.map Hygiene.state).bind CleaningState.bars with | some _ => _ | none => _) = _
      cases o.hygiene.map Hygiene.state with
      | none => exact later
      | some c =>
        cases c with
        | ok => exact later
        | advised => exact later
        | due => exact refused .cleanRequired
        | residue => exact refused .residue
        | cleaning => exact refused .cleaning

end Sys2Proof.Machine
end

section
/-! PROOF. Loaded sets (chapter 04): one entry of a set changed, a transfer ended, an entry offered, unloaded and removed. -/

namespace Sys2Proof.Machine

set_option Elab.async false

variable {s t : State} {n k : Nat} {e e' : Entry} {r : Recipe} {l : List Entry}

/-! ### A loaded set written -/

theorem setLoaded_setLoaded (l m : List Entry) : (s.setLoaded n l).setLoaded n m = s.setLoaded n m := by
  simp only [State.setLoaded, vset_vset]

theorem raise_setLoaded (c : NoticeKind) (i : Nat) (d : List Byte) (l : List Entry) :
    raise c i d (s.setLoaded n l) = (raise c i d s).setLoaded n l := by
  rw [State.setLoaded, State.setLoaded, raise_loaded, raise_keeps_loaded]

theorem raise_setDistSlot (c : NoticeKind) (i : Nat) (d : List Byte) (b : Option DistSlot) :
    raise c i d (s.setDistSlot k b) = (raise c i d s).setDistSlot k b := by
  rw [State.setDistSlot, State.setDistSlot, raise_slots, raise_keeps_slots]

theorem deliver_setDistSlot (f : OutFrame) (b : Option DistSlot) :
    deliver f (s.setDistSlot k b) = (deliver f s).setDistSlot k b := by
  rw [State.setDistSlot, State.setDistSlot, deliver_slots, deliver_keeps_slots]

@[simp] theorem setDistSlot_setDistSlot (a b : Option DistSlot) : (s.setDistSlot k a).setDistSlot k b = s.setDistSlot k b := by
  simp only [State.setDistSlot, vset_vset]

theorem slot_of_entry (h : e ∈ s.loadedOf n) : isSlot n := by
  by_contra k
  rw [State.loadedOf_outside _ _ k] at h
  cases h

/-! ### One entry of a set (R68) -/

section
variable (h : s.Holds n e)
include h

theorem State.Holds.slot : isSlot n := slot_of_entry h.mem

theorem State.Holds.same {x : Entry} (hx : x ∈ s.loadedOf n) (hn : x.number = e.number) (hv : x.version = e.version) : x = e :=
  List.inj_on_of_nodup_map h.once hx h.mem (Prod.ext hn hv)

theorem State.Holds.is_iff {x : Entry} (hx : x ∈ s.loadedOf n) : x.is e.number e.version = true ↔ x = e := by
  rw [Entry.is, Bool.and_eq_true, decide_eq_true_eq, decide_eq_true_eq]
  exact ⟨fun k => h.same hx k.1 k.2, fun k => k ▸ ⟨rfl, rfl⟩⟩

theorem State.Holds.entry : s.entry n e.number e.version = some e := by
  rw [State.entry, List.find?_eq_some_iff_getElem]
  obtain ⟨i, hi, own⟩ := List.getElem_of_mem h.mem
  refine ⟨(h.is_iff h.mem).2 rfl, i, hi, own, fun j hj => ?_⟩
  rw [Bool.not_eq_true', ← Bool.not_eq_true, h.is_iff (List.getElem_mem _)]
  intro k
  have twice := (List.nodup_iff_injective_get.1 h.once.of_map) (a₁ := ⟨j, hj.trans hi⟩) (a₂ := ⟨i, hi⟩) (k.trans own.symm)
  exact hj.ne (Fin.mk.inj_iff.1 twice)

/-- The entry of a number and version is the one that is changed. -/
theorem State.Holds.modEntry (g : Entry → Entry) : s.modEntry n e.number e.version g = s.withEntry n e (g e) := by
  refine congrArg (s.setLoaded n) (List.map_congr_left fun x hx => ?_)
  by_cases k : x = e
  · rw [if_pos k, if_pos ((h.is_iff hx).2 k), k]
  · rw [if_neg k, if_neg fun j => k ((h.is_iff hx).1 j)]

theorem State.Holds.transferEntry (ht : e.state.inTransfer = true) : s.transferEntry n = some e := by
  cases found : s.transferEntry n with
  | none => exact absurd ht (List.find?_eq_none.1 found e h.mem)
  | some x =>
    have moving : x.state.inTransfer = true := by simpa using List.find?_some found
    rw [h.alone x (List.mem_of_find?_eq_some found) moving]

theorem withEntry_loadedOf (e' : Entry) :
    (s.withEntry n e e').loadedOf n = (s.loadedOf n).map fun x => if x = e then e' else x :=
  State.setLoaded_loadedOf _ _ _ h.slot

/-- The set with one entry changed holds the changed entry. -/
theorem State.Holds.withEntry (hn : e'.number = e.number) (hv : e'.version = e.version) : (s.withEntry n e e').Holds n e' := by
  have read := withEntry_loadedOf h e'
  refine ⟨?_, ?_, fun x hx ht => ?_⟩
  · rw [read, List.mem_map]
    exact ⟨e, h.mem, if_pos rfl⟩
  · have keys : ((s.loadedOf n).map fun x => if x = e then e' else x).map (fun x => (x.number, x.version)) =
        (s.loadedOf n).map fun x => (x.number, x.version) := by
      rw [List.map_map]
      refine List.map_congr_left fun x _ => ?_
      by_cases k : x = e
      · simp only [Function.comp, k, if_pos, hn, hv]
      · simp only [Function.comp, if_neg k]
    rw [read, keys]
    exact h.once
  · rw [read, List.mem_map] at hx
    obtain ⟨y, hy, rfl⟩ := hx
    by_cases k : y = e
    · rw [if_pos k]
    · rw [if_neg k] at ht
      exact absurd (h.alone y hy ht) k

theorem withEntry_withEntry (e'' : Entry) (hn : e'.number = e.number) (hv : e'.version = e.version) :
    (s.withEntry n e e').withEntry n e' e'' = s.withEntry n e e'' := by
  show State.setLoaded (s.setLoaded n _) n _ = _
  rw [withEntry_loadedOf h, setLoaded_setLoaded, List.map_map]
  refine congrArg (s.setLoaded n) (List.map_congr_left fun x hx => ?_)
  by_cases k : x = e
  · simp only [Function.comp, if_pos k, if_true]
  · have other : x ≠ e' := fun j => k (h.same hx (j ▸ hn) (j ▸ hv))
    simp only [Function.comp, if_neg k, if_neg other]

end

/-- The sets a state holds are those of another state with the same sets. -/
theorem State.Holds.congr (h : s.Holds n e) (hl : t.loaded = s.loaded) : t.Holds n e := by
  have same : t.loadedOf n = s.loadedOf n := congrArg (fun v => vget v n []) hl
  exact ⟨same ▸ h.mem, same ▸ h.once, same ▸ h.alone⟩

/-! ### A transfer ended (R80) -/

theorem freed_of (hb : s.boundSlot n = some k) : s.freed n = (s.withoutSegments k).setDistSlot k none := by
  rw [State.freed, hb]

theorem endTransfer_of (s : State) (n : Nat) : endTransfer n s = (s.freed n).setLoaded n
    ((s.loadedOf n).map fun e => if e.state.inTransfer then { e with deadline := none } else e) := by
  have sets : (s.freed n).loadedOf n = s.loadedOf n := by
    unfold State.freed
    cases s.boundSlot n <;> rfl
  rw [← sets]
  unfold endTransfer State.freed
  cases s.boundSlot n <;> rfl

/-- R80: of a set with one entry in transfer the transfer ends. -/
theorem endTransfer_eq (h : s.Holds n e) (ht : e.state.inTransfer = true) :
    endTransfer n s = (s.freed n).withEntry n e { e with deadline := none } := by
  have sets : (s.freed n).loadedOf n = s.loadedOf n := by
    unfold State.freed
    cases s.boundSlot n <;> rfl
  rw [endTransfer_of, State.withEntry, sets]
  refine congrArg (State.setLoaded _ n) (List.map_congr_left fun x hx => ?_)
  by_cases k : x = e
  · rw [if_pos k, k, if_pos ht]
  · rw [if_neg k, if_neg fun j => k (h.alone x hx j)]

theorem freed_loaded : (s.freed n).loaded = s.loaded := by
  unfold State.freed
  cases s.boundSlot n <;> rfl

/-- R80: the transfer ends, and its entry takes another state. -/
theorem endTransfer_modEntry (h : s.Holds n e) (ht : e.state.inTransfer = true) (g : Entry → Entry) :
    (endTransfer n s).modEntry n e.number e.version g = (s.freed n).withEntry n e (g { e with deadline := none }) := by
  have held : (s.freed n).Holds n e := h.congr freed_loaded
  rw [endTransfer_eq h ht]
  rw [(held.withEntry (e' := { e with deadline := none }) rfl rfl).modEntry g,
    withEntry_withEntry (e' := { e with deadline := none }) held _ rfl rfl]

/-! ### An offer (R78) -/

/-- R74, R78: the entry as an offer leaves it. -/
def Entry.offeredOf (e : Entry) (s : State) (o : Oven) (r : Recipe) : Entry := { e with
  crc := some (contentCrc o r), clamped := r.steps.any (stepClamped o), state := .offered
  deadline := some (.reply, min 4294967295 (s.clock + 5)) }

/-- R195: CLAMPED noticed where it is new. -/
def clampNoticed (n : Nat) (e : Entry) (r : Recipe) (s : State) : State :=
  if r.steps.any (stepClamped (s.oven n)) = true ∧ e.clamped = false then
    raise .recipeEntry n (le 2 e.number ++ le 1 e.version ++ le 1 0) s
  else s

theorem clampNoticed_settled (h : s.Settled) : (clampNoticed n e r s).Settled := by
  unfold clampNoticed
  split_ifs
  · exact raise_settled _ _ _ h
  · exact h

theorem clampNoticed_clock : (clampNoticed n e r s).clock = s.clock := by
  unfold clampNoticed
  split_ifs
  · exact raise_clock _ _ _ _
  · rfl

theorem clampNoticed_loaded : (clampNoticed n e r s).loaded = s.loaded := by
  unfold clampNoticed
  split_ifs
  · exact raise_keeps_loaded _ _ _ _
  · rfl

theorem clampNoticed_setLoaded (l : List Entry) : clampNoticed n e r (s.setLoaded n l) = (clampNoticed n e r s).setLoaded n l := by
  unfold clampNoticed
  by_cases k : r.steps.any (stepClamped (s.oven n)) = true ∧ e.clamped = false
  · exact (if_pos k).trans ((raise_setLoaded _ _ _ _).trans (congrArg (fun t => State.setLoaded t n l) (if_pos k).symm))
  · exact (if_neg k).trans (congrArg (fun t => State.setLoaded t n l) (if_neg k).symm)

/-- R78: the entry is offered in a distribution slot. -/
theorem offer_eq (h : s.Holds n e) (hs : s.Settled) (hr : s.recipe e.number e.version = some r) :
    offer n e.number e.version k s = State.setDistSlot (State.withEntry (deliver (ovenFrame .distribution n
        (.offer e.number e.version r.steps.length (contentCrc (s.oven n) r))) (clampNoticed n e r s)) n e
        (e.offeredOf s (s.oven n) r))
      k (some { oven := n, number := e.number, version := e.version, next := 0, total := transferTotal r }) := by
  let u := clampNoticed n e r s
  let f := ovenFrame .distribution n (.offer e.number e.version r.steps.length (contentCrc (s.oven n) r))
  have noticed : (if r.steps.any (stepClamped (s.oven n)) && !e.clamped then raiseRecipeEntry n e.number e.version 0 s else s) = u := by
    show _ = clampNoticed n e r s
    simp only [Bool.and_eq_true, Bool.not_eq_true', raiseRecipeEntry, clampNoticed]
  have held : u.Holds n e := h.congr clampNoticed_loaded
  have clock : u.after Config.distributionSeconds = min 4294967295 (s.clock + 5) :=
    congrArg (fun c => min 4294967295 (c + 5)) clampNoticed_clock
  have offered : ({ e with
      crc := some (contentCrc (s.oven n) r), clamped := r.steps.any (stepClamped (s.oven n)), state := .offered
      deadline := some (.reply, u.after Config.distributionSeconds) } : Entry) = e.offeredOf s (s.oven n) r := by
    rw [clock]
    rfl
  rw [offer, hr, h.entry]
  dsimp only
  rw [noticed, held.modEntry, offered]
  refine (placeFor_eq_deliver (s := State.setDistSlot (u.withEntry n e _) k _) (clampNoticed_settled hs) _ _ _).trans ?_
  rw [deliver_setDistSlot, deliver_setLoaded]
  have sets : (deliver f u).loadedOf n = u.loadedOf n := congrArg (fun v => vget v n []) (deliver_keeps_loaded _ _)
  show _ = State.setDistSlot (State.setLoaded (deliver f u) n ((State.loadedOf (deliver f u) n).map _)) k _
  rw [sets]

/-! ### Unloading (R72, R73) -/

theorem sendUnload_eq (h : s.Holds n e) (hs : s.Settled) : sendUnload n e.number e.version s =
    State.withEntry (deliver (ovenFrame .distribution n (.unload e.number e.version)) s) n e
      { e with sends := 1, deadline := some (.unload, min 4294967295 (s.clock + 5)) } := by
  let u := deliver (ovenFrame .distribution n (.unload e.number e.version)) s
  have told : placeFor .distribution n (.unload e.number e.version) s = u := placeFor_eq_deliver hs _ _ _
  have held : u.Holds n e := h.congr (deliver_keeps_loaded _ _)
  have clock : u.after Config.distributionSeconds = min 4294967295 (s.clock + 5) :=
    congrArg (fun c => min 4294967295 (c + 5)) (deliver_clock _ _)
  rw [sendUnload, told, clock]
  exact held.modEntry _

/-- R73: the entry becomes UNLOADING and its unload begins. -/
theorem beginUnload_eq (h : s.Holds n e) (hs : s.Settled) : beginUnload n e.number e.version s =
    State.withEntry (deliver (ovenFrame .distribution n (.unload e.number e.version)) s) n e { e with
      state := .unloading, deferred := false, sends := 1, deadline := some (.unload, min 4294967295 (s.clock + 5)) } := by
  let e' : Entry := { e with state := .unloading, deferred := false }
  let f := ovenFrame .distribution n (.unload e.number e.version)
  have held : (s.withEntry n e e').Holds n e' := h.withEntry rfl rfl
  have sent := sendUnload_eq (s := s.withEntry n e e') (e := e') held hs
  rw [beginUnload, h.modEntry]
  refine sent.trans ?_
  have sets : (deliver f s).loadedOf n = s.loadedOf n := congrArg (fun v => vget v n []) (deliver_keeps_loaded _ _)
  have pushed : deliver f (s.withEntry n e e') = (deliver f s).withEntry n e e' := by
    show deliver f (s.setLoaded n _) = _
    rw [deliver_setLoaded, ← sets]
  show State.withEntry (deliver f (s.withEntry n e e')) n e' _ = _
  rw [pushed, withEntry_withEntry (e' := e') (h.congr (t := deliver f s) (deliver_keeps_loaded _ _)) _ rfl rfl]
  rfl

theorem permitNames_iff (number version : Nat) :
    s.permitNames n number version = true ↔ ∃ p ∈ s.permit n, p.recipe = number ∧ p.version = version := by
  unfold State.permitNames
  cases s.permit n <;> simp

/-- R72: an entry goes to UNLOADING, or waits behind the open permit that names it. -/
theorem toUnloading_eq (h : s.Holds n e) (hs : s.Settled) : toUnloading n e.number e.version s =
    if ∃ p ∈ s.permit n, p.recipe = e.number ∧ p.version = e.version then s.withEntry n e { e with deferred := true }
    else State.withEntry (deliver (ovenFrame .distribution n (.unload e.number e.version)) s) n e { e with
      state := .unloading, deferred := false, sends := 1, deadline := some (.unload, min 4294967295 (s.clock + 5)) } := by
  rw [toUnloading, h.modEntry, beginUnload_eq h hs]
  simp only [permitNames_iff]

end Sys2Proof.Machine
end

section
/-! PROOF. The transfers of the Distribution Engine (R72, R73, R77 to R80): the replies of an oven and the deadlines. -/

namespace Sys2Proof.Machine

set_option Elab.async false

variable {s t : State} {n k : Nat} {e e' : Entry} {r : Recipe} {f : InFrame} {rest : List InFrame}

/-! ### Where nothing is offered (R77) -/

/-- R77: an entry the slot choice could offer. -/
def Entry.Waits (e : Entry) : Prop := e.state = .pending ∧ e.noRoom = false

theorem oldestPending_none : s.oldestPending n = none ↔ ∀ x ∈ s.loadedOf n, ¬ x.Waits := by
  simp only [State.oldestPending, List.find?_eq_none, Bool.and_eq_true, decide_eq_true_eq, Bool.not_eq_true', Entry.Waits]

theorem State.NoOffers.congr (h : s.NoOffers) (hl : t.loaded = s.loaded) : t.NoOffers := fun n => by
  have same : t.loadedOf n = s.loadedOf n := congrArg (fun v => vget v n []) hl
  rw [oldestPending_none, same]
  exact oldestPending_none.1 (h n)

theorem setLoaded_noOffers {l : List Entry} (h : ∀ m ≠ n, s.oldestPending m = none) (hl : ∀ x ∈ l, ¬ x.Waits) :
    (s.setLoaded n l).NoOffers := fun m => by
  rw [oldestPending_none]
  intro x hx
  by_cases e : m = n
  · subst e
    have slot := slot_of_entry hx
    rw [State.setLoaded_loadedOf _ _ _ slot] at hx
    exact hl x hx
  · rw [State.setLoaded_loadedOf_ne _ _ _ _ e] at hx
    exact oldestPending_none.1 (h m e) x hx

theorem State.NoOffers.setLoaded (h : s.NoOffers) {l : List Entry} (hl : ∀ x ∈ l, ¬ x.Waits) : (s.setLoaded n l).NoOffers :=
  setLoaded_noOffers (fun m _ => h m) hl

theorem State.NoOffers.withEntry (h : s.NoOffers) (he : ¬ e'.Waits) : (s.withEntry n e e').NoOffers := h.setLoaded fun x hx => by
  obtain ⟨y, hy, rfl⟩ := List.mem_map.1 hx
  by_cases j : y = e
  · rw [if_pos j]
    exact he
  · rw [if_neg j]
    exact oldestPending_none.1 (h n) y hy

/-! ### An entry removed (R62, R70, R73) -/

theorem wants_refs (o : Oven) (r : Recipe) (i : Nat) : wants o { r with refs := i } = wants o r := rfl

theorem NoWants_dropRef (h : s.NoWants n) (number version : Nat) : (dropRef number version s).NoWants n := by
  intro r hr
  have kept := (List.mem_filter.1 hr).1
  obtain ⟨x, hx, rfl⟩ := List.mem_map.1 kept
  split_ifs
  · exact h x hx
  · exact h x hx

/-- R69, R70: a recompute of an oven that wants nothing and holds nothing finds nothing. -/
theorem recompute_empty (h : s.NoWants n) (hl : s.loadedOf n = []) : recompute n s = s := by
  have none : s.wanted n = [] := List.filter_eq_nil_iff.2 fun r hr => by rw [h r hr]; decide
  have append : appendWanted n s = s := by rw [appendWanted, none, List.foldl_nil]
  rw [recompute, append, hl, List.foldl_nil, hl]
  exact if_neg (Nat.lt_irrefl 0)

/-- R62: the one entry of a set is removed. -/
theorem removeEntry_sole (hl : s.loadedOf n = [e]) :
    removeEntry n e.number e.version s = dropRef e.number e.version (s.setLoaded n []) := by
  have slot : isSlot n := slot_of_entry (hl ▸ List.mem_singleton_self e)
  have own : e.is e.number e.version = true := by simp [Entry.is]
  have gone : (s.loadedOf n).filter (fun x => !x.is e.number e.version) = [] := by
    rw [hl, List.filter_cons_of_neg (by rw [own]; decide), List.filter_nil]
  rw [removeEntry, gone, clearNoRoom, State.setLoaded_loadedOf _ _ _ slot, List.map_nil, setLoaded_setLoaded]

/-- R73: the one entry of a set, UNLOADING, is removed. -/
theorem unloaded_sole (hl : s.loadedOf n = [e]) (ho : s.NoOffers) (hw : s.NoWants n) :
    unloaded n e.number e.version s = dropRef e.number e.version (s.setLoaded n []) := by
  have slot : isSlot n := slot_of_entry (hl ▸ List.mem_singleton_self e)
  rw [unloaded, removeEntry_sole hl, recomputeOne, recompute_empty]
  · exact slotChoice_noOffers (State.NoOffers.congr (s := s.setLoaded n []) (ho.setLoaded fun x hx => absurd hx List.not_mem_nil) rfl)
  · exact NoWants_dropRef (s := s.setLoaded n []) hw _ _
  · exact State.setLoaded_loadedOf s n [] slot

/-! ### A try fails (R80) -/

theorem withEntry_congr_loaded (hl : t.loaded = s.loaded) (e e' : Entry) :
    t.withEntry n e e' = t.setLoaded n ((s.loadedOf n).map fun x => if x = e then e' else x) :=
  congrArg (fun v => State.setLoaded t n ((vget v n []).map fun x => if x = e then e' else x)) hl

/-- R78: an entry that has changed, its number and version apart, is offered. -/
theorem offer_withEntry (h : s.Holds n e) (hs : s.Settled) (hr : s.recipe e.number e.version = some r)
    (hn : e'.number = e.number) (hv : e'.version = e.version) :
    offer n e.number e.version k (s.withEntry n e e') = State.setDistSlot (State.withEntry (deliver (ovenFrame .distribution n
        (.offer e.number e.version r.steps.length (contentCrc (s.oven n) r))) (clampNoticed n e' r s)) n e
        (e'.offeredOf s (s.oven n) r))
      k (some { oven := n, number := e.number, version := e.version, next := 0, total := transferTotal r }) := by
  let f := ovenFrame .distribution n (.offer e.number e.version r.steps.length (contentCrc (s.oven n) r))
  let u := deliver f (clampNoticed n e' r s)
  have held : u.Holds n e := h.congr ((deliver_keeps_loaded _ _).trans clampNoticed_loaded)
  have go := offer_eq (k := k) (s := s.withEntry n e e') (e := e') (h.withEntry hn hv) hs (by rw [hn, hv]; exact hr)
  rw [hn, hv] at go
  refine go.trans ?_
  have pushed : deliver f (clampNoticed n e' r (s.withEntry n e e')) = u.withEntry n e e' := by
    rw [withEntry_congr_loaded ((deliver_keeps_loaded _ _).trans clampNoticed_loaded)]
    show deliver f (clampNoticed n e' r (s.setLoaded n _)) = _
    rw [clampNoticed_setLoaded, deliver_setLoaded]
  show State.setDistSlot (State.withEntry (deliver f (clampNoticed n e' r (s.withEntry n e e'))) n e' _) k _ = _
  rw [pushed, withEntry_withEntry (e' := e') held _ hn hv]
  rfl

theorem failedTry_of (h : s.Holds n e) (ht : e.state.inTransfer = true) (hb : s.boundSlot n = some k) : failedTry n s =
    if e.retries < 2 then loadRetried n e.number e.version k s else loadFailed n e.number e.version s := by
  rw [failedTry, h.transferEntry ht, hb]

/-- R80: the third failed try. -/
theorem loadFailed_eq (h : s.Holds n e) (ht : e.state.inTransfer = true) : loadFailed n e.number e.version s =
    slotChoice (raise .recipeEntry n (le 2 e.number ++ le 1 e.version ++ le 1 1) (routeFault n 0xFF02 .part
      ((s.freed n).withEntry n e { e with state := .failed, deadline := none }))) := by
  rw [loadFailed, endTransfer_modEntry h ht]
  rfl

/-- R80: the entry is offered again in its slot. -/
theorem loadRetried_eq (h : s.Holds n e) (hs : s.Settled) (hr : s.recipe e.number e.version = some r) :
    loadRetried n e.number e.version k s = State.setDistSlot (State.withEntry (deliver (ovenFrame .distribution n
        (.offer e.number e.version r.steps.length (contentCrc (s.oven n) r))) (clampNoticed n e r (s.withoutSegments k))) n e
        ({ e with retries := e.retries + 1, deadline := none }.offeredOf s (s.oven n) r))
      k (some { oven := n, number := e.number, version := e.version, next := 0, total := transferTotal r }) := by
  have held : (s.withoutSegments k).Holds n e := h.congr rfl
  have settled : (s.withoutSegments k).Settled := Moves.refl.withdrawSegments k |>.settled hs
  rw [loadRetried, held.modEntry]
  exact offer_withEntry (e' := { e with retries := e.retries + 1, deadline := none }) held settled hr rfl rfl

/-! ### The deadlines of a transfer and of an unload (R73, R78, R79) -/

theorem transferTimer_of {kind : EntryTimer} {i : Nat} (h : s.Holds n e) (ht : e.state.inTransfer = true)
    (hd : e.deadline = some (kind, i)) : s.transferTimer n kind = some i := by
  rw [State.transferTimer, h.transferEntry ht, Option.bind_some, Entry.timerAt, hd]
  exact if_pos rfl

theorem unloadExpiry_due {i : Nat} (h : s.Holds n e) (hu : e.state = .unloading) (hd : e.deadline = some (.unload, i))
    (hi : i ≤ s.clock) : unloadExpiry n e.number e.version s =
      if e.sends < 3 then unloadAgain n e.number e.version s else unloaded n e.number e.version s := by
  have due : s.due (e.timerAt .unload) = true := by
    rw [Entry.timerAt, hd]
    exact due_some hi
  rw [unloadExpiry, h.entry]
  exact if_pos ⟨hu, due⟩

theorem unloadAgain_eq (h : s.Holds n e) (hs : s.Settled) : unloadAgain n e.number e.version s =
    State.withEntry (deliver (ovenFrame .distribution n (.unload e.number e.version)) s) n e
      { e with sends := e.sends + 1, deadline := some (.unload, min 4294967295 (s.clock + 5)) } := by
  let u := deliver (ovenFrame .distribution n (.unload e.number e.version)) s
  have told : placeFor .distribution n (.unload e.number e.version) s = u := placeFor_eq_deliver hs _ _ _
  have held : u.Holds n e := h.congr (deliver_keeps_loaded _ _)
  have clock : u.after Config.distributionSeconds = min 4294967295 (s.clock + 5) :=
    congrArg (fun c => min 4294967295 (c + 5)) (deliver_clock _ _)
  rw [unloadAgain, told, clock]
  exact held.modEntry _

/-- Settles O48. -/
theorem distributionDeadlines : Obligations.DistributionDeadlines := by
  intro s n t e hl hs hn h ht
  refine ⟨fun hst hd => ?_, fun hst hd => ?_, fun k hi hb hr => ?_, fun k r hi hb hr hrec => ?_, fun hst hd hsend => ?_,
    fun hst hd hsend sole ho hw => ?_⟩
  · refine congrArg Host.Outcome.next ((event_moves (f := offerReplyExpiry n) hl (Moves.refl.offerReplyExpiry n)).trans ?_)
    rw [offerReplyExpiry, transferTimer_of h (by rw [hst]; rfl) hd]
    exact if_pos (due_some ht)
  · refine congrArg Host.Outcome.next ((event_moves (f := progressExpiry n) hl (Moves.refl.progressExpiry n)).trans ?_)
    rw [progressExpiry, transferTimer_of h (by rw [hst]; rfl) hd]
    exact if_pos (due_some ht)
  · rw [failedTry_of h hi hb, if_neg (Nat.not_lt.2 hr), loadFailed_eq h hi, freed_of hb]
  · intro clamp w noticed
    rw [failedTry_of h hi hb, if_pos hr, loadRetried_eq h hs hrec]
    rfl
  · refine congrArg Host.Outcome.next ((event_moves (f := unloadExpiry n e.number e.version) hl
      (Moves.refl.unloadExpiry n e.number e.version)).trans ?_)
    rw [unloadExpiry_due h hst hd ht, if_pos hsend, unloadAgain_eq h hs]
  · refine congrArg Host.Outcome.next ((event_moves (f := unloadExpiry n e.number e.version) hl
      (Moves.refl.unloadExpiry n e.number e.version)).trans ?_)
    rw [unloadExpiry_due h hst hd ht, if_neg (Nat.not_lt.2 hsend), unloaded_sole sole ho hw]

end Sys2Proof.Machine
end

section
/-! PROOF. The replies of an oven to its transfers (O47): PULL, HAVE, DECLINE, LOAD_DONE and UNLOAD_DONE. -/

namespace Sys2Proof.Machine

set_option Elab.async false

variable {s t : State} {n k : Nat} {e e' : Entry} {r : Recipe} {f : InFrame} {rest : List InFrame}

/-! ### The entry a reply names (R78, R79) -/

/-- The entry is the one a payload names. -/
def Entry.Named (x : Entry) (data : List Byte) : Prop := x.number = numAt data 0 2 ∧ x.version = numAt data 2 1

theorem namedEntry_some {st : EntryState} {data : List Byte} (h : s.Holds n e) (hd : e.Named data) (hs : e.state = st) :
    s.namedEntry n st data = some e := by
  rw [State.namedEntry, ← hd.1, ← hd.2, h.entry]
  exact if_pos hs

theorem namedEntry_none {st : EntryState} {data : List Byte} (h : ∀ x ∈ s.loadedOf n, x.Named data → x.state ≠ st) :
    s.namedEntry n st data = none := by
  rw [State.namedEntry]
  cases he : s.entry n (numAt data 0 2) (numAt data 2 1) with
  | none => rfl
  | some x =>
    have named : x.is (numAt data 0 2) (numAt data 2 1) = true := by simpa using List.find?_some he
    rw [Entry.is, Bool.and_eq_true, decide_eq_true_eq, decide_eq_true_eq] at named
    exact if_neg (h x (List.mem_of_find?_eq_some he) named)

theorem hears_pull (h : s.Hears .pull f rest) : exec .pull s = .next (pullFrame f.source f (s.afterHearing f rest)) :=
  congrArg Host.Outcome.next (event_heard (block := pullFrame) h (Moves.refl.pullFrame _ _))

theorem hears_have (h : s.Hears .have_ f rest) : exec .have_ s = .next (haveFrame f.source f (s.afterHearing f rest)) :=
  congrArg Host.Outcome.next (event_heard (block := haveFrame) h (Moves.refl.haveFrame _ _))

theorem hears_decline (h : s.Hears .decline f rest) : exec .decline s = .next (declineFrame f.source f (s.afterHearing f rest)) :=
  congrArg Host.Outcome.next (event_heard (block := declineFrame) h (Moves.refl.declineFrame _ _))

theorem hears_loadDone (h : s.Hears .loadDone f rest) :
    exec .loadDone s = .next (loadDoneFrame f.source f (s.afterHearing f rest)) :=
  congrArg Host.Outcome.next (event_heard (block := loadDoneFrame) h (Moves.refl.loadDoneFrame _ _))

theorem hears_unloadDone (h : s.Hears .unloadDone f rest) :
    exec .unloadDone s = .next (unloadDoneFrame f.source f (s.afterHearing f rest)) :=
  congrArg Host.Outcome.next (event_heard (block := unloadDoneFrame) h (Moves.refl.unloadDoneFrame _ _))

/-! ### An entry becomes LOADED (R72, R78, R79) -/

/-- R72: no older STALE entry stands: none goes to UNLOADING. -/
theorem unloadOlder_none {number version : Nat} (h : ∀ x ∈ s.loadedOf n, x.number = number → x.state ≠ .stale) :
    unloadOlder n number version s = s := by
  have none : (s.loadedOf n).filter (fun e => e.number = number && e.state = .stale && e.version < version) = [] := by
    refine List.filter_eq_nil_iff.2 fun x hx j => ?_
    rw [Bool.and_eq_true, Bool.and_eq_true, decide_eq_true_eq, decide_eq_true_eq] at j
    exact h x hx j.1.1 j.1.2
  rw [unloadOlder, none, List.foldl_nil]

theorem filter_sole {α : Type} {p : α → Bool} {l : List α} {x : α} (nd : l.Nodup) (hx : x ∈ l) (px : p x = true)
    (only : ∀ y ∈ l, p y = true → y = x) : l.filter p = [x] := by
  refine List.perm_singleton.1 ((List.perm_ext_iff_of_nodup (nd.filter p) (List.nodup_singleton x)).2 fun y => ?_)
  rw [List.mem_filter, List.mem_singleton]
  exact ⟨fun j => only y j.1 j.2, fun j => j ▸ ⟨hx, px⟩⟩

/-- R72: the one older STALE entry goes to UNLOADING. -/
theorem unloadOlder_one {x : Entry} {number version : Nat} (h : s.Holds n x) (hs : x.state = .stale) (hn : x.number = number)
    (hv : x.version < version) (only : ∀ y ∈ s.loadedOf n, y.number = number → y.state = .stale → y = x) :
    unloadOlder n number version s = toUnloading n x.number x.version s := by
  have one : (s.loadedOf n).filter (fun e => e.number = number && e.state = .stale && e.version < version) = [x] := by
    refine filter_sole h.once.of_map h.mem (by simp [hs, hn, hv]) fun y hy j => ?_
    rw [Bool.and_eq_true, Bool.and_eq_true, decide_eq_true_eq, decide_eq_true_eq] at j
    exact only y hy j.1.1 j.1.2
  rw [unloadOlder, one, List.foldl_cons, List.foldl_nil]

/-- Beside an entry that is LOADED now, the other entries of the set are as they were. -/
theorem State.Holds.other {x : Entry} (h : s.Holds n e) (hx : x ∈ s.loadedOf n) (hne : x ≠ e) (hn : e'.number = e.number)
    (hv : e'.version = e.version) (he' : e'.state.inTransfer = false) : (s.withEntry n e e').Holds n x := by
  have changed := h.withEntry hn hv
  refine ⟨?_, changed.once, fun y hy hm => ?_⟩
  · rw [withEntry_loadedOf h, List.mem_map]
    exact ⟨x, hx, if_neg hne⟩
  · rw [changed.alone y hy hm, he'] at hm
    cases hm

section
variable (h : s.Holds n e) (ht : e.state.inTransfer = true)
include h ht

/-- R78, R79: the entry becomes LOADED and its slot is freed. -/
theorem entryLoaded_eq : entryLoaded n e.number e.version s = slotChoice (unloadOlder n e.number e.version
    ((s.freed n).withEntry n e { e with state := .loaded, deadline := none })) := by
  rw [entryLoaded, endTransfer_modEntry h ht]

theorem entryLoaded_plain (ho : s.NoOffers) (older : ∀ x ∈ s.loadedOf n, x.number = e.number → x.state ≠ .stale) :
    entryLoaded n e.number e.version s = (s.freed n).withEntry n e { e with state := .loaded, deadline := none } := by
  have held : (s.freed n).Holds n e := h.congr freed_loaded
  have sets : (s.freed n).loadedOf n = s.loadedOf n := congrArg (fun v => vget v n []) freed_loaded
  rw [entryLoaded_eq h ht, unloadOlder_none]
  · refine slotChoice_noOffers ((ho.congr freed_loaded).withEntry fun w => ?_)
    exact nomatch (w.1 : EntryState.loaded = .pending)
  · intro x hx hn
    rw [withEntry_loadedOf held, sets] at hx
    obtain ⟨y, hy, rfl⟩ := List.mem_map.1 hx
    split_ifs at hn ⊢ with j
    · exact fun k => nomatch (k : EntryState.loaded = .stale)
    · exact older y hy hn

/-- R72: the older STALE entry of the number goes toward UNLOADING. -/
theorem entryLoaded_older {x : Entry} (hs : s.Settled) (ho : s.NoOffers) (hx : x ∈ s.loadedOf n) (hn : x.number = e.number)
    (hv : x.version < e.version) (hst : x.state = .stale)
    (only : ∀ y ∈ s.loadedOf n, y.number = e.number → y.state = .stale → y = x) :
    let w := (s.freed n).withEntry n e { e with state := .loaded, deadline := none }
    entryLoaded n e.number e.version s =
      if ∃ p ∈ s.permit n, p.recipe = x.number ∧ p.version = x.version then w.withEntry n x { x with deferred := true }
      else State.withEntry (deliver (ovenFrame .distribution n (.unload x.number x.version)) w) n x { x with
        state := .unloading, deferred := false, sends := 1, deadline := some (.unload, min 4294967295 (s.clock + 5)) } := by
  intro w
  have held : (s.freed n).Holds n e := h.congr freed_loaded
  have sets : (s.freed n).loadedOf n = s.loadedOf n := congrArg (fun v => vget v n []) freed_loaded
  have other : x ≠ e := fun j => by rw [j] at hv; exact Nat.lt_irrefl _ hv
  have holds : w.Holds n x := held.other (sets.symm ▸ hx) other rfl rfl rfl
  have settled : w.Settled := by
    show (s.freed n).Settled
    unfold State.freed
    cases s.boundSlot n with
    | none => exact hs
    | some k => exact Moves.refl.withdrawSegments k |>.settled hs
  have quiet : w.NoOffers := (ho.congr freed_loaded).withEntry fun j => nomatch (j.1 : EntryState.loaded = .pending)
  have still : w.permit n = s.permit n ∧ w.clock = s.clock := by
    show (s.freed n).permit n = _ ∧ (s.freed n).clock = _
    unfold State.freed
    cases s.boundSlot n <;> exact ⟨rfl, rfl⟩
  have gone := toUnloading_eq holds settled
  rw [still.1, still.2] at gone
  rw [entryLoaded_eq h ht, unloadOlder_one holds hst hn hv, gone]
  · split_ifs
    · exact slotChoice_noOffers (quiet.withEntry fun j => nomatch (hst.symm.trans j.1 : EntryState.stale = .pending))
    · exact slotChoice_noOffers ((quiet.congr (deliver_keeps_loaded _ _)).withEntry fun j =>
        nomatch (j.1 : EntryState.unloading = .pending))
  · intro y hy hyn hys
    rw [withEntry_loadedOf held, sets] at hy
    obtain ⟨z, hz, rfl⟩ := List.mem_map.1 hy
    by_cases j : z = e
    · rw [if_pos j] at hys
      exact nomatch (hys : EntryState.loaded = .stale)
    · rw [if_neg j] at hyn hys ⊢
      exact only z hz hyn hys

end

/-! ### The stream begins (R79) -/

theorem setDistSlot_same {b : DistSlot} (h : s.distSlot k = some b) : s.setDistSlot k (some b) = s := by
  have slot : 1 ≤ k ∧ k ≤ 4 := by
    by_contra out
    rw [State.distSlot, vget_outside _ _ _ out] at h
    cases h
  have : vset s.slots k (some b) = s.slots := by
    rw [← h]
    exact vset_vget s.slots k none slot
  simp [State.setDistSlot, this]

/-- R79: the frames of a transfer placed one after the other, in index order, while there is room for each. -/
theorem fillSegments_add {b : DistSlot} (hb : s.distSlot k = some b) (hr : s.recipe b.number b.version = some r) (fuel : Nat)
    (hn : b.next ≤ b.total) (hq : s.segmentsQueued k + fuel ≤ 8) (room : s.bulk.length + fuel ≤ 32) :
    fillSegments fuel k s = State.setDistSlot { s with
        bulk := s.bulk ++ (List.range (min fuel (b.total - b.next))).map fun i => segmentFrame s k { b with next := b.next + i } r }
      k (some { b with next := b.next + min fuel (b.total - b.next) }) := by
  induction fuel generalizing s b with
  | zero => simp [fillSegments, setDistSlot_same hb]
  | succ fuel ih =>
    have slot : 1 ≤ k ∧ k ≤ 4 := by
      by_contra out
      rw [State.distSlot, vget_outside _ _ _ out] at hb
      cases hb
    by_cases more : b.next < b.total
    · let g := segmentFrame s k b r
      let u : State := State.setDistSlot { s with bulk := s.bulk ++ [g] } k (some { b with next := b.next + 1 })
      have step : fillSegments (fuel + 1) k s = fillSegments fuel k u := by
        rw [fillSegments_succ hb hr, if_pos ⟨more, by omega⟩,
          enqueue_segment (s := s.setDistSlot k _) (segmentFrame_kind s k b r) (by show s.bulk.length < 32; omega)]
        rfl
      have queued : u.segmentsQueued k = s.segmentsQueued k + 1 := by
        show List.countP _ (s.bulk ++ [g]) = _
        rw [List.countP_append]
        simp [g, segmentFrame, State.segmentsQueued]
      have count : min (fuel + 1) (b.total - b.next) = min fuel (b.total - (b.next + 1)) + 1 := by omega
      have long : u.bulk.length = s.bulk.length + 1 := by
        show (s.bulk ++ [g]).length = _
        simp
      rw [step, ih (s := u) (b := { b with next := b.next + 1 }) (State.setDistSlot_distSlot _ _ _ slot) hr (by exact more)
        (by rw [queued]; omega) (by rw [long]; omega), count, List.range_succ_eq_map, List.map_cons, List.map_map]
      have tail : ∀ i, segmentFrame u k { b with next := b.next + 1 + i } r = segmentFrame s k { b with next := b.next + Nat.succ i } r :=
        fun i => by
          rw [show b.next + 1 + i = b.next + Nat.succ i by omega]
          rfl
      simp only [tail]
      show State.setDistSlot (State.setDistSlot { s with bulk := (s.bulk ++ [g]) ++ _ } k _) k _ = _
      rw [setDistSlot_setDistSlot, List.append_assoc, Nat.add_right_comm]
      rfl
    · have none : b.total - b.next = 0 := by omega
      rw [fillSegments_none hb (Nat.le_of_not_lt more), none, Nat.min_zero, List.range_zero, List.map_nil, List.append_nil, Nat.add_zero]
      exact (setDistSlot_same hb).symm

theorem freed_withEntry (h : s.Holds n e) (e'' : Entry) (hn : e'.number = e.number) (hv : e'.version = e.version) :
    ((s.withEntry n e e').freed n).withEntry n e' e'' = (s.freed n).withEntry n e e'' := by
  have held : (s.freed n).Holds n e := h.congr freed_loaded
  have moved : (s.withEntry n e e').freed n = (s.freed n).withEntry n e e' := by
    have bound : (s.withEntry n e e').boundSlot n = s.boundSlot n := rfl
    unfold State.freed
    rw [bound]
    cases s.boundSlot n <;> rfl
  rw [moved, withEntry_withEntry held e'' hn hv]

/-- R79: PULL with the transmitter held places the first frames of the transfer. -/
theorem startStream_held {total : Nat} (h : s.Holds n e) (hr : s.recipe e.number e.version = some r) (hb : s.boundSlot n = some k)
    (hh : s.held = true) (hk : s.distSlot k = some { oven := n, number := e.number, version := e.version, next := 0, total := total })
    (hq : s.segmentsQueued k = 0) (room : s.bulk.length ≤ 24) :
    startStream n e.number e.version s = State.setDistSlot (State.withEntry { s with
        bulk := s.bulk ++ (List.range (min 8 total)).map fun i =>
          { payload := transferFrame (s.oven n) r i, producer := .distribution, mark := .distSlot k, dest := n } } n e
        { e with state := .sending, deadline := none })
      k (some { oven := n, number := e.number, version := e.version, next := min 8 total, total := total }) := by
  let e' : Entry := { e with state := .sending, deadline := none }
  have bound : (s.withEntry n e e').boundSlot n = some k := hb
  have filled := fillSegments_add (s := s.withEntry n e e') (r := r) hk hr 8 (Nat.zero_le _)
    (by show s.segmentsQueued k + 8 ≤ 8; omega) (by show s.bulk.length + 8 ≤ 32; omega)
  simp only [Nat.zero_add, Nat.sub_zero] at filled
  rw [startStream, h.modEntry, bound]
  refine (congrArg kick filled).trans (kick_held ?_)
  exact hh

/-- Settles O47. -/
theorem repliesMoveTheEntry : Obligations.RepliesMoveTheEntry := by
  intro s f rest n u named
  have unnamed : ∀ st, (∀ x ∈ s.loadedOf n, named x → x.state ≠ st) →
      (s.afterHearing f rest).namedEntry f.source st f.data = none := fun st hn => namedEntry_none (s := u) hn
  have finds : ∀ st e, s.Holds n e → named e → e.state = st →
      (s.afterHearing f rest).namedEntry f.source st f.data = some e := fun st e h hd hs => namedEntry_some (s := u) (h.congr rfl) hd hs
  refine ⟨fun hn => ⟨fun h => (hears_pull h).trans (congrArg _ ?_), fun h => (hears_have h).trans (congrArg _ ?_),
      fun h => (hears_decline h).trans (congrArg _ ?_)⟩, fun h hn => (hears_loadDone h).trans (congrArg _ ?_),
    fun h hn => (hears_unloadDone h).trans (congrArg _ ?_), fun e h sole hd hst ho hw => (hears_unloadDone h).trans (congrArg _ ?_),
    fun e k h hd hb => ?_⟩
  · rw [pullFrame, unnamed _ hn]
  · rw [haveFrame, unnamed _ hn]
  · rw [declineFrame, unnamed _ hn]
  · rw [loadDoneFrame, unnamed _ hn]
  · rw [unloadDoneFrame, unnamed _ hn]
  · have holds : s.Holds n e := ⟨sole ▸ List.mem_singleton_self e, by rw [sole]; simp, fun x hx _ => List.mem_singleton.1 (sole ▸ hx)⟩
    rw [unloadDoneFrame, finds _ e holds hd hst]
    exact unloaded_sole (s := u) sole ho fun r hr => by
      rw [afterHearing_oven h.slot]
      exact hw r hr
  · have held : u.Holds n e := h.congr rfl
    have free : u.freed n = (u.withoutSegments k).setDistSlot k none := freed_of (s := u) hb
    have moving : ∀ {st : EntryState}, e.state = st → st.inTransfer = true → e.state.inTransfer = true := fun j m => j ▸ m
    let e0 : Entry := { e with retries := 0 }
    have cleared : (u.withEntry n e e0).Holds n e0 := held.withEntry rfl rfl
    have still0 : e.state = .sending → ¬ e0.Waits := fun hst w => nomatch (hst.symm.trans w.1 : EntryState.sending = .pending)
    have among0 : ∀ x ∈ (u.withEntry n e e0).loadedOf n, x = e0 ∨ (x ∈ s.loadedOf n ∧ x ≠ e) := fun x hx => by
      rw [withEntry_loadedOf held, List.mem_map] at hx
      obtain ⟨y, hy, rfl⟩ := hx
      by_cases j : y = e
      · exact .inl (if_pos j)
      · rw [if_neg j]
        exact .inr ⟨hy, j⟩
    have have_ : s.Hears .have_ f rest → e.state = .offered → exec .have_ s = .next (entryLoaded n e.number e.version u) :=
      fun hh hst => (hears_have hh).trans (congrArg _ (by rw [haveFrame, finds _ e h hd hst]))
    have done : s.Hears .loadDone f rest → e.state = .sending → e.crc = some (numAt f.data 3 2) →
        exec .loadDone s = .next (entryLoaded n e.number e.version (u.withEntry n e e0)) := fun hh hst hc =>
      (hears_loadDone hh).trans (congrArg _ (by
        rw [loadDoneFrame, finds _ e h hd hst]
        exact (if_pos hc).trans (congrArg (entryLoaded n e.number e.version) (held.modEntry _))))
    refine ⟨fun hh hst hc => (hears_loadDone hh).trans (congrArg _ ?_), fun ho older => ?_,
      fun x ho hs hx hn hv hxs only => ?_, fun r total hh hst hr hheld hk hq room => ?_⟩
    · rw [loadDoneFrame, finds _ e h hd hst]
      exact if_neg hc
    · intro done'
      refine ⟨fun hh hst => (have_ hh hst).trans (congrArg _ ?_), fun hh hst => (hears_decline hh).trans (congrArg _ ?_),
        fun hh hst hc => (done hh hst hc).trans (congrArg _ ?_)⟩
      · rw [entryLoaded_plain held (moving hst rfl) ho older, free]
      · rw [declineFrame, finds _ e h hd hst]
        refine (congrArg slotChoice (endTransfer_modEntry held (moving hst rfl) _)).trans ?_
        rw [free]
        refine slotChoice_noOffers (State.NoOffers.withEntry (State.NoOffers.congr ho rfl) fun w => ?_)
        exact nomatch (w.2 : true = false)
      · refine (entryLoaded_plain cleared (moving hst rfl) (State.NoOffers.withEntry (s := u) ho (still0 hst)) fun x hx hxn => ?_).trans ?_
        · obtain rfl | old := among0 x hx
          · exact fun j => nomatch (hst.symm.trans j : EntryState.sending = .stale)
          · exact older x old.1 hxn
        · rw [freed_withEntry (e' := e0) held _ rfl rfl, free]
    · intro done' older
      refine ⟨fun hh hst => (have_ hh hst).trans (congrArg _ ?_), fun hh hst hc => (done hh hst hc).trans (congrArg _ ?_)⟩
      · rw [entryLoaded_older held (moving hst rfl) hs ho hx hn hv hxs only, free]
        rfl
      · have other : x ≠ e := fun j => by rw [j] at hv; exact Nat.lt_irrefl _ hv
        have kept : x ∈ (u.withEntry n e e0).loadedOf n := by
          rw [withEntry_loadedOf held, List.mem_map]
          exact ⟨x, hx, if_neg other⟩
        refine (entryLoaded_older cleared (moving hst rfl) hs (State.NoOffers.withEntry (s := u) ho (still0 hst)) kept hn hv hxs
          fun y hy hyn hys => ?_).trans ?_
        · obtain rfl | old := among0 y hy
          · exact nomatch (hst.symm.trans hys : EntryState.sending = .stale)
          · exact only y old.1 hyn hys
        · rw [freed_withEntry (e' := e0) held _ rfl rfl, free]
          rfl
    · refine (hears_pull hh).trans (congrArg _ ?_)
      rw [pullFrame, finds _ e h hd hst]
      refine (startStream_held (s := u) held hr hb hheld hk hq room).trans ?_
      rw [show u.oven n = _ from afterHearing_oven hh.slot]
      rfl

end Sys2Proof.Machine
end

section
/-! PROOF. The slot choice (R77): who is served and in which slot, and RECIPE_RESEND (R86). -/

namespace Sys2Proof.Machine

set_option Elab.async false

variable {s t : State} {n k : Nat} {e e' : Entry} {r : Recipe}

/-! ### Who qualifies, in turn (R77) -/

/-- R77: an oven qualifies for a slot. -/
def State.Qualifies (s : State) (n : Nat) : Prop := isSlot n ∧ (s.oven n).state = .inService ∧ (s.oven n).present = true ∧
  (s.oven n).locks.update = false ∧ (∀ x ∈ s.loadedOf n, x.state ≠ .offered ∧ x.state ≠ .sending) ∧
  (s.loadedOf n).countP (·.state.counted) < (s.oven n).effectiveCapacity ∧ (s.oldestPending n).isSome = true

theorem inTransfer_iff (st : EntryState) : st.inTransfer = false ↔ st ≠ .offered ∧ st ≠ .sending := by
  cases st <;> decide

theorem transferEntry_none : s.transferEntry n = none ↔ ∀ x ∈ s.loadedOf n, x.state ≠ .offered ∧ x.state ≠ .sending := by
  simp only [State.transferEntry, List.find?_eq_none, ← inTransfer_iff, Bool.not_eq_true]

theorem slot_of_waiting (h : (s.oldestPending n).isSome = true) : isSlot n := by
  obtain ⟨x, hx⟩ := Option.isSome_iff_exists.1 h
  exact slot_of_entry (List.mem_of_find?_eq_some hx)

theorem slotQualifies_iff : s.slotQualifies n = true ↔ s.Qualifies n := by
  simp only [State.slotQualifies, State.Qualifies, Bool.and_eq_true, decide_eq_true_eq, Bool.not_eq_true', Option.isNone_iff_eq_none,
    transferEntry_none, and_assoc]
  exact ⟨fun h => ⟨(slot_of_waiting h.2.2.2.2.2).1, (slot_of_waiting h.2.2.2.2.2).2, h⟩, fun h => h.2.2⟩

theorem mem_roundRobin (h : isSlot n) : n ∈ s.roundRobin := by
  rw [State.roundRobin, List.mem_map]
  have := h.1
  have := h.2
  exact ⟨(n + 31 - s.pointer % 32) % 32, List.mem_range.2 (Nat.mod_lt _ (by decide)), by omega⟩

/-- R77: the only oven that qualifies is served. -/
theorem roundRobin_only (h : s.Qualifies n) (only : ∀ m, s.Qualifies m → m = n) : s.roundRobin.find? s.slotQualifies = some n := by
  cases found : s.roundRobin.find? s.slotQualifies with
  | none => exact absurd (slotQualifies_iff.2 h) (List.find?_eq_none.1 found n (mem_roundRobin h.1))
  | some m => rw [only m (slotQualifies_iff.1 (List.find?_some found))]

/-- R77: the first oven after the pointer that qualifies is served. -/
theorem roundRobin_first (hp : s.pointer ≤ 32) (h : s.Qualifies n)
    (first : ∀ m, s.Qualifies m → (n + 63 - s.pointer) % 32 ≤ (m + 63 - s.pointer) % 32) :
    s.roundRobin.find? s.slotQualifies = some n := by
  have h1 := h.1.1
  have h2 := h.1.2
  have place : (s.pointer + (n + 63 - s.pointer) % 32) % 32 + 1 = n := by omega
  rw [State.roundRobin, List.find?_map, Option.map_eq_some_iff]
  refine ⟨(n + 63 - s.pointer) % 32, ?_, place⟩
  rw [List.find?_range_eq_some]
  refine ⟨?_, List.mem_range.2 (Nat.mod_lt _ (by decide)), fun j hj => ?_⟩
  · rw [Function.comp, place]
    exact slotQualifies_iff.2 h
  · rw [Bool.not_eq_true', ← Bool.not_eq_true, Function.comp]
    intro other
    have later := first _ (slotQualifies_iff.1 other)
    omega

/-- R77: the lowest free slot. -/
theorem freeSlot_lowest (h1 : 1 ≤ k) (h4 : k ≤ 4) (hk : s.distSlot k = none)
    (lower : ∀ j, 1 ≤ j → j < k → (s.distSlot j).isSome = true) :
    allDistSlots.find? (fun k => (s.distSlot k).isNone) = some k := by
  have taken : ∀ j, 1 ≤ j → j < k → (s.distSlot j).isNone = false := fun j a b => by
    rw [Option.isNone_eq_false_iff]
    exact lower j a b
  have free : (s.distSlot k).isNone = true := by rw [hk]; rfl
  unfold allDistSlots
  interval_cases k
  · simp [free]
  · simp [free, taken 1]
  · simp [free, taken 1, taken 2]
  · simp [free, taken 1, taken 2, taken 3]

theorem chooseSlots_none (h : ∀ n, s.slotQualifies n = false) (fuel : Nat) : chooseSlots fuel s = s := by
  have none : s.roundRobin.find? s.slotQualifies = none := List.find?_eq_none.2 fun n _ => by rw [h n]; decide
  cases fuel with
  | zero => rfl
  | succ fuel =>
    unfold chooseSlots
    rw [none]
    split
    · rename_i j
      cases j
    · rfl

/-- R77: one choice. -/
theorem chooseSlots_succ (fuel : Nat) (hk : allDistSlots.find? (fun k => (s.distSlot k).isNone) = some k)
    (hn : s.roundRobin.find? s.slotQualifies = some n) (he : s.oldestPending n = some e) :
    chooseSlots (fuel + 1) s = chooseSlots fuel (offer n e.number e.version k { s with pointer := n }) := by
  conv_lhs => unfold chooseSlots
  rw [hk, hn]
  dsimp only
  rw [he]

/-- R77: the entry served, as the choice leaves the state. -/
theorem offer_offeredAt (h : s.Holds n e) (hs : s.Settled) (hr : s.recipe e.number e.version = some r) :
    offer n e.number e.version k { s with pointer := n } = offeredAt n k e r s := by
  have noticed : clampNoticed n e r { s with pointer := n } = { clampNoticed n e r s with pointer := n } := by
    unfold clampNoticed
    by_cases c : r.steps.any (stepClamped (s.oven n)) = true ∧ e.clamped = false
    · exact (if_pos c).trans ((raise_pointer _ _ _ _ _).trans (congrArg (fun t : State => { t with pointer := n }) (if_pos c).symm))
    · exact (if_neg c).trans (congrArg (fun t : State => { t with pointer := n }) (if_neg c).symm)
  rw [offer_eq (s := { s with pointer := n }) (h.congr rfl) hs hr, noticed, deliver_pointer]
  rfl

/-! ### One choice after the other (R77) -/

/-- What the slot choice rests on: nothing waits for a free transmitter, and the entries name records of the library. -/
structure State.Offerable (s : State) : Prop where
  settled : s.Settled
  named : ∀ m, ∀ x ∈ s.loadedOf m, (s.recipe x.number x.version).isSome = true

/-- The distribution slots that are free. -/
def State.freeSlots (s : State) : Nat := allDistSlots.countP fun k => (s.distSlot k).isNone

theorem entry_mem {a v : Nat} (h : s.entry n a v = some e) : e ∈ s.loadedOf n ∧ e.number = a ∧ e.version = v := by
  have named : e.is a v = true := by simpa using List.find?_some h
  rw [Entry.is, Bool.and_eq_true, decide_eq_true_eq, decide_eq_true_eq] at named
  exact ⟨List.mem_of_find?_eq_some h, named⟩

/-- R78: an offer binds its slot and leaves the others, and the library, as they are. -/
theorem offer_leaves {a v : Nat} (h : s.Offerable) (he : s.entry n a v = some e) (hk : 1 ≤ k ∧ k ≤ 4) :
    (offer n a v k s).Offerable ∧ ((offer n a v k s).distSlot k).isSome = true ∧
      ∀ j ≠ k, (offer n a v k s).distSlot j = s.distSlot j := by
  obtain ⟨hm, rfl, rfl⟩ := entry_mem he
  obtain ⟨r, hr⟩ := Option.isSome_iff_exists.1 (h.named n e hm)
  let w := if r.steps.any (stepClamped (s.oven n)) && !e.clamped then raiseRecipeEntry n e.number e.version 0 s else s
  have kept : w.Settled ∧ w.slots = s.slots ∧ w.recipes = s.recipes ∧ w.loaded = s.loaded := by
    show State.Settled (if _ then _ else _) ∧ State.slots (if _ then _ else _) = _ ∧ State.recipes (if _ then _ else _) = _ ∧
      State.loaded (if _ then _ else _) = _
    split_ifs
    · exact ⟨raise_settled _ _ _ h.settled, raise_keeps_slots _ _ _ _, raise_keeps_recipes _ _ _ _, raise_keeps_loaded _ _ _ _⟩
    · exact ⟨h.settled, rfl, rfl, rfl⟩
  obtain ⟨settled, slots, recipes, loaded⟩ := kept
  let g := fun e : Entry => { e with
    crc := some (contentCrc (s.oven n) r), clamped := r.steps.any (stepClamped (s.oven n)), state := .offered
    deadline := some (.reply, w.after Config.distributionSeconds) }
  let b : DistSlot := { oven := n, number := e.number, version := e.version, next := 0, total := transferTotal r }
  let f := ovenFrame .distribution n (.offer e.number e.version r.steps.length (contentCrc (s.oven n) r))
  let u := (w.modEntry n e.number e.version g).setDistSlot k (some b)
  have go : offer n e.number e.version k s = deliver f u := by
    rw [offer, hr, he]
    exact placeFor_eq_deliver (s := u) settled _ _ _
  have bound : ∀ j, (deliver f u).distSlot j = u.distSlot j := fun j => congrArg (fun v => vget v j none) (deliver_keeps_slots _ _)
  rw [go]
  refine ⟨⟨deliver_settled _ _, fun m x hx => ?_⟩, ?_, fun j hj => ?_⟩
  · have table : (deliver f u).recipes = s.recipes := (deliver_keeps_recipes _ _).trans recipes
    have sets : (deliver f u).loadedOf m = (w.modEntry n e.number e.version g).loadedOf m :=
      congrArg (fun v => vget v m []) (deliver_keeps_loaded _ _)
    have before : ∀ i, w.loadedOf i = s.loadedOf i := fun i => congrArg (fun v => vget v i []) loaded
    have keyed : ∃ y ∈ s.loadedOf m, y.number = x.number ∧ y.version = x.version := by
      rw [sets] at hx
      by_cases mn : m = n
      · subst mn
        rw [State.modEntry, State.setLoaded_loadedOf _ _ _ (slot_of_entry hm), before, List.mem_map] at hx
        obtain ⟨y, hy, rfl⟩ := hx
        refine ⟨y, hy, ?_⟩
        split_ifs <;> exact ⟨rfl, rfl⟩
      · rw [State.modEntry, State.setLoaded_loadedOf_ne _ _ _ _ mn, before] at hx
        exact ⟨x, hx, rfl, rfl⟩
    obtain ⟨y, hy, yn, yv⟩ := keyed
    have found := h.named m y hy
    rw [State.recipe, yn, yv] at found
    rw [State.recipe, table]
    exact found
  · rw [bound, State.setDistSlot_distSlot _ _ _ hk]
    rfl
  · rw [bound, State.setDistSlot_distSlot_ne _ _ _ _ hj]
    exact congrArg (fun v => vget v j none) slots

theorem freeSlot_some (h : allDistSlots.find? (fun k => (s.distSlot k).isNone) = some k) : (1 ≤ k ∧ k ≤ 4) ∧ s.distSlot k = none := by
  have mem := List.mem_of_find?_eq_some h
  have free : (s.distSlot k).isNone = true := by simpa using List.find?_some h
  refine ⟨?_, Option.isNone_iff_eq_none.1 free⟩
  simp only [allDistSlots, List.mem_cons, List.not_mem_nil, or_false] at mem
  omega

theorem freeSlots_bound (hk : 1 ≤ k ∧ k ≤ 4) (free : s.distSlot k = none) (bound : (t.distSlot k).isSome = true)
    (others : ∀ j ≠ k, t.distSlot j = s.distSlot j) : s.freeSlots = t.freeSlots + 1 := by
  obtain ⟨b, hb⟩ := Option.isSome_iff_exists.1 bound
  obtain ⟨h1, h4⟩ := hk
  unfold State.freeSlots allDistSlots
  interval_cases k
  · simp [List.countP_cons, free, hb, others]
  · simp [List.countP_cons, free, hb, others]
    omega
  · simp [List.countP_cons, free, hb, others]
    omega
  · simp [List.countP_cons, free, hb, others]
    omega

theorem chooseSlots_full (h : allDistSlots.find? (fun k => (s.distSlot k).isNone) = none) (fuel : Nat) : chooseSlots fuel s = s := by
  cases fuel with
  | zero => rfl
  | succ fuel =>
    unfold chooseSlots
    rw [h]

theorem freeSlots_zero (h : s.freeSlots = 0) : allDistSlots.find? (fun k => (s.distSlot k).isNone) = none := by
  rw [List.find?_eq_none]
  exact List.countP_eq_zero.1 h

/-- R77: as many choices are made as slots are free; more fuel changes nothing. -/
theorem chooseSlots_enough (fuel : Nat) (h : s.Offerable) (hf : s.freeSlots ≤ fuel) :
    chooseSlots (fuel + 1) s = chooseSlots fuel s := by
  induction fuel generalizing s with
  | zero =>
    have none := freeSlots_zero (Nat.le_zero.1 hf)
    rw [chooseSlots_full none, chooseSlots_full none]
  | succ fuel ih =>
    cases hk : allDistSlots.find? (fun k => (s.distSlot k).isNone) with
    | none => rw [chooseSlots_full hk, chooseSlots_full hk]
    | some k =>
      cases hn : s.roundRobin.find? s.slotQualifies with
      | none =>
        have stop : ∀ fuel, chooseSlots (fuel + 1) s = s := fun fuel => by
          conv_lhs => unfold chooseSlots
          rw [hk, hn]
        rw [stop, stop]
      | some n =>
        have qualifies : s.Qualifies n := slotQualifies_iff.1 (by simpa using List.find?_some hn)
        obtain ⟨e, he⟩ := Option.isSome_iff_exists.1 qualifies.2.2.2.2.2.2
        obtain ⟨slot, free⟩ := freeSlot_some hk
        obtain ⟨x, hx⟩ : ∃ x, s.entry n e.number e.version = some x := Option.isSome_iff_exists.1 (by
          rw [State.entry, List.find?_isSome]
          exact ⟨e, List.mem_of_find?_eq_some he, by simp [Entry.is]⟩)
        obtain ⟨offerable, bound, others⟩ := offer_leaves (s := { s with pointer := n }) ⟨h.settled, h.named⟩ hx slot
        rw [chooseSlots_succ (fuel + 1) hk hn he, chooseSlots_succ fuel hk hn he]
        refine ih offerable ?_
        have fewer := freeSlots_bound (s := s) slot free bound others
        omega

/-- R77: the first choice of a slot choice, and the choices that follow it. -/
theorem slotChoice_serves (hp : s.power = .running) (h : s.Offerable) (hk : allDistSlots.find? (fun k => (s.distSlot k).isNone) = some k)
    (hn : s.roundRobin.find? s.slotQualifies = some n) (he : s.oldestPending n = some e) (held : s.Holds n e)
    (hr : s.recipe e.number e.version = some r) : slotChoice s = slotChoice (offeredAt n k e r s) := by
  obtain ⟨slot, free⟩ := freeSlot_some hk
  have served := offer_offeredAt (k := k) held h.settled hr
  obtain ⟨offerable, bound, others⟩ := offer_leaves (k := k) (s := { s with pointer := n }) (e := e) ⟨h.settled, h.named⟩ held.entry slot
  rw [served] at offerable bound others
  have fewer := freeSlots_bound (s := s) slot free bound others
  have most : s.freeSlots ≤ 4 := List.countP_le_length
  have running : (offeredAt n k e r s).power = .running := by
    show State.power (deliver _ (if _ then _ else _)) = _
    rw [deliver_power]
    split_ifs
    · rw [raise_power, hp]
    · exact hp
  rw [slotChoice, if_pos hp, slotChoice, if_pos running, chooseSlots_succ 3 hk hn he, served]
  exact (chooseSlots_enough 3 offerable (by omega)).symm

/-! ### RECIPE_RESEND (R86) -/

theorem reqRecipeResend_range {number : Nat} (h : number < 1 ∨ 4095 < number ∨ n < 1 ∨ 32 < n) :
    reqRecipeResend n number s = refuse .range s := by
  by_cases k : isRecipe number
  · refine (if_neg (not_not.2 k)).trans (onService_range ?_)
    simp only [isRecipe] at k
    simp only [isSlot]
    omega
  · exact if_pos k

/-- R86: the FAILED entry that is sent again. -/
theorem reqRecipeResend_eq {number : Nat} (h1 : 1 ≤ number) (h2 : number ≤ 4095) :
    reqRecipeResend n number s = onService n (fun s =>
      match (s.loadedOf n).find? (fun e => e.number = number && e.state = .failed) with
      | some e => ok (resend n e s)
      | none => refuse .noRecord s) s :=
  if_neg (not_not.2 ⟨h1, h2⟩)

theorem failedEntry_sole {number : Nat} (h : s.Holds n e) (hn : e.number = number) (hs : e.state = .failed)
    (only : ∀ x ∈ s.loadedOf n, x.number = number → x.state = .failed → x = e) :
    (s.loadedOf n).find? (fun e => e.number = number && e.state = .failed) = some e := by
  cases found : (s.loadedOf n).find? (fun e => e.number = number && e.state = .failed) with
  | none => exact absurd (by simp [hn, hs]) (List.find?_eq_none.1 found e h.mem)
  | some x =>
    have own := List.find?_some found
    rw [Bool.and_eq_true, decide_eq_true_eq, decide_eq_true_eq] at own
    rw [only x (List.mem_of_find?_eq_some found) own.1 own.2]

theorem oldestPending_withEntry (h : s.Holds n e) (ho : s.NoOffers) (hn : e'.number = e.number) (hv : e'.version = e.version)
    (hw : e'.Waits) : (s.withEntry n e e').oldestPending n = some e' := by
  have mine := h.withEntry hn hv
  cases found : (s.withEntry n e e').oldestPending n with
  | none => exact absurd hw (oldestPending_none.1 found e' mine.mem)
  | some x =>
    have waits : x.Waits := by simpa [Entry.Waits] using List.find?_some found
    have mem := List.mem_of_find?_eq_some found
    rw [withEntry_loadedOf h, List.mem_map] at mem
    obtain ⟨y, hy, rfl⟩ := mem
    by_cases k : y = e
    · rw [if_pos k]
    · rw [if_neg k] at waits
      exact absurd waits (oldestPending_none.1 (ho n) y hy)

/-- R77, R86: the only oven with an entry to offer is served, and nothing is left to offer. -/
theorem slotChoice_sole (hp : s.power = .running) (hs : s.Settled) (h : s.Holds n e) (ho : ∀ m ≠ n, s.oldestPending m = none)
    (he : s.oldestPending n = some e) (only : ∀ x ∈ s.loadedOf n, x.Waits → x = e) (hq : s.Qualifies n)
    (hk : allDistSlots.find? (fun k => (s.distSlot k).isNone) = some k) (hr : s.recipe e.number e.version = some r) :
    slotChoice s = offeredAt n k e r s := by
  have turn : s.roundRobin.find? s.slotQualifies = some n := roundRobin_only hq fun m hm => by
    by_contra other
    have waits := hm.2.2.2.2.2.2
    rw [ho m other] at waits
    cases waits
  rw [slotChoice, if_pos hp, chooseSlots_succ 3 hk turn he, offer_offeredAt h hs hr]
  let e2 := e.offeredOf s (s.oven n) r
  have sets : (offeredAt n k e r s).loaded = (s.withEntry n e e2).loaded := by
    have kept : State.loaded (deliver (ovenFrame .distribution n (.offer e.number e.version r.steps.length (contentCrc (s.oven n) r)))
        (clampNoticed n e r s)) = s.loaded := (deliver_keeps_loaded _ _).trans clampNoticed_loaded
    exact congrArg (fun v => vset v n ((vget v n []).map fun x => if x = e then e2 else x)) kept
  refine chooseSlots_none (slotQualifies_false (State.NoOffers.congr (setLoaded_noOffers ho fun x hx => ?_) sets)) 3
  obtain ⟨y, hy, rfl⟩ := List.mem_map.1 hx
  by_cases j : y = e
  · rw [if_pos j]
    exact fun w => nomatch (w.1 : EntryState.offered = .pending)
  · rw [if_neg j]
    exact fun w => j (only y hy w)

/-- Settles O46. -/
theorem resendOffersAgain : Obligations.ResendOffersAgain := by
  refine ⟨fun s n number h => ⟨fun hr => request_refuses h (reqRecipeResend_range hr), fun hn h1 h2 => ⟨fun hv => ?_, fun hv hw => ?_,
    fun hw none => ?_, fun e hw he hen hst only => ?_⟩⟩, fun s hp hptr => ?_⟩
  · exact request_refuses h ((reqRecipeResend_eq h1 h2).trans (onService_vacant hn hv))
  · exact request_refuses h ((reqRecipeResend_eq h1 h2).trans (onService_other hn hv hw))
  · have missing : (s.loadedOf n).find? (fun e => e.number = number && e.state = .failed) = Option.none := by
      refine List.find?_eq_none.2 fun x hx k => ?_
      rw [Bool.and_eq_true, decide_eq_true_eq, decide_eq_true_eq] at k
      exact none x hx k.1 k.2
    refine request_refuses h ((reqRecipeResend_eq h1 h2).trans ((onService_of hn hw).trans ?_))
    rw [missing]
  · have again : reqRecipeResend n number s =
        ok (slotChoice (s.withEntry n e { e with state := .pending, retries := 0, noRoom := false })) := by
      refine (reqRecipeResend_eq h1 h2).trans ((onService_of hn hw).trans ?_)
      rw [failedEntry_sole he hen hst only]
      exact congrArg (fun t => ok (slotChoice t)) (he.modEntry _)
    have moved := Moves.refl (s := s) |>.reqRecipeResend n number
    refine ⟨fun full => ?_, fun k r k1 k4 hk lower hr ho hs ht hp hu hc => ?_⟩
    · rw [slotChoice_full (s := s.withEntry n e _) full] at again
      exact request_moved h again moved
    · intro e'
      let w := s.withEntry n e e'
      have held : w.Holds n e' := he.withEntry rfl rfl
      have mine : ∀ x ∈ w.loadedOf n, x = e' ∨ (x ∈ s.loadedOf n ∧ x ≠ e) := fun x hx => by
        rw [withEntry_loadedOf he, List.mem_map] at hx
        obtain ⟨y, hy, rfl⟩ := hx
        by_cases j : y = e
        · exact .inl (if_pos j)
        · rw [if_neg j]
          exact .inr ⟨hy, j⟩
      have oldest : w.oldestPending n = some e' := oldestPending_withEntry he ho rfl rfl ⟨rfl, rfl⟩
      have count : (w.loadedOf n).countP (·.state.counted) = (s.loadedOf n).countP (·.state.counted) := by
        rw [withEntry_loadedOf he, List.countP_map]
        refine List.countP_congr fun x _ => ?_
        by_cases j : x = e
        · simp only [Function.comp, j, if_true, hst]
          exact Iff.rfl
        · simp only [Function.comp, if_neg j]
      have qualifies : w.Qualifies n := ⟨hn, hw, hp, hu, fun x hx => by
          obtain rfl | old := mine x hx
          · exact ⟨fun j => (nomatch (j : EntryState.pending = .offered)), fun j => (nomatch (j : EntryState.pending = .sending))⟩
          · exact transferEntry_none.1 ht x old.1, count ▸ hc, by rw [oldest]; rfl⟩
      have served := slotChoice_sole (s := w) (k := k) (r := r) h.1.1 hs held (fun m hm => ?_) oldest (fun x hx wx => ?_) qualifies
        (freeSlot_lowest (s := w) k1 k4 hk lower) (hen ▸ hr)
      · rw [served] at again
        exact request_moved h again moved
      · have sets : w.loadedOf m = s.loadedOf m := State.setLoaded_loadedOf_ne _ _ _ _ hm
        rw [oldestPending_none, sets]
        exact oldestPending_none.1 (ho m)
      · obtain rfl | old := mine x hx
        · rfl
        · exact absurd wx (oldestPending_none.1 (ho n) x old.1)
  · intro qualifies turn
    have same : ∀ n, qualifies n ↔ s.Qualifies n := fun n => Iff.rfl
    refine ⟨fun stop => ?_, fun n k e r hq first he k1 k4 hk lower hr held hs named => ?_⟩
    · rcases stop with full | nobody
      · exact slotChoice_full full
      · exact slotChoice_none fun n => by
          rw [← Bool.not_eq_true, slotQualifies_iff]
          exact nobody n
    · exact slotChoice_serves hp ⟨hs, named⟩ (freeSlot_lowest k1 k4 hk lower) (roundRobin_first hptr hq first) he held hr

end Sys2Proof.Machine
end

section
/-! PROOF. Entries and channels of the Update Relay (08): what a change of one leaves of the other, what is placed for a channel in a
settled state, and what suspends and reopens a transfer. -/

namespace Sys2Proof.Machine

set_option Elab.async false

variable {s t : State} {n c ch : Nat} {b : Binding} {m : Campaign} {e : CEntry}

/-! ### Entries and channels as records -/

theorem modChannel_some (hb : s.channel ch = some b) (f : Binding → Binding) : s.modChannel ch f = s.setChannel ch (some (f b)) := by
  rw [State.modChannel, hb, Option.map_some]

theorem modCampaign_some (hm : s.campaign c = some m) (f : Campaign → Campaign) : s.modCampaign c f = s.setCampaign c (some (f m)) := by
  rw [State.modCampaign, hm, Option.map_some]

theorem setChannel_setChannel (s : State) (ch : Nat) (a b : Option Binding) :
    (s.setChannel ch a).setChannel ch b = s.setChannel ch b := by
  show State.mk .. = State.mk ..
  rw [State.setChannel_channels, vset_vset]
  rfl

theorem setCampaign_setCampaign (s : State) (c : Nat) (a b : Option Campaign) :
    (s.setCampaign c a).setCampaign c b = s.setCampaign c b := by
  show State.mk .. = State.mk ..
  rw [State.setCampaign_campaigns, vset_vset]
  rfl

theorem setCampaign_same (hm : s.campaign c = some m) : s.setCampaign c (some m) = s := by
  have : vset s.campaigns c (some m) = s.campaigns := by
    rw [← hm]
    exact vset_vget s.campaigns c none (campaign_some_iff hm)
  rw [State.setCampaign, this]

theorem setChannel_same (hc : 1 ≤ ch ∧ ch ≤ 2) (hb : s.channel ch = some b) : s.setChannel ch (some b) = s := by
  have : vset s.channels ch (some b) = s.channels := by
    rw [← hb]
    exact vset_vget s.channels ch none hc
  rw [State.setChannel, this]

theorem centry_congr (h : t.campaigns = s.campaigns) (c n : Nat) : t.centry c n = s.centry c n := by
  simp only [State.centry, State.campaign, h]

theorem centry_some (he : s.centry c n = some e) : (∃ m, s.campaign c = some m ∧ e ∈ m.entries) ∧ e.oven = n := by
  obtain ⟨m, hm, hx⟩ := Option.bind_eq_some_iff.1 he
  exact ⟨⟨m, hm, List.mem_of_find?_eq_some hx⟩, by simpa using List.find?_some hx⟩

section
variable (k : NoticeKind) (i : Nat) (d : List Byte) (f : OutFrame) (s : State)

@[simp] theorem raise_centry (c n : Nat) : (raise k i d s).centry c n = s.centry c n := centry_congr (raise_keeps_campaigns k i d s) c n
@[simp] theorem deliver_centry (c n : Nat) : (deliver f s).centry c n = s.centry c n := centry_congr (deliver_keeps_campaigns f s) c n

theorem raise_setCampaign (c : Nat) (m : Option Campaign) :
    raise k i d (s.setCampaign c m) = (raise k i d s).setCampaign c m := by
  simp only [State.setCampaign, raise_campaigns, raise_keeps_campaigns]

theorem deliver_setCampaign (c : Nat) (m : Option Campaign) : deliver f (s.setCampaign c m) = (deliver f s).setCampaign c m := by
  simp only [State.setCampaign, deliver_campaigns, deliver_keeps_campaigns]

theorem raise_setChannel (c : Nat) (b : Option Binding) :
    raise k i d (s.setChannel c b) = (raise k i d s).setChannel c b := by
  simp only [State.setChannel, raise_channels, raise_keeps_channels]

theorem deliver_setChannel (c : Nat) (b : Option Binding) : deliver f (s.setChannel c b) = (deliver f s).setChannel c b := by
  simp only [State.setChannel, deliver_channels, deliver_keeps_channels]

theorem raise_modCEntry (c n : Nat) (g : CEntry → CEntry) : raise k i d (s.modCEntry c n g) = (raise k i d s).modCEntry c n g := by
  simp only [State.modCEntry, State.modCampaign, raise_setCampaign, raise_campaign]

theorem deliver_modCEntry (c n : Nat) (g : CEntry → CEntry) : deliver f (s.modCEntry c n g) = (deliver f s).modCEntry c n g := by
  simp only [State.modCEntry, State.modCampaign, deliver_setCampaign, deliver_campaign]

theorem raise_removeCEntry (c n : Nat) : raise k i d (s.removeCEntry c n) = (raise k i d s).removeCEntry c n := by
  simp only [State.removeCEntry, State.modCampaign, raise_setCampaign, raise_campaign]
end

/-- Two changes of one entry are one. -/
theorem modCEntry_modCEntry (s : State) (c n : Nat) (f g : CEntry → CEntry) (hf : ∀ e, (f e).oven = e.oven) :
    (s.modCEntry c n f).modCEntry c n g = s.modCEntry c n fun e => g (f e) := by
  cases hm : s.campaign c with
  | none =>
    have hu : (s.modCEntry c n f).campaign c = none := modCampaign_none _ hm
    rw [State.modCEntry, State.modCampaign, hu, State.modCEntry, State.modCEntry, State.modCampaign, State.modCampaign, hm]
    exact setCampaign_setCampaign s c none none
  | some m =>
    have hu : (s.modCEntry c n f).campaign c = some _ := campaign_modCampaign _ hm
    rw [State.modCEntry, modCampaign_some hu, State.modCEntry, State.modCEntry, modCampaign_some hm, modCampaign_some hm,
      setCampaign_setCampaign]
    simp only [List.map_map]
    refine congrArg (fun l => s.setCampaign c (some { m with entries := l })) (List.map_congr_left fun e _ => ?_)
    by_cases k : e.oven = n <;> simp [k, hf]

theorem removeCEntry_modCEntry (s : State) (c n : Nat) (f : CEntry → CEntry) (hf : ∀ e, (f e).oven = e.oven) :
    (s.modCEntry c n f).removeCEntry c n = s.removeCEntry c n := by
  cases hm : s.campaign c with
  | none =>
    have hu : (s.modCEntry c n f).campaign c = none := modCampaign_none _ hm
    rw [State.removeCEntry, State.modCampaign, hu, State.modCEntry, State.removeCEntry, State.modCampaign, State.modCampaign, hm]
    exact setCampaign_setCampaign s c none none
  | some m =>
    have hu : (s.modCEntry c n f).campaign c = some _ := campaign_modCampaign _ hm
    rw [State.removeCEntry, modCampaign_some hu, State.modCEntry, State.removeCEntry, modCampaign_some hm, modCampaign_some hm,
      setCampaign_setCampaign]
    dsimp only
    refine congrArg (fun l => s.setCampaign c (some { m with entries := l })) ?_
    rw [List.filter_map]
    have same : (fun e : CEntry => decide (e.oven ≠ n)) ∘ (fun e => if e.oven = n then f e else e) = fun e => decide (e.oven ≠ n) := by
      funext e
      by_cases k : e.oven = n <;> simp [k, hf]
    rw [same]
    refine (List.map_congr_left fun e he => ?_).trans (List.map_id _)
    have : e.oven ≠ n := by simpa using (List.mem_filter.1 he).2
    exact if_neg this

/-- The one entry of a slot is found where its state is asked for. -/
theorem campaignWhere_sole (he : s.centry c n = some e) (only : ∀ d, d ≠ c → s.centry d n = none) (p : CEntryState → Bool) :
    s.campaignWhere n p = if p e.state then some c else none := by
  obtain ⟨⟨m, hm, -⟩, -⟩ := centry_some he
  have hc : c ∈ allCampaigns := (mem_allCampaigns c).2 (campaign_some_iff hm)
  split_ifs with hp
  · cases hf : s.campaignWhere n p with
    | none =>
      have := List.find?_eq_none.1 hf c hc
      simp [he, hp] at this
    | some d =>
      have := List.find?_some hf
      by_contra k
      have : d ≠ c := fun x => k (by rw [x])
      simp_all
  · refine List.find?_eq_none.2 fun d _ => ?_
    by_cases hd : d = c
    · subst hd
      simp [he, hp]
    · simp [only d hd]

/-- No campaign has an entry of the slot in the state. -/
theorem campaignWhere_nowhere {p : CEntryState → Bool} (h : ∀ c e, s.centry c n = some e → p e.state = false) :
    s.campaignWhere n p = none := by
  refine List.find?_eq_none.2 fun c _ => ?_
  cases he : s.centry c n with
  | none => simp
  | some e => simp [h c e he]

theorem attempts_eq (he : s.centry c n = some e) : s.attempts c n = e.attempts := by rw [State.attempts, he]

/-! ### Frames of a channel in a settled state (R10, R164) -/

/-- With only IMAGE filled, the transmitter takes its head. -/
theorem kick_image {f : OutFrame} {l : List OutFrame} (hs : s.Settled) (free : s.held = false) (hf : f.mark = .channel ch) :
    kick { s with image := f :: l } = imageTaken ch { s with transmitter := some f, image := l } := by
  obtain ⟨hu, ha, hb, -⟩ := hs free
  have chosen : State.Chooses { s with image := f :: l } .image f l :=
    ⟨rfl, fun r hr => by cases r <;> first | exact absurd hu hr | exact absurd ha hr | exact absurd hb hr | exact .inr ⟨rfl, le_rfl⟩⟩
  rw [kick_of_chooses chosen free, afterTaken, hf]
  rfl

/-- Two frames of a channel that places nothing behind them. -/
theorem kick_pair {f g : OutFrame} (hs : s.Settled) (hf : f.mark = .channel ch) (qf : f.payload.kind.queue = .image)
    (qg : g.payload.kind.queue = .image) (still : ∀ u : State, u.channels = s.channels → u.campaigns = s.campaigns → imageTaken ch u = u) :
    kick (enqueue g (enqueue f s)) = enqueue g (deliver f s) := by
  cases hh : s.held with
  | true =>
    rw [deliver, if_pos hh]
    refine kick_held ?_
    have a := enqueue_still f s
    have b := enqueue_still g (enqueue f s)
    rw [State.held, b.busOff, enqueue_transmitter, a.busOff, enqueue_transmitter]
    exact hh
  | false =>
    have empty : s.image = [] := (hs hh).2.2.2
    rw [deliver, if_neg (by rw [hh]; decide), enqueue_image qf (by rw [empty]; decide),
      enqueue_image (s := { s with transmitter := some f }) qg (by simp [empty]), enqueue_image qg (by simp [empty])]
    simp only [empty, List.nil_append, List.singleton_append]
    rw [kick_image hs hh hf]
    exact still _ rfl rfl

theorem enqueueBegin_eq (hb : s.channel ch = some b) (hm : s.campaign b.campaign = some m) :
    enqueueBegin ch s = enqueue (imageFrame ch b.oven (.imageBegin1 m.imageCrc m.toVersion))
      (enqueue (imageFrame ch b.oven (.imageBegin0 m.imageSize b.acked)) s) := by
  unfold enqueueBegin
  rw [hb]
  dsimp only
  rw [hm]

/-- R164: an IMAGE_BEGIN of an OPENING transfer in a settled state. -/
theorem kick_enqueueBegin (hs : s.Settled) (hb : s.channel ch = some b) (hm : s.campaign b.campaign = some m)
    (ho : b.stream ≠ .streaming) : kick (enqueueBegin ch s) = beginFrames ch b.oven b.acked m s := by
  rw [enqueueBegin_eq hb hm]
  refine kick_pair (ch := ch) hs rfl rfl rfl fun u hc hg => ?_
  have bu : u.channel ch = some b := by rw [State.channel, hc]; exact hb
  have mu : u.campaign b.campaign = some m := by rw [State.campaign, hg]; exact hm
  rw [imageTaken_of_channel bu]
  exact fillImage_none bu mu (fun x => absurd x ho) 8

theorem withdrawImage_settled (hs : s.Settled) : (withdrawImage ch s).Settled := (Moves.refl.withdrawImage ch).settled hs

/-! ### Suspension and reopening (R169, R170) -/

/-- R169, R170: what a suspension leaves of the channel and the entry. -/
def State.suspended (s : State) (ch : Nat) (b : Binding) (attempts : Nat) : State :=
  raise .update b.oven (le 1 1 ++ le 1 b.campaign ++ le 1 0 ++ le 1 attempts)
    ((s.setChannel ch (some { b with stream := .held, timeout := none })).modCEntry b.campaign b.oven fun x => { x with
      state := .suspended, deadline := some (min 4294967295 (s.clock + 600)) })

theorem suspend_eq (hb : s.channel ch = some b) (he : s.centry b.campaign b.oven = some e) :
    suspend ch s = s.suspended ch b e.attempts := by
  unfold suspend
  rw [hb]
  dsimp only
  rw [modChannel_some hb]
  have he' : (s.setChannel ch (some { b with stream := .held, timeout := none })).centry b.campaign b.oven = some e := he
  have hx := centry_modCEntry (s.setChannel ch (some { b with stream := .held, timeout := none })) b.campaign b.oven
    (fun x => { x with state := .suspended, deadline := some (min 4294967295 (s.clock + 600)) }) (fun _ => rfl) b.campaign b.oven
  rw [if_pos ⟨rfl, rfl⟩, he', Option.map_some] at hx
  have ha := attempts_eq hx
  unfold raiseUpdate State.suspended
  exact congrArg (fun k => raise .update b.oven (le 1 1 ++ le 1 b.campaign ++ le 1 0 ++ le 1 k)
    ((s.setChannel ch (some { b with stream := .held, timeout := none })).modCEntry b.campaign b.oven fun x => { x with
      state := .suspended, deadline := some (min 4294967295 (s.clock + 600)) })) ha

/-- A suspension of a channel just changed. -/
theorem suspend_setChannel (hc : 1 ≤ ch ∧ ch ≤ 2) (he : s.centry b.campaign b.oven = some e) :
    suspend ch (s.setChannel ch (some b)) = s.suspended ch b e.attempts := by
  rw [suspend_eq (State.setChannel_channel _ _ _ hc) (s := s.setChannel ch (some b)) he, State.suspended, setChannel_setChannel]
  rfl

/-- R170: the transfer of a channel is reopened from acked. -/
theorem reopen_eq (hs : s.Settled) (hc : 1 ≤ ch ∧ ch ≤ 2) (hb : s.channel ch = some b) (hm : s.campaign b.campaign = some m) :
    reopen ch s = raise .relay ch (le 1 0 ++ le 1 b.campaign ++ le 1 b.oven ++ le 3 b.taken)
      (beginFrames ch b.oven b.acked m (((withdrawImage ch s).setChannel ch (some { b with
        sent := b.acked, check := none, stream := .opening, timeout := some (min 4294967295 (s.clock + 2)) })).modCEntry b.campaign b.oven
          fun x => { x with state := .transferring, deadline := none, timeouts := 0 })) := by
  unfold reopen
  rw [hb]
  dsimp only
  have hb' : (withdrawImage ch s).channel ch = some b := hb
  rw [modChannel_some hb']
  let b' : Binding := { b with sent := b.acked, check := none, stream := .opening, timeout := some (min 4294967295 (s.clock + 2)) }
  let v := ((withdrawImage ch s).setChannel ch (some b')).modCEntry b.campaign b.oven fun x =>
    { x with state := .transferring, deadline := none, timeouts := 0 }
  let f : Campaign → Campaign := fun m => { m with entries := m.entries.map fun x => if x.oven = b.oven then
    { x with state := .transferring, deadline := none, timeouts := 0 } else x }
  have bv : v.channel ch = some b' := State.setChannel_channel (withdrawImage ch s) ch (some b') hc
  have mv : v.campaign b.campaign = some (f m) :=
    campaign_modCampaign (s := (withdrawImage ch s).setChannel ch (some b')) f hm
  have sv : v.Settled := withdrawImage_settled (ch := ch) hs
  have begun := kick_enqueueBegin sv bv mv (fun x => nomatch (x : Stream.opening = .streaming))
  exact congrArg (raiseFeed ch b.campaign b.oven b.taken) begun

end Sys2Proof.Machine
end

section
/-! PROOF. Silence and presence (R36, R40), and what the Distribution Engine (R82) and the Update Relay (R162, R170, R173) then do. -/

namespace Sys2Proof.Machine

set_option Elab.async false

variable {s t : State} {n c ch : Nat} {b : Binding} {m : Campaign} {e : CEntry}

/-! ### The silence of an oven -/

theorem becomeSilent_eq (hn : isSlot n) : becomeSilent n s = relaySilent n (distributionSilent n
    (raise .ovenPresence n (le 1 1 ++ le 4 (s.oven n).lastHeard) (s.setOven n { s.oven n with present := false, silence := none }))) := by
  unfold becomeSilent raisePresence
  rw [State.modOven, State.setOven_oven _ _ _ hn]

theorem silenceExpiry_due {i : Nat} (h : (s.oven n).silence = some i) (hi : i ≤ s.clock) : silenceExpiry n s = becomeSilent n s := by
  unfold silenceExpiry
  rw [h, if_pos (due_some hi)]

theorem silenceExpiry_not (h : s.due (s.oven n).silence = false) : silenceExpiry n s = s := if_neg (by rw [h]; decide)

theorem gatheringExpiry_due {i : Nat} (h : (s.oven n).gathering = some i) (hi : i ≤ s.clock) : gatheringExpiry n s =
    s.setOven n { s.oven n with cap0 := none, cap1 := none, refreshPending := false, gathering := none } := by
  unfold gatheringExpiry
  rw [h, if_pos (due_some hi)]
  rfl

theorem gatheringExpiry_not (h : s.due (s.oven n).gathering = false) : gatheringExpiry n s = s := if_neg (by rw [h]; decide)

/-- A commissioning deadline that is not yet due, or of another kind. -/
theorem commAt_not {k : CommKind} (h : ∀ j t, (s.oven n).comm = some (j, t) → s.clock < t) : s.due ((s.oven n).commAt k) = false := by
  unfold Oven.commAt
  cases hc : (s.oven n).comm with
  | none => rfl
  | some x =>
    obtain ⟨j, t⟩ := x
    dsimp only
    split_ifs
    · exact decide_eq_false (Nat.not_le.2 (h j t hc))
    · rfl

theorem transferToPending_none (h : s.transferEntry n = none) : transferToPending n s = s := by rw [transferToPending, h]

/-- R82: an oven with nothing in transfer and no other that could be offered. -/
theorem distributionSilent_quiet (h : s.transferEntry n = none) (ho : s.NoOffers) : distributionSilent n s = s := by
  rw [distributionSilent, transferToPending_none h, slotChoice_noOffers ho]

/-- R68: of a sound loaded set the entry in transfer is the only one. -/
theorem holds_of_loadedOk {x : Entry} (h : LoadedOk (s.loadedOf n)) (hx : x ∈ s.loadedOf n) (ht : x.state.inTransfer = true) :
    s.Holds n x where
  mem := hx
  once := h.keys
  alone y hy hty := by
    have short := h.transfers
    rw [List.countP_eq_length_filter] at short
    have mx : x ∈ (s.loadedOf n).filter (fun e => e.state.inTransfer) := List.mem_filter.2 ⟨hx, ht⟩
    have my : y ∈ (s.loadedOf n).filter (fun e => e.state.inTransfer) := List.mem_filter.2 ⟨hy, hty⟩
    obtain ⟨z, hz⟩ := List.length_eq_one_iff.1 (Nat.le_antisymm short (List.length_pos_of_mem mx))
    rw [hz, List.mem_singleton] at mx my
    rw [mx, my]

theorem inTransfer_true (st : EntryState) : st.inTransfer = true ↔ st = .offered ∨ st = .sending := by
  cases st <;> simp [EntryState.inTransfer]

/-- R82: the entry in transfer returns to PENDING. -/
theorem transferToPending_eq (h : LoadedOk (s.loadedOf n)) : transferToPending n s =
    if (s.loadedOf n).any fun e => decide (e.state = .offered ∨ e.state = .sending) then
      (s.freed n).setLoaded n ((s.loadedOf n).map fun e =>
        if e.state = .offered ∨ e.state = .sending then { e with state := .pending, deadline := none } else e)
    else s := by
  cases ht : s.transferEntry n with
  | none =>
    rw [transferToPending_none ht, if_neg]
    intro k
    obtain ⟨x, hx, kx⟩ := List.any_eq_true.1 k
    have quiet := transferEntry_none.1 ht x hx
    exact (of_decide_eq_true kx).elim quiet.1 quiet.2
  | some x =>
    have hx : x ∈ s.loadedOf n := List.mem_of_find?_eq_some ht
    have moving : x.state.inTransfer = true := by simpa using List.find?_some ht
    have held := holds_of_loadedOk h hx moving
    have found : ((s.loadedOf n).any fun e => decide (e.state = .offered ∨ e.state = .sending)) = true :=
      List.any_eq_true.2 ⟨x, hx, decide_eq_true ((inTransfer_true _).1 moving)⟩
    rw [if_pos found, transferToPending, ht]
    refine (endTransfer_modEntry held moving _).trans ?_
    have sets : (s.freed n).loadedOf n = s.loadedOf n := by rw [State.loadedOf, freed_loaded]; rfl
    rw [State.withEntry, sets]
    refine congrArg ((s.freed n).setLoaded n) (List.map_congr_left fun y hy => ?_)
    by_cases k : y = x
    · subst k
      rw [if_pos rfl, if_pos ((inTransfer_true _).1 moving)]
    · rw [if_neg k, if_neg fun j => k (held.alone y hy ((inTransfer_true _).2 j))]

/-! ### The Update Relay at a silence and at a return -/

theorem relaySilent_quiet (h : ∀ c e, s.centry c n = some e → e.state ≠ .transferring) : relaySilent n s = s := by
  unfold relaySilent
  rw [campaignWhere_nowhere (p := fun x => x = .transferring) fun c e he => decide_eq_false (h c e he)]
  rfl

theorem relaySilent_transferring (hc : 1 ≤ ch ∧ ch ≤ 2) (he : s.centry c n = some e) (only : ∀ d, d ≠ c → s.centry d n = none)
    (ht : e.state = .transferring) (hx : e.channel = some ch) (hb : s.channel ch = some b) (bc : b.campaign = c) (bn : b.oven = n) :
    relaySilent n s = raise .update n (le 1 1 ++ le 1 c ++ le 1 0 ++ le 1 e.attempts)
      (((withdrawImage ch s).setChannel ch (some { b with
        sent := b.acked, timeout := none, check := none, stream := .held })).modCEntry c n fun x => { x with
          state := .suspended, deadline := some (min 4294967295 (s.clock + 600)) }) := by
  subst bc bn
  unfold relaySilent
  rw [campaignWhere_sole he only, if_pos (decide_eq_true ht), Option.bind_some, he]
  dsimp only
  rw [hx]
  dsimp only
  rw [modChannel_some (show (withdrawImage ch s).channel ch = some b from hb)]
  exact suspend_setChannel (s := withdrawImage ch s) (b := { b with sent := b.acked, timeout := none, check := none }) hc he

/-- R170: no transfer is reopened where none is SUSPENDED. -/
theorem reopenOven_other (he : s.centry c n = some e) (only : ∀ d, d ≠ c → s.centry d n = none) {p : CEntryState → Bool}
    (hp : p e.state = false) : reopenOven n p s = s := by
  unfold reopenOven
  rw [campaignWhere_sole he only, if_neg (by rw [hp]; decide)]
  rfl

theorem reopenOven_of (he : s.centry c n = some e) (only : ∀ d, d ≠ c → s.centry d n = none) {p : CEntryState → Bool}
    (hp : p e.state = true) (hx : e.channel = some ch) : reopenOven n p s = reopen ch s := by
  unfold reopenOven
  rw [campaignWhere_sole he only, if_pos hp, Option.bind_some, he, Option.bind_some, hx]

theorem gateOven_of (he : s.centry c n = some e) (only : ∀ d, d ≠ c → s.centry d n = none) (ht : e.state = .staged) :
    gateOven n s = gate c n s := by
  unfold gateOven
  rw [campaignWhere_sole he only, if_pos (decide_eq_true ht)]

theorem gateOven_other (he : s.centry c n = some e) (only : ∀ d, d ≠ c → s.centry d n = none) (ht : e.state ≠ .staged) :
    gateOven n s = s := by
  unfold gateOven
  rw [campaignWhere_sole he only, if_neg (by simp [ht])]

/-- The frames of an IMAGE_BEGIN change no campaign. -/
theorem beginFrames_campaigns (s : State) (ch n k : Nat) (m : Campaign) : (beginFrames ch n k m s).campaigns = s.campaigns := by
  have queued : ∀ (f : OutFrame) (t : State), (enqueue f t).campaigns = t.campaigns := fun f t => by
      have := congrArg State.campaigns (enqueue_campaigns f t t.campaigns)
      exact this
  unfold beginFrames
  rw [queued, deliver_keeps_campaigns]

theorem reopen_centry (hs : s.Settled) (hc : 1 ≤ ch ∧ ch ≤ 2) (hb : s.channel ch = some b) (hm : s.campaign b.campaign = some m) (d : Nat) :
    (reopen ch s).centry d b.oven = if d = b.campaign then
      (s.centry d b.oven).map fun x => { x with state := .transferring, deadline := none, timeouts := 0 } else s.centry d b.oven := by
  rw [reopen_eq hs hc hb hm, raise_centry, centry_congr (beginFrames_campaigns _ _ _ _ _), centry_modCEntry _ _ _ _ (by exact fun _ => rfl)]
  simp only [and_true]
  rfl

/-- Settles O43. -/
theorem watchDeadlines : Obligations.WatchDeadlines := by
  refine ⟨fun s n hl hn => ?_, fun s f rest hl hf ha hn hx hp => ?_, fun s c n m e hs c1 c4 hm he only => ?_⟩
  · intro o
    have taken : ∀ {f : State → State} {u : State}, Moves s (f s) → f s = u → (Host.Outcome.next (event f s) : Result) = .next u :=
      fun m e => congrArg Host.Outcome.next ((event_moves hl m).trans e)
    have silent : ∀ i, o.silence = some i → i ≤ s.clock → exec (.silenceDeadline n) s = .next (relaySilent n (distributionSilent n
        (raise .ovenPresence n (le 1 1 ++ le 4 o.lastHeard) (s.setOven n { o with present := false, silence := none })))) :=
      fun i hi due => taken (f := silenceExpiry n) (Moves.refl.silenceExpiry n) ((silenceExpiry_due hi due).trans (becomeSilent_eq hn))
    refine ⟨fun i hi due hc ho hq => ?_, fun i hi due => ?_, fun h => ?_, fun h => ?_, fun h => ?_, silent, fun h => ?_,
      relaySilent_quiet, fun c e ch b c1 c4 he only ht hx h1 h2 hb bc bn => relaySilent_transferring ⟨h1, h2⟩ he only ht hx hb bc bn⟩
    · refine (silent i hi due).trans (congrArg Host.Outcome.next ?_)
      let v := s.setOven n { o with present := false, silence := none }
      let w := raise .ovenPresence n (le 1 1 ++ le 4 o.lastHeard) v
      have sets : w.loaded = s.loaded := raise_keeps_loaded _ _ _ v
      have quiet : distributionSilent n w = w := distributionSilent_quiet (transferEntry_none.2 fun x hx => by
        rw [State.loadedOf, sets] at hx
        exact transferEntry_none.1 hq x hx) (State.NoOffers.congr ho sets)
      have calm : relaySilent n w = w := relaySilent_none (noCampaigns_congr (s := s) (raise_keeps_campaigns _ _ _ v) hc) n
      exact (congrArg (relaySilent n) quiet).trans calm
    · exact taken (f := gatheringExpiry n) (Moves.refl.gatheringExpiry n) (gatheringExpiry_due hi due)
    · exact taken (f := silenceExpiry n) (Moves.refl.silenceExpiry n) (silenceExpiry_not h)
    · exact taken (f := gatheringExpiry n) (Moves.refl.gatheringExpiry n) (gatheringExpiry_not h)
    · have early : ∀ k, ¬ s.due ((s.oven n).commAt k) = true := fun k => by
        rw [commAt_not h]
        decide
      exact ⟨taken (f := holdExpiry n) (Moves.refl.holdExpiry n) (if_neg (early _)),
        taken (f := assignReplyExpiry n) (Moves.refl.assignReplyExpiry n) (if_neg (early _)),
        taken (f := profileExpiry n) (Moves.refl.profileExpiry n) (if_neg (early _)),
        taken (f := testExpiry n) (Moves.refl.testExpiry n) (if_neg (early _))⟩
    · rw [distributionSilent, transferToPending_eq h]
  · intro n u back reported
    have source : s.acceptsSource f.source = true := Bool.and_eq_true_iff.2 ⟨decide_eq_true hn, hx⟩
    have came : heard n { s with inbound := rest } = relayPresent n (slotChoice back) := by
      unfold heard
      have record : (State.modOven { s with inbound := rest } n fun o => { o with
          lastHeard := s.clock
          silence := if o.state.watched then some (s.after 10) else o.silence }) = u := rfl
      have absent : (u.oven n).present = false := by
        rw [show u.oven n = _ from afterHearing_oven hn]
        exact hp
      show (if (u.oven n).present = true then u else becomePresent n u) = _
      rw [if_neg (by rw [absent]; decide)]
      unfold becomePresent raisePresence
      rw [State.modOven, State.setOven_oven _ _ _ hn]
      have last : (u.oven n).lastHeard = s.clock := by rw [show u.oven n = _ from afterHearing_oven hn]
      exact congrArg (fun k => relayPresent n (slotChoice (raise .ovenPresence n (le 1 0 ++ le 4 k)
        (u.setOven n { u.oven n with present := true })))) last
    have row : exec .status s = .next (reported (relayPresent n (slotChoice back))) := by
      have done : slotFrame .status statusFrame s = reported (relayPresent n (slotChoice back)) := by
        rw [slotFrame_eq hf ha source]
        exact congrArg (statusFrame n f) came
      refine congrArg Host.Outcome.next ((event_live hl ?_).trans done)
      exact (slotFrame_moves (fun n f u => Moves.refl.statusFrame n f) hf ha).still.clock
    refine ⟨row, fun ho hc hs => row.trans (congrArg (fun t => Host.Outcome.next (reported t)) ?_)⟩
    have kept : back.NoCampaigns := noCampaigns_congr (s := s) (raise_keeps_campaigns _ _ _ _) hc
    have settled : back.Settled := raise_settled _ _ _ hs
    rw [slotChoice_noOffers (s := back) (State.NoOffers.congr ho (raise_keeps_loaded _ _ _ _)), relayPresent, reopenOven_none kept,
      gateOven_none kept, channelChoice_none kept settled]
  · refine ⟨fun ht => ?_, fun ht hu => ?_, fun ch b ht hx h1 h2 hb bc bn => ?_⟩
    · rw [relayPresent, reopenOven_other he only (by simp [ht]), gateOven_of he only ht]
    · rw [relayPresent, reopenOven_other he only (by simp [hu]), gateOven_other he only ht]
    · subst bc bn
      have again := reopen_centry hs ⟨h1, h2⟩ hb hm
      rw [relayPresent, reopenOven_of he only (by simp [ht]) hx, gateOven_unstaged, reopen_eq hs ⟨h1, h2⟩ hb hm]
      refine campaignWhere_nowhere fun d x hx' => ?_
      rw [again d] at hx'
      by_cases k : d = b.campaign
      · rw [if_pos k, k, he] at hx'
        cases hx'
        rfl
      · rw [if_neg k, only d k] at hx'
        cases hx'

end Sys2Proof.Machine
end

section
/-! PROOF. Membership (R69, R70): what a recompute makes of an empty loaded set and of a set of one entry. -/

namespace Sys2Proof.Machine

set_option Elab.async false

variable {s t : State} {n : Nat} {e : Entry} {r : Recipe}

/-- The records' numbers and versions. -/
def keysOf (l : List Recipe) : List (Nat × Nat) := l.map fun r => (r.number, r.version)

/-- The record's number and version stand in the list. -/
def listed (l : List Recipe) (r : Recipe) : Bool := l.any fun x => decide (x.number = r.number ∧ x.version = r.version)

theorem listed_iff (l : List Recipe) (r : Recipe) : listed l r = true ↔ (r.number, r.version) ∈ keysOf l := by
  simp only [listed, List.any_eq_true, decide_eq_true_eq, keysOf, List.mem_map, Prod.mk.injEq]

/-- R69, R70: versions appended PENDING to a loaded set, each counted on its record. -/
def State.appended (s : State) (n : Nat) (l : List Recipe) : State :=
  State.setLoaded { s with recipes := s.recipes.map fun r => if listed l r then { r with refs := r.refs + 1 } else r } n
    (s.loadedOf n ++ l.map fun r => { number := r.number, version := r.version })

theorem appended_loadedOf (hn : isSlot n) (l : List Recipe) :
    (s.appended n l).loadedOf n = s.loadedOf n ++ l.map fun r => { number := r.number, version := r.version } :=
  State.setLoaded_loadedOf _ _ _ hn

theorem appended_nil (hn : isSlot n) : s.appended n [] = s := by
  have same : (s.recipes.map fun r => if listed [] r then { r with refs := r.refs + 1 } else r) = s.recipes := by
    simp [listed]
  rw [State.appended, same, List.map_nil, List.append_nil]
  exact setLoaded_same hn

/-- One version after the other. -/
theorem appended_cons (hn : isSlot n) {l : List Recipe} (fresh : (r.number, r.version) ∉ keysOf l) :
    (s.appended n [r]).appended n l = s.appended n (r :: l) := by
  have recipes : ((s.recipes.map fun x => if listed [r] x then { x with refs := x.refs + 1 } else x).map
      fun x => if listed l x then { x with refs := x.refs + 1 } else x) =
      s.recipes.map fun x => if listed (r :: l) x then { x with refs := x.refs + 1 } else x := by
    rw [List.map_map]
    refine List.map_congr_left fun x _ => ?_
    by_cases k : r.number = x.number ∧ r.version = x.version
    · have off : listed l x = false := by
        rw [← Bool.not_eq_true, listed_iff, ← k.1, ← k.2]
        exact fresh
      have off' : listed l { x with refs := x.refs + 1 } = false := off
      simp [listed, k] at off' ⊢
      intro a ha e1 e2
      exact absurd e2 (off' a ha e1)
    · simp [listed, k]
  rw [State.appended, appended_loadedOf hn, List.append_assoc]
  show State.setLoaded { s.appended n [r] with recipes := _ } n _ = _
  rw [show (s.appended n [r]).recipes = s.recipes.map fun x => if listed [r] x then { x with refs := x.refs + 1 } else x from rfl,
    recipes]
  exact setLoaded_setLoaded (s := { s with recipes := _ }) _ _

/-- R70: one wanted version of the first pass. -/
def appendOne (n : Nat) (s : State) (r : Recipe) : State :=
  if (s.entry n r.number r.version).isNone ∧ (s.loadedOf n).length < Config.loadedPlaces then
    addRef r.number r.version (s.setLoaded n (s.loadedOf n ++ [{ number := r.number, version := r.version }]))
  else s

theorem appendWanted_eq (n : Nat) (s : State) : appendWanted n s = (s.wanted n).foldl (appendOne n) s := rfl

/-- The loaded set holds no entry of the version. -/
def State.lacks (s : State) (n : Nat) (r : Recipe) : Prop := ∀ x ∈ s.loadedOf n, ¬ (x.number = r.number ∧ x.version = r.version)

theorem entry_isNone : (s.entry n r.number r.version).isNone = true ↔ s.lacks n r := by
  simp only [State.entry, Entry.is, Option.isNone_iff_eq_none, List.find?_eq_none, Bool.and_eq_true, decide_eq_true_eq, State.lacks]

theorem appendOne_held (h : ¬ s.lacks n r) : appendOne n s r = s := if_neg fun k => h (entry_isNone.1 k.1)

theorem appendOne_full (h : 64 ≤ (s.loadedOf n).length) : appendOne n s r = s := if_neg fun k => Nat.not_lt.2 h k.2

theorem appendOne_fresh (h : s.lacks n r) (room : (s.loadedOf n).length < 64) : appendOne n s r = s.appended n [r] := by
  refine (if_pos ⟨entry_isNone.2 h, room⟩).trans ?_
  have recipes : (s.recipes.map fun x => if x.number = r.number && x.version = r.version then { x with refs := x.refs + 1 } else x) =
      s.recipes.map fun x => if listed [r] x then { x with refs := x.refs + 1 } else x := by
    refine List.map_congr_left fun x _ => ?_
    simp only [listed, List.any_cons, List.any_nil, Bool.or_false, Bool.and_eq_true, decide_eq_true_eq,
      eq_comm (a := r.number), eq_comm (a := r.version)]
  show State.setLoaded { s with recipes := _ } n _ = State.setLoaded { s with recipes := _ } n _
  rw [← recipes]
  rfl

/-- R70, first pass: versions that are not there are appended while fewer than 64 entries stand. -/
theorem appendOne_all (hn : isSlot n) (l : List Recipe) (s : State) (distinct : (keysOf l).Nodup) (fresh : ∀ r ∈ l, s.lacks n r) :
    l.foldl (appendOne n) s = s.appended n (l.take (64 - (s.loadedOf n).length)) := by
  induction l generalizing s with
  | nil => rw [List.foldl_nil, List.take_nil, appended_nil hn]
  | cons r l ih =>
    obtain ⟨first, rest⟩ := List.nodup_cons.1 distinct
    rw [List.foldl_cons]
    by_cases room : (s.loadedOf n).length < 64
    · have grown : (s.appended n [r]).loadedOf n = s.loadedOf n ++ [{ number := r.number, version := r.version }] :=
        appended_loadedOf hn [r]
      rw [appendOne_fresh (fresh r List.mem_cons_self) room, ih _ rest fun x hx y hy => ?_, grown, List.length_append,
        appended_cons hn, List.length_singleton,
        show 64 - (s.loadedOf n).length = (64 - ((s.loadedOf n).length + 1)) + 1 by omega, List.take_succ_cons]
      · intro k
        refine first (List.mem_map.2 ?_)
        obtain ⟨x, hx, e⟩ := List.mem_map.1 k
        exact ⟨x, List.mem_of_mem_take hx, e⟩
      · rw [grown] at hy
        rcases List.mem_append.1 hy with old | new
        · exact fresh x (List.mem_cons_of_mem _ hx) y old
        · rw [List.mem_singleton] at new
          subst new
          rintro ⟨k, v⟩
          exact first (List.mem_map.2 ⟨x, hx, Prod.ext k.symm v.symm⟩)
    · rw [appendOne_full (Nat.not_lt.1 room), ih s rest fun x hx => fresh x (List.mem_cons_of_mem _ hx),
        show 64 - (s.loadedOf n).length = 0 by omega, List.take_zero, List.take_zero]

/-- R70: where every wanted version has its entry, the first pass appends nothing. -/
theorem appendWanted_held (h : ∀ r ∈ s.recipes, wants (s.oven n) r = true → ¬ s.lacks n r) : appendWanted n s = s := by
  rw [appendWanted_eq]
  have all : ∀ l : List Recipe, (∀ r ∈ l, ¬ s.lacks n r) → l.foldl (appendOne n) s = s := fun l => by
    induction l with
    | nil => exact fun _ => rfl
    | cons r l ih =>
      intro hl
      rw [List.foldl_cons, appendOne_held (hl r List.mem_cons_self)]
      exact ih fun x hx => hl x (List.mem_cons_of_mem _ hx)
  exact all _ fun r hr => h r (List.mem_filter.1 hr).1 (List.mem_filter.1 hr).2

/-- The wanted set does not depend on the references. -/
theorem appended_wanted (l : List Recipe) : (s.appended n l).wanted n =
    (s.wanted n).map fun r => if listed l r then { r with refs := r.refs + 1 } else r := by
  unfold State.wanted
  show List.filter (wants (s.oven n)) (s.recipes.map _) = _
  rw [List.filter_map]
  refine congrArg (List.map _) (List.filter_congr fun x _ => ?_)
  show wants (s.oven n) (if _ then _ else _) = _
  split_ifs
  · exact wants_refs _ _ _
  · rfl

/-- The entry's version is wanted. -/
def wantedIn (w : List Recipe) (e : Entry) : Bool := w.any fun r => r.number = e.number && r.version = e.version

theorem judgeEntry_wanted {w : List Recipe} (hw : wantedIn w e = true) (hl : e.state ≠ .loaded) (hs : e.state ≠ .stale) :
    judgeEntry n w s e = s := by
  unfold wantedIn at hw
  unfold judgeEntry
  dsimp only
  rw [hw]
  cases h : e.state <;> first | rfl | exact absurd h hl | exact absurd h hs

theorem judgeEntry_loaded {w : List Recipe} (hw : wantedIn w e = true) (hl : e.state = .loaded) :
    judgeEntry n w s e = s.modEntry n e.number e.version fun e => { e with deferred := false } := by
  unfold wantedIn at hw
  unfold judgeEntry
  dsimp only
  rw [hw, hl]
  rfl

/-- R70: where the second pass finds nothing to do. -/
theorem recompute_of (ht : appendWanted n s = t) (hj : ∀ e ∈ t.loadedOf n, judgeEntry n (t.wanted n) t e = t) : recompute n s = t := by
  have all : ∀ l : List Entry, (∀ e ∈ l, judgeEntry n (t.wanted n) t e = t) → l.foldl (judgeEntry n (t.wanted n)) t = t := fun l => by
    induction l with
    | nil => exact fun _ => rfl
    | cons e l ih =>
      intro hl
      rw [List.foldl_cons, hl e List.mem_cons_self]
      exact ih fun x hx => hl x (List.mem_cons_of_mem _ hx)
  rw [recompute, ht, all _ hj]
  exact if_neg (Nat.lt_irrefl _)

theorem keysOf_filter {p : Recipe → Bool} {l : List Recipe} (h : (keysOf l).Nodup) : (keysOf (l.filter p)).Nodup :=
  h.sublist ((List.filter_sublist (l := l)).map _)

/-- Of records that differ in number or version, one is listed exactly where it stands in the list. -/
theorem listed_iff_mem {l k : List Recipe} (hl : (keysOf l).Nodup) (hk : ∀ x ∈ k, x ∈ l) (hr : r ∈ l) : listed k r = true ↔ r ∈ k := by
  rw [listed_iff]
  constructor
  · intro h
    obtain ⟨x, hx, e⟩ := List.mem_map.1 h
    rwa [List.inj_on_of_nodup_map hl hr (hk x hx) e.symm]
  · exact fun h => List.mem_map.2 ⟨r, h, rfl⟩

/-- R69, R70: an empty loaded set is filled with the wanted versions. -/
theorem recompute_built (hn : isSlot n) (hl : s.loadedOf n = []) (distinct : (keysOf s.recipes).Nodup) :
    recompute n s = s.built n := by
  let l := (s.wanted n).take 64
  have sub : ∀ x ∈ l, x ∈ s.recipes := fun x hx => (List.mem_filter.1 (List.mem_of_mem_take hx)).1
  have filled : s.appended n l = s.built n := by
    have recipes : (s.recipes.map fun r => if listed l r then { r with refs := r.refs + 1 } else r) =
        s.recipes.map fun r => if r ∈ l then { r with refs := r.refs + 1 } else r :=
      List.map_congr_left fun x hx => by simp only [listed_iff_mem distinct sub hx]
    rw [State.appended, recipes, hl, List.nil_append]
    rfl
  have first : appendWanted n s = s.appended n l := by
    rw [appendWanted_eq, appendOne_all hn (s.wanted n) s (keysOf_filter distinct) fun r _ x hx => absurd (hl ▸ hx) List.not_mem_nil, hl]
    rfl
  refine (recompute_of first fun e he => ?_).trans filled
  rw [appended_loadedOf hn, hl, List.nil_append] at he
  obtain ⟨r, hr, rfl⟩ := List.mem_map.1 he
  refine judgeEntry_wanted ?_ (fun k => nomatch (k : EntryState.pending = .loaded)) (fun k => nomatch (k : EntryState.pending = .stale))
  rw [appended_wanted, wantedIn, List.any_map]
  refine List.any_eq_true.2 ⟨r, List.mem_of_mem_take hr, ?_⟩
  show (_ : Bool) = true
  simp only [Function.comp]
  split_ifs <;> simp

/-- R69: where nothing is wanted an empty set stays so. -/
theorem built_none (hn : isSlot n) (h : s.NoWants n) (hl : s.loadedOf n = []) : s.built n = s := by
  have nothing : s.recipes.filter (wants (s.oven n)) = [] := List.filter_eq_nil_iff.2 fun r hr => by rw [h r hr]; decide
  have recipes : (s.recipes.map fun r => if r ∈ ([] : List Recipe) then { r with refs := r.refs + 1 } else r) = s.recipes := by simp
  rw [State.built, nothing]
  show State.setLoaded { s with recipes := s.recipes.map fun r => if r ∈ ([] : List Recipe) then { r with refs := r.refs + 1 } else r }
    n [] = s
  rw [recipes, ← hl]
  exact setLoaded_same hn

/-! ### A set of one entry -/

theorem holds_sole (hl : s.loadedOf n = [e]) : s.Holds n e where
  mem := by rw [hl]; exact List.mem_singleton_self e
  once := by rw [hl]; exact List.nodup_singleton _
  alone x hx _ := by rwa [hl, List.mem_singleton] at hx

theorem withEntry_sole (hl : s.loadedOf n = [e]) (e' : Entry) : s.withEntry n e e' = s.setLoaded n [e'] := by
  rw [State.withEntry, hl, List.map_cons, if_pos rfl, List.map_nil]

/-- R72, R73: the one entry goes to UNLOADING. -/
theorem toUnloading_sole (hl : s.loadedOf n = [e]) (hs : s.Settled) : toUnloading n e.number e.version s = soleUnloads n e s := by
  have sets : (deliver (ovenFrame .distribution n (.unload e.number e.version)) s).loadedOf n = [e] := by
    rw [deliver_loadedOf, hl]
  rw [toUnloading_eq (holds_sole hl) hs, soleUnloads, withEntry_sole hl, withEntry_sole sets]

theorem endTransfer_sole (hl : s.loadedOf n = [e]) (ht : e.state.inTransfer = true) :
    endTransfer n s = (s.freed n).setLoaded n [{ e with deadline := none }] := by
  have sets : (s.freed n).loadedOf n = [e] := by rw [State.loadedOf, freed_loaded]; exact hl
  rw [endTransfer_eq (holds_sole hl) ht, withEntry_sole sets]

theorem freed_settled (hs : s.Settled) : (s.freed n).Settled := by
  unfold State.freed
  cases s.boundSlot n with
  | none => exact hs
  | some k => exact (Moves.refl.withdrawSegments k).settled hs

/-- R70: the one entry is no longer wanted. -/
theorem judgeEntry_unwanted (hl : s.loadedOf n = [e]) (hs : s.Settled) : judgeEntry n [] s e = soleLoses n e s := by
  have slot : isSlot n := slot_of_entry (hl ▸ List.mem_singleton_self e)
  have gone : e.state.inTransfer = true → removeEntry n e.number e.version (placeDiscard n e.number e.version (endTransfer n s)) =
      dropRef e.number e.version
        ((deliver (ovenFrame .distribution n (.discard e.number e.version)) (s.freed n)).setLoaded n []) := fun ht => by
    have settled : ((s.freed n).setLoaded n [{ e with deadline := none }]).Settled := freed_settled (n := n) hs
    rw [endTransfer_sole hl ht, placeDiscard, placeFor_eq_deliver settled, deliver_setLoaded]
    refine (removeEntry_sole (e := { e with deadline := none }) (State.setLoaded_loadedOf _ _ _ slot)).trans ?_
    rw [setLoaded_setLoaded]
  unfold judgeEntry soleLoses
  cases h : e.state with
  | pending => exact removeEntry_sole hl
  | failed => exact removeEntry_sole hl
  | offered => exact gone (by rw [h]; rfl)
  | sending => exact gone (by rw [h]; rfl)
  | loaded => exact toUnloading_sole hl hs
  | stale => exact toUnloading_sole hl hs
  | unloading => rfl

theorem NoWants_congr (h : s.NoWants n) (ho : t.ovens = s.ovens) (hr : t.recipes = s.recipes) : t.NoWants n := by
  intro r hx
  rw [State.oven, ho]
  exact h r (hr ▸ hx)

theorem NoWants_deliver {f : OutFrame} (h : s.NoWants n) : (deliver f s).NoWants n :=
  NoWants_congr h (deliver_keeps_ovens f s) (deliver_keeps_recipes f s)

theorem NoWants_soleLoses (h : s.NoWants n) : (soleLoses n e s).NoWants n := by
  have freed : (s.freed n).NoWants n := by
    unfold State.freed
    cases s.boundSlot n <;> exact h
  have told : ∀ l, ((deliver (ovenFrame .distribution n (.unload e.number e.version)) s).setLoaded n l).NoWants n :=
    fun _ => NoWants_deliver h
  unfold soleLoses soleUnloads
  split
  · exact NoWants_dropRef (s := s.setLoaded n []) h _ _
  · exact NoWants_dropRef (s := s.setLoaded n []) h _ _
  · exact NoWants_dropRef (s := (deliver _ (s.freed n)).setLoaded n []) (NoWants_deliver freed) _ _
  · exact NoWants_dropRef (s := (deliver _ (s.freed n)).setLoaded n []) (NoWants_deliver freed) _ _
  · split
    · exact h
    · exact told _
  · split
    · exact h
    · exact told _
  · exact h

/-- R70: the one entry of a set of an oven that wants nothing. -/
theorem recompute_sole (hl : s.loadedOf n = [e]) (hs : s.Settled) (hw : s.NoWants n) : recompute n s = soleLoses n e s := by
  have calm : ∀ {u : State}, u.NoWants n → appendWanted n u = u := fun h =>
    appendWanted_held fun r hr k => by simp [h r hr] at k
  have none : s.wanted n = [] := List.filter_eq_nil_iff.2 fun r hr => by rw [hw r hr]; decide
  rw [recompute, calm hw, none, hl, List.foldl_cons, List.foldl_nil, judgeEntry_unwanted hl hs]
  split
  · exact calm (NoWants_soleLoses hw)
  · rfl

/-- R70: the one entry of a set is wanted, and no other version is. -/
theorem recompute_sole_wanted (hl : s.loadedOf n = [e]) (hw : wantedIn (s.wanted n) e = true)
    (only : ∀ r ∈ s.recipes, wants (s.oven n) r = true → r.number = e.number ∧ r.version = e.version) (hs : e.state ≠ .stale) :
    recompute n s = s.setLoaded n [if e.state = .loaded then { e with deferred := false } else e] := by
  have slot : isSlot n := slot_of_entry (hl ▸ List.mem_singleton_self e)
  have first : appendWanted n s = s := appendWanted_held fun r hr k lacks =>
    lacks e (hl ▸ List.mem_singleton_self e) ⟨(only r hr k).1.symm, (only r hr k).2.symm⟩
  by_cases k : e.state = .loaded
  · have judged : judgeEntry n (s.wanted n) s e = s.setLoaded n [{ e with deferred := false }] := by
      rw [judgeEntry_loaded hw k, (holds_sole hl).modEntry, withEntry_sole hl]
    rw [recompute, first, hl, List.foldl_cons, List.foldl_nil, judged, State.setLoaded_loadedOf _ _ _ slot, if_pos k]
    exact if_neg (Nat.lt_irrefl 1)
  · rw [if_neg k, ← hl, setLoaded_same slot]
    refine recompute_of first fun x hx => ?_
    rw [hl, List.mem_singleton] at hx
    subst hx
    exact judgeEntry_wanted hw k hs

end Sys2Proof.Machine
end

section
/-! PROOF. A passed commissioning test (R31, R128): the oven enters service, with its loaded set (R70) and campaign entries (R160). -/

namespace Sys2Proof.Machine

set_option Elab.async false

variable {s t : State} {n c : Nat} {m : Campaign} {f : InFrame} {rest : List InFrame}

/-! ### The hygiene part and the loaded set -/

/-- R115: a hygiene part is created and told. -/
theorem createPart_eq (hs : s.Settled) (hn : isSlot n) (hw : s.inService n) (h : Hygiene) : createPart n h s =
    deliver (hygieneFrame s n (rearmed s h).restated) (s.withHygiene n (rearmed s h).restated) := by
  have service : (s.withHygiene n (rearmed s h).restated).inService n := by
    unfold State.inService
    rw [withHygiene_oven hn]
    exact hw
  exact placeHygieneState_eq (s := s.withHygiene n (rearmed s h).restated) hs service (withHygiene_hygiene hn _)

/-- R128: the hygiene part of an oven that enters service. -/
def firstHygiene (s : State) (settings : Settings) : Hygiene := (rearmed s
  { soil := 0, settings := settings, lastFull := s.clock, deadline := .passed, advance := .passed, state := .ok
    residue := false, clean := none, order := none, completed := 0, aborted := 0 }).restated

/-- R31, R128: what a passed test has told before the loaded set and the campaigns follow. -/
def entered (s : State) (n : Nat) : State :=
  let h := firstHygiene s ((s.oven n).setup.getD { advise := 24000, lock := 40000, interval := 1440 })
  raise .commissionResult n (le 1 1) (deliver (ovenFrame .registry n (.lockState (s.oven n).locks))
    (deliver (hygieneFrame s n h)
      (s.setOven n { s.oven n with comm := none, state := .inService, setup := none, hygiene := some h })))

theorem testPassed_eq (hs : s.Settled) (hn : isSlot n) : testPassed n s = entriesForOven n (recomputeOne n (entered s n)) := by
  let settings := (s.oven n).setup.getD { advise := 24000, lock := 40000, interval := 1440 }
  let h := firstHygiene s settings
  let o : Oven := { s.oven n with comm := none, state := .inService }
  let bare := (s.setOven n o).setOven n { o with setup := none }
  let w := s.setOven n { s.oven n with comm := none, state := .inService, setup := none, hygiene := some h }
  have given : (s.setOven n o).oven n = o := State.setOven_oven _ _ _ hn
  have record : bare.oven n = { o with setup := none } := State.setOven_oven _ _ _ hn
  have part : createHygiene n (s.setOven n o) = deliver (hygieneFrame s n h) w := by
    have made := createPart_eq (s := bare) hs hn (.inl (by rw [record]))
      { soil := 0, settings := settings, lastFull := s.clock, deadline := .passed, advance := .passed, state := .ok
        residue := false, clean := none, order := none, completed := 0, aborted := 0 }
    have joined : bare.withHygiene n h = w := by
      show State.setOven bare n { bare.oven n with hygiene := some h } = w
      rw [record]
      show ((s.setOven n o).setOven n _).setOven n _ = w
      rw [State.setOven_setOven, State.setOven_setOven]
    unfold createHygiene
    rw [given, State.modOven, given]
    exact made.trans (congrArg (deliver (hygieneFrame s n h)) joined)
  have locks : (deliver (hygieneFrame s n h) w).oven n =
      { s.oven n with comm := none, state := .inService, setup := none, hygiene := some h } := by
    rw [deliver_oven]
    exact State.setOven_oven _ _ _ hn
  unfold testPassed
  rw [State.modOven]
  show entriesForOven n (recomputeOne n (raiseCommission n 1 (placeFor .registry n
    (.lockState ((createHygiene n (s.setOven n o)).oven n).locks) (createHygiene n (s.setOven n o))))) = _
  rw [part, locks, placeFor_eq_deliver (deliver_settled _ _)]
  rfl

theorem entered_loaded : (entered s n).loaded = s.loaded := by
  unfold entered
  rw [raise_keeps_loaded, deliver_keeps_loaded, deliver_keeps_loaded]
  rfl

theorem entered_recipes : (entered s n).recipes = s.recipes := by
  unfold entered
  rw [raise_keeps_recipes, deliver_keeps_recipes, deliver_keeps_recipes]
  rfl

theorem entered_campaigns : (entered s n).campaigns = s.campaigns := by
  unfold entered
  rw [raise_keeps_campaigns, deliver_keeps_campaigns, deliver_keeps_campaigns]
  rfl

/-- R69: an ACTIVE record is wanted only. -/
theorem noWants_of_inactive (h : ∀ r ∈ s.recipes, r.state ≠ .active) : s.NoWants n := fun r hr => by
  simp [wants, h r hr]

/-! ### Campaign entries (R160) -/

theorem insertBefore_sorted {α : Type} (key : α → Nat) (x : α) (l : List α) (h : (l.map key).Pairwise (· < ·)) :
    insertBefore (fun y => decide (key x < key y)) x (l.filter fun y => decide (key y ≠ key x)) =
      (l.filter fun y => decide (key y < key x)) ++ x :: l.filter fun y => decide (key x < key y) := by
  induction l with
  | nil => rfl
  | cons y l ih =>
    obtain ⟨least, rest⟩ := List.pairwise_cons.1 h
    rcases Nat.lt_trichotomy (key y) (key x) with lt | eq | gt
    · rw [List.filter_cons_of_pos (by simpa using Nat.ne_of_lt lt), List.filter_cons_of_pos (by simpa using lt),
        List.filter_cons_of_neg (by simpa using Nat.le_of_lt lt), insertBefore, if_neg (by simpa using Nat.le_of_lt lt), ih rest]
      rfl
    · have above : ∀ z ∈ l, key x < key z := fun z hz => eq ▸ least _ (List.mem_map_of_mem hz)
      have apart : (l.filter fun z => decide (key z ≠ key x)) = l :=
        List.filter_eq_self.2 fun z hz => decide_eq_true (Nat.ne_of_gt (above z hz))
      have below : (l.filter fun z => decide (key z < key x)) = [] :=
        List.filter_eq_nil_iff.2 fun z hz => by simpa using Nat.le_of_lt (above z hz)
      have all : (l.filter fun z => decide (key x < key z)) = l := List.filter_eq_self.2 fun z hz => decide_eq_true (above z hz)
      rw [List.filter_cons_of_neg (by simp [eq]), List.filter_cons_of_neg (by simp [eq]), List.filter_cons_of_neg (by simp [eq]),
        apart, below, all]
      cases l with
      | nil => rfl
      | cons z l =>
        rw [insertBefore, if_pos (decide_eq_true (above z List.mem_cons_self))]
        rfl
    · have above : ∀ z ∈ l, key x < key z := fun z hz => Nat.lt_trans gt (least _ (List.mem_map_of_mem hz))
      have apart : (l.filter fun z => decide (key z ≠ key x)) = l :=
        List.filter_eq_self.2 fun z hz => decide_eq_true (Nat.ne_of_gt (above z hz))
      have below : (l.filter fun z => decide (key z < key x)) = [] :=
        List.filter_eq_nil_iff.2 fun z hz => by simpa using Nat.le_of_lt (above z hz)
      have all : (l.filter fun z => decide (key x < key z)) = l := List.filter_eq_self.2 fun z hz => decide_eq_true (above z hz)
      rw [List.filter_cons_of_pos (by simpa using Nat.ne_of_gt gt), List.filter_cons_of_neg (by simpa using Nat.le_of_lt gt),
        List.filter_cons_of_pos (by simpa using gt), apart, below, all, insertBefore, if_pos (by simpa using gt)]
      rfl

theorem takesVersion_iff (m : Campaign) (v : Option Firmware) : m.takesVersion v = true ↔
    v ≠ some m.toVersion ∧ (m.fromVersions = [] ∨ ∃ f ∈ m.fromVersions, v = some f) := by
  simp [Campaign.takesVersion]

/-- R158, R160: the entry of an oven in a campaign. -/
theorem makeEntry_eq (hm : s.campaign c = some m) (sorted : (m.entries.map CEntry.oven).Pairwise (· < ·)) :
    makeEntry c n s = s.setCampaign c (some { m with
      entries := m.entries.filter (fun x => decide (x.oven < n)) ++
        { oven := n, serial := (s.oven n).serial.getD 0
          state := if (s.oven n).firmware ≠ some m.toVersion ∧
              (m.fromVersions = [] ∨ ∃ v ∈ m.fromVersions, (s.oven n).firmware = some v) then
            .waiting else .skipped } :: m.entries.filter fun x => decide (n < x.oven) }) := by
  have state : (if m.takesVersion (s.oven n).firmware then CEntryState.waiting else .skipped) =
      if (s.oven n).firmware ≠ some m.toVersion ∧
        (m.fromVersions = [] ∨ ∃ v ∈ m.fromVersions, (s.oven n).firmware = some v) then .waiting else .skipped := by
    simp only [takesVersion_iff]
  rw [makeEntry, modCampaign_some hm, ← state]
  exact congrArg (fun l => s.setCampaign c (some { m with entries := l }))
    (insertBefore_sorted CEntry.oven
      { oven := n, serial := (s.oven n).serial.getD 0
        state := if m.takesVersion (s.oven n).firmware then .waiting else .skipped } m.entries sorted)

/-- R160: the RUNNING campaigns of the oven's model class. -/
def State.runningFor (s : State) (n : Nat) : List Nat := allCampaigns.filter fun c =>
  match s.campaign c with
  | some m => m.state = .running && m.model = (s.oven n).model
  | none => false

theorem mem_runningFor : c ∈ s.runningFor n ↔ ∃ m, s.campaign c = some m ∧ m.state = .running ∧ m.model = (s.oven n).model := by
  unfold State.runningFor
  rw [List.mem_filter, mem_allCampaigns]
  cases hm : s.campaign c with
  | none => simp
  | some m =>
    have := campaign_some_iff hm
    simp [this]

theorem entriesForOven_eq : entriesForOven n s = if s.runningFor n = [] then s else
    channelChoice ((s.runningFor n).foldl (fun s c => finishCheck c (makeEntry c n s)) s) := rfl

theorem entriesForOven_nowhere (h : ∀ c m, s.campaign c = some m → m.state = .running → m.model ≠ (s.oven n).model) :
    entriesForOven n s = s := by
  rw [entriesForOven_eq]
  refine if_pos (List.eq_nil_iff_forall_not_mem.2 fun c hc => ?_)
  obtain ⟨m, hm, hr, hx⟩ := mem_runningFor.1 hc
  exact h c m hm hr hx

theorem allCampaigns_nodup : allCampaigns.Nodup := by decide

theorem entriesForOven_one (hm : s.campaign c = some m) (hr : m.state = .running) (hx : m.model = (s.oven n).model)
    (only : ∀ d k, s.campaign d = some k → k.state = .running → k.model = (s.oven n).model → d = c) :
    entriesForOven n s = channelChoice (finishCheck c (makeEntry c n s)) := by
  have one : s.runningFor n = [c] := by
    have here := List.mem_filter.1 (mem_runningFor.2 ⟨m, hm, hr, hx⟩)
    refine filter_sole allCampaigns_nodup here.1 here.2 fun d hd hp => ?_
    obtain ⟨k, hk, kr, kx⟩ := mem_runningFor.1 (List.mem_filter.2 ⟨hd, hp⟩)
    exact only d k hk kr kx
  rw [entriesForOven_eq, one, if_neg (List.cons_ne_nil _ _)]
  rfl

theorem hears_testReport (h : s.Hears .testReport f rest) :
    exec .testReport s = .next (testReportFrame f.source f (s.afterHearing f rest)) :=
  congrArg Host.Outcome.next (event_heard (block := testReportFrame) h (Moves.refl.testReportFrame _ _))

/-- Settles O40. -/
theorem testReportDecidesService : Obligations.TestReportDecidesService := by
  refine ⟨fun s f rest h => ?_, fun s n => ⟨entriesForOven_nowhere, fun c m c1 c4 hm hr hx sorted only => ?_⟩⟩
  · intro n u o
    have passed : o.state = .testing → numAt f.data 0 1 = 0 → s.Settled →
        exec .testReport s = .next (entriesForOven n (recomputeOne n (entered u n))) := fun ho h0 hs => by
      rw [hears_testReport h]
      exact congrArg Host.Outcome.next ((if_pos ho).trans ((if_pos h0).trans (testPassed_eq (s := u) hs h.slot)))
    have sets : s.loadedOf n = [] → (entered u n).loadedOf n = [] := fun hl => by
      rw [State.loadedOf, entered_loaded]
      exact hl
    refine ⟨fun ho => ?_, fun ho h0 => ?_, fun ho h0 hs hc hq hl hr => ?_, fun ho h0 hs hl distinct => ?_⟩
    · rw [hears_testReport h]
      exact congrArg Host.Outcome.next (if_neg ho)
    · rw [hears_testReport h]
      exact congrArg Host.Outcome.next ((if_pos ho).trans (if_neg h0))
    · intro h0' h'
      have calm : (entered u n).NoWants n := noWants_of_inactive fun r k => hr r (by
        rw [entered_recipes] at k
        exact k)
      refine (passed ho h0 hs).trans (congrArg Host.Outcome.next ?_)
      rw [recomputeOne, recompute_empty calm (sets hl), slotChoice_noOffers (s := entered u n) (hq.congr (entered_loaded (s := u)))]
      have kept : (entered u n).NoCampaigns := noCampaigns_congr (s := u) entered_campaigns hc
      rw [entriesForOven_none kept n]
      rfl
    · intro settings h'
      refine (passed ho h0 hs).trans (congrArg Host.Outcome.next ?_)
      rw [recomputeOne, recompute_built h.slot (sets hl) (by rw [entered_recipes]; exact distinct)]
      rfl
  · rw [entriesForOven_one hm hr hx only, makeEntry_eq hm sorted]

end Sys2Proof.Machine
end

section
/-! PROOF. The restore of an oven in service (R44, R129). -/

namespace Sys2Proof.Machine

set_option Elab.async false

variable {s t base : State} {n k serial : Nat} {r : RestoreRecord} {h : Hygiene} {o : Oven}

/-! ### What the slot choice leaves of the records -/

theorem Relays.place (hr : Relays s t) (f : OutFrame) : Relays s (place f t) := (hr.enqueue f).kick

theorem Relays.offer (hr : Relays s t) (n number version k : Nat) : Relays s (offer n number version k t) := by
  unfold Machine.offer
  split
  · dsimp only
    refine Relays.place ?_ _
    split
    · exact (hr.raise _ _ _).trans {}
    · exact hr.trans {}
  · exact hr

theorem Relays.chooseSlots (hr : Relays s t) (fuel : Nat) : Relays s (chooseSlots fuel t) := by
  induction fuel generalizing t with
  | zero => exact hr
  | succ fuel ih =>
    unfold Machine.chooseSlots
    split
    · split
      · exact ih (Relays.offer (hr.trans {}) _ _ _ _)
      · exact hr
    · exact hr

theorem Relays.slotChoice (hr : Relays s t) : Relays s (slotChoice t) := by
  unfold Machine.slotChoice
  split
  · exact hr.chooseSlots 4
  · exact hr

theorem slotChoice_oven (s : State) (n : Nat) : (slotChoice s).oven n = s.oven n := by
  rw [State.oven, (Relays.refl (s := s)).slotChoice.ovens]
  rfl

/-! ### The restored record told (R44, R115, R116) -/

/-- R116: the notice of a state of DUE or RESIDUE that stands. -/
def standingNoticed (n : Nat) (h : Hygiene) (s : State) : State :=
  if h.state = .due ∨ h.state = .residue then
    raise .hygiene n (le 1 (if h.state = .due then 0 else 1) ++ le 1 h.state.code ++ le 2 h.soil ++ [0, 0]) s
  else s

theorem raiseStanding_noticed (hh : s.hygiene n = some h) : raiseStanding n s = standingNoticed n h s := by
  have zeros : ∀ i, hygieneDetail i h 0 0 = le 1 i ++ le 1 h.state.code ++ le 2 h.soil ++ [0, 0] := fun i => by
    rw [hygieneDetail, List.append_assoc _ (le 1 0)]
    rfl
  rw [raiseStanding_of hh, standingNoticed, zeros, zeros]
  by_cases due : h.state = .due
  · rw [if_pos due, if_pos due, if_pos (.inl due)]
  · rw [if_neg due, if_neg due]
    by_cases res : h.state = .residue
    · rw [if_pos res, if_pos (.inr res)]
    · rw [if_neg res, if_neg (not_or.2 ⟨due, res⟩)]

theorem standingNoticed_setOven (m : Nat) (o : Oven) :
    standingNoticed n h (s.setOven m o) = (standingNoticed n h s).setOven m o := by
  unfold standingNoticed
  split
  · exact raise_setOven _ _ _ _ _ _
  · rfl

theorem standingNoticed_settled (hs : s.Settled) : (standingNoticed n h s).Settled := by
  unfold standingNoticed
  split
  · exact raise_settled _ _ _ hs
  · exact hs

/-- R44: the record, with its hygiene part and locks, as it is told and noticed. -/
def restoredTold (base : State) (n : Nat) (o : Oven) (h : Hygiene) : State :=
  deliver (ovenFrame .registry n (.lockState o.locks)) (standingNoticed n h (deliver (hygieneFrame base n h) (base.setOven n o)))

theorem restoredTold_keeps : (restoredTold base n o h).ovens = (base.setOven n o).ovens ∧
    (restoredTold base n o h).campaigns = base.campaigns ∧ (restoredTold base n o h).loaded = base.loaded ∧
    (restoredTold base n o h).recipes = base.recipes := by
  unfold restoredTold standingNoticed
  split_ifs <;> simp

theorem rearmed_congr (hc : t.clock = s.clock) (h : Hygiene) : rearmed t h = rearmed s h := by
  unfold rearmed State.point
  rw [hc]

theorem restoredHygiene_congr (hc : t.clock = s.clock) (r : RestoreRecord) : restoredHygiene t r = restoredHygiene s r := by
  unfold restoredHygiene
  rw [hc]

theorem restoreHygiene_eq (hs : base.Settled) (hn : isSlot n) (hw : o.state = .inService)
    (part : (rearmed base (restoredHygiene base r).1).restated = h) :
    restoreHygiene n r (base.setOven n o) =
      standingNoticed n h (deliver (hygieneFrame base n h) (base.setOven n { o with hygiene := some h })) := by
  let u := base.setOven n o
  have record : u.oven n = o := State.setOven_oven _ _ _ hn
  have made : createPart n (restoredHygiene u r).1 u = deliver (hygieneFrame base n h) (u.withHygiene n h) := by
    rw [createPart_eq (s := u) hs hn (.inl (by rw [record]; exact hw))]
    subst part
    rfl
  have joined : u.withHygiene n h = base.setOven n { o with hygiene := some h } := by
    show State.setOven u n { u.oven n with hygiene := some h } = _
    rw [record, State.setOven_setOven]
  have found : (deliver (hygieneFrame base n h) (u.withHygiene n h)).hygiene n = some h := by
    rw [State.hygiene, deliver_oven]
    exact withHygiene_hygiene hn h
  unfold restoreHygiene
  rw [made, raiseStanding_noticed found, joined]

theorem restored_locks (hn : isSlot n) (hw : o.state = .inService) (hc : base.NoCampaigns) (ht : base.NoTickets n)
    (u : State) (hu : u = standingNoticed n h (deliver (hygieneFrame base n h) (base.setOven n o))) :
    recordLocks n (u.lockView n) u = restoredTold base n { o with locks := { manual := o.manualLock } } h := by
  have record : u.oven n = o := by
    have ovens : u.ovens = (base.setOven n o).ovens := by
      subst hu
      unfold standingNoticed
      split_ifs <;> simp
    rw [State.oven, ovens]
    exact State.setOven_oven _ _ _ hn
  have tickets : u.tickets = base.tickets := by
    subst hu
    unfold standingNoticed
    split_ifs <;> simp
  have campaigns : u.NoCampaigns := noCampaigns_congr (s := base) (by
    subst hu
    unfold standingNoticed
    split_ifs <;> simp) hc
  have settled : u.Settled := hu ▸ standingNoticed_settled (deliver_settled _ _)
  have view : u.lockView n = { manual := o.manualLock } := by
    have none : u.tickets.any (fun t => t.oven = n && t.holds && (u.cls t.cls).severity = .lockout) = false := by
      rw [← Bool.not_eq_true, List.any_eq_true]
      rintro ⟨x, hx, k⟩
      rw [Bool.and_eq_true, Bool.and_eq_true, decide_eq_true_eq] at k
      exact ht x (tickets ▸ hx) k.1.1
    rw [State.lockView, none, record, applying_none campaigns]
  rw [view, recordLocks_told settled hn _ (.inl (by rw [record]; exact hw)), record, hu, restoredTold]
  refine congrArg (deliver _) ?_
  rw [← standingNoticed_setOven, ← deliver_setOven, State.setOven_setOven]

/-- R44: the restore, with the record's hygiene part and locks. -/
theorem restore_eq (hb : vacateOthers n serial s = base) (hs : base.Settled) (hn : isSlot n) (hc : base.NoCampaigns)
    (ht : base.NoTickets n) (part : (rearmed base (restoredHygiene base r).1).restated = h)
    (ho : o = { restoredOven s serial r with hygiene := some h, locks := { manual := r.manualLock } }) :
    restore n serial r s = silenceExpiry n (recomputeOne n (restoredTold base n o h)) := by
  unfold restore
  dsimp only
  rw [hb, restoreHygiene_eq (o := restoredOven s serial r) hs hn rfl part,
    restored_locks (o := { restoredOven s serial r with hygiene := some h }) hn rfl hc ht _ rfl, ho]
  rfl

/-! ### The refusals and the record of the serial -/

theorem restoreInUse_iff : s.restoreInUse n serial = true ↔
    ((s.oven n).state ≠ .vacant ∧ ((s.oven n).state ≠ .discovered ∨ (s.oven n).serial ≠ some serial)) ∨
    ∃ k, isSlot k ∧ k ≠ n ∧ (s.oven k).serial = some serial ∧ (s.oven k).state ≠ .vacant ∧ (s.oven k).state ≠ .discovered := by
  simp only [State.restoreInUse, Bool.or_eq_true, Bool.not_eq_true', Bool.or_eq_false_iff, Bool.and_eq_false_iff, decide_eq_false_iff_not,
    List.any_eq_true, Bool.and_eq_true, decide_eq_true_eq, mem_allSlots, ne_eq, and_assoc]

theorem restored_unheard (h : ∀ k, isSlot k → (s.oven k).serial ≠ some serial) :
    s.heardBefore serial = none ∧ vacateOthers n serial s = s := by
  have nobody : ∀ k ∈ allSlots, ¬ ((decide ((s.oven k).state = .discovered) && decide ((s.oven k).serial = some serial)) = true) :=
    fun k hk c => by
      rw [Bool.and_eq_true, decide_eq_true_eq, decide_eq_true_eq] at c
      exact h k ((mem_allSlots k).1 hk) c.2
  refine ⟨?_, ?_⟩
  · rw [State.heardBefore, List.find?_eq_none.2 nobody]
    rfl
  · have : (allSlots.filter fun k => k ≠ n && (s.oven k).state = .discovered && (s.oven k).serial = some serial) = [] :=
      List.filter_eq_nil_iff.2 fun k hk c => by
        rw [Bool.and_eq_true, decide_eq_true_eq] at c
        exact h k ((mem_allSlots k).1 hk) c.2
    rw [vacateOthers, this]
    rfl

theorem heardBefore_of (hk : isSlot k) (hx : (s.oven k).serial = some serial) (hd : (s.oven k).state = .discovered)
    (only : ∀ j, isSlot j → (s.oven j).serial = some serial → j = k) : s.heardBefore serial = some (s.oven k).lastHeard := by
  have found : allSlots.find? (fun k => (s.oven k).state = .discovered && (s.oven k).serial = some serial) = some k := by
    cases e : allSlots.find? (fun k => (s.oven k).state = .discovered && (s.oven k).serial = some serial) with
    | none =>
      have := List.find?_eq_none.1 e k ((mem_allSlots k).2 hk)
      simp [hx, hd] at this
    | some j =>
      have k' := List.find?_some e
      rw [Bool.and_eq_true, decide_eq_true_eq, decide_eq_true_eq] at k'
      rw [only j ((mem_allSlots j).1 (List.mem_of_find?_eq_some e)) k'.2]
  rw [State.heardBefore, found]
  rfl

theorem allSlots_nodup : allSlots.Nodup := by decide

theorem vacateOthers_here (only : ∀ j, isSlot j → (s.oven j).serial = some serial → j = n) : vacateOthers n serial s = s := by
  have : (allSlots.filter fun k => k ≠ n && (s.oven k).state = .discovered && (s.oven k).serial = some serial) = [] :=
    List.filter_eq_nil_iff.2 fun k hk c => by
      rw [Bool.and_eq_true, Bool.and_eq_true, decide_eq_true_eq, decide_eq_true_eq, decide_eq_true_eq] at c
      exact c.1.1 (only k ((mem_allSlots k).1 hk) c.2)
  rw [vacateOthers, this]
  rfl

/-- R44: the DISCOVERED record of the serial in another slot is made VACANT. -/
theorem vacateOthers_there (hk : isSlot k) (hkn : k ≠ n) (hx : (s.oven k).serial = some serial) (hd : (s.oven k).state = .discovered)
    (only : ∀ j, isSlot j → (s.oven j).serial = some serial → j = k) (ht : s.NoTickets k) :
    vacateOthers n serial s = (s.clearedOf k).setOven k {} := by
  let p := fun k => decide (k ≠ n) && decide ((s.oven k).state = .discovered) && decide ((s.oven k).serial = some serial)
  have one : allSlots.filter p = [k] := by
    refine filter_sole allSlots_nodup ((mem_allSlots k).2 hk) (by simp [p, hkn, hx, hd]) fun j hj hp => ?_
    rw [Bool.and_eq_true, decide_eq_true_eq] at hp
    exact only j ((mem_allSlots j).1 hj) hp.2
  show (allSlots.filter p).foldl (fun s k => vacate k s) s = _
  rw [one]
  exact vacate_untold ht

/-! ### The silence of a record not heard of lately (A67) -/

theorem filled_oven (hn : isSlot n) : (slotChoice (State.built (restoredTold base n o h) n)).oven n = o := by
  rw [slotChoice_oven]
  show vget (restoredTold base n o h).ovens n {} = o
  rw [restoredTold_keeps.1]
  exact State.setOven_oven _ _ _ hn

/-- R44: the loaded set built and the slot choice made. -/
def restoredFilled (base : State) (n : Nat) (o : Oven) (h : Hygiene) : State := slotChoice (State.built (restoredTold base n o h) n)

theorem restoredFilled_clock (base : State) (n : Nat) (o : Oven) (h : Hygiene) : (restoredFilled base n o h).clock = base.clock := by
  have choice := (Moves.refl (s := State.built (restoredTold base n o h) n)).slotChoice.still.clock
  refine choice.trans ?_
  show (restoredTold base n o h).clock = _
  unfold restoredTold standingNoticed
  split_ifs <;> simp

/-- R44, A67: of a record not heard of for ten seconds the silence deadline expires last. -/
theorem silenceExpiry_filled {heard : Option Nat} (hl : base.clock < Config.maxClock) (hn : isSlot n)
    (ho : o.silence = heard.map fun t => min 4294967295 (t + 10)) :
    silenceExpiry n (restoredFilled base n o h) =
      if ∃ t ∈ heard, t + 10 ≤ base.clock then relaySilent n (distributionSilent n
        (raise .ovenPresence n (le 1 1 ++ le 4 o.lastHeard) ((restoredFilled base n o h).setOven n
          { (restoredFilled base n o h).oven n with present := false, silence := none })))
      else restoredFilled base n o h := by
  have clock := restoredFilled_clock base n o h
  have record : (restoredFilled base n o h).oven n = o := filled_oven hn
  have bound : base.clock < 4294967295 := hl
  have not : (∀ t ∈ heard, ¬ t + 10 ≤ base.clock) → silenceExpiry n (restoredFilled base n o h) = restoredFilled base n o h := fun k => by
    refine silenceExpiry_not ?_
    rw [record, ho]
    cases heard with
    | none => rfl
    | some t =>
      have late := k t rfl
      refine decide_eq_false (fun early : min 4294967295 (t + 10) ≤ _ => ?_)
      rw [clock] at early
      omega
  split_ifs with due
  · obtain ⟨t, ht, hd⟩ := due
    rw [Option.mem_def.1 ht, Option.map_some] at ho
    rw [silenceExpiry_due (i := min 4294967295 (t + 10)) (by rw [record]; exact ho) (by rw [clock]; omega), becomeSilent_eq hn]
    exact congrArg (fun k => relaySilent n (distributionSilent n (raise .ovenPresence n (le 1 1 ++ le 4 k)
      ((restoredFilled base n o h).setOven n { (restoredFilled base n o h).oven n with present := false, silence := none }))))
      (congrArg Oven.lastHeard record)
  · exact not fun t ht hd => due ⟨t, ht, hd⟩

theorem restored_filled (hb : vacateOthers n serial s = base) (hs : base.Settled) (hn : isSlot n) (hc : base.NoCampaigns)
    (ht : base.NoTickets n) (hl : base.loadedOf n = []) (hd : (keysOf base.recipes).Nodup)
    (part : (rearmed base (restoredHygiene base r).1).restated = h)
    (ho : o = { restoredOven s serial r with hygiene := some h, locks := { manual := r.manualLock } }) :
    restore n serial r s = silenceExpiry n (restoredFilled base n o h) := by
  obtain ⟨-, -, loaded, recipes⟩ := restoredTold_keeps (base := base) (n := n) (o := o) (h := h)
  rw [restore_eq hb hs hn hc ht part ho, recomputeOne, recompute_built hn (by rw [State.loadedOf, loaded]; exact hl)
    (by rw [recipes]; exact hd)]
  rfl

/-- R44: the answer of a restore that is taken. -/
theorem restore_answers (hv : s.Serves (.ovenRestore n serial r)) (h1 : s.siteOpen = false) (h2 : s.clockUnset = false) (hn : isSlot n)
    (hg : r.group ≤ 7) (hu : s.restoreInUse n serial = false) (e : restore n serial r s = t) :
    exec (.ovenRestore n serial r) s =
      .next (t.reply (if profileClamped r = true ∨ (restoredHygiene s r).2 = true then .clamped else .ok) []) := by
  have act : reqOvenRestore n serial r s = okClamped (profileClamped r || (restoredHygiene s r).2) t := by
    subst e
    refine (if_neg (by rw [h1]; decide)).trans ((if_neg (by rw [h2]; decide)).trans ((if_neg ?_).trans (if_neg (by rw [hu]; decide))))
    exact not_or.2 ⟨not_not.2 hn, Nat.not_lt.2 hg⟩
  rw [okClamped_eq (c := ¬ (profileClamped r = true ∨ (restoredHygiene s r).2 = true)) (by rw [not_not, Bool.or_eq_true])] at act
  refine (request_moved hv act (Moves.refl.reqOvenRestore n serial r)).trans ?_
  by_cases c : profileClamped r = true ∨ (restoredHygiene s r).2 = true
  · rw [if_pos c, if_neg (not_not.2 c)]
  · rw [if_neg c, if_pos c]

theorem restoreInUse_false (hv : (s.oven n).state = .vacant ∨ ((s.oven n).state = .discovered ∧ (s.oven n).serial = some serial))
    (others : ∀ j, isSlot j → j ≠ n → (s.oven j).serial = some serial → (s.oven j).state = .discovered) :
    s.restoreInUse n serial = false := by
  rw [← Bool.not_eq_true, restoreInUse_iff]
  rintro (⟨a, b⟩ | ⟨j, hj, hjn, hx, -, hd⟩)
  · rcases hv with v | ⟨d, x⟩
    · exact a v
    · exact b.elim (fun k => k d) fun k => k x
  · exact hd (others j hj hjn hx)

/-- Settles O37. -/
theorem ovenRestoreRecreatesTheOven : Obligations.OvenRestoreRecreatesTheOven := by
  intro s n serial r hv
  have free : ∀ {u : Bool}, u = false → ¬ u = true := fun h => by rw [h]; decide
  have range : isSlot n → r.group ≤ 7 → ¬ (¬ isSlot n ∨ 7 < r.group) := fun hn hg => not_or.2 ⟨not_not.2 hn, Nat.not_lt.2 hg⟩
  have used : s.siteOpen = false → s.clockUnset = false → isSlot n → r.group ≤ 7 → s.restoreInUse n serial = true →
      exec (.ovenRestore n serial r) s = .next (s.reply .inUse []) := fun h1 h2 hn hg hu =>
    request_refuses hv ((if_neg (free h1)).trans ((if_neg (free h2)).trans ((if_neg (range hn hg)).trans (if_pos hu))))
  refine ⟨fun h => request_refuses hv (if_pos h), fun h1 h2 => request_refuses hv ((if_neg (free h1)).trans (if_pos h2)),
    fun h1 h2 h => ?_, fun h1 h2 hn hg a b => used h1 h2 hn hg (restoreInUse_iff.2 (.inl ⟨a, b⟩)),
    fun h1 h2 hn hg a => used h1 h2 hn hg (restoreInUse_iff.2 (.inr a)),
    fun h1 h2 hn hg hx unheld hs hc ht ho hl ha => ?_, fun base heard h1 h2 hn hg source hs hc ht hl distinct => ?_⟩
  · refine request_refuses hv ((if_neg (free h1)).trans ((if_neg (free h2)).trans (if_pos ?_)))
    rcases h with a | a | a
    · exact .inl fun k => absurd k.1 (Nat.not_le.2 a)
    · exact .inl fun k => absurd k.2 (Nat.not_le.2 a)
    · exact .inr a
  · intro h0 h locks o told noticed
    have nobody : ∀ k, isSlot k → (s.oven k).serial ≠ some serial := fun k _ => unheld k
    obtain ⟨heard, vacated⟩ := restored_unheard (n := n) nobody
    have record : o = { restoredOven s serial r with hygiene := some h, locks := locks } := by
      rw [restoredOven, heard]
      rfl
    have loaded := (restoredTold_keeps (base := s) (n := n) (o := o) (h := h)).2.2.1
    have calm : (restoredTold s n o h).NoWants n := noWants_of_inactive fun x hx => ha x (by
      rw [restoredTold_keeps.2.2.2] at hx
      exact hx)
    have sets : (restoredTold s n o h).loadedOf n = [] := by rw [State.loadedOf, loaded]; exact hl
    have quiet : recomputeOne n (restoredTold s n o h) = restoredTold s n o h := by
      rw [recomputeOne, recompute_empty calm sets]
      exact slotChoice_noOffers (s := restoredTold s n o h) (ho.congr loaded)
    have unheard : silenceExpiry n (restoredTold s n o h) = restoredTold s n o h := silenceExpiry_not (by
      have ovens : (restoredTold s n o h).oven n = o := by
        rw [State.oven, restoredTold_keeps.1]
        exact State.setOven_oven _ _ _ hn
      rw [ovens]
      rfl)
    have done := restore_eq vacated hs hn hc ht (r := r) (h := h) (o := o) rfl record
    rw [quiet, unheard] at done
    exact restore_answers hv h1 h2 hn hg
      (restoreInUse_false (.inl hx) fun j hj _ x => absurd x (nobody j hj)) done
  · intro h locks o told noticed filled
    have finish : vacateOthers n serial s = base → s.heardBefore serial = heard → base.Settled → base.NoCampaigns → base.NoTickets n →
        base.loadedOf n = [] → base.recipes = s.recipes → base.clock = s.clock → s.restoreInUse n serial = false →
        exec (.ovenRestore n serial r) s = .next (State.reply
          (if ∃ t ∈ heard, t + 10 ≤ s.clock then relaySilent n (distributionSilent n
            (raise .ovenPresence n (le 1 1 ++ le 4 o.lastHeard)
              (filled.setOven n { filled.oven n with present := false, silence := none })))
          else filled)
          (if profileClamped r = true ∨ (restoredHygiene s r).2 = true then .clamped else .ok) []) := by
      intro vacated before bs bc bt bl br clk unused
      have part : (rearmed base (restoredHygiene base r).1).restated = h := by
        rw [restoredHygiene_congr clk, rearmed_congr clk]
      have record : o = { restoredOven s serial r with hygiene := some h, locks := locks } := by
        rw [restoredOven, before]
        rfl
      have same : restoredFilled base n o h = filled := by
        have frame : hygieneFrame base n h = hygieneFrame s n h := by simp only [hygieneFrame, clk]
        unfold restoredFilled restoredTold
        rw [frame]
        rfl
      have done := restored_filled vacated bs hn bc bt bl (br ▸ distinct) part record
      rw [silenceExpiry_filled (clk ▸ hv.1.2) hn rfl, same, clk] at done
      exact restore_answers hv h1 h2 hn hg unused done
    rcases source with ⟨vacant, nobody, rfl, rfl⟩ | ⟨k, hk, kx, kd, only, rfl, ⟨rfl, rfl⟩ | ⟨kn, vacant, kt, rfl⟩⟩
    · obtain ⟨before, vacated⟩ := restored_unheard (n := n) nobody
      exact finish vacated before hs hc ht hl rfl rfl (restoreInUse_false (.inl vacant) fun j hj _ x => absurd x (nobody j hj))
    · exact finish (vacateOthers_here only) (heardBefore_of hk kx kd only) hs hc ht hl rfl rfl
        (restoreInUse_false (.inr ⟨kd, kx⟩) fun j hj jn x => absurd (only j hj x) jn)
    · have settled : ((s.clearedOf k).setOven k {}).Settled :=
        ((Moves.refl (s := s)).withdraw .urgent .registry (registryFrame k) |>.withdraw .answer .registry (registryFrame k)).settled hs
      exact finish (vacateOthers_there hk kn kx kd only kt) (heardBefore_of hk kx kd only) settled hc ht hl rfl rfl
        (restoreInUse_false (.inl vacant) fun j hj _ x => by rw [only j hj x]; exact kd)

end Sys2Proof.Machine
end

section
/-! PROOF. OVEN_SET (R41): the group and the loaded set (R69, R70), the offsets and the content (R83), the thresholds (R112). -/

namespace Sys2Proof.Machine

set_option Elab.async false

variable {s t : State} {n : Nat} {e : Entry} {r : Recipe} {h : Hygiene}

/-! ### Where the slot choice finds nothing (R77) -/

/-- R77: the one oven that holds entries is SILENT, or every slot is bound. -/
theorem slotChoice_idle (h : (s.oven n).present = false ∨ (∀ k, 1 ≤ k → k ≤ 4 → (s.distSlot k).isSome = true))
    (others : ∀ m, m ≠ n → s.loadedOf m = []) : slotChoice s = s := by
  rcases h with silent | full
  · refine slotChoice_none fun m => ?_
    by_cases k : m = n
    · subst k
      simp [State.slotQualifies, silent]
    · simp [State.slotQualifies, State.oldestPending, others m k]
  · exact slotChoice_full full

/-! ### The parts of an OVEN_SET -/

/-- R41 step 2: the record with its offsets set, clamped. -/
def Oven.offset (o : Oven) (cavity humidity : Option Int) : Oven := { o with
  cavity := (cavity.map fun c => max (-15) (min 15 c)).getD o.cavity
  humidity := (humidity.map fun c => max (-10) (min 10 c)).getD o.humidity }

theorem setOffsets_eq (n : Nat) (cavity humidity : Option Int) (s : State) : setOffsets n cavity humidity s =
    if (s.oven n).offset cavity humidity = s.oven n then s
    else offsetsChanged n (s.oven n) (s.setOven n ((s.oven n).offset cavity humidity)) := rfl

theorem setOffsets_none (n : Nat) (s : State) : setOffsets n none none s = s := if_pos rfl

theorem setThresholds_none (n : Nat) (s : State) : setThresholds n { advise := none, lock := none, interval := none } s = s :=
  if_pos ⟨rfl, rfl, rfl⟩

theorem clamped_iff {a b : Int} (hab : a ≤ b) (x : Option Int) :
    x.any (fun c => decide (clampInt a b c ≠ c)) = true ↔ ¬ ∀ c ∈ x, a ≤ c ∧ c ≤ b := by
  cases x with
  | none => simp
  | some c =>
    show decide (max a (min b c) ≠ c) = true ↔ _
    rw [decide_eq_true_eq]
    simp only [Option.mem_some_iff, forall_eq']
    omega

/-- R41, R112: CLAMPED is answered where an offset or a threshold given does not fit. -/
theorem setClamped_iff (o : Oven) (cavity humidity : Option Int) (x : Thresholds) : setClamped o cavity humidity x = true ↔
    ¬ ((∀ c ∈ cavity, -15 ≤ c ∧ c ≤ 15) ∧ (∀ c ∈ humidity, -10 ≤ c ∧ c ≤ 10) ∧
      ∀ h ∈ o.hygiene, (formSettings x h.settings).2 = false) := by
  unfold setClamped
  rw [Bool.or_eq_true, Bool.or_eq_true, not_and_or, not_and_or, or_assoc]
  refine or_congr (clamped_iff (by decide) cavity) (or_congr (clamped_iff (by decide) humidity) ?_)
  cases o.hygiene with
  | none => simp
  | some h => simp

/-- R112: settings that stand within their ranges are left as they are where none is given. -/
theorem formSettings_none {x : Settings} (h : 1000 ≤ x.lock ∧ x.lock ≤ 65535 ∧ x.advise < x.lock ∧ 240 ≤ x.interval ∧ x.interval ≤ 2880) :
    (formSettings { advise := none, lock := none, interval := none } x).2 = false := by
  obtain ⟨l1, l2, a, i1, i2⟩ := h
  rw [← Bool.not_eq_true]
  refine fun k => (formSettings_snd _ _).1 k ?_
  rw [formSettings_fst]
  simp only [Option.getD_none]
  omega

theorem group_fits {g : Option Nat} (hg : ∀ y ∈ g, y ≤ 7) : ¬ g.any (fun y => decide (7 < y)) = true := by
  cases g with
  | none => simp
  | some y => simpa using hg y rfl

/-- R41: the answer of an OVEN_SET that is taken. -/
theorem ovenSet_answers {g : Option Nat} {cavity humidity : Option Int} {x : Thresholds} {c : Prop} [Decidable c]
    (hv : s.Serves (.ovenSet n g cavity humidity x)) (hg : ∀ y ∈ g, y ≤ 7) (hn : isSlot n) (hw : (s.oven n).state = .inService)
    (hc : setClamped (s.oven n) cavity humidity x = true ↔ ¬ c)
    (e : setThresholds n x (setOffsets n cavity humidity (setGroup n g s)) = t) :
    exec (.ovenSet n g cavity humidity x) s = .next (t.reply (if c then .ok else .clamped) []) := by
  have range := group_fits hg
  have act : reqOvenSet n g cavity humidity x s = ({ status := if c then .ok else .clamped, body := [] }, t) := by
    refine (if_neg range).trans ((onService_of hn hw).trans ?_)
    rw [e]
    exact okClamped_eq hc t
  exact request_moved hv act (Moves.refl.reqOvenSet n g cavity humidity x)

/-! ### An empty loaded set -/

theorem setGroup_empty {g : Option Nat} (hn : isSlot n) (hl : s.loadedOf n = []) (ho : s.NoOffers) (ha : ∀ r ∈ s.recipes, r.state ≠ .active) :
    setGroup n g s = s.setOven n { s.oven n with group := g.getD (s.oven n).group } := by
  cases g with
  | none => exact (setOven_same hn).symm
  | some g =>
    unfold setGroup
    dsimp only
    split_ifs with k
    · rw [Option.getD_some, ← k]
      exact (setOven_same hn).symm
    · have calm : (s.setOven n { s.oven n with group := g }).NoWants n := noWants_of_inactive ha
      show recomputeOne n (s.setOven n { s.oven n with group := g }) = _
      rw [recomputeOne, recompute_empty calm hl]
      exact slotChoice_noOffers ho

theorem setOffsets_empty (cavity humidity : Option Int) (hn : isSlot n) (hl : s.loadedOf n = []) (ho : s.NoOffers) :
    setOffsets n cavity humidity s = s.setOven n ((s.oven n).offset cavity humidity) := by
  rw [setOffsets_eq]
  split_ifs with k
  · rw [k, setOven_same hn]
  · have sets : (s.setOven n ((s.oven n).offset cavity humidity)).loadedOf n = [] := hl
    rw [offsetsChanged, sets, List.filter_nil, List.foldl_nil]
    exact slotChoice_noOffers ho

/-- R41: of an oven that holds nothing the group and the offsets are recorded. -/
theorem setRecord_empty {g : Option Nat} (cavity humidity : Option Int) (hn : isSlot n) (hl : s.loadedOf n = []) (ho : s.NoOffers)
    (ha : ∀ r ∈ s.recipes, r.state ≠ .active) : setOffsets n cavity humidity (setGroup n g s) =
      s.setOven n ({ s.oven n with group := g.getD (s.oven n).group }.offset cavity humidity) := by
  rw [setGroup_empty hn hl ho ha, setOffsets_empty (s := s.setOven n _) cavity humidity hn hl ho, State.setOven_oven _ _ _ hn,
    State.setOven_setOven]

/-! ### The thresholds (R112 to R116) -/

/-- R112, R113: a hygiene part with the settings given; a changed interval rearms its points. -/
def resettled (s : State) (x : Thresholds) (h : Hygiene) : Hygiene :=
  let formed := (formSettings x h.settings).1
  if formed.interval = h.settings.interval then { h with settings := formed } else rearmed s { h with settings := formed }

theorem setThresholds_some {x : Thresholds} (hx : x.advise.isSome = true ∨ x.lock.isSome = true ∨ x.interval.isSome = true) :
    setThresholds n x s = reevaluate n (s.modHygiene n (resettled s x)) := by
  refine if_neg ?_
  rintro ⟨a, b, c⟩
  rw [Option.isNone_iff_eq_none] at a b c
  simp [a, b, c] at hx

theorem resettled_eq (s : State) (x : Thresholds) (h : Hygiene) :
    let lock := max 1000 (min 65535 (x.lock.getD h.settings.lock))
    let interval := max 240 (min 2880 (x.interval.getD h.settings.interval))
    let instant := min 4294967295 (h.lastFull + interval * 60)
    resettled s x h = { h with
      settings := { advise := min (lock - 1) (x.advise.getD h.settings.advise), lock := lock, interval := interval }
      deadline := if interval = h.settings.interval then h.deadline else pointAt s instant
      advance := if interval = h.settings.interval then h.advance else pointAt s (instant - 7200) } := by
  intro lock interval instant
  unfold resettled
  rw [formSettings_fst]
  dsimp only
  by_cases k : interval = h.settings.interval
  · rw [if_pos k, if_pos k, if_pos k]
  · rw [if_neg k, if_neg k, if_neg k]
    rfl

/-! ### A set of one entry (R83) -/

theorem offsetsChanged_sole (hl : s.loadedOf n = [e]) (hr : s.recipe e.number e.version = some r) (old : Oven) :
    offsetsChanged n old s =
      slotChoice (if contentOf old r ≠ contentOf (s.oven n) r then contentChanged n s e else s) := by
  unfold offsetsChanged
  dsimp only
  rw [hl]
  by_cases k : contentOf old r = contentOf (s.oven n) r
  · rw [if_neg (not_not.2 k), List.filter_cons_of_neg (by simp [hr, k])]
    rfl
  · rw [if_pos k, List.filter_cons_of_pos (by simp [hr, k])]
    rfl

theorem contentChanged_held (hl : s.loadedOf n = [e]) (hs : e.state = .loaded ∨ e.state = .failed) :
    contentChanged n s e = s.setLoaded n [{ e with state := .pending, retries := 0 }] := by
  have moved : s.modEntry n e.number e.version (fun e => { e with state := .pending, retries := 0 }) =
      s.setLoaded n [{ e with state := .pending, retries := 0 }] :=
    ((holds_sole hl).modEntry _).trans (withEntry_sole hl _)
  unfold contentChanged
  rcases hs with k | k
  · simp only [k]
    exact moved
  · simp only [k]
    exact moved

theorem contentChanged_other (h1 : e.state ≠ .loaded) (h2 : e.state ≠ .failed) (h3 : e.state ≠ .offered) (h4 : e.state ≠ .sending) :
    contentChanged n s e = s := by
  unfold contentChanged
  cases k : e.state with
  | loaded => exact absurd k h1
  | failed => exact absurd k h2
  | offered => exact absurd k h3
  | sending => exact absurd k h4
  | pending => rfl
  | stale => rfl
  | unloading => rfl

/-- R80, R83: the transfer ends with DISCARD, and the entry returns to PENDING. -/
theorem contentChanged_transfer {k : Nat} (hl : s.loadedOf n = [e]) (ht : e.state.inTransfer = true) (hb : s.boundSlot n = some k)
    (hs : s.Settled) : contentChanged n s e =
      State.setLoaded (deliver (ovenFrame .distribution n (.discard e.number e.version)) ((s.withoutSegments k).setDistSlot k none)) n
        [{ e with state := .pending, retries := 0, deadline := none }] := by
  let f := ovenFrame .distribution n (.discard e.number e.version)
  let e' : Entry := { e with deadline := none }
  have slot : isSlot n := slot_of_entry (hl ▸ List.mem_singleton_self e)
  have settled : ((s.freed n).setLoaded n [e']).Settled := freed_settled (n := n) hs
  have ended : placeDiscard n e.number e.version (endTransfer n s) = (deliver f (s.freed n)).setLoaded n [e'] := by
    rw [endTransfer_sole hl ht, placeDiscard, placeFor_eq_deliver settled, deliver_setLoaded]
  have sets : ((deliver f (s.freed n)).setLoaded n [e']).loadedOf n = [e'] := State.setLoaded_loadedOf _ _ _ slot
  have moved : ((deliver f (s.freed n)).setLoaded n [e']).modEntry n e.number e.version (fun e => { e with state := .pending, retries := 0 }) =
      (deliver f (s.freed n)).setLoaded n [{ e' with state := .pending, retries := 0 }] :=
    (State.Holds.modEntry (e := e') (holds_sole sets) _).trans
      ((withEntry_sole sets _).trans (setLoaded_setLoaded (s := deliver f (s.freed n)) _ _))
  rw [← ended, freed_of hb] at moved
  unfold contentChanged
  rcases (inTransfer_true _).1 ht with j | j
  · simp only [j]
    exact moved
  · simp only [j]
    exact moved

/-! ### The obligation -/

/-- Settles O35. -/
theorem ovenSetRecordsWhatIsGiven : Obligations.OvenSetRecordsWhatIsGiven := by
  refine ⟨fun s n g cavity humidity x hv => ?_, fun s n g cavity humidity x h hv hg hn hw hh hl ho ha hx => ?_,
    fun s n cavity humidity e r hv hn hw hl h1 h2 hr idle fits others => ?_,
    fun s n k cavity humidity e r hv hn hw hl ht hb hr hs fits => ?_, fun s n g hv hn hg hne hw hs distinct fits => ?_⟩
  · have range : (∀ y ∈ g, y ≤ 7) → ¬ g.any (fun y => decide (7 < y)) = true := group_fits
    refine ⟨fun a => ?_, fun hn hg a => ?_, fun hn hg a b => ?_⟩
    · by_cases fits : ∀ y ∈ g, y ≤ 7
      · refine request_refuses hv ((if_neg (range fits)).trans (onService_range fun hn => ?_))
        rcases a with low | high | ⟨y, hy, ky⟩
        · exact absurd hn.1 (Nat.not_le.2 low)
        · exact absurd hn.2 (Nat.not_le.2 high)
        · exact absurd (fits y hy) (Nat.not_le.2 ky)
      · refine request_refuses hv (if_pos ?_)
        by_contra k
        refine fits fun y hy => Nat.not_lt.1 fun ky => k ?_
        rw [Option.mem_def.1 hy]
        exact decide_eq_true ky
    · exact request_refuses hv ((if_neg (range hg)).trans (onService_vacant hn a))
    · exact request_refuses hv ((if_neg (range hg)).trans (onService_other hn a b))
  · intro lock advise interval instant point h' fit recorded told
    let o : Oven := { s.oven n with group := g.getD (s.oven n).group }.offset cavity humidity
    let w := s.setOven n o
    have record : w.oven n = o := State.setOven_oven _ _ _ hn
    have part : w.hygiene n = some h := (congrArg Oven.hygiene record).trans hh
    have service : w.inService n := .inl ((congrArg Oven.state record).trans hw)
    have formed : resettled w x h = h' := resettled_eq w x h
    have joined : ∀ y, w.withHygiene n y = recorded y := fun y => by
      show State.setOven w n { w.oven n with hygiene := some y } = _
      rw [record]
      exact State.setOven_setOven _ _ _ _
    have moved : setThresholds n x (setOffsets n cavity humidity (setGroup n g s)) = reevaluate n (w.modHygiene n (resettled w x)) := by
      rw [setRecord_empty cavity humidity hn hl ho ha]
      exact setThresholds_some hx
    have clamps : setClamped (s.oven n) cavity humidity x = true ↔ ¬ fit := by
      have settings : (formSettings x h.settings).2 = false ↔ lock = x.lock.getD h.settings.lock ∧
          advise = x.advise.getD h.settings.advise ∧ interval = x.interval.getD h.settings.interval := by
        have k := formSettings_snd x h.settings
        rw [formSettings_fst] at k
        rw [← Bool.not_eq_true]
        exact (not_congr k).trans not_not
      rw [setClamped_iff, hh]
      simp only [Option.mem_some_iff, forall_eq', settings]
      exact Iff.rfl
    refine ⟨fun same => ?_, fun moves hs hc => ?_⟩
    · refine ovenSet_answers hv hg hn hw clamps (moved.trans ?_)
      rw [modHygiene_eq part, formed, joined]
      refine reevaluate_same (h := h') ?_ same
      rw [← joined]
      exact withHygiene_hygiene hn h'
    · refine ovenSet_answers hv hg hn hw clamps (moved.trans ?_)
      have again := reevaluate_modHygiene (s := w) hs service part (f := resettled w x)
        (by rw [formed]) fun _ => hc
      rw [formed] at again
      refine again.trans ?_
      unfold judgedAgain
      rw [if_neg moves, joined]
      rfl
  · intro o fit
    have clamps : setClamped (s.oven n) cavity humidity { advise := none, lock := none, interval := none } = true ↔ ¬ fit := by
      rw [setClamped_iff]
      exact not_congr ⟨fun k => ⟨k.1, k.2.1⟩, fun k => ⟨k.1, k.2, fun h hh => formSettings_none (fits h hh)⟩⟩
    refine ovenSet_answers hv (fun y hy => by cases hy) hn hw clamps ?_
    show setThresholds n _ (setOffsets n cavity humidity s) = _
    rw [setThresholds_none, setOffsets_eq]
    have record : (s.setOven n o).oven n = o := State.setOven_oven _ _ _ hn
    have calm : ∀ l, slotChoice ((s.setOven n o).setLoaded n l) = (s.setOven n o).setLoaded n l := fun l => by
      refine slotChoice_idle (n := n) ?_ fun m hm => (State.setLoaded_loadedOf_ne _ _ _ _ hm).trans (others m hm)
      exact idle.imp (fun k => (congrArg Oven.present record).trans k) id
    have calm' : slotChoice (s.setOven n o) = s.setOven n o := by
      have := calm ((s.setOven n o).loadedOf n)
      rwa [setLoaded_same hn] at this
    by_cases same : (s.oven n).offset cavity humidity = s.oven n
    · have same' : o = s.oven n := same
      rw [if_pos same, same', if_neg fun k => k.1 rfl, setOven_same hn]
    · rw [if_neg same]
      show offsetsChanged n (s.oven n) (s.setOven n o) = _
      rw [offsetsChanged_sole (s := s.setOven n o) hl hr, record]
      by_cases content : contentOf (s.oven n) r = contentOf o r
      · rw [if_neg (not_not.2 content), if_neg fun k => k.1 content, calm']
      · rw [if_pos content]
        by_cases held : e.state = .loaded ∨ e.state = .failed
        · rw [if_pos ⟨content, held⟩, contentChanged_held (s := s.setOven n o) hl held]
          exact calm _
        · rw [if_neg fun k => held k.2, contentChanged_other (fun k => held (.inl k)) (fun k => held (.inr k)) h1 h2, calm']
  · intro o fit changed
    have clamps : setClamped (s.oven n) cavity humidity { advise := none, lock := none, interval := none } = true ↔ ¬ fit := by
      rw [setClamped_iff]
      exact not_congr ⟨fun k => ⟨k.1, k.2.1⟩, fun k => ⟨k.1, k.2, fun h hh => formSettings_none (fits h hh)⟩⟩
    refine ovenSet_answers hv (fun y hy => by cases hy) hn hw clamps ?_
    show setThresholds n _ (setOffsets n cavity humidity s) = _
    have record : (s.setOven n o).oven n = o := State.setOven_oven _ _ _ hn
    have moves : ¬ (s.oven n).offset cavity humidity = s.oven n := fun k => changed (congrArg (contentOf · r) (k.symm : s.oven n = o))
    rw [setThresholds_none, setOffsets_eq, if_neg moves]
    show offsetsChanged n (s.oven n) (s.setOven n o) = _
    rw [offsetsChanged_sole (s := s.setOven n o) hl hr, record, if_pos changed,
      contentChanged_transfer (s := s.setOven n o) (k := k) hl ((inTransfer_true _).2 ht) hb hs]
  · intro moved
    have answers : ∀ u, recomputeOne n moved = slotChoice u →
        exec (.ovenSet n (some g) none none { advise := none, lock := none, interval := none }) s = .next ((slotChoice u).reply .ok []) := by
      intro u hu
      have clamps : setClamped (s.oven n) none none { advise := none, lock := none, interval := none } = true ↔ ¬ True := by
        rw [setClamped_iff]
        refine not_congr (iff_of_true ⟨fun _ k => (nomatch k), fun _ k => (nomatch k), fun h hh => formSettings_none (fits h hh)⟩ trivial)
      have taken := ovenSet_answers (t := slotChoice u) hv (fun y hy => by rw [Option.mem_some_iff] at hy; omega) hn hw clamps (by
        rw [setThresholds_none, setOffsets_none]
        exact (if_neg fun k => hne k.symm).trans hu)
      rwa [if_pos trivial] at taken
    have record : moved.oven n = { s.oven n with group := g } := State.setOven_oven _ _ _ hn
    refine ⟨fun hl => answers _ ?_, fun e a hl hr only => ⟨fun off => answers _ ?_, fun on stale => answers _ ?_⟩⟩
    · exact congrArg slotChoice (recompute_built hn hl distinct)
    · refine congrArg slotChoice (recompute_sole (s := moved) hl hs fun r hx => ?_)
      by_cases active : r.state = .active
      · rw [only r hx active]
        exact off
      · simp [wants, active]
    · have named := recipe_named hr
      have active : ∀ r ∈ moved.recipes, wants (moved.oven n) r = true → r = a := fun r hx k => by
        refine only r hx ?_
        by_contra j
        simp [wants, j] at k
      refine congrArg slotChoice (recompute_sole_wanted (s := moved) hl ?_ (fun r hx k => ?_) stale)
      · exact List.any_eq_true.2 ⟨a, List.mem_filter.2 ⟨List.mem_of_find?_eq_some hr, on⟩, by simp [named.2]⟩
      · rw [active r hx k]
        exact named.2

end Sys2Proof.Machine
end

section
/-! PROOF. Publication, withdrawal and groups of a recipe (R56 to R63), and the membership that follows (R69 to R72). -/

namespace Sys2Proof.Machine

set_option Elab.async false

variable {s t : State} {n number : Nat} {e : Entry} {r a d : Recipe}

/-! ### The records (R59, R63) -/

/-- R63: a record that is not WITHDRAWING, or to which someone refers, is not freed. -/
theorem freeCheck_same {v : Nat} (h : ∀ r ∈ s.recipes, r.number = number → r.version = v → r.state = .withdrawing → 0 < r.refs) :
    freeCheck number v s = s := by
  have all : s.recipes.filter (fun r => !(r.number = number && r.version = v && r.state = .withdrawing && r.refs = 0)) = s.recipes := by
    refine List.filter_eq_self.2 fun r hr => ?_
    by_contra k
    simp only [Bool.not_eq_true, Bool.not_eq_false', Bool.and_eq_true, decide_eq_true_eq] at k
    have := h r hr k.1.1.1 k.1.1.2 k.1.2
    omega
  rw [freeCheck, all]

/-- R63: after a freeing check none is left to free. -/
theorem freeCheck_leaves {v : Nat} (hr : r ∈ (freeCheck number v s).recipes) (hn : r.number = number) (hv : r.version = v)
    (hw : r.state = .withdrawing) : 0 < r.refs := by
  have k := (List.mem_filter.1 hr).2
  by_contra z
  have zero : r.refs = 0 := by omega
  simp [hn, hv, hw, zero] at k

theorem mem_modRecipe {v : Nat} {f : Recipe → Recipe} {x : Recipe} : x ∈ (s.modRecipe number v f).recipes ↔
    ∃ r ∈ s.recipes, x = if r.number = number ∧ r.version = v then f r else r := by
  show x ∈ s.recipes.map _ ↔ _
  simp only [List.mem_map, Bool.and_eq_true, decide_eq_true_eq, eq_comm (a := x)]

theorem keysOf_modRecipe {v : Nat} {f : Recipe → Recipe} (hf : ∀ r, (f r).number = r.number ∧ (f r).version = r.version) :
    keysOf (s.modRecipe number v f).recipes = keysOf s.recipes := by
  show ((s.recipes.map _).map _) = _
  rw [List.map_map]
  refine List.map_congr_left fun r _ => ?_
  show (Recipe.number (if _ then _ else _), Recipe.version (if _ then _ else _)) = _
  split_ifs
  · rw [(hf r).1, (hf r).2]
  · rfl

/-- Records that agree in number and version are one. -/
theorem record_unique (distinct : (keysOf s.recipes).Nodup) (hr : r ∈ s.recipes) (ha : a ∈ s.recipes) (hn : r.number = a.number)
    (hv : r.version = a.version) : r = a :=
  List.inj_on_of_nodup_map distinct hr ha (by rw [hn, hv])

/-- R69: the recipe fits the oven: its group, its steam, its probe. -/
def fitsOven (o : Oven) (groups : BitVec 8) (f : Figures) : Prop := groups.getLsbD o.group = true ∧
  (f.needsSteam = true → ∃ p ∈ o.profile, p.steam = true) ∧ (f.needsProbe = true → ∃ p ∈ o.profile, p.probe = true)

theorem wants_iff {o : Oven} {f : Figures} (ha : r.state = .active) (hf : r.figures = some f) :
    wants o r = true ↔ fitsOven o r.groups f := by
  unfold wants fitsOven
  rw [hf, ha]
  cases o.profile with
  | none => simp
  | some p => simp [imp_iff_not_or]

theorem wants_active {o : Oven} (h : wants o r = true) : r.state = .active := by
  by_contra k
  simp [wants, k] at h

/-! ### The ovens in service -/

theorem recomputeAll_none (h : ∀ n, (s.oven n).state ≠ .inService) : recomputeAll s = s := by
  have none : allSlots.filter (fun n => decide ((s.oven n).state = .inService)) = [] :=
    List.filter_eq_nil_iff.2 fun n _ k => h n (of_decide_eq_true k)
  rw [recomputeAll, none]
  exact slotChoice_noService h

theorem recomputeAll_one (hn : isSlot n) (hw : (s.oven n).state = .inService) (only : ∀ m, m ≠ n → (s.oven m).state ≠ .inService) :
    recomputeAll s = slotChoice (recompute n s) := by
  have one : allSlots.filter (fun n => decide ((s.oven n).state = .inService)) = [n] :=
    filter_sole allSlots_nodup ((mem_allSlots n).2 hn) (decide_eq_true hw) fun m _ k => by
      by_contra j
      exact only m j (of_decide_eq_true k)
  rw [recomputeAll, one]
  rfl

theorem loaded_ext {v w : Vector (List Entry) 32} (h : ∀ m, isSlot m → vget v m [] = vget w m []) : v = w := by
  refine Vector.ext fun i hi => ?_
  have k := h (i + 1) ⟨by omega, by omega⟩
  simpa [vget, hi] using k

/-- R71: of one loaded set only, with one entry. -/
theorem staleAll_sole {v : Nat} (others : ∀ m, m ≠ n → s.loadedOf m = []) (hl : s.loadedOf n = [e]) (hn : e.number = number)
    (hv : e.version = v) (hs : e.state = .loaded) : staleAll number v s = s.setLoaded n [{ e with state := .stale }] := by
  have slot : isSlot n := slot_of_entry (hl ▸ List.mem_singleton_self e)
  let f : List Entry → List Entry := fun l => l.map fun e => if e.is number v && e.state = .loaded then { e with state := .stale } else e
  have sets : s.loaded.map f = vset s.loaded n [{ e with state := .stale }] := loaded_ext fun m _ => by
    have mapped : vget (s.loaded.map f) m [] = f (s.loadedOf m) := vget_map s.loaded f m []
    rw [mapped]
    by_cases k : m = n
    · subst k
      rw [vget_vset_same _ _ _ _ slot, hl]
      simp [f, Entry.is, hn, hv, hs]
    · rw [vget_vset_ne _ _ _ _ _ k, others m k]
      exact (others m k).symm
  exact congrArg (fun l => { s with loaded := l }) sets

theorem staleAll_none {v : Nat} (h : ∀ m, s.loadedOf m = []) : staleAll number v s = s := by
  let f : List Entry → List Entry := fun l => l.map fun e => if e.is number v && e.state = .loaded then { e with state := .stale } else e
  have sets : s.loaded.map f = s.loaded := loaded_ext fun m _ => by
    have mapped : vget (s.loaded.map f) m [] = f (s.loadedOf m) := vget_map s.loaded f m []
    rw [mapped, h m]
    exact (h m).symm
  exact congrArg (fun l => { s with loaded := l }) sets

/-! ### A version that becomes ACTIVE -/

/-- R59: the draft's record ACTIVE, with its figures. -/
def State.activated (s : State) (d : Recipe) : State :=
  s.modRecipe d.number d.version fun x => { x with state := .active, figures := some (figuresOf d.fat d.steps) }

/-- R59: the ACTIVE record superseded. -/
def State.superseded (s : State) (a : Recipe) : State :=
  s.modRecipe a.number a.version fun x => { x with state := .withdrawing, superseded := true }

theorem publishRecords_none (d : Recipe) : publishRecords d none s = s.activated d := rfl
theorem publishRecords_some (d a : Recipe) : publishRecords d (some a) s = (s.superseded a).activated d := rfl

/-- Where no other record is ACTIVE the version published alone can be wanted. -/
theorem activated_wanted (distinct : (keysOf s.recipes).Nodup) (hd : d ∈ s.recipes) (none : ∀ r ∈ s.recipes, r.state ≠ .active)
    (hr : r ∈ (s.activated d).recipes) {o : Oven} (hw : wants o r = true) :
    r = { d with state := .active, figures := some (figuresOf d.fat d.steps) } := by
  obtain ⟨x, hx, rfl⟩ := mem_modRecipe.1 hr
  have active := wants_active hw
  split_ifs at active ⊢ with k
  · rw [record_unique distinct hx hd k.1 k.2]
  · exact absurd active (none x hx)

theorem activated_mem (hd : d ∈ s.recipes) :
    { d with state := .active, figures := some (figuresOf d.fat d.steps) } ∈ (s.activated d).recipes :=
  mem_modRecipe.2 ⟨d, hd, (if_pos ⟨rfl, rfl⟩).symm⟩

theorem activated_distinct (distinct : (keysOf s.recipes).Nodup) : (keysOf (s.activated d).recipes).Nodup := by
  rw [State.activated, keysOf_modRecipe (by exact fun r => ⟨rfl, rfl⟩)]
  exact distinct

/-- R69, R70: the version published is wanted, and appended. -/
theorem recompute_published (hn : isSlot n) (distinct : (keysOf s.recipes).Nodup) (hd : d ∈ s.recipes)
    (none : ∀ r ∈ s.recipes, r.state ≠ .active) (hw : fitsOven (s.oven n) d.groups (figuresOf d.fat d.steps))
    (room : (s.loadedOf n).length < 64)
    (older : ∀ x ∈ s.loadedOf n, x.state = .stale ∧ x.number = d.number ∧ x.version < d.version) :
    recompute n (s.activated d) = State.setLoaded (addRef d.number d.version (s.activated d)) n
      (s.loadedOf n ++ [{ number := d.number, version := d.version }]) := by
  let u := s.activated d
  let d' : Recipe := { d with state := .active, figures := some (figuresOf d.fat d.steps) }
  let t := State.setLoaded (addRef d.number d.version u) n (s.loadedOf n ++ [{ number := d.number, version := d.version }])
  have wanted : u.wanted n = [d'] :=
    filter_sole ((activated_distinct (d := d) distinct).of_map) (activated_mem hd) ((wants_iff rfl rfl).2 hw) fun r hr k =>
      activated_wanted distinct hd none hr k
  have first : appendWanted n u = t := by
    rw [appendWanted_eq, wanted, List.foldl_cons, List.foldl_nil]
    refine if_pos ⟨entry_isNone.2 fun x hx k => ?_, room⟩
    have := (older x hx).2.2
    exact absurd k.2 (Nat.ne_of_lt this)
  have after : { d' with refs := d'.refs + 1 } ∈ t.wanted n := by
    refine List.mem_filter.2 ⟨mem_modRecipe.2 ⟨d', activated_mem hd, (if_pos ⟨rfl, rfl⟩).symm⟩, ?_⟩
    exact (wants_refs _ _ _).trans ((wants_iff rfl rfl).2 hw)
  refine recompute_of first fun x hx => ?_
  rw [State.setLoaded_loadedOf _ _ _ hn] at hx
  rcases List.mem_append.1 hx with old | new
  · obtain ⟨stale, number, version⟩ := older x old
    unfold judgeEntry
    dsimp only
    rw [stale]
    exact if_pos (List.any_eq_true.2 ⟨_, after, by simp [d', number, version]⟩)
  · rw [List.mem_singleton] at new
    subst new
    exact judgeEntry_wanted (List.any_eq_true.2 ⟨_, after, by simp [d']⟩) (fun k => nomatch (k : EntryState.pending = .loaded))
      (fun k => nomatch (k : EntryState.pending = .stale))

/-- R72: what the one entry becomes does not depend on the entry it replaces. -/
theorem soleUnloads_setLoaded (l : List Entry) : soleUnloads n e (s.setLoaded n l) = soleUnloads n e s := by
  have again : ∀ m, (s.setLoaded n l).setLoaded n m = s.setLoaded n m := fun m => setLoaded_setLoaded l m
  unfold soleUnloads
  rw [deliver_setLoaded]
  have pushed : ∀ m, ((deliver (ovenFrame .distribution n (.unload e.number e.version)) s).setLoaded n l).setLoaded n m =
      (deliver (ovenFrame .distribution n (.unload e.number e.version)) s).setLoaded n m := fun m => setLoaded_setLoaded l m
  rw [again, pushed]
  rfl

theorem slotChoice_recipes (s : State) : (slotChoice s).recipes = s.recipes := (Relays.refl (s := s)).slotChoice.recipes

/-- R59, R63: a record to which someone refers is not freed after the choices. -/
theorem freeCheck_referenced {v : Nat} (h : ∀ r ∈ s.recipes, r.number = number → r.version = v → r.state = .withdrawing → 0 < r.refs) :
    freeCheck number v (slotChoice s) = slotChoice s := freeCheck_same fun r hr => h r (slotChoice_recipes s ▸ hr)

/-- Every record of the version has references. -/
def State.referenced (s : State) (number v : Nat) : Prop := ∀ r ∈ s.recipes, r.number = number → r.version = v → 0 < r.refs

theorem referenced_modRecipe {i j v : Nat} {f : Recipe → Recipe} (h : s.referenced number v)
    (hf : ∀ r, (f r).number = r.number ∧ (f r).version = r.version ∧ r.refs ≤ (f r).refs) : (s.modRecipe i j f).referenced number v := by
  intro r hr
  obtain ⟨x, hx, rfl⟩ := mem_modRecipe.1 hr
  split_ifs
  · rw [(hf x).1, (hf x).2.1]
    exact fun hn hv => Nat.lt_of_lt_of_le (h x hx hn hv) (hf x).2.2
  · exact h x hx

theorem referenced_of (distinct : (keysOf s.recipes).Nodup) (ha : a ∈ s.recipes) (refs : 0 < a.refs) : s.referenced a.number a.version :=
  fun _ hr hn hv => record_unique distinct hr ha hn hv ▸ refs

theorem soleUnloads_recipes : (soleUnloads n e s).recipes = s.recipes := by
  unfold soleUnloads
  split
  · rfl
  · exact deliver_keeps_recipes _ _

/-- R62, R63: the version the one entry loses is freed already, or still has references. -/
theorem soleLoses_leaves (refs : s.referenced e.number e.version) : ∀ r ∈ (soleLoses n e s).recipes, r.number = e.number →
    r.version = e.version → r.state = .withdrawing → 0 < r.refs := by
  intro r hr hn hv hw
  have dropped : ∀ {u : State}, r ∈ (dropRef e.number e.version u).recipes → 0 < r.refs := fun hu => freeCheck_leaves hu hn hv hw
  unfold soleLoses at hr
  split at hr
  · exact dropped hr
  · exact dropped hr
  · exact dropped hr
  · exact dropped hr
  · exact refs r (soleUnloads_recipes ▸ hr) hn hv
  · exact refs r (soleUnloads_recipes ▸ hr) hn hv
  · exact refs r hr hn hv

/-! ### The requests -/

/-- R59: the answer of a publication that supersedes none. -/
theorem publish_first (hv : s.Serves (.recipePublish number)) (h1 : 1 ≤ number) (h2 : number ≤ 4095)
    (hd : s.recipeIn number .draft = some d) (hw : s.recipeIn number .withdrawing = none) (hs : d.steps ≠ [])
    (ha : s.recipeIn number .active = none) (e : recomputeAll (s.activated d) = t) : exec (.recipePublish number) s = .next
      (t.reply .ok (le 1 d.version ++ le 1 0 ++ figuresBytes (figuresOf d.fat d.steps))) := by
  have act : reqRecipePublish number s = okWith (le 1 d.version ++ le 1 0 ++ figuresBytes (figuresOf d.fat d.steps)) t := by
    refine (onDraft_of h1 h2 hd).trans ?_
    rw [hw, ha, if_neg (by decide), if_neg hs, ← e]
    rfl
  exact request_moved hv act (Moves.refl.reqRecipePublish number)

/-- R59: the answer of a publication that supersedes the ACTIVE version. -/
theorem publish_next (hv : s.Serves (.recipePublish number)) (h1 : 1 ≤ number) (h2 : number ≤ 4095)
    (hd : s.recipeIn number .draft = some d) (hw : s.recipeIn number .withdrawing = none) (hs : d.steps ≠ [])
    (ha : s.recipeIn number .active = some a)
    (e : freeCheck a.number a.version (recomputeAll (staleAll a.number a.version ((s.superseded a).activated d))) = t) :
    exec (.recipePublish number) s = .next
      (t.reply .ok (le 1 d.version ++ le 1 a.version ++ figuresBytes (figuresOf d.fat d.steps))) := by
  have act : reqRecipePublish number s = okWith (le 1 d.version ++ le 1 a.version ++ figuresBytes (figuresOf d.fat d.steps)) t := by
    refine (onDraft_of h1 h2 hd).trans ?_
    rw [hw, ha, if_neg (by decide), if_neg hs, ← e]
    rfl
  exact request_moved hv act (Moves.refl.reqRecipePublish number)

/-- R60: the record withdrawn outright. -/
def State.withdrawn1 (s : State) (a : Recipe) : State :=
  s.modRecipe a.number a.version fun x => { x with state := .withdrawing, superseded := false }

theorem withdraw_answers (hv : s.Serves (.recipeWithdraw number)) (h1 : 1 ≤ number) (h2 : number ≤ 4095)
    (ha : s.recipeIn number .active = some a) (hw : s.recipeIn number .withdrawing = none)
    (e : freeCheck a.number a.version (recomputeAll (s.withdrawn1 a)) = t) :
    exec (.recipeWithdraw number) s = .next (t.reply .ok []) := by
  have act : reqRecipeWithdraw number s = ok t := by
    unfold reqRecipeWithdraw
    rw [if_neg (not_not.2 ⟨h1, h2⟩), ha]
    dsimp only
    rw [hw, if_neg (by decide), ← e]
    rfl
  exact request_moved hv act (Moves.refl.reqRecipeWithdraw number)

theorem setGroups_eq (number groups : Nat) (s : State) : setGroups number groups s = { s with recipes := s.recipes.map fun r =>
    if r.number = number ∧ r.state ≠ .withdrawing then { r with groups := BitVec.ofNat 8 groups } else r } := by
  unfold setGroups
  refine congrArg (fun l => { s with recipes := l }) (List.map_congr_left fun r _ => ?_)
  by_cases k : r.number = number ∧ r.state ≠ .withdrawing
  · rw [if_pos k, if_pos (by simpa using k)]
  · rw [if_neg k, if_neg (by simpa using k)]

/-- R61: the answer of a RECIPE_GROUPS that is taken. -/
theorem groups_answers {groups : Nat} (hv : s.Serves (.recipeGroups number groups)) (h1 : 1 ≤ number) (h2 : number ≤ 4095)
    (h : ¬ (s.recipeIn number .active = none ∧ s.recipeIn number .draft = none))
    (same : (∀ a, s.recipeIn number .active = some a → a.groups = BitVec.ofNat 8 groups) → setGroups number groups s = t)
    (moved : ∀ a, s.recipeIn number .active = some a → a.groups ≠ BitVec.ofNat 8 groups →
      recomputeAll (setGroups number groups s) = t) :
    exec (.recipeGroups number groups) s = .next (t.reply .ok []) := by
  have act : reqRecipeGroups number groups s = ok t := by
    unfold reqRecipeGroups
    rw [if_neg (not_not.2 ⟨h1, h2⟩)]
    cases ha : s.recipeIn number .active with
    | some a =>
      dsimp only
      by_cases k : a.groups = BitVec.ofNat 8 groups
      · rw [if_pos k, same fun b hb => by rw [ha] at hb; cases hb; exact k]
      · rw [if_neg k, moved a ha k]
    | none =>
      cases hd : s.recipeIn number .draft with
      | none => exact absurd ⟨ha, hd⟩ h
      | some d => exact congrArg ok (same fun b hb => by rw [ha] at hb; cases hb)
  exact request_moved hv act (Moves.refl.reqRecipeGroups number groups)

/-- Settles O45. -/
theorem publicationMovesTheRecords : Obligations.PublicationMovesTheRecords := by
  refine ⟨fun s number idle empty h1 h2 => ⟨fun hv => ⟨fun none => ?_, fun d hd => ?_⟩, fun hv => ⟨fun none => ?_, fun a ha => ⟨fun busy => ?_, fun hw => ?_⟩⟩,
    fun groups hv => ?_⟩, fun s n h others => slotChoice_idle h others, fun s number n h1 h2 hn hw only others hs distinct => ?_⟩
  · exact request_refuses hv (onDraft_none h1 h2 none)
  · intro figures
    have named := recipeIn_some hd
    refine ⟨fun busy => ?_, fun hw hs => ?_, fun hw hs ha => ?_, fun a hw hs ha => ?_⟩
    · exact request_refuses hv ((onDraft_of h1 h2 hd).trans (if_pos busy))
    · exact request_refuses hv ((onDraft_of h1 h2 hd).trans ((if_neg (by rw [hw]; decide)).trans (if_pos hs)))
    · refine publish_first hv h1 h2 hd hw hs ha ((recomputeAll_none (s := s.activated d) idle).trans ?_)
      rw [State.activated, named.2.1]
    · refine publish_next hv h1 h2 hd hw hs ha ?_
      rw [staleAll_none (s := (s.superseded a).activated d) empty, recomputeAll_none (s := (s.superseded a).activated d) idle,
        State.activated, State.superseded, named.2.1, (recipeIn_some ha).2.1]
  · refine request_refuses hv ?_
    unfold reqRecipeWithdraw
    rw [if_neg (not_not.2 ⟨h1, h2⟩), none]
  · refine request_refuses hv ?_
    unfold reqRecipeWithdraw
    rw [if_neg (not_not.2 ⟨h1, h2⟩), ha]
    exact if_pos busy
  · refine withdraw_answers hv h1 h2 ha hw ?_
    rw [recomputeAll_none (s := s.withdrawn1 a) idle, State.withdrawn1, (recipeIn_some ha).2.1]
  · by_cases k : s.recipeIn number .active = none ∧ s.recipeIn number .draft = none
    · rw [if_pos k]
      refine request_refuses hv ?_
      unfold reqRecipeGroups
      rw [if_neg (not_not.2 ⟨h1, h2⟩), k.1, k.2]
    · rw [if_neg k]
      refine groups_answers hv h1 h2 k (fun _ => setGroups_eq _ _ _) fun a _ _ => ?_
      exact (recomputeAll_none (s := setGroups number groups s) idle).trans (setGroups_eq _ _ _)
  · intro o fits
    refine ⟨fun d hv hd hsteps hwd => ?_, fun a e ha one hl en ev => ?_⟩
    · intro figures active counted fresh
      obtain ⟨hdm, rfl, hds⟩ := recipeIn_some hd
      refine ⟨fun idle hl fit => ?_, fun a e ha one lt refs hl en ev es => ?_⟩
      · have inactive : s.recipeIn d.number .active = none := List.find?_eq_none.2 fun r hr k => by
          rw [Bool.and_eq_true, decide_eq_true_eq, decide_eq_true_eq] at k
          exact idle r hr k.2
        refine publish_first hv h1 h2 hd hwd hsteps inactive ?_
        rw [recomputeAll_one (s := s.activated d) hn hw only,
          recompute_published hn distinct hdm idle fit (by rw [hl]; decide) (by rw [hl]; exact fun x hx => absurd hx List.not_mem_nil), hl]
        rfl
      · intro superseded
        obtain ⟨ham, an, has⟩ := recipeIn_some ha
        have same : superseded = s.superseded a := by rw [State.superseded, an]
        let e' : Entry := { e with state := .stale }
        let u := (s.superseded a).setLoaded n [e']
        have apart : ¬ (d.number = a.number ∧ d.version = a.version) := fun k => absurd k.2 (Nat.ne_of_gt lt)
        have member : d ∈ u.recipes := mem_modRecipe.2 ⟨d, hdm, (if_neg apart).symm⟩
        have distinct' : (keysOf u.recipes).Nodup := by
          rw [show u.recipes = (s.superseded a).recipes from rfl, State.superseded, keysOf_modRecipe (by exact fun r => ⟨rfl, rfl⟩)]
          exact distinct
        have inactive : ∀ r ∈ u.recipes, r.state ≠ .active := fun r hr => by
          obtain ⟨x, hx, rfl⟩ := mem_modRecipe.1 hr
          split_ifs with k
          · exact fun j => nomatch (j : RecipeState.withdrawing = .active)
          · exact fun j => k (one x hx j ▸ ⟨rfl, rfl⟩)
        have held : s.referenced a.number a.version := referenced_of distinct ham refs
        have kept : (u.activated d).referenced a.number a.version :=
          referenced_modRecipe (s := u) (referenced_modRecipe held fun r => ⟨rfl, rfl, le_rfl⟩) fun r => ⟨rfl, rfl, le_rfl⟩
        have stale : staleAll a.number a.version ((s.superseded a).activated d) = u.activated d :=
          staleAll_sole (s := (s.superseded a).activated d) others hl (en.trans an.symm) ev es
        have sets : u.loadedOf n = [e'] := State.setLoaded_loadedOf _ _ _ hn
        have told : ∀ t, recompute n (u.activated d) = t → t.referenced a.number a.version →
            exec (.recipePublish d.number) s = .next ((slotChoice t).reply .ok
              (le 1 d.version ++ le 1 a.version ++ figuresBytes figures)) := fun t ht refs => by
          refine publish_next hv h1 h2 hd hwd hsteps ha ?_
          rw [stale, recomputeAll_one (s := u.activated d) hn hw only, ht]
          exact freeCheck_referenced fun r hr hn hv _ => refs r hr hn hv
        rw [same]
        refine ⟨fun fit => ?_, fun unfit => ?_⟩
        · refine told _ ?_ (referenced_modRecipe (s := (s.superseded a).activated d) (i := d.number) (j := d.version)
            (f := fun x => { x with refs := x.refs + 1 }) kept fun r => ⟨rfl, rfl, Nat.le_succ _⟩)
          rw [recompute_published (s := u) hn distinct' member inactive fit (by rw [sets]; exact Nat.lt_of_sub_eq_succ rfl) fun x hx => ?_, sets]
          · exact setLoaded_setLoaded (s := addRef d.number d.version ((s.superseded a).activated d)) _ _
          · rw [sets, List.mem_singleton] at hx
            rw [hx]
            exact ⟨rfl, en, ev ▸ lt⟩
        · have calm : (u.activated d).NoWants n := fun r hr => by
            rw [← Bool.not_eq_true]
            intro k
            have published := activated_wanted distinct' member inactive hr k
            rw [published] at k
            have fit := (wants_iff rfl rfl).1 k
            exact unfit fit
          have recipes : (soleUnloads n e' ((s.superseded a).activated d)).recipes = (u.activated d).recipes := soleUnloads_recipes
          refine told _ ?_ fun r hr => kept r (recipes ▸ hr)
          rw [recompute_sole (s := u.activated d) (e := e') sets hs calm]
          exact soleUnloads_setLoaded (s := (s.superseded a).activated d) [e']
    · obtain ⟨ham, rfl, has⟩ := recipeIn_some ha
      refine ⟨fun hv hwd refs => ?_, fun groups hv hne bit => ?_⟩
      · have calm : (s.withdrawn1 a).NoWants n := noWants_of_inactive fun r hr => by
          obtain ⟨x, hx, rfl⟩ := mem_modRecipe.1 hr
          split_ifs with k
          · exact fun j => nomatch (j : RecipeState.withdrawing = .active)
          · exact fun j => k (one x hx j ▸ ⟨rfl, rfl⟩)
        have kept : (s.withdrawn1 a).referenced e.number e.version := by
          rw [en, ev]
          exact referenced_modRecipe (referenced_of distinct ham refs) fun r => ⟨rfl, rfl, le_rfl⟩
        refine withdraw_answers hv h1 h2 ha hwd ?_
        rw [recomputeAll_one (s := s.withdrawn1 a) hn hw only, recompute_sole (s := s.withdrawn1 a) hl hs calm]
        exact freeCheck_referenced (en ▸ ev ▸ soleLoses_leaves kept)
      · refine groups_answers hv h1 h2 (fun k => by rw [ha] at k; cases k.1) (fun same => absurd (same a ha) hne) fun _ _ _ => ?_
        have calm : (setGroups a.number groups s).NoWants n := fun r hr => by
          rw [setGroups_eq] at hr
          obtain ⟨x, hx, rfl⟩ := List.mem_map.1 hr
          split_ifs with k
          · simp [wants, o, show (setGroups a.number groups s).oven n = s.oven n from rfl, bit]
          · by_cases j : x.state = .active
            · exact absurd ⟨by rw [one x hx j], by rw [j]; decide⟩ k
            · simp [wants, j]
        rw [recomputeAll_one (s := setGroups a.number groups s) hn hw only, recompute_sole (s := setGroups a.number groups s) hl hs calm,
          setGroups_eq]

end Sys2Proof.Machine
end

section
/-! PROOF. The apply gating (R173, R174), the frames of a channel placed within a rule (R163, R164), and where the channel choice
(R162) finds nothing. -/

namespace Sys2Proof.Machine

set_option Elab.async false

variable {s t : State} {n c ch : Nat} {b : Binding} {m : Campaign} {e : CEntry}

/-! ### The condition of an apply (R173) -/

/-- R173: the minute of day lies inside the window, which may pass midnight. -/
def Campaign.inside (m : Campaign) (minute : Nat) : Prop := m.windowStart = m.windowEnd ∨
  (m.windowStart < m.windowEnd ∧ m.windowStart ≤ minute ∧ minute < m.windowEnd) ∨
  (m.windowEnd < m.windowStart ∧ (m.windowStart ≤ minute ∨ minute < m.windowEnd))

theorem inWindow_iff (m : Campaign) (minute : Nat) : m.inWindow minute = true ↔ m.inside minute := by
  unfold Campaign.inWindow Campaign.inside
  split_ifs with eq lt
  · simp [eq]
  · simp only [Bool.and_eq_true, decide_eq_true_eq]
    omega
  · simp only [Bool.or_eq_true, decide_eq_true_eq]
    omega

theorem locks_isEmpty_iff (l : Locks) : l.isEmpty = true ↔ l = {} := by
  obtain ⟨a, b, c⟩ := l
  cases a <;> cases b <;> cases c <;> simp [Locks.isEmpty]

theorem isCleaning_false_iff (o : Oven) : o.isCleaning = false ↔ ∀ h ∈ o.hygiene, h.state ≠ .cleaning := by
  unfold Oven.isCleaning
  cases o.hygiene <;> simp

/-- R173: what holds of the oven of a STAGED entry whose gate is open. -/
structure State.ready (s : State) (m : Campaign) (n : Nat) : Prop where
  running : m.state = .running
  clockSet : s.clockUnset = false
  window : m.inside (s.clock / 60 % 1440)
  present : (s.oven n).present = true
  permit : s.permit n = none
  clean : ∀ h ∈ (s.oven n).hygiene, h.state ≠ .cleaning
  unlocked : (s.oven n).locks = {}

theorem gateOpen_iff (hm : s.campaign c = some m) (he : s.centry c n = some e) :
    s.gateOpen c n = true ↔ e.state = .staged ∧ s.ready m n := by
  unfold State.gateOpen
  rw [hm, he]
  dsimp only
  simp only [Bool.and_eq_true, Bool.not_eq_true', decide_eq_true_eq, inWindow_iff, isCleaning_false_iff, locks_isEmpty_iff,
    Option.isNone_iff_eq_none]
  constructor
  · rintro ⟨⟨⟨⟨⟨⟨⟨a, b⟩, c⟩, d⟩, e⟩, f⟩, g⟩, h⟩
    exact ⟨a, b, c, d, e, f, g, h⟩
  · rintro ⟨a, b, c, d, e, f, g, h⟩
    exact ⟨⟨⟨⟨⟨⟨⟨a, b⟩, c⟩, d⟩, e⟩, f⟩, g⟩, h⟩

theorem gate_shut (hm : s.campaign c = some m) (he : s.centry c n = some e) (h : ¬ (e.state = .staged ∧ s.ready m n)) : gate c n s = s :=
  if_neg fun k => h ((gateOpen_iff hm he).1 k)

theorem gate_open (hm : s.campaign c = some m) (he : s.centry c n = some e) (hs : e.state = .staged) (h : s.ready m n) :
    gate c n s = applyBegin c n s := if_pos ((gateOpen_iff hm he).2 ⟨hs, h⟩)

theorem applying_of {x : CEntry} (hx : s.centry c n = some x) (ha : x.state = .applying) : s.applying n = true := by
  obtain ⟨⟨m, hm, -⟩, -⟩ := centry_some hx
  unfold State.applying
  rw [Option.isSome_iff_ne_none]
  intro none
  have := List.find?_eq_none.1 none c ((mem_allCampaigns c).2 (campaign_some_iff hm))
  simp [hx, ha] at this

/-- R42: with no reason before, UPDATE is the one reason while an entry is APPLYING. -/
theorem lockView_applying (hv : s.lockView n = {}) (ho : t.oven n = s.oven n) (ht : t.tickets = s.tickets) (hc : t.classes = s.classes)
    (ha : t.applying n = true) : t.lockView n = { update := true } := by
  have manual : (s.oven n).manualLock = false := congrArg Locks.manual hv
  have ticket : s.tickets.any (fun x => x.oven = n && x.holds && (s.cls x.cls).severity = .lockout) = false := congrArg Locks.ticket hv
  unfold State.lockView
  rw [ho, manual, ha, ht]
  refine congrArg (fun b => ({ manual := false, ticket := b, update := true } : Locks)) ?_
  rw [← ticket]
  simp only [State.cls, hc]
  rfl

/-- R42: a lock view that has changed is recorded and told. -/
def viewRecorded (n : Nat) (s : State) : State := if s.lockView n = (s.oven n).locks then s else recordLocks n (s.lockView n) s

theorem applyBegin_of (hm : s.campaign c = some m) : applyBegin c n s =
    let v := viewRecorded n (placeFor .updateRelay n (.apply m.toVersion) (s.modCEntry c n fun x =>
      { x with state := .applying, deadline := some (s.after Config.applySeconds) }))
    raiseUpdate 2 c n 0 (v.attempts c n) v := by
  unfold applyBegin
  rw [hm]
  rfl

/-- R174: an apply begins of an oven in service with no lock reason. -/
theorem applyBegin_eq (hs : s.Settled) (hn : isSlot n) (hw : (s.oven n).state = .inService) (hm : s.campaign c = some m)
    (he : s.centry c n = some e) (hl : (s.oven n).locks = {}) (hv : s.lockView n = {}) :
    applyBegin c n s = raise .update n (le 1 2 ++ le 1 c ++ le 1 0 ++ le 1 e.attempts)
      (deliver (ovenFrame .registry n (.lockState { update := true })) (deliver (ovenFrame .updateRelay n (.apply m.toVersion))
        ((s.setOven n { s.oven n with locks := { update := true } }).modCEntry c n fun x =>
          { x with state := .applying, deadline := some (min 4294967295 (s.clock + 900)) }))) := by
  let f : CEntry → CEntry := fun x => { x with state := .applying, deadline := some (min 4294967295 (s.clock + 900)) }
  let w := s.modCEntry c n f
  let u := deliver (ovenFrame .updateRelay n (.apply m.toVersion)) w
  have entry : u.centry c n = some (f e) := by
    rw [deliver_centry, centry_modCEntry _ _ _ _ (by exact fun _ => rfl), if_pos ⟨rfl, rfl⟩, he]
    rfl
  have record : u.oven n = s.oven n := deliver_oven _ _ _
  have view : u.lockView n = { update := true } := lockView_applying hv record (deliver_keeps_tickets _ _) (deliver_classes _ _)
    (applying_of entry rfl)
  have told : viewRecorded n u = deliver (ovenFrame .registry n (.lockState { update := true }))
      (u.setOven n { s.oven n with locks := { update := true } }) := by
    rw [viewRecorded, view, record, hl, if_neg (by decide),
      recordLocks_told (s := u) (deliver_settled _ _) hn _ (.inl (by rw [record]; exact hw)), record]
  have moved : u.setOven n { s.oven n with locks := { update := true } } =
      deliver (ovenFrame .updateRelay n (.apply m.toVersion))
        ((s.setOven n { s.oven n with locks := { update := true } }).modCEntry c n f) := (deliver_setOven w _ n _).symm
  have applied : placeFor .updateRelay n (.apply m.toVersion) w = u := placeFor_eq_deliver (s := w) hs _ _ _
  have last : (viewRecorded n u).attempts c n = e.attempts := by
    refine attempts_eq (e := f e) ?_
    rw [told, deliver_centry]
    exact entry
  refine (applyBegin_of hm).trans ?_
  show raiseUpdate 2 c n 0 ((viewRecorded n (placeFor .updateRelay n (.apply m.toVersion) w)).attempts c n)
    (viewRecorded n (placeFor .updateRelay n (.apply m.toVersion) w)) = _
  rw [applied, last, told, moved]
  rfl

/-! ### Frames placed within a rule -/

theorem raise_image (k : NoticeKind) (i : Nat) (d : List Byte) (s : State) (l : List OutFrame) :
    raise k i d { s with image := l } = { raise k i d s with image := l } := by
  cases s
  simp only [raise, putNotice, State.enabled, State.ordinaryCount]
  split_ifs <;> rfl

theorem raise_transmitter (k : NoticeKind) (i : Nat) (d : List Byte) (s : State) (f : Option OutFrame) :
    raise k i d { s with transmitter := f } = { raise k i d s with transmitter := f } := by
  cases s
  simp only [raise, putNotice, State.enabled, State.ordinaryCount]
  split_ifs <;> rfl

theorem raise_held (k : NoticeKind) (i : Nat) (d : List Byte) (s : State) : (raise k i d s).held = s.held := by
  rw [raise_eq]
  rfl

/-- R164: an IMAGE_BEGIN of an OPENING transfer in a settled state, with a notice before the transmitter's choice. -/
theorem kick_raise_begin (hs : s.Settled) (hb : s.channel ch = some b) (hm : s.campaign b.campaign = some m) (ho : b.stream ≠ .streaming)
    (k : NoticeKind) (i : Nat) (d : List Byte) :
    kick (raise k i d (enqueueBegin ch s)) = raise k i d (beginFrames ch b.oven b.acked m s) := by
  let f := imageFrame ch b.oven (.imageBegin0 m.imageSize b.acked)
  let g := imageFrame ch b.oven (.imageBegin1 m.imageCrc m.toVersion)
  cases hh : s.held with
  | true =>
    rw [enqueueBegin_eq hb hm, beginFrames, deliver, if_pos hh]
    refine kick_held ?_
    have a := enqueue_still f s
    have b := enqueue_still g (enqueue f s)
    rw [raise_held, State.held, b.busOff, enqueue_transmitter, a.busOff, enqueue_transmitter]
    exact hh
  | false =>
    have empty : s.image = [] := (hs hh).2.2.2
    have placed : enqueueBegin ch s = { s with image := [f, g] } := by
      rw [enqueueBegin_eq hb hm, enqueue_image (s := s) (g := f) rfl (by rw [empty]; decide), enqueue_image rfl (by simp [empty])]
      simp [empty, f, g]
    have begun : beginFrames ch b.oven b.acked m s = { s with transmitter := some f, image := [g] } := by
      rw [beginFrames, deliver, if_neg (by rw [hh]; decide), enqueue_image (s := { s with transmitter := some f }) rfl (by simp [empty])]
      simp [empty, f, g]
    rw [placed, begun, raise_image, kick_image (raise_settled _ _ _ hs) (by rw [raise_held]; exact hh) (ch := ch) rfl]
    have bound : State.channel { raise k i d s with transmitter := some f, image := [g] } ch = some b := (raise_channel ..).trans hb
    have camp : State.campaign { raise k i d s with transmitter := some f, image := [g] } b.campaign = some m :=
      (raise_campaign ..).trans hm
    rw [imageTaken_of_channel bound, fillImage_none bound camp (fun x => absurd x ho)]
    have pushed := raise_image k i d { s with transmitter := some f } [g]
    rw [raise_transmitter] at pushed
    exact pushed.symm

/-- R163: a frame of a channel released within a rule. -/
theorem kickQuiet_released {f : OutFrame} (hs : s.Settled) (hf : f.mark = .channel ch) (hq : f.payload.kind.queue = .image)
    (hb : s.channel ch = none) : kickQuiet (enqueue f s) = deliver f s := by
  cases hh : s.held with
  | true =>
    have held : (enqueue f s).held = true := by
      rw [State.held, (enqueue_still f s).busOff, enqueue_transmitter]
      exact hh
    have none : takeFrame (enqueue f s) = none := by
      unfold takeFrame
      rw [if_pos (by simpa [State.held] using held)]
    rw [deliver, if_pos hh, kickQuiet, none]
  | false =>
    obtain ⟨hu, ha, hk, empty⟩ := hs hh
    have chosen : State.Chooses { s with image := [f] } .image f [] := ⟨rfl, fun r hr => by
      cases r with
      | urgent => exact absurd hu hr
      | answer => exact absurd ha hr
      | bulk => exact absurd hk hr
      | image => exact .inr ⟨rfl, le_rfl⟩⟩
    rw [deliver, if_neg (by rw [hh]; decide), enqueue_image hq (by rw [empty]; decide), empty, List.nil_append, kickQuiet,
      takeFrame_of_chooses chosen hh]
    dsimp only
    rw [hf]
    dsimp only
    have same : State.setQueue { s with image := [f], transmitter := some f } .image [] = { s with transmitter := some f } := by
      show ({ s with transmitter := some f, image := [] } : State) = _
      rw [← empty]
    rw [same]
    unfold fillImage
    rw [show Config.streamPlaces = 8 from rfl]
    dsimp only
    rw [show State.channel { s with transmitter := some f } ch = none from hb]
    exact congrArg (fun l => ({ s with transmitter := some f, image := l } : State)) empty

/-! ### The channel choice where it finds nothing (R162) -/

theorem chooseChannels_uncandidate (h : s.candidate = none) (fuel : Nat) : chooseChannels fuel s = s := by
  cases fuel with
  | zero => rfl
  | succ fuel =>
    unfold chooseChannels
    rw [h]
    split
    · rename_i k
      cases k
    · rfl

theorem chooseChannels_unfree (h : allChannels.find? s.channelFree = none) (fuel : Nat) : chooseChannels fuel s = s := by
  cases fuel with
  | zero => rfl
  | succ fuel =>
    unfold chooseChannels
    rw [h]

/-- R162: no choice is made, and the transmitter has nothing to take. -/
theorem channelChoice_idle (hs : s.Settled) (h : s.candidate = none ∨ allChannels.find? s.channelFree = none) : channelChoice s = s := by
  have same : chooseChannels choiceFuel s = s := h.elim (fun k => chooseChannels_uncandidate k _) fun k => chooseChannels_unfree k _
  rw [channelChoice, same, ite_self, kick_settled_eq hs]

theorem candidateIn_other (hm : s.campaign c = some m) (h : ¬ (m.state = .running ∧ m.entries.countP (·.state.isTransfer) < m.concurrency)) :
    s.candidateIn c = none := by
  unfold State.candidateIn
  rw [hm]
  exact if_neg h

theorem candidateIn_none (hm : s.campaign c = none) : s.candidateIn c = none := by
  unfold State.candidateIn
  rw [hm]

/-- R162: the one campaign serves nobody. -/
theorem candidate_sole_none (others : ∀ d, d ≠ c → s.campaign d = none) (h : s.candidateIn c = none) : s.candidate = none := by
  unfold State.candidate
  rw [List.findSome?_eq_none_iff]
  intro d _
  by_cases k : d = c
  · rw [k, h]
    rfl
  · rw [candidateIn_none (others d k)]
    rfl

end Sys2Proof.Machine
end

section
/-! PROOF. The start of a campaign (R158, R159): its entries, and the transfer the channel choice opens (R152, R162, R164). -/

namespace Sys2Proof.Machine

set_option Elab.async false

variable {s t : State} {n c ch : Nat} {b : Binding} {m : Campaign} {e : CEntry}

/-! ### The finish check (R177) -/

theorem isFinal_iff (x : CEntryState) : x.isFinal = true ↔ x = .done ∨ x = .skipped ∨ x = .failed := by
  cases x <;> simp [CEntryState.isFinal]

theorem finishCheck_of (hm : s.campaign c = some m) : finishCheck c s =
    if (m.state = .running ∨ m.state = .paused) ∧ m.entries ≠ [] ∧ ∀ e ∈ m.entries, e.state = .done ∨ e.state = .skipped ∨ e.state = .failed then
      raise .campaign c (le 1 0 ++ le 1 (m.entries.countP fun e => e.state = .done) ++
        le 1 (m.entries.countP fun e => e.state = .skipped) ++ le 1 (m.entries.countP fun e => e.state = .failed))
        (s.setCampaign c (some { m with state := .finished }))
    else s := by
  unfold finishCheck
  rw [hm]
  dsimp only
  simp only [List.all_eq_true, isFinal_iff]
  by_cases k : (m.state = .running ∨ m.state = .paused) ∧ m.entries ≠ [] ∧
      ∀ e ∈ m.entries, e.state = .done ∨ e.state = .skipped ∨ e.state = .failed
  · rw [if_pos k, if_pos k, modCampaign_some hm]
    rfl
  · rw [if_neg k, if_neg k]

theorem finishCheck_waiting (hm : s.campaign c = some m) (h : ∃ e ∈ m.entries, e.state = .waiting) : finishCheck c s = s := by
  obtain ⟨e, he, hw⟩ := h
  rw [finishCheck_of hm, if_neg]
  rintro ⟨-, -, all⟩
  have := all e he
  simp [hw] at this

/-! ### The entries of a start (R158, R159) -/

/-- R158: the entry made for an oven. -/
def State.newEntry (s : State) (m : Campaign) (n : Nat) : CEntry :=
  { oven := n, serial := (s.oven n).serial.getD 0
    state := if (s.oven n).firmware ≠ some m.toVersion ∧ (m.fromVersions = [] ∨ ∃ v ∈ m.fromVersions, (s.oven n).firmware = some v) then
      .waiting else .skipped }

/-- The in-service ovens of a campaign's model class. -/
def State.classOf (s : State) (m : Campaign) : List Nat :=
  allSlots.filter fun n => decide ((s.oven n).state = .inService ∧ (s.oven n).model = m.model)

theorem ovensOf_eq (s : State) (m : Campaign) : s.ovensOf m = s.classOf m := by
  unfold State.ovensOf State.classOf
  exact List.filter_congr fun n _ => (Bool.decide_and ..).symm

theorem allSlots_sorted : allSlots.Pairwise (· < ·) := by decide

theorem classOf_sorted : (s.classOf m).Pairwise (· < ·) := allSlots_sorted.sublist List.filter_sublist

theorem mem_classOf : n ∈ s.classOf m ↔ isSlot n ∧ (s.oven n).state = .inService ∧ (s.oven n).model = m.model := by
  rw [State.classOf, List.mem_filter, mem_allSlots, decide_eq_true_eq]

/-- Entries made in ascending slot order stand behind those there. -/
theorem makeEntries_eq (hc : 1 ≤ c ∧ c ≤ 4) (l : List Nat) (s : State) (E : List CEntry) (hm : s.campaign c = some { m with entries := E })
    (sorted : (E.map CEntry.oven ++ l).Pairwise (· < ·)) : l.foldl (fun s n => makeEntry c n s) s =
      s.setCampaign c (some { m with entries := E ++ l.map (s.newEntry m) }) := by
  induction l generalizing s E with
  | nil =>
    rw [List.map_nil, List.append_nil]
    exact (setCampaign_same hm).symm
  | cons n l ih =>
    obtain ⟨old, rest, order⟩ := List.pairwise_append.1 sorted
    have below : ∀ x ∈ E, x.oven < n := fun x hx => order _ (List.mem_map_of_mem hx) n List.mem_cons_self
    have kept : E.filter (fun x => decide (x.oven < n)) = E := List.filter_eq_self.2 fun x hx => decide_eq_true (below x hx)
    have none : E.filter (fun x => decide (n < x.oven)) = [] :=
      List.filter_eq_nil_iff.2 fun x hx => by simpa using Nat.le_of_lt (below x hx)
    have made : makeEntry c n s = s.setCampaign c (some { m with entries := E ++ [s.newEntry m n] }) := by
      rw [makeEntry_eq hm old]
      dsimp only
      rw [kept, none]
      rfl
    rw [List.foldl_cons, made, ih _ (E ++ [s.newEntry m n]) (State.setCampaign_campaign _ _ _ hc) ?_, setCampaign_setCampaign,
      List.append_assoc]
    · rfl
    · rw [List.map_append, List.append_assoc]
      exact sorted

/-- R159: the campaign RUNNING, with its entries. -/
def State.runningWith (s : State) (c : Nat) (m : Campaign) (l : List CEntry) : State :=
  s.setCampaign c (some { m with state := .running, entries := l })

theorem runningWith_campaign (hc : 1 ≤ c ∧ c ≤ 4) (l : List CEntry) :
    (s.runningWith c m l).campaign c = some { m with state := .running, entries := l } := State.setCampaign_campaign _ _ _ hc

theorem startCampaign_eq (hm : s.campaign c = some m) (he : m.entries = []) :
    startCampaign c s = s.runningWith c m ((s.classOf m).map (s.newEntry m)) := by
  have hc := campaign_some_iff hm
  let m' : Campaign := { m with state := .running }
  have running : s.modCampaign c (fun m => { m with state := .running }) = s.setCampaign c (some m') := modCampaign_some hm _
  have found : (s.setCampaign c (some m')).campaign c = some m' := State.setCampaign_campaign _ _ _ hc
  unfold startCampaign entriesForCampaign
  rw [running, found]
  dsimp only
  have all : (State.ovensOf (s.setCampaign c (some m')) m').filter
      (fun n => !(s.setCampaign c (some m')).holdsEntry m' n) = s.classOf m := by
    rw [ovensOf_eq]
    refine List.filter_eq_self.2 fun n _ => ?_
    rw [State.holdsEntry, show m'.entries = [] from he]
    rfl
  rw [all, makeEntries_eq (m := m') hc (s.classOf m) _ [] (found.trans (by rw [← he])) (by exact classOf_sorted), setCampaign_setCampaign]
  rfl

/-- R177: a resume finds an entry for every oven of the class. -/
theorem startCampaign_held (hm : s.campaign c = some m)
    (h : ∀ n ∈ s.classOf m, ∃ e ∈ m.entries, e.oven = n ∧ (s.oven n).serial = some e.serial) :
    startCampaign c s = s.runningWith c m m.entries := by
  have hc := campaign_some_iff hm
  let m' : Campaign := { m with state := .running }
  have running : s.modCampaign c (fun m => { m with state := .running }) = s.setCampaign c (some m') := modCampaign_some hm _
  have found : (s.setCampaign c (some m')).campaign c = some m' := State.setCampaign_campaign _ _ _ hc
  unfold startCampaign entriesForCampaign
  rw [running, found]
  dsimp only
  have none : (State.ovensOf (s.setCampaign c (some m')) m').filter
      (fun n => !(s.setCampaign c (some m')).holdsEntry m' n) = [] := by
    rw [ovensOf_eq]
    refine List.filter_eq_nil_iff.2 fun n hn k => ?_
    obtain ⟨e, he, ho, hx⟩ := h n hn
    rw [Bool.not_eq_true', State.holdsEntry, List.any_eq_false] at k
    exact k e he (by rw [Bool.and_eq_true, decide_eq_true_eq, decide_eq_true_eq]; exact ⟨ho, hx⟩)
  rw [none]
  rfl

/-! ### Who is served (R152, R162) -/

/-- R152, R162: a WAITING entry whose oven is PRESENT and has no ticket that blocks updates. -/
def State.served (s : State) (e : CEntry) : Prop := e.state = .waiting ∧ (s.oven e.oven).present = true ∧
  ∀ t ∈ s.tickets, t.oven = e.oven → t.state ≠ .verifying → (s.cls t.cls).blocksUpdates = false

theorem updatesBlocked_false (s : State) (n : Nat) : s.updatesBlocked n = false ↔
    ∀ t ∈ s.tickets, t.oven = n → t.state ≠ .verifying → (s.cls t.cls).blocksUpdates = false := by
  simp only [State.updatesBlocked, ← Bool.not_eq_true, List.any_eq_true, not_exists, not_and, Bool.and_eq_true, decide_eq_true_eq, holds_iff,
    and_imp]

theorem newEntry_state (s : State) (m : Campaign) (n : Nat) : (s.newEntry m n).state = .waiting ∨ (s.newEntry m n).state = .skipped := by
  unfold State.newEntry
  dsimp only
  split_ifs
  · exact .inl rfl
  · exact .inr rfl

theorem mem_made (h : e ∈ (s.classOf m).map (s.newEntry m)) : e = s.newEntry m e.oven ∧ e.oven ∈ s.classOf m := by
  obtain ⟨n, hn, rfl⟩ := List.mem_map.1 h
  exact ⟨rfl, hn⟩

/-- What qualifies an oven that has no other entry. -/
theorem transferQualifies_iff (hw : (s.oven n).state = .inService) (quiet : s.campaignWhere n CEntryState.isActive = none) :
    s.transferQualifies n = true ↔ (s.oven n).present = true ∧
      ∀ t ∈ s.tickets, t.oven = n → t.state ≠ .verifying → (s.cls t.cls).blocksUpdates = false := by
  rw [State.transferQualifies, hw, quiet, ← updatesBlocked_false]
  simp

end Sys2Proof.Machine
end

section
/-! PROOF. The transfer that a campaign's start opens (R152, R162, R164). -/

namespace Sys2Proof.Machine

set_option Elab.async false

variable {s t : State} {n c ch : Nat} {b : Binding} {m : Campaign} {e : CEntry}

/-! ### The candidate and the free channel -/

theorem candidateIn_running (hm : s.campaign c = some m) (hr : m.state = .running)
    (hc : m.entries.countP (fun e => e.state.isTransfer) < m.concurrency) :
    s.candidateIn c = m.entries.find? fun e => e.state = .waiting && s.transferQualifies e.oven := by
  unfold State.candidateIn
  rw [hm]
  exact if_pos ⟨hr, hc⟩

/-- R162: the one campaign serves the entry. -/
theorem candidate_sole (others : ∀ d, d ≠ c → s.campaign d = none) (h : s.candidateIn c = some e) : s.candidate = some (c, e) := by
  have hc : c ∈ allCampaigns := by
    rw [mem_allCampaigns]
    cases hm : s.campaign c with
    | none =>
      rw [candidateIn_none hm] at h
      cases h
    | some m => exact campaign_some_iff hm
  cases found : s.candidate with
  | none =>
    have := List.findSome?_eq_none_iff.1 found c hc
    rw [h] at this
    cases this
  | some p =>
    obtain ⟨d, -, hd⟩ := List.exists_of_findSome?_eq_some found
    by_cases k : d = c
    · rw [k, h] at hd
      exact hd.symm
    · rw [candidateIn_none (others d k)] at hd
      cases hd

theorem channelFree_iff (s : State) (ch : Nat) : s.channelFree ch = true ↔ s.channel ch = none ∧ s.framesQueued ch = 0 := by
  simp [State.channelFree]

/-- R162: the lowest free channel. -/
theorem freeChannel_lowest (h1 : 1 ≤ ch) (h2 : ch ≤ 2) (free : s.channelFree ch = true)
    (lowest : ∀ k, 1 ≤ k → k < ch → s.channelFree k = false) : allChannels.find? s.channelFree = some ch := by
  rcases (by omega : ch = 1 ∨ ch = 2) with rfl | rfl
  · exact List.find?_cons_of_pos free
  · exact (List.find?_cons_of_neg (by simp [lowest 1 (by decide) (by decide)])).trans (List.find?_cons_of_pos free)

theorem freeChannel_none (h1 : s.channelFree 1 = false) (h2 : s.channelFree 2 = false) : allChannels.find? s.channelFree = none := by
  simp [allChannels, h1, h2]

/-- R162: one choice, and what follows it. -/
theorem chooseChannels_succ (hf : allChannels.find? s.channelFree = some ch) (hc : s.candidate = some (c, e)) (fuel : Nat) :
    chooseChannels (fuel + 1) s = chooseChannels fuel (serveEntry c e ch s) := by
  rw [chooseChannels, hf, hc]

/-- R162: an oven of the model class whose version may be installed over is bound. -/
theorem serveEntry_bind (hm : s.campaign c = some m) (hx : (s.oven e.oven).model = m.model)
    (hv : m.takesVersion (s.oven e.oven).firmware = true) : serveEntry c e ch s = bindChannel c e.oven ch s := by
  unfold serveEntry
  rw [hm]
  dsimp only
  rw [if_neg (fun k => k hx), if_neg ((takesVersion_iff ..).1 hv).1, if_pos hv]

/-- The first of an ascending list of those that qualify. -/
theorem find_first {α : Type} {l : List α} {key : α → Nat} {p : α → Bool} {x : α} (sorted : (l.map key).Pairwise (· < ·)) (hx : x ∈ l)
    (px : p x = true) (first : ∀ y ∈ l, p y = true → y ≠ x → key x < key y) : l.find? p = some x := by
  induction l with
  | nil => cases hx
  | cons y l ih =>
    obtain ⟨least, rest⟩ := List.pairwise_cons.1 sorted
    rcases List.mem_cons.1 hx with rfl | mem
    · exact List.find?_cons_of_pos px
    · have below : key y < key x := least _ (List.mem_map_of_mem mem)
      have unfit : ¬ p y = true := fun py => Nat.lt_asymm below
        (first y List.mem_cons_self py fun k => Nat.ne_of_lt below (congrArg key k))
      rw [List.find?_cons_of_neg unfit]
      exact ih rest mem fun z hz => first z (List.mem_cons_of_mem y hz)

/-! ### The transfer -/

/-- R164: what is bound to a channel. -/
def opened (s : State) (c n : Nat) : Binding :=
  { campaign := c, oven := n, stream := .opening, taken := 0, sent := 0, acked := 0, buffer := []
    timeout := some (min 4294967295 (s.clock + 2)), check := none }

/-- R164: an entry is TRANSFERRING on a channel. -/
def CEntry.bound (ch : Nat) (x : CEntry) : CEntry := { x with state := .transferring, channel := some ch, timeouts := 0 }

/-- R164: a campaign's entry bound to a channel, before its frames. -/
def State.bound (s : State) (c n ch : Nat) : State := (s.setChannel ch (some (opened s c n))).modCEntry c n (CEntry.bound ch)

theorem enqueue_keeps_campaigns (f : OutFrame) (s : State) : (enqueue f s).campaigns = s.campaigns := by
  have k := congrArg State.campaigns (enqueue_campaigns f s s.campaigns)
  exact k

theorem bindChannel_of : bindChannel c n ch s = raiseFeed ch c n 0 (enqueueBegin ch (s.bound c n ch)) := rfl

theorem bindChannel_campaigns : (bindChannel c n ch s).campaigns = (s.bound c n ch).campaigns := by
  rw [bindChannel_of, raiseFeed, raise_keeps_campaigns]
  unfold enqueueBegin
  split
  · rfl
  · split
    · rfl
    · rw [enqueue_keeps_campaigns, enqueue_keeps_campaigns]

theorem bindChannel_classes : (bindChannel c n ch s).classes = s.classes := by
  rw [bindChannel_of, raiseFeed, raise_classes]
  unfold enqueueBegin
  split
  · rfl
  · split
    · rfl
    · rw [(enqueue_still _ _).classes, (enqueue_still _ _).classes]
      rfl

theorem bound_campaign (hm : s.campaign c = some m) : (s.bound c n ch).campaign c =
    some { m with entries := m.entries.map fun x => if x.oven = n then x.bound ch else x } :=
  campaign_modCampaign (s := s.setChannel ch (some (opened s c n))) _ hm

theorem bindChannel_campaign (hm : s.campaign c = some m) : (bindChannel c n ch s).campaign c =
    some { m with entries := m.entries.map fun x => if x.oven = n then x.bound ch else x } := by
  rw [State.campaign, bindChannel_campaigns]
  exact bound_campaign hm

theorem bindChannel_campaign_ne {d : Nat} (h : d ≠ c) : (bindChannel c n ch s).campaign d = s.campaign d := by
  rw [State.campaign, bindChannel_campaigns]
  exact State.setCampaign_campaign_ne _ _ _ _ h

theorem newEntry_bindable (hw : (s.newEntry m n).state = .waiting) : m.takesVersion (s.oven n).firmware = true := by
  refine (takesVersion_iff ..).2 ?_
  unfold State.newEntry at hw
  dsimp only at hw
  split at hw
  · assumption
  · cases hw

theorem made_sorted : (((s.classOf m).map (s.newEntry m)).map CEntry.oven).Pairwise (· < ·) := by
  rw [List.map_map]
  exact (List.map_id _).symm ▸ classOf_sorted

theorem eq_of_oven {l : List CEntry} (nd : (l.map CEntry.oven).Nodup) {x y : CEntry} (hx : x ∈ l) (hy : y ∈ l) (h : x.oven = y.oven) :
    x = y := List.inj_on_of_nodup_map nd hx hy h

theorem made_untransferred : ((s.classOf m).map (s.newEntry m)).countP (fun e => e.state.isTransfer) = 0 := by
  rw [List.countP_eq_zero]
  intro e he
  obtain ⟨n, -, rfl⟩ := List.mem_map.1 he
  rcases newEntry_state s m n with h | h <;> simp [h, CEntryState.isTransfer]

theorem runningWith_others (others : ∀ d, d ≠ c → s.campaign d = none) (l : List CEntry) :
    ∀ d, d ≠ c → (s.runningWith c m l).campaign d = none := fun d hd => by
  rw [State.runningWith, State.setCampaign_campaign_ne _ _ _ _ hd]
  exact others d hd

section
variable (hc : 1 ≤ c ∧ c ≤ 4) (others : ∀ d, d ≠ c → s.campaign d = none)
include hc others

/-- The oven of an entry just made has no entry that excludes a transfer. -/
theorem runningWith_inactive {l : List CEntry} (h : ∀ e ∈ l, e.state = .waiting ∨ e.state = .skipped) (n : Nat) :
    (s.runningWith c m l).campaignWhere n CEntryState.isActive = none := by
  refine campaignWhere_nowhere fun d e he => ?_
  obtain ⟨⟨k, hk, mem⟩, -⟩ := centry_some he
  by_cases hd : d = c
  · subst hd
    rw [runningWith_campaign hc] at hk
    cases hk
    rcases h e mem with x | x <;> rw [x] <;> rfl
  · rw [State.runningWith, State.setCampaign_campaign_ne _ _ _ _ hd, others d hd] at hk
    cases hk

/-- R152, R162: whom the choice after a start can serve. -/
theorem made_qualifies (he : e ∈ (s.classOf m).map (s.newEntry m)) :
    (decide (e.state = .waiting) && (s.runningWith c m ((s.classOf m).map (s.newEntry m))).transferQualifies e.oven) = true ↔ s.served e := by
  obtain ⟨-, mem⟩ := mem_made he
  obtain ⟨-, hw, -⟩ := mem_classOf.1 mem
  have quiet := runningWith_inactive (m := m) hc others (l := (s.classOf m).map (s.newEntry m)) (fun x hx => by
    obtain ⟨n, -, rfl⟩ := List.mem_map.1 hx
    exact newEntry_state s m n) e.oven
  rw [Bool.and_eq_true, decide_eq_true_eq, transferQualifies_iff (s := s.runningWith c m _) hw quiet]
  rfl

/-- R162: nobody is served, or no channel is free. -/
theorem start_unserved (hs : s.Settled) (h : (∀ e ∈ (s.classOf m).map (s.newEntry m), ¬ s.served e) ∨
      ¬ (s.channel 1 = none ∧ s.framesQueued 1 = 0) ∧ ¬ (s.channel 2 = none ∧ s.framesQueued 2 = 0)) :
    channelChoice (s.runningWith c m ((s.classOf m).map (s.newEntry m))) = s.runningWith c m ((s.classOf m).map (s.newEntry m)) := by
  refine channelChoice_idle (s := s.runningWith c m _) hs (h.imp (fun nobody => ?_) fun ⟨h1, h2⟩ => ?_)
  · refine candidate_sole_none (c := c) (runningWith_others others _) ?_
    by_cases room : (0 : Nat) < m.concurrency
    · rw [candidateIn_running (m := { m with state := .running, entries := _ }) (runningWith_campaign hc _) rfl
        (made_untransferred.trans_lt room)]
      exact List.find?_eq_none.2 fun e he k => nobody e he ((made_qualifies hc others he).1 k)
    · exact candidateIn_other (runningWith_campaign hc _) fun k => room (Nat.zero_lt_of_lt k.2)
  · exact freeChannel_none (eq_false_of_ne_true fun k => h1 ((channelFree_iff _ _).1 k))
      (eq_false_of_ne_true fun k => h2 ((channelFree_iff _ _).1 k))

/-- R162, R164: the one entry that is served takes the lowest free channel. -/
theorem start_served (hl : s.power = .running) (hs : s.Settled) (room : 1 ≤ m.concurrency)
    (he : e ∈ (s.classOf m).map (s.newEntry m)) (served : s.served e)
    (first : ∀ x ∈ (s.classOf m).map (s.newEntry m), s.served x → x ≠ e → e.oven < x.oven ∧ m.concurrency = 1)
    (h1 : 1 ≤ ch) (h2 : ch ≤ 2) (free : s.channelFree ch = true) (lowest : ∀ k, 1 ≤ k → k < ch → s.channelFree k = false) :
    channelChoice (s.runningWith c m ((s.classOf m).map (s.newEntry m))) =
      raise .relay ch (le 1 0 ++ le 1 c ++ le 1 e.oven ++ le 3 0) (beginFrames ch e.oven 0 m
        ((s.runningWith c m (((s.classOf m).map (s.newEntry m)).map fun x => if x = e then
          { x with state := .transferring, channel := some ch } else x)).setChannel ch (some (opened s c e.oven)))) := by
  let made := (s.classOf m).map (s.newEntry m)
  let r := s.runningWith c m made
  let m' : Campaign := { m with state := .running, entries := made }
  have hm : r.campaign c = some m' := runningWith_campaign hc made
  obtain ⟨himself, mem⟩ := mem_made he
  obtain ⟨-, -, model⟩ := mem_classOf.1 mem
  have found : r.candidate = some (c, e) := by
    refine candidate_sole (runningWith_others others _) ?_
    rw [candidateIn_running hm rfl (made_untransferred.trans_lt room)]
    exact find_first made_sorted he ((made_qualifies hc others he).2 served) fun y hy py hne =>
      (first y hy ((made_qualifies hc others hy).1 py) hne).1
  have takes : m'.takesVersion (r.oven e.oven).firmware = true :=
    newEntry_bindable (s := s) (m := m) (n := e.oven) (himself ▸ served.1)
  let u := bindChannel c e.oven ch r
  have bound : serveEntry c e ch r = u := serveEntry_bind (s := r) hm model takes
  have after : u.campaign c = some { m' with entries := made.map fun x => if x.oven = e.oven then x.bound ch else x } :=
    bindChannel_campaign hm
  have kept : Relays r u := Relays.refl.bindChannel (candidate_ungated found) ch
  have classes : u.classes = r.classes := bindChannel_classes
  have qualified : ∀ x : CEntry, u.transferQualifies x.oven = true → (s.oven x.oven).present = true ∧
      ∀ t ∈ s.tickets, t.oven = x.oven → t.state ≠ .verifying → (s.cls t.cls).blocksUpdates = false := fun x k => by
    unfold State.transferQualifies at k
    simp only [Bool.and_eq_true, Bool.not_eq_true', updatesBlocked_false] at k
    obtain ⟨⟨⟨-, present⟩, unblocked⟩, -⟩ := k
    rw [State.oven, kept.ovens] at present
    rw [kept.tickets] at unblocked
    simp only [State.cls, classes] at unblocked
    exact ⟨present, unblocked⟩
  have nobody : u.candidate = none := by
    have rest : ∀ d, d ≠ c → u.campaign d = none := fun d hd => by
      rw [bindChannel_campaign_ne hd]
      exact runningWith_others others _ d hd
    refine candidate_sole_none rest ?_
    let l := made.map fun x => if x.oven = e.oven then x.bound ch else x
    by_cases more : l.countP (fun e => e.state.isTransfer) < m.concurrency
    · rw [candidateIn_running after rfl more]
      refine List.find?_eq_none.2 fun y hy k => ?_
      obtain ⟨x, hx, rfl⟩ := List.mem_map.1 hy
      rw [Bool.and_eq_true, decide_eq_true_eq] at k
      split at k
      · exact nomatch k.1
      · rename_i apart
        have more' : 0 < l.countP fun e => e.state.isTransfer :=
          List.countP_pos_iff.2 ⟨e.bound ch, List.mem_map.2 ⟨e, he, if_pos rfl⟩, rfl⟩
        have two := (first x hx ⟨k.1, qualified x k.2⟩ fun j => apart (congrArg CEntry.oven j)).2
        omega
    · exact candidateIn_other after fun k => more k.2
  have chosen : chooseChannels choiceFuel r = u := by
    rw [choiceFuel, chooseChannels_succ (freeChannel_lowest h1 h2 (s := r) free lowest) found, bound, chooseChannels_uncandidate nobody]
  have channel : (r.bound c e.oven ch).channel ch = some (opened s c e.oven) := State.setChannel_channel r ch _ ⟨h1, h2⟩
  have begun := kick_raise_begin (s := r.bound c e.oven ch) hs channel (bound_campaign hm) (fun k => nomatch (k : Stream.opening = .streaming))
    .relay ch (le 1 0 ++ le 1 c ++ le 1 e.oven ++ le 3 0)
  have told : channelChoice r = kick u := by
    rw [channelChoice, if_pos (show r.power = .running from hl), chosen]
  have entries : (made.map fun x => if x.oven = e.oven then x.bound ch else x) =
      made.map fun x => if x = e then { x with state := .transferring, channel := some ch } else x :=
    List.map_congr_left fun x hx => by
      by_cases k : x = e
      · rw [if_pos k, if_pos (congrArg CEntry.oven k), k, himself]
        rfl
      · rw [if_neg k, if_neg fun j => k (eq_of_oven (made_sorted.imp Nat.ne_of_lt) hx he j)]
  have joined : r.bound c e.oven ch = (s.runningWith c m (made.map fun x => if x = e then
      { x with state := .transferring, channel := some ch } else x)).setChannel ch (some (opened s c e.oven)) := by
    rw [← entries]
    exact (modCampaign_some (s := r.setChannel ch (some (opened s c e.oven))) hm _).trans
      (setCampaign_setCampaign (s.setChannel ch (some (opened s c e.oven))) c _ _)
  rw [told]
  refine begun.trans ?_
  rw [joined]
  rfl

end

end Sys2Proof.Machine
end

section
/-! PROOF. The requests on a campaign but its cancel (R157, R159, R177), and the window start (R173, R174). -/

namespace Sys2Proof.Machine

set_option Elab.async false

variable {s t : State} {n c ch : Nat} {b : Binding} {m : Campaign} {e : CEntry}

theorem campaignInRange_iff (a : CampaignArgs) : campaignInRange a = true ↔ a.fromVersions.length ≤ 4 ∧ 1 ≤ a.imageSize ∧
    a.imageSize ≤ 1048576 ∧ a.windowStart ≤ 1439 ∧ a.windowEnd ≤ 1439 ∧ 1 ≤ a.concurrency ∧ a.concurrency ≤ 2 := by
  simp only [campaignInRange, Bool.and_eq_true, decide_eq_true_eq, and_assoc]
  rfl

theorem reqCampaignPut_eq (c : Nat) (a : CampaignArgs) (s : State) : reqCampaignPut c a s =
    if 1 ≤ c ∧ c ≤ 4 ∧ a.fromVersions.length ≤ 4 ∧ 1 ≤ a.imageSize ∧ a.imageSize ≤ 1048576 ∧ a.windowStart ≤ 1439 ∧
        a.windowEnd ≤ 1439 ∧ 1 ≤ a.concurrency ∧ a.concurrency ≤ 2 then
      (if ∃ m ∈ s.campaign c, m.state ≠ .defined then refuse .wrongState s
      else ok (s.setCampaign c (some (newCampaign a))))
    else refuse .range s := by
  unfold reqCampaignPut
  have out : (¬ isCampaign c ∨ campaignInRange a = false) ↔ ¬ (1 ≤ c ∧ c ≤ 4 ∧ a.fromVersions.length ≤ 4 ∧ 1 ≤ a.imageSize ∧
      a.imageSize ≤ 1048576 ∧ a.windowStart ≤ 1439 ∧ a.windowEnd ≤ 1439 ∧ 1 ≤ a.concurrency ∧ a.concurrency ≤ 2) := by
    rw [← Bool.not_eq_true, campaignInRange_iff, ← not_and_or, and_assoc]
  have taken : (s.campaign c).any (fun m => m.state ≠ .defined) = true ↔ ∃ m ∈ s.campaign c, m.state ≠ .defined := by
    cases s.campaign c <;> simp
  simp only [out, taken, ite_not]

theorem onCampaign_range {act : Campaign → Act} (h : c < 1 ∨ 4 < c) : onCampaign c act s = refuse .range s := if_pos (by omega)

theorem onCampaign_none {act : Campaign → Act} (hc : 1 ≤ c ∧ c ≤ 4) (hm : s.campaign c = none) : onCampaign c act s = refuse .noRecord s := by
  unfold onCampaign
  rw [if_neg (not_not.2 hc), hm]

theorem onCampaign_of {act : Campaign → Act} (hm : s.campaign c = some m) : onCampaign c act s = act m s := by
  unfold onCampaign
  rw [if_neg (not_not.2 (campaign_some_iff hm)), hm]

theorem campaignPut_answers {a : CampaignArgs} (h : s.Serves (.campaignPut c a)) : exec (.campaignPut c a) s = .next
    (if 1 ≤ c ∧ c ≤ 4 ∧ a.fromVersions.length ≤ 4 ∧ 1 ≤ a.imageSize ∧ a.imageSize ≤ 1048576 ∧ a.windowStart ≤ 1439 ∧
        a.windowEnd ≤ 1439 ∧ 1 ≤ a.concurrency ∧ a.concurrency ≤ 2 then
      (if ∃ m ∈ s.campaign c, m.state ≠ .defined then s.reply .wrongState []
      else (s.setCampaign c (some (newCampaign a))).reply .ok [])
    else s.reply .range []) := by
  have answer := fun r u (k : reqCampaignPut c a s = (r, u)) => request_moved h k (Moves.refl.reqCampaignPut c a)
  rw [reqCampaignPut_eq] at answer
  split_ifs at answer ⊢
  · exact answer _ _ rfl
  · exact answer _ _ rfl
  · exact answer _ _ rfl

/-- The requests on a campaign refuse a number out of range and an empty slot. -/
theorem campaign_refused {i : Instr} (h : s.Serves i) (kind : i = .campaignStart c ∨ i = .campaignPause c ∨ i = .campaignResume c ∨
      i = .campaignCancel c ∨ i = .campaignClear c) :
    (c < 1 ∨ 4 < c → exec i s = .next (s.reply .range [])) ∧
    (1 ≤ c → c ≤ 4 → s.campaign c = none → exec i s = .next (s.reply .noRecord [])) := by
  have named : ∃ act : Campaign → Act, ∀ s, exec i s = request i (onCampaign c act) s := by
    rcases kind with rfl | rfl | rfl | rfl | rfl <;> exact ⟨_, fun _ => rfl⟩
  obtain ⟨act, run⟩ := named
  rw [run]
  exact ⟨fun k => request_refuses h (onCampaign_range k), fun h1 h4 hm => request_refuses h (onCampaign_none ⟨h1, h4⟩ hm)⟩

/-! ### Start, pause, resume, clear -/

section
variable (hm : s.campaign c = some m)
include hm

theorem reqCampaignStart_of : reqCampaignStart c s =
    if m.state ≠ .defined then refuse .wrongState s
    else if s.siteOpen = false then refuse .siteState s
    else if s.clockUnset = true then refuse .wrongState s
    else okWith ((startCampaign c s).entryCounts c) (channelChoice (finishCheck c (startCampaign c s))) :=
  onCampaign_of hm

theorem start_refused (h : s.Serves (.campaignStart c)) :
    (m.state ≠ .defined → exec (.campaignStart c) s = .next (s.reply .wrongState [])) ∧
    (m.state = .defined → s.siteOpen = false → exec (.campaignStart c) s = .next (s.reply .siteState [])) ∧
    (m.state = .defined → s.siteOpen = true → s.clockUnset = true → exec (.campaignStart c) s = .next (s.reply .wrongState [])) := by
  refine ⟨fun hd => ?_, fun hd ho => ?_, fun hd ho hu => ?_⟩
  · exact request_refuses h ((reqCampaignStart_of hm).trans (if_pos hd))
  · exact request_refuses h ((reqCampaignStart_of hm).trans ((if_neg (not_not.2 hd)).trans (if_pos ho)))
  · exact request_refuses h ((reqCampaignStart_of hm).trans ((if_neg (not_not.2 hd)).trans ((if_neg (by simp [ho])).trans (if_pos hu))))

/-- R159: the counts of the entries made, the finish check and the channel choice. -/
theorem start_answers (h : s.Serves (.campaignStart c)) (hd : m.state = .defined) (ho : s.siteOpen = true) (hu : s.clockUnset = false)
    (he : m.entries = []) : exec (.campaignStart c) s = .next (State.reply
      (channelChoice (finishCheck c (s.runningWith c m ((s.classOf m).map (s.newEntry m))))) .ok
      (le 1 (((s.classOf m).map (s.newEntry m)).countP fun e => e.state = .waiting) ++
        le 1 (((s.classOf m).map (s.newEntry m)).countP fun e => e.state = .skipped))) := by
  have counts : (s.runningWith c m ((s.classOf m).map (s.newEntry m))).entryCounts c =
      le 1 (((s.classOf m).map (s.newEntry m)).countP fun e => e.state = .waiting) ++
        le 1 (((s.classOf m).map (s.newEntry m)).countP fun e => e.state = .skipped) := by
    rw [State.entryCounts, runningWith_campaign (campaign_some_iff hm)]
    rfl
  refine request_moved h ?_ (Moves.refl.reqCampaignStart c)
  rw [reqCampaignStart_of hm, if_neg (not_not.2 hd), if_neg (by simp [ho]), if_neg (by simp [hu]), startCampaign_eq hm he, counts]
  rfl

theorem pause_answers (h : s.Serves (.campaignPause c)) : exec (.campaignPause c) s = .next
    (if m.state = .running then (s.setCampaign c (some { m with state := .paused })).reply .ok []
    else if m.state = .paused then s.reply .ok [] else s.reply .wrongState []) := by
  have answer := fun r u (k : reqCampaignPause c s = (r, u)) => request_moved h k (Moves.refl.reqCampaignPause c)
  rw [reqCampaignPause, onCampaign_of hm] at answer
  cases k : m.state with
  | running =>
    rw [k, modCampaign_some hm] at answer
    exact answer _ _ rfl
  | paused =>
    rw [k] at answer
    exact answer _ _ rfl
  | defined | finished | cancelling =>
    rw [k] at answer
    exact answer _ _ rfl

theorem resume_answers (h : s.Serves (.campaignResume c)) :
    (m.state = .running → exec (.campaignResume c) s = .next (s.reply .ok [])) ∧
    (m.state ≠ .running → m.state ≠ .paused → exec (.campaignResume c) s = .next (s.reply .wrongState [])) ∧
    (m.state = .paused → (∀ n ∈ s.classOf m, ∃ e ∈ m.entries, e.oven = n ∧ (s.oven n).serial = some e.serial) →
      exec (.campaignResume c) s = .next (State.reply
        (gateCampaign c (channelChoice (finishCheck c (s.runningWith c m m.entries)))) .ok [])) := by
  have answer := fun r u (k : reqCampaignResume c s = (r, u)) => request_moved h k (Moves.refl.reqCampaignResume c)
  rw [reqCampaignResume, onCampaign_of hm] at answer
  refine ⟨fun k => ?_, fun k1 k2 => ?_, fun k held => ?_⟩
  · rw [k] at answer
    exact answer _ _ rfl
  · cases k : m.state with
    | running => exact absurd k k1
    | paused => exact absurd k k2
    | defined | finished | cancelling =>
      rw [k] at answer
      exact answer _ _ rfl
  · rw [k, resumeCampaign, startCampaign_held hm held] at answer
    exact answer _ _ rfl

theorem clear_answers (h : s.Serves (.campaignClear c)) : exec (.campaignClear c) s = .next
    (if m.state = .finished then (s.setCampaign c none).reply .ok [] else s.reply .wrongState []) := by
  have answer := fun r u (k : reqCampaignClear c s = (r, u)) => request_moved h k (Moves.refl.reqCampaignClear c)
  rw [reqCampaignClear, onCampaign_of hm] at answer
  split_ifs at answer ⊢
  · exact answer _ _ rfl
  · exact answer _ _ rfl

end

/-! ### The window start -/

theorem windowStart_answers (hl : s.Live) (hm : s.campaign c = some m) :
    (¬ (m.windowStart ≠ m.windowEnd ∧ s.clock % 60 = 0 ∧ s.clock / 60 % 1440 = m.windowStart) → exec (.windowStart c) s = .next s) ∧
    (m.windowStart ≠ m.windowEnd ∧ s.clock % 60 = 0 ∧ s.clock / 60 % 1440 = m.windowStart →
      exec (.windowStart c) s = .next (gateCampaign c s)) := by
  have opens : s.windowOpens c = true ↔ m.windowStart ≠ m.windowEnd ∧ s.clock % 60 = 0 ∧ s.clock / 60 % 1440 = m.windowStart := by
    rw [windowOpens_iff, hm]
    exact ⟨fun ⟨_, k, r⟩ => Option.some.inj k ▸ r, fun k => ⟨m, rfl, k⟩⟩
  have run : exec (.windowStart c) s = .next (windowStart c s) :=
    congrArg Host.Outcome.next (event_moves hl (Moves.refl.windowStart c))
  rw [run, windowStart]
  exact ⟨fun k => congrArg Host.Outcome.next (if_neg fun j => k (opens.1 j)), fun k => congrArg Host.Outcome.next (if_pos (opens.2 k))⟩

/-- R173: the one STAGED entry of a campaign is examined. -/
theorem gateCampaign_one (hm : s.campaign c = some m) (h : m.entries.filter (fun x => x.state = .staged) = [e]) :
    gateCampaign c s = gate c e.oven s := by
  unfold gateCampaign
  rw [hm]
  dsimp only
  rw [h]
  rfl

end Sys2Proof.Machine
end

section
/-! PROOF. The release of a channel (R163) and the cancel of a campaign (R178). -/

namespace Sys2Proof.Machine

set_option Elab.async false

variable {s t : State} {n c ch : Nat} {b : Binding} {m : Campaign} {e : CEntry}

/-! ### The release of a channel (R163) -/

/-- R163: a release within a rule, and the entry, which loses its channel. -/
theorem releaseChannel_eq (hc : 1 ≤ ch ∧ ch ≤ 2) (hb : s.channel ch = some b) (outcome : Nat) {abort : Bool} (hs : abort = true → s.Settled) :
    releaseChannel ch outcome abort s =
      (s.released ch b.campaign b.oven outcome abort).modCEntry b.campaign b.oven fun e => { e with channel := none } := by
  let free := (withdrawImage ch s).setChannel ch none
  have quiet : (if abort then kickQuiet (enqueue (imageFrame ch b.oven .imageAbort) free) else free) =
      if abort then deliver (imageFrame ch b.oven .imageAbort) free else free := by
    split_ifs with k
    · exact kickQuiet_released (s := free) (withdrawImage_settled (hs k)) rfl rfl (State.setChannel_channel (withdrawImage ch s) ch none hc)
    · rfl
  have draws : (if abort then deliver (imageFrame ch b.oven .imageAbort) free else free).draws = s.draws := by
    split_ifs
    · exact deliver_keeps_draws _ _
    · rfl
  unfold releaseChannel
  rw [hb]
  dsimp only
  rw [quiet]
  unfold raiseReleased State.drawn State.released
  dsimp only
  rw [draws]

theorem released_settled (hs : s.Settled) (ch c n outcome : Nat) (abort : Bool) : (s.released ch c n outcome abort).Settled := by
  unfold State.released
  dsimp only
  refine raise_settled _ _ _ ?_
  split_ifs
  · exact deliver_settled _ _
  · exact withdrawImage_settled (s := s) hs

theorem released_setCampaign (s : State) (ch c n outcome : Nat) (abort : Bool) (d : Nat) (x : Option Campaign) :
    (s.setCampaign d x).released ch c n outcome abort = (s.released ch c n outcome abort).setCampaign d x := by
  let free := (withdrawImage ch s).setChannel ch none
  unfold State.released
  dsimp only
  cases abort with
  | false => exact raise_setCampaign _ _ _ { free with draws := s.draws + 1 } d x
  | true =>
    have placed := deliver_setCampaign (imageFrame ch n .imageAbort) free d x
    have told := raise_setCampaign .relay ch (le 1 1 ++ le 1 c ++ le 1 n ++ le 3 (Config.releasedOffset s.draws) ++ le 1 outcome)
      { deliver (imageFrame ch n .imageAbort) free with draws := s.draws + 1 } d x
    refine Eq.trans ?_ told
    exact congrArg (fun u : State => raise .relay ch (le 1 1 ++ le 1 c ++ le 1 n ++ le 3 (Config.releasedOffset s.draws) ++ le 1 outcome)
      { u with draws := s.draws + 1 }) placed

theorem released_campaigns (s : State) (ch c n outcome : Nat) (abort : Bool) : (s.released ch c n outcome abort).campaigns = s.campaigns := by
  unfold State.released
  dsimp only
  rw [raise_keeps_campaigns]
  split_ifs
  · exact deliver_keeps_campaigns _ _
  · rfl

theorem released_channel_ne {d : Nat} (h : d ≠ ch) (s : State) (c n outcome : Nat) (abort : Bool) :
    (s.released ch c n outcome abort).channel d = s.channel d := by
  unfold State.released
  dsimp only
  rw [raise_channel]
  have other : ((withdrawImage ch s).setChannel ch none).channel d = s.channel d := State.setChannel_channel_ne _ _ _ _ h
  split_ifs
  · exact (deliver_channel ..).trans other
  · exact other

/-! ### The steps of a cancel (R178) -/

/-- R178 steps 1 to 3: what a cancel does for one entry, apart from the campaign's record. -/
def cancelled (c : Nat) (t : State) (e : CEntry) : State :=
  if e.state.isTransfer then t.released (e.channel.getD 0) c e.oven 3 true
  else if e.state = .staged then
    deliver (ovenFrame .updateRelay e.oven (.discard 0 (Config.imageDropVersion t.draws))) { t with draws := t.draws + 1 }
  else t

theorem cancelled_settled (ht : t.Settled) : (cancelled c t e).Settled := by
  unfold cancelled
  split_ifs
  · exact released_settled ht _ _ _ _ _
  · exact deliver_settled _ _
  · exact ht

theorem cancelled_campaigns : (cancelled c t e).campaigns = t.campaigns := by
  unfold cancelled
  split_ifs
  · exact released_campaigns _ _ _ _ _ _
  · exact deliver_keeps_campaigns _ _
  · rfl

/-- R162: the binding of an entry's channel names the entry. -/
def State.bindsEntry (s : State) (c : Nat) (e : CEntry) : Prop :=
  ∃ ch ∈ e.channel, 1 ≤ ch ∧ ch ≤ 2 ∧ ∃ b ∈ s.channel ch, b.campaign = c ∧ b.oven = e.oven

/-- The release of one entry's channel leaves the others bound. -/
theorem cancelled_bindsEntry {x : CEntry} (hx : t.bindsEntry c x) (he : e.state.isTransfer = true → t.bindsEntry c e) (apart : x.oven ≠ e.oven) :
    (cancelled c t e).bindsEntry c x := by
  obtain ⟨ch, hch, h1, h2, b, hb, hbc, hbo⟩ := hx
  refine ⟨ch, hch, h1, h2, b, ?_, hbc, hbo⟩
  unfold cancelled
  split_ifs with transfer
  · obtain ⟨k, hk, -, -, a, ha, -, hao⟩ := he transfer
    have other : ch ≠ k := fun j => apart (by
      subst j
      rw [← hbo, ← hao, Option.mem_unique hb ha])
    rw [Option.mem_def.1 hk, Option.getD_some, released_channel_ne other]
    exact hb
  · rw [deliver_channel]
    exact hb
  · exact hb

theorem removeCEntry_setCampaign (hc : 1 ≤ c ∧ c ≤ 4) (t : State) (l : List CEntry) (n : Nat) :
    (t.setCampaign c (some { m with entries := l })).removeCEntry c n =
      t.setCampaign c (some { m with entries := l.filter fun x => x.oven ≠ n }) :=
  (modCampaign_some (State.setCampaign_campaign t c (some { m with entries := l }) hc) _).trans (setCampaign_setCampaign t c _ _)

theorem centry_setCampaign (hc : 1 ≤ c ∧ c ≤ 4) {l : List CEntry} (nd : (l.map CEntry.oven).Nodup) (he : e ∈ l) :
    (t.setCampaign c (some { m with entries := l })).centry c e.oven = some e := by
  rw [centry_of_campaign (State.setCampaign_campaign t c (some { m with entries := l }) hc)]
  cases found : Campaign.entry { m with entries := l } e.oven with
  | none =>
    have := List.find?_eq_none.1 found e he
    simp at this
  | some x =>
    have same : x.oven = e.oven := by simpa using List.find?_some found
    rw [eq_of_oven nd (List.mem_of_find?_eq_some found) he same]

/-- R178: one entry that does not stand APPLYING leaves the campaign. -/
theorem cancelEntry_eq (hc : 1 ≤ c ∧ c ≤ 4) (ht : t.Settled) {l : List CEntry} (nd : (l.map CEntry.oven).Nodup) (he : e ∈ l)
    (live : e.state ≠ .applying) (bound : e.state.isTransfer = true → t.bindsEntry c e) :
    cancelEntry c (t.setCampaign c (some { m with entries := l })) e =
      (cancelled c t e).setCampaign c (some { m with entries := l.filter fun x => x.oven ≠ e.oven }) := by
  let u := t.setCampaign c (some { m with entries := l })
  have transfer : e.state.isTransfer = true → abortEntry c e.oven u =
      (t.released (e.channel.getD 0) c e.oven 3 true).setCampaign c (some { m with entries := l.filter fun x => x.oven ≠ e.oven }) :=
    fun k => by
      obtain ⟨ch, hch, h1, h2, b, hb, rfl, ho⟩ := bound k
      have channel : e.channel = some ch := hch
      have entry : u.centry b.campaign e.oven = some e := centry_setCampaign hc nd he
      have released : releaseChannel ch 3 true u = (u.released ch b.campaign b.oven 3 true).modCEntry b.campaign b.oven
        fun e => { e with channel := none } := releaseChannel_eq (s := u) ⟨h1, h2⟩ hb 3 fun _ => ht
      unfold abortEntry releaseEntry outcomeAborted
      rw [entry, Option.bind_some, channel]
      dsimp only
      rw [released, ho, removeCEntry_modCEntry _ _ _ _ (by exact fun _ => rfl), released_setCampaign, removeCEntry_setCampaign hc]
      rfl
  unfold cancelEntry cancelled
  cases k : e.state with
  | transferring => exact transfer (by rw [k]; rfl)
  | suspended => exact transfer (by rw [k]; rfl)
  | staged =>
    have placed := placeFor_eq_deliver (s := u.drawn) ht .updateRelay e.oven (.discard 0 (Config.imageDropVersion t.draws))
    have pushed := deliver_setCampaign (ovenFrame .updateRelay e.oven (.discard 0 (Config.imageDropVersion t.draws)))
      { t with draws := t.draws + 1 } c (some { m with entries := l })
    refine Eq.trans (congrArg (fun v => State.removeCEntry v c e.oven) (placed.trans pushed)) ?_
    exact removeCEntry_setCampaign hc _ _ _
  | waiting => exact removeCEntry_setCampaign hc t l e.oven
  | done => exact removeCEntry_setCampaign hc t l e.oven
  | failed => exact removeCEntry_setCampaign hc t l e.oven
  | skipped => exact removeCEntry_setCampaign hc t l e.oven
  | applying => exact absurd k live

theorem foldl_cancelEntry (hc : 1 ≤ c ∧ c ≤ 4) (ts : List CEntry) {l : List CEntry} {t : State} (ht : t.Settled)
    (nd : (l.map CEntry.oven).Nodup) (tnd : (ts.map CEntry.oven).Nodup) (sub : ∀ e ∈ ts, e ∈ l) (live : ∀ e ∈ ts, e.state ≠ .applying)
    (bound : ∀ e ∈ ts, e.state.isTransfer = true → t.bindsEntry c e) :
    ts.foldl (cancelEntry c) (t.setCampaign c (some { m with entries := l })) =
      (ts.foldl (cancelled c) t).setCampaign c (some { m with entries := l.filter fun x => x.oven ∉ ts.map CEntry.oven }) := by
  induction ts generalizing l t with
  | nil => simp
  | cons e ts ih =>
    obtain ⟨fresh, rest⟩ := List.nodup_cons.1 tnd
    have apart : ∀ x ∈ ts, x.oven ≠ e.oven := fun x hx k => fresh (k ▸ List.mem_map_of_mem hx)
    rw [List.foldl_cons, cancelEntry_eq hc ht nd (sub e List.mem_cons_self) (live e List.mem_cons_self) (bound e List.mem_cons_self),
      ih (cancelled_settled ht) (nd.sublist (List.filter_sublist.map _)) rest
        (fun x hx => List.mem_filter.2 ⟨sub x (List.mem_cons_of_mem e hx), decide_eq_true (apart x hx)⟩)
        (fun x hx => live x (List.mem_cons_of_mem e hx))
        (fun x hx k => cancelled_bindsEntry (bound x (List.mem_cons_of_mem e hx) k) (bound e List.mem_cons_self) (apart x hx)),
      List.filter_filter, List.foldl_cons]
    refine congrArg (fun l => (ts.foldl (cancelled c) (cancelled c t e)).setCampaign c (some { m with entries := l }))
      (List.filter_congr fun x _ => ?_)
    simp only [List.map_cons, List.mem_cons, not_or, ← Bool.decide_and]
    exact decide_eq_decide.2 and_comm

/-! ### The cancel of a campaign (R178) -/

/-- R178 step 1: the transfers aborted. -/
def State.abortedOf (s : State) (c : Nat) (m : Campaign) : State :=
  (m.entries.filter fun e => e.state = .transferring ∨ e.state = .suspended).foldl
    (fun t e => t.released (e.channel.getD 0) c e.oven 3 true) s

/-- R178 steps 1 and 2: and DISCARD to the ovens of STAGED entries. -/
def State.droppedOf (s : State) (c : Nat) (m : Campaign) : State :=
  (m.entries.filter fun e => e.state = .staged).foldl (fun t e =>
    deliver (ovenFrame .updateRelay e.oven (.discard 0 (Config.imageDropVersion t.draws))) { t with draws := t.draws + 1 }) (s.abortedOf c m)

/-- R178: what a cancel leaves before the channel choice. -/
def State.cancelledOf (s : State) (c : Nat) (m : Campaign) : State :=
  if m.entries.filter (fun e => e.state = .applying) = [] then raise .campaign c (le 1 1) ((s.droppedOf c m).setCampaign c none)
  else (s.droppedOf c m).setCampaign c (some { m with state := .cancelling, entries := m.entries.filter fun e => e.state = .applying })

/-- R178: the entries that a cancel takes, in its order. -/
def Campaign.taken (m : Campaign) : List CEntry :=
  (m.entries.filter fun e => e.state.isTransfer) ++ (m.entries.filter fun e => e.state = .staged) ++
    m.entries.filter fun e => e.state ≠ .staged && !e.state.isTransfer && e.state ≠ .applying

theorem isTransfer_iff (x : CEntryState) : x.isTransfer = true ↔ x = .transferring ∨ x = .suspended := by
  cases x <;> simp [CEntryState.isTransfer]

theorem mem_taken : e ∈ m.taken ↔ e ∈ m.entries ∧ e.state ≠ .applying := by
  unfold Campaign.taken
  simp only [List.mem_append, List.mem_filter]
  cases e.state <;> simp [CEntryState.isTransfer]

theorem taken_nodup (nd : (m.entries.map CEntry.oven).Nodup) : (m.taken.map CEntry.oven).Nodup := by
  have entries : m.entries.Nodup := List.Nodup.of_map _ nd
  refine List.Nodup.map_on (fun x hx y hy => eq_of_oven nd (mem_taken.1 hx).1 (mem_taken.1 hy).1) ?_
  unfold Campaign.taken
  rw [List.nodup_append, List.nodup_append]
  refine ⟨⟨entries.filter _, entries.filter _, ?_⟩, entries.filter _, ?_⟩
  · rintro x hx y hy rfl
    obtain ⟨-, h1⟩ := List.mem_filter.1 hx
    obtain ⟨-, h2⟩ := List.mem_filter.1 hy
    rw [of_decide_eq_true h2] at h1
    cases h1
  · rintro x hx y hy rfl
    obtain ⟨-, h2⟩ := List.mem_filter.1 hy
    simp only [Bool.and_eq_true, Bool.not_eq_true', decide_eq_true_eq] at h2
    rcases List.mem_append.1 hx with k | k
    · rw [(List.mem_filter.1 k).2] at h2
      exact Bool.noConfusion h2.1.2
    · exact h2.1.1 (of_decide_eq_true (List.mem_filter.1 k).2)

/-- What the entries taken leave of the state apart from the campaign. -/
theorem foldl_cancelled : m.taken.foldl (cancelled c) s = s.droppedOf c m := by
  have transfers : (m.entries.filter fun e => e.state.isTransfer).foldl (cancelled c) s = s.abortedOf c m := by
    have same : (m.entries.filter fun e => e.state.isTransfer) =
        m.entries.filter fun e => e.state = .transferring ∨ e.state = .suspended := List.filter_congr fun e _ => by
      cases e.state <;> rfl
    rw [State.abortedOf, ← same]
    exact List.foldl_ext _ _ _ fun t e he => if_pos (List.mem_filter.1 he).2
  have rest : ∀ t : State, (m.entries.filter fun e => e.state ≠ .staged && !e.state.isTransfer && e.state ≠ .applying).foldl
      (cancelled c) t = t := fun t => by
    refine (List.foldl_ext _ (fun u _ => u) _ fun u e he => ?_).trans (List.foldl_fixed _)
    obtain ⟨-, k⟩ := List.mem_filter.1 he
    simp only [Bool.and_eq_true, Bool.not_eq_true', decide_eq_true_eq] at k
    exact (if_neg (by rw [k.1.2]; decide)).trans (if_neg k.1.1)
  rw [Campaign.taken, List.foldl_append, List.foldl_append, transfers, rest, State.droppedOf]
  refine List.foldl_ext _ _ _ fun t e he => ?_
  have staged := of_decide_eq_true (List.mem_filter.1 he).2
  exact (if_neg (by rw [staged]; decide)).trans (if_pos staged)

theorem droppedOf_settled (hs : s.Settled) : (s.droppedOf c m).Settled := by
  rw [← foldl_cancelled]
  generalize m.taken = l
  induction l generalizing s with
  | nil => exact hs
  | cons e l ih => exact ih (cancelled_settled hs)

theorem droppedOf_campaigns : (s.droppedOf c m).campaigns = s.campaigns := by
  rw [← foldl_cancelled]
  generalize m.taken = l
  induction l generalizing s with
  | nil => rfl
  | cons e l ih => exact ih.trans cancelled_campaigns

theorem cancelEntry_applying (h : e.state = .applying) : cancelEntry c s e = s := by
  unfold cancelEntry
  rw [h]

/-- R178: the entries of a cancel in turn: those that stand APPLYING stay. -/
theorem foldl_cancel (s : State) :
    (m.entries.filter fun e => e.state ≠ .staged && !e.state.isTransfer).foldl (cancelEntry c)
      ((m.entries.filter fun e => e.state = .staged).foldl (cancelEntry c)
        ((m.entries.filter fun e => e.state.isTransfer).foldl (cancelEntry c) s)) = m.taken.foldl (cancelEntry c) s := by
  rw [Campaign.taken, List.foldl_append, List.foldl_append]
  generalize (m.entries.filter fun e => e.state = .staged).foldl (cancelEntry c) _ = t
  have split : (m.entries.filter fun e => e.state ≠ .staged && !e.state.isTransfer && e.state ≠ .applying) =
      (m.entries.filter fun e => e.state ≠ .staged && !e.state.isTransfer).filter fun e => e.state ≠ .applying := by
    rw [List.filter_filter]
    exact List.filter_congr fun e _ => Bool.and_comm ..
  rw [split]
  refine Eq.trans ?_ (List.foldl_filter ..).symm
  refine List.foldl_ext _ _ _ fun u e _ => ?_
  split_ifs with k
  · rfl
  · exact cancelEntry_applying (not_not.1 fun j => k (decide_eq_true j))

/-- R178: a cancel, its steps in turn. -/
theorem cancelCampaign_of (hm : s.campaign c = some m) : cancelCampaign c s = channelChoice
    (if m.entries.filter (fun e => e.state = .applying) = [] then emptyCampaign c (m.taken.foldl (cancelEntry c) s)
    else (m.taken.foldl (cancelEntry c) s).modCampaign c fun m => { m with state := .cancelling }) := by
  have some : m.entries.any (fun e => e.state = .applying) = true ↔ ¬ m.entries.filter (fun e => e.state = .applying) = [] := by
    rw [List.filter_eq_nil_iff, List.any_eq_true]
    simp only [not_forall, not_not, exists_prop]
  unfold cancelCampaign
  rw [hm]
  dsimp only
  rw [foldl_cancel]
  simp only [some, ite_not]

theorem cancelCampaign_eq (hs : s.Settled) (hm : s.campaign c = some m) (nd : (m.entries.map CEntry.oven).Nodup)
    (bound : ∀ e ∈ m.entries, e.state = .transferring ∨ e.state = .suspended → s.bindsEntry c e) :
    cancelCampaign c s = channelChoice (s.cancelledOf c m) := by
  have hc := campaign_some_iff hm
  have left : (m.entries.filter fun x => x.oven ∉ m.taken.map CEntry.oven) = m.entries.filter fun e => e.state = .applying :=
    List.filter_congr fun x hx => decide_eq_decide.2 ⟨fun k => by
      by_contra j
      exact k (List.mem_map_of_mem (mem_taken.2 ⟨hx, j⟩)), fun k j => by
      obtain ⟨y, hy, ho⟩ := List.mem_map.1 j
      have same := eq_of_oven nd (mem_taken.1 hy).1 hx ho
      exact (mem_taken.1 hy).2 (same ▸ k)⟩
  have folded := foldl_cancelEntry (m := m) hc m.taken hs nd (taken_nodup nd) (fun e he => (mem_taken.1 he).1)
    (fun e he => (mem_taken.1 he).2) fun e he k => bound e (mem_taken.1 he).1 ((isTransfer_iff _).1 k)
  rw [foldl_cancelled, left] at folded
  rw [show ({ m with entries := m.entries } : Campaign) = m from rfl, setCampaign_same hm] at folded
  rw [cancelCampaign_of hm, folded, State.cancelledOf, emptyCampaign, setCampaign_setCampaign,
    modCampaign_some (State.setCampaign_campaign _ _ _ hc), setCampaign_setCampaign]

theorem cancelledOf_settled (hs : s.Settled) : (s.cancelledOf c m).Settled := by
  unfold State.cancelledOf
  split_ifs
  · exact raise_settled _ _ _ (droppedOf_settled (c := c) (m := m) hs)
  · exact droppedOf_settled (c := c) (m := m) hs

theorem droppedOf_campaign {d : Nat} : (s.droppedOf c m).campaign d = s.campaign d := by
  rw [State.campaign, droppedOf_campaigns]
  rfl

/-- R162: after a cancel of the only campaign nobody is served. -/
theorem cancelledOf_choice (hs : s.Settled) (hc : 1 ≤ c ∧ c ≤ 4) (others : ∀ d, d ≠ c → s.campaign d = none) :
    channelChoice (s.cancelledOf c m) = s.cancelledOf c m := by
  refine channelChoice_idle (cancelledOf_settled hs) (.inl (candidate_sole_none (c := c) (fun d hd => ?_) ?_))
  · unfold State.cancelledOf
    split_ifs
    · rw [raise_campaign, State.setCampaign_campaign_ne _ _ _ _ hd, droppedOf_campaign, others d hd]
    · rw [State.setCampaign_campaign_ne _ _ _ _ hd, droppedOf_campaign, others d hd]
  · unfold State.cancelledOf
    split_ifs
    · refine candidateIn_none ?_
      rw [raise_campaign, State.setCampaign_campaign _ _ _ hc]
    · exact candidateIn_other (State.setCampaign_campaign _ _ _ hc) fun k => nomatch (k.1 : CampaignState.cancelling = .running)

end Sys2Proof.Machine
end

section
/-! PROOF. The obligation about campaigns: requests, cancel, gating and the window start (08). -/

namespace Sys2Proof.Machine

set_option Elab.async false

variable {s t : State} {n c ch : Nat} {b : Binding} {m : Campaign} {e : CEntry}

/-- R178: entries with nothing under way are only removed. -/
theorem foldl_cancelEntry_plain (hc : 1 ≤ c ∧ c ≤ 4) (ts : List CEntry) (l : List CEntry)
    (plain : ∀ e ∈ ts, e.state = .waiting ∨ e.state = .done ∨ e.state = .failed ∨ e.state = .skipped) :
    ∃ r, ts.foldl (cancelEntry c) (s.setCampaign c (some { m with entries := l })) = s.setCampaign c (some { m with entries := r }) := by
  induction ts generalizing l with
  | nil => exact ⟨l, rfl⟩
  | cons e ts ih =>
    have removed : cancelEntry c (s.setCampaign c (some { m with entries := l })) e =
        s.setCampaign c (some { m with entries := l.filter fun x => x.oven ≠ e.oven }) := by
      rw [← removeCEntry_setCampaign hc]
      unfold cancelEntry
      rcases plain e List.mem_cons_self with k | k | k | k <;> rw [k]
    rw [List.foldl_cons, removed]
    exact ih _ fun x hx => plain x (List.mem_cons_of_mem e hx)

theorem cancelCampaign_plain (hs : s.Settled) (hm : s.campaign c = some m) (others : ∀ d, d ≠ c → s.campaign d = none)
    (plain : ∀ e ∈ m.entries, e.state = .waiting ∨ e.state = .done ∨ e.state = .failed ∨ e.state = .skipped) :
    cancelCampaign c s = raise .campaign c (le 1 1) (s.setCampaign c none) := by
  have hc := campaign_some_iff hm
  have none : m.entries.filter (fun e => e.state = .applying) = [] :=
    List.filter_eq_nil_iff.2 fun e he k => by
      have := of_decide_eq_true k
      rcases plain e he with x | x | x | x <;> rw [x] at this <;> cases this
  obtain ⟨r, hr⟩ := foldl_cancelEntry_plain (s := s) (m := m) hc m.taken m.entries fun e he => plain e (mem_taken.1 he).1
  rw [show ({ m with entries := m.entries } : Campaign) = m from rfl, setCampaign_same hm] at hr
  have nowhere : (raise .campaign c (le 1 1) (s.setCampaign c Option.none)).NoCampaigns := fun d => by
    rw [raise_campaign]
    by_cases k : d = c
    · rw [k, State.setCampaign_campaign _ _ _ hc]
    · rw [State.setCampaign_campaign_ne _ _ _ _ k, others d k]
  rw [cancelCampaign_of hm, if_pos none, hr, emptyCampaign, setCampaign_setCampaign]
  exact channelChoice_none nowhere (raise_settled _ _ _ (s := s.setCampaign c Option.none) hs)

section
variable (hm : s.campaign c = some m) (h : s.Serves (.campaignCancel c))
include hm h

theorem cancel_cancelling (k : m.state = .cancelling) : exec (.campaignCancel c) s = .next (s.reply .ok []) := by
  have answer := fun r u (k : reqCampaignCancel c s = (r, u)) => request_moved h k (Moves.refl.reqCampaignCancel c)
  rw [reqCampaignCancel, onCampaign_of hm, k] at answer
  exact answer _ _ rfl

theorem cancel_idle (k : m.state = .defined ∨ m.state = .finished) :
    exec (.campaignCancel c) s = .next (State.reply (raise .campaign c (le 1 1) (s.setCampaign c none)) .ok []) := by
  have answer := fun r u (k : reqCampaignCancel c s = (r, u)) => request_moved h k (Moves.refl.reqCampaignCancel c)
  rw [reqCampaignCancel, onCampaign_of hm] at answer
  rcases k with k | k <;> rw [k] at answer
  · exact answer _ _ rfl
  · exact answer _ _ rfl

theorem cancel_running (k : m.state = .running ∨ m.state = .paused) :
    exec (.campaignCancel c) s = .next ((cancelCampaign c s).reply .ok []) := by
  have answer := fun r u (k : reqCampaignCancel c s = (r, u)) => request_moved h k (Moves.refl.reqCampaignCancel c)
  rw [reqCampaignCancel, onCampaign_of hm] at answer
  rcases k with k | k <;> rw [k] at answer
  · exact answer _ _ rfl
  · exact answer _ _ rfl

end

/-- Settles O57. -/
theorem campaignsStartAndEnd : Obligations.CampaignsStartAndEnd := by
  refine ⟨fun s c a h => campaignPut_answers h, fun s c i h kind => campaign_refused h kind, fun s c m h1 h4 hm => ?_⟩
  have hc : 1 ≤ c ∧ c ≤ 4 := ⟨h1, h4⟩
  refine ⟨finishCheck_of hm, fun h hd ho hu he hs others room => ⟨fun e mem served first ch c1 c2 free lowest => ?_,
    fun waiting nobody => ?_⟩, fun h => ?_, pause_answers hm, resume_answers hm, fun h => ?_, clear_answers hm, fun n e he => ?_, fun hl => ?_⟩
  · have full : (∃ x ∈ (s.classOf m).map (s.newEntry m), x.state = .waiting) := ⟨e, mem, served.1⟩
    have checked := finishCheck_waiting (runningWith_campaign (s := s) (m := m) hc _) full
    have opens := start_served (s := s) (m := m) hc others h.1.1 hs room mem served first c1 c2 ((channelFree_iff s ch).2 free)
      fun k k1 k2 => eq_false_of_ne_true fun j => lowest k k1 k2 ((channelFree_iff s k).1 j)
    have answered := start_answers hm h hd ho hu he
    rw [checked, opens] at answered
    exact answered
  · have full : (∃ x ∈ (s.classOf m).map (s.newEntry m), x.state = .waiting) := waiting
    have checked := finishCheck_waiting (runningWith_campaign (s := s) (m := m) hc _) full
    have idle := start_unserved (s := s) (m := m) hc others hs nobody
    have answered := start_answers hm h hd ho hu he
    rw [checked, idle] at answered
    exact answered
  · obtain ⟨wrong, closed, unset⟩ := start_refused hm h
    exact ⟨wrong, closed, unset, start_answers hm h⟩
  · refine ⟨cancel_cancelling hm h, cancel_idle hm h, fun k hs others plain => ?_, fun k hs nd bound => ?_⟩
    · rw [cancel_running hm h k, cancelCampaign_plain hs hm others plain]
    · have taken : exec (.campaignCancel c) s = .next ((channelChoice (s.cancelledOf c m)).reply .ok []) := by
        rw [cancel_running hm h k, cancelCampaign_eq hs hm nd bound]
      refine ⟨taken, fun others => ?_⟩
      rw [taken, cancelledOf_choice hs hc others]
      rfl
  · have shut := fun k => gate_shut hm he k
    refine ⟨fun k => shut fun j => k j.1, fun k => shut fun j => k j.2.running, fun k => shut fun j => ?_, fun k => shut fun j => k j.2.window,
      fun k => shut fun j => ?_, fun k => shut fun j => ?_, fun p hp k => shut fun j => j.2.clean p hp k, fun k => shut fun j => k j.2.unlocked,
      fun staged run set window present permit clean unlocked hs hn hw hv => ?_⟩
    · rw [j.2.clockSet] at k
      cases k
    · rw [j.2.present] at k
      cases k
    · rw [j.2.permit] at k
      cases k
    · exact (gate_open hm he staged ⟨run, set, window, present, permit, clean, unlocked⟩).trans (applyBegin_eq hs hn hw hm he unlocked hv)
  · obtain ⟨shut, opened⟩ := windowStart_answers hl hm
    refine ⟨shut, opened, fun e opens only he hs run set hn hw present permit clean unlocked hv => ?_⟩
    have mem : e ∈ m.entries.filter fun x => x.state = .staged := only ▸ List.mem_singleton_self e
    have staged : e.state = .staged := of_decide_eq_true (List.mem_filter.1 mem).2
    have window : m.inside (s.clock / 60 % 1440) := by
      obtain ⟨apart, -, minute⟩ := opens
      unfold Campaign.inside
      omega
    rw [opened opens, gateCampaign_one hm only, gate_open hm he staged ⟨run, set, window, present, permit, clean, unlocked⟩,
      applyBegin_eq hs hn hw hm he unlocked hv]

end Sys2Proof.Machine
end

section
/-! PROOF. Refutation of the image relay (R161): what the statement says of a failed attempt asks that the entry is the one found for its
oven, not that the campaign holds no other entry of that oven. -/

namespace Sys2Proof.Machine

set_option Elab.async false

/-- An entry of the oven in slot 1, with or without a channel. -/
def waitingOn (channel : Option Nat) : CEntry :=
  { oven := 1, serial := 5, state := .suspended, attempts := 0, channel := channel, timeouts := 0, deadline := none }

/-- A PAUSED campaign that holds two entries of one oven: the first has no channel, the second has channel 1. -/
def twofold : Campaign where
  model := 1
  fromVersions := []
  toVersion := ⟨1, 0, 0⟩
  imageSize := 6
  imageCrc := 0
  windowStart := 0
  windowEnd := 0
  concurrency := 1
  state := .paused
  entries := [waitingOn none, waitingOn (some 1)]

/-- The reset state with that campaign in slot 1. -/
def doubled : State := State.reset.setCampaign 1 (some twofold)

/-- The channels that the entries of campaign 1 name. -/
def namedChannels (s : State) : Option (List (Option Nat)) := (s.campaign 1).map fun m => m.entries.map CEntry.channel

/-- The model leaves the second entry its channel: the attempt of the first had none to release. -/
theorem doubled_failedAttempt : namedChannels (failedAttempt 1 1 1 doubled) = some [none, some 1] := by decide

/-- Refutes O58: the statement's change of the entry clears the channel of every entry of the oven. -/
theorem not_imagesAreRelayed : ¬ Obligations.ImagesAreRelayed := by
  rintro ⟨-, -, -, attempts, -⟩
  obtain ⟨-, unbound⟩ := attempts doubled 1 1 1 twofold (waitingOn none) rfl rfl
  obtain ⟨counted, -⟩ := unbound rfl
  have same := congrArg namedChannels (counted (by decide) (by decide))
  rw [doubled_failedAttempt] at same
  revert same
  decide

end Sys2Proof.Machine
end

section
/-! PROOF. The steps of a REJOIN of an oven in service (R38): the permit closed (R103), the clean abandoned (R125), the campaign entry
resumed or judged (R170, R175, R176). -/

namespace Sys2Proof.Machine

set_option Elab.async false

variable {s t : State} {n c ch : Nat} {b : Binding} {m : Campaign} {e : CEntry} {h : Hygiene} {p : Permit}

/-! ### The open permit (R103) -/

theorem closeByRejoin_none (hp : s.permit n = none) : closeByRejoin n s = s := by
  unfold closeByRejoin
  rw [hp]

theorem totalSoil_of {number version : Nat} {r : Recipe} {f : Figures} (hr : s.recipe number version = some r) (hf : r.figures = some f) :
    s.totalSoil number version = f.totalSoil := by
  unfold State.totalSoil
  rw [hr, Option.bind_some, hf]

/-- R111: a charge. -/
def Hygiene.charged (h : Hygiene) (k : Nat) : Hygiene := { h with soil := min 65535 (h.soil + k) }

/-- R111, R114: a charge that leaves the cleaning state. -/
theorem chargeSoil_still (hh : s.hygiene n = some h) {k : Nat} (same : (h.charged k).judged = h.state) :
    chargeSoil n k s = s.withHygiene n (h.charged k) := by
  have hn := slot_of_hygiene hh
  unfold chargeSoil
  rw [modHygiene_eq hh]
  exact reevaluate_same (s := s.withHygiene n (h.charged k)) (withHygiene_hygiene hn _) same

/-- R148: the tickets that name a permit lose their link. -/
def State.unlinkedFrom (s : State) (k : Nat) : List Ticket :=
  s.tickets.map fun t => if t.permit = some k then { t with permit := none } else t

/-- R101, R103: what the closure of a permit leaves of the records, before an unload that waited for it. -/
def State.closedBy (s : State) (n : Nat) (p : Permit) (h : Hygiene) : State :=
  dropRef p.recipe p.version (State.setPermit { s.withHygiene n h with tickets := s.unlinkedFrom p.number } n none)

/-- R103: the closure by a REJOIN. -/
theorem closeByRejoin_eq (hp : s.permit n = some p) {r : Recipe} {f : Figures} (hr : s.recipe p.recipe p.version = some r)
    (hf : r.figures = some f) (hh : s.hygiene n = some h) (same : (h.charged f.totalSoil).judged = h.state)
    (hu : unloadDeferred n (s.closedBy n p (h.charged f.totalSoil)) = t) (hc : t.NoCampaigns) :
    closeByRejoin n s = raise .permitLapsed n (le 2 p.number ++ le 2 p.recipe ++ le 1 p.version ++ le 1 1) t := by
  let w : State := { s.withHygiene n (h.charged f.totalSoil) with tickets := s.unlinkedFrom p.number }
  have charged : chargeSoil n (s.totalSoil p.recipe p.version) s = s.withHygiene n (h.charged f.totalSoil) := by
    rw [totalSoil_of hr hf]
    exact chargeSoil_still hh same
  have settled : settleTickets p.number false (s.withHygiene n (h.charged f.totalSoil)) = w := rfl
  have open_ : w.permit n = some p := hp
  unfold closeByRejoin
  rw [hp]
  dsimp only
  rw [closeNominal, charged, settled, removePermit, open_]
  dsimp only
  rw [if_pos rfl]
  show raiseLapsed n p 1 (gateOven n (unloadDeferred n (s.closedBy n p (h.charged f.totalSoil)))) = _
  rw [hu, gateOven_none hc]
  rfl

theorem unloadDeferred_none (h : ∀ x ∈ s.loadedOf n, x.deferred = false) : unloadDeferred n s = s := by
  have none : (s.loadedOf n).filter (·.deferred) = [] := List.filter_eq_nil_iff.2 fun x hx => by simp [h x hx]
  unfold unloadDeferred
  rw [none]
  rfl

/-- R72: the one entry that waited for the permit goes to UNLOADING. -/
theorem unloadDeferred_sole {e : Entry} (h : s.Holds n e) (hd : e.deferred = true) (ht : e.state.inTransfer = false)
    (only : ∀ x ∈ s.loadedOf n, x.deferred = true → x = e) : unloadDeferred n s = beginUnload n e.number e.version s := by
  have one : (s.loadedOf n).filter (·.deferred) = [e] := filter_sole (List.Nodup.of_map _ h.once) h.mem hd only
  unfold unloadDeferred
  rw [one]
  show (if List.any [e] (·.state.inTransfer) then _ else _) = _
  rw [if_neg (by simp [ht])]
  rfl

theorem closedBy_loaded : (s.closedBy n p h).loaded = s.loaded := rfl
theorem closedBy_campaigns : (s.closedBy n p h).campaigns = s.campaigns := rfl

theorem closedBy_settled (hs : s.Settled) : (s.closedBy n p h).Settled := hs

/-! ### The clean in progress (R125) -/

theorem hygieneRejoin_unclean (hs : s.Settled) (hw : s.inService n) (hh : s.hygiene n = some h) (hc : h.clean = none) :
    hygieneRejoin n s = deliver (hygieneFrame s n h) s := by
  have none : s.clean n = none := by rw [State.clean, hh, Option.bind_some, hc]
  unfold hygieneRejoin
  rw [none]
  exact placeHygieneState_eq hs hw hh

theorem hygieneRejoin_cleaning {k : Clean} (hs : s.Settled) (hw : s.inService n) (hh : s.hygiene n = some h) (hc : h.clean = some k)
    (hst : h.state = .cleaning) (hm : s.NoCampaigns) :
    let h' := (h.abandoned k).restated
    hygieneRejoin n s = deliver (hygieneFrame s n h') (raise .hygiene n (hygieneDetail 5 h' (k.programme.code + 1)
      ((k.phase.map fun q => q.code + 1).getD 0)) (deliver (hygieneFrame s n h') (s.withHygiene n h'))) := by
  intro h'
  have hn := slot_of_hygiene hh
  let u := raise .hygiene n (hygieneDetail 5 h' (k.programme.code + 1) ((k.phase.map fun q => q.code + 1).getD 0))
    (deliver (hygieneFrame s n h') (s.withHygiene n h'))
  have record : u.oven n = { s.oven n with hygiene := some h' } := by
    rw [raise_oven, deliver_oven]
    exact withHygiene_oven hn h'
  have service : u.inService n := by
    unfold State.inService
    rw [record]
    exact hw
  have part : u.hygiene n = some h' := by rw [State.hygiene, record]
  have settled : u.Settled := raise_settled _ _ _ (deliver_settled _ _)
  have told := placeHygieneState_eq settled service part
  unfold hygieneRejoin
  rw [clean_eq hh hc]
  dsimp only
  rw [abandonClean_eq hs hw hh k 5 hst hm]
  refine told.trans ?_
  have clock : u.clock = s.clock := by
    rw [raise_clock, deliver_clock]
    rfl
  show deliver (hygieneFrame u n h') u = deliver (hygieneFrame s n h') u
  unfold hygieneFrame
  rw [clock]

/-! ### The campaign entry (R170, R175, R176) -/

theorem judgeApply_unapplying (h : ∀ c e, s.centry c n = some e → e.state ≠ .applying) : judgeApply n s = s := by
  have none : s.campaignWhere n (fun x => x = .applying) = none := campaignWhere_nowhere fun c e he => decide_eq_false (h c e he)
  unfold judgeApply
  rw [none]

theorem relayRejoin_idle (h : ∀ c e, s.centry c n = some e → e.state ≠ .transferring ∧ e.state ≠ .suspended ∧ e.state ≠ .applying) :
    relayRejoin n s = s := by
  have none : s.campaignWhere n CEntryState.isTransfer = none := campaignWhere_nowhere fun c e he => by
    obtain ⟨h1, h2, -⟩ := h c e he
    exact eq_false_of_ne_true fun k => ((isTransfer_iff _).1 k).elim h1 h2
  have still : reopenOven n CEntryState.isTransfer s = s := by
    unfold reopenOven
    rw [none]
    rfl
  rw [relayRejoin, still, judgeApply_unapplying fun c e he => (h c e he).2.2]

section
variable (he : s.centry c n = some e) (only : ∀ d, d ≠ c → s.centry d n = none)
include he only

/-- R170: a transfer is reopened. -/
theorem relayRejoin_transfer (hs : s.Settled) (hm : s.campaign c = some m) (ht : e.state = .transferring ∨ e.state = .suspended)
    (hx : e.channel = some ch) (hc : 1 ≤ ch ∧ ch ≤ 2) (hb : s.channel ch = some b) (bc : b.campaign = c) (bn : b.oven = n) :
    relayRejoin n s = reopen ch s := by
  have opened : reopenOven n CEntryState.isTransfer s = reopen ch s := reopenOven_of he only ((isTransfer_iff _).2 ht) hx
  rw [relayRejoin, opened]
  subst bc bn
  refine judgeApply_unapplying fun d x hd => ?_
  rw [reopen_centry hs hc hb hm] at hd
  by_cases k : d = b.campaign
  · rw [if_pos k, k, he] at hd
    cases hd
    exact fun j => nomatch (j : CEntryState.transferring = .applying)
  · rw [if_neg k, only d k] at hd
    cases hd

theorem judgeApply_of (hm : s.campaign c = some m) (ha : e.state = .applying) : judgeApply n s =
    if (s.oven n).firmware = some m.toVersion then applyDone c n s else applyFailed causeVersion c n s := by
  have found : s.campaignWhere n (fun x => x = .applying) = some c := by
    rw [campaignWhere_sole he only, if_pos (by simp [ha])]
  unfold judgeApply
  rw [found]
  dsimp only
  rw [hm]

theorem relayRejoin_applying (ha : e.state = .applying) : relayRejoin n s = judgeApply n s := by
  rw [relayRejoin, reopenOven_other he only (by rw [ha]; rfl)]

theorem stagedRejoin_staged (ht : e.state = .staged) (imageStaged : Bool) : stagedRejoin n imageStaged s =
    if imageStaged then gate c n s else channelChoice (s.modCEntry c n fun x => { x with state := .waiting }) := by
  have found : s.campaignWhere n (fun x => x = .staged) = some c := by
    rw [campaignWhere_sole he only, if_pos (by simp [ht])]
  unfold stagedRejoin
  rw [found]

theorem stagedRejoin_other (ht : e.state ≠ .staged) (imageStaged : Bool) : stagedRejoin n imageStaged s = s := by
  have found : s.campaignWhere n (fun x => x = .staged) = none := by
    rw [campaignWhere_sole he only, if_neg (by simp [ht])]
  unfold stagedRejoin
  rw [found]

end

/-! ### The end of an apply (R175, R178) -/

theorem offer_campaigns (hs : s.Settled) (n number version k : Nat) :
    (offer n number version k s).campaigns = s.campaigns ∧ (offer n number version k s).Settled := by
  unfold offer
  split
  · rename_i r x _ _
    dsimp only
    let v : State := if (r.steps.any (stepClamped (s.oven n)) && !x.clamped) = true then raiseRecipeEntry n number version 0 s else s
    have kept : v.campaigns = s.campaigns ∧ v.Settled := by
      show State.campaigns (if _ then _ else _) = _ ∧ State.Settled (if _ then _ else _)
      split_ifs
      · exact ⟨raise_keeps_campaigns _ _ _ _, raise_settled _ _ _ hs⟩
      · exact ⟨rfl, hs⟩
    rw [placeFor_eq_deliver (by exact kept.2)]
    exact ⟨(deliver_keeps_campaigns _ _).trans kept.1, deliver_settled _ _⟩
  · exact ⟨rfl, hs⟩

theorem chooseSlots_campaigns (fuel : Nat) (hs : s.Settled) : (chooseSlots fuel s).campaigns = s.campaigns := by
  induction fuel generalizing s with
  | zero => rfl
  | succ fuel ih =>
    unfold chooseSlots
    split
    · split
      · rename_i x _
        have offered := fun n k => offer_campaigns (s := { s with pointer := n }) hs n x.number x.version k
        rw [ih (offered _ _).2, (offered _ _).1]
      · rfl
    · rfl

theorem slotChoice_campaigns (hs : s.Settled) : (slotChoice s).campaigns = s.campaigns := by
  unfold slotChoice
  split_ifs
  · exact chooseSlots_campaigns 4 hs
  · rfl

/-- R42: where no entry of the oven is STAGED, a lock view derived again leaves the campaigns. -/
theorem deriveLock_campaigns (hs : s.Settled) (hu : s.campaignWhere n (fun x => x = .staged) = none) :
    (deriveLock n s).campaigns = s.campaigns := by
  unfold deriveLock
  dsimp only
  split
  · rfl
  · rename_i changed
    have hn : isSlot n := isSlot_of_held fun k => changed (.inr k)
    have kept : (recordLocks n (s.lockView n) s).campaigns = s.campaigns := recordLocks_campaigns hs hn _
    have settled : (recordLocks n (s.lockView n) s).Settled := (Moves.refl.recordLocks n (s.lockView n)).settled hs
    rw [gateOven_unstaged ((campaignWhere_congr kept n _).trans hu)]
    split
    · rw [slotChoice_campaigns settled, kept]
    · exact kept

section
variable (he : s.centry c n = some e) (only : ∀ d, d ≠ c → s.centry d n = none) (hm : s.campaign c = some m)
include he only hm

/-- R178: the end of an apply in a campaign that is CANCELLING. -/
theorem settleCancelled_eq (hs : s.Settled) (cause failure : Nat) {f : CEntry → CEntry}
    (hf : f = fun x => { x with state := if cause = 3 then .done else .failed, deadline := none }) :
    let left := (raise .update n (le 1 cause ++ le 1 c ++ le 1 failure ++ le 1 e.attempts)
      (deriveLock n (s.modCEntry c n f))).removeCEntry c n
    settleCancelled c n cause failure s = if m.entries.filter (fun x => decide (x.oven ≠ n)) = [] then
      raise .campaign c (le 1 1) (left.setCampaign c none) else left := by
  have named : ∀ x, (f x).oven = x.oven := fun x => by rw [hf]
  let w := s.modCEntry c n f
  have entry : w.centry c n = some (f e) := by
    rw [centry_modCEntry _ _ _ _ named, if_pos ⟨rfl, rfl⟩, he]
    rfl
  have apart : ∀ d, d ≠ c → w.centry d n = none := fun d hd => by
    rw [centry_modCEntry _ _ _ _ named, if_neg fun k => hd k.1]
    exact only d hd
  have ended : (f e).state ≠ .staged := by
    rw [hf]
    dsimp only
    split_ifs <;> exact fun k => nomatch k
  have unstaged : w.campaignWhere n (fun x => x = .staged) = none := by
    rw [campaignWhere_sole entry apart, if_neg (by simp [ended])]
  have kept : (deriveLock n w).campaigns = w.campaigns := deriveLock_campaigns (s := w) hs unstaged
  have attempts : (deriveLock n w).attempts c n = e.attempts := by
    refine (attempts_eq (e := f e) ((centry_congr kept c n).trans entry)).trans ?_
    rw [hf]
  let v := raise .update n (le 1 cause ++ le 1 c ++ le 1 failure ++ le 1 e.attempts) (deriveLock n w)
  have there : v.campaign c = some { m with entries := m.entries.map fun x => if x.oven = n then f x else x } := by
    rw [raise_campaign, State.campaign, kept]
    exact campaign_modCampaign _ hm
  have removed : (v.removeCEntry c n).campaign c =
      some { m with entries := (m.entries.map fun x => if x.oven = n then f x else x).filter fun x => x.oven ≠ n } :=
    campaign_modCampaign _ there
  have empty : ((m.entries.map fun x => if x.oven = n then f x else x).filter fun x => x.oven ≠ n).isEmpty = true ↔
      m.entries.filter (fun x => decide (x.oven ≠ n)) = [] := by
    rw [List.isEmpty_iff, List.filter_map, List.map_eq_nil_iff]
    have same : (fun x : CEntry => decide (x.oven ≠ n)) ∘ (fun x => if x.oven = n then f x else x) = fun x => decide (x.oven ≠ n) := by
      funext x
      by_cases k : x.oven = n <;> simp [k, named]
    rw [same]
  intro left
  unfold settleCancelled
  rw [← hf]
  dsimp only
  rw [show State.attempts (deriveLock n (s.modCEntry c n f)) c n = e.attempts from attempts,
    show (raiseUpdate cause c n failure e.attempts (deriveLock n (s.modCEntry c n f))) = v from rfl, removed]
  dsimp only
  simp only [empty]
  rfl

omit only in
/-- R175: a done apply. -/
theorem applyDone_eq (hr : m.state ≠ .cancelling) : applyDone c n s = channelChoice (finishCheck c (deriveLock n
    (raise .update n (le 1 3 ++ le 1 c ++ le 1 0 ++ le 1 e.attempts)
      (s.modCEntry c n fun x => { x with state := .done, deadline := none })))) := by
  have entry : (s.modCEntry c n fun x => { x with state := .done, deadline := none }).centry c n =
      some { e with state := .done, deadline := none } := by
    rw [centry_modCEntry _ _ _ _ (by exact fun _ => rfl), if_pos ⟨rfl, rfl⟩, he]
    rfl
  unfold applyDone
  rw [hm]
  dsimp only
  rw [if_neg hr, attempts_eq entry]
  rfl

theorem applyDone_cancelling (hs : s.Settled) (hr : m.state = .cancelling) :
    let left := (raise .update n (le 1 3 ++ le 1 c ++ le 1 0 ++ le 1 e.attempts)
      (deriveLock n (s.modCEntry c n fun x => { x with state := .done, deadline := none }))).removeCEntry c n
    applyDone c n s = channelChoice (if m.entries.filter (fun x => decide (x.oven ≠ n)) = [] then
      raise .campaign c (le 1 1) (left.setCampaign c none) else left) := by
  intro left
  unfold applyDone
  rw [hm]
  dsimp only
  rw [if_pos hr]
  exact congrArg channelChoice (settleCancelled_eq he only hm hs 3 0 rfl)

end

end Sys2Proof.Machine
end

section
/-! PROOF. A REJOIN at the Distribution Engine (R82): the transfer ended, the UNLOADs told again, and an emptied store. -/

namespace Sys2Proof.Machine

set_option Elab.async false

variable {s t : State} {n : Nat} {e : Entry}

/-- R82: an entry after the transfer has ended and NO_ROOM is cleared. -/
def Entry.cleared (e : Entry) : Entry :=
  if e.state = .offered ∨ e.state = .sending then { e with state := .pending, deadline := none, noRoom := false }
  else { e with noRoom := false }

/-- R82: and an UNLOAD told again. -/
def Entry.toldAgain (clock : Nat) (e : Entry) : Entry :=
  if e.state = .offered ∨ e.state = .sending then { e with state := .pending, deadline := none, noRoom := false }
  else if e.state = .unloading then
    { e with noRoom := false, sends := 1, deadline := some (.unload, min 4294967295 (clock + 5)) }
  else { e with noRoom := false }

/-- R82: the records after the transfer has ended. -/
def State.untransferred (s : State) (n : Nat) : State :=
  if (s.loadedOf n).any fun e => decide (e.state = .offered ∨ e.state = .sending) then s.freed n else s

theorem cleared_key (e : Entry) : e.cleared.number = e.number ∧ e.cleared.version = e.version := by
  unfold Entry.cleared
  split_ifs <;> exact ⟨rfl, rfl⟩

theorem cleared_unloading (e : Entry) : e.cleared.state = .unloading ↔ e.state = .unloading := by
  unfold Entry.cleared
  split_ifs with k
  · rcases k with k | k <;> simp [k]
  · rfl

theorem untransferred_settled (hs : s.Settled) : (s.untransferred n).Settled := by
  unfold State.untransferred
  split_ifs
  · exact freed_settled hs
  · exact hs

theorem clearNoRoom_setLoaded (hn : isSlot n) (l : List Entry) :
    clearNoRoom n (t.setLoaded n l) = t.setLoaded n (l.map fun e => { e with noRoom := false }) := by
  rw [clearNoRoom, State.setLoaded_loadedOf _ _ _ hn, setLoaded_setLoaded]

theorem cleared_eq (hn : isSlot n) (h : LoadedOk (s.loadedOf n)) :
    clearNoRoom n (transferToPending n s) = (s.untransferred n).setLoaded n ((s.loadedOf n).map Entry.cleared) := by
  rw [transferToPending_eq h, State.untransferred]
  split_ifs with moving
  · rw [clearNoRoom_setLoaded hn, List.map_map]
    refine congrArg ((s.freed n).setLoaded n) (List.map_congr_left fun e _ => ?_)
    unfold Entry.cleared
    dsimp only [Function.comp]
    split_ifs <;> rfl
  · refine congrArg (s.setLoaded n) (List.map_congr_left fun e he => ?_)
    have still : ¬ (e.state = .offered ∨ e.state = .sending) := fun k => moving (List.any_eq_true.2 ⟨e, he, decide_eq_true k⟩)
    rw [Entry.cleared, if_neg still]

/-! ### UNLOAD told again (R73, R82) -/

/-- R73: the frame of an unload. -/
abbrev unloadFrame (n : Nat) (e : Entry) : OutFrame := ovenFrame .distribution n (.unload e.number e.version)

theorem foldl_deliver_settled (n : Nat) (l : List Entry) (hs : t.Settled) : (l.foldl (fun t e => deliver (unloadFrame n e) t) t).Settled := by
  induction l generalizing t with
  | nil => exact hs
  | cons e l ih => exact ih (deliver_settled _ _)

theorem foldl_deliver_setLoaded (n : Nat) (l m : List Entry) :
    l.foldl (fun t e => deliver (unloadFrame n e) t) (t.setLoaded n m) = (l.foldl (fun t e => deliver (unloadFrame n e) t) t).setLoaded n m := by
  induction l generalizing t with
  | nil => rfl
  | cons e l ih =>
    rw [List.foldl_cons, deliver_setLoaded, ih]
    rfl

/-- R73: an entry as its UNLOAD is placed. -/
def Entry.sentOnce (clock : Nat) (e : Entry) : Entry := { e with sends := 1, deadline := some (.unload, min 4294967295 (clock + 5)) }

/-- The entry stands in a list by its number and version. -/
def Entry.named (l : List Entry) (x : Entry) : Bool := l.any fun e => x.is e.number e.version

theorem sendUnload_setLoaded (hn : isSlot n) (hs : t.Settled) (l : List Entry) (e : Entry) :
    sendUnload n e.number e.version (t.setLoaded n l) =
      (deliver (unloadFrame n e) t).setLoaded n (l.map fun x => if x.is e.number e.version then x.sentOnce t.clock else x) := by
  unfold sendUnload
  dsimp only
  rw [placeFor_eq_deliver (s := t.setLoaded n l) hs, deliver_setLoaded, State.modEntry, State.setLoaded_loadedOf _ _ _ hn,
    setLoaded_setLoaded]
  refine congrArg ((deliver (unloadFrame n e) t).setLoaded n) (List.map_congr_left fun x _ => ?_)
  split_ifs
  · rw [Entry.sentOnce, after_eq, State.setLoaded_clock, deliver_clock]
    rfl
  · rfl

theorem foldl_sendUnload (hn : isSlot n) (us : List Entry) (hs : t.Settled) (l : List Entry) :
    us.foldl (fun s e => sendUnload n e.number e.version s) (t.setLoaded n l) =
      (us.foldl (fun t e => deliver (unloadFrame n e) t) t).setLoaded n (l.map fun x => if x.named us then x.sentOnce t.clock else x) := by
  induction us generalizing t l with
  | nil => simp [Entry.named]
  | cons e us ih =>
    rw [List.foldl_cons, sendUnload_setLoaded hn hs, ih (deliver_settled _ _), List.foldl_cons, List.map_map, deliver_clock]
    refine congrArg (State.setLoaded _ n) (List.map_congr_left fun x _ => ?_)
    have key : (x.sentOnce t.clock).named us = x.named us := rfl
    by_cases first : x.is e.number e.version = true
    · have named : x.named (e :: us) = true := by rw [Entry.named, List.any_cons, first, Bool.true_or]
      simp only [Function.comp, first, named, key, if_true]
      split_ifs <;> rfl
    · have named : x.named (e :: us) = x.named us := by
        rw [Entry.named, List.any_cons, Bool.eq_false_iff.2 first, Bool.false_or, Entry.named]
      simp only [Function.comp, if_neg first, named]

/-- R82: the UNLOADs of an oven told again, in loaded-set order. -/
def State.toldAgain (s : State) (n : Nat) : State :=
  ((s.loadedOf n).filter fun e => e.state = .unloading).foldl (fun t e => deliver (unloadFrame n e) t)
    ((s.untransferred n).setLoaded n ((s.loadedOf n).map (Entry.toldAgain s.clock)))

theorem toldAgain_eq (hn : isSlot n) (hs : s.Settled) (h : LoadedOk (s.loadedOf n)) :
    (((clearNoRoom n (transferToPending n s)).loadedOf n).filter fun e => e.state = .unloading).foldl
      (fun s e => sendUnload n e.number e.version s) (clearNoRoom n (transferToPending n s)) = s.toldAgain n := by
  have clock : (s.untransferred n).clock = s.clock := by
    unfold State.untransferred State.freed
    split_ifs
    · split <;> rfl
    · rfl
  have unloading : ((s.loadedOf n).map Entry.cleared).filter (fun e => e.state = .unloading) =
      ((s.loadedOf n).filter fun e => e.state = .unloading).map Entry.cleared := by
    rw [List.filter_map]
    exact congrArg (List.map Entry.cleared) (List.filter_congr fun e _ => decide_eq_decide.2 (cleared_unloading e))
  have frames : ∀ t : State, (((s.loadedOf n).filter fun e => e.state = .unloading).map Entry.cleared).foldl
      (fun t e => deliver (unloadFrame n e) t) t =
        ((s.loadedOf n).filter fun e => e.state = .unloading).foldl (fun t e => deliver (unloadFrame n e) t) t := fun t => by
    rw [List.foldl_map]
    refine List.foldl_ext _ _ _ fun u e _ => ?_
    rw [unloadFrame, (cleared_key e).1, (cleared_key e).2]
  have entries : ((s.loadedOf n).map Entry.cleared).map (fun x =>
      if x.named (((s.loadedOf n).filter fun e => e.state = .unloading).map Entry.cleared) then x.sentOnce s.clock else x) =
        (s.loadedOf n).map (Entry.toldAgain s.clock) := by
    rw [List.map_map]
    refine List.map_congr_left fun x hx => ?_
    have named : x.cleared.named (((s.loadedOf n).filter fun e => e.state = .unloading).map Entry.cleared) = true ↔ x.state = .unloading := by
      simp only [Entry.named, List.any_map, List.any_eq_true, List.mem_filter, decide_eq_true_eq, Function.comp, Entry.is, Bool.and_eq_true,
        (cleared_key _).1, (cleared_key _).2]
      constructor
      · rintro ⟨y, ⟨hy, hu⟩, hnum, hver⟩
        have same : x = y := List.inj_on_of_nodup_map h.keys hx hy (Prod.ext hnum hver)
        rw [same, hu]
      · exact fun hu => ⟨x, ⟨hx, hu⟩, rfl, rfl⟩
    simp only [Function.comp, named]
    unfold Entry.toldAgain Entry.cleared Entry.sentOnce
    by_cases moving : x.state = .offered ∨ x.state = .sending
    · have still : ¬ x.state = .unloading := fun k => by rw [k] at moving; exact moving.elim (fun j => nomatch j) fun j => nomatch j
      simp only [if_pos moving, if_neg still]
    · simp only [if_neg moving]
  rw [cleared_eq hn h, State.setLoaded_loadedOf _ _ _ hn, unloading, foldl_sendUnload hn _ (untransferred_settled hs), clock, entries, frames,
    State.toldAgain, foldl_deliver_setLoaded]

/-! ### An emptied store (R82 step 4) -/

/-- R82: an entry of an emptied store. -/
def Entry.emptied (e : Entry) : Entry :=
  { e with state := .pending, retries := 0, clamped := false, deferred := false, deadline := none, crc := none }

theorem removeEntry_setLoaded (hn : isSlot n) (l : List Entry) (number version : Nat) :
    removeEntry n number version (t.setLoaded n l) =
      (dropRef number version t).setLoaded n ((l.filter fun e => !e.is number version).map fun e => { e with noRoom := false }) := by
  unfold removeEntry
  rw [State.setLoaded_loadedOf _ _ _ hn, setLoaded_setLoaded, clearNoRoom_setLoaded hn]
  rfl

/-- The removals of entries leave those that none of them names. -/
theorem foldl_removeEntry (hn : isSlot n) (us : List Entry) (t : State) (l : List Entry) :
    ∃ r, (∀ x ∈ r, ∃ y ∈ l, y.named us = false ∧ x.number = y.number ∧ x.version = y.version) ∧
      us.foldl (fun s e => removeEntry n e.number e.version s) (t.setLoaded n l) =
        (us.foldl (fun t e => dropRef e.number e.version t) t).setLoaded n r := by
  induction us generalizing t l with
  | nil => exact ⟨l, fun x hx => ⟨x, hx, rfl, rfl, rfl⟩, rfl⟩
  | cons e us ih =>
    obtain ⟨r, hr, folded⟩ := ih (dropRef e.number e.version t)
      ((l.filter fun x => !x.is e.number e.version).map fun x => { x with noRoom := false })
    refine ⟨r, fun x hx => ?_, ?_⟩
    · obtain ⟨y, hy, free, hnum, hver⟩ := hr x hx
      obtain ⟨z, hz, rfl⟩ := List.mem_map.1 hy
      obtain ⟨mem, other⟩ := List.mem_filter.1 hz
      refine ⟨z, mem, ?_, hnum, hver⟩
      rw [Entry.named, List.any_cons, Bool.or_eq_false_iff]
      exact ⟨by simpa using other, free⟩
    · rw [List.foldl_cons, removeEntry_setLoaded hn, folded, List.foldl_cons]

theorem NoWants_dropRefs (l : List Entry) (h : t.NoWants n) : (l.foldl (fun t e => dropRef e.number e.version t) t).NoWants n := by
  induction l generalizing t with
  | nil => exact h
  | cons e l ih => exact ih (NoWants_dropRef h _ _)

theorem appendWanted_none (h : t.NoWants n) : appendWanted n t = t :=
  appendWanted_held fun r hr k => absurd k (by rw [h r hr]; decide)

/-- R70: where nothing is wanted every PENDING entry is removed. -/
theorem recompute_pending (hn : isSlot n) (h : t.NoWants n) {l : List Entry} (pending : ∀ e ∈ l, e.state = .pending) :
    recompute n (t.setLoaded n l) = (l.foldl (fun t e => dropRef e.number e.version t) t).setLoaded n [] := by
  let u := t.setLoaded n l
  have none : u.wanted n = [] := List.filter_eq_nil_iff.2 fun r hr k => absurd k (by
    rw [show wants (u.oven n) r = false from h r hr]
    decide)
  have sets : u.loadedOf n = l := State.setLoaded_loadedOf _ _ _ hn
  have judged : ∀ v : State, l.foldl (judgeEntry n []) v = l.foldl (fun s e => removeEntry n e.number e.version s) v := fun v =>
    List.foldl_ext _ _ _ fun w e he => by
      unfold judgeEntry
      rw [pending e he]
      rfl
  obtain ⟨r, hr, folded⟩ := foldl_removeEntry hn l t l
  have gone : r = [] := List.eq_nil_iff_forall_not_mem.2 fun x hx => by
    obtain ⟨y, hy, free, -⟩ := hr x hx
    have : y.named l = true := List.any_eq_true.2 ⟨y, hy, by simp [Entry.is]⟩
    rw [free] at this
    cases this
  have last : appendWanted n ((l.foldl (fun t e => dropRef e.number e.version t) t).setLoaded n []) =
      (l.foldl (fun t e => dropRef e.number e.version t) t).setLoaded n [] :=
    appendWanted_none (t := State.setLoaded _ n []) (NoWants_dropRefs l h)
  unfold recompute
  rw [appendWanted_none (t := u) h]
  dsimp only
  rw [none, sets, judged, folded, gone, last, ite_self]

theorem distributionRejoin_retiring (h : (s.oven n).state = .retiring) (storeEmpty : Bool) : distributionRejoin n storeEmpty s = s :=
  if_neg (by rw [h]; decide)

/-- R82: a REJOIN of an oven in service. -/
theorem distributionRejoin_eq (hn : isSlot n) (hs : s.Settled) (h : LoadedOk (s.loadedOf n)) (hw : (s.oven n).state = .inService)
    (storeEmpty : Bool) : distributionRejoin n storeEmpty s =
      slotChoice (if storeEmpty then recompute n ((s.toldAgain n).setLoaded n
        (((s.loadedOf n).map (Entry.toldAgain s.clock)).map Entry.emptied)) else s.toldAgain n) := by
  have sets : (s.toldAgain n).loadedOf n = (s.loadedOf n).map (Entry.toldAgain s.clock) := by
    rw [State.toldAgain, foldl_deliver_setLoaded, State.setLoaded_loadedOf _ _ _ hn]
  refine (if_pos hw).trans ?_
  show slotChoice (if storeEmpty then emptyStore n _ else _) = _
  rw [toldAgain_eq hn hs h, emptyStore, sets]
  rfl

theorem untransferred_wants (h : s.NoWants n) : (s.untransferred n).NoWants n := by
  unfold State.untransferred State.freed
  split_ifs
  · split <;> exact h
  · exact h

theorem foldl_deliver_wants (l : List Entry) (h : t.NoWants n) : (l.foldl (fun t e => deliver (unloadFrame n e) t) t).NoWants n := by
  induction l generalizing t with
  | nil => exact h
  | cons e l ih => exact ih (NoWants_deliver h)

theorem toldAgain_wants (h : s.NoWants n) : (s.toldAgain n).NoWants n :=
  foldl_deliver_wants _ (t := State.setLoaded _ n _) (untransferred_wants h)

theorem toldAgain_key (clock : Nat) (e : Entry) : (e.toldAgain clock).number = e.number ∧ (e.toldAgain clock).version = e.version := by
  unfold Entry.toldAgain
  split_ifs <;> exact ⟨rfl, rfl⟩

/-- R70, R82: an emptied store where nothing is wanted. -/
theorem emptied_unwanted (hn : isSlot n) (h : s.NoWants n) :
    recompute n ((s.toldAgain n).setLoaded n (((s.loadedOf n).map (Entry.toldAgain s.clock)).map Entry.emptied)) =
      (s.loadedOf n).foldl (fun t e => dropRef e.number e.version t) ((s.toldAgain n).setLoaded n []) := by
  have drops : ∀ (l : List Entry) (t : State), l.foldl (fun t e => dropRef e.number e.version t) (t.setLoaded n []) =
      (l.foldl (fun t e => dropRef e.number e.version t) t).setLoaded n [] := fun l => by
    induction l with
    | nil => exact fun t => rfl
    | cons e l ih => exact fun t => ih (dropRef e.number e.version t)
  rw [recompute_pending hn (toldAgain_wants h) fun e he => ?_, drops, List.map_map, List.foldl_map]
  · refine congrArg (fun t => State.setLoaded t n []) (List.foldl_ext _ _ _ fun t e _ => ?_)
    show dropRef (e.toldAgain s.clock).number (e.toldAgain s.clock).version t = _
    rw [(toldAgain_key s.clock e).1, (toldAgain_key s.clock e).2]
  · obtain ⟨x, -, rfl⟩ := List.mem_map.1 he
    rfl

end Sys2Proof.Machine
end

section
/-! PROOF. A REJOIN as it is gathered and taken by its serial (R37 to R39). -/

namespace Sys2Proof.Machine

set_option Elab.async false

variable {s t v : State} {n serial : Nat} {f : InFrame} {rest : List InFrame} {r : Rejoin0} {fw : Firmware}

/-! ### The two frames (R37) -/

/-- The frame has left the buffer. -/
abbrev State.without (s : State) (rest : List InFrame) : State := { s with inbound := rest }

/-- R37: and what was held for its source is cleared. -/
abbrev State.cleared (s : State) (f : InFrame) (rest : List InFrame) : State :=
  { s.without rest with rejoinHeld := s.rejoinHeld.filter fun x => decide (x.1 ≠ f.source) }

section
variable (hl : s.Live) (hi : s.inbound = f :: rest) (ha : acceptedKind f = some .rejoin)
include hl hi ha

theorem exec_rejoin (h : rejoinFrame f.source f.tag f.data (s.without rest) = t) (hc : t.clock = s.clock) :
    exec .rejoin s = .next t := by
  have head : rejoinHead s = t := (rejoinHead_eq hi ha).trans h
  exact congrArg Host.Outcome.next ((event_live hl (by rw [head, hc])).trans head)

/-- R37: frame 0 is held for its source. -/
theorem rejoin_held (ht : f.tag = 0) : exec .rejoin s = .next { s.without rest with
    rejoinHeld := insertBefore (fun x => decide (f.source < x.1)) (f.source, rejoin0 f.data)
      (s.rejoinHeld.filter fun x => decide (x.1 ≠ f.source)) } := by
  refine exec_rejoin hl hi ha ?_ rfl
  rw [ht]
  rfl

theorem rejoin_ignored (ht : 2 ≤ f.tag) : exec .rejoin s = .next (s.without rest) := by
  refine exec_rejoin hl hi ha ?_ rfl
  obtain ⟨k, hk⟩ : ∃ k, f.tag = k + 2 := ⟨f.tag - 2, by omega⟩
  rw [hk]
  rfl

theorem rejoin_unheld (ht : f.tag = 1) (hh : s.heldRejoin f.source = none) : exec .rejoin s = .next (s.without rest) := by
  refine exec_rejoin hl hi ha ?_ rfl
  rw [ht, rejoinFrame, show (s.without rest).heldRejoin f.source = none from hh]

theorem rejoin_unmatched (ht : f.tag = 1) (hh : s.heldRejoin f.source = some r) (hm : numAt f.data 0 4 ≠ r.serial % 4294967296) :
    exec .rejoin s = .next (s.without rest) := by
  refine exec_rejoin hl hi ha ?_ rfl
  rw [ht, rejoinFrame, show (s.without rest).heldRejoin f.source = some r from hh]
  exact if_neg hm

/-- R37: a completed pair is taken. -/
theorem rejoin_taken (ht : f.tag = 1) (hh : s.heldRejoin f.source = some r) (hm : numAt f.data 0 4 = r.serial % 4294967296) :
    exec .rejoin s = .next (takeRejoin r (firmwareAt f.data 4) (s.cleared f rest)) := by
  have m := Moves.refl (s := s.cleared f rest).takeRejoin r (firmwareAt f.data 4)
  refine exec_rejoin hl hi ha ?_ m.still.clock
  rw [ht, rejoinFrame, show (s.without rest).heldRejoin f.source = some r from hh]
  exact if_pos hm

end

/-! ### A serial no record holds (R39) -/

theorem takeRejoin_unknown (h : v.slotOfSerial r.serial = none) : takeRejoin r fw v = rejoinUnknown r v := by
  unfold takeRejoin
  rw [h]

theorem rejoinUnknown_barred (hs : v.Settled) (h : r.serial ∈ v.barred) :
    rejoinUnknown r v = deliver (barredFrame v r.serial false) v := (if_pos h).trans (placeBarred_eq hs _ _)

theorem slot_eq (r : Rejoin0) : r.slot = if 1 ≤ r.believed ∧ r.believed ≤ 32 then some r.believed else none := rfl

theorem rejoinUnknown_open (h : r.serial ∉ v.barred) (ho : v.siteOpen = true) : rejoinUnknown r v = claimSerial r.serial 0 v :=
  (if_neg h).trans (if_pos ho)

section
variable (h : r.serial ∉ v.barred) (ho : v.siteOpen = false)
include h ho

/-- R39: with the site closed the believed slot comes first. -/
theorem rejoinUnknown_believed (hb : isSlot r.believed) (hv : (v.oven r.believed).state = .vacant) :
    rejoinUnknown r v = discover r.believed r.serial 0 r.slot v := by
  unfold rejoinUnknown
  rw [if_neg h, ho, if_neg Bool.false_ne_true, slot_eq, if_pos hb]
  simp only [Option.bind_some, if_pos hv, Option.orElse_some]

omit h ho in
theorem unbelieved_none (hb : ¬ (isSlot r.believed ∧ (v.oven r.believed).state = .vacant)) :
    (r.slot.bind fun n => if (v.oven n).state = .vacant then some n else none) = none := by
  rw [slot_eq]
  split_ifs with k
  · rw [Option.bind_some, if_neg fun j => hb ⟨k, j⟩]
  · rfl

theorem rejoinUnknown_lowest (hb : ¬ (isSlot r.believed ∧ (v.oven r.believed).state = .vacant)) (hn : v.lowestVacant = some n) :
    rejoinUnknown r v = discover n r.serial 0 r.slot v := by
  unfold rejoinUnknown
  rw [if_neg h, ho, if_neg Bool.false_ne_true, unbelieved_none hb]
  simp only [Option.orElse_none, hn]

theorem rejoinUnknown_full (hb : ¬ (isSlot r.believed ∧ (v.oven r.believed).state = .vacant)) (hn : v.lowestVacant = none) :
    rejoinUnknown r v = placeBarred r.serial true v := by
  unfold rejoinUnknown
  rw [if_neg h, ho, if_neg Bool.false_ne_true, unbelieved_none hb]
  simp only [Option.orElse_none, hn]

end

/-! ### A serial on record, before IN_SERVICE (R37) -/

section
variable (hx : v.slotOfSerial r.serial = some n) (hp : (v.oven n).present = true)
include hx hp

theorem takeRejoin_discovered (hd : (v.oven n).state = .discovered) : takeRejoin r fw v = v.setOven n { v.oven n with
    lastHeard := v.clock, comm := some (.hold, min 4294967295 (v.clock + 600))
    hint := if 1 ≤ r.believed ∧ r.believed ≤ 32 then some r.believed else (v.oven n).hint } := by
  obtain ⟨hn, -, -⟩ := slotOfSerial_some hx
  let o : Oven := { v.oven n with lastHeard := v.clock }
  have back : heard n v = v.setOven n o := by
    rw [heard_present hn hp, hd]
    rfl
  have held : rearmHold n (v.setOven n o) = v.setOven n { o with comm := some (.hold, min 4294967295 (v.clock + 600)) } := by
    rw [rearmHold, State.modOven, State.setOven_oven _ _ _ hn, State.setOven_setOven]
    rfl
  have taken : takeRejoin r fw v = if 1 ≤ r.believed ∧ r.believed ≤ 32 then
      (rearmHold n (heard n v)).modOven n (fun o => { o with hint := some r.believed }) else rearmHold n (heard n v) := by
    unfold takeRejoin
    rw [hx]
    dsimp only
    rw [hd]
    dsimp only
    rw [slot_eq]
    split_ifs <;> rfl
  rw [taken, back, held]
  split_ifs
  · rw [State.modOven, State.setOven_oven _ _ _ hn, State.setOven_setOven]
  · rfl

theorem takeRejoin_assigned (hd : (v.oven n).state = .assigning) (hb : r.believed = n) : takeRejoin r fw v = v.setOven n { v.oven n with
    state := .profiling, tries := 0, lastHeard := v.clock, cap0 := none, cap1 := none
    silence := some (min 4294967295 (v.clock + 10)), comm := some (.profile, min 4294967295 (v.clock + 30)) } := by
  obtain ⟨hn, -, -⟩ := slotOfSerial_some hx
  unfold takeRejoin
  rw [hx]
  dsimp only
  rw [hd]
  dsimp only
  rw [if_pos hb, heard_present hn hp, takeNode, State.modOven, State.setOven_oven _ _ _ hn, State.setOven_setOven]
  refine congrArg (v.setOven n) ?_
  simp only [hp]
  rfl

theorem takeRejoin_assigning (hs : v.Settled) (hd : (v.oven n).state = .assigning) (hb : r.believed ≠ n) :
    takeRejoin r fw v = (deliver (assignFrame v r.serial n) v).setOven n { v.oven n with
      lastHeard := v.clock, comm := some (.reply, min 4294967295 (v.clock + 5)) } := by
  obtain ⟨hn, -, hser⟩ := slotOfSerial_some hx
  let o : Oven := { v.oven n with lastHeard := v.clock }
  have back : heard n v = v.setOven n o := by
    rw [heard_present hn hp, hd]
    rfl
  have record : (v.setOven n o).oven n = o := State.setOven_oven _ _ _ hn
  have mark : (v.setOven n o).slotOfSerial r.serial = v.slotOfSerial r.serial := slotOfSerial_setOven (o := o) Iff.rfl rfl r.serial
  have again := assignAgain_eq (s := v.setOven n o) (n := n) (serial := r.serial) hs (by rw [record]; exact hser)
  rw [assignFrame, mark, record, deliver_setOven, State.setOven_setOven] at again
  have taken : takeRejoin r fw v = assignAgain n (heard n v) := by
    unfold takeRejoin
    rw [hx]
    dsimp only
    rw [hd]
    exact if_neg hb
  rw [taken, back, again]
  rfl

/-- R37: the answer where the believed slot is another. -/
def State.assignedTo (v : State) (r : Rejoin0) (n : Nat) : State := if r.believed = n then v else deliver (assignFrame v r.serial n) v

theorem takeRejoin_commissioning (hs : v.Settled)
    (hd : (v.oven n).state = .profiling ∨ (v.oven n).state = .awaitingSetup ∨ (v.oven n).state = .testing) :
    takeRejoin r fw v = (if (v.oven n).state = .testing then
        deliver (ovenFrame .registry n (.testOrder (v.oven n).cavity (v.oven n).humidity)) (v.assignedTo r n)
      else v.assignedTo r n).setOven n { v.oven n with
        lastHeard := v.clock, silence := some (min 4294967295 (v.clock + 10)), firmware := some fw, cap0 := none, cap1 := none } := by
  obtain ⟨hn, -, hser⟩ := slotOfSerial_some hx
  let o : Oven := { v.oven n with
    lastHeard := v.clock, silence := some (min 4294967295 (v.clock + 10)), firmware := some fw, cap0 := none, cap1 := none }
  have taken : takeRejoin r fw v = rejoinCommissioning n r fw v := by
    unfold takeRejoin
    rw [hx]
    dsimp only
    rcases hd with k | k | k <;> rw [k]
  have watched : (v.oven n).state.watched = true := by rcases hd with k | k | k <;> rw [k] <;> rfl
  have back : (heard n v).modOven n (fun o => { o with firmware := some fw, cap0 := none, cap1 := none }) = v.setOven n o := by
    rw [heard_present hn hp, watched, State.modOven, State.setOven_oven _ _ _ hn, State.setOven_setOven]
    rfl
  have record : (v.setOven n o).oven n = o := State.setOven_oven _ _ _ hn
  have mark : (v.setOven n o).slotOfSerial r.serial = v.slotOfSerial r.serial := slotOfSerial_setOven (o := o) Iff.rfl rfl r.serial
  have told : (if r.believed = n then v.setOven n o else placeAssign n (v.setOven n o)) = (v.assignedTo r n).setOven n o := by
    unfold State.assignedTo
    split_ifs
    · rfl
    · rw [placeAssign_eq (s := v.setOven n o) hs (by rw [record]; exact hser), assignFrame, mark, deliver_setOven]
  have settled : (v.assignedTo r n).Settled := by
    unfold State.assignedTo
    split_ifs
    · exact hs
    · exact deliver_settled _ _
  have same : ((v.assignedTo r n).setOven n o).oven n = o := State.setOven_oven _ _ _ hn
  rw [taken]
  unfold rejoinCommissioning
  rw [back]
  dsimp only
  rw [told, same]
  show (if (v.oven n).state = .testing then placeTestOrder n ((v.assignedTo r n).setOven n o) else _) = _
  split_ifs
  · rw [placeTestOrder_eq (s := (v.assignedTo r n).setOven n o) settled, same, deliver_setOven]
  · rfl

end

end Sys2Proof.Machine
end

section
/-! PROOF. A REJOIN of an oven in IN_SERVICE or RETIRING (R38, R101, R35), and the obligation. -/

namespace Sys2Proof.Machine

set_option Elab.async false

variable {s t v : State} {n serial : Nat} {f : InFrame} {rest : List InFrame} {r : Rejoin0} {fw : Firmware} {h : Hygiene} {p : Permit}

/-! ### The steps of R38 -/

/-- R38 step 1: the record of an oven heard again. -/
def State.heardBack (v : State) (n : Nat) : Oven :=
  { v.oven n with lastHeard := v.clock, silence := some (min 4294967295 (v.clock + 10)) }

/-- R38 step 2: the ASSIGN, where the oven believes in another slot. -/
def State.rejoinAssigned (v : State) (r : Rejoin0) (n : Nat) (t : State) : State :=
  if r.believed = n then t else deliver (assignFrame v r.serial n) t

/-- R38 step 3: and what the record takes from the REJOIN. -/
def State.rejoinedAs (v : State) (n : Nat) (fw : Firmware) : Oven := { v.heardBack n with
  cap0 := none, cap1 := none, refreshPending := true, gathering := some (min 4294967295 (v.clock + 30)), firmware := some fw }

/-- R38 steps 1 to 3. -/
def State.rejoinRecorded (v : State) (r : Rejoin0) (n : Nat) (fw : Firmware) : State :=
  (v.rejoinAssigned r n (raise .ovenPresence n (le 1 2 ++ le 4 v.clock) (v.setOven n (v.heardBack n)))).setOven n (v.rejoinedAs n fw)

/-- R38 steps 4 to 9. -/
def rejoinSteps (n : Nat) (r : Rejoin0) (t : State) : State :=
  stagedRejoin n r.imageStaged (distributionRejoin n r.storeEmpty (relayRejoin n (hygieneRejoin n (closeByRejoin n t))))

theorem rejoinAssigned_settled (hs : t.Settled) : (v.rejoinAssigned r n t).Settled := by
  unfold State.rejoinAssigned
  split_ifs
  · exact hs
  · exact deliver_settled _ _

theorem rejoinAssigned_setOven (o : Oven) : v.rejoinAssigned r n (t.setOven n o) = (v.rejoinAssigned r n t).setOven n o := by
  unfold State.rejoinAssigned
  split_ifs
  · rfl
  · exact deliver_setOven _ _ _ _

theorem rejoinRecorded_eq : v.rejoinRecorded r n fw =
    (v.rejoinAssigned r n (raise .ovenPresence n (le 1 2 ++ le 4 v.clock) v)).setOven n (v.rejoinedAs n fw) := by
  unfold State.rejoinRecorded
  rw [raise_setOven, rejoinAssigned_setOven, State.setOven_setOven]

theorem rejoinRecorded_settled (hs : v.Settled) : (v.rejoinRecorded r n fw).Settled := by
  rw [rejoinRecorded_eq]
  exact rejoinAssigned_settled (v := v) (r := r) (n := n) (raise_settled _ _ _ hs)

/-- R38: a REJOIN of an oven in service, step by step. -/
theorem takeRejoin_service (hs : v.Settled) (hx : v.slotOfSerial r.serial = some n) (hp : (v.oven n).present = true)
    (hw : (v.oven n).state = .inService ∨ (v.oven n).state = .retiring) :
    let last := rejoinSteps n r (v.rejoinRecorded r n fw)
    takeRejoin r fw v = leaveCheck n (deliver (ovenFrame .registry n (.lockState (last.oven n).locks)) last) := by
  obtain ⟨hn, -, hser⟩ := slotOfSerial_some hx
  intro last
  let o := v.heardBack n
  let told := raise .ovenPresence n (le 1 2 ++ le 4 v.clock) (v.setOven n o)
  have watched : (v.oven n).state.watched = true := by rcases hw with k | k <;> rw [k] <;> rfl
  have back : heard n v = v.setOven n o := by
    rw [heard_present hn hp, watched]
    rfl
  have presence : raisePresence n 2 (v.setOven n o) = told := by
    unfold raisePresence
    rw [State.setOven_oven _ _ _ hn]
    rfl
  have record : told.oven n = o := by
    rw [raise_oven]
    exact State.setOven_oven _ _ _ hn
  have mark : told.slotOfSerial r.serial = v.slotOfSerial r.serial := by
    have same : (v.setOven n o).slotOfSerial r.serial = v.slotOfSerial r.serial := slotOfSerial_setOven (o := o) Iff.rfl rfl r.serial
    rw [← same]
    exact slotOfSerial_congr (fun m _ => by rw [raise_oven]; exact ⟨Iff.rfl, rfl⟩) _
  have assigned : (if r.believed = n then told else placeAssign n told) = v.rejoinAssigned r n told := by
    unfold State.rejoinAssigned
    split_ifs
    · rfl
    · rw [placeAssign_eq (raise_settled _ _ _ (s := v.setOven n o) hs) (by rw [record]; exact hser), assignFrame, mark]
  have same : (v.rejoinAssigned r n told).oven n = o := by
    unfold State.rejoinAssigned
    split_ifs
    · exact record
    · rw [deliver_oven]
      exact record
  have clock : (v.rejoinAssigned r n told).clock = v.clock := by
    unfold State.rejoinAssigned
    split_ifs
    · exact raise_clock _ _ _ _
    · rw [deliver_clock]
      exact raise_clock _ _ _ _
  have recorded : (v.rejoinAssigned r n told).modOven n (fun o => { o with
      firmware := some fw, cap0 := none, cap1 := none, refreshPending := true
      gathering := some ((v.rejoinAssigned r n told).after 30) }) = v.rejoinRecorded r n fw := by
    rw [State.modOven, same, after_eq, clock]
    rfl
  have settled : last.Settled := Moves.settled ((((Moves.refl.closeByRejoin n).hygieneRejoin n).relayRejoin n).distributionRejoin n
    r.storeEmpty |>.stagedRejoin n r.imageStaged) (rejoinRecorded_settled (v := v) hs)
  have taken : takeRejoin r fw v = rejoinService n r fw v := by
    unfold takeRejoin
    rw [hx]
    dsimp only
    rcases hw with k | k <;> rw [k]
  rw [taken]
  unfold rejoinService
  rw [back, presence]
  dsimp only
  rw [assigned, show Config.gatheringSeconds = 30 from rfl, recorded]
  exact congrArg (leaveCheck n) (placeFor_eq_deliver settled _ _ _)

/-! ### With nothing loaded, and no campaign -/

/-- R82: of an empty loaded set nothing is told, and nothing wanted is added. -/
theorem distributionRejoin_empty (hn : isSlot n) (hs : t.Settled) (hl : t.loadedOf n = []) (hw : t.NoWants n) (ho : t.NoOffers)
    (hi : (t.oven n).state = .inService) (b : Bool) : distributionRejoin n b t = t := by
  have same : t.setLoaded n [] = t := hl ▸ setLoaded_same hn
  have told : t.toldAgain n = t := by
    rw [State.toldAgain, hl, State.untransferred, hl]
    exact same
  rw [distributionRejoin_eq hn hs (by rw [hl]; exact ⟨by decide, by decide, by decide⟩) hi, told, hl]
  have kept : (if b = true then recompute n (t.setLoaded n ((([] : List Entry).map (Entry.toldAgain t.clock)).map Entry.emptied)) else t) = t := by
    split_ifs
    · show recompute n (t.setLoaded n []) = t
      rw [same, recompute_empty hw hl]
    · rfl
  rw [kept]
  exact slotChoice_noOffers (s := t) ho

/-- R38: with no clean in progress, nothing loaded and no campaign only HYGIENE_STATE is told. -/
theorem rejoinSteps_plain (hn : isSlot n) {u : State} (closed : closeByRejoin n t = u) (hs : u.Settled) (hh : u.hygiene n = some h)
    (hc : h.clean = none) (hm : u.NoCampaigns)
    (hw : (u.oven n).state = .retiring ∨
      (u.oven n).state = .inService ∧ u.loadedOf n = [] ∧ u.NoWants n ∧ u.NoOffers) :
    rejoinSteps n r t = deliver (hygieneFrame u n h) u := by
  let w := deliver (hygieneFrame u n h) u
  have service : u.inService n := hw.elim .inr fun k => .inl k.1
  have told : hygieneRejoin n u = w := hygieneRejoin_unclean hs service hh hc
  have calm : w.NoCampaigns := noCampaigns_congr (deliver_keeps_campaigns _ _) hm
  have distributed : distributionRejoin n r.storeEmpty w = w := by
    rcases hw with k | ⟨k, hl, hn', ho⟩
    · exact distributionRejoin_retiring (by rw [deliver_oven]; exact k) _
    · exact distributionRejoin_empty hn (deliver_settled _ _) (by rw [deliver_loadedOf]; exact hl) (NoWants_deliver hn')
        (ho.congr (deliver_keeps_loaded _ _)) (by rw [deliver_oven]; exact k) _
  rw [rejoinSteps, closed, told, relayRejoin_none calm, distributed, stagedRejoin_none calm]

theorem hygieneFrame_congr {u : State} (hc : u.clock = t.clock) (n : Nat) (h : Hygiene) : hygieneFrame u n h = hygieneFrame t n h := by
  unfold hygieneFrame
  rw [hc]

theorem rejoinAssigned_keeps : (v.rejoinAssigned r n t).clock = t.clock ∧ (v.rejoinAssigned r n t).ovens = t.ovens ∧
    (v.rejoinAssigned r n t).permits = t.permits ∧ (v.rejoinAssigned r n t).campaigns = t.campaigns ∧
    (v.rejoinAssigned r n t).loaded = t.loaded ∧ (v.rejoinAssigned r n t).recipes = t.recipes ∧
    (v.rejoinAssigned r n t).tickets = t.tickets ∧ (v.rejoinAssigned r n t).barred = t.barred := by
  unfold State.rejoinAssigned
  split_ifs
  · exact ⟨rfl, rfl, rfl, rfl, rfl, rfl, rfl, rfl⟩
  · exact ⟨deliver_clock _ _, deliver_keeps_ovens _ _, deliver_keeps_permits _ _, deliver_keeps_campaigns _ _, deliver_keeps_loaded _ _,
      deliver_keeps_recipes _ _, deliver_keeps_tickets _ _, deliver_keeps_barred _ _⟩

/-- R38: what is told before the record. -/
def State.rejoinBase (v : State) (r : Rejoin0) (n : Nat) : State :=
  v.rejoinAssigned r n (raise .ovenPresence n (le 1 2 ++ le 4 v.clock) v)

theorem rejoinBase_keeps : (v.rejoinBase r n).clock = v.clock ∧ (v.rejoinBase r n).ovens = v.ovens ∧
    (v.rejoinBase r n).permits = v.permits ∧ (v.rejoinBase r n).campaigns = v.campaigns ∧ (v.rejoinBase r n).loaded = v.loaded ∧
    (v.rejoinBase r n).recipes = v.recipes ∧ (v.rejoinBase r n).tickets = v.tickets ∧ (v.rejoinBase r n).barred = v.barred := by
  obtain ⟨a, b, c, d, e, f, g, i⟩ := rejoinAssigned_keeps (v := v) (r := r) (n := n) (t := raise .ovenPresence n (le 1 2 ++ le 4 v.clock) v)
  exact ⟨a.trans (raise_clock _ _ _ _), b.trans (raise_keeps_ovens _ _ _ _), c.trans (raise_keeps_permits _ _ _ _),
    d.trans (raise_keeps_campaigns _ _ _ _), e.trans (raise_keeps_loaded _ _ _ _), f.trans (raise_keeps_recipes _ _ _ _),
    g.trans (raise_keeps_tickets _ _ _ _), i.trans (raise_keeps_barred _ _ _ _)⟩

/-- R38: an oven in service with nothing loaded, open, in progress or to be cleaned. -/
theorem takeRejoin_quiet (hs : v.Settled) (hx : v.slotOfSerial r.serial = some n) (hp : (v.oven n).present = true)
    (hw : (v.oven n).state = .inService) (hh : (v.oven n).hygiene = some h) (hc : h.clean = none) (hpe : v.permit n = none)
    (hm : v.NoCampaigns) (ho : v.NoOffers) (hl : v.loadedOf n = []) (hr : ∀ x ∈ v.recipes, x.state ≠ .active) :
    takeRejoin r fw v = (deliver (ovenFrame .registry n (.lockState (v.oven n).locks))
      (deliver (hygieneFrame v n h) (v.rejoinBase r n))).setOven n (v.rejoinedAs n fw) := by
  obtain ⟨hn, -, -⟩ := slotOfSerial_some hx
  obtain ⟨kc, -, kp, km, kl, kr, -, -⟩ := rejoinBase_keeps (v := v) (r := r) (n := n)
  let o := v.rejoinedAs n fw
  let x := (v.rejoinBase r n).setOven n o
  have recorded : v.rejoinRecorded r n fw = x := rejoinRecorded_eq
  have record : x.oven n = o := State.setOven_oven _ _ _ hn
  have settled : x.Settled := recorded ▸ rejoinRecorded_settled (v := v) hs
  have closed : closeByRejoin n x = x := closeByRejoin_none (by
    show (v.rejoinBase r n).permit n = none
    rw [State.permit, kp]
    exact hpe)
  have clock : x.clock = v.clock := kc
  have steps : rejoinSteps n r x = deliver (hygieneFrame v n h) x := by
    rw [← hygieneFrame_congr (t := v) clock]
    refine rejoinSteps_plain hn closed settled (by rw [State.hygiene, record]; exact hh) hc
      (noCampaigns_congr (s := v) km hm) (.inr ⟨by rw [record]; exact hw, ?_, ?_, State.NoOffers.congr ho kl⟩)
    · show (v.rejoinBase r n).loadedOf n = []
      rw [State.loadedOf, kl]
      exact hl
    · exact noWants_of_inactive fun y hy => hr y (kr ▸ hy)
  have locks : ((deliver (hygieneFrame v n h) x).oven n).locks = (v.oven n).locks := by
    rw [deliver_oven, record]
    rfl
  have stays : ((deliver (ovenFrame .registry n (.lockState (v.oven n).locks)) (deliver (hygieneFrame v n h) x)).oven n).state ≠ .retiring := by
    rw [deliver_oven, deliver_oven, record]
    exact fun k => nomatch (hw.symm.trans k)
  rw [takeRejoin_service hs hx hp (.inl hw), recorded, steps, locks, leaveCheck_service stays]
  show deliver _ (deliver _ ((v.rejoinBase r n).setOven n o)) = _
  rw [deliver_setOven, deliver_setOven]

/-! ### A RETIRING oven (R35, R103) -/

/-- R35: a RETIRING record without permit, apply and tickets leaves service. -/
theorem leaveCheck_leaves (hs : t.Settled) (hr : (t.oven n).state = .retiring) (hp : t.permit n = none) (hm : t.NoCampaigns)
    (hk : t.NoTickets n) (hx : (t.oven n).serial = some serial) :
    let last := State.clearedOf (State.setOven (raise .commissionResult n (le 1 5) t) n {}) n
    leaveCheck n t = if serial ∈ t.barred then deliver (barredFrame last serial false) last else last := by
  intro last
  have applying : t.applying n = false := congrArg Option.isSome (campaignWhere_none hm _ _)
  let u := raise .commissionResult n (le 1 5) t
  have quiet : u.NoTickets n := fun x hx => hk x (by rwa [raise_keeps_tickets] at hx)
  have vacated : vacate n u = last := vacate_untold quiet
  have barred : last.barred = t.barred := raise_keeps_barred _ _ _ t
  have settled : last.Settled := (Moves.refl.vacate n).settled (raise_settled _ _ _ hs) |> fun k => vacated ▸ k
  refine (if_pos ⟨hr, hp, applying⟩).trans ?_
  unfold leaveService raiseCommission
  dsimp only
  rw [vacated, barred, hx]
  dsimp only [Option.getD_some]
  split_ifs
  · exact placeBarred_eq settled _ _
  · rfl

/-- R103: what the closure of a permit by a REJOIN tells and leaves, apart from the oven. -/
def State.lapsedAt (w : State) (n : Nat) (p : Permit) : State :=
  raise .permitLapsed n (le 2 p.number ++ le 2 p.recipe ++ le 1 p.version ++ le 1 1) (dropRef p.recipe p.version (w.setPermit n none))

theorem lapsedAt_keeps (w : State) (n : Nat) (p : Permit) : (w.lapsedAt n p).clock = w.clock ∧ (w.lapsedAt n p).campaigns = w.campaigns ∧
    (w.lapsedAt n p).tickets = w.tickets ∧ (w.lapsedAt n p).barred = w.barred :=
  ⟨raise_clock _ _ _ _, raise_keeps_campaigns _ _ _ _, raise_keeps_tickets _ _ _ _, raise_keeps_barred _ _ _ _⟩

theorem lapsedAt_permit (hn : isSlot n) (w : State) : (w.lapsedAt n p).permit n = none :=
  (raise_permit ..).trans (State.setPermit_permit w n none hn)

theorem lapsedAt_settled {w : State} (hs : w.Settled) : (w.lapsedAt n p).Settled := raise_settled _ _ _ hs

section
variable {w : State} {o : Oven} {y : Recipe} {g : Figures} (hn : isSlot n)
include hn

/-- R103: the permit of an oven with nothing loaded, and no ticket that names it. -/
theorem closeByRejoin_plain (hp : w.permit n = some p) (hy : w.recipe p.recipe p.version = some y) (hf : y.figures = some g)
    (hh : o.hygiene = some h) (hm : w.NoCampaigns) (hu : ∀ x ∈ w.tickets, x.permit ≠ some p.number) (hl : w.loadedOf n = [])
    (same : (h.charged g.totalSoil).judged = h.state) :
    closeByRejoin n (w.setOven n o) = (w.lapsedAt n p).setOven n { o with hygiene := some (h.charged g.totalSoil) } := by
  have record : (w.setOven n o).oven n = o := State.setOven_oven _ _ _ hn
  have tickets : (w.setOven n o).unlinkedFrom p.number = w.tickets :=
    (List.map_congr_left fun z hz => if_neg (hu z hz)).trans (List.map_id _)
  have part : (w.setOven n o).withHygiene n (h.charged g.totalSoil) = w.setOven n { o with hygiene := some (h.charged g.totalSoil) } := by
    rw [State.withHygiene, record, State.setOven_setOven]
  have after : (w.setOven n o).closedBy n p (h.charged g.totalSoil) =
      (dropRef p.recipe p.version (w.setPermit n none)).setOven n { o with hygiene := some (h.charged g.totalSoil) } := by
    unfold State.closedBy
    rw [part, tickets]
    rfl
  have eq := closeByRejoin_eq (s := w.setOven n o) (t := (w.setOven n o).closedBy n p (h.charged g.totalSoil)) hp hy hf
    (by rw [State.hygiene, record]; exact hh) same
    (unloadDeferred_none (by
      rw [State.loadedOf, closedBy_loaded]
      show ∀ x ∈ w.loadedOf n, _
      rw [hl]
      simp)) (noCampaigns_congr (s := w) closedBy_campaigns hm)
  rw [eq, after, raise_setOven]
  rfl

/-- R35: the last steps of a REJOIN of a RETIRING oven, its permit gone. -/
theorem leaveCheck_rejoined (hr : o.state = .retiring) (hx : o.serial = some serial) (hp : w.permit n = none) (hm : w.NoCampaigns)
    (hk : w.NoTickets n) (a b : OutFrame) :
    let last := State.clearedOf (State.setOven (raise .commissionResult n (le 1 5) (deliver a (deliver b w))) n {}) n
    leaveCheck n (deliver a (deliver b (w.setOven n o))) =
      if serial ∈ w.barred then deliver (barredFrame last serial false) last else last := by
  intro last
  let z := deliver a (deliver b w)
  have told : deliver a (deliver b (w.setOven n o)) = z.setOven n o := by rw [deliver_setOven, deliver_setOven]
  have record : (z.setOven n o).oven n = o := State.setOven_oven _ _ _ hn
  have settled : (z.setOven n o).Settled := deliver_settled (deliver b w) a
  have permit : (z.setOven n o).permit n = none := (deliver_permit ..).trans ((deliver_permit ..).trans hp)
  have calm : (z.setOven n o).NoCampaigns :=
    noCampaigns_congr (s := w) ((deliver_keeps_campaigns _ _).trans (deliver_keeps_campaigns _ _)) hm
  have tickets : z.tickets = w.tickets := (deliver_keeps_tickets _ _).trans (deliver_keeps_tickets _ _)
  have barred : z.barred = w.barred := (deliver_keeps_barred _ _).trans (deliver_keeps_barred _ _)
  have leaves := leaveCheck_leaves (t := z.setOven n o) (n := n) (serial := serial) settled (by rw [record]; exact hr) permit calm
    (fun k hk' => hk k (tickets ▸ hk')) (by rw [record]; exact hx)
  rw [raise_setOven, State.setOven_setOven, State.setOven_barred, barred] at leaves
  rw [told]
  exact leaves

end

/-- R38, R101, R35: the permit of a RETIRING oven is closed and the oven leaves service. -/
theorem takeRejoin_retiring (hs : v.Settled) (hx : v.slotOfSerial r.serial = some n) (hp : (v.oven n).present = true)
    (hw : (v.oven n).state = .retiring) (hpe : v.permit n = some p) {y : Recipe} {g : Figures} (hy : v.recipe p.recipe p.version = some y)
    (hf : y.figures = some g) (hh : (v.oven n).hygiene = some h) (hc : h.clean = none) (hm : v.NoCampaigns) (hk : v.NoTickets n)
    (hu : ∀ x ∈ v.tickets, x.permit ≠ some p.number) (hl : v.loadedOf n = []) (same : (h.charged g.totalSoil).judged = h.state) :
    let last := State.clearedOf (State.setOven (raise .commissionResult n (le 1 5)
      (deliver (ovenFrame .registry n (.lockState (v.oven n).locks)) (deliver (hygieneFrame v n (h.charged g.totalSoil))
        ((v.rejoinBase r n).lapsedAt n p)))) n {}) n
    takeRejoin r fw v = if r.serial ∈ v.barred then deliver (barredFrame last r.serial false) last else last := by
  obtain ⟨hn, -, hser⟩ := slotOfSerial_some hx
  obtain ⟨kc, -, kp, km, kl, kr, kt, kb⟩ := rejoinBase_keeps (v := v) (r := r) (n := n)
  have settled : (v.rejoinBase r n).Settled := rejoinAssigned_settled (v := v) (r := r) (n := n) (raise_settled _ _ _ hs)
  have service := takeRejoin_service (fw := fw) hs hx hp (.inr hw)
  rw [show v.rejoinRecorded r n fw = (v.rejoinBase r n).setOven n (v.rejoinedAs n fw) from rejoinRecorded_eq] at service
  generalize v.rejoinBase r n = w at *
  let o : Oven := { v.rejoinedAs n fw with hygiene := some (h.charged g.totalSoil) }
  obtain ⟨lc, lm, lt, lb⟩ := lapsedAt_keeps w n p
  have closes : closeByRejoin n (w.setOven n (v.rejoinedAs n fw)) = (w.lapsedAt n p).setOven n o :=
    closeByRejoin_plain hn (by rw [State.permit, kp]; exact hpe) (by rw [State.recipe, kr]; exact hy) hf hh (noCampaigns_congr km hm)
      (fun x hx => hu x (kt ▸ hx)) (by rw [State.loadedOf, kl]; exact hl) same
  have record : ((w.lapsedAt n p).setOven n o).oven n = o := State.setOven_oven _ _ _ hn
  have steps : rejoinSteps n r (w.setOven n (v.rejoinedAs n fw)) =
      deliver (hygieneFrame v n (h.charged g.totalSoil)) ((w.lapsedAt n p).setOven n o) := by
    rw [← hygieneFrame_congr (u := (w.lapsedAt n p).setOven n o) (t := v) (lc.trans kc)]
    exact rejoinSteps_plain hn closes (lapsedAt_settled (p := p) (n := n) settled) (by rw [State.hygiene, record]) hc
      (noCampaigns_congr (s := v) (lm.trans km) hm) (.inl (by rw [record]; exact hw))
  have locks : ((deliver (hygieneFrame v n (h.charged g.totalSoil)) ((w.lapsedAt n p).setOven n o)).oven n).locks = (v.oven n).locks := by
    rw [deliver_oven, record]
    rfl
  have leaves := leaveCheck_rejoined (w := w.lapsedAt n p) (o := o) (serial := r.serial) hn hw hser (lapsedAt_permit hn w)
    (noCampaigns_congr (s := v) (lm.trans km) hm) (fun k hk' => hk k (kt ▸ lt ▸ hk'))
    (ovenFrame .registry n (.lockState (v.oven n).locks)) (hygieneFrame v n (h.charged g.totalSoil))
  dsimp only at service
  rw [steps, locks] at service
  rw [lb, kb] at leaves
  exact service.trans leaves

end Sys2Proof.Machine
end

section
/-! PROOF. The obligation about REJOIN (R37 to R39). -/

namespace Sys2Proof.Machine

set_option Elab.async false

variable {s v : State} {n : Nat} {f : InFrame} {rest : List InFrame} {r : Rejoin0} {h : Hygiene} {p : Permit}

/-- R37: the frame 0 held for the source stands beside those of the other sources. -/
theorem mem_held (l : List (Nat × Rejoin0)) (x y : Nat × Rejoin0) :
    x ∈ insertBefore (fun z => decide (y.1 < z.1)) y (l.filter fun z => decide (z.1 ≠ y.1)) ↔ x = y ∨ (x ∈ l ∧ x.1 ≠ y.1) := by
  rw [insertBefore_mem, List.mem_filter, decide_eq_true_eq]

/-- R175, R176: the clauses about the campaign entry of an oven. -/
theorem relayRejoin_cases {c : Nat} {m : Campaign} {e : CEntry} (hs : s.Settled) (hm : s.campaign c = some m) (he : s.centry c n = some e)
    (only : ∀ d, d ≠ c → s.centry d n = none) :
    (∀ ch b, e.state = .transferring ∨ e.state = .suspended → e.channel = some ch → 1 ≤ ch → ch ≤ 2 →
      s.channel ch = some b → b.campaign = c → b.oven = n →
      relayRejoin n s = raise .relay ch (le 1 0 ++ le 1 c ++ le 1 n ++ le 3 b.taken)
        (beginFrames ch n b.acked m (((withdrawImage ch s).setChannel ch (some { b with
          sent := b.acked, check := none, stream := .opening, timeout := some (min 4294967295 (s.clock + 2)) })).modCEntry c n
            fun x => { x with state := .transferring, deadline := none, timeouts := 0 }))) ∧
    (e.state = .applying → (s.oven n).firmware ≠ some m.toVersion → relayRejoin n s = deriveLock n (failedAttempt 5 c n s)) ∧
    (e.state = .applying → (s.oven n).firmware = some m.toVersion →
      let done := s.modCEntry c n fun x => { x with state := .done, deadline := none }
      let noticed := raise .update n (le 1 3 ++ le 1 c ++ le 1 0 ++ le 1 e.attempts)
      (m.state ≠ .cancelling → relayRejoin n s = channelChoice (finishCheck c (deriveLock n (noticed done)))) ∧
      (m.state = .cancelling →
        let left := (noticed (deriveLock n done)).removeCEntry c n
        relayRejoin n s = channelChoice (if m.entries.filter (fun x => decide (x.oven ≠ n)) = [] then
          raise .campaign c (le 1 1) (left.setCampaign c none) else left))) := by
  refine ⟨fun ch b ht hx h1 h2 hb bc bn => ?_, fun ha hf => ?_, fun ha hf => ⟨fun hr => ?_, fun hr => ?_⟩⟩
  · rw [relayRejoin_transfer he only hs hm ht hx ⟨h1, h2⟩ hb bc bn]
    subst bc bn
    exact reopen_eq hs ⟨h1, h2⟩ hb hm
  · rw [relayRejoin_applying he only ha, judgeApply_of he only hm ha, if_neg hf]
    rfl
  · rw [relayRejoin_applying he only ha, judgeApply_of he only hm ha, if_pos hf, applyDone_eq he hm hr]
  · rw [relayRejoin_applying he only ha, judgeApply_of he only hm ha, if_pos hf, applyDone_cancelling he only hm hs hr]

theorem closedBy_clock : (s.closedBy n p h).clock = s.clock := rfl

/-- R72, R103: the sole entry whose unload waited for the permit is sent to UNLOADING. -/
theorem unloadDeferred_begun (holds : t.Holds n e) (settled : t.Settled) (hd : e.deferred = true)
    (ht : e.state = .loaded ∨ e.state = .stale) (only : ∀ x ∈ t.loadedOf n, x.deferred = true → x = e) :
    unloadDeferred n t = State.withEntry (deliver (ovenFrame .distribution n (.unload e.number e.version)) t) n e { e with
      state := .unloading, deferred := false, sends := 1, deadline := some (.unload, min 4294967295 (t.clock + 5)) } := by
  have still : e.state.inTransfer = false := by rcases ht with k | k <;> rw [k] <;> rfl
  exact (unloadDeferred_sole holds hd still only).trans (beginUnload_eq holds settled)

theorem unloadDeferred_begun_campaigns (holds : t.Holds n e) (settled : t.Settled) (hd : e.deferred = true)
    (ht : e.state = .loaded ∨ e.state = .stale) (only : ∀ x ∈ t.loadedOf n, x.deferred = true → x = e) (calm : t.NoCampaigns) :
    (unloadDeferred n t).NoCampaigns := by
  rw [unloadDeferred_begun holds settled hd ht only]
  exact noCampaigns_congr (s := t) (deliver_keeps_campaigns _ t) calm

/-- R103: the clauses about the open permit. -/
theorem closeByRejoin_cases {y : Recipe} {g : Figures} (hs : s.Settled) (hpe : s.permit n = some p) (hy : s.recipe p.recipe p.version = some y)
    (hf : y.figures = some g) (hh : (s.oven n).hygiene = some h) (hcs : s.NoCampaigns) (same : (h.charged g.totalSoil).judged = h.state) :
    let closed := s.closedBy n p (h.charged g.totalSoil)
    let lapsed := raise .permitLapsed n (le 2 p.number ++ le 2 p.recipe ++ le 1 p.version ++ le 1 1)
    ((∀ e ∈ s.loadedOf n, e.deferred = false) → closeByRejoin n s = lapsed closed) ∧
    ∀ e, s.Holds n e → e.deferred = true → e.state = .loaded ∨ e.state = .stale →
      (∀ x ∈ s.loadedOf n, x.deferred = true → x = e) →
      closeByRejoin n s = lapsed (State.withEntry
        (deliver (ovenFrame .distribution n (.unload e.number e.version)) closed) n e { e with
          state := .unloading, deferred := false, sends := 1, deadline := some (.unload, min 4294967295 (s.clock + 5)) }) := by
  have settled : (s.closedBy n p (h.charged g.totalSoil)).Settled := closedBy_settled hs
  have calm : (s.closedBy n p (h.charged g.totalSoil)).NoCampaigns := noCampaigns_congr (s := s) closedBy_campaigns hcs
  have loaded : (s.closedBy n p (h.charged g.totalSoil)).loaded = s.loaded := closedBy_loaded
  have clock : (s.closedBy n p (h.charged g.totalSoil)).clock = s.clock := closedBy_clock
  have close := fun u => closeByRejoin_eq (t := u) hpe hy hf hh same
  intro closed lapsed
  change State.Settled closed at settled
  change State.NoCampaigns closed at calm
  change closed.loaded = s.loaded at loaded
  change closed.clock = s.clock at clock
  change ∀ u, unloadDeferred n closed = u → u.NoCampaigns → closeByRejoin n s = lapsed u at close
  clear_value closed lapsed
  have same_set : closed.loadedOf n = s.loadedOf n := by rw [State.loadedOf, loaded]; rfl
  refine ⟨fun hd => close closed (unloadDeferred_none (same_set ▸ hd)) calm, fun e holds hd ht only => ?_⟩
  have there : closed.Holds n e := State.Holds.congr holds loaded
  have sole : ∀ x ∈ closed.loadedOf n, x.deferred = true → x = e := same_set ▸ only
  rw [← clock, ← unloadDeferred_begun there settled hd ht sole]
  exact close _ rfl (unloadDeferred_begun_campaigns there settled hd ht sole calm)

/-- R123: what an abandoned clean leaves. -/
theorem abandoned_eq (h : Hygiene) (k : Clean) : h.abandoned k = { h with
    residue := h.residue || decide (k.programme ≠ .rinse ∧ (k.phase = some .detergent ∨ k.phase = some .rinse))
    aborted := min 65535 (h.aborted + 1), clean := none } := by
  have same : k.leavesResidue = decide (k.programme ≠ .rinse ∧ (k.phase = some .detergent ∨ k.phase = some .rinse)) := by
    rw [leavesResidue_eq]
    refine decide_eq_decide.2 (and_congr_left fun _ => ?_)
    cases k.programme <;> decide
  rw [Hygiene.abandoned, same, satAdd_eq]

/-- R125: the clauses about the clean. -/
theorem hygieneRejoin_cases (hs : s.Settled) (hh : (s.oven n).hygiene = some h) (hw : (s.oven n).state = .inService ∨ (s.oven n).state = .retiring) :
    (h.clean = none → hygieneRejoin n s = deliver (hygieneFrame s n h) s) ∧
    ∀ c, h.clean = some c → h.state = .cleaning → s.NoCampaigns →
      let h' : Hygiene := { h with
        residue := h.residue || decide (c.programme ≠ .rinse ∧ (c.phase = some .detergent ∨ c.phase = some .rinse))
        aborted := min 65535 (h.aborted + 1), clean := none }
      let tell := deliver (hygieneFrame s n h'.restated)
      hygieneRejoin n s = tell (raise .hygiene n (hygieneDetail 5 h'.restated (c.programme.code + 1)
        ((c.phase.map fun q => q.code + 1).getD 0)) (tell (s.withHygiene n h'.restated))) := by
  refine ⟨hygieneRejoin_unclean hs hw hh, fun k hc hst hcs => ?_⟩
  intro h'
  have told := hygieneRejoin_cleaning hs hw hh hc hst hcs
  rw [abandoned_eq] at told
  exact told

/-- R82: the clauses about the loaded set. -/
theorem distributionRejoin_cases (hn : isSlot n) (hs : s.Settled) (hok : LoadedOk (s.loadedOf n)) (b : Bool) :
    ((s.oven n).state = .retiring → distributionRejoin n b s = s) ∧
    ((s.oven n).state = .inService → distributionRejoin n false s = slotChoice (s.toldAgain n)) ∧
    ((s.oven n).state = .inService → distributionRejoin n true s = slotChoice (recompute n ((s.toldAgain n).setLoaded n
      (((s.loadedOf n).map (Entry.toldAgain s.clock)).map Entry.emptied)))) ∧
    ((s.oven n).state = .inService → s.NoWants n → distributionRejoin n true s = slotChoice
      ((s.loadedOf n).foldl (fun t e => dropRef e.number e.version t) ((s.toldAgain n).setLoaded n []))) := by
  refine ⟨fun hw => distributionRejoin_retiring hw b, fun hw => distributionRejoin_eq hn hs hok hw false,
    fun hw => distributionRejoin_eq hn hs hok hw true, fun hw hno => ?_⟩
  rw [distributionRejoin_eq hn hs hok hw true, if_pos rfl, emptied_unwanted hn hno]

/-- Settles O41. -/
theorem rejoinTellsTheOven : Obligations.RejoinTellsTheOven := by
  refine ⟨?frames, ?service, ?steps⟩
  case frames =>
    intro s f rest hl hs hi ha u held
    refine ⟨fun ht => ⟨_, rejoin_held hl hi ha ht, fun x => mem_held s.rejoinHeld x (f.source, held)⟩, rejoin_ignored hl hi ha,
      rejoin_unheld hl hi ha, fun r ht hh => ?_⟩
    intro v
    have taken : ∀ {t : State}, numAt f.data 0 4 = r.serial % 4294967296 → takeRejoin r (firmwareAt f.data 4) v = t →
        exec .rejoin s = .next t := fun hm e => (rejoin_taken hl hi ha ht hh hm).trans (congrArg Host.Outcome.next e)
    have settled : v.Settled := hs
    refine ⟨rejoin_unmatched hl hi ha ht hh, fun hm hx hb => ?_, fun n h hm hx hw hp hh hc hpe hcs ho hlo hr => ?_,
      fun hm hx hb => ?_, fun n hm hx hp => ?_⟩
    · exact taken hm ((takeRejoin_unknown (v := v) hx).trans (rejoinUnknown_barred (v := v) settled hb))
    · exact taken hm (takeRejoin_quiet (v := v) settled hx hp hw hh hc hpe hcs ho hlo hr)
    · intro hint made full
      have unknown := takeRejoin_unknown (v := v) (fw := firmwareAt f.data 4) hx
      refine ⟨fun ho hn hv => ?_, fun ho hv => ⟨fun n hn => ?_, fun hn => ?_⟩, fun ho => ⟨fun n hn => ?_, fun hn => ?_⟩⟩
      · exact taken hm (unknown.trans (rejoinUnknown_believed (v := v) hb ho hn hv))
      · exact taken hm (unknown.trans (rejoinUnknown_lowest (v := v) hb ho hv hn))
      · exact taken hm (unknown.trans ((rejoinUnknown_full (v := v) hb ho hv hn).trans (placeBarred_eq settled _ _)))
      · exact taken hm (unknown.trans ((rejoinUnknown_open (v := v) hb ho).trans (claimSerial_discovers (s := v) hb hx hn)))
      · exact taken hm (unknown.trans ((rejoinUnknown_open (v := v) hb ho).trans
          ((claimSerial_full (s := v) 0 hb hx hn).trans (placeBarred_eq settled _ _))))
    · intro o firmware assigned
      refine ⟨fun hd => ?_, fun hd hb => ?_, fun hd hb => ?_, fun hd => ?_, ?_⟩
      · exact taken hm (takeRejoin_discovered (v := v) hx hp hd)
      · exact taken hm (takeRejoin_assigned (v := v) hx hp hd hb)
      · have other : assigned = deliver (assignFrame s r.serial n) v := if_neg hb
        rw [other]
        exact taken hm (takeRejoin_assigning (v := v) hx hp settled hd hb)
      · exact taken hm (takeRejoin_commissioning (v := v) hx hp settled hd)
      · intro p h y g hw hpe hy hf hh hc hcs hk hu hlo h' same
        exact taken hm (takeRejoin_retiring (v := v) settled hx hp hw hpe hy hf hh hc hcs hk hu hlo same)
  case service =>
    intro s f rest r n hl hs hi ha ht hh hm hx hw hp
    exact (rejoin_taken hl hi ha ht hh hm).trans
      (congrArg Host.Outcome.next (takeRejoin_service (v := s.cleared f rest) hs hx hp hw))
  case steps =>
    intro s n hs
    refine ⟨closeByRejoin_none, fun p y g h hn hpe hy hf hh hw hcs => ?_, fun h hn hh hw => hygieneRejoin_cases hs hh hw,
      relayRejoin_idle, fun c m e h1 h4 hm he only => ?_, fun b hn hok => distributionRejoin_cases hn hs hok b⟩
    · intro h' unlinked same
      exact closeByRejoin_cases hs hpe hy hf hh hcs same
    · obtain ⟨transfers, failed, done⟩ := relayRejoin_cases hs hm he only
      refine ⟨transfers, failed, done, fun ht => ⟨?_, ?_⟩, fun ht b => stagedRejoin_other he only ht b⟩
      · exact stagedRejoin_staged he only ht true
      · exact stagedRejoin_staged he only ht false

end Sys2Proof.Machine
end

section
/-! PROOF. The windows of the campaigns (R173), which stand while a campaign stands: what is done as a warm reset ends (R188)
leaves the window of every campaign, or no campaign. First what the Update Relay's choices and the transmitter's leave. -/

namespace Sys2Proof.Machine

set_option Elab.async false

variable {s t u : State} {n : Nat}

/-- The window of a campaign: the minutes of day it starts and ends at. -/
def Campaign.window (m : Campaign) : Nat × Nat := (m.windowStart, m.windowEnd)

/-- Every campaign has the window it had, or has gone. -/
def Windows (s t : State) : Prop :=
  ∀ c, t.campaign c = none ∨ (t.campaign c).map Campaign.window = (s.campaign c).map Campaign.window

theorem Windows.refl : Windows s s := fun _ => .inr rfl

theorem Windows.trans (h : Windows s t) (k : Windows t u) : Windows s u := fun c => by
  rcases k c with none | same
  · exact .inl none
  · rcases h c with none | before
    · rw [none] at same
      exact .inl (Option.map_eq_none_iff.1 same)
    · exact .inr (same.trans before)

theorem Windows.same (h : Windows s t) (k : u.campaigns = t.campaigns := by rfl) : Windows s u :=
  h.trans fun c => .inr (by rw [State.campaign, k]; rfl)

theorem Windows.ite {p : Prop} [Decidable p] (h : Windows s t) (k : Windows s u) : Windows s (if p then t else u) := by
  split
  · exact h
  · exact k

theorem Windows.foldl {α : Type} {f : State → α → State} (hf : ∀ t x, Windows s t → Windows s (f t x)) (l : List α)
    (h : Windows s t) : Windows s (l.foldl f t) := by
  induction l generalizing t with
  | nil => exact h
  | cons x l ih => exact ih (hf t x h)

/-! ### Changes of a campaign -/

theorem Windows.modCampaign (h : Windows s t) (c : Nat) {f : Campaign → Campaign}
    (hf : ∀ m, (f m).window = m.window := by intro _; rfl) : Windows s (t.modCampaign c f) := by
  refine h.trans fun d => .inr ?_
  by_cases hd : d = c
  · subst hd
    cases hm : t.campaign d with
    | none => rw [modCampaign_none f hm]
    | some m => rw [campaign_modCampaign f hm, Option.map_some, hf, Option.map_some]
  · rw [State.modCampaign, State.setCampaign_campaign_ne _ _ _ _ hd]

theorem Windows.modCEntry (h : Windows s t) (c n : Nat) (f : CEntry → CEntry) : Windows s (t.modCEntry c n f) := h.modCampaign c
theorem Windows.removeCEntry (h : Windows s t) (c n : Nat) : Windows s (t.removeCEntry c n) := h.modCampaign c

theorem Windows.clearCampaign (h : Windows s t) (c : Nat) : Windows s (t.setCampaign c none) := by
  refine h.trans fun d => ?_
  by_cases hd : d = c
  · subst hd
    by_cases hr : 1 ≤ d ∧ d ≤ 4
    · exact .inl (State.setCampaign_campaign _ _ _ hr)
    · rw [State.setCampaign, vset_outside _ _ _ hr]
      exact .inr rfl
  · rw [State.setCampaign_campaign_ne _ _ _ _ hd]
    exact .inr rfl

theorem Windows.raise (h : Windows s t) (k : NoticeKind) (i : Nat) (d : List Byte) : Windows s (raise k i d t) :=
  h.same (raise_keeps_campaigns k i d t)

theorem Windows.setQueue (h : Windows s t) (q : QueueName) (l : List OutFrame) : Windows s (t.setQueue q l) := by
  cases q <;> exact h.same

theorem Windows.enqueue (h : Windows s t) (f : OutFrame) : Windows s (enqueue f t) := h.same (enqueue_keeps_campaigns f t)

theorem Windows.finishCheck (h : Windows s t) (c : Nat) : Windows s (finishCheck c t) := by
  unfold Machine.finishCheck
  split
  · exact h
  · exact ((h.modCampaign c).raise _ _ _).ite h

/-! ### With the loaded sets

What serves the channels and the transmitter keeps the windows; with no distribution slot bound it keeps the loaded sets as well. -/

/-- No distribution slot is bound. -/
def State.Unbound (s : State) : Prop := ∀ k, s.distSlot k = none

/-- What the choices of the Update Relay and of the transmitter leave. -/
structure Serves (s t : State) : Prop where
  windows : Windows s t := by exact Windows.refl
  loaded : s.Unbound → t.loaded = s.loaded := by intro _; rfl
  unbound : s.Unbound → t.Unbound := by exact id

theorem Serves.refl : Serves s s := {}

theorem Serves.trans (h : Serves s t) (k : Serves t u) : Serves s u where
  windows := h.windows.trans k.windows
  loaded hs := (k.loaded (h.unbound hs)).trans (h.loaded hs)
  unbound hs := k.unbound (h.unbound hs)

theorem State.Unbound.congr (h : s.Unbound) (k : t.slots = s.slots := by rfl) : t.Unbound := fun j => by
  rw [State.distSlot, k]
  exact h j

theorem Serves.raise (h : Serves s t) (k : NoticeKind) (i : Nat) (d : List Byte) : Serves s (raise k i d t) :=
  h.trans {
    windows := Windows.refl.raise k i d
    loaded := fun _ => raise_keeps_loaded k i d t
    unbound := fun x => x.congr (raise_keeps_slots k i d t) }

theorem Serves.setQueue (h : Serves s t) (q : QueueName) (l : List OutFrame) : Serves s (t.setQueue q l) := by
  cases q <;> exact h.trans {}

theorem Serves.enqueue (h : Serves s t) (f : OutFrame) : Serves s (enqueue f t) := by
  unfold Machine.enqueue dropFrame
  dsimp only
  split
  · exact h.setQueue _ _
  · split
    · exact h.setQueue _ _
    · split
      · exact h.trans {}
      · exact (h.trans {}).raise _ _ _

theorem Serves.modCampaign (h : Serves s t) (c : Nat) {f : Campaign → Campaign}
    (hf : ∀ m, (f m).window = m.window := by intro _; rfl) : Serves s (t.modCampaign c f) :=
  h.trans { windows := Windows.refl.modCampaign c hf }

theorem Serves.modCEntry (h : Serves s t) (c n : Nat) (f : CEntry → CEntry) : Serves s (t.modCEntry c n f) := h.modCampaign c

theorem Serves.finishCheck (h : Serves s t) (c : Nat) : Serves s (finishCheck c t) := by
  unfold Machine.finishCheck
  split
  · exact h
  · split
    · exact (h.modCampaign c).raise _ _ _
    · exact h

theorem Serves.enqueueBegin (h : Serves s t) (ch : Nat) : Serves s (enqueueBegin ch t) := by
  unfold Machine.enqueueBegin
  split
  · exact h
  · split
    · exact h
    · exact (h.enqueue _).enqueue _

theorem Serves.fillImage (h : Serves s t) (fuel ch : Nat) : Serves s (fillImage fuel ch t) := by
  induction fuel generalizing t with
  | zero => exact h
  | succ fuel ih =>
    unfold Machine.fillImage
    split
    · exact h
    · split
      · exact h
      · split
        · exact ih ((h.enqueue _).trans {})
        · exact h

theorem Serves.serveEntry (h : Serves s t) (c : Nat) (e : CEntry) (ch : Nat) : Serves s (serveEntry c e ch t) := by
  unfold Machine.serveEntry
  split
  · exact h
  · dsimp only
    split
    · exact (h.modCEntry c _ _).finishCheck c
    · split
      · exact ((h.modCEntry c _ _).raise _ _ _).finishCheck c
      · split
        · exact (((h.trans (u := t.setChannel ch _) {}).modCEntry c _ _).enqueueBegin ch).raise _ _ _
        · exact (h.modCEntry c _ _).finishCheck c

theorem Serves.chooseChannels (h : Serves s t) (fuel : Nat) : Serves s (chooseChannels fuel t) := by
  induction fuel generalizing t with
  | zero => exact h
  | succ fuel ih =>
    unfold Machine.chooseChannels
    split
    · exact ih (h.serveEntry _ _ _)
    · exact h

/-- R79: a slot is filled only where it is bound. -/
theorem Serves.fillSegments (h : Serves s t) (fuel k : Nat) : Serves s (fillSegments fuel k t) := by
  induction fuel generalizing t with
  | zero => exact h
  | succ fuel ih =>
    unfold Machine.fillSegments
    split
    · exact h
    · rename_i b hb
      have bound : ∀ {p : Prop}, t.Unbound → p := fun x => by
        rw [x k] at hb
        cases hb
      split
      · exact h
      · split
        · exact ih ((h.trans (u := t.setDistSlot k _) { unbound := bound }).enqueue _)
        · exact h

theorem Serves.segmentTaken (h : Serves s t) (k i : Nat) : Serves s (segmentTaken k i t) := by
  unfold Machine.segmentTaken
  split
  · exact h
  · rename_i b hb
    have bound : ∀ {p : Prop}, t.Unbound → p := fun x => by
      rw [x k] at hb
      cases hb
    have filled := (Serves.refl (s := t)).fillSegments Config.streamPlaces k
    dsimp only
    split
    · exact h.trans { windows := filled.windows.same, loaded := bound, unbound := bound }
    · exact h.trans filled

theorem Serves.afterTaken (h : Serves s t) (f : OutFrame) : Serves s (afterTaken f t) := by
  unfold Machine.afterTaken
  split
  · exact h.segmentTaken _ _
  · unfold Machine.imageTaken
    split
    · exact h.fillImage _ _
    · exact h.chooseChannels _
  · exact h

theorem Serves.kick (h : Serves s t) : Serves s (kick t) := by
  unfold Machine.kick
  split
  · rename_i f u hu
    obtain ⟨-, q, l, -, hl, rfl⟩ := takeFrame_some hu
    exact ((h.setQueue q l).trans {}).afterTaken f
  · exact h

theorem Serves.kickQuiet (h : Serves s t) : Serves s (kickQuiet t) := by
  unfold Machine.kickQuiet
  split
  · exact h
  · rename_i f u hu
    obtain ⟨-, q, l, -, hl, rfl⟩ := takeFrame_some hu
    have taken := (h.setQueue q l).trans (u := { t.setQueue q l with transmitter := some f }) {}
    split
    · exact taken.fillImage _ _
    · exact taken.afterTaken f

theorem Serves.place (h : Serves s t) (f : OutFrame) : Serves s (place f t) := (h.enqueue f).kick
theorem Serves.placeFor (h : Serves s t) (p : Producer) (n : Nat) (d : Payload) : Serves s (placeFor p n d t) := h.place _

theorem Serves.channelChoice (h : Serves s t) : Serves s (channelChoice t) := by
  unfold Machine.channelChoice
  split
  · exact (h.chooseChannels _).kick
  · exact h.kick

theorem Windows.place (h : Windows s t) (f : OutFrame) : Windows s (place f t) := h.trans (Serves.refl.place f).windows
theorem Windows.placeFor (h : Windows s t) (p : Producer) (n : Nat) (d : Payload) : Windows s (placeFor p n d t) := h.place _
theorem Windows.channelChoice (h : Windows s t) : Windows s (channelChoice t) := h.trans Serves.refl.channelChoice.windows

end Sys2Proof.Machine
end

section
/-! PROOF. Every expiry that R188 step 1 takes leaves the window of every campaign, or no campaign: the operations that the
expiries consist of, block by block, then the expiries themselves. -/

namespace Sys2Proof.Machine

set_option Elab.async false

variable {s t : State}

/-! ### The Distribution Engine -/

theorem Windows.withdraw (h : Windows s t) (q : QueueName) (p : Producer) (sel : OutFrame → Bool) :
    Windows s (withdraw q p sel t) := h.setQueue _ _

theorem Windows.offer (h : Windows s t) (n i v k : Nat) : Windows s (offer n i v k t) := by
  unfold Machine.offer
  split
  · dsimp only
    refine Windows.placeFor ?_ _ _ _
    split
    · exact (h.raise _ _ _).same
    · exact h.same
  · exact h

theorem Windows.chooseSlots (h : Windows s t) (fuel : Nat) : Windows s (chooseSlots fuel t) := by
  induction fuel generalizing t with
  | zero => exact h
  | succ fuel ih =>
    unfold Machine.chooseSlots
    split
    · split
      · exact ih (h.same.offer _ _ _ _)
      · exact h
    · exact h

theorem Windows.slotChoice (h : Windows s t) : Windows s (slotChoice t) := (h.chooseSlots 4).ite h

theorem Windows.endTransfer (h : Windows s t) (n : Nat) : Windows s (endTransfer n t) := by
  unfold Machine.endTransfer
  dsimp only
  split
  · exact h.same
  · exact h.same

theorem Windows.beginUnload (h : Windows s t) (n i v : Nat) : Windows s (beginUnload n i v t) :=
  (h.same (u := t.modEntry n i v _) |>.placeFor _ _ _).same

theorem Windows.unloadDeferred (h : Windows s t) (n : Nat) : Windows s (unloadDeferred n t) :=
  ((h.endTransfer n).foldl (fun _ _ k => k.beginUnload _ _ _) _).slotChoice.ite (h.foldl (fun _ _ k => k.beginUnload _ _ _) _)

theorem Windows.distributionSilent (h : Windows s t) (n : Nat) : Windows s (distributionSilent n t) := by
  refine Windows.slotChoice ?_
  unfold Machine.transferToPending
  split
  · exact (h.endTransfer n).same
  · exact h

/-! ### Locks and gating -/

theorem Windows.recordLocks (h : Windows s t) (n : Nat) (l : Locks) : Windows s (recordLocks n l t) := by
  have set := h.same (u := t.modOven n fun o => { o with locks := l })
  unfold Machine.recordLocks
  dsimp only
  split
  · exact set.placeFor _ _ _
  · exact set.placeFor _ _ _
  · exact set

theorem Windows.applyBegin (h : Windows s t) (c n : Nat) : Windows s (applyBegin c n t) := by
  unfold Machine.applyBegin
  split
  · exact h
  · dsimp only
    refine Windows.raise ?_ _ _ _
    have told := fun g d => (h.modCEntry c n g).placeFor .updateRelay n d
    exact (told _ _).ite ((told _ _).recordLocks _ _)

theorem Windows.gate (h : Windows s t) (c n : Nat) : Windows s (gate c n t) := (h.applyBegin c n).ite h

theorem Windows.gateOven (h : Windows s t) (n : Nat) : Windows s (gateOven n t) := by
  unfold Machine.gateOven
  split
  · exact h.gate _ _
  · exact h

theorem Windows.gateCampaign (h : Windows s t) (c : Nat) : Windows s (gateCampaign c t) := by
  unfold Machine.gateCampaign
  split
  · exact h.foldl (fun _ _ k => k.gate _ _) _
  · exact h

theorem Windows.gateAll (h : Windows s t) : Windows s (gateAll t) := h.foldl (fun _ _ k => k.gateCampaign _) _

theorem Windows.deriveLock (h : Windows s t) (n : Nat) : Windows s (deriveLock n t) := by
  have gated := (h.recordLocks n (t.lockView n)).gateOven n
  exact h.ite (gated.slotChoice.ite gated)

/-! ### Tickets and routing -/

theorem Windows.raiseTicket (h : Windows s t) (c k : Nat) : Windows s (raiseTicket c k t) := by
  unfold Machine.raiseTicket
  split
  · exact h.raise _ _ _
  · exact h

theorem Windows.reportTicket (h : Windows s t) (x : Ticket) : Windows s (reportTicket x t) := by
  have locked := Windows.ite (p := (t.cls x.cls).severity = .lockout) (h.deriveLock x.oven) h
  exact h.ite (locked.channelChoice.ite locked)

theorem Windows.createTicket (h : Windows s t) (n : Nat) (o : Origin) (code : Option Nat) (c : Nat) (a : Bool) (e : Option Nat) :
    Windows s (createTicket n o code c a e t) := by
  refine Windows.reportTicket (Windows.raiseTicket ?_ _ _) _
  split <;> exact h.same

theorem Windows.closeTicket (h : Windows s t) (r k : Nat) : Windows s (closeTicket r k t) := by
  unfold Machine.closeTicket
  split
  · exact h
  · have noticed := fun x => (h.same (u := { t with tickets := t.tickets.filter fun x => x.number ≠ k })).raise .ticket x
    exact ((noticed _ _).reportTicket _).ite (noticed _ _)

theorem Windows.withdrawTickets (h : Windows s t) (n : Nat) : Windows s (withdrawTickets n t) :=
  h.foldl (fun _ _ k => k.closeTicket _ _) _

theorem Windows.settleTickets (h : Windows s t) (k : Nat) (b : Bool) : Windows s (settleTickets k b t) :=
  (h.foldl (fun _ _ k => k.closeTicket _ _) _).ite h.same

theorem Windows.foldFault (h : Windows s t) (x : Ticket) : Windows s (foldFault x t) :=
  (h.same (u := t.modTicket x.number _) |>.raiseTicket _ _).ite
    ((h.same (u := t.modTicket x.number _) |>.raiseTicket _ _).reportTicket _)

theorem Windows.routeFault (h : Windows s t) (n c : Nat) (o : Origin) : Windows s (routeFault n c o t) := by
  unfold Machine.routeFault
  refine h.ite ?_
  split
  · exact h.foldFault _
  · split
    · exact h.same
    · exact h.raise _ _ _
    · exact (h.raise _ _ _).ite (h.createTicket _ _ _ _ _ _)

/-! ### The Update Relay -/

theorem Windows.raiseUpdate (h : Windows s t) (a c n f k : Nat) : Windows s (raiseUpdate a c n f k t) := h.raise _ _ _

theorem Windows.releaseChannel (h : Windows s t) (ch o : Nat) (a : Bool) : Windows s (releaseChannel ch o a t) := by
  unfold Machine.releaseChannel
  split
  · exact h
  · rename_i b _
    have freed := h.same (u := (withdrawImage ch t).setChannel ch none)
    have told : ∀ u, Windows s u → Windows s (raiseReleased ch b.campaign b.oven o u) := fun u k =>
      (k.same (u := u.drawn)).raise _ _ _
    exact (told _ ((freed.trans (Serves.refl.enqueue _).kickQuiet.windows).ite freed)).modCEntry _ _ _

theorem Windows.releaseEntry (h : Windows s t) (c n o : Nat) (a : Bool) : Windows s (releaseEntry c n o a t) := by
  unfold Machine.releaseEntry
  split
  · exact h.releaseChannel _ _ _
  · exact h

theorem Windows.settleCancelled (h : Windows s t) (c n k f : Nat) : Windows s (settleCancelled c n k f t) := by
  have removed := fun g x => (((h.modCEntry c n g).deriveLock n).raiseUpdate k c n f x).removeCEntry c n
  unfold Machine.settleCancelled
  dsimp only
  split
  · exact (((removed _ _).clearCampaign c).raise _ _ _).ite (removed _ _)
  · exact removed _ _

theorem Windows.countAttempt (h : Windows s t) (k c n : Nat) : Windows s (countAttempt k c n t) :=
  ((h.modCEntry _ _ _).ite ((h.modCEntry _ _ _).routeFault _ _ _)).raiseUpdate _ _ _ _ _

theorem Windows.failedAttempt (h : Windows s t) (k c n : Nat) : Windows s (failedAttempt k c n t) := by
  unfold Machine.failedAttempt
  split
  · exact h
  · have released := fun a g => (h.releaseEntry c n outcomeFailed a).modCEntry c n g
    exact ((released _ _).settleCancelled _ _ _ _).channelChoice.ite
      ((((released _ _).raiseUpdate _ _ _ _ _).removeCEntry _ _).finishCheck _ |>.channelChoice.ite
        (((released _ _).countAttempt _ _ _).finishCheck _).channelChoice)

theorem Windows.suspend (h : Windows s t) (ch : Nat) : Windows s (suspend ch t) := by
  unfold Machine.suspend
  split
  · exact h
  · exact ((h.same (u := t.modChannel ch _)).modCEntry _ _ _).raiseUpdate _ _ _ _ _

theorem Windows.relaySilent (h : Windows s t) (n : Nat) : Windows s (relaySilent n t) := by
  unfold Machine.relaySilent
  split
  · exact h
  · split
    · exact h
    · exact (h.same (u := (withdrawImage _ t).modChannel _ _)).suspend _

theorem Windows.applyFailed (h : Windows s t) (k c n : Nat) : Windows s (applyFailed k c n t) :=
  (h.failedAttempt _ _ _).deriveLock _

/-! ### The Hygiene Monitor -/

theorem Windows.placeHygieneState (h : Windows s t) (n : Nat) : Windows s (placeHygieneState n t) := by
  unfold Machine.placeHygieneState
  split
  · exact h.placeFor _ _ _
  · exact h.placeFor _ _ _
  · exact h

theorem Windows.raiseHygiene (h : Windows s t) (n c p q : Nat) : Windows s (raiseHygiene n c p q t) := by
  unfold Machine.raiseHygiene
  split
  · exact h.raise _ _ _
  · exact h

theorem Windows.raiseStanding (h : Windows s t) (n : Nat) : Windows s (raiseStanding n t) := by
  unfold Machine.raiseStanding
  split
  · exact h.raiseHygiene _ _ _ _
  · exact h.raiseHygiene _ _ _ _
  · exact h

theorem Windows.storeState (h : Windows s t) (n : Nat) : Windows s (storeState n t).2 := by
  unfold Machine.storeState
  split
  · exact h
  · split
    · exact h
    · have told := fun g => (h.same (u := t.modHygiene n g)).placeHygieneState n
      exact ((told _).gateOven _).ite (told _)

theorem Windows.reevaluate (h : Windows s t) (n : Nat) : Windows s (reevaluate n t) := by
  have stored := h.storeState n
  unfold Machine.reevaluate
  split <;> rename_i e <;> rw [e] at stored
  · exact stored.raiseStanding n
  · exact stored

theorem Windows.chargeSoil (h : Windows s t) (n c : Nat) : Windows s (chargeSoil n c t) :=
  (h.same (u := t.modHygiene n _)).reevaluate _

theorem Windows.abandonClean (h : Windows s t) (n k : Nat) (c : Clean) : Windows s (abandonClean n k c t) :=
  ((h.same (u := t.modHygiene n _)).storeState _).raiseHygiene _ _ _ _

theorem Windows.cleanLapse (h : Windows s t) (n : Nat) : Windows s (cleanLapse n t) := by
  unfold Machine.cleanLapse
  split
  · exact (h.abandonClean _ _ _).routeFault _ _ _
  · exact h

/-! ### The Oven Registry and the Permit Unit -/

theorem Windows.becomeSilent (h : Windows s t) (n : Nat) : Windows s (becomeSilent n t) :=
  (((h.same (u := t.modOven n _)).raise _ _ _).distributionSilent _).relaySilent _

theorem Windows.vacate (h : Windows s t) (n : Nat) : Windows s (vacate n t) :=
  ((((h.withdrawTickets n).same (u := (Machine.withdrawTickets n t).setOven n {})).withdraw _ _ _).withdraw _ _ _)

theorem Windows.leaveService (h : Windows s t) (n : Nat) : Windows s (leaveService n t) :=
  (((h.raise _ _ _).vacate _).place _).ite ((h.raise _ _ _).vacate _)

theorem Windows.leaveCheck (h : Windows s t) (n : Nat) : Windows s (leaveCheck n t) := (h.leaveService _).ite h

theorem Windows.removePermit (h : Windows s t) (n : Nat) (b : Bool) : Windows s (removePermit n b t) := by
  unfold Machine.removePermit
  split
  · exact h
  · rename_i p _
    have closed := ((h.same (u := dropRef p.recipe p.version (t.setPermit n none))).unloadDeferred n).gateOven n
    exact closed.ite (closed.leaveCheck _)

theorem Windows.lapse (h : Windows s t) (n : Nat) : Windows s (lapse n t) := by
  unfold Machine.lapse
  split
  · exact h
  · exact ((((h.chargeSoil _ _).settleTickets _ _).removePermit _ _).routeFault _ _ _).raise _ _ _

theorem Windows.assignAgain (h : Windows s t) (n : Nat) : Windows s (assignAgain n t) :=
  (h.place _).same

theorem Windows.backToDiscovered (h : Windows s t) (n : Nat) : Windows s (backToDiscovered n t) :=
  (h.same (u := t.modOven n _)).raise _ _ _

theorem Windows.testFailed (h : Windows s t) (n r : Nat) : Windows s (testFailed n r t) :=
  ((h.same (u := t.modOven n _)).routeFault _ _ _).raise _ _ _

/-! ### The expiries -/

theorem Windows.holdExpiry (h : Windows s t) (n : Nat) : Windows s (holdExpiry n t) := ((h.vacate _).raise _ _ _).ite h
theorem Windows.assignReplyExpiry (h : Windows s t) (n : Nat) : Windows s (assignReplyExpiry n t) :=
  ((h.assignAgain n).same.ite (h.backToDiscovered _)).ite h
theorem Windows.profileExpiry (h : Windows s t) (n : Nat) : Windows s (profileExpiry n t) := (h.backToDiscovered _).ite h
theorem Windows.testExpiry (h : Windows s t) (n : Nat) : Windows s (testExpiry n t) := (h.testFailed _ _).ite h
theorem Windows.silenceExpiry (h : Windows s t) (n : Nat) : Windows s (silenceExpiry n t) := (h.becomeSilent _).ite h
theorem Windows.gatheringExpiry (h : Windows s t) (n : Nat) : Windows s (gatheringExpiry n t) := h.same.ite h
theorem Windows.permitExpiry (h : Windows s t) (n : Nat) : Windows s (permitExpiry n t) := (h.lapse _).ite h
theorem Windows.hygieneExpiry (h : Windows s t) (n : Nat) : Windows s (hygieneExpiry n t) :=
  ((h.same (u := t.modHygiene n _)).reevaluate _).ite h
theorem Windows.advanceExpiry (h : Windows s t) (n : Nat) : Windows s (advanceExpiry n t) :=
  ((h.same (u := t.modHygiene n _)).reevaluate _).ite h
theorem Windows.cleanExpiry (h : Windows s t) (n : Nat) : Windows s (cleanExpiry n t) := (h.cleanLapse _).ite h
theorem Windows.escalationExpiry (h : Windows s t) (k : Nat) : Windows s (escalationExpiry k t) :=
  ((h.same (u := t.modTicket k _)).raiseTicket _ _).ite h
theorem Windows.verificationExpiry (h : Windows s t) (k : Nat) : Windows s (verificationExpiry k t) :=
  (h.closeTicket _ _).ite h
theorem Windows.entryHoldExpiry (h : Windows s t) (c n : Nat) : Windows s (entryHoldExpiry c n t) :=
  (h.failedAttempt _ _ _).ite h
theorem Windows.applyExpiry (h : Windows s t) (c n : Nat) : Windows s (applyExpiry c n t) :=
  ((h.applyFailed _ _ _).leaveCheck _).ite h

end Sys2Proof.Machine
end

section
/-! PROOF. The restart after a warm reset (R188): each deadline expires as its own row does, the starts of a window that the clock
has passed, and the state that the make-ups find. -/

namespace Sys2Proof.Machine

set_option Elab.async false

variable {s t u : State}

/-! ### The rows of the alarms -/

/-- The row of an alarm does what its expiry does, as an event. -/
def Alarm.Runs (a : Alarm) : Prop := ∀ u : State, exec a.command u = .next (event a.expire u)

/-- What the expiry of an alarm does leaves the window of every campaign, or no campaign. -/
def Alarm.KeepsWindows (a : Alarm) : Prop := ∀ u : State, Windows u (a.expire u)

theorem alarmAt_runs {i : Option Nat} {c : Instr} {f : State → State} {a : Alarm} (h : a ∈ alarmAt i c f)
    (row : ∀ u : State, exec c u = .next (event f u) := by intro _; rfl) : a.Runs := by
  cases i with
  | none => cases h
  | some t =>
    rw [alarmAt, List.mem_singleton] at h
    subst h
    exact row

theorem alarmAt_keepsWindows {i : Option Nat} {c : Instr} {f : State → State} {a : Alarm} (h : a ∈ alarmAt i c f)
    (keeps : ∀ u : State, Windows u (f u)) : a.KeepsWindows := by
  cases i with
  | none => cases h
  | some t =>
    rw [alarmAt, List.mem_singleton] at h
    subst h
    exact keeps

/-- R183, R188: the row of a deadline kept across a warm reset, and what its expiry leaves of the windows. -/
theorem retainedAlarms_runs {a : Alarm} (h : a ∈ s.retainedAlarms) : a.Runs ∧ a.KeepsWindows := by
  have both : ∀ {i : Option Nat} {c : Instr} {f : State → State}, a ∈ alarmAt i c f →
      (∀ u : State, exec c u = .next (event f u)) → (∀ u : State, Windows u (f u)) → a.Runs ∧ a.KeepsWindows :=
    fun m row keeps => ⟨alarmAt_runs m row, alarmAt_keepsWindows m keeps⟩
  simp only [State.retainedAlarms, List.mem_append, List.mem_flatMap] at h
  rcases h with (⟨n, -, h⟩ | ⟨k, -, h⟩) | ⟨c, -, h⟩
  · simp only [State.ovenAlarms, List.mem_append] at h
    rcases h with ((((((((h | h) | h) | h) | h) | h) | h) | h) | h) | h
    · exact both h (fun _ => rfl) fun _ => Windows.refl.holdExpiry n
    · exact both h (fun _ => rfl) fun _ => Windows.refl.assignReplyExpiry n
    · exact both h (fun _ => rfl) fun _ => Windows.refl.profileExpiry n
    · exact both h (fun _ => rfl) fun _ => Windows.refl.testExpiry n
    · exact both h (fun _ => rfl) fun _ => Windows.refl.silenceExpiry n
    · exact both h (fun _ => rfl) fun _ => Windows.refl.gatheringExpiry n
    · exact both h (fun _ => rfl) fun _ => Windows.refl.permitExpiry n
    · exact both h (fun _ => rfl) fun _ => Windows.refl.hygieneExpiry n
    · exact both h (fun _ => rfl) fun _ => Windows.refl.advanceExpiry n
    · exact both h (fun _ => rfl) fun _ => Windows.refl.cleanExpiry n
  · simp only [Ticket.alarms, List.mem_append] at h
    rcases h with h | h
    · exact both h (fun _ => rfl) fun _ => Windows.refl.escalationExpiry k.number
    · exact both h (fun _ => rfl) fun _ => Windows.refl.verificationExpiry k.number
  · unfold State.campaignAlarms at h
    split at h
    · simp only [List.mem_flatMap, List.mem_append] at h
      obtain ⟨e, -, h | h⟩ := h
      · exact both h (fun _ => rfl) fun _ => Windows.refl.entryHoldExpiry c e.oven
      · exact both h (fun _ => rfl) fun _ => Windows.refl.applyExpiry c e.oven
    · cases h

theorem alarms_runs {a : Alarm} (h : a ∈ s.alarms) : a.Runs := by
  simp only [State.alarms, List.mem_append, List.mem_flatMap] at h
  rcases h with (h | ⟨n, -, h⟩) | ⟨ch, -, h⟩
  · exact (retainedAlarms_runs h).1
  · simp only [State.loadedAlarms, List.mem_append, List.mem_flatMap] at h
    rcases h with (h | h) | ⟨e, -, h⟩
    · exact alarmAt_runs h
    · exact alarmAt_runs h
    · exact alarmAt_runs h
  · unfold State.channelAlarms at h
    split at h
    · simp only [List.mem_append] at h
      rcases h with h | h
      · exact alarmAt_runs h
      · exact alarmAt_runs h
    · cases h

/-- R183: the row of an armed deadline, in a running main domain below the clock's maximum. -/
theorem alarm_row (hl : s.Live) {a : Alarm} (h : a ∈ s.alarms) : exec a.command s = .next (a.expire s) := by
  rw [alarms_runs h s, event_moves hl (s.alarms_moves h Moves.refl)]

/-! ### Window starts -/

theorem startsBy_eq {minute : Nat} (h : minute ≤ 1439) (t : Nat) : startsBy minute t = (t + 86400 - minute * 60) / 86400 := by
  unfold startsBy
  split <;> omega

/-- R188 step 2: the count of a window's starts grows exactly where one of them is passed. -/
theorem startsBy_lt_iff {minute : Nat} (h : minute ≤ 1439) (t u : Nat) :
    startsBy minute t < startsBy minute u ↔ ∃ i, t < i ∧ i ≤ u ∧ i % 86400 = minute * 60 := by
  rw [startsBy_eq h, startsBy_eq h]
  constructor
  · intro grows
    exact ⟨minute * 60 + 86400 * ((u + 86400 - minute * 60) / 86400 - 1), by omega, by omega, by omega⟩
  · rintro ⟨i, above, upto, start⟩
    omega

/-! ### What passed in the reset -/

theorem insertBefore_ascends {α : Type} (key : α → Nat) (x : α) {l : List α} (h : (l.map key).Pairwise (· ≤ ·)) :
    ((insertBefore (fun y => key x < key y) x l).map key).Pairwise (· ≤ ·) := by
  induction l with
  | nil => simp [insertBefore]
  | cons y l ih =>
    rw [List.map_cons, List.pairwise_cons] at h
    unfold insertBefore
    split
    · rename_i less
      have less : key x < key y := by simpa using less
      rw [List.map_cons, List.map_cons, List.pairwise_cons, List.pairwise_cons]
      refine ⟨fun k hk => ?_, h⟩
      rcases List.mem_cons.1 hk with rfl | hk
      · exact less.le
      · exact less.le.trans (h.1 k hk)
    · rename_i more
      have more : key y ≤ key x := by simpa using more
      rw [List.map_cons, List.pairwise_cons]
      refine ⟨fun k hk => ?_, ih h.2⟩
      obtain ⟨z, hz, rfl⟩ := List.mem_map.1 hk
      rcases (insertBefore_mem _ _ _ _).1 hz with rfl | hz
      · exact more
      · exact h.1 _ (List.mem_map_of_mem hz)

/-- R188 step 1: sorting by a key gives the same items, by ascending key. -/
theorem sortByKey_perm_sorted {α : Type} (key : α → Nat) (l : List α) :
    (sortByKey key l).Perm l ∧ ((sortByKey key l).map key).Pairwise (· ≤ ·) := by
  have grown : ∀ (l acc : List α), (acc.map key).Pairwise (· ≤ ·) →
      (l.foldl (fun acc x => insertBefore (fun y => key x < key y) x acc) acc).Perm (acc ++ l) ∧
      ((l.foldl (fun acc x => insertBefore (fun y => key x < key y) x acc) acc).map key).Pairwise (· ≤ ·) := by
    intro l
    induction l with
    | nil => exact fun acc h => ⟨by simp, h⟩
    | cons x l ih =>
      intro acc h
      obtain ⟨perm, sorted⟩ := ih _ (insertBefore_ascends key x h)
      refine ⟨perm.trans (((insertBefore_perm _ x acc).append_right l).trans ?_), sorted⟩
      exact List.perm_middle.symm
  exact grown l [] List.Pairwise.nil

/-- R89 step 1: an entry whose transfer or offer is lost. -/
def Entry.returned (e : Entry) : Entry :=
  if e.state = .offered ∨ e.state = .sending then { e with state := .pending, deadline := none } else e

/-- R180 step 1: a campaign's entry whose transfer is lost. -/
def CEntry.returned (e : CEntry) : CEntry :=
  if e.state = .transferring ∨ e.state = .suspended then
    { e with state := .waiting, timeouts := 0, deadline := none, channel := none } else e

/-- R89 step 1, R180 step 1: what a warm reset's end leaves of the transfers and offers before any deadline expires. -/
def State.returned (s : State) (brsel : Bool) : State := { s with
  bitRate500 := brsel, slots := Vector.replicate 4 none
  loaded := s.loaded.map (List.map Entry.returned)
  campaigns := s.campaigns.map (Option.map fun m => { m with entries := m.entries.map CEntry.returned }) }

theorem returned_eq (s : State) (brsel : Bool) :
    transfersToWaiting (offersToPending { s with bitRate500 := brsel }) = s.returned brsel := by
  have offers : (fun e : Entry => if e.state.inTransfer then { e with state := .pending, deadline := none } else e) =
      Entry.returned := by
    funext e
    obtain ⟨_, _, st, _⟩ := e
    cases st <;> rfl
  have transfers : transferToWaiting = CEntry.returned := by
    funext e
    obtain ⟨_, _, st, _⟩ := e
    cases st <;> rfl
  unfold transfersToWaiting offersToPending State.returned
  rw [offers, transfers]

end Sys2Proof.Machine
end

section
/-! PROOF. What the end of a warm reset comes to (R188): the deadlines and window starts passed, then the make-ups; what it leaves
of the clock, the bus standing and the port, and its notice. -/

namespace Sys2Proof.Machine

set_option Elab.async false

variable {s t u : State} {cause : ResetCause} {since : Nat} {brsel : Bool}

/-! ### What a return of transfers and offers keeps -/

theorem returned_loadedOf (n : Nat) : (s.returned brsel).loadedOf n = (s.loadedOf n).map Entry.returned :=
  vget_map s.loaded (List.map Entry.returned) n []

theorem returned_campaign (c : Nat) : (s.returned brsel).campaign c =
    (s.campaign c).map fun m => { m with entries := m.entries.map CEntry.returned } :=
  vget_map_none s.campaigns _ c

/-- A change of items that leaves those of a kind, and makes no others of the kind, leaves the selection of the kind. -/
theorem filter_map_kept {α : Type} {l : List α} {p : α → Bool} {f : α → α} (kind : ∀ x, p (f x) = p x)
    (same : ∀ x, p x = true → f x = x) : (l.map f).filter p = l.filter p := by
  rw [List.filter_map, show p ∘ f = p from funext kind]
  conv_rhs => rw [← List.map_id (l.filter p)]
  exact List.map_congr_left fun x hx => same x (List.mem_filter.1 hx).2

/-- R89 step 1 leaves the entries in UNLOADING. -/
theorem returned_unloading (l : List Entry) : (l.map Entry.returned).filter (fun e => e.state = .unloading) =
    l.filter fun e => e.state = .unloading := by
  refine filter_map_kept (fun e => ?_) fun e he => ?_
  · unfold Entry.returned
    split <;> rename_i h
    · rcases h with h | h <;> simp [h]
    · rfl
  · have he : e.state = .unloading := by simpa using he
    exact if_neg (by simp [he])

/-- R180 step 1 leaves the entries in APPLYING. -/
theorem returned_applying (l : List CEntry) : (l.map CEntry.returned).filter (fun e => e.state = .applying) =
    l.filter fun e => e.state = .applying := by
  refine filter_map_kept (fun e => ?_) fun e he => ?_
  · unfold CEntry.returned
    split <;> rename_i h
    · rcases h with h | h <;> simp [h]
    · rfl
  · have he : e.state = .applying := by simpa using he
    exact if_neg (by simp [he])

theorem returned_unloadingEntries :
    (s.returned brsel).unloadingEntries = State.unloadingEntries { s with bitRate500 := brsel } := by
  unfold State.unloadingEntries
  refine List.flatMap_congr fun n _ => ?_
  rw [returned_loadedOf, returned_unloading]
  rfl

theorem returned_applyingEntries :
    (s.returned brsel).applyingEntries = State.applyingEntries { s with bitRate500 := brsel } := by
  unfold State.applyingEntries
  refine List.flatMap_congr fun c _ => ?_
  have before : State.campaign { s with bitRate500 := brsel } c = s.campaign c := rfl
  rw [returned_campaign, before]
  cases s.campaign c with
  | none => rfl
  | some m => exact congrArg (List.map fun e : CEntry => (c, e.oven)) (returned_applying m.entries)

theorem returned_windows : Windows s (s.returned brsel) := fun c => .inr (by
  rw [returned_campaign, Option.map_map]
  rfl)

/-! ### Window starts passed -/

theorem gateCampaign_gone {c : Nat} (h : t.campaign c = none) : gateCampaign c t = t := by
  unfold gateCampaign
  rw [h]

theorem Windows.none (h : Windows s t) {c : Nat} (hs : s.campaign c = none) : t.campaign c = none := by
  rcases h c with k | k
  · exact k
  · rw [hs] at k
    exact Option.map_eq_none_iff.1 k

/-- R188 step 2: it does not matter whether a campaign that has gone is taken for one whose start has passed. -/
theorem gateCampaigns_congr {p q : Nat → Bool} (l : List Nat) (h : ∀ c ∈ l, t.campaign c = none ∨ p c = q c) :
    (l.filter p).foldl (fun u c => gateCampaign c u) t = (l.filter q).foldl (fun u c => gateCampaign c u) t := by
  induction l generalizing t with
  | nil => rfl
  | cons c l ih =>
    have rest : ∀ u, Windows t u → (l.filter p).foldl (fun u c => gateCampaign c u) u =
        (l.filter q).foldl (fun u c => gateCampaign c u) u := fun u w =>
      ih fun d hd => (h d (List.mem_cons_of_mem _ hd)).imp w.none id
    have first := rest t Windows.refl
    have next := rest _ (Windows.refl.gateCampaign c)
    rcases h c List.mem_cons_self with gone | same
    · rw [gateCampaign_gone gone] at next
      cases hp : p c <;> cases hq : q c <;>
        simp only [List.filter_cons, hp, hq, if_true, Bool.false_eq_true, if_false, List.foldl_cons, gateCampaign_gone gone, first]
    · cases hp : p c <;> rw [hp] at same <;>
        simp only [List.filter_cons, hp, ← same, if_true, Bool.false_eq_true, if_false, List.foldl_cons, first, next]

/-- R188 step 2: the campaigns a start of whose window the clock has passed since an instant. -/
def State.startsPassed (s : State) (since : Nat) : List Nat := [1, 2, 3, 4].filter fun c => (s.campaign c).any fun m =>
  decide (m.windowStart ≠ m.windowEnd ∧ startsBy m.windowStart since < startsBy m.windowStart s.clock)

theorem passedWindows_eq (w : Windows s t) (hc : t.clock = s.clock) :
    passedWindows since t = (s.startsPassed since).foldl (fun u c => gateCampaign c u) t := by
  refine gateCampaigns_congr [1, 2, 3, 4] fun c _ => (w c).imp id fun same => ?_
  unfold State.windowPassed
  rw [hc]
  cases hs : s.campaign c with
  | none =>
    rw [hs] at same
    rw [Option.map_eq_none_iff.1 same]
    rfl
  | some m =>
    rw [hs] at same
    obtain ⟨m', ht, window⟩ := Option.map_eq_some_iff.1 same
    obtain ⟨begins, ends⟩ : m'.windowStart = m.windowStart ∧ m'.windowEnd = m.windowEnd := Prod.mk.inj window
    rw [ht]
    simp only [Option.any_some, begins, ends, Bool.decide_and]

theorem Windows.applyResumes (h : Windows s t) (x : Nat × Nat) : Windows s (applyResumes t x) := by
  unfold Machine.applyResumes
  split
  · exact (h.placeFor _ _ _).ite h
  · exact h

theorem expirePassed_windows (s : State) : Windows s (expirePassed s) := by
  have kept : ∀ a ∈ s.dueAlarms s.retainedAlarms, a.KeepsWindows := fun a ha =>
    (retainedAlarms_runs ((s.mem_dueAlarms _ a).1 ha).1).2
  unfold expirePassed
  generalize s.dueAlarms s.retainedAlarms = l at kept
  suffices all : ∀ t, Windows s t → Windows s (l.foldl (fun u a => a.expire u) t) from all s Windows.refl
  intro t h
  induction l generalizing t with
  | nil => exact h
  | cons a l ih => exact ih (fun b hb => kept b (List.mem_cons_of_mem _ hb)) _ (h.trans (kept a List.mem_cons_self t))

/-! ### The end of the reset -/

/-- R188: the make-ups of a main domain that runs again leave the clock, the bus standing and the port. -/
theorem makeUps_still (h : Still { s with bitRate500 := brsel } t) (lost : List (Nat × Entry)) :
    Still { s with power := .running, bitRate500 := brsel } (makeUps cause lost { t with power := .running }) := by
  have running : Still { s with power := .running, bitRate500 := brsel } { t with power := .running } :=
    ⟨h.pending, rfl, h.clock, h.clockUnset, h.bitRate500, h.tec, h.receive, h.busOff, h.inbound, h.levels, h.overruns,
      h.discarded, h.barred, h.siteOpen, h.rejoinHeld, h.classes, h.port, h.overrun, h.miso, h.enables⟩
  exact running.trans (Moves.refl (s := { t with power := .running }) |>.makeUps cause lost).still

theorem resume_still : Still { s with power := .running, bitRate500 := brsel }
    (resume cause since { s with bitRate500 := brsel }) := by
  unfold resume
  exact makeUps_still (Moves.refl.takePassed since _).still _

/-- R188: the resumption, below the clock's maximum. -/
theorem exec_warmResetEnd (hp : s.power = .warmReset cause since) (hc : s.clock < Config.maxClock) :
    exec (.warmResetEnd brsel) s = .next (resume cause since { s with bitRate500 := brsel }) := by
  have resumed : warmResetEnd brsel s = settle (resume cause since { s with bitRate500 := brsel }) := by
    unfold warmResetEnd
    rw [hp]
  have clock := (resume_still (s := s) (cause := cause) (since := since) (brsel := brsel)).clock
  show Host.Outcome.next (warmResetEnd brsel s) = _
  rw [resumed]
  generalize resume cause since { s with bitRate500 := brsel } = t at clock ⊢
  have below : t.clock < Config.maxClock := clock.trans_lt hc
  rw [settle, if_pos below]

/-- R188 steps 1 and 2: the deadlines passed in the order of their instants, the Relay's APPLYs and the apply gating, the window
starts passed; then the make-ups. -/
theorem warmResetEnd_parts (hp : s.power = .warmReset cause since) (hc : s.clock < Config.maxClock) :
    ∃ l : List Alarm, l.Perm ((s.returned brsel).retainedAlarms.filter fun a => decide (a.instant ≤ s.clock)) ∧
      (l.map Alarm.instant).Pairwise (· ≤ ·) ∧
      exec (.warmResetEnd brsel) s = .next (makeUps cause (s.returned brsel).unloadingEntries
        { (s.startsPassed since).foldl (fun t c => gateCampaign c t) (gateAll ((s.returned brsel).applyingEntries.foldl
          applyResumes (l.foldl (fun t a => a.expire t) (s.returned brsel)))) with power := .running }) := by
  obtain ⟨perm, sorted⟩ := sortByKey_perm_sorted Alarm.instant
    ((s.returned brsel).retainedAlarms.filter fun a => decide (a.instant ≤ s.clock))
  refine ⟨_, perm, sorted, ?_⟩
  have expired := expirePassed_windows (s.returned brsel)
  have told : Windows (s.returned brsel)
      (relayResumes (s.returned brsel).applyingEntries (expirePassed (s.returned brsel))) :=
    (expired.foldl (fun _ x k => k.applyResumes x) _).gateAll
  have clock : (relayResumes (s.returned brsel).applyingEntries (expirePassed (s.returned brsel))).clock = s.clock :=
    ((Moves.refl (s := s.returned brsel)).expirePassed.relayResumes _).still.clock
  rw [exec_warmResetEnd hp hc, resume, ← returned_unloadingEntries, ← returned_applyingEntries, takePassed, returned_eq,
    passedWindows_eq (returned_windows.trans told) clock]
  rfl

/-! ### The notice -/

theorem putNotice_mem (k : NoticeKind) (n : Nat) (d : List Byte) (s : State) :
    ∃ e ∈ (putNotice k n d s).notices, e.kind = k ∧ e.last = s.clock ∧ e.detail = d := by
  unfold putNotice
  split
  · rename_i found
    obtain ⟨e, he, is⟩ := List.any_eq_true.1 found
    refine ⟨_, List.mem_map_of_mem he, ?_⟩
    rw [if_pos is]
    exact ⟨by simpa using (Bool.and_eq_true_iff.1 is).1, rfl, rfl⟩
  · exact ⟨_, List.mem_append_right _ (List.mem_singleton_self _), rfl, rfl, rfl⟩

/-- R196, R198: a raise of a kind that cannot be disabled leaves its notice in the set, or RESYNC standing for it. -/
theorem raise_noticed {k : NoticeKind} (n : Nat) (d : List Byte) (s : State) (on : s.enabled k = true) :
    (∃ e ∈ (raise k n d s).notices, e.kind = k ∧ e.last = s.clock ∧ e.detail = padDetail d) ∨
      ∃ e ∈ (raise k n d s).notices, e.kind = .resync ∧ e.last = s.clock := by
  unfold raise
  rw [if_neg (by simp [on])]
  split
  · exact .inl (putNotice_mem _ _ _ _)
  · obtain ⟨e, he, kind, last, -⟩ := putNotice_mem .resync 0 (padDetail (le 1 k.code ++ le 2 n)) s
    exact .inr ⟨e, he, kind, last⟩

end Sys2Proof.Machine
end

section
/-! PROOF. The make-ups after a warm reset in which nothing passed (R48, R89, R107, R180): what each pass of them places. -/

namespace Sys2Proof.Machine

set_option Elab.async false

variable {s t u w : State} {n : Nat}

/-! ### What the passes before leave -/

/-- What the Registry's pass reads of a record. -/
def Oven.standing (o : Oven) : OvenState × Option Nat × Int × Int := (o.state, o.serial, o.cavity, o.humidity)

/-- What the make-ups leave for the passes that follow, no distribution slot being bound. -/
structure Resumes (w t : State) : Prop where
  settled : t.Settled
  clock : t.clock = w.clock
  permits : t.permits = w.permits
  loaded : t.loaded = w.loaded
  unbound : t.Unbound
  records : ∀ n, (t.oven n).standing = (w.oven n).standing

theorem Resumes.moved (h : Resumes w t) (m : Moves t u) (permits : u.permits = t.permits := by rfl)
    (loaded : u.loaded = t.loaded := by rfl) (slots : u.slots = t.slots := by rfl)
    (records : ∀ n, (u.oven n).standing = (t.oven n).standing := by intro _; rfl) : Resumes w u where
  settled := m.settled h.settled
  clock := m.still.clock.trans h.clock
  permits := permits.trans h.permits
  loaded := loaded.trans h.loaded
  unbound := h.unbound.congr slots
  records n := (records n).trans (h.records n)

/-- The choices of the Update Relay and of the transmitter. -/
theorem Resumes.chosen (h : Resumes w t) (m : Moves t u) (a : Serves t u) (b : Relays t u) : Resumes w u where
  settled := m.settled h.settled
  clock := m.still.clock.trans h.clock
  permits := b.permits.trans h.permits
  loaded := (a.loaded h.unbound).trans h.loaded
  unbound := a.unbound h.unbound
  records n := by
    rw [State.oven, b.ovens]
    exact h.records n

theorem Resumes.placeFor (h : Resumes w t) (p : Producer) (n : Nat) (d : Payload) : Resumes w (placeFor p n d t) :=
  h.chosen (Moves.refl.placeFor p n d) (Serves.refl.placeFor p n d) (Relays.refl.place _)

theorem Resumes.channelChoice (h : Resumes w t) : Resumes w (channelChoice t) :=
  h.chosen Moves.refl.channelChoice Serves.refl.channelChoice Relays.refl.channelChoice

theorem Resumes.raise (h : Resumes w t) (k : NoticeKind) (i : Nat) (d : List Byte) (hk : k ≠ .resync := by decide) :
    Resumes w (raise k i d t) :=
  h.moved (Moves.refl.raise k i d hk) (raise_keeps_permits k i d t) (raise_keeps_loaded k i d t) (raise_keeps_slots k i d t)
    fun n => by rw [State.oven, raise_keeps_ovens]; rfl

theorem setOven_standing {o : Oven} (same : o.standing = (t.oven n).standing) (m : Nat) :
    ((t.setOven n o).oven m).standing = (t.oven m).standing := by
  by_cases hm : m = n
  · subst hm
    by_cases hs : isSlot m
    · rw [State.setOven_oven _ _ _ hs, same]
    · rw [State.setOven, vset_outside _ _ _ hs]
  · rw [State.setOven_oven_ne _ _ _ _ hm]

theorem Resumes.setOven (h : Resumes w t) (n : Nat) {o : Oven} (same : o.standing = (t.oven n).standing) :
    Resumes w (t.setOven n o) := h.moved (Moves.refl.setOven n o) (records := setOven_standing same)

theorem Resumes.modCEntry (h : Resumes w t) (c n : Nat) (f : CEntry → CEntry) (hf : ∀ e, (f e).oven = e.oven := by intro _; rfl) :
    Resumes w (t.modCEntry c n f) := h.moved (Moves.refl.modCEntry c n f hf)

theorem Resumes.recordLocks (h : Resumes w t) (n : Nat) (l : Locks) : Resumes w (recordLocks n l t) := by
  have recorded : Resumes w (t.modOven n fun o => { o with locks := l }) := h.setOven n rfl
  unfold Machine.recordLocks
  dsimp only
  split
  · exact recorded.placeFor _ _ _
  · exact recorded.placeFor _ _ _
  · exact recorded

theorem Resumes.gate (h : Resumes w t) (c n : Nat) : Resumes w (gate c n t) := by
  unfold Machine.gate Machine.applyBegin
  split
  · split
    · exact h
    · rename_i m _
      have told : Resumes w (Machine.placeFor .updateRelay n (.apply m.toVersion) (t.modCEntry c n fun e =>
          { e with state := .applying, deadline := some (t.after Config.applySeconds) })) :=
        (h.modCEntry c n fun e => { e with state := .applying, deadline := some (t.after Config.applySeconds) }).placeFor _ _ _
      dsimp only
      refine Resumes.raise ?_ _ _ _
      split
      · exact told
      · exact told.recordLocks _ _
  · exact h

theorem Resumes.foldl {α : Type} {f : State → α → State} (hf : ∀ t x, Resumes w t → Resumes w (f t x)) (l : List α)
    (h : Resumes w t) : Resumes w (l.foldl f t) := by
  induction l generalizing t with
  | nil => exact h
  | cons x l ih => exact ih (hf t x h)

theorem Resumes.gateAll (h : Resumes w t) : Resumes w (gateAll t) := by
  refine h.foldl (fun t c h => ?_) _
  unfold gateCampaign
  split
  · exact h.foldl (fun _ _ k => k.gate _ _) _
  · exact h

theorem Resumes.applyResumes (h : Resumes w t) (x : Nat × Nat) : Resumes w (applyResumes t x) := by
  unfold Machine.applyResumes
  split
  · split
    · exact h.placeFor _ _ _
    · exact h
  · exact h

/-- Two passes over a list that agree on each item, where a fact holds that the pass keeps. -/
theorem foldl_agree {α : Type} {P : State → Prop} {f g : State → α → State} (l : List α)
    (each : ∀ t, P t → ∀ x ∈ l, f t x = g t x ∧ P (f t x)) (h : P t) : l.foldl f t = l.foldl g t ∧ P (l.foldl f t) := by
  induction l generalizing t with
  | nil => exact ⟨rfl, h⟩
  | cons x l ih =>
    obtain ⟨agree, keep⟩ := each t h x List.mem_cons_self
    obtain ⟨rest, last⟩ := ih (fun t ht y hy => each t ht y (List.mem_cons_of_mem _ hy)) keep
    exact ⟨rest.trans (by rw [List.foldl_cons, ← agree]), last⟩

/-! ### APPLY (R180 step 2) -/

/-- R180 step 2: APPLY for each entry of a campaign in APPLYING. -/
def State.appliedAfresh (w t : State) (c : Nat) : State :=
  match w.campaign c with
  | some m => (m.entries.filter fun e => e.state = .applying).foldl
      (fun t e => deliver (ovenFrame .updateRelay e.oven (.apply m.toVersion)) t) t
  | none => t

theorem applyResumes_eq {c : Nat} {m : Campaign} {e : CEntry} (hs : t.Settled) (hm : t.campaign c = some m)
    (nd : (m.entries.map CEntry.oven).Nodup) (he : e ∈ m.entries.filter fun e => e.state = .applying) :
    applyResumes t (c, e.oven) = deliver (ovenFrame .updateRelay e.oven (.apply m.toVersion)) t := by
  obtain ⟨mem, applying⟩ := List.mem_filter.1 he
  have found : t.centry c e.oven = some e := by
    rw [centry_of_campaign hm]
    cases hf : m.entry e.oven with
    | none => exact absurd (decide_eq_true rfl) (List.find?_eq_none.1 hf e mem)
    | some x =>
      have same : x.oven = e.oven := by simpa using List.find?_some hf
      rw [List.inj_on_of_nodup_map nd (List.mem_of_find?_eq_some hf) mem same]
  unfold applyResumes
  simp only [hm, found, of_decide_eq_true applying, if_true]
  exact placeFor_eq_deliver hs _ _ _

/-- What the APPLY pass keeps: the campaigns. -/
structure Applies (w t : State) : Prop where
  settled : t.Settled
  campaigns : t.campaigns = w.campaigns

theorem appliesAfresh_eq (hs : w.Settled) (nd : ∀ c m, w.campaign c = some m → (m.entries.map CEntry.oven).Nodup) :
    w.applyingEntries.foldl applyResumes w = [1, 2, 3, 4].foldl w.appliedAfresh w := by
  have delivered : ∀ f t, Applies w t → Applies w (deliver f t) := fun f t h =>
    ⟨deliver_settled t f, (deliver_keeps_campaigns f t).trans h.campaigns⟩
  unfold State.applyingEntries
  rw [List.foldl_flatMap]
  refine (foldl_agree (P := Applies w) _ (fun t h c _ => ?_) ⟨hs, rfl⟩).1
  unfold State.appliedAfresh
  cases hm : w.campaign c with
  | none => exact ⟨rfl, h⟩
  | some m =>
    dsimp only
    rw [List.foldl_map]
    refine foldl_agree (P := Applies w) _ (fun t h e he => ?_) h
    have here : t.campaign c = some m := by
      rw [State.campaign, h.campaigns]
      exact hm
    have told := applyResumes_eq h.settled here (nd c m hm) he
    exact ⟨told, by rw [told]; exact delivered _ t h⟩

/-! ### ASSIGN and TEST_ORDER (R48) -/

/-- R48: what is placed afresh for the record of a slot. -/
def State.toldAfresh (w t : State) (n : Nat) : State :=
  match (w.oven n).state with
  | .assigning => (deliver (assignFrame w ((w.oven n).serial.getD 0) n) t).setOven n { t.oven n with
      comm := some (.reply, min 4294967295 (w.clock + 5)), tries := 1 }
  | .testing => deliver (ovenFrame .registry n (.testOrder (w.oven n).cavity (w.oven n).humidity)) t
  | _ => t

theorem assignFrame_congr (h : Resumes w t) (x n : Nat) : assignFrame t x n = assignFrame w x n := by
  have slot : t.slotOfSerial x = w.slotOfSerial x := slotOfSerial_congr (fun m _ => by
    obtain ⟨state, serial, -⟩ := Prod.mk.inj (h.records m) |>.imp id Prod.mk.inj
    exact ⟨by rw [state], serial⟩) x
  unfold assignFrame
  rw [slot]

/-- R48: ASSIGN with the try count at 1, whether or not the record has a serial. -/
theorem assignFirst_afresh (hs : t.Settled) (hn : isSlot n) :
    assignFirst n t = (deliver (assignFrame t ((t.oven n).serial.getD 0) n) t).setOven n { t.oven n with
      comm := some (.reply, min 4294967295 (t.clock + 5)), tries := 1 } := by
  have placed : placeAssign n t = deliver (assignFrame t ((t.oven n).serial.getD 0) n) t := place_eq_deliver hs _ _ rfl
  have clock : State.after (deliver (assignFrame t ((t.oven n).serial.getD 0) n) t) Config.assignReplySeconds =
      min 4294967295 (t.clock + 5) := congrArg (fun c => min 4294967295 (c + 5)) (deliver_clock _ _)
  unfold assignFirst assignAgain
  dsimp only
  rw [placed, clock, State.modOven, State.modOven, State.setOven_oven _ _ _ hn, State.setOven_setOven, deliver_oven]

theorem registryResumes_eq (h : Resumes w t) :
    registryResumes t = allSlots.foldl w.toldAfresh t ∧ Resumes w (registryResumes t) := by
  refine foldl_agree (P := Resumes w) _ (fun t h n hn => ?_) h
  have record := h.records n
  obtain ⟨state, serial, cavity, humidity⟩ :
      (t.oven n).state = (w.oven n).state ∧ (t.oven n).serial = (w.oven n).serial ∧ (t.oven n).cavity = (w.oven n).cavity ∧
        (t.oven n).humidity = (w.oven n).humidity := by
    simpa [Oven.standing] using record
  have delivered : ∀ f, Resumes w (deliver f t) := fun f =>
    ⟨deliver_settled t f, (deliver_clock f t).trans h.clock, (deliver_keeps_permits f t).trans h.permits,
      (deliver_keeps_loaded f t).trans h.loaded, h.unbound.congr (deliver_keeps_slots f t),
      fun m => by rw [deliver_oven]; exact h.records m⟩
  unfold State.toldAfresh
  rw [state]
  cases hw : (w.oven n).state with
  | assigning =>
    have told : assignFirst n t = _ := assignFirst_afresh h.settled ((mem_allSlots n).1 hn)
    rw [assignFrame_congr h, serial, h.clock] at told
    exact ⟨told, by
      dsimp only
      rw [told]
      exact (delivered _).setOven n (by rw [deliver_oven]; rfl)⟩
  | testing =>
    have told : placeTestOrder n t = _ := placeTestOrder_eq h.settled n
    rw [cavity, humidity] at told
    exact ⟨told, by
      dsimp only
      rw [told]
      exact delivered _⟩
  | _ => exact ⟨rfl, h⟩

/-! ### UNLOAD (R89 step 2) -/

/-- R89 step 2: UNLOAD for each entry of an oven in UNLOADING. -/
def State.unloadedAfresh (w t : State) (n : Nat) : State :=
  ((w.loadedOf n).filter fun e => e.state = .unloading).foldl
    (fun t e => (deliver (ovenFrame .distribution n (.unload e.number e.version)) t).modEntry n e.number e.version
      fun x => { x with sends := 1, deadline := some (.unload, min 4294967295 (w.clock + 5)) }) t

/-- A change of an entry that leaves its name and state is no change of any entry's state. -/
theorem entry_modEntry_state (i v : Nat) {f : Entry → Entry}
    (hf : ∀ e, (f e).number = e.number ∧ (f e).version = e.version ∧ (f e).state = e.state) (m j k : Nat) :
    ((t.modEntry n i v f).entry m j k).map Entry.state = (t.entry m j k).map Entry.state := by
  have outside : t.modEntry n i v f = t ∨ isSlot n := by
    by_cases hn : isSlot n
    · exact .inr hn
    · exact .inl (State.setLoaded_outside _ _ _ hn)
  rcases outside with same | hn
  · rw [same]
  · by_cases hm : m = n
    · subst hm
      let g := fun e : Entry => if e.is i v then f e else e
      have kept : ∀ e, (g e).is j k = e.is j k ∧ (g e).state = e.state := fun e => by
        show Entry.is (if _ then _ else _) j k = _ ∧ Entry.state (if _ then _ else _) = _
        obtain ⟨number, version, state⟩ := hf e
        split
        · exact ⟨by rw [Entry.is, number, version]; rfl, state⟩
        · exact ⟨rfl, rfl⟩
      have loaded : (t.modEntry m i v f).loadedOf m = (t.loadedOf m).map g := State.setLoaded_loadedOf _ _ _ hn
      rw [State.entry, loaded, List.find?_map, Option.map_map, State.entry]
      have same : (fun e : Entry => e.is j k) ∘ g = fun e => e.is j k := funext fun e => (kept e).1
      have states : Entry.state ∘ g = Entry.state := funext fun e => (kept e).2
      rw [same, states]
    · rw [State.entry, State.modEntry, State.setLoaded_loadedOf_ne _ _ _ _ hm]
      rfl

/-- What the UNLOAD pass keeps: the states of all entries. -/
structure Unloads (w t : State) : Prop where
  settled : t.Settled
  clock : t.clock = w.clock
  permits : t.permits = w.permits
  states : ∀ m j k, (t.entry m j k).map Entry.state = (w.entry m j k).map Entry.state

theorem unloadResumes_eq {e : Entry} (h : Unloads w t) (nd : ((w.loadedOf n).map fun e => (e.number, e.version)).Nodup)
    (he : e ∈ (w.loadedOf n).filter fun e => e.state = .unloading) :
    unloadResumes t (n, e) = (deliver (ovenFrame .distribution n (.unload e.number e.version)) t).modEntry n e.number e.version
      (fun x => { x with sends := 1, deadline := some (.unload, min 4294967295 (w.clock + 5)) }) := by
  obtain ⟨mem, unloading⟩ := List.mem_filter.1 he
  have found : w.entry n e.number e.version = some e := by
    cases hf : w.entry n e.number e.version with
    | none => exact absurd (Entry.is_iff.2 ⟨rfl, rfl⟩) (List.find?_eq_none.1 hf e mem)
    | some x =>
      obtain ⟨hx, number, version⟩ := State.entry_some hf
      rw [List.inj_on_of_nodup_map nd hx mem (Prod.ext number version)]
  obtain ⟨x, hx, state⟩ : ∃ x, t.entry n e.number e.version = some x ∧ x.state = .unloading := by
    have := h.states n e.number e.version
    rw [found, Option.map_some, of_decide_eq_true unloading] at this
    exact Option.map_eq_some_iff.1 this
  obtain ⟨-, number, version⟩ := State.entry_some hx
  have clock : State.after (deliver (ovenFrame .distribution n (.unload e.number e.version)) t) Config.distributionSeconds =
      min 4294967295 (w.clock + 5) :=
    congrArg (fun c => min 4294967295 (c + 5)) ((deliver_clock _ _).trans h.clock)
  unfold unloadResumes
  simp only [hx, state, if_true, number, version]
  rw [sendUnload, placeFor_eq_deliver h.settled, clock]

theorem unloads_foldl (h : Unloads w t) (nd : ∀ n, ((w.loadedOf n).map fun e => (e.number, e.version)).Nodup) :
    w.unloadingEntries.foldl unloadResumes t = allSlots.foldl w.unloadedAfresh t ∧
      Unloads w (w.unloadingEntries.foldl unloadResumes t) := by
  unfold State.unloadingEntries
  rw [List.foldl_flatMap]
  refine foldl_agree (P := Unloads w) _ (fun t h n _ => ?_) h
  rw [List.foldl_map]
  refine foldl_agree (P := Unloads w) _ (fun t h e he => ?_) h
  have told := unloadResumes_eq h (nd n) he
  refine ⟨told, ?_⟩
  rw [told]
  refine ⟨?_, (deliver_clock _ t).trans h.clock, (deliver_keeps_permits _ t).trans h.permits, fun m j k => ?_⟩
  · exact (Moves.refl.modEntry n e.number e.version _).settled (deliver_settled t _)
  · refine (entry_modEntry_state _ _ (fun _ => by exact ⟨rfl, rfl, rfl⟩) m j k).trans ?_
    rw [State.entry, deliver_loadedOf]
    exact h.states m j k

/-! ### STOP (R107) -/

/-- R107: STOP for the permit of an oven in STOPPING. -/
def State.stoppedAfresh (w t : State) (n : Nat) : State :=
  match w.permit n with
  | some p => if p.stopping = true then deliver (ovenFrame .permitUnit n (.stop p.number)) t else t
  | none => t

theorem permitsResume_eq (hs : t.Settled) (hp : t.permits = w.permits) : permitsResume t = allSlots.foldl w.stoppedAfresh t := by
  refine (foldl_agree (P := fun t => t.Settled ∧ t.permits = w.permits) _ (fun t h n _ => ?_) ⟨hs, hp⟩).1
  have permit : t.permit n = w.permit n := by rw [State.permit, h.2]; rfl
  unfold State.stoppedAfresh
  rw [permit]
  cases w.permit n with
  | none => exact ⟨rfl, h⟩
  | some p =>
    dsimp only
    rw [placeFor_eq_deliver h.1]
    split
    · exact ⟨rfl, deliver_settled t _, (deliver_keeps_permits _ t).trans h.2⟩
    · exact ⟨rfl, h⟩

end Sys2Proof.Machine
end

section
/-! PROOF. The obligation about the end of a warm reset (R188). -/

namespace Sys2Proof.Machine

set_option Elab.async false

variable {s t w : State} {cause : ResetCause} {since : Nat} {brsel : Bool}

/-- R48, R89, R107, R180: the make-ups, pass by pass, from a state that has what the passes read. -/
theorem makeUps_eq (h : Resumes w t) (nd : ∀ n, ((w.loadedOf n).map fun e => (e.number, e.version)).Nodup) :
    makeUps cause w.unloadingEntries t = raise .siteRestarted 0 (le 1 1 ++ le 1 (resetCauseCode cause))
      (allSlots.foldl w.stoppedAfresh (slotChoice (allSlots.foldl w.unloadedAfresh
        (allSlots.foldl w.toldAfresh (channelChoice t))))) := by
  obtain ⟨registry, told⟩ := registryResumes_eq h.channelChoice
  have begin : Unloads w (registryResumes (channelChoice t)) :=
    ⟨told.settled, told.clock, told.permits, fun m j k => by rw [State.entry, State.loadedOf, told.loaded]; rfl⟩
  obtain ⟨unloads, unloaded⟩ := unloads_foldl begin nd
  have settled := Moves.refl.slotChoice.settled unloaded.settled
  have permits := (Relays.refl (s := w.unloadingEntries.foldl unloadResumes (registryResumes (channelChoice t)))).slotChoice.permits
  unfold makeUps distributionResumes
  rw [permitsResume_eq settled (permits.trans unloaded.permits), unloads, registry]

/-! ### A reset in which nothing passed -/

theorem returned_resumes (settled : s.Settled) : Resumes (s.returned brsel) (s.returned brsel) where
  settled := settled
  clock := rfl
  permits := rfl
  loaded := rfl
  unbound k := by
    cases k with
    | zero => rfl
    | succ k =>
      show ((Vector.replicate 4 none)[k]?).getD none = none
      rw [Vector.getElem?_replicate]
      split <;> rfl
  records _ := rfl

theorem Resumes.running (h : Resumes w t) : Resumes w { t with power := .running } :=
  ⟨h.settled, h.clock, h.permits, h.loaded, h.unbound, h.records⟩

theorem returned_key (e : Entry) : e.returned.number = e.number ∧ e.returned.version = e.version := by
  unfold Entry.returned
  split <;> exact ⟨rfl, rfl⟩

theorem returned_oven (e : CEntry) : e.returned.oven = e.oven := by
  unfold CEntry.returned
  split <;> rfl

theorem returned_unloadedAfresh (n : Nat) : (s.returned brsel).unloadedAfresh t n = s.unloadedAfresh t n := by
  unfold State.unloadedAfresh
  rw [returned_loadedOf, returned_unloading]
  rfl

theorem returned_appliedAfresh (c : Nat) : (s.returned brsel).appliedAfresh t c = s.appliedAfresh t c := by
  unfold State.appliedAfresh
  rw [returned_campaign]
  cases s.campaign c with
  | none => rfl
  | some m =>
    dsimp only [Option.map_some]
    rw [returned_applying]

/-- R188: the end of a warm reset in which no deadline and no window start passed. -/
theorem warmResetEnd_quiet (hp : s.power = .warmReset cause since) (hc : s.clock < Config.maxClock) (settled : s.Settled)
    (entries : ∀ n, ((s.loadedOf n).map fun e => (e.number, e.version)).Nodup)
    (ovens : ∀ c m, s.campaign c = some m → (m.entries.map CEntry.oven).Nodup)
    (armed : ∀ a ∈ (s.returned brsel).retainedAlarms, s.clock < a.instant) (starts : s.startsPassed since = []) :
    exec (.warmResetEnd brsel) s = .next (raise .siteRestarted 0 (le 1 1 ++ le 1 (resetCauseCode cause))
      (allSlots.foldl s.stoppedAfresh (slotChoice (allSlots.foldl s.unloadedAfresh (allSlots.foldl s.toldAfresh
        (channelChoice { gateAll ([1, 2, 3, 4].foldl s.appliedAfresh (s.returned brsel)) with power := .running })))))) := by
  obtain ⟨l, perm, -, ends⟩ := warmResetEnd_parts (brsel := brsel) hp hc
  have none : l = [] := by
    rw [List.filter_eq_nil_iff.2 fun a ha => by simpa using armed a ha] at perm
    exact perm.eq_nil
  have entries' : ∀ n, (((s.returned brsel).loadedOf n).map fun e => (e.number, e.version)).Nodup := fun n => by
    rw [returned_loadedOf, List.map_map]
    refine Eq.mpr (congrArg List.Nodup (List.map_congr_left fun e _ => ?_)) (entries n)
    exact Prod.ext (returned_key e).1 (returned_key e).2
  have ovens' : ∀ c m, (s.returned brsel).campaign c = some m → (m.entries.map CEntry.oven).Nodup := fun c m hm => by
    rw [returned_campaign] at hm
    obtain ⟨m', before, rfl⟩ := Option.map_eq_some_iff.1 hm
    rw [List.map_map]
    refine Eq.mpr (congrArg List.Nodup (List.map_congr_left fun e _ => ?_)) (ovens c m' before)
    exact returned_oven e
  have start := returned_resumes (brsel := brsel) settled
  have applied := appliesAfresh_eq start.settled ovens'
  have gated := (start.foldl (fun _ x k => k.applyResumes x) (s.returned brsel).applyingEntries).gateAll.running
  rw [ends, none, starts, List.foldl_nil, List.foldl_nil, makeUps_eq gated entries', applied]
  have applies : (s.returned brsel).appliedAfresh = s.appliedAfresh := funext₂ fun t c => returned_appliedAfresh c
  have unloads : (s.returned brsel).unloadedAfresh = s.unloadedAfresh := funext₂ fun t n => returned_unloadedAfresh n
  rw [applies, unloads]
  rfl

/-- R188 step 4: the resumption leaves SITE_RESTARTED with detail WARM and the cause, or RESYNC standing for it. -/
theorem resume_noticed (t : State) :
    (∃ e ∈ (resume cause since t).notices, e.kind = .siteRestarted ∧ e.last = (resume cause since t).clock ∧
      e.detail = padDetail (le 1 1 ++ le 1 (resetCauseCode cause))) ∨
    ∃ e ∈ (resume cause since t).notices, e.kind = .resync ∧ e.last = (resume cause since t).clock := by
  unfold resume makeUps
  rw [raise_clock]
  exact raise_noticed 0 _ _ rfl

/-- Settles O7, part by part: every expiry leaves the windows of the campaigns, so the starts passed may be counted before; and
the make-ups of a reset in which nothing passed come to what each pass places. -/
theorem warmResetEndRestarts : Obligations.WarmResetEndRestarts := by
  unfold Obligations.WarmResetEndRestarts
  refine ⟨fun s cause since brsel hp hc => ?_, fun s hl a ha => alarm_row hl ha, fun minute t u h => startsBy_lt_iff h t u,
    fun s cause since brsel hp hc => ⟨warmResetEnd_parts hp hc, fun transmitter busOff queues entries ovens armed starts => ?_⟩⟩
  · have still := resume_still (s := s) (cause := cause) (since := since) (brsel := brsel)
    have noticed := resume_noticed (cause := cause) (since := since) { s with bitRate500 := brsel }
    rw [still.clock] at noticed
    refine ⟨_, exec_warmResetEnd hp hc, still, ?_⟩
    cases cause <;> exact noticed
  · have settled : s.Settled := fun _ => ⟨queues .urgent, queues .answer, queues .bulk, queues .image⟩
    have ends := warmResetEnd_quiet hp hc settled entries ovens armed starts
    cases cause <;> exact ends

end Sys2Proof.Machine
end
